-- ==== Sys2Proof/Word.lean ====
section
/-! DEFINITION. The words of the tower line: a byte of a frame (TABLE 10-1) and the 16 bits of a
check (R159). Everything else the manual counts, numbers or names is a Nat, an Int or a type of its own. -/

namespace Sys2Proof

/-- One byte of a frame or of a record (TABLE 10-1). -/
abbrev Byte := BitVec 8

/-- A CRC-16 of the tower line: a frame's CHECK (R159) or a record check value (R86). -/
abbrev Check := BitVec 16

end Sys2Proof
end

