-- ==== Sys2Proof/Config.lean ====
section
/-! DEFINITION. The fixed quantities of the MT44: the units of 00_scope.md, the capacities of TABLE 0-3
and the places of TABLE 10-5. The manual leaves no value of an instruction's result open, so there is
no free value here (log entry 1). -/

namespace Sys2Proof.Config

/-- Phase units of one tower second, 2³⁰ (R1). -/
def secondPhase : Int := 1073741824
/-- Phase units of one nominal tick, 2²⁰ (R1). -/
def tickPhase : Int := 1048576
/-- Nominal ticks of one second (00_scope.md, Time). -/
def ticksPerSecond : Nat := 1024
/-- The last second of tower time, 2099-12-31 23:59:59, counted from 2000-01-01 00:00:00 (R2). -/
def lastSecond : Int := 3155759999
/-- Seconds between quarter boundaries (R17). -/
def quarterSeconds : Int := 900
/-- Oscillator ticks of silence after which the time state becomes HOLDOVER, 600 s (R11). -/
def silenceTicks : Nat := 614400
/-- Where every count of the part holds (R94, R171 and the count tables). -/
def countLimit : Nat := 65535
/-- Places of the SAFETY queue (TABLE 10-5). -/
def safetyPlaces : Nat := 8
/-- Places of the LOCAL queue (TABLE 10-5). -/
def localPlaces : Nat := 24
/-- Places of the PASS queue (TABLE 10-5). -/
def passPlaces : Nat := 16
/-- Places of the UP queue (TABLE 10-5). -/
def upPlaces : Nat := 16
/-- Places of UP that a report or a notice may fill; the other two are reserved for replies (R167). -/
def upOpenPlaces : Nat := 14
/-- The LOCAL run at which PASS is served (R168). -/
def localRunLimit : Nat := 4
/-- Entries the charge list has room for (R135). -/
def chargeRoom : Nat := 80
/-- Held strikes of one voice (TABLE 6-1). -/
def heldPlaces : Nat := 4
/-- Frames of one phrase stack (R97). -/
def stackFrames : Nat := 4
/-- Entries of the season list (R14). -/
def seasonPlaces : Nat := 16
/-- Ticks a hammer driver has to answer a setting, 5 s (R49). -/
def hammerTicks : Nat := 5120
/-- Ticks after which an unused CONSOLE claim leaves its bell, 120 s (R56). -/
def consoleIdleTicks : Nat := 122880
/-- Ticks between lamp updates (R116). -/
def lampBeat : Nat := 1024
/-- The longest payload of a frame (TABLE 10-1). -/
def payloadLimit : Nat := 32
/-- The most data bytes of one reply (R175, R177). -/
def replyData : Nat := 30
/-- The most steps a voice can take at one due instant: four frames, each of at most 512 steps played
at most 8 times over, make fewer than 2⁵⁰ (R100; log entry 32). -/
def stepBound : Nat := 1125899906842624

end Sys2Proof.Config
end

