-- ==== Sys2Proof/Syntax.lean ====
section
/-! DEFINITION. The commands of the MT44: one constructor of `Instr` for each row of
spec/opcode_table.json, with the row's operands, and the small types those operands need. An operand
is what the frame that carries the command spells; `src` is the frame's SRC node. -/

namespace Sys2Proof

/-- A port of the part (00_scope.md). -/
inductive Port where
  | console | field
  deriving DecidableEq, Repr

/-- The two voices (Part 6). -/
inductive VoiceId where
  | clock | tune
  deriving DecidableEq, Repr

/-- The position a BELL_STATE frame reports (TABLE 10-2). -/
inductive ReportedPosition where
  | down | moving | up
  deriving DecidableEq, Repr

/-- The state a HAMMER_REPORT frame reports (TABLE 10-2). -/
inductive HammerAnswer where
  | engaged | withdrawn | jammed
  deriving DecidableEq, Repr

/-- The status a LAMP_REPORT frame reports (TABLE 10-2). -/
inductive LampStatus where
  | ok | lampFail | driverFail
  deriving DecidableEq, Repr

/-- A feed stage, from highest rank to lowest (TABLE 8-1). -/
inductive Stage where
  | normal | reduced | low
  deriving DecidableEq, Repr

/-- The commands and events of spec/opcode_table.json, in the table's order. -/
inductive Instr where
  /-- OSCILLATOR_TICK (R1). -/
  | oscillatorTick
  /-- SECOND_BOUNDARY (R1). -/
  | secondBoundary
  /-- SILENCE_TIMEOUT (R11). -/
  | silenceTimeout
  /-- TIME_MARK (R5): SRC, year 0–99, month, day, second of day, quality. -/
  | timeMark (src year month day second quality : Nat)
  /-- SET_TIME (R12): year, month, day, second of day. -/
  | setTime (src year month day second : Nat)
  /-- SEASON_ADD (R14): tower instant in seconds, offset in minutes. -/
  | seasonAdd (src instant : Nat) (offset : Int)
  /-- SEASON_REMOVE (R14). -/
  | seasonRemove (src instant : Nat)
  /-- SEASON_BASE (R15). -/
  | seasonBase (src : Nat) (offset : Int)
  /-- READ_RECORD (R175): table code, record number, byte offset. -/
  | readRecord (src table number offset : Nat)
  /-- WRITE_RECORD (R175): table code, record number, the whole record's bytes. -/
  | writeRecord (src table number : Nat) (record : List Byte)
  /-- OPEN_CURSOR (R176): table code, index, direction (1 or 255), count. -/
  | openCursor (src table index direction count : Nat)
  /-- READ_NEXT (R177). -/
  | readNext (src : Nat)
  /-- WRITE_NEXT (R177): the records' bytes, one after another. -/
  | writeNext (src : Nat) (records : List Byte)
  /-- DIAL_FAST_INSTANT (R32) of one dial. -/
  | dialFastInstant (dial : Nat)
  /-- DIAL_STEP_COMPLETION (R30). -/
  | dialStepCompletion
  /-- DIAL_HOME (R34): the driver's node and its dial field. -/
  | dialHome (src channel : Nat)
  /-- SET_DIAL (R37). -/
  | setDial (src dial position : Nat)
  /-- BELL_STATE (R44): the sensor's node, the bell, the position. -/
  | bellState (src bell : Nat) (position : ReportedPosition)
  /-- SETTLE_TIME_REACHED (R45) of one bell. -/
  | settleTimeReached (bell : Nat)
  /-- SENSOR_TIMEOUT (R47) of one bell. -/
  | sensorTimeout (bell : Nat)
  /-- HAMMER_REPORT (R50): the driver's node, its bell field, the state. -/
  | hammerReport (src channel : Nat) (answer : HammerAnswer)
  /-- HAMMER_TIMEOUT (R50) of one bell. -/
  | hammerTimeout (bell : Nat)
  /-- CLAIM_BELLS (R55). -/
  | claimBells (src : Nat) (bells : List Nat)
  /-- RELEASE_BELLS (R55). -/
  | releaseBells (src : Nat) (bells : List Nat)
  /-- CONSOLE_IDLE_TIMEOUT (R56) of one bell. -/
  | consoleIdleTimeout (bell : Nat)
  /-- FIELD_ARBITER_TAKE (R168). -/
  | fieldArbiterTake
  /-- HAMMER_SET_COMPLETION (R49). -/
  | hammerSetCompletion
  /-- LAMP_LEVEL_COMPLETION (R128). -/
  | lampLevelCompletion
  /-- RING_REQUEST (R64). -/
  | ringRequest (src : Nat) (bells : List Nat)
  /-- RING_RELEASE (R71). -/
  | ringRelease (src : Nat)
  /-- VOICE_DUE_INSTANT (R98) of one voice. -/
  | voiceDueInstant (voice : VoiceId)
  /-- HELD_STRIKE_DEADLINE (R104) of one voice. -/
  | heldStrikeDeadline (voice : VoiceId)
  /-- HOUR_BLOW (R108). -/
  | hourBlow
  /-- OMIT_NEXT (R110). -/
  | omitNext (src : Nat)
  /-- START_TUNE (R111): tune, repeats. -/
  | startTune (src tune repeats : Nat)
  /-- STOP_TUNE (R112). -/
  | stopTune (src : Nat)
  /-- LAMP_UPDATE (R123). -/
  | lampUpdate
  /-- APPLY_SCENE (R122). -/
  | applyScene (src scene : Nat)
  /-- LAMP_REPORT (R129): the dimmer's node, its channel, the status. -/
  | lampReport (src channel : Nat) (status : LampStatus)
  /-- FEED_STATE (R134): the monitor's node, the stage. -/
  | feedState (src : Nat) (stage : Stage)
  /-- STRIKE_CHARGE_RELEASE (R136). -/
  | strikeChargeRelease
  /-- RESTORE_TIMER_EXPIRY (R142). -/
  | restoreTimerExpiry
  /-- SCHEDULE_FIRE (R152). -/
  | scheduleFire
  /-- CUE_SOURCE_EVENT (R156). -/
  | cueSourceEvent
  /-- FRAME_RECEIVED (R159): the port, the bytes between two idle gaps. -/
  | frameReceived (port : Port) (bytes : List Byte)
  /-- CONSOLE_TRANSMIT_TAKE (R170). -/
  | consoleTransmitTake
  /-- RESET_PART_REPLY_COMPLETION (R182). -/
  | resetPartReplyCompletion
  /-- ACK_FAULT (R179): the leave operand, 1 for set and 0 for clear. -/
  | ackFault (src leave : Nat)
  /-- RESET_PART (R182). -/
  | resetPart (src : Nat)
  /-- SUPPLY_FAIL (R22). -/
  | supplyFail
  /-- COLD_POWER_ON (R181). -/
  | coldPowerOn
  /-- WARM_POWER_ON (R181). -/
  | warmPowerOn
  /-- FIELD_FRAME_COMPLETION (R169). -/
  | fieldFrameCompletion
  /-- CONSOLE_FRAME_COMPLETION (R170). -/
  | consoleFrameCompletion
  /-- RECEIVER_IDLE_GAP (R171) of one port. -/
  | receiverIdleGap (port : Port)
  /-- BACKUP_CELL_LOW (R181). -/
  | backupCellLow
  deriving DecidableEq, Repr

end Sys2Proof
end

