-- ==== Sys2Proof/Decode.lean ====
section
/-! DEFINITION. The decoder of the opcode table's bits. No row of spec/opcode_table.json gives any bits
(its rows are events, frames and requests, not words), so no word spells a command. How the bytes of an
MGMT_REQUEST or of a report spell a command is `Sys2Proof.Machine.parseRequest` and
`Sys2Proof.Machine.parseCopy`. -/

namespace Sys2Proof

/-- The command that a word spells by the table's bits: none, as no row has bits. -/
def decodeTableWord (_nbits _w : Nat) : Option Instr := none

end Sys2Proof
end

