-- ==== Sys2Proof/Machine/Bytes.lean ====
section
/-! DEFINITION. Bytes: how a number travels (Part 11: fewest whole bytes, high byte first; 10.1: multi-byte
fields high byte first), the CRC-16 of the tower line (R159), counts that hold at 65,535, and the
banks of numbered records. -/

namespace Sys2Proof.Machine

/-- The low byte of a number. -/
def byte (n : Nat) : Byte := BitVec.ofNat 8 n

/-- A number in `width` bytes, high byte first (10.1). -/
def be : Nat → Nat → List Byte
  | 0, _ => []
  | k + 1, v => byte (v / 256 ^ k) :: be k v

/-- The number that bytes spell, high byte first (10.1). -/
def natOf (bs : List Byte) : Nat := bs.foldl (fun a b => a * 256 + b.toNat) 0

/-- A signed number in `width` bytes, two's complement (PRESUMED, log entry 2). -/
def beInt (width : Nat) (i : Int) : List Byte := be width (i % (256 ^ width : Nat)).toNat

/-- The signed number that bytes spell, two's complement (PRESUMED, log entry 2). -/
def intOf (bs : List Byte) : Int :=
  if natOf bs < 256 ^ bs.length / 2 then (natOf bs : Int) else (natOf bs : Int) - (256 ^ bs.length : Nat)

/-- A field that is absent, ANY, EVERY or LEAVE travels as all ones (Part 11). -/
def absentBytes (width : Nat) : List Byte := List.replicate width 0xFF#8

/-- A field that may be absent (or ANY, EVERY, LEAVE). -/
def beOpt (width : Nat) : Option Nat → List Byte
  | some v => be width v
  | none => absentBytes width

/-- An optional field read back: all ones is absent. -/
def natOpt (bs : List Byte) : Option Nat :=
  if bs = absentBytes bs.length then none else some (natOf bs)

/-- A yes-or-no field: 1 for yes and 0 for no (Part 11). -/
def boolByte (b : Bool) : Byte := if b then 1#8 else 0#8

/-- A set as one bit per member, member `first` in the least significant bit (Part 11). -/
def setBits (first : Nat) (members : List Nat) : Nat :=
  (members.map (fun m => 2 ^ (m - first))).sum

/-- The members, ascending, of a set of at most `count` members that travelled as bits. -/
def bitsSet (first count v : Nat) : List Nat :=
  ((List.range count).filter (fun i => v.testBit i)).map (· + first)

/-- A set operand in its one form: the members ascending, each once. -/
def canonical (first count : Nat) (l : List Nat) : List Nat :=
  ((List.range count).map (· + first)).filter (fun m => l.contains m)

/-- One bit of the CRC-16, polynomial x¹⁶ + x¹² + x⁵ + 1 (R159). -/
def crcBit (c : Check) : Check := if c.msb then (c <<< 1) ^^^ 0x1021#16 else c <<< 1

/-- One byte of the CRC-16, most significant bit first (R159). -/
def crcByte (c : Check) (b : Byte) : Check :=
  (List.range 8).foldl (fun c _ => crcBit c) (c ^^^ (b.setWidth 16 <<< 8))

/-- The CRC-16 of the tower line: initial value all ones, no final inversion (R159). -/
def crc16 (bs : List Byte) : Check := bs.foldl crcByte 0xFFFF#16

/-- The two bytes of a check, high byte first (TABLE 10-1). -/
def checkBytes (c : Check) : List Byte := be 2 c.toNat

/-- A count rises by one and holds at 65,535 (R94, R171). -/
def bump (n : Nat) : Nat := if n < Config.countLimit then n + 1 else n

/-- `bump`, `k` times. -/
def bumpBy (k n : Nat) : Nat := if n + k < Config.countLimit then n + k else max n Config.countLimit

/-- Oscillator ticks of an interval of n ms, rounded up (R41). -/
def msTicks (n : Nat) : Nat := (n * 1024 + 999) / 1000

/-- Oscillator ticks of an interval of n s (R41). -/
def secTicks (n : Nat) : Nat := n * 1024

/-- The record of number `i` in a bank numbered from 0; `d` where there is none. -/
def bankGet {α : Type} {n : Nat} (v : Vector α n) (i : Nat) (d : α) : α := v.toList.getD i d

/-- The bank with record `i` replaced, numbered from 0; unchanged where there is none. -/
def bankPut {α : Type} {n : Nat} (v : Vector α n) (i : Nat) (x : α) : Vector α n := v.setIfInBounds i x

/-- The record of number `i` in a bank numbered from 1. -/
def bankGet1 {α : Type} {n : Nat} (v : Vector α n) (i : Nat) (d : α) : α :=
  if i = 0 then d else bankGet v (i - 1) d

/-- The bank with record `i` replaced, numbered from 1. -/
def bankPut1 {α : Type} {n : Nat} (v : Vector α n) (i : Nat) (x : α) : Vector α n :=
  if i = 0 then v else bankPut v (i - 1) x

/-- The numbers 1 to n, in order. -/
def oneTo (n : Nat) : List Nat := (List.range n).map (· + 1)

end Sys2Proof.Machine
end

