-- ==== Sys2Proof/Machine/Records.lean ====
section
/-! DEFINITION. The record types of the part's tables, as the tables of Parts 1 to 11 list their fields,
and the named values those fields take. A bell set, weekday set or class set is the list of its members,
ascending. -/

namespace Sys2Proof.Machine

/-- TABLE 1-5: the time states. -/
inductive TimeState where
  | unset | acquiring | locked | holdover
  deriving DecidableEq, Repr

/-- A date; the year counts from 2000, −1 and 100 standing for the dates just outside the range (R16). -/
structure Date where
  year : Int
  month : Nat
  day : Nat
  deriving DecidableEq, Repr

/-- A season entry: an effective tower instant in seconds and an offset in minutes (1.6). -/
structure Season where
  instant : Int
  offset : Int
  deriving DecidableEq, Repr

/-- The source classes, in the order R173 lists them. -/
inductive SourceClass where
  | noClass | console | operator | service | time
  deriving DecidableEq, Repr

/-- TABLE 2-2: the dial states, in the order of TABLE 2-1. -/
inductive DialState where
  | unknown | stopped | inStep | advancing | waitingFeed | holding | fault
  deriving DecidableEq, Repr

/-- TABLE 2-1, configuration part. Positions P follows the step period. -/
structure DialConfig where
  node : Nat
  channel : Nat
  stepPeriod : Nat
  fastRate : Nat
  holdLimit : Nat
  driveCharge : Nat
  deriving DecidableEq, Repr

/-- The bell classes (TABLE 3-1). -/
inductive BellClass where
  | swing | fixed
  deriving DecidableEq, Repr

/-- The claim classes, highest rank first (3.4). -/
inductive ClaimClass where
  | ringers | console | clock | tune
  deriving DecidableEq, Repr

/-- The permit set of a bell: a set of CLOCK, TUNE, CONSOLE (TABLE 3-1). -/
structure Permits where
  clock : Bool
  tune : Bool
  console : Bool
  deriving DecidableEq, Repr

/-- TABLE 3-1: the configuration part of a bell record. -/
structure BellConfig where
  cls : BellClass
  hammerNode : Option Nat
  hammerChannel : Nat
  sensorNode : Option Nat
  recovery : Nat
  settle : Nat
  charge : Nat
  permits : Permits
  deriving DecidableEq, Repr

/-- Bell positions (TABLE 3-2). -/
inductive Position where
  | down | moving | up | unknown
  deriving DecidableEq, Repr

/-- TABLE 3-3: hammer states, in the order of TABLE 3-2. -/
inductive HammerState where
  | unknown | engaging | engaged | withdrawing | withdrawn | jammed
  deriving DecidableEq, Repr

/-- A hammer setting (TABLE 10-2, HAMMER_SET). -/
inductive HammerAction where
  | engage | withdraw
  deriving DecidableEq, Repr

/-- Where a strike comes from (TABLE 10-2, STRIKE). -/
inductive Origin where
  | clock | tune | console
  deriving DecidableEq, Repr

/-- TABLE 4-1: session states. -/
inductive SessionState where
  | idle | preparing | opened | closing
  deriving DecidableEq, Repr

/-- TABLE 4-1: the stage of one bell of the session. -/
inductive BellStage where
  | withdrawing | held | left
  deriving DecidableEq, Repr

/-- TABLE 4-1: the outcome of the last session. -/
inductive SessionOutcome where
  | noOutcome | closed | failed (bell : Nat)
  deriving DecidableEq, Repr

/-- R75: why a session changed state. -/
inductive SessionReason where
  | request | withdrawn | release | settled | jammed (bell : Nat)
  deriving DecidableEq, Repr

/-- The kind of a directory entry (TABLE 5-2). -/
inductive TuneKind where
  | tune | phrase
  deriving DecidableEq, Repr

/-- The fields of a VALID directory entry (TABLE 5-2). -/
structure TuneEntry where
  kind : TuneKind
  start : Nat
  length : Nat
  tempo : Nat
  bells : List Nat
  deriving DecidableEq, Repr

/-- A directory entry: EMPTY or VALID (TABLE 5-2). -/
inductive DirEntry where
  | empty
  | valid (e : TuneEntry)
  deriving DecidableEq, Repr

/-- A step of the step store (TABLE 5-3). -/
inductive TuneStep where
  | note (bells : List Nat) (force duration : Nat)
  | rest (duration : Nat)
  | call (tune repeats : Nat)
  | endStep
  deriving DecidableEq, Repr

/-- TABLE 5-4: a chime set. -/
structure ChimeSet where
  first : Nat
  second : Nat
  third : Nat
  fourth : Nat
  hourBell : Nat
  altBell : Option Nat
  blowForce : Nat
  blowInterval : Nat
  pause : Nat
  deriving DecidableEq, Repr

/-- TABLE 7-1: the configuration part of a lamp group. -/
structure LampConfig where
  node : Option Nat
  channel : Nat
  rated : Nat
  ceiling : Nat
  priority : Nat
  deriving DecidableEq, Repr

/-- TABLE 7-3: lamp group states, in the order of TABLE 7-2. -/
inductive LampState where
  | dark | ramping | lit | clamped | fault
  deriving DecidableEq, Repr

/-- TABLE 7-4: a scene; `none` is LEAVE. -/
structure Scene where
  targets : Vector (Option Nat) 12
  fadeTime : Nat
  deriving DecidableEq, Repr

/-- TABLE 8-1: the limit table record; monitor `none` is ANY. -/
structure LimitTable where
  normal : Nat
  reduced : Nat
  low : Nat
  restoreDelay : Nat
  monitor : Option Nat
  deriving DecidableEq, Repr

/-- The fields of a VALID day-class entry (TABLE 9-1); year `none` is EVERY. -/
structure DayClass where
  month : Nat
  day : Nat
  year : Option Nat
  classes : List Nat
  deriving DecidableEq, Repr

/-- A sun entry that is not EMPTY: sunrise and sunset minutes of the tower day (R147). -/
structure SunTimes where
  sunrise : Nat
  sunset : Nat
  deriving DecidableEq, Repr

/-- The base of a schedule entry (TABLE 9-2). -/
inductive ScheduleBase where
  | civil | sunrise | sunset
  deriving DecidableEq, Repr

/-- A set of quiet kinds (TABLE 9-4). -/
structure QuietKinds where
  chimes : Bool
  strike : Bool
  tunes : Bool
  deriving DecidableEq, Repr

/-- TABLE 9-4: the actions, in its order. -/
inductive Action where
  | startTune (tune repeats : Nat)
  | stopTune
  | scene (scene : Nat)
  | quietBegin (kinds : QuietKinds)
  | quietEnd (kinds : QuietKinds)
  | chimeSet (set : Nat)
  | omitNext
  | notice (code : Nat)
  deriving DecidableEq, Repr

/-- TABLE 9-2, the fields a write sets: weekdays 0 (Saturday) to 6, classes 0 (A) to 7 (H). -/
structure ScheduleConfig where
  enabled : Bool
  base : ScheduleBase
  minute : Int
  weekdays : List Nat
  required : List Nat
  excluded : List Nat
  action : Action
  deriving DecidableEq, Repr

/-- TABLE 9-2: the state for today. -/
inductive EntryState where
  | armed | fired | skipped | notToday | disabled
  deriving DecidableEq, Repr

/-- TABLE 9-2: a last-decided date with its outcome (fired, or else skipped). -/
structure Decided where
  date : Date
  fired : Bool
  deriving DecidableEq, Repr

/-- Why a tune ended (R113). -/
inductive EndReason where
  | ended | stopped | abandoned | safe
  deriving DecidableEq, Repr

/-- TABLE 9-5: the source a cue link is bound to; `none` is ANY. -/
inductive CueSource where
  | quarter (q : Option Nat)
  | hour (h : Option Nat)
  | sunrise
  | sunset
  | entry (n : Nat)
  | sessionOpen
  | sessionClosed
  | tuneEnd (tune : Option Nat) (reason : Option EndReason)
  | feedStage (stage : Stage)
  | faultMajor
  deriving DecidableEq, Repr

/-- TABLE 9-5, the fields a write sets. -/
structure LinkConfig where
  enabled : Bool
  source : CueSource
  action : Action
  deriving DecidableEq, Repr

/-- R155: the calendar configuration record; the catch-up window in minutes. -/
structure CalendarConfig where
  catchUp : Nat
  selector : Nat
  deriving DecidableEq, Repr

/-- The route actions (TABLE 10-3). -/
inductive RouteAction where
  | forward | drop | bellCheck | tap | toPart
  deriving DecidableEq, Repr

/-- The fields of a VALID route entry (TABLE 10-3); `none` is ANY. `bellCheck` is GUARD and `toPart` is LOCAL. -/
structure RouteMatch where
  port : Port
  kind : Option Nat
  dest : Option Nat
  src : Option Nat
  action : RouteAction
  deriving DecidableEq, Repr

/-- A route entry: EMPTY (`none`) or VALID (TABLE 10-3). -/
abbrev RouteEntry := Option RouteMatch

/-- A record stored with its record check value (R86). -/
structure Checked (α : Type) where
  val : α
  check : Check
  deriving DecidableEq, Repr

/-- A frame of the tower line, less its LEN and CHECK, which follow from the rest (TABLE 10-1). -/
structure Frame where
  dest : Nat
  src : Nat
  kind : Nat
  payload : List Byte
  deriving DecidableEq, Repr

/-- TABLE 11-4: the completion codes. -/
inductive Code where
  | ok | busy | wrongState | badTable | badIndex | badValue | readOnly | notPermitted | inUse | full
  | duplicate | noCursor | notSwing | safeState | checkFail
  deriving DecidableEq, Repr

/-- R180: the fault kinds. -/
inductive FaultKind where
  | trimLimit | dialFault | intrusion | sensorSilent | hammerJam | hammerUnexpected | tableCheck
  | controlCheck | tuneDepth | lampFail | feedLow
  deriving DecidableEq, Repr

/-- R180: the notice kinds. -/
inductive NoticeKind where
  | faultRaised | safeEntered | safeLeft | sessionState | timeState | feedStage | cue
  deriving DecidableEq, Repr

/-- The source events the Calendar's cue links take (R156). -/
inductive CueEvent where
  | quarter (q h : Nat) (late : Bool)
  | sunrise
  | sunset
  | entry (n : Nat)
  | sessionOpen
  | sessionClosed
  | tuneEnd (tune : Nat) (reason : EndReason)
  | feedStage (stage : Stage)
  | faultMajor
  deriving DecidableEq, Repr

/-- The tables of TABLE 11-5. -/
inductive Table where
  | identity | partConfig | sources | faults | timeConfig | timeStatus | seasons | dials | bells | guardConfig
  | session | directory | steps | chimes | voices | groups | scenes | limits | budgetStatus
  | dayClasses | sun | schedule | links | calendarConfig | calendarStatus | routes | lineStatus
  deriving DecidableEq, Repr

/-- The answers of the guard check at admission (TABLE 3-4). -/
inductive Answer where
  | admitted | safe | notOwner | notPermitted | position | hammer | recovery | budgetSkip
  deriving DecidableEq, Repr

/-- What the grant rule decides of a strike or dial charge (R137). -/
inductive GrantDecision where
  | refuse
  | grant
  | reclaim (amount : Nat)
  deriving DecidableEq, Repr

end Sys2Proof.Machine
end

