-- ==== Sys2Proof/Machine/Layout.lean ====
section
/-! DEFINITION. The layout of every writable record (Part 11: fields in the order of the table that
specifies it, each in the fewest whole bytes that hold its range): for each table the bytes of a record,
and the record that bytes spell, `none` where a field lies outside its range (refused with BAD_VALUE). -/

namespace Sys2Proof.Machine

/-! ## Fields -/

/-- The number in `width` bytes of a record from byte `start` on. -/
def numAt (bs : List Byte) (start width : Nat) : Nat := natOf ((bs.drop start).take width)
/-- The signed number in two bytes of a record. -/
def intAt (bs : List Byte) (start width : Nat) : Int := intOf ((bs.drop start).take width)
/-- The optional number in `width` bytes of a record. -/
def optAt (bs : List Byte) (start width : Nat) : Option Nat := natOpt ((bs.drop start).take width)
/-- The yes-or-no field at a byte. -/
def boolAt (bs : List Byte) (start : Nat) : Option Bool :=
  match numAt bs start 1 with
  | 0 => some false
  | 1 => some true
  | _ => none
/-- `n` within lo to hi. -/
def within (lo n hi : Nat) : Bool := lo ≤ n && n ≤ hi
/-- An optional field is absent or within lo to hi. -/
def optWithin (lo : Nat) (n : Option Nat) (hi : Nat) : Bool := n.all (fun v => within lo v hi)

/-! ## Codes of named values: the position in the list the table gives, or the code TABLE 10-2 gives -/

def SourceClass.code : SourceClass → Nat
  | .noClass => 0 | .console => 1 | .operator => 2 | .service => 3 | .time => 4
def SourceClass.ofCode : Nat → Option SourceClass
  | 0 => some .noClass | 1 => some .console | 2 => some .operator | 3 => some .service | 4 => some .time
  | _ => none
def TimeState.code : TimeState → Nat
  | .unset => 0 | .acquiring => 1 | .locked => 2 | .holdover => 3
def DialState.code : DialState → Nat
  | .unknown => 0 | .stopped => 1 | .inStep => 2 | .advancing => 3 | .waitingFeed => 4 | .holding => 5 | .fault => 6
def BellClass.code : BellClass → Nat
  | .swing => 0 | .fixed => 1
/-- The position of a bell record, as its place in the list of TABLE 3-2 and not as a BELL_STATE codes it (log
entry 44). -/
def Position.code : Position → Nat
  | .down => 0 | .moving => 1 | .up => 2 | .unknown => 3
/-- The hammer state of a bell record, as its place in the list of TABLE 3-2 and not as a HAMMER_REPORT codes it (log
entry 44). -/
def HammerState.code : HammerState → Nat
  | .unknown => 0 | .engaging => 1 | .engaged => 2 | .withdrawing => 3 | .withdrawn => 4 | .jammed => 5
/-- TABLE 10-2, HAMMER_SET. -/
def HammerAction.code : HammerAction → Nat
  | .engage => 1 | .withdraw => 2
/-- TABLE 10-2, STRIKE. -/
def Origin.code : Origin → Nat
  | .clock => 1 | .tune => 2 | .console => 3
/-- TABLE 10-2, BELL_STATE. -/
def reportCode : ReportedPosition → Nat
  | .down => 1 | .moving => 2 | .up => 3
/-- TABLE 10-2, LAMP_REPORT. -/
def lampStatusCode : LampStatus → Nat
  | .ok => 0 | .lampFail => 1 | .driverFail => 2
/-- TABLE 10-2, FEED_STATE. -/
def stageCode : Stage → Nat
  | .normal => 0 | .reduced => 1 | .low => 2
def stageOfCode : Nat → Option Stage
  | 0 => some .normal | 1 => some .reduced | 2 => some .low | _ => none
def SessionState.code : SessionState → Nat
  | .idle => 0 | .preparing => 1 | .opened => 2 | .closing => 3
def BellStage.code : BellStage → Nat
  | .withdrawing => 0 | .held => 1 | .left => 2
/-- R75: the five reasons, JAMMED with its bell as a second byte. -/
def SessionReason.bytes : SessionReason → List Byte
  | .request => [0, 0] | .withdrawn => [1, 0] | .release => [2, 0] | .settled => [3, 0]
  | .jammed b => [4, byte b]
def EndReason.code : EndReason → Nat
  | .ended => 0 | .stopped => 1 | .abandoned => 2 | .safe => 3
def EndReason.ofCode : Nat → Option EndReason
  | 0 => some .ended | 1 => some .stopped | 2 => some .abandoned | 3 => some .safe | _ => none
def EntryState.code : EntryState → Nat
  | .armed => 0 | .fired => 1 | .skipped => 2 | .notToday => 3 | .disabled => 4
def RouteAction.code : RouteAction → Nat
  | .forward => 0 | .drop => 1 | .bellCheck => 2 | .tap => 3 | .toPart => 4
def RouteAction.ofCode : Nat → Option RouteAction
  | 0 => some .forward | 1 => some .drop | 2 => some .bellCheck | 3 => some .tap | 4 => some .toPart | _ => none
/-- TABLE 11-4. -/
def Code.code : Code → Nat
  | .ok => 0 | .busy => 1 | .wrongState => 2 | .badTable => 3 | .badIndex => 4 | .badValue => 5 | .readOnly => 6
  | .notPermitted => 7 | .inUse => 8 | .full => 9 | .duplicate => 10 | .noCursor => 11 | .notSwing => 12
  | .safeState => 13 | .checkFail => 14
/-- R180: the codes of the fault kinds. -/
def FaultKind.code : FaultKind → Nat
  | .trimLimit => 1 | .dialFault => 2 | .intrusion => 3 | .sensorSilent => 4 | .hammerJam => 5
  | .hammerUnexpected => 6 | .tableCheck => 7 | .controlCheck => 8 | .tuneDepth => 9 | .lampFail => 10 | .feedLow => 11
/-- R180: the kinds whose severity is MAJOR. -/
def FaultKind.major : FaultKind → Bool
  | .intrusion | .hammerJam | .hammerUnexpected | .controlCheck => true
  | _ => false
/-- R180: the codes of the notice kinds. -/
def NoticeKind.code : NoticeKind → Nat
  | .faultRaised => 1 | .safeEntered => 2 | .safeLeft => 3 | .sessionState => 4 | .timeState => 5 | .feedStage => 6
  | .cue => 7
/-- TABLE 11-5: the table codes. -/
def Table.code : Table → Nat
  | .identity => 0 | .partConfig => 1 | .sources => 2 | .faults => 3 | .timeConfig => 4 | .timeStatus => 5
  | .seasons => 6 | .dials => 7 | .bells => 8 | .guardConfig => 9 | .session => 10 | .directory => 11 | .steps => 12
  | .chimes => 13 | .voices => 14 | .groups => 15 | .scenes => 16 | .limits => 17 | .budgetStatus => 18
  | .dayClasses => 19 | .sun => 20 | .schedule => 21 | .links => 22 | .calendarConfig => 23 | .calendarStatus => 24
  | .routes => 25 | .lineStatus => 26
/-- TABLE 11-5, in code order. -/
def Table.all : List Table :=
  [.identity, .partConfig, .sources, .faults, .timeConfig, .timeStatus, .seasons, .dials, .bells, .guardConfig,
   .session, .directory, .steps, .chimes, .voices, .groups, .scenes, .limits, .budgetStatus, .dayClasses, .sun,
   .schedule, .links, .calendarConfig, .calendarStatus, .routes, .lineStatus]
/-- The table a code names. -/
def Table.ofCode (n : Nat) : Option Table := Table.all[n]?

/-! ## Part 1: time configuration (R4) -/

/-- TABLE 11-5, table 4: trim, W, d. -/
def timeConfigBytes (trim : Int) (window delay : Nat) : List Byte := beInt 2 trim ++ be 2 window ++ be 1 delay

/-- The trim, W and d that bytes spell, within the ranges of R3 and R4. -/
def parseTimeConfig (bs : List Byte) : Option (Int × Nat × Nat) :=
  let t := intAt bs 0 2
  let w := numAt bs 2 2
  let d := numAt bs 4 1
  if bs.length = 5 ∧ -500 ≤ t ∧ t ≤ 500 ∧ (w = 16 ∨ w = 64 ∨ w = 256 ∨ w = 1024) ∧ d ≤ 20 then some (t, w, d)
  else none

/-! ## Part 2: dials (R23) -/

/-- Positions of one revolution: 1440 for a 30 s dial and 720 for a 60 s dial (TABLE 2-1). -/
def positionsOf (stepPeriod : Nat) : Nat := 43200 / stepPeriod

def dialConfigBytes (c : DialConfig) : List Byte :=
  be 1 c.node ++ be 1 c.channel ++ be 1 c.stepPeriod ++ be 1 c.fastRate ++ be 2 c.holdLimit ++ be 1 c.driveCharge

/-- R23: the fields of a written dial record. -/
def parseDialConfig (bs : List Byte) : Option DialConfig :=
  let c : DialConfig :=
    { node := numAt bs 0 1, channel := numAt bs 1 1, stepPeriod := numAt bs 2 1, fastRate := numAt bs 3 1,
      holdLimit := numAt bs 4 2, driveCharge := numAt bs 6 1 }
  if bs.length = 7 ∧ within 1 c.node 62 ∧ within 1 c.channel 4 ∧ (c.stepPeriod = 30 ∨ c.stepPeriod = 60)
      ∧ within 4 c.fastRate 30 ∧ c.driveCharge ≤ 200 ∧ c.holdLimit ≤ positionsOf c.stepPeriod / 2 then some c
  else none

/-! ## Part 3: bells (R42, R43) -/

def Permits.bits (p : Permits) : Nat :=
  (if p.clock then 1 else 0) + (if p.tune then 2 else 0) + (if p.console then 4 else 0)

def bellConfigBytes (c : BellConfig) : List Byte :=
  be 1 c.cls.code ++ beOpt 1 c.hammerNode ++ be 1 c.hammerChannel ++ beOpt 1 c.sensorNode ++ be 2 c.recovery
    ++ be 2 c.settle ++ be 2 c.charge ++ be 1 c.permits.bits

/-- TABLE 3-1: the fields of a written bell record; the sensor node reads as absent for a FIXED bell. -/
def parseBellConfig (bs : List Byte) : Option BellConfig :=
  let hn := optAt bs 1 1
  let sn := optAt bs 3 1
  let pm := numAt bs 10 1
  if bs.length = 11 ∧ numAt bs 0 1 ≤ 1 ∧ optWithin 1 hn 62 ∧ within 1 (numAt bs 2 1) 16 ∧ optWithin 1 sn 62
      ∧ within 200 (numAt bs 4 2) 5000 ∧ within 10 (numAt bs 6 2) 600 ∧ numAt bs 8 2 ≤ 500 ∧ pm ≤ 7 then
    some { cls := if numAt bs 0 1 = 0 then .swing else .fixed,
           hammerNode := hn, hammerChannel := numAt bs 2 1,
           sensorNode := if numAt bs 0 1 = 0 then sn else none,
           recovery := numAt bs 4 2, settle := numAt bs 6 2, charge := numAt bs 8 2,
           permits := { clock := pm.testBit 0, tune := pm.testBit 1, console := pm.testBit 2 } }
  else none

/-- R43: the sensor timeout, 10 to 120 s. -/
def parseGuardConfig (bs : List Byte) : Option Nat :=
  if bs.length = 1 ∧ within 10 (numAt bs 0 1) 120 then some (numAt bs 0 1) else none

/-! ## Part 5: the Tune Store (R79, R81, R83) -/

/-- A bell set of 16 bits, bell 1 least significant (Part 11). -/
def bellSetBytes (bells : List Nat) : List Byte := be 2 (setBits 1 bells)

def dirBytes : DirEntry → List Byte
  | .empty => be 1 0 ++ absentBytes 8
  | .valid e => be 1 1 ++ be 1 (match e.kind with | .tune => 0 | .phrase => 1) ++ be 2 e.start ++ be 2 e.length
      ++ be 1 e.tempo ++ bellSetBytes e.bells

/-- R79, checks 2 and 3. -/
def parseDir (bs : List Byte) : Option DirEntry :=
  if bs.length ≠ 9 then none
  else if numAt bs 0 1 = 0 then some .empty
  else
    let e : TuneEntry :=
      { kind := if numAt bs 1 1 = 0 then .tune else .phrase, start := numAt bs 2 2, length := numAt bs 4 2,
        tempo := numAt bs 6 1, bells := bitsSet 1 16 (numAt bs 7 2) }
    if numAt bs 0 1 = 1 ∧ numAt bs 1 1 ≤ 1 ∧ e.start ≤ 2047 ∧ within 1 e.length 512 ∧ e.start + e.length ≤ 2048
        ∧ within 20 e.tempo 240 ∧ e.bells ≠ [] then some (.valid e)
    else none

/-- The bells of a NOTE in its four places, unused places 0 (TABLE 11-2). -/
def noteBells (bells : List Nat) : List Byte := (bells.map byte ++ List.replicate 4 0#8).take 4

/-- TABLE 11-2: the layout of a step. -/
def stepBytes : TuneStep → List Byte
  | .note bells force duration => be 1 1 ++ noteBells bells ++ be 1 force ++ be 1 duration
  | .rest duration => be 1 2 ++ List.replicate 5 0#8 ++ be 1 duration
  | .call tune repeats => be 1 3 ++ be 1 tune ++ be 1 repeats ++ List.replicate 4 0#8
  | .endStep => be 1 4 ++ List.replicate 6 0#8

/-- The contents a step's check value covers: its kind and the fields of that kind (R86), in their travel layout, a NOTE's
bell list filled to four places (log entry 55). -/
def stepContents : TuneStep → List Byte
  | .note bells force duration => be 1 1 ++ noteBells bells ++ be 1 force ++ be 1 duration
  | .rest duration => be 1 2 ++ be 1 duration
  | .call tune repeats => be 1 3 ++ be 1 tune ++ be 1 repeats
  | .endStep => be 1 4

/-- The bell list of a NOTE: the bells before the first unused place; `none` if a bell stands after it
(TABLE 11-2: a bell list not in form). -/
def readNoteBells (places : List Nat) : Option (List Nat) :=
  let used := places.takeWhile (· ≠ 0)
  if (places.drop used.length).all (· = 0) then some used else none

/-- R81, check 2. Bytes the kind does not use are ignored. -/
def parseStep (bs : List Byte) : Option TuneStep :=
  if bs.length ≠ 7 then none
  else
    match numAt bs 0 1 with
    | 1 =>
      match readNoteBells ((List.range 4).map (fun i => numAt bs (i + 1) 1)) with
      | some bells =>
        if bells ≠ [] ∧ bells.all (fun b => within 1 b 16) ∧ bells.Nodup ∧ within 1 (numAt bs 5 1) 7
            ∧ within 1 (numAt bs 6 1) 64 then some (.note bells (numAt bs 5 1) (numAt bs 6 1))
        else none
      | none => none
    | 2 => if within 1 (numAt bs 6 1) 64 then some (.rest (numAt bs 6 1)) else none
    | 3 =>
      if numAt bs 1 1 ≤ 95 ∧ within 1 (numAt bs 2 1) 8 then some (.call (numAt bs 1 1) (numAt bs 2 1)) else none
    | 4 => some .endStep
    | _ => none

def chimeBytes (c : ChimeSet) : List Byte :=
  be 1 c.first ++ be 1 c.second ++ be 1 c.third ++ be 1 c.fourth ++ be 1 c.hourBell ++ beOpt 1 c.altBell
    ++ be 1 c.blowForce ++ be 2 c.blowInterval ++ be 2 c.pause

/-- R83, check 2. -/
def parseChime (bs : List Byte) : Option ChimeSet :=
  let c : ChimeSet :=
    { first := numAt bs 0 1, second := numAt bs 1 1, third := numAt bs 2 1, fourth := numAt bs 3 1,
      hourBell := numAt bs 4 1, altBell := optAt bs 5 1, blowForce := numAt bs 6 1, blowInterval := numAt bs 7 2,
      pause := numAt bs 9 2 }
  if bs.length = 11 ∧ c.first ≤ 95 ∧ c.second ≤ 95 ∧ c.third ≤ 95 ∧ c.fourth ≤ 95 ∧ within 1 c.hourBell 16
      ∧ optWithin 1 c.altBell 16 ∧ c.altBell ≠ some c.hourBell ∧ within 1 c.blowForce 7
      ∧ within 1000 c.blowInterval 10000 ∧ c.pause ≤ 10000 then some c
  else none

/-! ## Part 7: lamp groups and scenes (R118, R121) -/

def lampConfigBytes (c : LampConfig) : List Byte :=
  beOpt 1 c.node ++ be 1 c.channel ++ be 2 c.rated ++ be 2 c.ceiling ++ be 1 c.priority

/-- TABLE 7-1: the fields of a written group record. -/
def parseLampConfig (bs : List Byte) : Option LampConfig :=
  let c : LampConfig :=
    { node := optAt bs 0 1, channel := numAt bs 1 1, rated := numAt bs 2 2, ceiling := numAt bs 4 2,
      priority := numAt bs 6 1 }
  if bs.length = 7 ∧ optWithin 1 c.node 62 ∧ within 1 c.channel 16 ∧ within 1 c.rated 1000 ∧ c.ceiling ≤ 1000
      ∧ c.priority ≤ 3 then some c
  else none

def sceneBytes (s : Scene) : List Byte := (s.targets.toList.map (beOpt 2)).flatten ++ be 2 s.fadeTime

/-- R121: a target is 0 to 1000 or LEAVE, the fade time at most 600 s. -/
def parseScene (bs : List Byte) : Option Scene :=
  let targets : Vector (Option Nat) 12 := Vector.ofFn (fun i => optAt bs (2 * i.val) 2)
  if bs.length = 26 ∧ targets.toList.all (fun t => optWithin 0 t 1000) ∧ numAt bs 24 2 ≤ 600 then
    some { targets := targets, fadeTime := numAt bs 24 2 }
  else none

/-! ## Part 8: the limit table (R133) -/

def limitBytes (t : LimitTable) : List Byte :=
  be 2 t.normal ++ be 2 t.reduced ++ be 2 t.low ++ be 2 t.restoreDelay ++ beOpt 1 t.monitor

/-- R133, check 1: the ranges of TABLE 8-1 and the order of the limits. -/
def parseLimits (bs : List Byte) : Option LimitTable :=
  let t : LimitTable :=
    { normal := numAt bs 0 2, reduced := numAt bs 2 2, low := numAt bs 4 2, restoreDelay := numAt bs 6 2,
      monitor := optAt bs 8 1 }
  if bs.length = 9 ∧ t.normal ≤ 5000 ∧ t.reduced ≤ t.normal ∧ t.low ≤ t.reduced ∧ within 5 t.restoreDelay 300
      ∧ optWithin 1 t.monitor 62 then some t
  else none

/-! ## Part 9: the Calendar's tables -/

/-- Days of each month (R5: February has 29 days in every year divisible by 4). -/
def monthDays (leap : Bool) : List Nat := [31, if leap then 29 else 28, 31, 30, 31, 30, 31, 31, 30, 31, 30, 31]

/-- A year of the tower range that has a February 29 (Conventions). -/
def leapYear (y : Int) : Bool := y % 4 = 0

/-- The days of a month; 0 for a month outside 1 to 12. -/
def daysIn (leap : Bool) (month : Nat) : Nat := if month = 0 then 0 else (monthDays leap).getD (month - 1) 0

def dayClassBytes : Option DayClass → List Byte
  | none => be 1 0 ++ absentBytes 4
  | some c => be 1 1 ++ be 1 c.month ++ be 1 c.day ++ beOpt 1 c.year ++ be 1 (setBits 0 c.classes)

/-- R145: an EMPTY entry, or a VALID one whose date exists. -/
def parseDayClass (bs : List Byte) : Option (Option DayClass) :=
  if bs.length ≠ 5 then none
  else if numAt bs 0 1 = 0 then some none
  else
    let c : DayClass :=
      { month := numAt bs 1 1, day := numAt bs 2 1, year := optAt bs 3 1, classes := bitsSet 0 8 (numAt bs 4 1) }
    if numAt bs 0 1 = 1 ∧ within 1 c.month 12 ∧ 1 ≤ c.day ∧ optWithin 0 c.year 99
        ∧ c.day ≤ daysIn (c.year.all (fun y => leapYear y)) c.month then some (some c)
    else none

def sunBytes : Option SunTimes → List Byte
  | none => absentBytes 4
  | some t => be 2 t.sunrise ++ be 2 t.sunset

/-- R147: EMPTY, or two minutes of the tower day. -/
def parseSun (bs : List Byte) : Option (Option SunTimes) :=
  if bs.length ≠ 4 then none
  else if bs = absentBytes 4 then some none
  else if numAt bs 0 2 ≤ 1439 ∧ numAt bs 2 2 ≤ 1439 then
    some (some { sunrise := numAt bs 0 2, sunset := numAt bs 2 2 })
  else none

def QuietKinds.bits (k : QuietKinds) : Nat :=
  (if k.chimes then 1 else 0) + (if k.strike then 2 else 0) + (if k.tunes then 4 else 0)

/-- TABLE 9-4: an action's position in the list. -/
def Action.code : Action → Nat
  | .startTune _ _ => 0 | .stopTune => 1 | .scene _ => 2 | .quietBegin _ => 3 | .quietEnd _ => 4 | .chimeSet _ => 5
  | .omitNext => 6 | .notice _ => 7

/-- An action travels as its kind and its operands, padded with zero bytes (Part 11). -/
def actionBytes (a : Action) : List Byte :=
  be 1 a.code ++
    match a with
    | .startTune t r => be 1 t ++ be 1 r
    | .stopTune => [0, 0]
    | .scene s => be 1 s ++ [0]
    | .quietBegin k => be 1 k.bits ++ [0]
    | .quietEnd k => be 1 k.bits ++ [0]
    | .chimeSet n => be 1 n ++ [0]
    | .omitNext => [0, 0]
    | .notice c => be 1 c ++ [0]

/-- The non-empty set of quiet kinds that a byte spells (TABLE 9-4). -/
def parseQuiet (v : Nat) : Option QuietKinds :=
  if within 1 v 7 then some { chimes := v.testBit 0, strike := v.testBit 1, tunes := v.testBit 2 } else none

/-- The action that kind and operand bytes spell; operands within TABLE 9-4. -/
def parseAction (kind a b : Nat) : Option Action :=
  match kind with
  | 0 => if a ≤ 95 ∧ within 1 b 8 then some (.startTune a b) else none
  | 1 => some .stopTune
  | 2 => if a ≤ 15 then some (.scene a) else none
  | 3 => (parseQuiet a).map .quietBegin
  | 4 => (parseQuiet a).map .quietEnd
  | 5 => if a ≤ 3 then some (.chimeSet a) else none
  | 6 => some .omitNext
  | 7 => some (.notice a)
  | _ => none

def ScheduleBase.code : ScheduleBase → Nat
  | .civil => 0 | .sunrise => 1 | .sunset => 2
def ScheduleBase.ofCode : Nat → Option ScheduleBase
  | 0 => some .civil | 1 => some .sunrise | 2 => some .sunset | _ => none

def scheduleBytes (c : ScheduleConfig) : List Byte :=
  [boolByte c.enabled] ++ be 1 c.base.code ++ beInt 2 c.minute ++ be 1 (setBits 0 c.weekdays)
    ++ be 1 (setBits 0 c.required) ++ be 1 (setBits 0 c.excluded) ++ actionBytes c.action

/-- The minutes a base allows (TABLE 9-2). -/
def minuteAllowed (base : ScheduleBase) (m : Int) : Bool :=
  match base with
  | .civil => 0 ≤ m && m ≤ 1439
  | _ => -120 ≤ m && m ≤ 120

/-- R148: the fields of a written schedule entry. -/
def parseSchedule (bs : List Byte) : Option ScheduleConfig :=
  match boolAt bs 0, ScheduleBase.ofCode (numAt bs 1 1), parseAction (numAt bs 7 1) (numAt bs 8 1) (numAt bs 9 1) with
  | some en, some base, some act =>
    if bs.length = 10 ∧ minuteAllowed base (intAt bs 2 2) ∧ numAt bs 4 1 ≤ 127 then
      some { enabled := en, base := base, minute := intAt bs 2 2, weekdays := bitsSet 0 7 (numAt bs 4 1),
             required := bitsSet 0 8 (numAt bs 5 1), excluded := bitsSet 0 8 (numAt bs 6 1), action := act }
    else none
  | _, _, _ => none

/-- A cue link source travels as its kind (its place in TABLE 9-5) and its operands, padded (Part 11). -/
def sourceBytes : CueSource → List Byte
  | .quarter q => be 1 0 ++ beOpt 1 q ++ [0]
  | .hour h => be 1 1 ++ beOpt 1 h ++ [0]
  | .sunrise => be 1 2 ++ [0, 0]
  | .sunset => be 1 3 ++ [0, 0]
  | .entry n => be 1 4 ++ be 1 n ++ [0]
  | .sessionOpen => be 1 5 ++ [0, 0]
  | .sessionClosed => be 1 6 ++ [0, 0]
  | .tuneEnd t r => be 1 7 ++ beOpt 1 t ++ beOpt 1 (r.map EndReason.code)
  | .feedStage s => be 1 8 ++ be 1 (stageCode s) ++ [0]
  | .faultMajor => be 1 9 ++ [0, 0]

/-- R156: the source that kind and operand bytes spell. -/
def parseSource (kind a b : Nat) : Option CueSource :=
  let any (v : Nat) : Option Nat := if v = 255 then none else some v
  match kind with
  | 0 => if optWithin 1 (any a) 4 then some (.quarter (any a)) else none
  | 1 => if optWithin 0 (any a) 23 then some (.hour (any a)) else none
  | 2 => some .sunrise
  | 3 => some .sunset
  | 4 => if a ≤ 127 then some (.entry a) else none
  | 5 => some .sessionOpen
  | 6 => some .sessionClosed
  | 7 =>
    if optWithin 0 (any a) 95 then
      match any b with
      | none => some (.tuneEnd (any a) none)
      | some r => (EndReason.ofCode r).map (fun r => .tuneEnd (any a) (some r))
    else none
  | 8 => (stageOfCode a).map .feedStage
  | 9 => some .faultMajor
  | _ => none

def linkBytes (l : LinkConfig) : List Byte := [boolByte l.enabled] ++ sourceBytes l.source ++ actionBytes l.action

/-- R156: the fields of a written cue link. -/
def parseLink (bs : List Byte) : Option LinkConfig :=
  match boolAt bs 0, parseSource (numAt bs 1 1) (numAt bs 2 1) (numAt bs 3 1),
      parseAction (numAt bs 4 1) (numAt bs 5 1) (numAt bs 6 1) with
  | some en, some src, some act =>
    if bs.length = 7 then some { enabled := en, source := src, action := act } else none
  | _, _, _ => none

def calendarConfigBytes (c : CalendarConfig) : List Byte := be 1 c.catchUp ++ be 1 c.selector

/-- R155. -/
def parseCalendarConfig (bs : List Byte) : Option CalendarConfig :=
  if bs.length = 2 ∧ numAt bs 0 1 ≤ 60 ∧ numAt bs 1 1 ≤ 3 then
    some { catchUp := numAt bs 0 1, selector := numAt bs 1 1 }
  else none

/-! ## Part 10: route entries (R161) -/

/-- Kind codes of TABLE 10-2. -/
def kindStrike : Nat := 21
def kindHammerSet : Nat := 22
def kindDialStep : Nat := 23
def kindLampLevel : Nat := 24
def kindBellState : Nat := 41
def kindHammerReport : Nat := 42
def kindDialHome : Nat := 43
def kindLampReport : Nat := 44
def kindFeedState : Nat := 45
def kindTimeMark : Nat := 61
def kindRequest : Nat := 70
def kindReply : Nat := 71
def kindNotice : Nat := 72

def routeBytes : RouteEntry → List Byte
  | none => be 1 0 ++ absentBytes 5
  | some m => be 1 1 ++ be 1 (match m.port with | .console => 0 | .field => 1) ++ beOpt 1 m.kind ++ beOpt 1 m.dest
      ++ beOpt 1 m.src ++ be 1 m.action.code

/-- R161, check 2: the fields of TABLE 10-3; GUARD stands only with port C and kind STRIKE or HAMMER_SET. -/
def parseRoute (bs : List Byte) : Option RouteEntry :=
  if bs.length ≠ 6 then none
  else if numAt bs 0 1 = 0 then some none
  else
    match RouteAction.ofCode (numAt bs 5 1) with
    | some act =>
      let m : RouteMatch :=
        { port := if numAt bs 1 1 = 0 then .console else .field, kind := optAt bs 2 1, dest := optAt bs 3 1,
          src := optAt bs 4 1, action := act }
      if numAt bs 0 1 = 1 ∧ numAt bs 1 1 ≤ 1 ∧ optWithin 0 m.dest 62 ∧ optWithin 1 m.src 62
          ∧ (act = .bellCheck → m.port = .console ∧ (m.kind = some kindStrike ∨ m.kind = some kindHammerSet)) then
        some (some m)
      else none
    | none => none

/-! ## Part 11: source table and part configuration (R173, R174) -/

def sourceClassBytes (c : SourceClass) : List Byte := be 1 c.code

def parseSourceClass (bs : List Byte) : Option SourceClass :=
  if bs.length = 1 then SourceClass.ofCode (numAt bs 0 1) else none

/-- R174: the part's own address, 1 to 62, and the notice node, 0 to 62. -/
def parsePartConfig (bs : List Byte) : Option (Nat × Nat) :=
  if bs.length = 2 ∧ within 1 (numAt bs 0 1) 62 ∧ numAt bs 1 1 ≤ 62 then some (numAt bs 0 1, numAt bs 1 1) else none

/-! ## Record check values (R86) -/

/-- A record stored with the check value of its contents. -/
def stored {α : Type} (contents : α → List Byte) (x : α) : Checked α := { val := x, check := crc16 (contents x) }

/-- The check value computed afresh agrees with the one stored. -/
def checkHolds {α : Type} (contents : α → List Byte) (r : Checked α) : Bool := crc16 (contents r.val) = r.check

end Sys2Proof.Machine
end

