-- ==== Sys2Proof/Machine/State.lean ====
section
/-! DEFINITION. The state of the MT44: one structure for each block of TABLE 0-1, all of them in `Part`,
and `State`, which is the part with the queue of commands that wait. Plain data throughout. A field whose
docstring says MODEL'S OWN is not named by the manual; the others stand in the manual's tables, and
INVENTORY.md lists each with its rule and its reset value. `State.reset` is the part after a cold
power-on, every field at its cold value. -/

namespace Sys2Proof.Machine

/-! ## Time Scale (Part 1) -/

/-- R10: the discipline window while it is open. -/
structure Window where
  /-- The named instant of the opening mark, N₀. -/
  opened : Int
  /-- K: oscillator ticks since the opening mark instant. -/
  ticks : Int
  deriving DecidableEq, Repr

/-- The Time Scale (1.0, TABLE 1-9). -/
structure TimeScale where
  state : TimeState
  /-- The second count: whole seconds since 2000-01-01 00:00:00; 0 while UNSET. -/
  sec : Int
  /-- The phase accumulator, in phase units; 2³⁰ or more only until SECOND_BOUNDARY is taken (log entry 4). -/
  acc : Int
  /-- The trim T (R3). -/
  trim : Int
  /-- The window size W (R4). -/
  windowSize : Nat
  /-- The line delay compensation d, in ticks (R4). -/
  delay : Nat
  window : Option Window
  stepPending : Nat
  /-- The silence timer: ticks since it restarted, or stopped (R11). -/
  silence : Option Nat
  seasons : List Season
  baseOffset : Int
  currentOffset : Int
  nextChange : Option Int
  civilDate : Option Date
  quarterMarker : Option Int
  usedMarks : Nat
  foreignMarks : Nat
  refusedMarks : Nat
  qualityOneMarks : Nat
  skippedQuarters : Nat
  steps : Nat
  deriving DecidableEq, Repr

/-! ## Dial Driver (Part 2) -/

/-- TABLE 2-1: one dial record. Whether the charge is held is read from the charge list. -/
structure Dial where
  config : DialConfig
  indicated : Option Nat
  state : DialState
  outstanding : Bool
  target : Option Nat
  stepsSent : Nat
  confirmations : Nat
  slips : Nat
  deferred : Nat
  searchCount : Nat
  lastSlip : Int
  misses : Nat
  /-- R35: the open home watch, with the completions counted since it opened. -/
  homeWatch : Option Nat
  /-- R32: the oscillator instant of the last offer, accepted or deferred. -/
  lastOffer : Option Nat
  /-- MODEL'S OWN (log entry 10): DIAL_FAULT has been raised for the present misses since the reset. -/
  faultRaised : Bool
  deriving DecidableEq, Repr

/-- The Dial Driver. -/
structure DialDriver where
  dials : Vector Dial 4
  unmatched : Nat
  deriving DecidableEq, Repr

/-! ## Bell Guard (Part 3) -/

/-- R53: the claim set of a bell; the CONSOLE place records the requesting node. -/
structure Claims where
  ringers : Bool
  console : Option Nat
  clock : Bool
  tune : Bool
  deriving DecidableEq, Repr

/-- TABLES 3-1 and 3-2: one bell record. -/
structure Bell where
  config : BellConfig
  position : Position
  lastReport : Option Nat
  downBegan : Option Nat
  settled : Bool
  intruded : Bool
  hammer : HammerState
  wanted : Option HammerAction
  stateBefore : HammerState
  /-- The hammer timer's expiry instant, or stopped. -/
  hammerTimer : Option Nat
  lastTake : Option Nat
  claims : Claims
  /-- The console idle timer's expiry instant, or stopped. -/
  consoleIdle : Option Nat
  /-- R47: the instant from which the sensor timer runs, or stopped. -/
  sensorFrom : Option Nat
  strikesSent : Nat
  strikesRefused : Nat
  strikesDiscarded : Nat
  deriving DecidableEq, Repr

/-- The Bell Guard. -/
structure BellGuard where
  bells : Vector Bell 16
  /-- R43: the sensor timeout, in seconds. -/
  sensorTimeout : Nat
  ignoredReports : Nat
  unmatchedReports : Nat
  unmatchedConsole : Nat
  deriving DecidableEq, Repr

/-! ## Session Controller (Part 4) -/

/-- The per-bell fields of TABLE 4-1. -/
structure SessionBell where
  bell : Nat
  stage : BellStage
  jam : Bool
  deriving DecidableEq, Repr

/-- TABLE 4-1: the session record. The bell set is the bells of the per-bell fields, ascending. -/
structure Session where
  state : SessionState
  bells : List SessionBell
  requester : Option Nat
  began : Option Int
  outcome : SessionOutcome
  opened : Nat
  failed : Nat
  closed : Nat
  deriving DecidableEq, Repr

/-! ## Tune Store (Part 5) -/

/-- TABLE 5-1 and TABLE 5-8. -/
structure TuneStore where
  directory : Vector (Checked DirEntry) 96
  steps : Vector (Checked TuneStep) 2048
  chimes : Vector (Checked ChimeSet) 4
  inUseRefusals : Nat
  checkFailures : Nat
  deriving DecidableEq, Repr

/-! ## Voices (Part 6) -/

/-- TABLE 6-2: a VALID frame of a phrase stack. -/
structure PhraseFrame where
  tune : Nat
  start : Nat
  length : Nat
  cursor : Nat
  repeats : Nat
  deriving DecidableEq, Repr

/-- A strike: the bell it was admitted for, the charge it holds and its STRIKE frame. -/
structure Strike where
  bell : Nat
  /-- MODEL'S OWN (log entry 8): the identity of its entry in the charge list. -/
  charge : Nat
  frame : Frame
  deriving DecidableEq, Repr

/-- R103: a held strike and its deadline, an oscillator instant. -/
structure HeldStrike where
  strike : Strike
  deadline : Nat
  deriving DecidableEq, Repr

/-- TABLE 6-3, the counts of both voices. -/
structure VoiceCounts where
  admitted : Nat
  undeclared : Nat
  notOwner : Nat
  notPermitted : Nat
  refused : Nat
  budgetSkip : Nat
  held : Nat
  late : Nat
  displaced : Nat
  callSkipped : Nat
  abandoned : Nat
  deriving DecidableEq, Repr

/-- TABLE 6-1, the fields of both voices. The stack lists the VALID frames, the top one first. -/
structure Voice where
  start : Option Nat
  tempo : Option Nat
  /-- Pulse length in µs (R95). -/
  pulse : Option Nat
  pulses : Nat
  declared : Option (List Nat)
  stack : List PhraseFrame
  held : List HeldStrike
  claimed : List Nat
  counts : VoiceCounts
  deriving DecidableEq, Repr

/-- TABLE 6-8: the states of the clock voice. -/
inductive ClockState where
  | idle | chiming | pausing | striking
  deriving DecidableEq, Repr

/-- TABLE 6-11: the states of the tune voice. -/
inductive TuneState where
  | idle | playing | stopping
  deriving DecidableEq, Repr

/-- The clock voice record. -/
structure ClockVoice where
  state : ClockState
  voice : Voice
  cachedSet : Option ChimeSet
  /-- The quarter in hand, q and h. -/
  quarter : Option (Nat × Nat)
  /-- R106, decided when the quarter is taken: an hour strike follows the chime. -/
  strikeFollows : Bool
  /-- The blows remaining, absent but in PAUSING and STRIKING (R109). -/
  blows : Option Nat
  nextBlow : Option Nat
  omitNext : Bool
  sounded : Nat
  overrun : Nat
  omitted : Nat
  quiet : Nat
  safeQuarters : Nat
  setFailures : Nat
  withheld : Nat
  deriving DecidableEq, Repr

/-- The tune voice record. -/
structure TuneVoice where
  state : TuneState
  voice : Voice
  /-- The tune in hand and its repeats. -/
  inHand : Option (Nat × Nat)
  starts : Nat
  startsRefused : Nat
  stopped : Nat
  deriving DecidableEq, Repr

/-! ## Lamp Controller (Part 7) -/

/-- TABLES 7-1 and 7-2: one lamp group record. State and charge held are read from the rest (R119, R135). -/
structure LampGroup where
  config : LampConfig
  commanded : Nat
  target : Nat
  fadeStart : Nat
  fadeLength : Nat
  elapsed : Nat
  clamp : Option Nat
  queued : Option Nat
  inFlight : Option Nat
  sent : Option Nat
  failure : Option LampStatus
  /-- R127: an offer found the LOCAL queue full and still stands. -/
  deferred : Bool
  levelsSent : Nat
  clamps : Nat
  reclaims : Nat
  failures : Nat
  deferredOffers : Nat
  deriving DecidableEq, Repr

/-- The Lamp Controller. -/
structure LampController where
  groups : Vector LampGroup 12
  scenes : Vector (Checked Scene) 16
  /-- R116: the oscillator instant of the next lamp update. -/
  nextUpdate : Nat
  unmatched : Nat
  sceneFailures : Nat
  deriving DecidableEq, Repr

/-! ## Feed Budget (Part 8) -/

/-- TABLE 8-2: the holder of a charge. -/
inductive Holder where
  | strike (bell : Nat) (origin : Origin)
  | dial (dial : Nat)
  | group (group : Nat)
  deriving DecidableEq, Repr

/-- TABLE 8-2: an entry of the charge list. -/
structure Charge where
  /-- MODEL'S OWN (log entry 8): what tells two charges of one bell and origin apart. -/
  id : Nat
  holder : Holder
  amount : Nat
  grantedAt : Nat
  releaseAt : Option Nat
  deriving DecidableEq, Repr

/-- R142: the running restore timer, its group and the instant it started. -/
structure RestoreTimer where
  group : Nat
  start : Nat
  deriving DecidableEq, Repr

/-- The Feed Budget. The committed load is the sum of the charge list (R135). -/
structure FeedBudget where
  limits : LimitTable
  stage : Stage
  charges : List Charge
  /-- MODEL'S OWN (log entry 8): the identity of the next charge. -/
  nextId : Nat
  waiting : List Nat
  restore : Option RestoreTimer
  strikeGrants : Nat
  dialGrants : Nat
  strikeRefusals : Nat
  dialRefusals : Nat
  reclaims : Nat
  restorations : Nat
  ignoredReports : Nat
  stageChanges : Nat
  deriving DecidableEq, Repr

/-! ## Calendar (Part 9) -/

/-- The Calendar's tables with check values (R157). -/
inductive CalTable where
  | dayClass | sun | schedule | links
  deriving DecidableEq, Repr

/-- TABLE 9-2: one schedule entry. -/
structure ScheduleEntry where
  config : Checked ScheduleConfig
  state : EntryState
  decided : Option Decided
  deriving DecidableEq, Repr

/-- TABLE 9-5: one cue link. -/
structure CueLink where
  config : Checked LinkConfig
  refusals : Nat
  deriving DecidableEq, Repr

/-- R150: an item of the due list. -/
inductive DueKind where
  | entry (n : Nat)
  | sunrise
  | sunset
  deriving DecidableEq, Repr

/-- R150: an ARMED item with its fire instant. -/
structure DueItem where
  kind : DueKind
  fire : Int
  deriving DecidableEq, Repr

/-- R149: the offset in force when the history was taken and the season changes that follow. -/
structure OffsetHistory where
  first : Int
  changes : List Season
  deriving DecidableEq, Repr

/-- R150: a sun mark, its instant today, its state for today and its last-decided date. -/
structure SunMark where
  instant : Option Int
  state : EntryState
  decided : Option Decided
  deriving DecidableEq, Repr

/-- Where an action came from (R154). -/
inductive ActionSource where
  | entry (n : Nat)
  | link (n : Nat)
  deriving DecidableEq, Repr

/-- R154: the last refusal record. -/
structure Refused where
  source : ActionSource
  action : Nat
  code : Code
  deriving DecidableEq, Repr

/-- The Calendar (9.0, TABLE 9-6). -/
structure Calendar where
  dayClasses : Vector (Checked (Option DayClass)) 64
  sun : Vector (Checked (Option SunTimes)) 73
  schedule : Vector ScheduleEntry 128
  links : Vector CueLink 32
  config : CalendarConfig
  classSet : List Nat
  sunrise : SunMark
  sunset : SunMark
  dueList : List DueItem
  history : Option OffsetHistory
  quietChimes : Nat
  quietStrike : Nat
  quietTunes : Nat
  lastScene : Option Nat
  reapply : Bool
  failed : List (CalTable × Nat)
  /-- R156: the source events handed over and not yet taken, oldest first. -/
  events : List CueEvent
  fired : Nat
  firedLate : Nat
  skipped : Nat
  scheduleRefusals : Nat
  checkFailures : Nat
  reapplications : Nat
  lastRefusal : Option Refused
  deriving DecidableEq, Repr

/-! ## Line Switch (Part 10) -/

/-- A HAMMER_SET frame in SAFETY or in flight, with the bell it is for. -/
structure Setting where
  bell : Nat
  action : HammerAction
  frame : Frame
  deriving DecidableEq, Repr

/-- A frame of the LOCAL queue, with whose it is (R165). A LAMP_LEVEL whose group record was rewritten
belongs to no group (R118). -/
inductive LocalItem where
  | strike (s : Strike)
  | dialStep (dial : Nat) (frame : Frame)
  | lampLevel (group : Option Nat) (level : Nat) (frame : Frame)
  deriving DecidableEq, Repr

/-- A frame of the PASS queue: forwarded as it came, or a console STRIKE admitted by R58. -/
inductive PassItem where
  | plain (frame : Frame)
  | strike (s : Strike)
  deriving DecidableEq, Repr

/-- A frame of the UP queue (R167). -/
inductive UpItem where
  | report (frame : Frame)
  | notice (frame : Frame)
  | reply (frame : Frame)
  /-- The reply to RESET_PART, whose completion starts a line reset (R182). -/
  | resetReply (frame : Frame)
  deriving DecidableEq, Repr

/-- The frame in flight on the field port. -/
inductive FieldFlight where
  | setting (s : Setting)
  | strike (s : Strike)
  | dialStep (dial : Nat) (frame : Frame)
  | lampLevel (group : Option Nat) (level : Nat) (frame : Frame)
  | plain (frame : Frame)
  deriving DecidableEq, Repr

/-- TABLE 10-9: the counts kept for each port. -/
structure PortCounts where
  errors : Nat
  lengthErrors : Nat
  shortErrors : Nat
  longErrors : Nat
  checkErrors : Nat
  addressErrors : Nat
  received : Nat
  routeDrops : Nat
  transmitted : Nat
  deriving DecidableEq, Repr

/-- R163: a copy handed to its consumer whole, with its arrival instant and port; a TIME_MARK with the class of its SRC
at the delivery (R5, R173). What a later write changes only for the frames received after it stands here as it was at
the reception: d (R4), the monitor node (R133) and the node and channel of each dial (R23). -/
structure Delivery where
  command : Instr
  /-- The oscillator instant at which the reception ended. -/
  arrival : Nat
  port : Port
  cls : Option SourceClass
  /-- R4: the line delay compensation in force when the frame was received. -/
  delay : Nat
  /-- R133: the monitor node in force when the frame was received; `none` is ANY. -/
  monitor : Option Nat
  /-- R23, R34: the dial that a DIAL_HOME matched when it was received; `none` for no match and for every other kind. -/
  dial : Option Nat
  deriving DecidableEq, Repr

/-- When a mark was received (R4, R5): how many ticks back its reception ended, and the d in force then. -/
structure Reception where
  age : Nat
  delay : Nat
  deriving DecidableEq, Repr

/-- The Line Switch. -/
structure LineSwitch where
  routes : Vector (Checked RouteEntry) 32
  failedRoutes : List Nat
  safetyQ : List Setting
  localQ : List LocalItem
  passQ : List PassItem
  upQ : List UpItem
  fieldFlight : Option FieldFlight
  consoleFlight : Option UpItem
  localRun : Nat
  /-- R171: the receiver of the port waits for an idle gap. -/
  consoleWaits : Bool
  fieldWaits : Bool
  /-- R163: the copies delivered to their consumers and not yet taken, oldest first (log entry 5). -/
  delivered : List Delivery
  consolePort : PortCounts
  fieldPort : PortCounts
  malformed : Nat
  undelivered : Nat
  foreignRequests : Nat
  passOverflow : Nat
  upOverflow : Nat
  droppedNotices : Nat
  busyDrops : Nat
  discardedAtTake : Nat
  deriving DecidableEq, Repr

/-! ## Management Unit (Part 11) -/

/-- R176: the open load cursor. -/
structure Cursor where
  table : Table
  index : Int
  forward : Bool
  count : Nat
  opener : Nat
  deriving DecidableEq, Repr

/-- TABLE 11-7: the fault record while RAISED. -/
structure FaultRecord where
  kind : FaultKind
  detail : List Byte
  time : Option Int
  further : Nat
  deriving DecidableEq, Repr

/-- TABLE 11-7: the minor fault tally. -/
structure Tally where
  trimLimit : Nat
  dialFault : Nat
  sensorSilent : Nat
  tableCheck : Nat
  tuneDepth : Nat
  lampFail : Nat
  feedLow : Nat
  deriving DecidableEq, Repr

/-- The part's state (R178). -/
inductive PartState where
  | running | safe
  deriving DecidableEq, Repr

/-- R172: the request in hand and the class of its SRC at delivery. -/
structure InHand where
  request : Instr
  cls : SourceClass
  deriving DecidableEq, Repr

/-- The Management Unit. -/
structure Management where
  sources : Vector (Checked SourceClass) 62
  failedSources : List Nat
  /-- The part's own address in force (R174). -/
  address : Nat
  /-- An address written, which governs once the reply to the write is queued (R174). -/
  nextAddress : Option Nat
  noticeNode : Nat
  cursor : Option Cursor
  faults : Option FaultRecord
  tally : Tally
  partState : PartState
  inHand : Option InHand
  /-- R167: a reply that found UP holding 16. -/
  replyWaiting : Option UpItem
  /-- R182: RESET_PART was taken and its reply has not completed. -/
  resetting : Bool
  deriving DecidableEq, Repr

/-! ## The part -/

/-- The retention control (R181). -/
structure Retention where
  /-- The supply is present. -/
  supply : Bool
  /-- The store mark is intact. -/
  mark : Bool
  /-- The backup cell has held above 2.2 V. -/
  cellHeld : Bool
  deriving DecidableEq, Repr

/-- The MT44: its oscillator's tick count and its eleven blocks (TABLE 0-1). -/
structure Part where
  /-- Oscillator ticks since the cold power-on, the scale of every oscillator instant (R41, R94). -/
  osc : Nat
  time : TimeScale
  dialDriver : DialDriver
  bellGuard : BellGuard
  session : Session
  store : TuneStore
  clock : ClockVoice
  tune : TuneVoice
  lamps : LampController
  budget : FeedBudget
  cal : Calendar
  line : LineSwitch
  mgmt : Management
  retention : Retention
  deriving DecidableEq, Repr

/-- The machine: the part and the commands that wait, first in first out. -/
structure State where
  part : Part
  pending : List Instr
  deriving DecidableEq, Repr

/-- Why a step stops with a fault. No command raises one: the manual gives every command its effect in
every state, and an event whose condition does not hold changes nothing (log entry 3). Safe. -/
inductive Fault where
  /-- Raised by nothing; safe. -/
  | noFault
  deriving DecidableEq, Repr

/-- Why a command has no meaning. -/
inductive Refusal where
  /-- Raised by `exec` for a command without a meaning; none is left. Safe. -/
  | notModelled (mnemonic : String)
  deriving DecidableEq, Repr

/-! ## Cold values -/

/-- The cold Time Scale (R21). -/
def TimeScale.cold : TimeScale :=
  { state := .unset, sec := 0, acc := 0, trim := 0, windowSize := 256, delay := 0, window := none, stepPending := 0,
    silence := none, seasons := [], baseOffset := 0, currentOffset := 0, nextChange := none, civilDate := none,
    quarterMarker := none, usedMarks := 0, foreignMarks := 0, refusedMarks := 0, qualityOneMarks := 0,
    skippedQuarters := 0, steps := 0 }

/-- The cold record of dial n (TABLE 2-1, R39). -/
def Dial.cold (n : Nat) : Dial :=
  { config := { node := 40, channel := n, stepPeriod := 30, fastRate := 20, holdLimit := 360, driveCharge := 30 },
    indicated := none, state := .stopped, outstanding := false, target := none, stepsSent := 0, confirmations := 0,
    slips := 0, deferred := 0, searchCount := 0, lastSlip := 0, misses := 0, homeWatch := none, lastOffer := none,
    faultRaised := false }

/-- The cold configuration of bell n (TABLE 3-1). -/
def BellConfig.cold (n : Nat) : BellConfig :=
  { cls := .swing, hammerNode := none, hammerChannel := n, sensorNode := none, recovery := 1200, settle := 60,
    charge := 50, permits := { clock := true, tune := true, console := true } }

/-- R53: an empty claim set. -/
def Claims.empty : Claims := { ringers := false, console := none, clock := false, tune := false }

/-- The live part of a bell record after a reset, before the start-up settings (R62). -/
def Bell.started (c : BellConfig) (osc : Nat) : Bell :=
  { config := c, position := if c.cls = .fixed then .down else .unknown, lastReport := none, downBegan := none,
    settled := false, intruded := false, hammer := if c.hammerNode.isSome then .unknown else .withdrawn,
    wanted := none, stateBefore := if c.hammerNode.isSome then .unknown else .withdrawn, hammerTimer := none,
    lastTake := none, claims := Claims.empty, consoleIdle := none,
    sensorFrom := if c.cls = .swing ∧ c.sensorNode.isSome then some osc else none, strikesSent := 0,
    strikesRefused := 0, strikesDiscarded := 0 }

/-- The session record after a reset (R77). -/
def Session.started : Session :=
  { state := .idle, bells := [], requester := none, began := none, outcome := .noOutcome, opened := 0, failed := 0,
    closed := 0 }

/-- The cold chime set n (TABLE 5-4). -/
def ChimeSet.cold (n : Nat) : ChimeSet :=
  { first := 4 * n, second := 4 * n + 1, third := 4 * n + 2, fourth := 4 * n + 3, hourBell := 16, altBell := none,
    blowForce := 5, blowInterval := 2500, pause := 2000 }

/-- The cold Tune Store (R92). -/
def TuneStore.cold : TuneStore :=
  { directory := Vector.replicate 96 (stored dirBytes .empty),
    steps := Vector.replicate 2048 (stored stepContents .endStep),
    chimes := Vector.ofFn (fun i => stored chimeBytes (ChimeSet.cold i.val)),
    inUseRefusals := 0, checkFailures := 0 }

/-- A voice after a reset (R115; the pulses elapsed, log entry 56). -/
def Voice.started : Voice :=
  { start := none, tempo := none, pulse := none, pulses := 0, declared := none, stack := [], held := [],
    claimed := [],
    counts := { admitted := 0, undeclared := 0, notOwner := 0, notPermitted := 0, refused := 0, budgetSkip := 0,
                held := 0, late := 0, displaced := 0, callSkipped := 0, abandoned := 0 } }

/-- The clock voice after a reset (R115; the blows remaining, log entry 56). -/
def ClockVoice.started : ClockVoice :=
  { state := .idle, voice := Voice.started, cachedSet := none, quarter := none, strikeFollows := false, blows := none,
    nextBlow := none, omitNext := false, sounded := 0, overrun := 0, omitted := 0, quiet := 0, safeQuarters := 0,
    setFailures := 0, withheld := 0 }

/-- The tune voice after a reset (R115). -/
def TuneVoice.started : TuneVoice :=
  { state := .idle, voice := Voice.started, inHand := none, starts := 0, startsRefused := 0, stopped := 0 }

/-- The cold configuration of group n (TABLE 7-1). -/
def LampConfig.cold (n : Nat) : LampConfig :=
  { node := none, channel := n, rated := 100, ceiling := 1000, priority := 3 }

/-- The live part of a lamp group after a reset (R132). -/
def LampGroup.started (c : LampConfig) : LampGroup :=
  { config := c, commanded := 0, target := 0, fadeStart := 0, fadeLength := 0, elapsed := 0, clamp := none,
    queued := none, inFlight := none, sent := none, failure := none, deferred := false, levelsSent := 0, clamps := 0,
    reclaims := 0, failures := 0, deferredOffers := 0 }

/-- The cold scene n (TABLE 7-4). -/
def Scene.cold (n : Nat) : Scene :=
  { targets := Vector.replicate 12 (if n = 0 then some 0 else none), fadeTime := 0 }

/-- The cold limit table (TABLE 8-1). -/
def LimitTable.cold : LimitTable :=
  { normal := 2400, reduced := 1200, low := 400, restoreDelay := 30, monitor := none }

/-- The Feed Budget after a reset (R144). -/
def FeedBudget.started (t : LimitTable) : FeedBudget :=
  { limits := t, stage := .reduced, charges := [], nextId := 0, waiting := [], restore := none, strikeGrants := 0,
    dialGrants := 0, strikeRefusals := 0, dialRefusals := 0, reclaims := 0, restorations := 0, ignoredReports := 0,
    stageChanges := 0 }

/-- The cold schedule entry (TABLE 9-2). -/
def ScheduleConfig.cold : ScheduleConfig :=
  { enabled := false, base := .civil, minute := 0, weekdays := [], required := [], excluded := [],
    action := .notice 0 }

/-- The cold cue link (TABLE 9-5). -/
def LinkConfig.cold : LinkConfig := { enabled := false, source := .faultMajor, action := .notice 0 }

/-- A sun mark after a cold power-on (R158). -/
def SunMark.cold : SunMark := { instant := none, state := .disabled, decided := none }

/-- The cold Calendar (R158). -/
def Calendar.cold : Calendar :=
  { dayClasses := Vector.replicate 64 (stored dayClassBytes none),
    sun := Vector.replicate 73 (stored sunBytes none),
    schedule := Vector.replicate 128
      { config := stored scheduleBytes ScheduleConfig.cold, state := .disabled, decided := none },
    links := Vector.replicate 32 { config := stored linkBytes LinkConfig.cold, refusals := 0 },
    config := { catchUp := 10, selector := 0 }, classSet := [], sunrise := SunMark.cold, sunset := SunMark.cold,
    dueList := [], history := none, quietChimes := 0, quietStrike := 0, quietTunes := 0, lastScene := none,
    reapply := false, failed := [], events := [], fired := 0, firedLate := 0, skipped := 0, scheduleRefusals := 0,
    checkFailures := 0, reapplications := 0, lastRefusal := none }

/-- Every count of a port at 0 (R171). -/
def PortCounts.zero : PortCounts :=
  { errors := 0, lengthErrors := 0, shortErrors := 0, longErrors := 0, checkErrors := 0, addressErrors := 0,
    received := 0, routeDrops := 0, transmitted := 0 }

/-- A cold route entry with kind given and DEST and SRC ANY (TABLE 10-4). -/
def coldRoute (port : Port) (kind : Nat) (action : RouteAction) : RouteEntry :=
  some { port := port, kind := some kind, dest := none, src := none, action := action }

/-- TABLE 10-4: the route table at a cold power-on. -/
def coldRoutes : List RouteEntry :=
  [coldRoute .console kindStrike .bellCheck, coldRoute .console kindHammerSet .bellCheck,
   coldRoute .console kindTimeMark .toPart, coldRoute .field kindBellState .tap,
   coldRoute .field kindHammerReport .tap, coldRoute .field kindDialHome .tap, coldRoute .field kindLampReport .tap,
   coldRoute .field kindFeedState .tap]

/-- The Line Switch after a reset, with the route table given (R171). -/
def LineSwitch.started (routes : Vector (Checked RouteEntry) 32) : LineSwitch :=
  { routes := routes, failedRoutes := [], safetyQ := [], localQ := [], passQ := [], upQ := [], fieldFlight := none,
    consoleFlight := none, localRun := 0, consoleWaits := true, fieldWaits := true, delivered := [],
    consolePort := PortCounts.zero, fieldPort := PortCounts.zero, malformed := 0, undelivered := 0,
    foreignRequests := 0, passOverflow := 0, upOverflow := 0, droppedNotices := 0, busyDrops := 0,
    discardedAtTake := 0 }

/-- Every MINOR count at 0 (R183). -/
def Tally.zero : Tally :=
  { trimLimit := 0, dialFault := 0, sensorSilent := 0, tableCheck := 0, tuneDepth := 0, lampFail := 0, feedLow := 0 }

/-- The Management Unit after a reset, with the retained tables given (R183). -/
def Management.started (sources : Vector (Checked SourceClass) 62) (address noticeNode : Nat) : Management :=
  { sources := sources, failedSources := [], address := address, nextAddress := none, noticeNode := noticeNode,
    cursor := none, faults := none, tally := Tally.zero, partState := .running, inHand := none, replyWaiting := none,
    resetting := false }

/-- The part after a cold power-on: every block at its cold values (R181, R183), and, no bell being
fitted, no start-up setting (R62). -/
def Part.cold : Part :=
  { osc := 0, time := TimeScale.cold,
    dialDriver := { dials := Vector.ofFn (fun i => Dial.cold (i.val + 1)), unmatched := 0 },
    bellGuard :=
      { bells := Vector.ofFn (fun i => Bell.started (BellConfig.cold (i.val + 1)) 0), sensorTimeout := 30,
        ignoredReports := 0, unmatchedReports := 0, unmatchedConsole := 0 },
    session := Session.started, store := TuneStore.cold, clock := ClockVoice.started, tune := TuneVoice.started,
    lamps :=
      { groups := Vector.ofFn (fun i => LampGroup.started (LampConfig.cold (i.val + 1))),
        scenes := Vector.ofFn (fun i => stored sceneBytes (Scene.cold i.val)), nextUpdate := Config.lampBeat,
        unmatched := 0, sceneFailures := 0 },
    budget := FeedBudget.started LimitTable.cold, cal := Calendar.cold,
    line := LineSwitch.started (Vector.ofFn (fun i => stored routeBytes (coldRoutes.getD i.val none))),
    mgmt := Management.started
      (Vector.ofFn (fun i => stored sourceClassBytes (if i.val + 1 = 62 then .service else .noClass))) 1 0,
    retention := { supply := true, mark := true, cellHeld := true } }

/-- The machine right after reset: a part just started cold (R181), with no command waiting. -/
def State.reset : State := { part := Part.cold, pending := [] }

end Sys2Proof.Machine
end

