-- ==== Sys2Proof/Machine/Dates.lean ====
section
/-! DEFINITION. Dates: the Gregorian rules of the Conventions (every year divisible by 4 a leap year),
extended to 1999-12-31 and 2100-01-01 (R16), and the checks of a mark's fields (R5). -/

namespace Sys2Proof.Machine

/-- Days of the months before `month`. -/
def daysBefore (leap : Bool) (month : Nat) : Nat := ((monthDays leap).take (month - 1)).sum

/-- Days from 2000-01-01 to 1 January of a year counted from 2000. -/
def yearStart (y : Int) : Int := 365 * y + (y + 3) / 4

/-- Days from 2000-01-01 to a date. -/
def dayNumber (d : Date) : Int := yearStart d.year + daysBefore (leapYear d.year) d.month + d.day - 1

/-- The month and day of the day `rest` days after 1 January, from the month numbered `m` on. -/
def monthAndDay : List Nat → Nat → Nat → Nat × Nat
  | [], m, rest => (m, rest + 1)
  | n :: more, m, rest => if rest < n then (m, rest + 1) else monthAndDay more (m + 1) (rest - n)

/-- The year, counted from 2000, and the day of the year from 0, of a day number. -/
def yearAndDay (n : Int) : Int × Nat :=
  let cycle := n / 1461
  let r := (n % 1461).toNat
  if r < 366 then (4 * cycle, r) else (4 * cycle + 1 + ((r - 366) / 365 : Nat), (r - 366) % 365)

/-- The date of a day number. -/
def dateOf (n : Int) : Date :=
  let yd := yearAndDay n
  let md := monthAndDay (monthDays (leapYear yd.1)) 1 yd.2
  { year := yd.1, month := md.1, day := md.2 }

/-- R16: the weekday of a date, 0 standing for Saturday. -/
def weekday (d : Date) : Nat := (dayNumber d % 7).toNat

/-- The day of the year, from 1 (R147). -/
def dayOfYear (d : Date) : Nat := daysBefore (leapYear d.year) d.month + d.day

/-- R5: the year is 0 to 99, the month and day exist and the second of day is below 86,400. -/
def fieldsValid (year month day second : Nat) : Bool :=
  year ≤ 99 && within 1 month 12 && 1 ≤ day && day ≤ daysIn (leapYear year) month && second < 86400

/-- R5: the named instant N. -/
def namedInstant (year month day second : Nat) : Int :=
  86400 * dayNumber { year := year, month := month, day := day } + second

/-- Civil time in whole seconds at a tower instant under an offset in minutes (1.6). -/
def civilSeconds (instant offset : Int) : Int := instant + 60 * offset

/-- The civil date at a tower instant under an offset (R16). -/
def civilDateAt (instant offset : Int) : Date := dateOf (civilSeconds instant offset / 86400)

end Sys2Proof.Machine
end

