-- ==== Sys2Proof/Machine/Ops.lean ====
section
/-! DEFINITION. The operations every block shares: the numbered records of each bank, the present
instants, the UP queue (R167), notices (R180), MINOR faults (R178) and the events handed to the cue
links (R156). -/

namespace Sys2Proof.Machine

/-! ## Numbered records -/

/-- The record of dial d, 1 to 4. -/
def Part.dial (p : Part) (d : Nat) : Dial := bankGet1 p.dialDriver.dials d (Dial.cold d)
/-- The part with the record of dial d replaced. -/
def Part.putDial (p : Part) (d : Nat) (x : Dial) : Part :=
  { p with dialDriver.dials := bankPut1 p.dialDriver.dials d x }

/-- The record of bell b, 1 to 16. -/
def Part.bell (p : Part) (b : Nat) : Bell := bankGet1 p.bellGuard.bells b (Bell.started (BellConfig.cold b) 0)
/-- The part with the record of bell b replaced. -/
def Part.putBell (p : Part) (b : Nat) (x : Bell) : Part :=
  { p with bellGuard.bells := bankPut1 p.bellGuard.bells b x }

/-- The record of lamp group g, 1 to 12. -/
def Part.group (p : Part) (g : Nat) : LampGroup := bankGet1 p.lamps.groups g (LampGroup.started (LampConfig.cold g))
/-- The part with the record of group g replaced. -/
def Part.putGroup (p : Part) (g : Nat) (x : LampGroup) : Part :=
  { p with lamps.groups := bankPut1 p.lamps.groups g x }

/-- The record of a voice. -/
def Part.voice (p : Part) : VoiceId → Voice
  | .clock => p.clock.voice
  | .tune => p.tune.voice
/-- The part with the record of a voice replaced. -/
def Part.putVoice (p : Part) (v : VoiceId) (x : Voice) : Part :=
  match v with
  | .clock => { p with clock.voice := x }
  | .tune => { p with tune.voice := x }

/-- The numbers of the bells, dials and groups, in order. -/
def bellNumbers : List Nat := oneTo 16
def dialNumbers : List Nat := oneTo 4
def groupNumbers : List Nat := oneTo 12

/-! ## Present instants -/

/-- The time state is UNSET. -/
def Part.unset (p : Part) : Bool := p.time.state = .unset

/-- The tower second that has been reached: the second count, and any second whose boundary the
accumulator has reached and SECOND_BOUNDARY has not yet taken (R1; log entry 4). -/
def Part.towerNow (p : Part) : Int := p.time.sec + p.time.acc / Config.secondPhase

/-- The tower time of a change or a fault, absent while UNSET. -/
def Part.towerTime (p : Part) : Option Int := if p.unset then none else some p.time.sec

/-! ## The UP queue and notices -/

/-- R167: a forwarded report enters UP, or finds only the reserved places free and is dropped. -/
def offerReport (f : Frame) (p : Part) : Part :=
  if p.line.upQ.length < Config.upOpenPlaces then { p with line.upQ := p.line.upQ ++ [.report f] }
  else { p with line.upOverflow := bump p.line.upOverflow }

/-- R167: a notice enters UP, or finds only the reserved places free and is dropped. -/
def offerNotice (f : Frame) (p : Part) : Part :=
  if p.line.upQ.length < Config.upOpenPlaces then { p with line.upQ := p.line.upQ ++ [.notice f] }
  else { p with line.droppedNotices := bump p.line.droppedNotices }

/-- The tower time field of a notice: four bytes, all ones when absent (TABLE 10-2). -/
def noticeTime (p : Part) : List Byte :=
  match p.towerTime with
  | some t => be 4 t.toNat
  | none => absentBytes 4

/-- R180: the NOTICE frame of a kind and detail. -/
def noticeFrame (kind : NoticeKind) (detail : List Byte) (p : Part) : Frame :=
  { dest := p.mgmt.noticeNode, src := p.mgmt.address, kind := kindNotice,
    payload := byte kind.code :: (noticeTime p ++ detail) }

/-- R180: the Management Unit sends a notice. -/
def sendNotice (kind : NoticeKind) (detail : List Byte) (p : Part) : Part :=
  offerNotice (noticeFrame kind detail p) p

/-- The severity byte of a FAULT_RAISED notice: MINOR 0, MAJOR 1 (log entry 20). -/
def severityByte (kind : FaultKind) : Byte := boolByte kind.major

/-- R178: the FAULT_RAISED notice of a fault. -/
def noticeFault (kind : FaultKind) (detail : List Byte) (p : Part) : Part :=
  sendNotice .faultRaised (byte kind.code :: severityByte kind :: detail) p

/-- R178: the tally with the count of a MINOR kind raised. -/
def Tally.raise (t : Tally) : FaultKind → Tally
  | .trimLimit => { t with trimLimit := bump t.trimLimit }
  | .dialFault => { t with dialFault := bump t.dialFault }
  | .sensorSilent => { t with sensorSilent := bump t.sensorSilent }
  | .tableCheck => { t with tableCheck := bump t.tableCheck }
  | .tuneDepth => { t with tuneDepth := bump t.tuneDepth }
  | .lampFail => { t with lampFail := bump t.lampFail }
  | .feedLow => { t with feedLow := bump t.feedLow }
  | .intrusion | .hammerJam | .hammerUnexpected | .controlCheck => t

/-- R178: a block raises a MINOR fault. -/
def raiseMinor (kind : FaultKind) (detail : List Byte) (p : Part) : Part :=
  noticeFault kind detail { p with mgmt.tally := p.mgmt.tally.raise kind }

/-- The detail of a TABLE_CHECK or CONTROL_CHECK: the table's code and the record number (R180). -/
def tableDetail (t : Table) (number : Nat) : List Byte := byte t.code :: be 2 number

/-! ## Events of the cue links -/

/-- R156: a source event is handed to the Calendar; one that arrives while UNSET is not kept. -/
def emitCue (e : CueEvent) (p : Part) : Part :=
  if p.unset then p else { p with cal.events := p.cal.events ++ [e] }

/-! ## Copies and replies -/

/-- The oldest copy waiting that spells a command (R163; log entry 5). -/
def Part.copyOf (p : Part) (i : Instr) : Option Delivery := p.line.delivered.find? (fun x => x.command = i)

/-- R163: the arrival instant of what a command takes: that of its copy, or the present instant where no copy waits and
the command stands for a frame delivered now (log entry 5). -/
def Part.arrivalOf (p : Part) (i : Instr) : Nat := ((p.copyOf i).map Delivery.arrival).getD p.osc

/-- R4: the d of what a command takes: the one in force when its copy was received, or now where no copy waits. -/
def Part.delayOf (p : Part) (i : Instr) : Nat := ((p.copyOf i).map Delivery.delay).getD p.time.delay

/-- R133: the monitor node that governs what a command takes: the one of its copy's reception, or the present one where
no copy waits. -/
def Part.monitorOf (p : Part) (i : Instr) : Option Nat :=
  ((p.copyOf i).map Delivery.monitor).getD p.budget.limits.monitor

/-- R34: the dial of a node and channel. -/
def dialAt (node channel : Nat) (p : Part) : Option Nat :=
  dialNumbers.find? (fun d => (p.dial d).config.node = node && (p.dial d).config.channel = channel)

/-- R23, R34: the dial that a DIAL_HOME belongs to: the one matched when its copy was received, or the one that matches
now where no copy waits. -/
def Part.homeDialOf (p : Part) (src channel : Nat) : Option Nat :=
  ((p.copyOf (.dialHome src channel)).map Delivery.dial).getD (dialAt src channel p)

/-- A consumer takes a delivered copy: it leaves the copies waiting (R163; log entry 5). -/
def takeCopy (i : Instr) (p : Part) : Part :=
  { p with line.delivered := p.line.delivered.eraseP (fun x => x.command = i) }

/-! ## Commands -/

/-- A block acts only while the supply is present (R22, R181). -/
def powered (f : Part → Part) (p : Part) : Part := if p.retention.supply then f p else p

/-- A command's effect on the part; the queue of waiting commands is left as it stands. -/
def act (f : Part → Part) (s : State) : Host.Outcome State Fault Refusal := .next { s with part := f s.part }

end Sys2Proof.Machine
end

