-- ==== Sys2Proof/Machine/LampOps.lean ====
section
/-! DEFINITION. What a lamp group's record says of it: its state (R119), its charge (R117), its fade
level (R117, R123); and the offer of its LAMP_LEVEL frame (R127, R165). -/

namespace Sys2Proof.Machine

/-- R117: the charge of a group at a level, rounded up to a whole load unit. -/
def chargeOf (rated level : Nat) : Nat := (rated * level + 999) / 1000

/-- The largest multiple of 10 per mille, at most 1000, whose charge is at or below `c` (R138, R139). -/
def levelWithin (rated c : Nat) : Nat := min 100 (1000 * c / rated / 10) * 10

/-- A configured group: its dimmer node is present (7.1). -/
def LampGroup.configured (g : LampGroup) : Bool := g.config.node.isSome

/-- R117: the fade is complete. -/
def LampGroup.complete (g : LampGroup) : Bool := g.elapsed = g.fadeLength

/-- R123: the level the fade gives at the present elapsed count, before the ceiling. -/
def LampGroup.fadeLine (g : LampGroup) : Nat :=
  if g.complete then g.target
  else (g.fadeStart + (((g.target : Int) - g.fadeStart) * g.elapsed).tdiv g.fadeLength).toNat

/-- R117: the fade level, limited by the ceiling. -/
def LampGroup.fadeLevel (g : LampGroup) : Nat := min g.fadeLine g.config.ceiling

/-- The target limited by the ceiling (R122, R126). -/
def LampGroup.limitedTarget (g : LampGroup) : Nat := min g.target g.config.ceiling

/-- R119: a group's state follows from its record; the first case that holds gives it. -/
def LampGroup.state (g : LampGroup) : LampState :=
  if g.failure.isSome then .fault
  else if g.clamp.isSome then .clamped
  else if g.configured && !g.complete then .ramping
  else if 0 < g.commanded then .lit
  else .dark

/-- R127: the level the dimmer will hold when the frames already formed have gone; absent is unknown. -/
def LampGroup.expected (g : LampGroup) : Option Nat := (g.queued.or g.inFlight).or g.sent

/-- R127: the commanded level differs from it. -/
def LampGroup.differs (g : LampGroup) : Bool := g.expected ≠ some g.commanded

/-- R127: the LAMP_LEVEL frame of a dimmer node, channel and level. -/
def lampFrame (node channel level src : Nat) : Frame :=
  { dest := node, src := src, kind := kindLampLevel, payload := byte channel :: be 2 level }

/-- R165: a waiting LAMP_LEVEL for the pair of dimmer node and channel field. -/
def LocalItem.onChannel (node channel : Nat) : LocalItem → Bool
  | .lampLevel _ _ f => f.dest = node && f.payload.head? = some (byte channel)
  | _ => false

/-- R127: the offer of group g's LAMP_LEVEL: none if the level does not differ; else it replaces the frame
that waits for the channel, enters at the back, or is deferred. A frame replaced takes the part's present address as
its SRC with the new level: DESIGN CHOICE, log entry 93. -/
def offerLevel (g : Nat) (p : Part) : Part :=
  let x := p.group g
  match x.config.node with
  | none => p
  | some node =>
    if !x.differs then p.putGroup g { x with deferred := false }
    else
      let item : LocalItem :=
        .lampLevel (some g) x.commanded (lampFrame node x.config.channel x.commanded p.mgmt.address)
      let taken := { x with queued := some x.commanded, deferred := false }
      if p.line.localQ.any (LocalItem.onChannel node x.config.channel) then
        ({ p with line.localQ :=
            p.line.localQ.map (fun (i : LocalItem) => if i.onChannel node x.config.channel then item else i) }).putGroup g taken
      else if p.line.localQ.length < Config.localPlaces then
        ({ p with line.localQ := p.line.localQ ++ [item] }).putGroup g taken
      else p.putGroup g { x with deferred := true, deferredOffers := bump x.deferredOffers }

/-- R118, step 3: frames of the old channel no longer alter the record of group g. -/
def LocalItem.detach (g : Nat) : LocalItem → LocalItem
  | .lampLevel (some h) level f => if h = g then .lampLevel none level f else .lampLevel (some h) level f
  | i => i

/-- R118, step 3, for the frame in flight. -/
def FieldFlight.detach (g : Nat) : FieldFlight → FieldFlight
  | .lampLevel (some h) level f => if h = g then .lampLevel none level f else .lampLevel (some h) level f
  | i => i

end Sys2Proof.Machine
end

