-- ==== Sys2Proof/Machine/BudgetOps.lean ====
section
/-! DEFINITION. The Feed Budget's working: the charge list and committed load (R135), the grant rule
(R137), the reclaim procedure (R138) with the lamp side of it (R125), the answer to a lamp increase
(R139) with the lamp side of it (R120), the re-offer of the waiting dials (R141) with what a dial does
when it is granted (R32, R33, R36), and the restore candidate (R142). -/

namespace Sys2Proof.Machine

/-! ## The charge list -/

/-- The limit of the present stage (8.1). -/
def FeedBudget.limit (b : FeedBudget) : Nat :=
  match b.stage with
  | .normal => b.limits.normal
  | .reduced => b.limits.reduced
  | .low => b.limits.low

/-- R135: the committed load, the sum of the amounts in the list. -/
def FeedBudget.committed (b : FeedBudget) : Nat := (b.charges.map Charge.amount).sum

/-- The limit less the committed load; negative above the limit (8.1). -/
def FeedBudget.headroom (b : FeedBudget) : Int := (b.limit : Int) - b.committed

/-- The entry that charges lamp group g. -/
def Charge.ofGroup (g : Nat) (c : Charge) : Bool := c.holder = .group g

/-- The entry of identity `id`, which charges a strike (log entry 8). -/
def Charge.ofStrike (id : Nat) (c : Charge) : Bool :=
  match c.holder with
  | .strike _ _ => c.id = id
  | _ => false

/-- A charge held by a lamp group. -/
def Charge.isLamp (c : Charge) : Bool :=
  match c.holder with
  | .group _ => true
  | _ => false

/-- The charge that lamp group g holds; 0 if it has no entry (R135). -/
def FeedBudget.groupCharge (b : FeedBudget) (g : Nat) : Nat :=
  match b.charges.find? (Charge.ofGroup g) with
  | some c => c.amount
  | none => 0

/-- The dial holds its drive charge (R135). -/
def FeedBudget.dialHolds (b : FeedBudget) (d : Nat) : Bool := b.charges.any (fun c => c.holder = .dial d)

/-- The sum of all lamp charges (R137). -/
def FeedBudget.lampCharges (b : FeedBudget) : Nat := ((b.charges.filter Charge.isLamp).map Charge.amount).sum

/-- A granted charge enters the list at the back (R135). -/
def addCharge (holder : Holder) (amount : Nat) (p : Part) : Part :=
  { p with
    budget.charges :=
      p.budget.charges ++
        [{ id := p.budget.nextId, holder := holder, amount := amount, grantedAt := p.osc, releaseAt := none }]
    budget.nextId := p.budget.nextId + 1 }

/-- A group's entry takes the amount given: it enters, changes in its place with its first
grant's instant (log entry 62), or leaves at 0 (R135, R139). -/
def setGroupCharge (g amount : Nat) (p : Part) : Part :=
  if amount = 0 then { p with budget.charges := p.budget.charges.filter (fun c => !c.ofGroup g) }
  else if p.budget.charges.any (Charge.ofGroup g) then
    { p with budget.charges := p.budget.charges.map (fun c => if c.ofGroup g then { c with amount := amount } else c) }
  else addCharge (.group g) amount p

/-! ## Reclaiming from lamps -/

/-- R125: the Lamp Controller lowers a group to the level the Budget names. -/
def lowerGroup (g level : Nat) (p : Part) : Part :=
  let x := p.group g
  let p := p.putGroup g { x with commanded := level, clamp := some level, reclaims := bump x.reclaims }
  let p := setGroupCharge g (chargeOf x.config.rated level) p
  offerLevel g { p with budget.reclaims := bump p.budget.reclaims }

/-- R138: the groups that hold a charge, in reclaim order. -/
def reclaimOrder (p : Part) : List Nat :=
  [3, 2, 1, 0].flatMap (fun pr =>
    groupNumbers.reverse.filter (fun g => (p.group g).config.priority = pr && 0 < p.budget.groupCharge g))

/-- R138: the walk that lowers groups until `x` has been released. -/
def reclaimWalk : List Nat → Nat → Part → Part
  | [], _, p => p
  | g :: more, x, p =>
    if x = 0 then p
    else
      let h := p.budget.groupCharge g
      if x < h then lowerGroup g (levelWithin (p.group g).config.rated (h - x)) p
      else reclaimWalk more (x - h) (lowerGroup g 0 p)

/-- R138: the reclaim procedure. -/
def reclaim (x : Nat) (p : Part) : Part := reclaimWalk (reclaimOrder p) x p

/-! ## The grant rule -/

/-- R137: what is decided of a strike or dial request of amount `a`. -/
def FeedBudget.decide (b : FeedBudget) (a : Nat) : GrantDecision :=
  if Config.chargeRoom ≤ b.charges.length then .refuse
  else if a = 0 then .grant
  else if b.limit < b.committed then .refuse
  else if b.committed + a ≤ b.limit then .grant
  else if b.committed + a - b.limit ≤ b.lampCharges then .reclaim (b.committed + a - b.limit)
  else .refuse

/-- R137 carried out: the part with the charge entered, and whether lamps were lowered for it; `none` when
it is refused. -/
def tryGrant (holder : Holder) (a : Nat) (p : Part) : Option (Part × Bool) :=
  match p.budget.decide a with
  | .refuse => none
  | .grant => some (addCharge holder a p, false)
  | .reclaim x => some (addCharge holder a (reclaim x p), true)

/-! ## Dials and the Budget -/

/-- R29: the DIAL_STEP frame of a dial. -/
def dialFrame (c : DialConfig) (src : Nat) : Frame :=
  { dest := c.node, src := src, kind := kindDialStep, payload := [byte c.channel, 1] }

/-- R29: a dial offers a DIAL_STEP to the LOCAL queue; none while a step is outstanding (R24). -/
def offerStep (d : Nat) (p : Part) : Part :=
  let x := p.dial d
  if x.outstanding then p
  else if p.line.localQ.length < Config.localPlaces then
    ({ p with line.localQ := p.line.localQ ++ [LocalItem.dialStep d (dialFrame x.config p.mgmt.address)] }).putDial d
      { x with outstanding := true, lastOffer := some p.osc }
  else p.putDial d { x with deferred := bump x.deferred, lastOffer := some p.osc }

/-- R140: a dial leaves the waiting list. -/
def stopWaiting (d : Nat) (p : Part) : Part := { p with budget.waiting := p.budget.waiting.erase d }

/-- R32, R33, R36: the Dial Driver is told of a grant; the dial runs fast, or goes on searching, and
offers a step at once. -/
def dialGranted (d : Nat) (p : Part) : Part :=
  let x := p.dial d
  offerStep d (if x.state = .unknown then p else p.putDial d { x with state := .advancing })

/-- R141: one waiting dial is re-offered; whether lamps were lowered for it is carried along. -/
def reofferOne (acc : Part × Bool) (d : Nat) : Part × Bool :=
  let p := acc.1
  match tryGrant (.dial d) (p.dial d).config.driveCharge p with
  | some (q, lowered) =>
    (dialGranted d (stopWaiting d { q with budget.dialGrants := bump q.budget.dialGrants }), acc.2 || lowered)
  | none => ({ p with budget.dialRefusals := bump p.budget.dialRefusals }, acc.2)

/-- R141: the waiting dials are re-offered from the front, each once. Where a grant has lowered lamps, that
release is followed by a re-offer in its turn (log entry 9). -/
def reoffer : Nat → Part → Part
  | 0, p => p
  | k + 1, p =>
    let r := p.budget.waiting.foldl reofferOne (p, false)
    if r.2 then reoffer k r.1 else r.1

/-! ## Restoring lamps -/

/-- R142: the CLAMPED groups, in restoration order. -/
def restorationOrder (p : Part) : List Nat :=
  [0, 1, 2, 3].flatMap (fun pr =>
    groupNumbers.filter (fun g => (p.group g).config.priority = pr && (p.group g).state = .clamped))

/-- R142: the restore candidate. -/
def candidate (p : Part) : Option Nat := (restorationOrder p).head?

/-- R142: the charge the group's present fade level would need, less the charge it holds. -/
def lampWant (g : Nat) (p : Part) : Nat :=
  chargeOf (p.group g).config.rated (p.group g).fadeLevel - p.budget.groupCharge g

/-- R142: the restore timer after an examination. -/
def examinedTimer (p : Part) : Option RestoreTimer :=
  match candidate p with
  | none => none
  | some g =>
    if p.budget.committed ≤ p.budget.limit ∧ (lampWant g p : Int) ≤ p.budget.headroom then
      match p.budget.restore with
      | some t => if t.group = g then some t else some { group := g, start := p.osc }
      | none => some { group := g, start := p.osc }
    else none

/-- R142: the Budget examines the restore candidate. -/
def examine (p : Part) : Part := { p with budget.restore := examinedTimer p }

/-- R135: what follows each release of a charge: the re-offer, then the examination (R141). -/
def afterRelease (p : Part) : Part := examine (reoffer 5 p)

/-- R135: the strike's charge of identity `id` is released. -/
def releaseCharge (id : Nat) (p : Part) : Part :=
  if p.budget.charges.any (Charge.ofStrike id) then
    afterRelease { p with budget.charges := p.budget.charges.filter (fun c => !c.ofStrike id) }
  else p

/-- R140: a dial releases the drive charge it holds, if any. -/
def releaseDial (d : Nat) (p : Part) : Part :=
  if p.budget.dialHolds d then
    afterRelease { p with budget.charges := p.budget.charges.filter (fun c => c.holder ≠ .dial d) }
  else p

/-- R137: a grant that lowered lamps is followed by what follows a release, any other by an examination. -/
def afterGrant (lowered : Bool) (p : Part) : Part := if lowered then afterRelease p else examine p

/-- R140: a dial asks for its drive charge. Granted, it runs fast or searches; refused, it waits. -/
def askDrive (d : Nat) (p : Part) : Part :=
  let x := p.dial d
  match tryGrant (.dial d) x.config.driveCharge p with
  | some (q, lowered) =>
    afterGrant lowered (dialGranted d (stopWaiting d { q with budget.dialGrants := bump q.budget.dialGrants }))
  | none =>
    ({ p with
      budget.waiting := if p.budget.waiting.contains d then p.budget.waiting else p.budget.waiting ++ [d]
      budget.dialRefusals := bump p.budget.dialRefusals }).putDial d
      { x with state := if x.state = DialState.unknown then DialState.unknown else .waitingFeed }

/-- R136: the Guard asks for a strike's charge. The identity of the charge granted, or `none`. What follows a release for
it, with the DIAL_STEPs of dials granted then, comes ahead of the strike's own frame: DESIGN CHOICE, log entry 95. -/
def askStrike (bell : Nat) (origin : Origin) (amount : Nat) (p : Part) : Part × Option Nat :=
  match tryGrant (.strike bell origin) amount p with
  | some (q, lowered) =>
    (afterGrant lowered { q with budget.strikeGrants := bump q.budget.strikeGrants }, some (q.budget.nextId - 1))
  | none => ({ p with budget.strikeRefusals := bump p.budget.strikeRefusals }, none)

/-! ## Lamp levels -/

/-- R120: a group's commanded level falls; its charge falls with it and the difference is released. The level is offered
before what follows the release (log entry 61). -/
def lampFall (g level : Nat) (p : Part) : Part :=
  let x := p.group g
  let held := p.budget.groupCharge g
  let q := offerLevel g
    (setGroupCharge g (chargeOf x.config.rated level) (p.putGroup g { x with commanded := level }))
  if q.budget.groupCharge g < held then afterRelease q else q

/-- R139: the level the Budget grants a group that wants `level`. -/
def lampGrant (g level : Nat) (p : Part) : Nat :=
  let x := p.group g
  let held := p.budget.groupCharge g
  let room : Int := p.budget.headroom + held
  if Config.chargeRoom ≤ p.budget.charges.length ∧ ¬ p.budget.charges.any (Charge.ofGroup g) then 0
  else if p.budget.committed ≤ p.budget.limit ∧ (chargeOf x.config.rated level : Int) ≤ room then level
  else if room < 0 then 0
  else min (levelWithin x.config.rated room.toNat) ((level - 1) / 10 * 10)

/-- R120: a group whose commanded level is to rise asks for the level it wants and takes what is granted. -/
def lampAsk (g level : Nat) (p : Part) : Part :=
  let x := p.group g
  let granted := lampGrant g level p
  if granted = level then
    examine (offerLevel g
      (setGroupCharge g (chargeOf x.config.rated level) (p.putGroup g { x with commanded := level })))
  else if x.commanded < granted then
    examine (offerLevel g
      (setGroupCharge g (chargeOf x.config.rated granted)
        (p.putGroup g { x with commanded := granted, clamp := some granted, clamps := bump x.clamps })))
  else examine (p.putGroup g { x with clamp := some x.commanded, clamps := bump x.clamps })

/-- R126: a clamp is removed by the group's own fade: its target, limited by the ceiling, is at or below
the clamp. No request is made. -/
def dropClamp (g : Nat) (p : Part) : Part :=
  let x := p.group g
  match x.clamp with
  | some c => if x.limitedTarget ≤ c then examine (p.putGroup g { x with clamp := none }) else p
  | none => p

/-- R126: the Budget restores a group: its clamp is removed and, while RUNNING, it asks for its fade level. -/
def restoreGroup (g : Nat) (p : Part) : Part :=
  let x := p.group g
  if x.clamp.isNone then p
  else
    let q := p.putGroup g { x with clamp := none }
    if x.commanded < x.fadeLevel ∧ p.mgmt.partState = .running then lampAsk g x.fadeLevel q else q

end Sys2Proof.Machine
end

