-- ==== Sys2Proof/Machine/SessionOps.lean ====
section
/-! DEFINITION. The session record's changes of state and their notices and events (R63, R75), and what
the Session Controller does when a RINGERS claim becomes active or inactive (R66, R68). -/

namespace Sys2Proof.Machine

/-- The bell set of the session (TABLE 4-1). -/
def Session.set (s : Session) : List Nat := s.bells.map SessionBell.bell

/-- The session with a change made to the per-bell fields of bell b. -/
def Session.update (s : Session) (b : Nat) (f : SessionBell → SessionBell) : Session :=
  { s with bells := s.bells.map (fun x => if x.bell = b then f x else x) }

/-- R75: the SESSION_STATE notice of a change. -/
def sessionNotice (old new : SessionState) (set : List Nat) (requester : Option Nat) (reason : SessionReason)
    (p : Part) : Part :=
  sendNotice .sessionState
    ([byte old.code, byte new.code] ++ bellSetBytes set ++ beOpt 1 requester ++ reason.bytes) p

/-- R68: the Session Controller looks for OPEN. -/
def lookForOpen (p : Part) : Part :=
  if p.session.state = .preparing ∧ p.session.bells.all (fun x => x.stage = .held) then
    emitCue .sessionOpen
      (sessionNotice .preparing .opened p.session.set p.session.requester .withdrawn
        { p with
          session.state := .opened
          session.began := p.towerTime
          session.opened := bump p.session.opened })
  else p

/-- R66: the Guard tells that the RINGERS claim on bell b has become active. -/
def toldActive (b : Nat) (p : Part) : Part :=
  if p.session.state = .preparing then
    lookForOpen { p with session := p.session.update b (fun x => { x with stage := .held }) }
  else p

/-- R66: the Guard tells that the RINGERS claim on bell b has become inactive. -/
def toldInactive (b : Nat) (p : Part) : Part :=
  if p.session.state = .preparing then
    { p with session := p.session.update b (fun x => { x with stage := .withdrawing }) }
  else p

end Sys2Proof.Machine
end

