-- ==== Sys2Proof/Machine/GuardOps.lean ====
section
/-! DEFINITION. The Bell Guard's working: hammer settings and the SAFETY queue (R48, R164),
re-engagement (R51), claims and ownership (R53, R54, R65), the guard check at admission (R57) and the take
checks (R49, R60). -/

namespace Sys2Proof.Machine

/-! ## Settings -/

/-- A fitted bell: its hammer node is present (3.1). -/
def Bell.fitted (x : Bell) : Bool := x.config.hammerNode.isSome

/-- R48: the HAMMER_SET frame of a bell, from its record. -/
def settingOf (b : Nat) (node : Nat) (c : BellConfig) (a : HammerAction) (src : Nat) : Setting :=
  { bell := b, action := a,
    frame := { dest := node, src := src, kind := kindHammerSet, payload := [byte c.hammerChannel, byte a.code] } }

/-- R48: the setting wanted for bell b is placed: it replaces the bell's own in the SAFETY queue, or takes a
free place, or stays wanted in the record. -/
def placeSetting (b : Nat) (p : Part) : Part :=
  let x := p.bell b
  match x.config.hammerNode, x.wanted with
  | some node, some a =>
    let s := settingOf b node x.config a p.mgmt.address
    if p.line.safetyQ.any (fun t => t.bell = b) then
      { p with line.safetyQ := p.line.safetyQ.map (fun t => if t.bell = b then s else t) }
    else if p.line.safetyQ.length < Config.safetyPlaces then { p with line.safetyQ := p.line.safetyQ ++ [s] }
    else p
  | _, _ => p

/-- R164: at a freed place the Guard places its wanted settings, lowest bell first, while places remain. -/
def placeWanted (p : Part) : Part :=
  bellNumbers.foldl
    (fun p b => if p.line.safetyQ.any (fun t => t.bell = b) then p else placeSetting b p) p

/-- R53: the RINGERS claim on bell b is active. -/
def Part.ringersActive (p : Part) (b : Nat) : Bool :=
  (p.bell b).claims.ringers &&
    ((p.bell b).hammer = .withdrawn || p.session.state = .opened || p.session.state = .closing)

/-- R53: the hammer state of bell b changes; the Session Controller is told if that makes the RINGERS claim
active or inactive. -/
def changeHammer (b : Nat) (st : HammerState) (p : Part) : Part :=
  let q := p.putBell b { p.bell b with hammer := st }
  if p.ringersActive b = q.ringersActive b then q
  else if q.ringersActive b then toldActive b q
  else toldInactive b q

/-- The hammer state while a setting is under way (R48). -/
def HammerAction.underWay : HammerAction → HammerState
  | .engage => .engaging
  | .withdraw => .withdrawing

/-- R48: the Guard decides a setting for bell b, if it is fitted. -/
def decideSetting (b : Nat) (a : HammerAction) (p : Part) : Part :=
  let x := p.bell b
  if x.fitted then
    placeSetting b
      (changeHammer b a.underWay (p.putBell b { x with wanted := some a, stateBefore := x.hammer, hammerTimer := none }))
  else p

/-- R51: the conditions under which ENGAGE is decided for bell b. -/
def Part.mayEngage (p : Part) (b : Nat) : Bool :=
  let x := p.bell b
  x.fitted && x.hammer = .withdrawn && x.wanted.isNone && p.mgmt.partState = .running
    && (x.config.cls = .fixed || (!x.claims.ringers && x.settled))

/-- R51: bell b is examined for re-engagement. -/
def reengage (b : Nat) (p : Part) : Part :=
  if p.mayEngage b then decideSetting b .engage (p.putBell b { p.bell b with intruded := false }) else p

/-! ## Claims -/

/-- R53: the owner of bell b, the highest-ranked active claim. -/
def Part.owner (p : Part) (b : Nat) : Option ClaimClass :=
  let c := (p.bell b).claims
  if p.ringersActive b then some .ringers
  else if c.console.isSome then some .console
  else if c.clock then some .clock
  else if c.tune then some .tune
  else none

/-- R54: a voice's claim on one bell is entered or removed. -/
def setVoiceClaim (v : VoiceId) (held : Bool) (p : Part) (b : Nat) : Part :=
  let x := p.bell b
  match v with
  | .clock => p.putBell b { x with claims.clock := held }
  | .tune => p.putBell b { x with claims.tune := held }

/-- R54: a voice enters its claims on a set of bells. -/
def enterClaims (v : VoiceId) (bells : List Nat) (p : Part) : Part := bells.foldl (setVoiceClaim v true) p

/-- R54: a voice removes its claims from a set of bells. -/
def removeClaims (v : VoiceId) (bells : List Nat) (p : Part) : Part := bells.foldl (setVoiceClaim v false) p

/-- R54, R65: a RINGERS claim is placed on bell b; the Guard acts on the hammer, or the claim is active at once. -/
def enterRingers (p : Part) (b : Nat) : Part :=
  let p := p.putBell b { p.bell b with claims.ringers := true }
  match (p.bell b).hammer with
  | .engaged | .engaging | .unknown => decideSetting b .withdraw p
  | .withdrawn => toldActive b p
  | .withdrawing | .jammed => p

/-- R54: a RINGERS claim leaves bell b, which is examined by R51. -/
def removeRingers (p : Part) (b : Nat) : Part := reengage b (p.putBell b { p.bell b with claims.ringers := false })

/-! ## The guard check -/

/-- The strike origins are the classes that may strike (TABLE 10-2). -/
def Origin.claim : Origin → ClaimClass
  | .clock => .clock
  | .tune => .tune
  | .console => .console

/-- R57: the permit set includes the class of the strike. -/
def Permits.allows (m : Permits) : Origin → Bool
  | .clock => m.clock
  | .tune => m.tune
  | .console => m.console

/-- R57: the recovery interval since the last take has run out at the instant `now`. -/
def Bell.recovered (x : Bell) (now : Nat) : Bool :=
  match x.lastTake with
  | none => true
  | some t => t + msTicks x.config.recovery ≤ now

/-- R57, R60: the bell may be struck where it hangs: it is FIXED, or DOWN. -/
def Bell.still (x : Bell) : Bool := x.config.cls = .fixed || x.position = .down

/-- R57: the conditions of TABLE 3-4 before the charge, in order; the first that fails gives the answer. -/
def Part.admission (p : Part) (b : Nat) (o : Origin) : Answer :=
  let x := p.bell b
  if p.mgmt.partState = .safe then .safe
  else if p.owner b ≠ some o.claim then .notOwner
  else if !x.config.permits.allows o then .notPermitted
  else if !x.still then .position
  else if x.hammer ≠ .engaged then .hammer
  else if !x.recovered p.osc then .recovery
  else .admitted

/-- The bell's count of strikes refused at admission rises (R57, R58). -/
def refuseStrike (b : Nat) (p : Part) : Part :=
  p.putBell b { p.bell b with strikesRefused := bump (p.bell b).strikesRefused }

/-- R57: the guard check at admission, with the request for the charge: the answer, and the identity of the
charge granted. -/
def admitStrike (b : Nat) (o : Origin) (p : Part) : Part × Answer × Nat :=
  match p.admission b o with
  | .admitted =>
    let r := askStrike b o (p.bell b).config.charge p
    match r.2 with
    | some id => (r.1, .admitted, id)
    | none => (refuseStrike b r.1, .budgetSkip, 0)
  | a => (refuseStrike b p, a, 0)

/-- R57: the STRIKE frame of a voice. -/
def strikeFrame (c : BellConfig) (force : Nat) (o : Origin) (src : Nat) : Frame :=
  { dest := c.hammerNode.getD 0, src := src, kind := kindStrike,
    payload := [byte c.hammerChannel, byte force, byte o.code] }

/-- R49: a HAMMER_SET passes its take check. -/
def Part.settingPasses (p : Part) (s : Setting) : Bool :=
  let x := p.bell s.bell
  match s.action with
  | .withdraw => true
  | .engage =>
    p.mgmt.partState = .running && (x.config.cls = .fixed || (!x.claims.ringers && x.settled))

/-- R60: a STRIKE for bell b passes its take check. -/
def Part.strikePasses (p : Part) (b : Nat) : Bool :=
  let x := p.bell b
  x.still && x.hammer = .engaged && x.recovered p.osc && p.mgmt.partState = .running

/-! ## SAFE -/

/-- R61: on the entry into SAFE, WITHDRAW is decided for every fitted bell whose hammer is not WITHDRAWN. -/
def guardSafe (p : Part) : Part :=
  bellNumbers.foldl (fun p b => if (p.bell b).hammer = .withdrawn then p else decideSetting b .withdraw p) p

/-- R61: on the return to RUNNING every bell is examined by R51. -/
def guardRunning (p : Part) : Part := bellNumbers.foldl (fun p b => reengage b p) p

end Sys2Proof.Machine
end

