-- ==== Sys2Proof/Machine/VoiceOps.lean ====
section
/-! DEFINITION. What ends a voice's sounding: held strikes dropped (R104), the end of a quarter (R109), the
end of a tune (R113) and the stop at SAFE (R114); and the placing of an admitted strike (R103). -/

namespace Sys2Proof.Machine

/-- R103: a held strike leaves the list unplaced and its charge is released. -/
def releaseStrikes (l : List HeldStrike) (p : Part) : Part :=
  l.foldl (fun p h => releaseCharge h.strike.charge p) p

/-- R104: every held strike of a voice is dropped as LATE. -/
def dropHeld (v : VoiceId) (p : Part) : Part :=
  let x := p.voice v
  releaseStrikes x.held
    (p.putVoice v { x with held := [], counts := { x.counts with late := bumpBy x.held.length x.counts.late } })

/-- R104: the held strikes whose deadline has been reached are dropped as LATE. -/
def dropLate (v : VoiceId) (p : Part) : Part :=
  let x := p.voice v
  let late := x.held.filter (fun h => h.deadline ≤ p.osc)
  releaseStrikes late
    (p.putVoice v
      { x with held := x.held.filter (fun h => ¬ h.deadline ≤ p.osc),
               counts := { x.counts with late := bumpBy late.length x.counts.late } })

/-- R103: an admitted strike enters the LOCAL queue or joins the held list, dropping the oldest of four. -/
def placeStrike (v : VoiceId) (s : Strike) (deadline : Nat) (p : Part) : Part :=
  let x := p.voice v
  if x.held = [] ∧ p.line.localQ.length < Config.localPlaces then
    { p with line.localQ := p.line.localQ ++ [LocalItem.strike s] }
  else
    let join (x : Voice) : Voice :=
      { x with held := x.held ++ [{ strike := s, deadline := deadline }],
               counts := { x.counts with held := bump x.counts.held } }
    match x.held with
    | oldest :: rest =>
      if Config.heldPlaces ≤ x.held.length then
        releaseCharge oldest.strike.charge
          (p.putVoice v
            (join { x with held := rest, counts := { x.counts with displaced := bump x.counts.displaced } }))
      else p.putVoice v (join x)
    | [] => p.putVoice v (join x)

/-- R94: the fields of a voice that are absent or empty in IDLE; the pulses elapsed are 0 (log entry 56). -/
def Voice.idle (x : Voice) : Voice :=
  { x with start := none, tempo := none, pulse := none, pulses := 0, declared := none, stack := [], claimed := [] }

/-- R109: the quarter in hand ends. -/
def endQuarter (p : Part) : Part :=
  let p := dropHeld .clock { p with clock.voice.stack := [] }
  let p := removeClaims .clock p.clock.voice.claimed p
  { p with
    clock.state := .idle
    clock.voice := p.clock.voice.idle
    clock.quarter := none
    clock.strikeFollows := false
    clock.blows := none
    clock.nextBlow := none }

/-- R113: the tune ends, for the reason given, and TUNE_END goes to the cue links. -/
def endTune (reason : EndReason) (p : Part) : Part :=
  let p := dropHeld .tune { p with tune.voice.stack := [] }
  let p := removeClaims .tune p.tune.voice.claimed p
  let number := match p.tune.inHand with
    | some (t, _) => t
    | none => 0
  emitCue (.tuneEnd number reason)
    { p with tune.state := .idle, tune.voice := p.tune.voice.idle, tune.inHand := none }

/-- R114: the part enters SAFE; both voices stop, the clock voice ahead of the tune voice: DESIGN CHOICE, log entry
92. -/
def voicesSafe (p : Part) : Part :=
  let p := if p.clock.state = .idle then p else endQuarter p
  if p.tune.state = .idle then p else endTune .safe p

end Sys2Proof.Machine
end

