-- ==== Sys2Proof/Machine/Faults.lean ====
section
/-! DEFINITION. MAJOR faults and the entry into SAFE (R178), with what the Guard and the Voices do at it
(R61, R114), and the record checks that raise CONTROL_CHECK (R161, R173). -/

namespace Sys2Proof.Machine

/-- R178: the fault record after a MAJOR fault. -/
def faultRecorded (kind : FaultKind) (detail : List Byte) (p : Part) : FaultRecord :=
  match p.mgmt.faults with
  | none => { kind := kind, detail := detail, time := p.towerTime, further := 0 }
  | some r => { r with further := min (r.further + 1) 255 }

/-- R178: a MAJOR fault enters SAFE if the record is RAISED and the part is RUNNING. -/
def entersSafe (p : Part) : Bool := p.mgmt.faults.isSome && p.mgmt.partState = .running

/-- R178: a block raises a MAJOR fault. The Lamp Controller does nothing at the entry into SAFE (R131). -/
def raiseMajor (kind : FaultKind) (detail : List Byte) (p : Part) : Part :=
  let q := { p with mgmt.faults := some (faultRecorded kind detail p) }
  emitCue .faultMajor
    (if entersSafe p then
      sendNotice .safeEntered []
        (noticeFault kind detail (voicesSafe (guardSafe { q with mgmt.partState := .safe })))
    else noticeFault kind detail q)

/-- R173: a source record is read with its check; `none` is CHECK_FAIL. A record that fails raises
CONTROL_CHECK once. -/
def readSource (node : Nat) (p : Part) : Part × Option SourceClass :=
  let r := bankGet1 p.mgmt.sources node (stored sourceClassBytes SourceClass.noClass)
  if p.mgmt.failedSources.contains node then (p, none)
  else if checkHolds sourceClassBytes r then (p, some r.val)
  else
    (raiseMajor .controlCheck (tableDetail .sources node)
      { p with mgmt.failedSources := p.mgmt.failedSources ++ [node] }, none)

/-- R173: the class that the source table gives a node; a record that fails is NONE. -/
def classOf (node : Nat) (p : Part) : Part × SourceClass :=
  if within 1 node 62 then ((readSource node p).1, (readSource node p).2.getD .noClass) else (p, .noClass)

end Sys2Proof.Machine
end

