-- ==== Sys2Proof/Machine/SessionActions.lean ====
section
/-! DEFINITION. The session's ends: a failed preparation (R69), closing (R72), a bell LEFT (R73) and
completion (R74); and the request that begins one (R64). -/

namespace Sys2Proof.Machine

/-- R69: the hammer of bell b has jammed. The notice of the change to IDLE carries the requester of the session that
ended (log entry 54). -/
def sessionJam (b : Nat) (p : Part) : Part :=
  if ¬ p.session.set.contains b then p
  else
    let s := p.session.update b (fun x => { x with jam := true })
    match p.session.state with
    | .idle => p
    | .opened | .closing => { p with session := s }
    | .preparing =>
      let q := s.set.foldl removeRingers { p with session := s }
      sessionNotice .preparing .idle s.set s.requester (.jammed b)
        { q with
          session.state := .idle
          session.bells := []
          session.requester := none
          session.began := q.towerTime
          session.outcome := .failed b
          session.failed := bump q.session.failed }

/-- R74: when every bell of the set is LEFT the session completes. The notice of the change to IDLE carries the requester
of the session that ended (log entry 54). -/
def completeSession (p : Part) : Part :=
  if p.session.state = .closing ∧ p.session.bells.all (fun x => x.stage = .left) then
    emitCue .sessionClosed
      (sessionNotice .closing .idle p.session.set p.session.requester .settled
        { p with
          session.state := .idle
          session.bells := []
          session.requester := none
          session.began := p.towerTime
          session.outcome := SessionOutcome.closed
          session.closed := bump p.session.closed })
  else p

/-- R72, R73: the RINGERS claim of bell b is removed, and its stage is LEFT. -/
def leaveBell (p : Part) (b : Nat) : Part :=
  removeRingers { p with session := p.session.update b (fun x => { x with stage := .left }) } b

/-- R73: the Guard tells that bell b has settled. -/
def sessionSettled (b : Nat) (p : Part) : Part :=
  if p.session.state = .closing ∧ p.session.bells.any (fun x => x.bell = b && x.stage = .held) then
    completeSession (leaveBell p b)
  else p

/-- R72: the session goes to CLOSING; the claims of the settled bells leave. -/
def closeSession (p : Part) : Part :=
  let q := { p with
    session.state := .closing
    session.began := p.towerTime
    session.bells := p.session.bells.map (fun (x : SessionBell) => { x with stage := .held }) }
  (q.session.set.filter (fun b => (q.bell b).settled)).foldl leaveBell q

/-- R64: the checks of a RING_REQUEST, in order; `none` when it passes. -/
def ringRefusal (bells : List Nat) (p : Part) : Option Code :=
  if p.mgmt.partState = .safe then some .safeState
  else if p.session.state ≠ .idle then some .busy
  else if bells = [] then some .badValue
  else if bells.any (fun b => !within 1 b 16) then some .badIndex
  else if bells.any (fun b => (p.bell b).config.cls = .fixed || (p.bell b).config.sensorNode.isNone) then
    some .notSwing
  else if bells.any (fun b => (p.bell b).hammer = .jammed) then some .wrongState
  else none

/-- R64: a RING_REQUEST that passes begins a session in PREPARING. -/
def beginSession (bells : List Nat) (src : Nat) (p : Part) : Part :=
  { p with
    session.state := .preparing
    session.bells := (canonical 1 16 bells).map (fun b => { bell := b, stage := .withdrawing, jam := false })
    session.requester := some src
    session.began := p.towerTime }

/-- R64, R65: the RINGERS claims of the session's set are entered, in bell-number order (log entry 82). -/
def enterSessionClaims (p : Part) : Part := p.session.set.foldl enterRingers p

end Sys2Proof.Machine
end

