-- ==== Sys2Proof/Machine/GuardEvents.lean ====
section
/-! DEFINITION. The Bell Guard's events: position reports (R44, R46), settling (R45), the sensor timer
(R47), hammer reports and the hammer timer (R50, R52), console claims (R55, R56), and the writes of the bell
table and the guard configuration (R42, R43). -/

namespace Sys2Proof.Machine

/-! ## Positions -/

/-- R44: a BELL_STATE report is accepted. -/
def Part.acceptsReport (p : Part) (src b : Nat) : Bool :=
  within 1 b 16 && (p.bell b).config.cls = .swing && (p.bell b).config.sensorNode = some src

/-- R46: a report of MOVING or UP is examined for intrusion. -/
def examineIntrusion (b : Nat) (pos : ReportedPosition) (p : Part) : Part :=
  let x := p.bell b
  if x.claims.ringers then p
  else if !x.intruded then
    raiseMajor .intrusion [byte b, byte (reportCode pos)]
      (decideSetting b .withdraw (p.putBell b { x with intruded := true }))
  else if x.hammer = .withdrawn ∨ x.hammer = .withdrawing then p
  else decideSetting b .withdraw p

/-- R44: an accepted report for bell b, whose instant is `now`: the arrival instant of its frame (R163). -/
def bellReported (b : Nat) (pos : ReportedPosition) (now : Nat) (p : Part) : Part :=
  let x := { p.bell b with lastReport := some now, sensorFrom := some now }
  match pos with
  | .down =>
    if x.position = .down then p.putBell b x
    else p.putBell b { x with position := .down, downBegan := some now, settled := false }
  | .moving =>
    examineIntrusion b pos (p.putBell b { x with position := .moving, downBegan := none, settled := false })
  | .up =>
    examineIntrusion b pos (p.putBell b { x with position := .up, downBegan := none, settled := false })

/-- R44: a BELL_STATE report. -/
def takeBellState (src b : Nat) (pos : ReportedPosition) (now : Nat) (p : Part) : Part :=
  if p.acceptsReport src b then bellReported b pos now p
  else { p with bellGuard.ignoredReports := bump p.bellGuard.ignoredReports }

/-- R45: the settle time of a DOWN period has been reached. -/
def Part.settleDue (p : Part) (b : Nat) : Bool :=
  let x := p.bell b
  x.config.cls = .swing && x.position = .down && !x.settled
    && x.downBegan.any (fun t => t + secTicks x.config.settle ≤ p.osc)

/-- R45: bell b is settled. -/
def bellSettles (b : Nat) (p : Part) : Part :=
  reengage b (sessionSettled b (p.putBell b { p.bell b with settled := true }))

/-- R47: the sensor timer of bell b has expired. -/
def Part.sensorDue (p : Part) (b : Nat) : Bool :=
  (p.bell b).sensorFrom.any (fun t => t + secTicks p.bellGuard.sensorTimeout ≤ p.osc)

/-- R47: the sensor timer of bell b expires, and stops. -/
def sensorExpires (b : Nat) (p : Part) : Part :=
  raiseMinor .sensorSilent [byte b]
    (p.putBell b { p.bell b with position := .unknown, downBegan := none, settled := false, sensorFrom := none })

/-! ## Hammers -/

/-- R50: the fitted bell of a hammer node and channel. -/
def bellAt (node channel : Nat) (p : Part) : Option Nat :=
  bellNumbers.find? (fun b => (p.bell b).config.hammerNode = some node && (p.bell b).config.hammerChannel = channel)

/-- R50: a hammer jams, by report or by the timer. -/
def hammerJams (b : Nat) (p : Part) : Part :=
  sessionJam b (raiseMajor .hammerJam [byte b] (changeHammer b .jammed p))

/-- R50, R52: a report for bell b. -/
def hammerReported (b : Nat) (a : HammerAnswer) (p : Part) : Part :=
  let active := p.ringersActive b
  let q := p.putBell b { p.bell b with hammerTimer := none }
  match a with
  | .jammed => hammerJams b q
  | .withdrawn => reengage b (changeHammer b .withdrawn q)
  | .engaged =>
    if (p.bell b).claims.ringers then
      let q := decideSetting b .withdraw (changeHammer b .engaged q)
      if active then raiseMajor .hammerUnexpected [byte b] q else q
    else changeHammer b .engaged q

/-- R50: a HAMMER_REPORT. -/
def takeHammerReport (src channel : Nat) (a : HammerAnswer) (p : Part) : Part :=
  match bellAt src channel p with
  | some b => hammerReported b a p
  | none => { p with bellGuard.unmatchedReports := bump p.bellGuard.unmatchedReports }

/-- R50: the hammer timer of bell b expires. -/
def hammerExpires (b : Nat) (p : Part) : Part := hammerJams b (p.putBell b { p.bell b with hammerTimer := none })

/-! ## Console claims -/

/-- R55: the checks of both requests that the console makes. -/
def claimRefusal (bells : List Nat) : Option Code :=
  if bells = [] then some .badValue
  else if bells.any (fun b => !within 1 b 16) then some .badIndex
  else none

/-- R55: CLAIM_BELLS. -/
def claimBells (src : Nat) (bells : List Nat) (p : Part) : Part × Code :=
  match claimRefusal bells with
  | some c => (p, c)
  | none =>
    if p.mgmt.partState = .safe then (p, .safeState)
    else
      ((canonical 1 16 bells).foldl
        (fun p b => p.putBell b { p.bell b with
          claims := { (p.bell b).claims with console := some src },
          consoleIdle := some (p.osc + Config.consoleIdleTicks) }) p, .ok)

/-- R55, R56: the CONSOLE claim leaves bell b and its idle timer stops. -/
def releaseConsole (p : Part) (b : Nat) : Part :=
  p.putBell b { p.bell b with claims := { (p.bell b).claims with console := none }, consoleIdle := none }

/-- R55: a bell named by RELEASE_BELLS; one without a CONSOLE claim is unaffected. -/
def releaseNamed (p : Part) (b : Nat) : Part :=
  if (p.bell b).claims.console.isSome then releaseConsole p b else p

/-- R55: RELEASE_BELLS. -/
def releaseBells (bells : List Nat) (p : Part) : Part × Code :=
  match claimRefusal bells with
  | some c => (p, c)
  | none => ((canonical 1 16 bells).foldl releaseNamed p, .ok)

/-- R56: the console idle timer restarts. -/
def restartConsoleIdle (b : Nat) (p : Part) : Part :=
  p.putBell b { p.bell b with consoleIdle := some (p.osc + Config.consoleIdleTicks) }

/-! ## Writes -/

/-- R62, R42: the setting a fitted bell is given at start-up; while SAFE a FIXED bell is withdrawn. -/
def startSetting (p : Part) (b : Nat) : Part :=
  decideSetting b
    (if (p.bell b).config.cls = .fixed ∧ p.mgmt.partState = .running then .engage else .withdraw) p

/-- R42: the record after an accepted write: the claim set, the console idle timer, the last take and the
counts are kept. The state before setting is the hammer state written (log entry 74). -/
def Bell.rewritten (x : Bell) (c : BellConfig) (osc : Nat) : Bell :=
  { Bell.started c osc with
    claims := x.claims, consoleIdle := x.consoleIdle, lastTake := x.lastTake, strikesSent := x.strikesSent,
    strikesRefused := x.strikesRefused, strikesDiscarded := x.strikesDiscarded }

/-- R42, R164: the bell's own setting leaves SAFETY, and the Guard places its wanted settings in the place it frees. -/
def withdrawSetting (b : Nat) (p : Part) : Part :=
  if p.line.safetyQ.any (fun s => s.bell = b) then
    placeWanted { p with line.safetyQ := p.line.safetyQ.filter (fun s => s.bell ≠ b) }
  else p

/-- R42: an accepted write of bell record b. -/
def bellWritten (b : Nat) (c : BellConfig) (p : Part) : Part :=
  startSetting (withdrawSetting b (p.putBell b ((p.bell b).rewritten c p.osc))) b

/-- R42: a write of bell record b. -/
def writeBell (b : Nat) (bs : List Byte) (p : Part) : Part × Code :=
  if ¬ within 1 b 16 then (p, .badIndex)
  else
    match parseBellConfig bs with
    | none => (p, .badValue)
    | some c =>
      if c.hammerNode.isSome ∧ bellNumbers.any (fun a => a ≠ b && (p.bell a).config.hammerNode = c.hammerNode
          && (p.bell a).config.hammerChannel = c.hammerChannel) then (p, .duplicate)
      else if (p.bell b).claims.ringers then (p, .inUse)
      else (bellWritten b c p, .ok)

/-- R43: a write of the guard configuration; a timer whose new expiry has passed expires at once, several in
bell-number order (log entry 53). A record number other than 0 is outside the table (log entry 66). -/
def writeGuardConfig (n : Nat) (bs : List Byte) (p : Part) : Part × Code :=
  if n ≠ 0 then (p, .badIndex)
  else
    match parseGuardConfig bs with
    | none => (p, .badValue)
    | some t =>
      (bellNumbers.foldl (fun p b => if p.sensorDue b then sensorExpires b p else p)
        { p with bellGuard.sensorTimeout := t }, .ok)

end Sys2Proof.Machine
end

