-- ==== Sys2Proof/Machine/Requests.lean ====
section
/-! DEFINITION. How the Management Unit takes a request and answers it (R172), with the reply's place in UP
(R167) and the part's own address (R174). -/

namespace Sys2Proof.Machine

/-- The rank of a class; NONE and TIME are not ranked (TABLE 11-3). -/
def SourceClass.rank : SourceClass → Nat
  | .noClass | .time => 0
  | .console => 1
  | .operator => 2
  | .service => 3

/-- R172, check 4: a class may do what `least` may do. -/
def SourceClass.atLeast (c least : SourceClass) : Bool := least.rank ≤ c.rank

/-- TABLE 11-3: the operation code of a request. -/
def operationOf : Instr → Nat
  | .readRecord .. => 1
  | .writeRecord .. => 2
  | .openCursor .. => 3
  | .readNext .. => 4
  | .writeNext .. => 5
  | .setTime .. => 10
  | .seasonAdd .. => 11
  | .seasonRemove .. => 12
  | .seasonBase .. => 13
  | .setDial .. => 14
  | .claimBells .. => 20
  | .releaseBells .. => 21
  | .ringRequest .. => 22
  | .ringRelease .. => 23
  | .startTune .. => 30
  | .stopTune .. => 31
  | .omitNext .. => 32
  | .applyScene .. => 33
  | .ackFault .. => 40
  | .resetPart .. => 41
  | _ => 0

/-- R172: the MGMT_REPLY frame: the operation code echoed, the completion code and the data. -/
def replyFrame (dest operation : Nat) (code : Code) (data : List Byte) (p : Part) : Frame :=
  { dest := dest, src := p.mgmt.address, kind := kindReply,
    payload := [byte operation, byte code.code] ++ data }

/-- R172, R174: the reply has been queued. The request leaves hand, and a new address takes effect. -/
def replyQueued (p : Part) : Part :=
  { p with
    mgmt.inHand := none
    mgmt.replyWaiting := none
    mgmt.address := p.mgmt.nextAddress.getD p.mgmt.address
    mgmt.nextAddress := none }

/-- R167: a reply enters UP, or waits in the Management Unit while UP holds 16. -/
def offerReply (item : UpItem) (p : Part) : Part :=
  if p.line.upQ.length < Config.upPlaces then replyQueued { p with line.upQ := p.line.upQ ++ [item] }
  else { p with mgmt.replyWaiting := some item }

/-- R172: the reply to a request. -/
def reply (src operation : Nat) (code : Code) (data : List Byte) (p : Part) : Part :=
  offerReply (.reply (replyFrame src operation code data p)) p

/-- R172: a request is in hand, or the reply to RESET_PART has not completed (R182). -/
def Part.busy (p : Part) : Bool := p.mgmt.inHand.isSome || p.mgmt.replyWaiting.isSome || p.mgmt.resetting

/-- R172: a request is delivered: dropped while another is in hand (R167), else taken in hand with the
class of its source read at this moment. One dropped on account of RESET_PART is counted too (DESIGN CHOICE, log entry
88). -/
def deliverRequest (i : Instr) (src : Nat) (p : Part) : Part :=
  if p.busy then { p with line.busyDrops := bump p.line.busyDrops }
  else
    let r := classOf src p
    { r.1 with mgmt.inHand := some { request := i, cls := r.2 } }

/-- R172: the Management Unit works on request `i`: one already in hand, or one delivered now. Check 1 is made
here, and `work` makes the others and replies. -/
def serve (i : Instr) (src : Nat) (work : SourceClass → Part → Part) (p : Part) : Part :=
  if !p.retention.supply then p
  else
    let q := if p.mgmt.inHand.any (fun h => h.request = i) ∧ p.mgmt.replyWaiting.isNone then p
      else deliverRequest i src p
    match q.mgmt.inHand with
    | some h =>
      if h.request = i ∧ q.mgmt.replyWaiting.isNone then
        if h.cls.rank = 0 then reply src (operationOf i) .notPermitted [] q else work h.cls q
      else q
    | none => q

/-- A request whose least class is fixed by TABLE 11-3 and whose effect comes before its reply. -/
def serveSimple (i : Instr) (src : Nat) (least : SourceClass) (op : Part → Part × Code) (p : Part) : Part :=
  serve i src
    (fun cls p =>
      if cls.atLeast least then
        let r := op p
        reply src (operationOf i) r.2 [] r.1
      else reply src (operationOf i) .notPermitted [] p) p

end Sys2Proof.Machine
end

