-- ==== Sys2Proof/Machine/LineOps.lean ====
section
/-! DEFINITION. The Line Switch: the judging of a received frame (R159), the check of a copy (R160), the
route table (R161), classification (R162), the route actions (R163), console strikes (R58, R59), the PASS
queue (R166), and the field arbiter with its take checks (R168, R49, R60) and freed places (R164, R165). -/

namespace Sys2Proof.Machine

/-! ## Frames -/

/-- TABLE 10-1: the bytes of a frame. -/
def Frame.bytes (f : Frame) : List Byte :=
  let head := [byte f.dest, byte f.src, byte f.kind, byte f.payload.length] ++ f.payload
  head ++ checkBytes (crc16 head)

/-- R159: how a reception is judged. -/
inductive Judgement where
  | frame (f : Frame)
  | length | short | long | check | address
  deriving DecidableEq, Repr

/-- R159: a reception of the bytes between two idle gaps is judged, the cases tried in order. -/
def judge (bs : List Byte) : Judgement :=
  match bs with
  | dest :: src :: kind :: len :: rest =>
    if Config.payloadLimit < len.toNat then .length
    else if rest.length < len.toNat + 2 then .short
    else if len.toNat + 2 < rest.length then .long
    else if checkBytes (crc16 (bs.take (len.toNat + 4))) ≠ rest.drop len.toNat then .check
    else if 62 < dest.toNat ∨ src.toNat = 0 ∨ 62 < src.toNat then .address
    else .frame { dest := dest.toNat, src := src.toNat, kind := kind.toNat, payload := rest.take len.toNat }
  | _ => .short

/-- The counts of a port (TABLE 10-9). -/
def Part.port (p : Part) : Port → PortCounts
  | .console => p.line.consolePort
  | .field => p.line.fieldPort
/-- The part with the counts of a port replaced. -/
def Part.putPort (p : Part) (t : Port) (c : PortCounts) : Part :=
  match t with
  | .console => { p with line.consolePort := c }
  | .field => { p with line.fieldPort := c }

/-- R159: a discarded reception is counted twice, as an error and in its case. -/
def PortCounts.judged (c : PortCounts) : Judgement → PortCounts
  | .frame _ => { c with received := bump c.received }
  | .length => { c with errors := bump c.errors, lengthErrors := bump c.lengthErrors }
  | .short => { c with errors := bump c.errors, shortErrors := bump c.shortErrors }
  | .long => { c with errors := bump c.errors, longErrors := bump c.longErrors }
  | .check => { c with errors := bump c.errors, checkErrors := bump c.checkErrors }
  | .address => { c with errors := bump c.errors, addressErrors := bump c.addressErrors }

/-! ## Copies -/

/-- The byte of a payload. -/
def payloadAt (f : Frame) (i : Nat) : Nat := numAt f.payload i 1

/-- R160: what comes of a copy: it goes to no block, it is malformed, or it spells a command. -/
inductive Copy where
  | undelivered | malformed
  | command (i : Instr)
  deriving DecidableEq, Repr

/-- R160: a copy that spells a command, or is malformed. -/
def Copy.of : Option Instr → Copy
  | some i => .command i
  | none => .malformed

/-- TABLE 10-2: the position codes of a BELL_STATE. -/
def positionOfCode : Nat → Option ReportedPosition
  | 1 => some .down | 2 => some .moving | 3 => some .up | _ => none
/-- TABLE 10-2: the state codes of a HAMMER_REPORT. -/
def answerOfCode : Nat → Option HammerAnswer
  | 1 => some .engaged | 2 => some .withdrawn | 3 => some .jammed | _ => none
/-- TABLE 10-2: the status codes of a LAMP_REPORT. -/
def lampStatusOfCode : Nat → Option LampStatus
  | 0 => some .ok | 1 => some .lampFail | 2 => some .driverFail | _ => none

/-- R160: the copy of a report or a time mark, checked against TABLE 10-2. The quality of a mark is a value,
which the Time Scale checks (log entry 33). A kind without a consumer is undelivered whatever its LEN (DESIGN CHOICE,
log entry 87). -/
def parseCopy (f : Frame) : Copy :=
  let n := f.payload.length
  if f.kind = kindBellState then
    if n ≠ 2 then .malformed
    else Copy.of ((positionOfCode (payloadAt f 1)).map (.bellState f.src (payloadAt f 0)))
  else if f.kind = kindHammerReport then
    if n ≠ 2 then .malformed
    else Copy.of ((answerOfCode (payloadAt f 1)).map (.hammerReport f.src (payloadAt f 0)))
  else if f.kind = kindDialHome then
    if n ≠ 1 then .malformed else .command (.dialHome f.src (payloadAt f 0))
  else if f.kind = kindLampReport then
    if n ≠ 2 then .malformed
    else Copy.of ((lampStatusOfCode (payloadAt f 1)).map (.lampReport f.src (payloadAt f 0)))
  else if f.kind = kindFeedState then
    if n ≠ 1 then .malformed else Copy.of ((stageOfCode (payloadAt f 0)).map (.feedState f.src))
  else if f.kind = kindTimeMark then
    if n ≠ 7 then .malformed
    else .command (.timeMark f.src (payloadAt f 0) (payloadAt f 1) (payloadAt f 2) (numAt f.payload 3 3)
      (payloadAt f 6))
  else .undelivered

/-- R5, R173: the class that a TIME_MARK is given at its delivery; no other copy needs one. -/
def copyClass (f : Frame) (p : Part) : Part × Option SourceClass :=
  if f.kind = kindTimeMark then ((classOf f.src p).1, some (classOf f.src p).2) else (p, none)

/-- R23, R34: the dial that a copy belongs to as it is received, for a DIAL_HOME. -/
def copyDial (i : Instr) (p : Part) : Option Nat :=
  match i with
  | .dialHome src channel => dialAt src channel p
  | _ => none

/-- R163: a copy is delivered to its consumer with its arrival instant and port, and waits for it to be taken (log
entry 5). -/
def deliverCopy (t : Port) (f : Frame) (p : Part) : Part :=
  match parseCopy f with
  | .undelivered => { p with line.undelivered := bump p.line.undelivered }
  | .malformed => { p with line.malformed := bump p.line.malformed }
  | .command i =>
    let r := copyClass f p
    let x : Delivery :=
      { command := i, arrival := r.1.osc, port := t, cls := r.2, delay := r.1.time.delay
        monitor := r.1.budget.limits.monitor, dial := copyDial i r.1 }
    { r.1 with line.delivered := r.1.line.delivered ++ [x] }

/-! ## Requests -/

/-- TABLE 11-1: the operation of an MGMT_REQUEST and its operands; `none` if the code is not in TABLE 11-3 or
the LEN does not fit the operands (R172, check 2). -/
def parseRequest (f : Frame) : Option Instr :=
  let bs := f.payload
  let n := bs.length
  let s := f.src
  let one (i : Instr) (k : Nat) : Option Instr := if n = k then some i else none
  match payloadAt f 0 with
  | 1 => one (.readRecord s (payloadAt f 1) (numAt bs 2 2) (numAt bs 4 2)) 6
  | 2 => if 4 ≤ n then some (.writeRecord s (payloadAt f 1) (numAt bs 2 2) (bs.drop 4)) else none
  | 3 => one (.openCursor s (payloadAt f 1) (numAt bs 2 2) (payloadAt f 4) (numAt bs 5 2)) 7
  | 4 => one (.readNext s) 1
  | 5 => some (.writeNext s (bs.drop 1))
  | 10 => one (.setTime s (payloadAt f 1) (payloadAt f 2) (payloadAt f 3) (numAt bs 4 3)) 7
  | 11 => one (.seasonAdd s (numAt bs 1 4) (intOf ((bs.drop 5).take 2))) 7
  | 12 => one (.seasonRemove s (numAt bs 1 4)) 5
  | 13 => one (.seasonBase s (intOf ((bs.drop 1).take 2))) 3
  | 14 => one (.setDial s (payloadAt f 1) (numAt bs 2 2)) 4
  | 20 => one (.claimBells s (bitsSet 1 16 (numAt bs 1 2))) 3
  | 21 => one (.releaseBells s (bitsSet 1 16 (numAt bs 1 2))) 3
  | 22 => one (.ringRequest s (bitsSet 1 16 (numAt bs 1 2))) 3
  | 23 => one (.ringRelease s) 1
  | 30 => one (.startTune s (payloadAt f 1) (payloadAt f 2)) 3
  | 31 => one (.stopTune s) 1
  | 32 => one (.omitNext s) 1
  | 33 => one (.applyScene s (payloadAt f 1)) 2
  | 40 => one (.ackFault s (payloadAt f 1)) 2
  | 41 => one (.resetPart s) 1
  | _ => none

/-- R160, R162: an MGMT_REQUEST for the part is delivered to the Management Unit. A request that spells an
operation stays in hand until its own command is taken; one that fails check 1 or 2 is answered at once. A frame without
payload is malformed, also while the Management Unit is busy, and is then no busy drop (log entry 70). -/
def deliverFrame (f : Frame) (p : Part) : Part :=
  if ¬ within 1 f.payload.length Config.payloadLimit then { p with line.malformed := bump p.line.malformed }
  else if p.busy then { p with line.busyDrops := bump p.line.busyDrops }
  else
    let r := classOf f.src p
    if r.2.rank = 0 then reply f.src (payloadAt f 0) .notPermitted [] r.1
    else
      match parseRequest f with
      | none => reply f.src (payloadAt f 0) .badValue [] r.1
      | some i => { r.1 with mgmt.inHand := some { request := i, cls := r.2 } }

/-! ## The route table -/

/-- The stored route entry n. -/
def Part.route (p : Part) (n : Nat) : Checked RouteEntry := bankGet p.line.routes n (stored routeBytes none)

/-- R161: an entry is read for matching, with its check; one that fails raises CONTROL_CHECK once. -/
def readRoute (n : Nat) (p : Part) : Part × RouteEntry :=
  if p.line.failedRoutes.contains n then (p, none)
  else if checkHolds routeBytes (p.route n) then (p, (p.route n).val)
  else
    (raiseMajor .controlCheck (tableDetail .routes n)
      { p with line.failedRoutes := p.line.failedRoutes ++ [n] }, none)

/-- R162: an entry matches a frame. -/
def RouteMatch.fits (m : RouteMatch) (t : Port) (f : Frame) : Bool :=
  m.port = t && m.kind.all (fun k => k = f.kind) && m.dest.all (fun d => d = f.dest) && m.src.all (fun s => s = f.src)

/-- R162, case 3: the first entry that matches gives the action; without one the frame is forwarded. -/
def matchRoute (t : Port) (f : Frame) : List Nat → Part → Part × RouteAction
  | [], p => (p, .forward)
  | n :: more, p =>
    let r := readRoute n p
    match r.2 with
    | some m => if m.fits t f then (r.1, m.action) else matchRoute t f more r.1
    | none => matchRoute t f more r.1

/-- R161: a write of a route entry. -/
def writeRoute (n : Nat) (bs : List Byte) (p : Part) : Part × Code :=
  if 32 ≤ n then (p, .badIndex)
  else
    match parseRoute bs with
    | none => (p, .badValue)
    | some e =>
      ({ p with
        line.routes := bankPut p.line.routes n (stored routeBytes e)
        line.failedRoutes := p.line.failedRoutes.filter (fun k => k ≠ n) }, .ok)

/-! ## Actions -/

/-- R166: a frame is offered to PASS. -/
def offerPass (i : PassItem) (p : Part) : Part :=
  if p.line.passQ.length < Config.passPlaces then { p with line.passQ := p.line.passQ ++ [i] }
  else { p with line.passOverflow := bump p.line.passOverflow }

/-- R163: FORWARD. -/
def forwardFrame (t : Port) (f : Frame) (p : Part) : Part :=
  match t with
  | .console => offerPass (.plain f) p
  | .field => offerReport f p

/-- R163: DROP. -/
def dropFrame (t : Port) (p : Part) : Part :=
  p.putPort t { p.port t with routeDrops := bump (p.port t).routeDrops }

/-- R58, R59: a console frame that matches no fitted bell, or is a HAMMER_SET, is counted and dropped. -/
def unmatchedConsole (p : Part) : Part :=
  { p with bellGuard.unmatchedConsole := bump p.bellGuard.unmatchedConsole }

/-- R58: an admitted console strike is offered to PASS; without a place its charge is released. -/
def queueConsoleStrike (b id : Nat) (f : Frame) (p : Part) : Part :=
  if p.line.passQ.length < Config.passPlaces then
    offerPass (.strike { bell := b, charge := id, frame := f }) p
  else refuseStrike b (releaseCharge id (offerPass (.strike { bell := b, charge := id, frame := f }) p))

/-- R58: a console STRIKE under GUARD. R58 reads its force and origin whatever its LEN: a byte that the payload lacks
reads as 0 and bytes past the third are not read (log entry 52). -/
def consoleStrike (f : Frame) (p : Part) : Part :=
  match bellAt f.dest (payloadAt f 0) p with
  | none => unmatchedConsole p
  | some b =>
    if ¬ within 1 (payloadAt f 1) 7 ∨ payloadAt f 2 ≠ Origin.console.code then refuseStrike b p
    else
      let r := admitStrike b .console (restartConsoleIdle b p)
      match r.2.1 with
      | .admitted => queueConsoleStrike b r.2.2 f r.1
      | _ => r.1

/-- R163: GUARD. -/
def guardFrame (f : Frame) (p : Part) : Part :=
  if f.kind = kindStrike then consoleStrike f p else unmatchedConsole p

/-- R163: the action of a classified frame takes effect. -/
def routeFrame (t : Port) (f : Frame) (a : RouteAction) (p : Part) : Part :=
  match a with
  | .forward => forwardFrame t f p
  | .drop => dropFrame t p
  | .bellCheck => guardFrame f p
  | .tap => forwardFrame t f (deliverCopy t f p)
  | .toPart => deliverCopy t f p

/-- R162, case 4: a STRIKE or HAMMER_SET from the console port never passes without the Guard. -/
def guardedAction (t : Port) (f : Frame) (a : RouteAction) : RouteAction :=
  if t = .console ∧ (f.kind = kindStrike ∨ f.kind = kindHammerSet) ∧ a ≠ .drop then .bellCheck else a

/-- R162, R163: a frame that has passed R159 is classified and its action taken. -/
def classify (t : Port) (f : Frame) (p : Part) : Part :=
  if f.kind = kindRequest ∧ f.dest = p.mgmt.address then
    match t with
    | .console => deliverFrame f p
    | .field => { p with line.foreignRequests := bump p.line.foreignRequests }
  else
    let r := matchRoute t f (List.range 32) p
    if f.kind = kindRequest then
      match r.2 with
      | .tap => forwardFrame t f r.1
      | .toPart => r.1
      | a => routeFrame t f a r.1
    else routeFrame t f (guardedAction t f r.2) r.1

/-- R159: a reception has ended at a port. -/
def receive (t : Port) (bs : List Byte) (p : Part) : Part :=
  let j := judge bs
  let q := p.putPort t ((p.port t).judged j)
  match j with
  | .frame f => classify t f q
  | _ => q

/-! ## Freed LOCAL places -/

/-- R165: the oldest held strike of a voice enters the LOCAL queue. -/
def placeHeld (v : VoiceId) (h : HeldStrike) (rest : List HeldStrike) (p : Part) : Part :=
  let q := p.putVoice v { p.voice v with held := rest }
  { q with line.localQ := q.line.localQ ++ [LocalItem.strike h.strike] }

/-- R165: a LOCAL place has been freed; the first waiting offer takes it. -/
def giveLocalPlace (p : Part) : Part :=
  match p.clock.voice.held, p.tune.voice.held with
  | h :: rest, _ => placeHeld .clock h rest p
  | [], h :: rest => placeHeld .tune h rest p
  | [], [] =>
    match groupNumbers.find? (fun g => (p.group g).deferred) with
    | some g => offerLevel g p
    | none => p

/-! ## Takes -/

/-- R168: a PASS take empties the queue, or is transmitted: the LOCAL run returns to 0. -/
def passTaken (transmitted : Bool) (p : Part) : Part :=
  if transmitted ∨ p.line.passQ = [] then { p with line.localRun := 0 } else p

/-- R168: a transmitted LOCAL take while PASS holds a frame raises the LOCAL run. -/
def localTaken (p : Part) : Part :=
  if p.line.passQ = [] then p else { p with line.localRun := min (p.line.localRun + 1) Config.localRunLimit }

/-- R168: a take whose frame fails its check is counted. -/
def discardTake (p : Part) : Part := { p with line.discardedAtTake := bump p.line.discardedAtTake }

/-- R60, R136: a strike that passes its take check. -/
def strikeTaken (s : Strike) (p : Part) : Part :=
  let x := p.bell s.bell
  let q := p.putBell s.bell { x with lastTake := some p.osc, strikesSent := bump x.strikesSent }
  { q with
    line.fieldFlight := some (.strike s)
    budget.charges := q.budget.charges.map (fun c =>
      if c.ofStrike s.charge then { c with releaseAt := some (p.osc + msTicks x.config.recovery) } else c) }

/-- R60: a strike that fails its take check. -/
def strikeDiscarded (s : Strike) (p : Part) : Part :=
  let x := p.bell s.bell
  releaseCharge s.charge
    (discardTake (p.putBell s.bell { x with strikesDiscarded := bump x.strikesDiscarded }))

/-- R49, R164: a setting taken from SAFETY; the flag says that it is transmitted. A bell that stands WITHDRAWN as its
WITHDRAW passes is not examined by R51 here: DESIGN CHOICE, log entry 89. -/
def takeSetting (s : Setting) (p : Part) : Part × Bool :=
  let p := p.putBell s.bell { p.bell s.bell with wanted := none }
  if p.settingPasses s then ({ p with line.fieldFlight := some (.setting s) }, true)
  else
    let p := changeHammer s.bell (p.bell s.bell).stateBefore (discardTake p)
    (placeWanted (reengage s.bell p), false)

/-- R165, R168: a frame taken from LOCAL. -/
def takeLocal (i : LocalItem) (p : Part) : Part × Bool :=
  match i with
  | .strike s => if p.strikePasses s.bell then (localTaken (strikeTaken s p), true) else (strikeDiscarded s p, false)
  | .dialStep d f => (localTaken { p with line.fieldFlight := some (.dialStep d f) }, true)
  | .lampLevel g l f => (localTaken { p with line.fieldFlight := some (.lampLevel g l f) }, true)

/-- R127: the queued level of a group becomes its level in flight. -/
def levelTaken (i : LocalItem) (p : Part) : Part :=
  match i with
  | .lampLevel (some g) l _ => p.putGroup g { p.group g with queued := none, inFlight := some l }
  | _ => p

/-- R168: a frame taken from PASS. -/
def takePass (i : PassItem) (p : Part) : Part × Bool :=
  match i with
  | .plain f => (passTaken true { p with line.fieldFlight := some (.plain f) }, true)
  | .strike s =>
    if p.strikePasses s.bell then (passTaken true (strikeTaken s p), true)
    else (passTaken false (strikeDiscarded s p), false)

/-- R168: the queue that gives the next frame. -/
inductive ArbiterChoice where
  | safety (s : Setting) (rest : List Setting)
  | fromLocal (i : LocalItem) (rest : List LocalItem)
  | pass (i : PassItem) (rest : List PassItem)
  | nothing
  deriving DecidableEq, Repr

/-- R168: the arbiter's order. -/
def LineSwitch.choose (l : LineSwitch) : ArbiterChoice :=
  match l.safetyQ, l.localQ, l.passQ with
  | s :: rest, _, _ => .safety s rest
  | [], i :: more, j :: rest => if l.localRun = Config.localRunLimit then .pass j rest else .fromLocal i more
  | [], i :: more, [] => .fromLocal i more
  | [], [], j :: rest => .pass j rest
  | [], [], [] => .nothing

/-- R168: the arbiter takes frames until one is transmitted or none is left. -/
def arbitrate : Nat → Part → Part
  | 0, p => p
  | k + 1, p =>
    let r : Part × Bool :=
      match p.line.choose with
      | .nothing => (p, true)
      | .safety s rest => takeSetting s { p with line.safetyQ := rest }
      | .fromLocal i rest => takeLocal i (giveLocalPlace (levelTaken i { p with line.localQ := rest }))
      | .pass i rest => takePass i { p with line.passQ := rest }
    if r.2 then r.1 else arbitrate k r.1

/-- R168: the field arbiter takes, if no frame is in flight. -/
def arbiterTakes (p : Part) : Part :=
  if p.line.fieldFlight.isSome then p else arbitrate Config.stepBound p

/-! ## Completions -/

/-- R169: the transmission on the field port completes. -/
def fieldCompletes (p : Part) : Part :=
  { p with
    line.fieldFlight := none
    line.fieldPort := { p.line.fieldPort with transmitted := bump p.line.fieldPort.transmitted } }

/-- R49, R164: a HAMMER_SET completes: the hammer timer starts if the hammer still waits for its report, and
the freed place is given to the Guard. -/
def settingCompletes (s : Setting) (p : Part) : Part :=
  let x := p.bell s.bell
  let p := if x.hammer = s.action.underWay then
      p.putBell s.bell { x with hammerTimer := some (p.osc + Config.hammerTicks) } else p
  placeWanted p

/-- R128: a LAMP_LEVEL completes. -/
def levelCompletes (g : Option Nat) (level : Nat) (p : Part) : Part :=
  match g with
  | none => p
  | some g =>
    let x := p.group g
    p.putGroup g { x with inFlight := none, sent := some level, levelsSent := bump x.levelsSent }

/-- R170: the transmission on the console port completes. -/
def consoleCompletes (p : Part) : Part :=
  { p with
    line.consoleFlight := none
    line.consolePort := { p.line.consolePort with transmitted := bump p.line.consolePort.transmitted } }

/-- R167: a waiting reply enters UP at the place first freed. -/
def placeReply (p : Part) : Part :=
  match p.mgmt.replyWaiting with
  | some item => offerReply item p
  | none => p

/-- R170: the console transmitter takes the front of UP, if no frame is in flight. -/
def consoleTakes (p : Part) : Part :=
  if p.line.consoleFlight.isSome then p
  else
    match p.line.upQ with
    | [] => p
    | i :: rest => placeReply { p with line.upQ := rest, line.consoleFlight := some i }

end Sys2Proof.Machine
end

