-- ==== Sys2Proof/Machine/BellCommands.lean ====
section
/-! DEFINITION. The commands of the Bell Guard (Part 3) and the Session Controller (Part 4). -/

namespace Sys2Proof.Machine

/-- BELL_STATE (R44). -/
def execBellState (src b : Nat) (pos : ReportedPosition) (s : State) : Host.Outcome State Fault Refusal :=
  act (powered (fun p =>
    takeBellState src b pos (p.arrivalOf (.bellState src b pos)) (takeCopy (.bellState src b pos) p))) s

/-- SETTLE_TIME_REACHED (R45). -/
def execSettleTimeReached (b : Nat) (s : State) : Host.Outcome State Fault Refusal :=
  act (powered (fun p => if p.settleDue b then bellSettles b p else p)) s

/-- SENSOR_TIMEOUT (R47). -/
def execSensorTimeout (b : Nat) (s : State) : Host.Outcome State Fault Refusal :=
  act (powered (fun p => if p.sensorDue b then sensorExpires b p else p)) s

/-- HAMMER_REPORT (R50). -/
def execHammerReport (src channel : Nat) (a : HammerAnswer) (s : State) : Host.Outcome State Fault Refusal :=
  act (powered (fun p => takeHammerReport src channel a (takeCopy (.hammerReport src channel a) p))) s

/-- R50: the hammer timer of bell b has run out. -/
def Part.hammerDue (p : Part) (b : Nat) : Bool := (p.bell b).hammerTimer.any (fun t => t ≤ p.osc)

/-- HAMMER_TIMEOUT (R50). -/
def execHammerTimeout (b : Nat) (s : State) : Host.Outcome State Fault Refusal :=
  act (powered (fun p => if p.hammerDue b then hammerExpires b p else p)) s

/-- CLAIM_BELLS (R55). -/
def execClaimBells (src : Nat) (bells : List Nat) (s : State) : Host.Outcome State Fault Refusal :=
  act (serveSimple (.claimBells src bells) src .console (claimBells src bells)) s

/-- RELEASE_BELLS (R55). -/
def execReleaseBells (src : Nat) (bells : List Nat) (s : State) : Host.Outcome State Fault Refusal :=
  act (serveSimple (.releaseBells src bells) src .console (releaseBells bells)) s

/-- R56: the console idle timer of bell b has run out. -/
def Part.consoleIdleDue (p : Part) (b : Nat) : Bool := (p.bell b).consoleIdle.any (fun t => t ≤ p.osc)

/-- CONSOLE_IDLE_TIMEOUT (R56). -/
def execConsoleIdleTimeout (b : Nat) (s : State) : Host.Outcome State Fault Refusal :=
  act (powered (fun p => if p.consoleIdleDue b then releaseConsole p b else p)) s

/-- R49: the HAMMER_SET in flight completes. -/
def settingCompletionPart (p : Part) : Part :=
  match p.line.fieldFlight with
  | some (.setting t) => settingCompletes t (fieldCompletes p)
  | _ => p

/-- HAMMER_SET_COMPLETION (R49). -/
def execHammerSetCompletion (s : State) : Host.Outcome State Fault Refusal := act (powered settingCompletionPart) s

/-- R64: the work of a RING_REQUEST; the reply goes before the notices. -/
def ringWork (src : Nat) (bells : List Nat) (cls : SourceClass) (p : Part) : Part :=
  let answer (c : Code) (p : Part) : Part := reply src (operationOf (.ringRequest src bells)) c [] p
  if !cls.atLeast .console then answer .notPermitted p
  else
    match ringRefusal bells p with
    | some c => answer c p
    | none =>
      let q := answer .ok (beginSession bells src p)
      enterSessionClaims
        (sessionNotice .idle .preparing q.session.set q.session.requester .request q)

/-- RING_REQUEST (R64). -/
def execRingRequest (src : Nat) (bells : List Nat) (s : State) : Host.Outcome State Fault Refusal :=
  act (serve (.ringRequest src bells) src (ringWork src bells)) s

/-- R71, R72, R74: the work of a RING_RELEASE; the reply goes before the notices. -/
def ringReleaseWork (src : Nat) (cls : SourceClass) (p : Part) : Part :=
  let answer (c : Code) (p : Part) : Part := reply src (operationOf (.ringRelease src)) c [] p
  if !cls.atLeast .console then answer .notPermitted p
  else
    match p.session.state with
    | .idle | .closing => answer .wrongState p
    | .preparing | .opened =>
      let q := answer .ok (closeSession p)
      completeSession (sessionNotice p.session.state .closing q.session.set q.session.requester .release q)

/-- RING_RELEASE (R71). -/
def execRingRelease (src : Nat) (s : State) : Host.Outcome State Fault Refusal :=
  act (serve (.ringRelease src) src (ringReleaseWork src)) s

end Sys2Proof.Machine
end

