-- ==== Sys2Proof/Machine/Lamps.lean ====
section
/-! DEFINITION. The Lamp Controller: writes of groups (R118) and scenes (R121), scenes applied (R122), the
lamp update (R123), lamp reports (R129, R130); and the Feed Budget's own events: the limit write (R133), the
stage (R134, R143), the release of a taken strike (R136) and the restore timer (R142). -/

namespace Sys2Proof.Machine

/-! ## Scenes -/

/-- R121: a scene is read; `none` is CHECK_FAIL. -/
def readScene (n : Nat) (p : Part) : Part × Option Scene :=
  let r := bankGet p.lamps.scenes n (stored sceneBytes (Scene.cold n))
  if checkHolds sceneBytes r then (p, some r.val)
  else
    (raiseMinor .tableCheck (tableDetail .scenes n)
      { p with lamps.sceneFailures := bump p.lamps.sceneFailures }, none)

/-- R121: a write of a scene. -/
def writeScene (n : Nat) (bs : List Byte) (p : Part) : Part × Code :=
  if 16 ≤ n then (p, .badIndex)
  else
    match parseScene bs with
    | none => (p, .badValue)
    | some s => ({ p with lamps.scenes := bankPut p.lamps.scenes n (stored sceneBytes s) }, .ok)

/-- R122: the fade of a group restarts toward a target. -/
def restartFade (target fadeTime : Nat) (x : LampGroup) : LampGroup :=
  { x with target := target, fadeStart := x.commanded, fadeLength := fadeTime, elapsed := 0 }

/-- R122: a configured group that is neither in FAULT nor clamped follows its restarted fade at once. One that has just
lost its clamp by R126 is not clamped here, so a fade of 0 has it ask for a target above its level (log entry 60). -/
def followRestart (g : Nat) (p : Part) : Part :=
  let x := p.group g
  if !x.configured ∨ x.failure.isSome then p
  else if x.clamp.isSome then examine p
  else if x.fadeLength = 0 then
    if x.commanded < x.limitedTarget then lampAsk g x.limitedTarget p
    else if x.limitedTarget < x.commanded then lampFall g x.limitedTarget p
    else p
  else if x.limitedTarget = x.commanded then p.putGroup g { x with elapsed := x.fadeLength }
  else p

/-- R122: one group of an applied scene. -/
def sceneGroup (s : Scene) (p : Part) (g : Nat) : Part :=
  match bankGet1 s.targets g none with
  | none => p
  | some t => followRestart g (dropClamp g (p.putGroup g (restartFade t s.fadeTime (p.group g))))

/-- R122: APPLY_SCENE, from a request or an action. The groups are taken in group-number order, each with all that
follows its restart before the next (log entry 59). -/
def applyScene (n : Nat) (p : Part) : Part × Code :=
  if p.mgmt.partState = .safe then (p, .safeState)
  else if 16 ≤ n then (p, .badIndex)
  else
    let r := readScene n p
    match r.2 with
    | none => (r.1, .checkFail)
    | some s => (groupNumbers.foldl (sceneGroup s) r.1, .ok)

/-! ## The lamp update -/

/-- R123: the fade of a group in progress advances. -/
def advanceFade (x : LampGroup) : LampGroup := { x with elapsed := x.elapsed + 1 }

/-- R123: the group compares its fade level with its commanded level. -/
def compareLevel (g : Nat) (p : Part) : Part :=
  let x := p.group g
  if x.fadeLevel < x.commanded then lampFall g x.fadeLevel p
  else if x.commanded < x.fadeLevel ∧ x.clamp.isNone then lampAsk g x.fadeLevel p
  else p

/-- R123, R126, R127: one group at a lamp update. The clamp of R126's first way goes before the fade advances, and the
group then compares its level as one that is not clamped (log entry 60). R127's comparison of the commanded level with
the sent one comes last, beside the offer that a change by the fade step made (log entry 67). -/
def updateGroup (p : Part) (g : Nat) : Part :=
  let p := dropClamp g p
  let x := p.group g
  if !x.configured then p
  else
    let p :=
      if x.failure.isNone ∧ p.mgmt.partState = .running then
        if x.complete then
          if x.clamp.isNone ∧ x.commanded < x.fadeLevel then lampAsk g x.fadeLevel p else p
        else compareLevel g (p.putGroup g (advanceFade x))
      else p
    let p := offerLevel g p
    if (p.group g).state = .clamped then examine p else p

/-- R116, R123: the lamp update. -/
def lampUpdate (p : Part) : Part :=
  groupNumbers.foldl updateGroup { p with lamps.nextUpdate := p.lamps.nextUpdate + Config.lampBeat }

/-! ## Lamp reports -/

/-- R129: the configured group of a dimmer node and channel. -/
def groupAt (node channel : Nat) (p : Part) : Option Nat :=
  groupNumbers.find? (fun g => (p.group g).config.node = some node && (p.group g).config.channel = channel)

/-- R129: a failure takes the group to FAULT. The level is offered, then the release is followed up, then the fault is
raised (log entry 61). -/
def failGroup (g : Nat) (st : LampStatus) (p : Part) : Part :=
  let x := p.group g
  let held := p.budget.groupCharge g
  let p := offerLevel g
    (setGroupCharge g 0
      (p.putGroup g { x with failure := some st, failures := bump x.failures, commanded := 0, clamp := none }))
  raiseMinor .lampFail [byte g, byte (lampStatusCode st)] (if 0 < held then afterRelease p else examine p)

/-- R129, R130: a lamp report of a matched group. -/
def groupReported (g : Nat) (st : LampStatus) (p : Part) : Part :=
  let x := p.group g
  match st with
  | .ok =>
    if x.failure.isSome then p.putGroup g { x with failure := none, fadeStart := 0, elapsed := 0 } else p
  | .lampFail | .driverFail =>
    if x.failure.isSome then p.putGroup g { x with failure := some st } else failGroup g st p

/-! ## Writing a group record -/

/-- R118, step 1: the old channel is taken dark and the charge is released. -/
def darkenOld (g : Nat) (p : Part) : Part :=
  let x := p.group g
  if x.configured ∧ 0 < x.commanded then
    let held := p.budget.groupCharge g
    let p := setGroupCharge g 0 (offerLevel g (p.putGroup g { x with commanded := 0 }))
    if 0 < held then afterRelease p else p
  else p

/-- R118, steps 2 to 4: the group record after an accepted write; its counts are kept (log entry 58). -/
def LampGroup.rewritten (x : LampGroup) (c : LampConfig) : LampGroup :=
  let y := { x with config := c, commanded := 0, clamp := none, failure := none, queued := none, inFlight := none,
                    sent := none, deferred := false }
  if c.node.isSome then { y with fadeStart := 0, elapsed := 0 } else y

/-- R118: an accepted write of group record g. -/
def groupWritten (g : Nat) (c : LampConfig) (p : Part) : Part :=
  let p := darkenOld g p
  let p := p.putGroup g ((p.group g).rewritten c)
  examine { p with
    line.localQ := p.line.localQ.map (LocalItem.detach g)
    line.fieldFlight := p.line.fieldFlight.map (FieldFlight.detach g) }

/-- R118: a write of group record g. -/
def writeGroup (g : Nat) (bs : List Byte) (p : Part) : Part × Code :=
  if ¬ within 1 g 12 then (p, .badIndex)
  else
    match parseLampConfig bs with
    | none => (p, .badValue)
    | some c =>
      if c.node.isSome ∧ groupNumbers.any (fun h =>
          h ≠ g && (p.group h).config.node = c.node && (p.group h).config.channel = c.channel) then (p, .duplicate)
      else (groupWritten g c p, .ok)

/-! ## The Feed Budget's events -/

/-- R142: the restore timer has run for the restore delay. -/
def Part.restoreDue (p : Part) : Bool :=
  match p.budget.restore with
  | some t => t.start + secTicks p.budget.limits.restoreDelay ≤ p.osc
  | none => false

/-- R142: the restore timer expires and the candidate is restored. -/
def restoreExpires (p : Part) : Part :=
  match p.budget.restore with
  | none => p
  | some t =>
    examine (restoreGroup t.group
      { p with budget.restore := none, budget.restorations := bump p.budget.restorations })

/-- R138, R141, R143: the excess of the committed load over the limit is reclaimed from lamps. What has been released is
followed up; an excess that no lamp charge can meet releases nothing, and the waiting dials are not re-offered. -/
def reclaimExcess (p : Part) : Part :=
  let q := reclaim (p.budget.committed - p.budget.limit) p
  if q.budget.committed < p.budget.committed then afterRelease q else q

/-- R133: an accepted write of the limit table: the change of limit and what it reclaims or re-offers, then the timer
that a shortened delay has run out, then the examination of R142. Where lamps are reclaimed, the examination after their
release comes ahead of the expiry too, and may stop the timer (log entry 68). -/
def limitsWritten (t : LimitTable) (p : Part) : Part :=
  let q := { p with budget.limits := t }
  let q := reclaimExcess q
  let q := if p.budget.limit < q.budget.limit then reoffer 5 q else q
  let q := if t.restoreDelay ≠ p.budget.limits.restoreDelay ∧ q.restoreDue then restoreExpires q else q
  examine q

/-- R133: a write of the limit table. A record number other than 0 is outside the table (log entry 66). A limit of the
present stage below the committed load is refused whether or not the write changes it (log entry 76). -/
def writeLimits (n : Nat) (bs : List Byte) (p : Part) : Part × Code :=
  if n ≠ 0 then (p, .badIndex)
  else
    match parseLimits bs with
    | none => (p, .badValue)
    | some t =>
      let new := FeedBudget.limit { p.budget with limits := t }
      if new < p.budget.committed ∧ new < p.budget.committed - p.budget.lampCharges then (p, .inUse)
      else (limitsWritten t p, .ok)

/-- R134: the detail of a FEED_STAGE notice: old stage, new stage, committed load. -/
def feedDetail (old new : Stage) (p : Part) : List Byte :=
  [byte (stageCode old), byte (stageCode new)] ++ be 3 p.budget.committed

/-- R134, R143: an accepted report names another stage. At a fall the candidate is examined after the reclaim alone, not
at the fall of the limit itself: DESIGN CHOICE, log entry 94. -/
def stageChanged (new : Stage) (p : Part) : Part :=
  let old := p.budget.stage
  let q := { p with budget.stage := new, budget.stageChanges := bump p.budget.stageChanges }
  let q := if stageCode old < stageCode new then examine (reclaimExcess q) else examine (reoffer 5 q)
  let q := if new = .low then raiseMinor .feedLow [byte (stageCode old)] q else q
  emitCue (.feedStage new) (sendNotice .feedStage (feedDetail old new q) q)

/-- R133, R134: a FEED_STATE report, with the monitor node in force when it was received. -/
def feedReported (monitor : Option Nat) (src : Nat) (stage : Stage) (p : Part) : Part :=
  if monitor.any (fun m => m ≠ src) then
    { p with budget.ignoredReports := bump p.budget.ignoredReports }
  else if stage = p.budget.stage then p
  else stageChanged stage p

/-- R136: the first charge whose release instant has been reached is released. -/
def releaseTaken (p : Part) : Part :=
  match p.budget.charges.find? (fun c => c.releaseAt.any (fun t => t ≤ p.osc)) with
  | some c => releaseCharge c.id p
  | none => p

end Sys2Proof.Machine
end

