-- ==== Sys2Proof/Machine/Store.lean ====
section
/-! DEFINITION. The Tune Store (Part 5): reads with their record checks (R86 to R89) and the writes of its
three tables (R79, R81, R83, R84). -/

namespace Sys2Proof.Machine

/-- R86: a read has found a record that fails its check. -/
def storeFailure (t : Table) (n : Nat) (p : Part) : Part :=
  raiseMinor .tableCheck (tableDetail t n) { p with store.checkFailures := bump p.store.checkFailures }

/-- R80, R87: a directory entry is read; `none` is CHECK_FAIL, which leaves the entry EMPTY. -/
def readDirectory (n : Nat) (p : Part) : Part × Option DirEntry :=
  let r := bankGet p.store.directory n (stored dirBytes DirEntry.empty)
  match r.val with
  | .empty => (p, some .empty)
  | .valid e =>
    if checkHolds dirBytes r then (p, some (.valid e))
    else
      (storeFailure .directory n
        { p with store.directory := bankPut p.store.directory n (stored dirBytes DirEntry.empty) }, none)

/-- R80, R87: a voice's read of a directory entry: EMPTY, or found EMPTY by a failed check, is `none`. -/
def readTune (n : Nat) (p : Part) : Part × Option TuneEntry :=
  let r := readDirectory n p
  (r.1, match r.2 with
    | some (.valid e) => some e
    | _ => none)

/-- R82, R88: a step is read; `none` is CHECK_FAIL. -/
def readStep (n : Nat) (p : Part) : Part × Option TuneStep :=
  let r := bankGet p.store.steps n (stored stepContents TuneStep.endStep)
  if checkHolds stepContents r then (p, some r.val) else (storeFailure .steps n p, none)

/-- R89: a chime set is read; `none` is CHECK_FAIL. -/
def readChimeSet (n : Nat) (p : Part) : Part × Option ChimeSet :=
  let r := bankGet p.store.chimes n (stored chimeBytes (ChimeSet.cold n))
  if checkHolds chimeBytes r then (p, some r.val) else (storeFailure .chimes n p, none)

/-- TABLE 6-2: the cached extent of a frame covers a step index. -/
def PhraseFrame.covers (f : PhraseFrame) (index : Nat) : Bool := f.start ≤ index && index < f.start + f.length

/-- R84: a step index lies in the cached extent of a VALID frame of either voice. -/
def Part.guarded (p : Part) (index : Nat) : Bool :=
  (p.clock.voice.stack ++ p.tune.voice.stack).any (fun f => f.covers index)

/-- R79: a write of a directory entry. -/
def writeDirectory (n : Nat) (bs : List Byte) (p : Part) : Part × Code :=
  if 96 ≤ n then (p, .badIndex)
  else
    match parseDir bs with
    | none => (p, .badValue)
    | some e => ({ p with store.directory := bankPut p.store.directory n (stored dirBytes e) }, .ok)

/-- R81, R84: a write of a step. -/
def writeStep (n : Nat) (bs : List Byte) (p : Part) : Part × Code :=
  if 2048 ≤ n then (p, .badIndex)
  else
    match parseStep bs with
    | none => (p, .badValue)
    | some s =>
      if p.guarded n then ({ p with store.inUseRefusals := bump p.store.inUseRefusals }, .inUse)
      else ({ p with store.steps := bankPut p.store.steps n (stored stepContents s) }, .ok)

/-- R83: a write of a chime set. -/
def writeChimeSet (n : Nat) (bs : List Byte) (p : Part) : Part × Code :=
  if 4 ≤ n then (p, .badIndex)
  else
    match parseChime bs with
    | none => (p, .badValue)
    | some c => ({ p with store.chimes := bankPut p.store.chimes n (stored chimeBytes c) }, .ok)

end Sys2Proof.Machine
end

