-- ==== Sys2Proof/Machine/VoicePlay.lean ====
section
/-! DEFINITION. How the voices play: due instants (R95, R96), steps (R97 to R101), notes (R102), the
quarters and hour blows of the clock voice (R105 to R108), and the tunes of the tune voice (R111, R112). -/

namespace Sys2Proof.Machine

/-! ## Tempo -/

/-- R95: the pulse length of a tempo in µs, rounded to the nearest with halves up. -/
def pulseLength (tempo : Nat) : Nat := (15000000 + tempo) / (2 * tempo)

/-- R96: the tick at which the step due after `pulses` pulses is taken. -/
def dueTick (start pulse pulses : Nat) : Nat := start + (pulses * pulse * 1024 + 999999) / 1000000

/-- R96: the next due instant of a voice. -/
def Voice.due (x : Voice) : Option Nat :=
  match x.start, x.pulse with
  | some s, some l => some (dueTick s l x.pulses)
  | _, _ => none

/-- R97: a voice begins a tune at the present instant. -/
def Voice.begin (x : Voice) (tune : Nat) (e : TuneEntry) (repeats now : Nat) : Voice :=
  { x with
    start := some now, tempo := some e.tempo, pulse := some (pulseLength e.tempo), pulses := 0,
    declared := some e.bells,
    stack := [{ tune := tune, start := e.start, length := e.length, cursor := 0, repeats := repeats }] }

/-! ## Strikes -/

/-- TABLE 10-2: the origin of a voice's strikes. -/
def originOf : VoiceId → Origin
  | .clock => .clock
  | .tune => .tune

/-- R102: the count that an answer raises. -/
def VoiceCounts.answered (c : VoiceCounts) : Answer → VoiceCounts
  | .admitted => { c with admitted := bump c.admitted }
  | .notOwner => { c with notOwner := bump c.notOwner }
  | .notPermitted => { c with notPermitted := bump c.notPermitted }
  | .position | .hammer | .recovery | .safe => { c with refused := bump c.refused }
  | .budgetSkip => { c with budgetSkip := bump c.budgetSkip }

/-- R102: a voice asks the Guard for a strike, counts the answer and places an admitted strike. -/
def voiceStrike (v : VoiceId) (force deadline : Nat) (p : Part) (b : Nat) : Part :=
  let r := admitStrike b (originOf v) p
  let x := r.1.voice v
  let q := r.1.putVoice v { x with counts := x.counts.answered r.2.1 }
  match r.2.1 with
  | .admitted =>
    placeStrike v
      { bell := b, charge := r.2.2, frame := strikeFrame (p.bell b).config force (originOf v) p.mgmt.address }
      deadline q
  | _ => q

/-- R102: one bell of a note. -/
def noteBell (v : VoiceId) (force deadline : Nat) (p : Part) (b : Nat) : Part :=
  let x := p.voice v
  if (x.declared.getD []).contains b then voiceStrike v force deadline p b
  else p.putVoice v { x with counts := { x.counts with undeclared := bump x.counts.undeclared } }

/-- R98, R102: a NOTE is dispatched, its duration already added to the pulses elapsed. -/
def playNote (v : VoiceId) (bells : List Nat) (force : Nat) (p : Part) : Part :=
  bells.foldl (noteBell v force (((p.voice v).due).getD p.osc)) p

/-! ## Steps -/

/-- R98: how the taking of steps at one due instant ends. -/
inductive StepsEnd where
  | waits | ended | abandoned
  deriving DecidableEq, Repr

/-- The voice with its phrase stack replaced. -/
def setStack (v : VoiceId) (stack : List PhraseFrame) (p : Part) : Part :=
  p.putVoice v { p.voice v with stack := stack }

/-- R96: a duration is added to the pulses elapsed. -/
def addPulses (v : VoiceId) (n : Nat) (p : Part) : Part :=
  p.putVoice v { p.voice v with pulses := (p.voice v).pulses + n }

/-- The voice's number in TABLE 11-5, table 14. -/
def voiceNumber : VoiceId → Nat
  | .clock => 0
  | .tune => 1

/-- R101: the frames are cleared, held strikes dropped and the abandonment counted. -/
def abandonTune (v : VoiceId) (p : Part) : Part :=
  let p := dropHeld v (setStack v [] p)
  let x := p.voice v
  p.putVoice v { x with counts := { x.counts with abandoned := bump x.counts.abandoned } }

/-- R100: the stack after its top frame has reached the end of its extent. -/
def frameEnd (f : PhraseFrame) (rest : List PhraseFrame) : List PhraseFrame :=
  if 1 < f.repeats then { f with cursor := 0, repeats := f.repeats - 1 } :: rest else rest

/-- R99: the stack with a frame pushed for a called entry. -/
def pushFrame (tune : Nat) (e : TuneEntry) (repeats : Nat) (stack : List PhraseFrame) : List PhraseFrame :=
  { tune := tune, start := e.start, length := e.length, cursor := 0, repeats := repeats } :: stack

/-- R99: a CALL skipped because its entry is EMPTY. -/
def skipCall (v : VoiceId) (p : Part) : Part :=
  p.putVoice v
    { p.voice v with counts := { (p.voice v).counts with callSkipped := bump (p.voice v).counts.callSkipped } }

/-- R98: steps are taken from the top frame until a NOTE, a REST or the tune's end (log entry 32). -/
def takeSteps : Nat → VoiceId → Part → Part × StepsEnd
  | 0, _, p => (p, .waits)
  | k + 1, v, p =>
    match (p.voice v).stack with
    | [] => (p, .ended)
    | f :: rest =>
      if f.length ≤ f.cursor then takeSteps k v (setStack v (frameEnd f rest) p)
      else
        let r := readStep (f.start + f.cursor) p
        let q := setStack v ({ f with cursor := f.cursor + 1 } :: rest) r.1
        match r.2 with
        | none => (abandonTune v r.1, .abandoned)
        | some (.note bells force duration) => (playNote v bells force (addPulses v duration q), .waits)
        | some (.rest duration) => (addPulses v duration q, .waits)
        | some .endStep => takeSteps k v (setStack v (frameEnd f rest) r.1)
        | some (.call tune repeats) =>
          let c := readTune tune q
          match c.2 with
          | none => takeSteps k v (skipCall v c.1)
          | some e =>
            if (c.1.voice v).stack.length < Config.stackFrames then
              takeSteps k v (setStack v (pushFrame tune e repeats (c.1.voice v).stack) c.1)
            else
              (raiseMinor .tuneDepth [byte (voiceNumber v), byte tune] (abandonTune v c.1), .abandoned)

/-! ## The clock voice -/

/-- R107: the blows of civil hour h. -/
def blowsOf (h : Nat) : Nat := if h % 12 = 0 then 12 else h % 12

/-- R107: the clock voice enters PAUSING. -/
def enterPausing (p : Part) : Part :=
  { p with
    clock.state := .pausing
    clock.blows := some (blowsOf ((p.clock.quarter.map Prod.snd).getD 0))
    clock.nextBlow := some (p.osc + msTicks ((p.clock.cachedSet.map ChimeSet.pause).getD 0)) }

/-- R107: the quarter tune has ended or been abandoned. Where an hour strike follows, the CLOCK claims stay until the
quarter ends (R109), after an abandonment too (log entry 75). -/
def chimeEnded (p : Part) : Part :=
  let p := dropHeld .clock (setStack .clock [] p)
  if p.clock.strikeFollows then enterPausing p else endQuarter p

/-- R98, R107, R113: a voice takes the steps of its due instant. -/
def playVoice (v : VoiceId) (p : Part) : Part :=
  let r := takeSteps Config.stepBound v p
  match r.2, v with
  | .waits, _ => r.1
  | .ended, .clock => chimeEnded r.1
  | .abandoned, .clock => chimeEnded r.1
  | .ended, .tune => endTune .ended r.1
  | .abandoned, .tune => endTune .abandoned r.1

/-- TABLE 5-4: the quarter tune of quarter q. -/
def ChimeSet.quarterTune (c : ChimeSet) (q : Nat) : Nat :=
  if q = 1 then c.first else if q = 2 then c.second else if q = 3 then c.third else c.fourth

/-- The hour bells of a chime set (R106). -/
def ChimeSet.hourBells (c : ChimeSet) : List Nat := c.hourBell :: c.altBell.toList

/-- R106: the quarter sounds: claims, and the chime or the pause. -/
def sound (q h : Nat) (c : ChimeSet) (chime : Option TuneEntry) (strike : Bool) (p : Part) : Part :=
  let bells := canonical 1 16
    ((match chime with
      | some e => e.bells
      | none => []) ++ (if strike then c.hourBells else []))
  let p := enterClaims .clock bells
    { p with
      clock.sounded := bump p.clock.sounded
      clock.quarter := some (q, h)
      clock.strikeFollows := strike
      clock.voice := { p.clock.voice with claimed := bells } }
  match chime with
  | some e =>
    playVoice .clock
      { p with
        clock.state := .chiming
        clock.voice := p.clock.voice.begin (c.quarterTune q) e 1 p.osc }
  | none => enterPausing p

/-- R106: what the quarter sounds is decided from the cached set and the quiet counts. While the CHIMES quiet count is
above 0 the quarter tune entry is not read (log entry 57). -/
def decideQuarter (q h : Nat) (c : ChimeSet) (p : Part) : Part :=
  let r := if p.cal.quietChimes = 0 then readTune (c.quarterTune q) p else (p, none)
  let strike := decide (q = 4 ∧ p.cal.quietStrike = 0)
  if r.2.isNone ∧ ¬ strike then { r.1 with clock.quiet := bump r.1.clock.quiet }
  else sound q h c r.2 strike r.1

/-- R106: the active chime set is copied; a failed read keeps the earlier copy. -/
def copyChimeSet (p : Part) : Part :=
  let r := readChimeSet p.cal.config.selector p
  match r.2 with
  | some c => { r.1 with clock.cachedSet := some c }
  | none => { r.1 with clock.setFailures := bump r.1.clock.setFailures }

/-- R105: the clock voice takes QUARTER(q, h, late); it treats a late quarter as any other. -/
def takeQuarter (q h : Nat) (_late : Bool) (p : Part) : Part :=
  if p.clock.omitNext then { p with clock.omitNext := false, clock.omitted := bump p.clock.omitted }
  else if p.clock.state ≠ .idle then { p with clock.overrun := bump p.clock.overrun }
  else if p.mgmt.partState = .safe then { p with clock.safeQuarters := bump p.clock.safeQuarters }
  else
    let p := copyChimeSet p
    match p.clock.cachedSet with
    | none => { p with clock.quiet := bump p.clock.quiet }
    | some c => decideQuarter q h c p

/-- R108: the bell that the next blow goes to. -/
def blowBell (c : ChimeSet) (p : Part) : Option Nat :=
  c.hourBells.find? (fun b => p.owner b = some .clock)

/-- R108: one blow at the next blow instant `t`, or the end of the strike. -/
def blow (t : Nat) (c : ChimeSet) (p : Part) : Part :=
  if p.clock.blows.getD 0 = 0 then endQuarter p
  else
    let next := t + msTicks c.blowInterval
    let p := { p with clock.state := .striking }
    let p :=
      match blowBell c p with
      | some b => voiceStrike .clock c.blowForce next p b
      | none => { p with clock.withheld := bump p.clock.withheld }
    { p with clock.blows := p.clock.blows.map (· - 1), clock.nextBlow := some next }

/-! ## The tune voice -/

/-- R111: START_TUNE, from a request or an action. In check 4 the ranges come ahead of the read of the entry, which an
operand out of range leaves unread (DESIGN CHOICE, log entry 85). -/
def startTune (tune repeats : Nat) (p : Part) : Part × Code :=
  let refuse (c : Code) (p : Part) : Part × Code :=
    ({ p with tune.startsRefused := bump p.tune.startsRefused }, c)
  if p.mgmt.partState = .safe then refuse .safeState p
  else if p.tune.state ≠ .idle then refuse .busy p
  else if 0 < p.cal.quietTunes then refuse .wrongState p
  else if ¬ (tune ≤ 95 ∧ within 1 repeats 8) then refuse .badValue p
  else
    let r := readTune tune p
    match r.2 with
    | some e =>
      if e.kind = .tune then
        let q := enterClaims .tune e.bells r.1
        (playVoice .tune
          { q with
            tune.state := .playing
            tune.starts := bump q.tune.starts
            tune.inHand := some (tune, repeats)
            tune.voice := { q.tune.voice.begin tune e repeats q.osc with claimed := e.bells } }, .ok)
      else refuse .badValue r.1
    | none => refuse .badValue r.1

/-- R112: STOP_TUNE, from a request or an action. -/
def stopTune (p : Part) : Part × Code :=
  match p.tune.state with
  | .playing => ({ p with tune.state := .stopping }, .ok)
  | .stopping => (p, .ok)
  | .idle => (p, .wrongState)

/-- R112, R98: the tune voice at its due instant. -/
def tuneDue (p : Part) : Part :=
  match p.tune.state with
  | .playing => playVoice .tune p
  | .stopping => endTune .stopped { p with tune.stopped := bump p.tune.stopped }
  | .idle => p

end Sys2Proof.Machine
end

