-- ==== Sys2Proof/Machine/Calendar.lean ====
section
/-! DEFINITION. The Calendar: record checks (R157), today's class set (R146), sun instants (R147), fire
instants and the offset history (R149), the due list (R150, R151), firing (R152, R153), actions (R154, R158),
cue links (R156) and the writes of its tables. -/

namespace Sys2Proof.Machine

/-! ## Record checks -/

/-- The table of TABLE 11-5 that holds a Calendar record. -/
def CalTable.table : CalTable → Table
  | .dayClass => .dayClasses
  | .sun => .sun
  | .schedule => .schedule
  | .links => .links


/-- The stored records of the four tables. -/
def Part.dayClassRecord (p : Part) (n : Nat) : Checked (Option DayClass) :=
  bankGet p.cal.dayClasses n (stored dayClassBytes none)
def Part.sunRecord (p : Part) (n : Nat) : Checked (Option SunTimes) := bankGet p.cal.sun n (stored sunBytes none)
def Part.entry (p : Part) (n : Nat) : ScheduleEntry :=
  bankGet p.cal.schedule n
    { config := stored scheduleBytes ScheduleConfig.cold, state := .disabled, decided := none }
def Part.link (p : Part) (n : Nat) : CueLink :=
  bankGet p.cal.links n { config := stored linkBytes LinkConfig.cold, refusals := 0 }
def Part.putEntry (p : Part) (n : Nat) (e : ScheduleEntry) : Part :=
  { p with cal.schedule := bankPut p.cal.schedule n e }
def Part.putLink (p : Part) (n : Nat) (l : CueLink) : Part := { p with cal.links := bankPut p.cal.links n l }

/-- R150: an item leaves the due list. -/
def dropDue (k : DueKind) (p : Part) : Part :=
  { p with cal.dueList := p.cal.dueList.filter (fun x => x.kind ≠ k) }

/-- R157: what a record in the failed-record set stands for: a schedule entry is DISABLED, and leaves the due list. -/
def calDisabled (t : CalTable) (n : Nat) (p : Part) : Part :=
  match t with
  | .schedule => dropDue (.entry n) (p.putEntry n { p.entry n with state := .disabled })
  | .dayClass | .sun | .links => p

/-- R157: a record fails its check and enters the failed-record set. -/
def calFailure (t : CalTable) (n : Nat) (p : Part) : Part :=
  let q := calDisabled t n p
  raiseMinor .tableCheck (tableDetail t.table n)
    { q with cal.failed := q.cal.failed ++ [(t, n)], cal.checkFailures := bump q.cal.checkFailures }

/-- R157: a record is read for use; `none` while it is in the failed-record set. -/
def readCal {α : Type} (t : CalTable) (contents : α → List Byte) (n : Nat) (r : Checked α) (p : Part) :
    Part × Option α :=
  if p.cal.failed.contains (t, n) then (p, none)
  else if checkHolds contents r then (p, some r.val)
  else (calFailure t n p, none)

/-- R157: an accepted write takes a record out of the failed-record set. -/
def calMended (t : CalTable) (n : Nat) (p : Part) : Part :=
  { p with cal.failed := p.cal.failed.filter (fun x => x ≠ (t, n)) }

/-! ## Day classes -/

/-- R146: a day-class entry names a date. -/
def DayClass.names (c : DayClass) (d : Date) : Bool :=
  c.month = d.month && c.day = d.day && c.year.all (fun y => (y : Int) = d.year)

/-- R146: one entry's part in the recomputation. -/
def classEntry (acc : Part × List Nat) (n : Nat) : Part × List Nat :=
  let r := readCal .dayClass dayClassBytes n (acc.1.dayClassRecord n) acc.1
  (r.1, match r.2, r.1.time.civilDate with
    | some (some c), some d => if c.names d then acc.2 ++ c.classes else acc.2
    | _, _ => acc.2)

/-- R146: today's class set is recomputed. -/
def recomputeClasses (p : Part) : Part :=
  let r := (List.range 64).foldl classEntry (p, [])
  { r.1 with cal.classSet := canonical 0 8 r.2 }

/-! ## The sun -/

/-- R147: k, f and next for a day of the year from 1 to 366. -/
def sunIndex (d : Nat) : Nat × Nat × Nat :=
  let k := min ((d - 1) / 5) 72
  (k, d - 1 - 5 * k, (k + 1) % 73)

/-- x ÷ 5 rounded to the nearest, halves away from zero (R147). -/
def roundFifth (x : Int) : Int := if 0 ≤ x then (2 * x + 5) / 10 else -((-2 * x + 5) / 10)

/-- R147: a sun minute between two entries. -/
def interpolate (a b : Nat) (f : Nat) : Int := (a : Int) + roundFifth (((b : Int) - a) * f)

/-- R147: today's sunrise and sunset instants, absent where an entry is EMPTY or fails its check. -/
def sunInstants (d : Date) (p : Part) : Part × Option (Int × Int) :=
  let i := sunIndex (dayOfYear d)
  let a := readCal .sun sunBytes i.1 (p.sunRecord i.1) p
  let b := readCal .sun sunBytes i.2.2 (a.1.sunRecord i.2.2) a.1
  (b.1, match a.2, b.2 with
    | some (some x), some (some y) =>
      some (86400 * dayNumber d + 60 * interpolate x.sunrise y.sunrise i.2.1,
            86400 * dayNumber d + 60 * interpolate x.sunset y.sunset i.2.1)
    | _, _ => none)

/-! ## Fire instants -/

/-- R149: the offset the history gives for a tower instant. -/
def OffsetHistory.offsetAt (h : OffsetHistory) (t : Int) : Int :=
  h.changes.foldl (fun o c => if c.instant ≤ t then c.offset else o) h.first

/-- R149: the instant of the forward change that passes over a civil instant, and with it the search's state. -/
def passedOver (civil : Int) : Int → List Season → Option Int
  | _, [] => none
  | o, c :: more =>
    if civilSeconds c.instant o ≤ civil ∧ civil < civilSeconds c.instant c.offset then some c.instant
    else passedOver civil c.offset more

/-- R149: the fire instant of a civil instant. -/
def civilFire (h : OffsetHistory) (civil : Int) : Int :=
  let agreeing := ((h.first :: h.changes.map Season.offset).map (fun o => (civil - 60 * o, o))).filter
    (fun x => h.offsetAt x.1 = x.2)
  match agreeing.map Prod.fst with
  | t :: more => more.foldl min t
  | [] => (passedOver civil h.first h.changes).getD (civil - 60 * h.first)

/-- R149: the history taken at a DATE_CHANGE. -/
def takeHistory (p : Part) : OffsetHistory := { first := p.time.currentOffset, changes := p.time.seasons }

/-- R149: the history at a later rebuild of the same date. -/
def refreshHistory (p : Part) : OffsetHistory :=
  match p.cal.history with
  | none => takeHistory p
  | some h =>
    { h with changes := h.changes.filter (fun c => c.instant ≤ p.towerNow)
               ++ p.time.seasons.filter (fun c => ¬ c.instant ≤ p.towerNow) }

/-! ## The due list -/

/-- R149: an entry applies on a weekday with a class set. -/
def ScheduleConfig.applies (c : ScheduleConfig) (weekday : Nat) (classes : List Nat) (sun : Bool) : Bool :=
  c.weekdays.contains weekday && (c.required.isEmpty || c.required.any classes.contains)
    && !c.excluded.any classes.contains && (c.base = .civil || sun)

/-- R149: the fire instant of an entry that applies on a date. -/
def ScheduleConfig.fireInstant (c : ScheduleConfig) (d : Date) (h : OffsetHistory) (sun : Option (Int × Int)) : Int :=
  match c.base, sun with
  | .civil, _ => civilFire h (86400 * dayNumber d + 60 * c.minute)
  | .sunrise, some s => s.1 + 60 * c.minute
  | .sunset, some s => s.2 + 60 * c.minute
  | _, none => 0

/-- R151, step 1: the outcome already decided on the date or later. -/
def decidedState (x : Option Decided) (d : Date) : Option EntryState :=
  match x with
  | none => none
  | some y => if dayNumber d ≤ dayNumber y.date then some (if y.fired then .fired else .skipped) else none

/-- R150: an item enters the list by fire instant, behind those of the same instant. -/
def insertDue (x : DueItem) : List DueItem → List DueItem
  | [] => [x]
  | y :: more => if x.fire < y.fire then x :: y :: more else y :: insertDue x more

/-- R151: one entry at a rebuild for date `d`. -/
def rebuildEntry (d : Date) (h : OffsetHistory) (sun : Option (Int × Int)) (p : Part) (n : Nat) : Part :=
  let r := readCal .schedule scheduleBytes n (p.entry n).config p
  let e := r.1.entry n
  match r.2 with
  | none => r.1.putEntry n { e with state := .disabled }
  | some c =>
    if !c.enabled then r.1.putEntry n { e with state := .disabled }
    else if !c.applies (weekday d) r.1.cal.classSet sun.isSome then r.1.putEntry n { e with state := .notToday }
    else
      match decidedState e.decided d with
      | some st => r.1.putEntry n { e with state := st }
      | none =>
        let q := r.1.putEntry n { e with state := .armed }
        { q with cal.dueList := insertDue { kind := .entry n, fire := c.fireInstant d h sun } q.cal.dueList }

/-- R151: one entry at a rebuild while the time state is UNSET. -/
def rebuildEntryUnset (p : Part) (n : Nat) : Part :=
  let r := readCal .schedule scheduleBytes n (p.entry n).config p
  let e := r.1.entry n
  r.1.putEntry n
    { e with state := if r.2.any ScheduleConfig.enabled then EntryState.notToday else EntryState.disabled }

/-- R150, R151: a sun mark at a rebuild. -/
def SunMark.rebuilt (m : SunMark) (d : Date) (instant : Option Int) : SunMark :=
  { m with
    instant := instant,
    state := if instant.isNone then .notToday else (decidedState m.decided d).getD .armed }

/-- R150: a sun mark that is ARMED stands in the list. -/
def dueMark (kind : DueKind) (m : SunMark) (l : List DueItem) : List DueItem :=
  match m.instant, m.state with
  | some t, .armed => insertDue { kind := kind, fire := t } l
  | _, _ => l

/-- R151, R152: an item's state and last-decided date once it has fired or been skipped. -/
def decideItem (k : DueKind) (fired : Bool) (p : Part) : Part :=
  let st : EntryState := if fired then .fired else .skipped
  let dec : Option Decided := p.time.civilDate.map (fun d => { date := d, fired := fired })
  match k with
  | .entry n => p.putEntry n { p.entry n with state := st, decided := dec }
  | .sunrise => { p with cal.sunrise := { p.cal.sunrise with state := st, decided := dec } }
  | .sunset => { p with cal.sunset := { p.cal.sunset with state := st, decided := dec } }

/-! ## Actions -/

/-- A quiet count rises and holds at 15 (R154). -/
def quietUp (named : Bool) (n : Nat) : Nat := if named then min (n + 1) 15 else n
/-- A quiet count falls and holds at 0 (R154). -/
def quietDown (named : Bool) (n : Nat) : Nat := if named then n - 1 else n

/-- R154: the detail of a CUE notice: code, source kind (0 entry, 1 link), number. -/
def cueDetail (code : Nat) : ActionSource → List Byte
  | .entry n => [byte code, 0, byte n]
  | .link n => [byte code, 1, byte n]

/-- R154: an action goes to its target, which accepts or refuses it. -/
def doAction (src : ActionSource) (a : Action) (p : Part) : Part × Code :=
  match a with
  | .startTune t r => startTune t r p
  | .stopTune => stopTune p
  | .scene s =>
    let r := applyScene s p
    (if r.2 = .ok then { r.1 with cal.lastScene := some s } else r.1, r.2)
  | .quietBegin k =>
    ({ p with
      cal.quietChimes := quietUp k.chimes p.cal.quietChimes
      cal.quietStrike := quietUp k.strike p.cal.quietStrike
      cal.quietTunes := quietUp k.tunes p.cal.quietTunes }, .ok)
  | .quietEnd k =>
    ({ p with
      cal.quietChimes := quietDown k.chimes p.cal.quietChimes
      cal.quietStrike := quietDown k.strike p.cal.quietStrike
      cal.quietTunes := quietDown k.tunes p.cal.quietTunes }, .ok)
  | .chimeSet n => ({ p with cal.config := { p.cal.config with selector := n } }, .ok)
  | .omitNext => ({ p with clock.omitNext := true }, .ok)
  | .notice c => (sendNotice .cue (cueDetail c src) p, .ok)

/-- R154: a refusal is counted against the source of the action. -/
def countRefusal (src : ActionSource) (kind : Nat) (c : Code) (p : Part) : Part :=
  if c = .ok then p
  else
    let q := { p with cal.lastRefusal := some { source := src, action := kind, code := c } }
    match src with
    | .entry _ => { q with cal.scheduleRefusals := bump q.cal.scheduleRefusals }
    | .link n => q.putLink n { q.link n with refusals := bump (q.link n).refusals }

/-- TABLE 9-4: the action is a SCENE. -/
def Action.isScene : Action → Bool
  | .scene _ => true
  | _ => false

/-- R158: the last action scene is applied again before the first action after a reset. -/
def reapplyScene (src : ActionSource) (a : Action) (p : Part) : Part :=
  if !p.cal.reapply then p
  else
    let q := { p with cal.reapply := false }
    match a.isScene, q.cal.lastScene with
    | false, some s =>
      let r := applyScene s q
      if r.2 = .ok then { r.1 with cal.reapplications := bump r.1.cal.reapplications }
      else countRefusal src (Action.scene s).code r.2 r.1
    | _, _ => q

/-- R154, R158: an action is performed. -/
def perform (src : ActionSource) (a : Action) (p : Part) : Part :=
  let r := doAction src a (reapplyScene src a p)
  countRefusal src a.code r.2 r.1

/-! ## Firing -/

/-- R152: an item of the due list fires. What an entry's action emits, such as the TUNE_END of a tune that ends within
it, is taken after the links of ENTRY(n) have acted (R156), so ENTRY(n) is handed over ahead of it. -/
def fireItem (late : Bool) (k : DueKind) (p : Part) : Part :=
  let q := dropDue k (decideItem k true p)
  let q := { q with
    cal.fired := bump q.cal.fired
    cal.firedLate := if late then bump q.cal.firedLate else q.cal.firedLate }
  match k with
  | .entry n => perform (.entry n) (q.entry n).config.val.action (emitCue (.entry n) q)
  | .sunrise => emitCue .sunrise q
  | .sunset => emitCue .sunset q

/-- R151: an item passed by more than the catch-up window is skipped. -/
def skipItem (k : DueKind) (p : Part) : Part :=
  let q := dropDue k (decideItem k false p)
  { q with cal.skipped := bump q.cal.skipped }

/-- R151: an item whose fire instant is given was passed by no more than the catch-up window, tower time counted with
the fraction that the accumulator holds. -/
def Part.withinCatchUp (p : Part) (fire : Int) : Bool :=
  (p.time.sec - fire) * Config.secondPhase + p.time.acc ≤ 60 * p.cal.config.catchUp * Config.secondPhase

/-- R151, R153: a passed item fires late or is skipped. -/
def passItem (p : Part) (x : DueItem) : Part :=
  if p.withinCatchUp x.fire then fireItem true x.kind p else skipItem x.kind p

/-- R151, R153: the items passed at the present instant, in due-list order. -/
def passItems (p : Part) : Part :=
  (p.cal.dueList.filter (fun x => x.fire ≤ p.towerNow)).foldl passItem p

/-- R151: the due list is rebuilt, under the history given. Of two sun marks at one instant SUNRISE stands first (log
entry 69). -/
def rebuildWith (h : OffsetHistory) (p : Part) : Part :=
  match p.time.civilDate with
  | some d =>
    if p.unset then
      (List.range 128).foldl rebuildEntryUnset { p with cal.dueList := [] }
    else
      let s := sunInstants d { p with cal.history := some h, cal.dueList := [] }
      let q := (List.range 128).foldl (rebuildEntry d h s.2) s.1
      let q := { q with
        cal.sunrise := q.cal.sunrise.rebuilt d (s.2.map Prod.fst)
        cal.sunset := q.cal.sunset.rebuilt d (s.2.map Prod.snd) }
      passItems
        { q with cal.dueList := dueMark .sunset q.cal.sunset (dueMark .sunrise q.cal.sunrise q.cal.dueList) }
  | none => (List.range 128).foldl rebuildEntryUnset { p with cal.dueList := [] }

/-- R151: the due list is rebuilt on the same civil date. -/
def rebuild (p : Part) : Part := rebuildWith (refreshHistory p) p

/-- R146, R149, R151: the Calendar takes DATE_CHANGE. -/
def calDateChange (p : Part) : Part := let q := recomputeClasses p; rebuildWith (takeHistory q) q

/-- R153: the Calendar takes TIME_STEP forward with no change of date. -/
def calStepForward (p : Part) : Part := passItems p

/-- R153, R151: the Calendar takes the change of time state to UNSET. -/
def calUnset (p : Part) : Part :=
  let q := { p with
    cal.dueList := []
    cal.history := none
    cal.classSet := []
    cal.sunrise := { p.cal.sunrise with instant := none, state := .notToday }
    cal.sunset := { p.cal.sunset with instant := none, state := .notToday } }
  (List.range 128).foldl
    (fun p n => p.putEntry n { p.entry n with
      state := if (p.entry n).state = .disabled then EntryState.disabled else EntryState.notToday }) q

/-- R152: tower time has reached the first item of the due list. -/
def scheduleReached (p : Part) : Part :=
  (p.cal.dueList.filter (fun x => x.fire ≤ p.towerNow)).foldl (fun p x => fireItem false x.kind p) p

/-! ## Cue links -/

/-- R156: ANY matches all, a named value its own. -/
def anyOr {α : Type} [DecidableEq α] (named : Option α) (x : α) : Bool := named.all (fun n => n = x)

/-- R156: a link's source matches a source event. -/
def CueSource.matches : CueSource → CueEvent → Bool
  | .quarter q, .quarter x _ _ => anyOr q x
  | .hour h, .quarter x y _ => x = 4 && anyOr h y
  | .sunrise, .sunrise => true
  | .sunset, .sunset => true
  | .entry n, .entry x => n = x
  | .sessionOpen, .sessionOpen => true
  | .sessionClosed, .sessionClosed => true
  | .tuneEnd t r, .tuneEnd x y => anyOr t x && anyOr r y
  | .feedStage s, .feedStage x => s = x
  | .faultMajor, .faultMajor => true
  | _, _ => false

/-- R156: one link at a source event. -/
def linkActs (e : CueEvent) (p : Part) (n : Nat) : Part :=
  let r := readCal .links linkBytes n (p.link n).config p
  match r.2 with
  | some l => if l.enabled && l.source.matches e then perform (.link n) l.action r.1 else r.1
  | none => r.1

/-- R156: the Calendar takes the first source event handed over. -/
def takeCueEvent (p : Part) : Part :=
  match p.cal.events with
  | [] => p
  | e :: more =>
    let q := { p with cal.events := more }
    if q.unset then q else (List.range 32).foldl (linkActs e) q

/-! ## Writes -/

/-- R145: a write of a day-class entry. -/
def writeDayClass (n : Nat) (bs : List Byte) (p : Part) : Part × Code :=
  if 64 ≤ n then (p, .badIndex)
  else
    match parseDayClass bs with
    | none => (p, .badValue)
    | some c =>
      (rebuild (recomputeClasses (calMended .dayClass n
        { p with cal.dayClasses := bankPut p.cal.dayClasses n (stored dayClassBytes c) })), .ok)

/-- R147: a write of a sun entry. -/
def writeSun (n : Nat) (bs : List Byte) (p : Part) : Part × Code :=
  if 73 ≤ n then (p, .badIndex)
  else
    match parseSun bs with
    | none => (p, .badValue)
    | some t =>
      (rebuild (calMended .sun n { p with cal.sun := bankPut p.cal.sun n (stored sunBytes t) }), .ok)

/-- R148: a write of a schedule entry. -/
def writeSchedule (n : Nat) (bs : List Byte) (p : Part) : Part × Code :=
  if 128 ≤ n then (p, .badIndex)
  else
    match parseSchedule bs with
    | none => (p, .badValue)
    | some c =>
      (rebuild (calMended .schedule n
        (p.putEntry n { p.entry n with config := stored scheduleBytes c })), .ok)

/-- R156: a write of a cue link. -/
def writeLink (n : Nat) (bs : List Byte) (p : Part) : Part × Code :=
  if 32 ≤ n then (p, .badIndex)
  else
    match parseLink bs with
    | none => (p, .badValue)
    | some l => (calMended .links n (p.putLink n { config := stored linkBytes l, refusals := 0 }), .ok)

/-- R155: a write of the calendar configuration record. A record number other than 0 is outside the table (log entry
66). -/
def writeCalendarConfig (n : Nat) (bs : List Byte) (p : Part) : Part × Code :=
  if n ≠ 0 then (p, .badIndex)
  else
    match parseCalendarConfig bs with
    | none => (p, .badValue)
    | some c => (rebuild { p with cal.config := c }, .ok)

end Sys2Proof.Machine
end

