-- ==== Sys2Proof/Machine/CalendarCommands.lean ====
section
/-! DEFINITION. The commands of the Calendar (Part 9). -/

namespace Sys2Proof.Machine

/-- SCHEDULE_FIRE (R152). -/
def execScheduleFire (s : State) : Host.Outcome State Fault Refusal :=
  act (powered (fun p => if p.unset then p else scheduleReached p)) s

/-- CUE_SOURCE_EVENT (R156). -/
def execCueSourceEvent (s : State) : Host.Outcome State Fault Refusal := act (powered takeCueEvent) s

end Sys2Proof.Machine
end

