-- ==== Sys2Proof/Machine/DialOps.lean ====
section
/-! DEFINITION. The Dial Driver's working: positions and the target (R24, R25), the correction decision
(R26, R27), the home watch and the home search (R34 to R36), and how the dials follow the Time Scale
(R25, R38). -/

namespace Sys2Proof.Machine

/-- TABLE 2-1: the positions of one revolution. -/
def Dial.positions (x : Dial) : Nat := positionsOf x.config.stepPeriod

/-- R24: the effective position, which counts a step that is outstanding. -/
def Dial.effective (x : Dial) : Option Nat :=
  x.indicated.map (fun i => if x.outstanding then (i + 1) % x.positions else i)

/-- R25: the target of a step period at the present civil time; absent while UNSET. -/
def targetOf (stepPeriod : Nat) (t : TimeScale) : Option Nat :=
  if t.state = .unset then none
  else some ((civilSeconds t.sec t.currentOffset % 43200).toNat / stepPeriod)

/-- R26: the distance forward from `a` to `b` on a dial of `positions`. -/
def forward (positions a b : Nat) : Nat := (b + (positions - a % positions)) % positions

/-- R26: the positions the hands must move forward; `none` without a position or a target. -/
def Dial.behind (x : Dial) : Option Nat :=
  match x.effective, x.target with
  | some e, some t => some (forward x.positions e t)
  | _, _ => none

/-- R26: the positions by which the hands have gone past the target. -/
def Dial.ahead (x : Dial) : Option Nat :=
  match x.effective, x.target with
  | some e, some t => some (forward x.positions t e)
  | _, _ => none

/-- A dial goes to a state in which it neither runs fast nor waits: it stops waiting and releases any
charge it holds (R27, R32, R140). -/
def restDial (d : Nat) (st : DialState) (p : Part) : Part :=
  releaseDial d (stopWaiting d (p.putDial d { p.dial d with state := st }))

/-- R27: an evaluation of dial d. -/
def evaluateDial (d : Nat) (p : Part) : Part :=
  let x := p.dial d
  if x.state = .inStep ∨ x.state = .advancing ∨ x.state = .waitingFeed ∨ x.state = .holding then
    match x.behind, x.ahead with
    | some behind, some ahead =>
      if behind = 0 then restDial d .inStep p
      else if behind = 1 then
        if x.state = .advancing then p else offerStep d (restDial d .inStep p)
      else if ahead ≤ x.config.holdLimit then restDial d .holding p
      else if x.state = .advancing ∨ x.state = .waitingFeed then p
      else askDrive d p
    | _, _ => p
  else p

/-- R25: dial d re-forms its target; it is evaluated if the target differs from the one held, or at an
occasion that always evaluates (CIVIL_SHIFT, TIME_STEP). The second count is taken as it stands, also where a
backward nudge has lowered it: DESIGN CHOICE, log entries 72 and 83. -/
def reformTarget (always : Bool) (d : Nat) (p : Part) : Part :=
  let x := p.dial d
  let t := targetOf x.config.stepPeriod p.time
  let q := p.putDial d { x with target := t }
  if always ∨ t ≠ x.target then evaluateDial d q else q

/-- The dials at a CIVIL_SHIFT or a TIME_STEP, in dial-number order (R25, R27). -/
def dialsShifted (p : Part) : Part := dialNumbers.foldl (fun p d => reformTarget true d p) p

/-- A dial at a second boundary: the target is re-formed, and a step deferred in IN_STEP is offered again
(R25, R28). -/
def dialSecond (d : Nat) (p : Part) : Part :=
  let x := p.dial d
  if targetOf x.config.stepPeriod p.time ≠ x.target then reformTarget false d p
  else if x.state = .inStep ∧ x.behind = some 1 then offerStep d p
  else p

/-- The dials at a second boundary. -/
def dialsSecond (p : Part) : Part := dialNumbers.foldl (fun p d => dialSecond d p) p

/-! ## Home watch and home search -/

/-- R35, R36: the third miss takes the dial to FAULT, and DIAL_FAULT is raised. -/
def faultDial (d : Nat) (p : Part) : Part :=
  let q := restDial d .fault p
  raiseMinor .dialFault [byte d] (q.putDial d { q.dial d with faultRaised := true })

/-- R35, R36: a home miss. -/
def missHome (d : Nat) (p : Part) : Part :=
  let x := p.dial d
  let q := p.putDial d { x with misses := min (x.misses + 1) 3 }
  if 2 ≤ x.misses then faultDial d q else q

/-- R36: a dial without a position enters UNKNOWN and begins its search by asking for its drive charge. -/
def beginSearch (d : Nat) (p : Part) : Part :=
  askDrive d (p.putDial d { p.dial d with state := .unknown, searchCount := 0 })

/-- R36: a completion while UNKNOWN; a whole revolution without a report is a miss. -/
def searchStep (d : Nat) (p : Part) : Part :=
  let x := p.dial d
  if x.searchCount + 1 < x.positions then p.putDial d { x with searchCount := x.searchCount + 1 }
  else missHome d (p.putDial d { x with searchCount := 0 })

/-- R35: the states in which no miss is counted. -/
def Dial.stands (x : Dial) : Bool :=
  x.state = .holding || x.state = .waitingFeed || x.state = .stopped || x.state = .fault

/-- R35: a completion with a home watch open; the second one closes it as a miss. -/
def watchStep (d : Nat) (p : Part) : Part :=
  let x := p.dial d
  match x.homeWatch with
  | none => p
  | some k =>
    if k = 0 then p.putDial d { x with homeWatch := some 1 }
    else
      let q := p.putDial d { x with homeWatch := none }
      if x.stands then q else missHome d q

/-- R30: the hands move by one position; an absent position stays absent, and position 0 opens a home watch. -/
def moveHands (x : Dial) : Dial :=
  match x.indicated with
  | none => x
  | some i =>
    let j := (i + 1) % x.positions
    { x with indicated := some j, homeWatch := if j = 0 then some 0 else x.homeWatch }

/-- R30: a DIAL_STEP of dial d has completed. A watch that it closes as the third miss takes the dial to FAULT ahead of
the evaluation, which then offers nothing (log entry 73). -/
def dialStepDone (d : Nat) (p : Part) : Part :=
  let p := watchStep d p
  let x := p.dial d
  let p := p.putDial d (moveHands { x with outstanding := false, stepsSent := bump x.stepsSent })
  if x.state = .unknown then searchStep d p else evaluateDial d p

/-- R34: a home report for dial d. -/
def homeReported (d : Nat) (p : Part) : Part :=
  let x := { p.dial d with homeWatch := none, misses := 0, faultRaised := false }
  match x.indicated with
  | some 0 => p.putDial d { x with confirmations := bump x.confirmations }
  | some i =>
    let slip : Int := if i ≤ x.positions / 2 then i else (i : Int) - x.positions
    evaluateDial d (p.putDial d { x with indicated := some 0, slips := bump x.slips, lastSlip := slip })
  | none =>
    let x := { x with indicated := some 0, searchCount := 0 }
    if x.state = .unknown then
      if p.budget.dialHolds d then evaluateDial d (p.putDial d { x with state := .advancing })
      else evaluateDial d (stopWaiting d (p.putDial d { x with state := .inStep }))
    else p.putDial d x

/-- R37: SET_DIAL is taken. -/
def setDialTaken (d position : Nat) (p : Part) : Part :=
  let p := p.putDial d
    { p.dial d with indicated := some position, misses := 0, searchCount := 0, homeWatch := none,
                    faultRaised := false }
  if p.unset then p.putDial d { p.dial d with state := .stopped }
  else evaluateDial d (restDial d .inStep p)

/-! ## Dials and the time state -/

/-- R38: a change of time state to UNSET. Every dial stops and stops waiting, and then the charges go. -/
def dialsStop (p : Part) : Part :=
  let p := dialNumbers.foldl
    (fun p d => stopWaiting d (p.putDial d { p.dial d with state := .stopped, target := none })) p
  dialNumbers.foldl (fun p d => releaseDial d p) p

/-- R38: a STOPPED dial leaves it when the time state leaves UNSET. -/
def dialLeavesStopped (d : Nat) (p : Part) : Part :=
  let x := p.dial d
  let p := p.putDial d { x with target := targetOf x.config.stepPeriod p.time }
  if x.state ≠ .stopped then p
  else if x.misses = 3 then
    if x.faultRaised then restDial d .fault p else faultDial d p
  else if x.indicated.isNone then beginSearch d p
  else evaluateDial d (p.putDial d { p.dial d with state := .inStep })

/-- R25, R38: the Time Scale hands the dials a change of time state. Each target is re-formed, also at a mark whose nudge
took the second count down (log entry 72). -/
def dialsFollow (old new : TimeState) (p : Part) : Part :=
  if new = .unset then (if old = .unset then p else dialsStop p)
  else if old = .unset then dialNumbers.foldl (fun p d => dialLeavesStopped d p) p
  else dialNumbers.foldl (fun p d => reformTarget false d p) p

/-! ## Writing a dial record -/

/-- R23: an accepted write of dial record d. An open home watch stays open (R35). The last slip amount is kept at a
change of the step period (DESIGN CHOICE, log entry 84), and the target of an unchanged one is re-formed from the second
count as it stands (log entry 83). -/
def dialWritten (d : Nat) (c : DialConfig) (p : Part) : Part :=
  let x := p.dial d
  if c.stepPeriod ≠ x.config.stepPeriod then
    let p := p.putDial d
      { x with config := c, indicated := none, searchCount := 0, misses := 0,
               faultRaised := false, target := targetOf c.stepPeriod p.time, state := .stopped }
    let p := releaseDial d (stopWaiting d p)
    if p.unset then p else beginSearch d p
  else
    reformTarget (decide (c.fastRate ≠ x.config.fastRate ∨ c.holdLimit ≠ x.config.holdLimit)) d
      (p.putDial d { x with config := c })

/-- R23: the answer to a write of dial record d, with the part after it. -/
def writeDial (d : Nat) (bs : List Byte) (p : Part) : Part × Code :=
  if ¬ within 1 d 4 then (p, .badIndex)
  else
    match parseDialConfig bs with
    | none => (p, .badValue)
    | some c =>
      if dialNumbers.any (fun e => e ≠ d && (p.dial e).config.node = c.node && (p.dial e).config.channel = c.channel)
      then (p, .duplicate)
      else (dialWritten d c p, .ok)

end Sys2Proof.Machine
end

