-- ==== Sys2Proof/Machine/DialCommands.lean ====
section
/-! DEFINITION. The commands of the Dial Driver (Part 2). -/

namespace Sys2Proof.Machine

/-- R31: the fast interval of a rate, in ticks. -/
def fastInterval (rate : Nat) : Nat := 61440 / rate

/-- R32, R36: a fast instant of dial d: it runs fast or searches with its charge, no step is outstanding, and the
fast interval has passed since the last offer. -/
def Part.fastInstant (p : Part) (d : Nat) : Bool :=
  let x := p.dial d
  (x.state = .advancing || (x.state = .unknown && p.budget.dialHolds d)) && !x.outstanding
    && x.lastOffer.all (fun t => t + fastInterval x.config.fastRate ≤ p.osc)

/-- R32: a dial's fast instant. -/
def fastPart (d : Nat) (p : Part) : Part := if p.fastInstant d then offerStep d p else p

/-- DIAL_FAST_INSTANT (R32). -/
def execDialFastInstant (d : Nat) (s : State) : Host.Outcome State Fault Refusal := act (powered (fastPart d)) s

/-- R30: the DIAL_STEP in flight completes. -/
def dialCompletionPart (p : Part) : Part :=
  match p.line.fieldFlight with
  | some (.dialStep d _) => dialStepDone d (fieldCompletes p)
  | _ => p

/-- DIAL_STEP_COMPLETION (R30). -/
def execDialStepCompletion (s : State) : Host.Outcome State Fault Refusal := act (powered dialCompletionPart) s

/-- R34: a DIAL_HOME report of the dial it matches, if any. -/
def dialHomePart (matched : Option Nat) (p : Part) : Part :=
  match matched with
  | some d => homeReported d p
  | none => { p with dialDriver.unmatched := bump p.dialDriver.unmatched }

/-- DIAL_HOME (R34). -/
def execDialHome (src channel : Nat) (s : State) : Host.Outcome State Fault Refusal :=
  act (powered (fun p => dialHomePart (p.homeDialOf src channel) (takeCopy (.dialHome src channel) p))) s

/-- R37: SET_DIAL. -/
def setDialPart (d position : Nat) (p : Part) : Part × Code :=
  if ¬ within 1 d 4 then (p, .badIndex)
  else if (p.dial d).positions ≤ position then (p, .badValue)
  else (setDialTaken d position p, .ok)

/-- SET_DIAL (R37). -/
def execSetDial (src d position : Nat) (s : State) : Host.Outcome State Fault Refusal :=
  act (serveSimple (.setDial src d position) src .service (setDialPart d position)) s

end Sys2Proof.Machine
end

