-- ==== Sys2Proof/Machine/LampCommands.lean ====
section
/-! DEFINITION. The commands of the Lamp Controller (Part 7) and the Feed Budget (Part 8). -/

namespace Sys2Proof.Machine

/-- LAMP_UPDATE (R123), at the beat of R116. -/
def execLampUpdate (s : State) : Host.Outcome State Fault Refusal :=
  act (powered (fun p => if p.lamps.nextUpdate ≤ p.osc then lampUpdate p else p)) s

/-- APPLY_SCENE (R122). -/
def execApplyScene (src scene : Nat) (s : State) : Host.Outcome State Fault Refusal :=
  act (serveSimple (.applyScene src scene) src .console (applyScene scene)) s

/-- R129: a LAMP_REPORT. -/
def lampReportPart (src channel : Nat) (st : LampStatus) (p : Part) : Part :=
  match groupAt src channel p with
  | some g => groupReported g st p
  | none => { p with lamps.unmatched := bump p.lamps.unmatched }

/-- LAMP_REPORT (R129). -/
def execLampReport (src channel : Nat) (st : LampStatus) (s : State) : Host.Outcome State Fault Refusal :=
  act (powered (fun p => lampReportPart src channel st (takeCopy (.lampReport src channel st) p))) s

/-- R128: the LAMP_LEVEL in flight completes. -/
def levelCompletionPart (p : Part) : Part :=
  match p.line.fieldFlight with
  | some (.lampLevel g l _) => levelCompletes g l (fieldCompletes p)
  | _ => p

/-- LAMP_LEVEL_COMPLETION (R128). -/
def execLampLevelCompletion (s : State) : Host.Outcome State Fault Refusal := act (powered levelCompletionPart) s

/-- FEED_STATE (R134). -/
def execFeedState (src : Nat) (stage : Stage) (s : State) : Host.Outcome State Fault Refusal :=
  act (powered (fun p =>
    feedReported (p.monitorOf (.feedState src stage)) src stage (takeCopy (.feedState src stage) p))) s

/-- STRIKE_CHARGE_RELEASE (R136). -/
def execStrikeChargeRelease (s : State) : Host.Outcome State Fault Refusal := act (powered releaseTaken) s

/-- RESTORE_TIMER_EXPIRY (R142). -/
def execRestoreTimerExpiry (s : State) : Host.Outcome State Fault Refusal :=
  act (powered (fun p => if p.restoreDue then restoreExpires p else p)) s

end Sys2Proof.Machine
end

