-- ==== Sys2Proof/Machine/LineCommands.lean ====
section
/-! DEFINITION. The commands of the Line Switch (Part 10). -/

namespace Sys2Proof.Machine

/-- FIELD_ARBITER_TAKE (R168). -/
def execFieldArbiterTake (s : State) : Host.Outcome State Fault Refusal := act (powered arbiterTakes) s

/-- R171: the receiver of a port waits for an idle gap. -/
def Part.portWaits (p : Part) : Port → Bool
  | .console => p.line.consoleWaits
  | .field => p.line.fieldWaits

/-- R159, R171: the reception ends; a frame whose reception was under way before the gap is lost. -/
def receptionPart (t : Port) (bs : List Byte) (p : Part) : Part := if p.portWaits t then p else receive t bs p

/-- FRAME_RECEIVED (R159). -/
def execFrameReceived (t : Port) (bs : List Byte) (s : State) : Host.Outcome State Fault Refusal :=
  act (powered (receptionPart t bs)) s

/-- CONSOLE_TRANSMIT_TAKE (R170). -/
def execConsoleTransmitTake (s : State) : Host.Outcome State Fault Refusal := act (powered consoleTakes) s

/-- R169: a frame that hands nothing on completes: a strike, or a frame taken from PASS. -/
def fieldCompletionPart (p : Part) : Part :=
  match p.line.fieldFlight with
  | some (.strike _) | some (.plain _) => fieldCompletes p
  | _ => p

/-- FIELD_FRAME_COMPLETION (R169). -/
def execFieldFrameCompletion (s : State) : Host.Outcome State Fault Refusal := act (powered fieldCompletionPart) s

/-- R170: a frame other than the reply to RESET_PART completes on the console port. -/
def consoleCompletionPart (p : Part) : Part :=
  match p.line.consoleFlight with
  | some (.report _) | some (.notice _) | some (.reply _) => consoleCompletes p
  | _ => p

/-- CONSOLE_FRAME_COMPLETION (R170). -/
def execConsoleFrameCompletion (s : State) : Host.Outcome State Fault Refusal :=
  act (powered consoleCompletionPart) s

/-- R171: an idle gap ends the waiting of a receiver. -/
def gapPart (t : Port) (p : Part) : Part :=
  match t with
  | .console => { p with line.consoleWaits := false }
  | .field => { p with line.fieldWaits := false }

/-- RECEIVER_IDLE_GAP (R171). -/
def execReceiverIdleGap (t : Port) (s : State) : Host.Outcome State Fault Refusal := act (powered (gapPart t)) s

end Sys2Proof.Machine
end

