-- ==== Sys2Proof/Machine/TimeOps.lean ====
section
/-! DEFINITION. The Time Scale (Part 1): ticks and second boundaries (R1, R2), time marks (R5 to R10), the
silence timer (R11), SET_TIME (R12), the hand-on of a change of time state (R13), the season list and the
offset cache (R14, R15), the civil date (R16) and the quarter rules (R17 to R20). -/

namespace Sys2Proof.Machine

/-! ## Ticks -/

/-- R1: one tick of phase, unless the second count holds no time. -/
def TimeScale.addTick (t : TimeScale) : TimeScale :=
  if t.state = .unset then t
  else
    { t with
      acc := t.acc + (Config.tickPhase + t.trim)
      silence := t.silence.map (· + 1)
      window := t.window.map (fun (w : Window) => { w with ticks := w.ticks + 1 }) }

/-- R1: local time in ticks. -/
def TimeScale.localTicks (t : TimeScale) : Int := t.sec * 1024 + t.acc / Config.tickPhase

/-! ## Handing on a change of time state -/

/-- R13: a change of time state goes to the Dial Driver and the Calendar, and a TIME_STATE notice is sent. The notice
stands behind those that the dials raise as they follow the change (log entry 81). -/
def tellTimeState (old new : TimeState) (p : Part) : Part :=
  if old = new then p
  else
    let p := dialsFollow old new p
    let p := if new = .unset then calUnset p else p
    sendNotice .timeState [byte old.code, byte new.code] p

/-- R2: the Time Scale becomes UNSET. -/
def TimeScale.lost (t : TimeScale) : TimeScale :=
  { t with
    state := .unset, sec := 0, acc := 0, window := none, stepPending := 0, silence := none, civilDate := none,
    quarterMarker := none, currentOffset := t.baseOffset, nextChange := none }

/-- R2: tower time would pass the end of its range. -/
def rangeEnd (p : Part) : Part := tellTimeState p.time.state .unset { p with time := p.time.lost }

/-! ## Civil time -/

/-- R15: the base offset after the entries at or before the present instant have taken effect. -/
def TimeScale.offsetNow (t : TimeScale) : Int :=
  if t.state = .unset then t.baseOffset
  else (t.seasons.filter (fun s => s.instant ≤ t.sec)).foldl (fun _ s => s.offset) t.baseOffset

/-- R15: the season list and offset cache after a recomputation. -/
def TimeScale.recomputed (t : TimeScale) : TimeScale :=
  if t.state = .unset then { t with currentOffset := t.baseOffset, nextChange := none }
  else
    let rest := t.seasons.filter (fun s => ¬ s.instant ≤ t.sec)
    { t with
      baseOffset := t.offsetNow, currentOffset := t.offsetNow, seasons := rest,
      nextChange := rest.head?.map Season.instant }

/-- R15: the offset cache is recomputed, with CIVIL_SHIFT to the dials if the current offset changes (a
CIVIL_SHIFT changes nothing in the Calendar, R153). -/
def recomputeOffset (p : Part) : Part :=
  let q := { p with time := p.time.recomputed }
  if q.time.currentOffset = p.time.currentOffset then q else dialsShifted q

/-- R16: the civil date evaluated at the present instant. -/
def TimeScale.dateNow (t : TimeScale) : Date := civilDateAt t.sec t.currentOffset

/-- R16: the civil date is evaluated, with DATE_CHANGE if it differs from the one held. -/
def evaluateDate (p : Part) : Part :=
  if p.unset ∨ p.time.civilDate = some p.time.dateNow then p
  else calDateChange { p with time.civilDate := some p.time.dateNow }

/-! ## Quarter boundaries -/

/-- R17: the quarter of a civil second, 1 to 4. -/
def quarterOf (civil : Int) : Nat :=
  let m := civil / 60 % 60
  if m = 15 then 1 else if m = 30 then 2 else if m = 45 then 3 else 4

/-- R17: the civil hour. -/
def hourOf (civil : Int) : Nat := (civil / 3600 % 24).toNat

/-- R17: QUARTER(q, h, late) for the boundary at `b` goes to the clock voice and to the cue links. -/
def emitQuarter (b : Int) (late : Bool) (p : Part) : Part :=
  let c := civilSeconds b p.time.currentOffset
  emitCue (.quarter (quarterOf c) (hourOf c) late) (takeQuarter (quarterOf c) (hourOf c) late p)

/-- The latest quarter boundary at or before an instant. -/
def lastBoundary (t : Int) : Int := t / Config.quarterSeconds * Config.quarterSeconds

/-- R18: a second boundary that is a quarter boundary later than the marker emits QUARTER. -/
def quarterAtSecond (p : Part) : Part :=
  if p.time.sec % Config.quarterSeconds = 0 ∧ p.time.quarterMarker.all (fun m => m < p.time.sec) then
    emitQuarter p.time.sec false { p with time.quarterMarker := some p.time.sec }
  else p

/-- R19: the quarter boundaries crossed by a forward step or during a power cut. -/
def crossedQuarters (p : Part) : Part :=
  let b := lastBoundary p.time.sec
  match p.time.quarterMarker with
  | none => p
  | some m =>
    if b ≤ m then p
    else
      let n := ((b - m) / Config.quarterSeconds).toNat
      let q := { p with time.quarterMarker := some b }
      if (p.time.sec - b) * Config.secondPhase + p.time.acc ≤ 90 * Config.secondPhase then
        emitQuarter b true { q with time.skippedQuarters := bumpBy (n - 1) q.time.skippedQuarters }
      else { q with time.skippedQuarters := bumpBy n q.time.skippedQuarters }

/-- R19, R20: the quarter rules for a step of `a` ticks, an amount of 0 taken as forward (log entry 64). -/
def quartersAfterStep (a : Int) (p : Part) : Part :=
  if 0 ≤ a then crossedQuarters p
  else if -a < 900 * 1024 then p
  else { p with time.quarterMarker := some (lastBoundary p.time.sec) }

/-! ## Second boundaries -/

/-- R1, R15, R16, R18, R25: the work of a second boundary, once the second count has risen. The dials take the second
after a CIVIL_SHIFT and ahead of DATE_CHANGE (log entry 65). -/
def secondWork (p : Part) : Part :=
  let q := if p.time.nextChange.any (fun t => t ≤ p.time.sec) then recomputeOffset p else p
  let q := if q.time.currentOffset = p.time.currentOffset then dialsSecond q else q
  quarterAtSecond (evaluateDate q)

/-- R1, R2: a second elapses. The instant at which the second count rises is the second boundary, so its work is done at
that instant, with no fraction of a second; what is left in the accumulator stands there after it. -/
def secondElapses (p : Part) : Part :=
  if Config.lastSecond ≤ p.time.sec then rangeEnd p
  else
    let q := secondWork { p with time.sec := p.time.sec + 1, time.acc := 0 }
    { q with time.acc := p.time.acc - Config.secondPhase }

/-- R1: a second elapses if the accumulator has reached 2³⁰. -/
def secondPart (p : Part) : Part :=
  if ¬ p.unset ∧ Config.secondPhase ≤ p.time.acc then secondElapses p else p

/-! ## Leaving UNSET and steps -/

/-- R6, R12, R13: tower time has been set from UNSET: offset cache, quarter marker, civil date, and the hand-on. -/
def leaveUnset (p : Part) : Part :=
  let p := recomputeOffset p
  let p := evaluateDate { p with time.quarterMarker := some (lastBoundary p.time.sec) }
  tellTimeState .unset .acquiring p

/-- R9, R11, R12: the Time Scale set to an instant by a step. The silence timer restarts as the mark or the request is
taken (log entry 5). -/
def TimeScale.stepped (t : TimeScale) (sec acc : Int) (window : Option Window) : TimeScale :=
  { t with
    state := .acquiring, sec := sec, acc := acc, window := window, stepPending := 0, silence := some 0,
    steps := bump t.steps }

/-- R9, R12, R13, R153: what follows a step of `a` ticks from a time state `old`. The dials take TIME_STEP ahead of the
Calendar (log entry 80). -/
def afterStep (a : Int) (old : TimeState) (p : Part) : Part :=
  let p := dialsShifted p
  let sameDate := decide (p.time.civilDate = some (civilDateAt p.time.sec p.time.offsetNow))
  let p := if 0 < a ∧ sameDate then calStepForward p else p
  let p := evaluateDate (recomputeOffset p)
  tellTimeState old .acquiring (quartersAfterStep a p)

/-! ## Time marks -/

/-- R5: how far the mark instant lies back, in ticks: d before the end of reception. -/
def Reception.back (r : Reception) : Int := r.delay + r.age

/-- R7: local time in ticks at the end of a reception `age` ticks back. -/
def TimeScale.localAt (t : TimeScale) (age : Nat) : Int :=
  t.sec * 1024 + (t.acc - age * (Config.tickPhase + t.trim)) / Config.tickPhase

/-- R7: the difference of local time at the mark instant from the named instant, in ticks. -/
def TimeScale.markDelta (t : TimeScale) (r : Reception) (n : Int) : Int := t.localAt r.age - r.delay - 1024 * n

/-- R7: the phase offset P, Δ folded into −512 to +511. -/
def foldPhase (delta : Int) : Int := (delta + 512) % 1024 - 512

/-- R7: a mark within threshold: S is 0 and P lies between −128 and +128. -/
def withinThreshold (delta : Int) : Bool := foldPhase delta = delta && -128 ≤ delta && delta ≤ 128

/-- The phase gathered since a mark instant (R6, R9). -/
def TimeScale.delayPhase (t : TimeScale) (r : Reception) : Int := r.back * (Config.tickPhase + t.trim)

/-- R10: a window opened at a mark naming `n`; K counts from its mark instant. -/
def Reception.openWindow (r : Reception) (n : Int) : Option Window := some { opened := n, ticks := r.back }

/-- R8, R11: the nudge of a mark whose phase offset is `off`. The silence timer restarts as the mark is taken (log
entry 5). -/
def TimeScale.nudged (t : TimeScale) (off : Int) : TimeScale :=
  let a := t.acc - off.tdiv 16 * Config.tickPhase
  let t := { t with stepPending := 0, silence := some 0, usedMarks := bump t.usedMarks }
  if a < 0 then { t with sec := t.sec - 1, acc := a + Config.secondPhase } else { t with acc := a }

/-- x ÷ y rounded to the nearest, halves away from zero, for y above 0 (R10). -/
def roundAway (x y : Int) : Int :=
  if 0 ≤ x then (2 * x + y) / (2 * y) else -((-2 * x + y) / (2 * y))

/-- `x` limited to the range −m to +m. -/
def limitTo (m x : Int) : Int := max (-m) (min m x)

/-- R10: the correction C of a window that closes after `we` reference seconds and `k` ticks. -/
def windowCorrection (trim we k : Int) : Int :=
  limitTo 64 (roundAway (k * (Config.tickPhase + trim) - we * Config.secondPhase) (1024 * we))

/-- R10: the window closes at a mark naming `n`; the K of its rule runs from mark instant to mark instant.
The change to LOCKED re-forms the dials' targets as at HOLDOVER (log entry 72). -/
def closeWindow (r : Reception) (n : Int) (w : Window) (p : Part) : Part :=
  let t := p.time
  let trim := t.trim - windowCorrection t.trim (n - w.opened) (w.ticks - r.back)
  let q := { p with time := { t with trim := limitTo 500 trim, window := r.openWindow n } }
  let q := if limitTo 500 trim = trim then q else raiseMinor .trimLimit [] q
  if t.state = .acquiring then tellTimeState .acquiring .locked { q with time.state := .locked } else q

/-- R8, R10: a mark within threshold serves the discipline window. The W is the one in force as the mark is taken (R4; log
entry 5). -/
def serveWindow (r : Reception) (n : Int) (p : Part) : Part :=
  match p.time.window with
  | none => { p with time.window := r.openWindow n }
  | some w => if p.time.windowSize ≤ n - w.opened then closeWindow r n w p else p

/-- R8: a mark has tower time LOCKED again after HOLDOVER, and R13 hands the change on. -/
def leaveHoldover (p : Part) : Part :=
  if p.time.state = .holdover then tellTimeState .holdover .locked { p with time.state := .locked } else p

/-- R8: a discipline mark within threshold. The nudge, and the second that is due with it (log entry 4), come ahead of
the change from HOLDOVER (log entry 29), which has the dials re-form their targets from the second count that the nudge
left (log entry 72). A second past the end of the range leaves the part UNSET, and the mark does no more: DESIGN CHOICE,
log entry 90. -/
def slew (r : Reception) (n off : Int) (p : Part) : Part :=
  let q := secondPart { p with time := p.time.nudged off }
  if q.unset then q else serveWindow r n (leaveHoldover q)

/-- R9: a discipline mark beyond threshold; the third in a row steps tower time. -/
def beyond (r : Reception) (n delta : Int) (p : Part) : Part :=
  let t := { p.time with usedMarks := bump p.time.usedMarks, stepPending := p.time.stepPending + 1 }
  if t.stepPending < 3 then { p with time := t }
  else afterStep (-delta) t.state { p with time := t.stepped n (t.delayPhase r) (r.openWindow n) }

/-- R6, R11: a mark sets tower time from UNSET. The silence timer restarts as the mark is taken (log entry 5). -/
def setFromMark (r : Reception) (n : Int) (quality : Nat) (p : Part) : Part :=
  let t := p.time
  leaveUnset { p with time := { t with
    state := .acquiring, sec := n, acc := t.delayPhase r, stepPending := 0, silence := some 0,
    window := if 2 ≤ quality then r.openWindow n else none, usedMarks := bump t.usedMarks } }

/-- R5 to R9: a TIME_MARK whose SRC has the class given. -/
def useMark (cls : SourceClass) (r : Reception) (year month day second quality : Nat) (p : Part) : Part :=
  if cls ≠ .time then { p with time.foreignMarks := bump p.time.foreignMarks }
  else if ¬ within 1 quality 3 ∨ ¬ fieldsValid year month day second then
    { p with time.refusedMarks := bump p.time.refusedMarks }
  else
    let n := namedInstant year month day second
    if p.unset then setFromMark r n quality p
    else if quality = 1 then { p with time.qualityOneMarks := bump p.time.qualityOneMarks }
    else
      let delta := p.time.markDelta r n
      if withinThreshold delta then slew r n delta p else beyond r n delta p

/-- R4, R5, R163: a TIME_MARK is taken: a copy delivered before, with its class, its arrival instant and the d of then, or
a mark delivered now, whose class is looked up now. -/
def takeMark (src year month day second quality : Nat) (p : Part) : Part :=
  let i := Instr.timeMark src year month day second quality
  let r : Reception := { age := p.osc - p.arrivalOf i, delay := p.delayOf i }
  match (p.copyOf i).bind Delivery.cls with
  | some cls => useMark cls r year month day second quality (takeCopy i p)
  | none =>
    let c := classOf src (takeCopy i p)
    useMark c.2 r year month day second quality c.1

/-! ## The silence timer and SET_TIME -/

/-- R11: the silence timer has reached 600 s in ACQUIRING or LOCKED. -/
def silenceReached (p : Part) : Part :=
  if p.time.silence.any (fun k => Config.silenceTicks ≤ k) ∧ (p.time.state = .acquiring ∨ p.time.state = .locked) then
    tellTimeState p.time.state .holdover { p with time.state := .holdover, time.window := none }
  else p

/-- R12: SET_TIME. -/
def setTime (year month day second : Nat) (p : Part) : Part × Code :=
  if ¬ fieldsValid year month day second then (p, .badValue)
  else
    let n := namedInstant year month day second
    let t := p.time
    match t.state with
    | .acquiring | .locked => (p, .wrongState)
    | .unset =>
      (leaveUnset { p with time := { t with
        state := .acquiring, sec := n, acc := 0, stepPending := 0, silence := some 0, window := none } }, .ok)
    | .holdover =>
      (afterStep (1024 * n - t.localTicks) .holdover { p with time := t.stepped n 0 none }, .ok)

/-! ## The season list -/

/-- R14, R15: what follows an accepted write of the season list or base offset. -/
def seasonsChanged (p : Part) : Part := rebuild (evaluateDate (recomputeOffset p))

/-- An offset in range and a multiple of 15 minutes (R14, R15). -/
def offsetAllowed (o : Int) : Bool := -720 ≤ o && o ≤ 840 && o % 15 = 0

/-- R14: an entry is inserted at the place its instant gives. -/
def insertSeason (s : Season) : List Season → List Season
  | [] => [s]
  | x :: more => if s.instant < x.instant then s :: x :: more else x :: insertSeason s more

/-- R14: SEASON_ADD. -/
def seasonAdd (instant : Nat) (offset : Int) (p : Part) : Part × Code :=
  if Config.lastSecond < instant ∨ instant % 60 ≠ 0 ∨ ¬ offsetAllowed offset then (p, .badValue)
  else if p.time.seasons.any (fun s => s.instant = instant) then (p, .duplicate)
  else if Config.seasonPlaces ≤ p.time.seasons.length then (p, .full)
  else
    (seasonsChanged { p with
      time.seasons := insertSeason { instant := instant, offset := offset } p.time.seasons }, .ok)

/-- R14: SEASON_REMOVE. -/
def seasonRemove (instant : Nat) (p : Part) : Part × Code :=
  if p.time.seasons.any (fun s => s.instant = instant) then
    (seasonsChanged { p with time.seasons := p.time.seasons.filter (fun s => s.instant ≠ instant) }, .ok)
  else (p, .badIndex)

/-- R15: SEASON_BASE. -/
def seasonBase (offset : Int) (p : Part) : Part × Code :=
  if ¬ offsetAllowed offset then (p, .badValue)
  else (seasonsChanged { p with time.baseOffset := offset }, .ok)

/-! ## The time configuration -/

/-- R3, R4: an accepted write of the time configuration; a changed trim abandons the open window. -/
def timeConfigWritten (trim : Int) (w d : Nat) (p : Part) : Part :=
  { p with
    time.trim := trim
    time.windowSize := w
    time.delay := d
    time.window := if trim = p.time.trim then p.time.window else none }

/-- R3, R4: a write of the time configuration. A record number other than 0 is outside the table (log entry 66). -/
def writeTimeConfig (n : Nat) (bs : List Byte) (p : Part) : Part × Code :=
  if n ≠ 0 then (p, .badIndex)
  else
    match parseTimeConfig bs with
    | none => (p, .badValue)
    | some (t, w, d) => (timeConfigWritten t w d p, .ok)

end Sys2Proof.Machine
end

