-- ==== Sys2Proof/Machine/Tables.lean ====
section
/-! DEFINITION. The tables of TABLE 11-5: their records, write classes, and the bytes of each record as a read
returns them (Part 11). A record is its written part, as Machine/Layout.lean lays it out, followed by its live
part and, on the tables that carry them, the counts read with it; the order and sizes of the parts no write
sets are the model's (log entry 18). -/

namespace Sys2Proof.Machine

/-! ## The list of tables -/

/-- TABLE 11-5: the first and the last record number of a table. -/
def Table.range : Table → Nat × Nat
  | .sources => (1, 62)
  | .seasons => (0, 16)
  | .dials => (1, 4)
  | .bells => (1, 16)
  | .directory => (0, 95)
  | .steps => (0, 2047)
  | .chimes => (0, 3)
  | .voices => (0, 1)
  | .groups => (1, 12)
  | .scenes => (0, 15)
  | .dayClasses => (0, 63)
  | .sun => (0, 72)
  | .schedule => (0, 127)
  | .links => (0, 31)
  | .routes => (0, 31)
  | .identity | .partConfig | .faults | .timeConfig | .timeStatus | .guardConfig | .session | .limits
  | .budgetStatus | .calendarConfig | .calendarStatus | .lineStatus => (0, 0)

/-- A record number lies in the table. -/
def Table.holds (t : Table) (n : Nat) : Bool := within t.range.1 n t.range.2

/-- TABLE 11-5: the write class; `none` is READ_ONLY. -/
def Table.writeClass : Table → Option SourceClass
  | .partConfig | .sources | .timeConfig | .dials | .bells | .guardConfig | .groups | .limits | .routes =>
    some .service
  | .directory | .steps | .chimes | .scenes | .dayClasses | .sun | .schedule | .links | .calendarConfig =>
    some .operator
  | .identity | .faults | .timeStatus | .seasons | .session | .voices | .budgetStatus | .calendarStatus
  | .lineStatus => none

/-! ## Fields of the read-only parts -/

/-- A count, two bytes (R94, R171). -/
def counts (l : List Nat) : List Byte := l.flatMap (be 2)

/-- A tower instant in four bytes, or absent. -/
def instantBytes : Option Int → List Byte
  | some t => beInt 4 t
  | none => absentBytes 4

/-- An oscillator instant in eight bytes, or absent (log entry 18). -/
def tickBytes (t : Option Nat) : List Byte := beOpt 8 t

/-- A date, year in two bytes, with its weekday. -/
def dateBytes : Option Date → List Byte
  | some d => beInt 2 d.year ++ be 1 d.month ++ be 1 d.day ++ be 1 (weekday d)
  | none => absentBytes 5

/-- The members of a list in a fixed number of places, the unused ones absent. -/
def places {α : Type} (size k : Nat) (bytes : α → List Byte) (l : List α) : List Byte :=
  ((l.take k).map bytes).flatten ++ absentBytes (size * (k - l.length))

/-! ## Record bytes, table by table -/

/-- R175: the identity table: vendor 71, part MT44, revision 1, the capacities of TABLE 0-3, and the ranges of
the Conventions: trim, tower time, civil offset, tempo, step duration, force, lamp level. -/
def identityBytes : List Byte :=
  be 1 71 ++ [0x4D, 0x54, 0x34, 0x34] ++ be 1 1
    ++ (be 1 16 ++ be 1 4 ++ be 1 12 ++ be 1 16 ++ be 1 96 ++ be 2 2048 ++ be 1 4 ++ be 1 128 ++ be 1 32 ++ be 1 4
      ++ be 1 62)
    ++ (beInt 2 (-500) ++ beInt 2 500 ++ be 4 0 ++ be 4 3155759999 ++ beInt 2 (-720) ++ beInt 2 840 ++ be 1 20
      ++ be 1 240 ++ be 1 1 ++ be 1 64 ++ be 1 1 ++ be 1 7 ++ be 2 0 ++ be 2 1000)

/-- TABLE 11-7. The detail takes three bytes, a shorter one filled with zeros behind it (log entry 18). -/
def faultBytes (m : Management) : List Byte :=
  (match m.faults with
    | none => be 1 0 ++ absentBytes 1 ++ absentBytes 3 ++ absentBytes 4 ++ be 1 0
    | some r => be 1 1 ++ be 1 r.kind.code ++ (r.detail ++ [0, 0, 0]).take 3 ++ instantBytes r.time ++ be 1 r.further)
    ++ be 1 (match m.partState with
      | .running => 0
      | .safe => 1)
    ++ counts [m.tally.trimLimit, m.tally.dialFault, m.tally.sensorSilent, m.tally.tableCheck, m.tally.tuneDepth,
        m.tally.lampFail, m.tally.feedLow]

/-- TABLE 1-9. The window is a named value, 0 for open and 1 for closed as the table lists them (log entry 44). -/
def timeStatusBytes (t : TimeScale) : List Byte :=
  be 1 t.state.code
    ++ (if t.state = .unset then absentBytes 8 else beInt 4 t.sec ++ be 4 t.acc.toNat)
    ++ beInt 2 t.trim
    ++ (match t.window with
      | some w => be 1 0 ++ beInt 4 w.opened ++ beInt 4 w.ticks
      | none => be 1 1 ++ absentBytes 8)
    ++ be 1 t.stepPending ++ beInt 2 t.currentOffset ++ instantBytes t.nextChange ++ dateBytes t.civilDate
    ++ instantBytes t.quarterMarker
    ++ counts [t.usedMarks, t.foreignMarks, t.refusedMarks, t.qualityOneMarks, t.skippedQuarters, t.steps]

/-- R14: a season entry, absent at or beyond the number of entries present; the base offset is record 16. -/
def seasonBytes (n : Nat) (t : TimeScale) : List Byte :=
  if n = 16 then absentBytes 4 ++ beInt 2 t.baseOffset
  else
    match t.seasons[n]? with
    | some s => beInt 4 s.instant ++ beInt 2 s.offset
    | none => absentBytes 6

/-- TABLE 2-1, the fields that a write sets, as a read gives them: positions P stand behind the step period. -/
def dialReadBytes (x : Dial) : List Byte :=
  (dialConfigBytes x.config).take 3 ++ be 2 x.positions ++ (dialConfigBytes x.config).drop 3

/-- TABLE 2-1, the live part, with the driver-wide count. -/
def dialLiveBytes (x : Dial) (held : Bool) (unmatched : Nat) : List Byte :=
  beOpt 2 x.indicated ++ be 1 x.state.code ++ [boolByte held, boolByte x.outstanding]
    ++ beOpt 2 x.target ++ counts [x.stepsSent, x.confirmations, x.slips, x.deferred] ++ be 2 x.searchCount
    ++ beInt 2 x.lastSlip ++ be 1 x.misses ++ be 2 unmatched

/-- TABLE 3-2: the live part of a bell record. The claim set travels as its four places, the CONSOLE one with its node (log
entry 18). -/
def bellLiveBytes (x : Bell) : List Byte :=
  be 1 x.position.code ++ tickBytes x.lastReport ++ tickBytes x.downBegan ++ [boolByte x.settled, boolByte x.intruded]
    ++ be 1 x.hammer.code
    ++ be 1 (match x.wanted with
      | none => 0
      | some a => a.code)
    ++ be 1 x.stateBefore.code ++ tickBytes x.hammerTimer ++ tickBytes x.lastTake
    ++ ([boolByte x.claims.ringers] ++ beOpt 1 x.claims.console ++ [boolByte x.claims.clock, boolByte x.claims.tune])
    ++ tickBytes x.consoleIdle ++ counts [x.strikesSent, x.strikesRefused, x.strikesDiscarded]

/-- A per-bell field of TABLE 4-1, one byte for each of bells 1 to 16, absent outside the set. -/
def perBell (s : Session) (f : SessionBell → Nat) : List Byte :=
  (oneTo 16).flatMap (fun b => beOpt 1 ((s.bells.find? (fun x => x.bell = b)).map f))

/-- TABLE 4-1: the stages of bells 1 to 16, then their jam marks. -/
def sessionBytes (s : Session) : List Byte :=
  be 1 s.state.code ++ bellSetBytes s.set ++ beOpt 1 s.requester ++ instantBytes s.began
    ++ perBell s (fun x => x.stage.code) ++ perBell s (fun x => x.jam.toNat)
    ++ (match s.outcome with
      | .noOutcome => be 1 0 ++ absentBytes 1
      | .closed => be 1 1 ++ absentBytes 1
      | .failed b => be 1 2 ++ be 1 b)
    ++ counts [s.opened, s.failed, s.closed]

/-- TABLE 6-2: a VALID frame. -/
def frameBytes (f : PhraseFrame) : List Byte :=
  be 1 0 ++ be 1 f.tune ++ be 2 f.start ++ be 2 f.length ++ be 2 f.cursor ++ be 1 f.repeats

/-- TABLE 6-2: an EMPTY frame; the other fields are absent. -/
def emptyFrameBytes : List Byte := be 1 1 ++ absentBytes 8

/-- R97: the four frames of a phrase stack, the bottom one first. -/
def stackBytes (l : List PhraseFrame) : List Byte :=
  ((l.reverse.take 4).map frameBytes ++ List.replicate (4 - l.length) emptyFrameBytes).flatten

/-- R103: a held strike in a voice record: its bell and deadline (log entry 18). -/
def heldBytes (h : HeldStrike) : List Byte := be 1 h.strike.bell ++ be 8 h.deadline

/-- TABLE 6-1: the fields of both voices behind the state. -/
def voiceBytes (x : Voice) : List Byte :=
  tickBytes x.start ++ beOpt 1 x.tempo ++ beOpt 3 x.pulse ++ be 4 x.pulses
    ++ (match x.declared with
      | some l => bellSetBytes l
      | none => absentBytes 2)
    ++ stackBytes x.stack ++ places 9 4 heldBytes x.held ++ bellSetBytes x.claimed

/-- TABLE 6-3: the counts of both voices. -/
def voiceCountBytes (c : VoiceCounts) : List Byte :=
  counts [c.admitted, c.undeclared, c.notOwner, c.notPermitted, c.refused, c.budgetSkip, c.held, c.late, c.displaced,
    c.callSkipped, c.abandoned]

def ClockState.code : ClockState → Nat
  | .idle => 0 | .chiming => 1 | .pausing => 2 | .striking => 3
def TuneState.code : TuneState → Nat
  | .idle => 0 | .playing => 1 | .stopping => 2

/-- The clock voice record: TABLE 6-1 and then TABLE 6-3, the tune voice's fields absent (log entry 18). OMIT_NEXT is 1
when it is set and 0 when it is clear: DESIGN CHOICE, log entry 91. -/
def clockBytes (c : ClockVoice) : List Byte :=
  be 1 c.state.code ++ voiceBytes c.voice
    ++ (match c.cachedSet with
      | some s => chimeBytes s
      | none => absentBytes 11)
    ++ (match c.quarter with
      | some (q, h) => be 1 q ++ be 1 h
      | none => absentBytes 2)
    ++ beOpt 1 c.blows ++ tickBytes c.nextBlow ++ [boolByte c.omitNext] ++ absentBytes 2
    ++ voiceCountBytes c.voice.counts
    ++ counts [c.sounded, c.overrun, c.omitted, c.quiet, c.safeQuarters, c.setFailures, c.withheld] ++ absentBytes 6

/-- The tune voice record: TABLE 6-1 and then TABLE 6-3, the clock voice's fields absent (log entry 18). -/
def tuneBytes (t : TuneVoice) : List Byte :=
  be 1 t.state.code ++ voiceBytes t.voice ++ absentBytes 23
    ++ (match t.inHand with
      | some (n, r) => be 1 n ++ be 1 r
      | none => absentBytes 2)
    ++ voiceCountBytes t.voice.counts ++ absentBytes 14 ++ counts [t.starts, t.startsRefused, t.stopped]

def LampState.code : LampState → Nat
  | .dark => 0 | .ramping => 1 | .lit => 2 | .clamped => 3 | .fault => 4

/-- TABLE 7-2, with the controller-wide counts. -/
def groupLiveBytes (x : LampGroup) (charge unmatched sceneFailures : Nat) : List Byte :=
  be 1 x.state.code ++ be 2 x.commanded ++ be 2 charge ++ be 2 x.target ++ be 2 x.fadeStart ++ be 2 x.fadeLength
    ++ be 2 x.elapsed ++ beOpt 2 x.clamp ++ beOpt 2 x.queued ++ beOpt 2 x.inFlight ++ beOpt 2 x.sent
    ++ beOpt 1 (x.failure.map lampStatusCode)
    ++ counts [x.levelsSent, x.clamps, x.reclaims, x.failures, x.deferredOffers, unmatched, sceneFailures]

/-- TABLE 8-2: an entry of the charge list. The holder takes three bytes: its kind, its number and the origin of a
strike, 0 for a dial and a group (log entry 18). -/
def chargeBytes (c : Charge) : List Byte :=
  (match c.holder with
    | .strike b o => be 1 0 ++ be 1 b ++ be 1 o.code
    | .dial d => be 1 1 ++ be 1 d ++ be 1 0
    | .group g => be 1 2 ++ be 1 g ++ be 1 0)
    ++ be 2 c.amount ++ be 8 c.grantedAt ++ tickBytes c.releaseAt

/-- The Feed Budget status, with the charge list (R135, TABLE 8-3). The order and the byte with the number of charges
are PRESUMED, log entry 86. -/
def budgetBytes (b : FeedBudget) : List Byte :=
  be 1 (stageCode b.stage) ++ be 3 b.committed ++ be 1 b.charges.length ++ places 21 80 chargeBytes b.charges
    ++ places 1 4 (be 1) b.waiting
    ++ (match b.restore with
      | some t => be 1 t.group ++ be 8 t.start
      | none => absentBytes 9)
    ++ counts [b.strikeGrants, b.dialGrants, b.strikeRefusals, b.dialRefusals, b.reclaims, b.restorations,
        b.ignoredReports, b.stageChanges]

/-- TABLE 9-2: the state for today and the last-decided date with its outcome, 1 for FIRED and 0 for SKIPPED (log
entry 71). -/
def decidedBytes (st : EntryState) (x : Option Decided) : List Byte :=
  be 1 st.code ++ dateBytes (x.map Decided.date)
    ++ (match x with
      | some y => [boolByte y.fired]
      | none => absentBytes 1)

/-- A sun mark (R150). -/
def markBytes (m : SunMark) : List Byte := instantBytes m.instant ++ decidedBytes m.state m.decided

/-- A due-list item: entries by their number, SUNRISE 128, SUNSET 129. -/
def dueBytes (x : DueItem) : List Byte :=
  be 1 (match x.kind with
    | .entry n => n
    | .sunrise => 128
    | .sunset => 129) ++ beInt 4 x.fire

/-- TABLE 9-6 and the rest of what the Calendar reads out, in an order that is PRESUMED, log entry 86. -/
def calendarStatusBytes (c : Calendar) : List Byte :=
  be 1 (setBits 0 c.classSet) ++ markBytes c.sunrise ++ markBytes c.sunset
    ++ be 1 c.quietChimes ++ be 1 c.quietStrike ++ be 1 c.quietTunes ++ beOpt 1 c.lastScene ++ [boolByte c.reapply]
    ++ counts [c.fired, c.firedLate, c.skipped, c.scheduleRefusals, c.checkFailures, c.reapplications]
    ++ (match c.lastRefusal with
      | some r =>
        (match r.source with
          | .entry n => be 1 0 ++ be 1 n
          | .link n => be 1 1 ++ be 1 n) ++ be 1 r.action ++ be 1 r.code.code
      | none => absentBytes 4)
    ++ places 5 130 dueBytes c.dueList

/-- The line errors of one port. -/
def errorBytes (c : PortCounts) : List Byte :=
  counts [c.errors, c.lengthErrors, c.shortErrors, c.longErrors, c.checkErrors, c.addressErrors]

/-- TABLE 10-9 row by row, a row of each port as console and then field; then the failed-entry set, the filled
places of each queue and the LOCAL run (R171; log entry 18). -/
def lineStatusBytes (l : LineSwitch) : List Byte :=
  errorBytes l.consolePort ++ errorBytes l.fieldPort
    ++ counts [l.consolePort.received, l.fieldPort.received, l.consolePort.routeDrops, l.fieldPort.routeDrops,
        l.malformed, l.undelivered, l.foreignRequests, l.passOverflow, l.upOverflow, l.droppedNotices, l.busyDrops,
        l.consolePort.transmitted, l.fieldPort.transmitted, l.discardedAtTake]
    ++ be 4 (setBits 0 (canonical 0 32 l.failedRoutes))
    ++ be 1 l.safetyQ.length ++ be 1 l.localQ.length ++ be 1 l.passQ.length ++ be 1 l.upQ.length ++ be 1 l.localRun

/-! ## Records -/

/-- The part of a record that a write sets, or the whole of a READ_ONLY record. -/
def writtenBytes (t : Table) (n : Nat) (p : Part) : List Byte :=
  match t with
  | .identity => identityBytes
  | .partConfig => be 1 p.mgmt.address ++ be 1 p.mgmt.noticeNode
  | .sources => sourceClassBytes (bankGet1 p.mgmt.sources n (stored sourceClassBytes SourceClass.noClass)).val
  | .faults => faultBytes p.mgmt
  | .timeConfig => timeConfigBytes p.time.trim p.time.windowSize p.time.delay
  | .timeStatus => timeStatusBytes p.time
  | .seasons => seasonBytes n p.time
  | .dials => dialConfigBytes (p.dial n).config
  | .bells => bellConfigBytes (p.bell n).config
  | .guardConfig => be 1 p.bellGuard.sensorTimeout
  | .session => sessionBytes p.session
  | .directory => dirBytes (bankGet p.store.directory n (stored dirBytes DirEntry.empty)).val
  | .steps => stepBytes (bankGet p.store.steps n (stored stepContents TuneStep.endStep)).val
  | .chimes => chimeBytes (bankGet p.store.chimes n (stored chimeBytes (ChimeSet.cold n))).val
  | .voices => if n = 0 then clockBytes p.clock else tuneBytes p.tune
  | .groups => lampConfigBytes (p.group n).config
  | .scenes => sceneBytes (bankGet p.lamps.scenes n (stored sceneBytes (Scene.cold n))).val
  | .limits => limitBytes p.budget.limits
  | .budgetStatus => budgetBytes p.budget
  | .dayClasses => dayClassBytes (p.dayClassRecord n).val
  | .sun => sunBytes (p.sunRecord n).val
  | .schedule => scheduleBytes (p.entry n).config.val
  | .links => linkBytes (p.link n).config.val
  | .calendarConfig => calendarConfigBytes p.cal.config
  | .calendarStatus => calendarStatusBytes p.cal
  | .routes => routeBytes (p.route n).val
  | .lineStatus => lineStatusBytes p.line

/-- The live part of a record, and the counts that are read with its table. -/
def liveBytes (t : Table) (n : Nat) (p : Part) : List Byte :=
  match t with
  | .dials => dialLiveBytes (p.dial n) (p.budget.dialHolds n) p.dialDriver.unmatched
  | .bells => bellLiveBytes (p.bell n)
  | .guardConfig =>
    counts [p.bellGuard.ignoredReports, p.bellGuard.unmatchedReports, p.bellGuard.unmatchedConsole]
  | .chimes => counts [p.store.inUseRefusals, p.store.checkFailures]
  | .groups => groupLiveBytes (p.group n) (p.budget.groupCharge n) p.lamps.unmatched p.lamps.sceneFailures
  | .schedule => decidedBytes (p.entry n).state (p.entry n).decided
  | .links => counts [(p.link n).refusals]
  | _ => []

/-- The bytes of a record as READ_RECORD gives them, whole. -/
def recordBytes (t : Table) (n : Nat) (p : Part) : List Byte :=
  (if t = .dials then dialReadBytes (p.dial n) else writtenBytes t n p) ++ liveBytes t n p

/-- The size of a record as it travels by cursor and in a write. -/
def recordSize (t : Table) (p : Part) : Nat := (writtenBytes t t.range.1 p).length

/-- A record is read by management with its check; the flag says that it holds (R86, R121, R157, R161, R173). -/
def checkRecord (t : Table) (n : Nat) (p : Part) : Part × Bool :=
  match t with
  | .sources => ((readSource n p).1, (readSource n p).2.isSome)
  | .directory => ((readDirectory n p).1, (readDirectory n p).2.isSome)
  | .steps => ((readStep n p).1, (readStep n p).2.isSome)
  | .chimes => ((readChimeSet n p).1, (readChimeSet n p).2.isSome)
  | .scenes => ((readScene n p).1, (readScene n p).2.isSome)
  | .dayClasses =>
    let r := readCal .dayClass dayClassBytes n (p.dayClassRecord n) p
    (r.1, r.2.isSome)
  | .sun =>
    let r := readCal .sun sunBytes n (p.sunRecord n) p
    (r.1, r.2.isSome)
  | .schedule =>
    let r := readCal .schedule scheduleBytes n (p.entry n).config p
    (r.1, r.2.isSome)
  | .links =>
    let r := readCal .links linkBytes n (p.link n).config p
    (r.1, r.2.isSome)
  | .routes => ((readRoute n p).1, !(readRoute n p).1.line.failedRoutes.contains n)
  | _ => (p, true)

/-! ## Writes of the Management Unit's own tables -/

/-- R173: some record of the source table is of class SERVICE. A record that fails its check, found before or not, is
NONE; looking through the table for this is no read that raises CONTROL_CHECK (log entry 63). -/
def someService (p : Part) : Bool :=
  (oneTo 62).any (fun n =>
    let r := bankGet1 p.mgmt.sources n (stored sourceClassBytes SourceClass.noClass)
    !p.mgmt.failedSources.contains n && checkHolds sourceClassBytes r && r.val = .service)

/-- R173: a write of a source record. -/
def writeSource (n : Nat) (bs : List Byte) (p : Part) : Part × Code :=
  if ¬ within 1 n 62 then (p, .badIndex)
  else
    match parseSourceClass bs with
    | none => (p, .badValue)
    | some c =>
      let q := { p with
        mgmt.sources := bankPut1 p.mgmt.sources n (stored sourceClassBytes c)
        mgmt.failedSources := p.mgmt.failedSources.filter (fun k => k ≠ n) }
      if someService q then (q, .ok) else (p, .inUse)

/-- R174: a write of the part configuration; the new address waits until the reply has been queued. A
record number other than 0 is outside the table (log entry 66). -/
def writePartConfig (n : Nat) (bs : List Byte) (p : Part) : Part × Code :=
  if n ≠ 0 then (p, .badIndex)
  else
    match parsePartConfig bs with
    | none => (p, .badValue)
    | some (a, m) => ({ p with mgmt.nextAddress := some a, mgmt.noticeNode := m }, .ok)

/-- R175: a record is handed to the block that owns the table. -/
def writeTable (t : Table) (n : Nat) (bs : List Byte) (p : Part) : Part × Code :=
  match t with
  | .partConfig => writePartConfig n bs p
  | .sources => writeSource n bs p
  | .timeConfig => writeTimeConfig n bs p
  | .dials => writeDial n bs p
  | .bells => writeBell n bs p
  | .guardConfig => writeGuardConfig n bs p
  | .directory => writeDirectory n bs p
  | .steps => writeStep n bs p
  | .chimes => writeChimeSet n bs p
  | .groups => writeGroup n bs p
  | .scenes => writeScene n bs p
  | .limits => writeLimits n bs p
  | .dayClasses => writeDayClass n bs p
  | .sun => writeSun n bs p
  | .schedule => writeSchedule n bs p
  | .links => writeLink n bs p
  | .calendarConfig => writeCalendarConfig n bs p
  | .routes => writeRoute n bs p
  | .identity | .faults | .timeStatus | .seasons | .session | .voices | .budgetStatus | .calendarStatus
  | .lineStatus => (p, .readOnly)

/-! ## The load cursor -/

/-- R177: the cursor's index lies in its table and its count is above 0. -/
def Cursor.stands (c : Cursor) : Bool :=
  0 < c.count && (c.table.range.1 : Int) ≤ c.index && c.index ≤ (c.table.range.2 : Int)

/-- R177: the cursor moves over one record. -/
def Cursor.next (c : Cursor) : Cursor :=
  { c with index := if c.forward then c.index + 1 else c.index - 1, count := c.count - 1 }

/-- R177: the cursor after a request; it closes at the count or past the table's end. -/
def Cursor.kept (c : Cursor) : Option Cursor := if c.stands then some c else none

/-- R177, R90: records are read from the cursor while they fit in one reply. -/
def readRecords : Nat → Cursor → List Byte → Part → Part × Cursor × List Byte × Code
  | 0, c, data, p => (p, c, data, .ok)
  | k + 1, c, data, p =>
    if ¬ c.stands ∨ Config.replyData < data.length + recordSize c.table p then (p, c, data, .ok)
    else
      let r := checkRecord c.table c.index.toNat p
      if r.2 then readRecords k c.next (data ++ writtenBytes c.table c.index.toNat r.1) r.1
      else (r.1, c, data, .checkFail)

/-- The first `k` records of `size` bytes. -/
def chunks (size : Nat) : Nat → List Byte → List (List Byte)
  | 0, _ => []
  | k + 1, bs => bs.take size :: chunks size k (bs.drop size)

/-- R177: the records of a WRITE_NEXT are written one at a time: the part, the cursor (none once it has
closed), the number accepted and the code. -/
def writeRecords : List (List Byte) → Cursor → Nat → Part → Part × Option Cursor × Nat × Code
  | [], c, n, p => (p, c.kept, n, .ok)
  | bs :: more, c, n, p =>
    if ¬ c.stands then (p, none, n, .badIndex)
    else
      let r := writeTable c.table c.index.toNat bs p
      if r.2 = .ok then writeRecords more c.next (n + 1) r.1 else (r.1, some c, n, r.2)

end Sys2Proof.Machine
end

