-- ==== Sys2Proof/Machine/Power.lean ====
section
/-! DEFINITION. The three resets (R181 to R183): what a warm power-on and a line reset leave in each block
(R22, R40, R62, R77, R93, R115, R132, R144, R158, R171, R183), and the start-up work that follows. -/

namespace Sys2Proof.Machine

/-- R22, step 1: the time state is UNSET, or tower time has passed the end of its range. -/
def TimeScale.spent (t : TimeScale) : Bool :=
  t.state = .unset || Config.lastSecond < t.sec + t.acc / Config.secondPhase

/-- R22, steps 1 and 2: the Time Scale at a warm start, before its events. -/
def TimeScale.restarted (t : TimeScale) : TimeScale :=
  let u := { TimeScale.cold with
    trim := t.trim, windowSize := t.windowSize, delay := t.delay, seasons := t.seasons, baseOffset := t.baseOffset,
    currentOffset := t.baseOffset }
  if t.spent then u
  else
    { u with
      state := .holdover, sec := t.sec + t.acc / Config.secondPhase, acc := t.acc % Config.secondPhase,
      quarterMarker := t.quarterMarker }

/-- R40: a dial at a warm start. -/
def Dial.restarted (x : Dial) : Dial :=
  { x with state := .stopped, target := none, outstanding := false, homeWatch := none, lastOffer := none,
           faultRaised := false }

/-- R158: a schedule entry at a warm start; its state waits for the first rebuild. -/
def ScheduleEntry.restarted (e : ScheduleEntry) : ScheduleEntry :=
  { e with state := if e.config.val.enabled then .notToday else .disabled }

/-- R158: the Calendar at a warm start. A link's refusal count is one of the Calendar counts set to 0 (log entry 77). -/
def Calendar.restarted (c : Calendar) : Calendar :=
  { Calendar.cold with
    dayClasses := c.dayClasses, sun := c.sun, schedule := c.schedule.map ScheduleEntry.restarted,
    links := c.links.map (fun (l : CueLink) => { l with refusals := 0 }), config := c.config,
    sunrise := { SunMark.cold with decided := c.sunrise.decided },
    sunset := { SunMark.cold with decided := c.sunset.decided },
    lastScene := c.lastScene, reapply := c.lastScene.isSome }

/-- R181, R183: every block as a warm start leaves it, before the start-up work. -/
def Part.restarted (p : Part) : Part :=
  { osc := p.osc, time := p.time.restarted,
    dialDriver := { dials := p.dialDriver.dials.map Dial.restarted, unmatched := 0 },
    bellGuard :=
      { bells := p.bellGuard.bells.map (fun x => Bell.started x.config p.osc),
        sensorTimeout := p.bellGuard.sensorTimeout, ignoredReports := 0, unmatchedReports := 0,
        unmatchedConsole := 0 },
    session := Session.started, store := { p.store with inUseRefusals := 0, checkFailures := 0 },
    clock := ClockVoice.started, tune := TuneVoice.started,
    lamps :=
      { groups := p.lamps.groups.map (fun x => LampGroup.started x.config), scenes := p.lamps.scenes,
        nextUpdate := p.osc + Config.lampBeat, unmatched := 0, sceneFailures := 0 },
    budget := FeedBudget.started p.budget.limits, cal := p.cal.restarted, line := LineSwitch.started p.line.routes,
    mgmt := Management.started p.mgmt.sources (p.mgmt.nextAddress.getD p.mgmt.address) p.mgmt.noticeNode,
    retention := { supply := true, mark := true, cellHeld := true } }

/-- R62: the Guard's start-up settings, in bell-number order. -/
def guardStarts (p : Part) : Part := bellNumbers.foldl startSetting p

/-- R22, steps 3 to 6: the Time Scale's events at a warm start. -/
def timeStarts (p : Part) : Part :=
  if p.unset then p
  else tellTimeState .unset .holdover (crossedQuarters (evaluateDate (recomputeOffset p)))

/-- R181, R182: a warm start: the retained tables and time, then the start-up work (R183). -/
def warmStart (p : Part) : Part := timeStarts (guardStarts p.restarted)

/-- R181: the kind of a power-on. -/
def powerOn (p : Part) : Part := if p.retention.mark ∧ p.retention.cellHeld then warmStart p else Part.cold

end Sys2Proof.Machine
end

