-- ==== Sys2Proof/Machine/ManagementCommands.lean ====
section
/-! DEFINITION. The commands of the Management Unit (Part 11): access by record and by cursor (R175 to R177),
ACK_FAULT (R179), RESET_PART (R182), and the power-ons (R181). -/

namespace Sys2Proof.Machine

/-! ## Records -/

/-- R175: READ_RECORD, after the checks of R172. An offset within a record of 30 bytes or fewer is answered from that byte
on (log entry 78). -/
def readOne (t : Table) (number offset : Nat) (p : Part) : Part × Code × List Byte :=
  if ¬ t.holds number then (p, .badIndex, [])
  else if (recordBytes t number p).length ≤ offset then (p, .badValue, [])
  else
    let r := checkRecord t number p
    if r.2 then (r.1, .ok, ((recordBytes t number r.1).drop offset).take Config.replyData) else (r.1, .checkFail, [])

/-- R172, R175: the work of a READ_RECORD. -/
def readWork (src table number offset : Nat) (cls : SourceClass) (p : Part) : Part :=
  match Table.ofCode table with
  | none => reply src 1 .badTable [] p
  | some t =>
    if !cls.atLeast .console then reply src 1 .notPermitted [] p
    else
      let r := readOne t number offset p
      reply src 1 r.2.1 r.2.2 r.1

/-- READ_RECORD (R175). -/
def execReadRecord (src table number offset : Nat) (s : State) : Host.Outcome State Fault Refusal :=
  act (serve (.readRecord src table number offset) src (readWork src table number offset)) s

/-- R172, checks 2 to 5, and R175: the work of a WRITE_RECORD. -/
def writeWork (src table number : Nat) (record : List Byte) (cls : SourceClass) (p : Part) : Part :=
  match Table.ofCode table with
  | none => reply src 2 .badTable [] p
  | some t =>
    match t.writeClass with
    | none => reply src 2 .readOnly [] p
    | some least =>
      if record.length ≠ recordSize t p then reply src 2 .badValue [] p
      else if !cls.atLeast least then reply src 2 .notPermitted [] p
      else
        let r := writeTable t number record p
        reply src 2 r.2 [] r.1

/-- WRITE_RECORD (R175). -/
def execWriteRecord (src table number : Nat) (record : List Byte) (s : State) :
    Host.Outcome State Fault Refusal :=
  act (serve (.writeRecord src table number record) src (writeWork src table number record)) s

/-! ## The cursor -/

/-- R176: OPEN_CURSOR, after the checks of R172. -/
def openCursor (src : Nat) (t : Table) (index direction count : Nat) (p : Part) : Part × Code :=
  if Config.replyData < recordSize t p then (p, .badTable)
  else if ¬ t.holds index then (p, .badIndex)
  else if (direction ≠ 1 ∧ direction ≠ 255) ∨ count = 0 then (p, .badValue)
  else
    let c : Cursor :=
      { table := t, index := index, forward := decide (direction = 1), count := count, opener := src }
    ({ p with mgmt.cursor := some c }, .ok)

/-- R172, R176: the work of an OPEN_CURSOR. -/
def cursorWork (src table index direction count : Nat) (cls : SourceClass) (p : Part) : Part :=
  match Table.ofCode table with
  | none => reply src 3 .badTable [] p
  | some t =>
    if !cls.atLeast .console then reply src 3 .notPermitted [] p
    else
      let r := openCursor src t index direction count p
      reply src 3 r.2 [] r.1

/-- OPEN_CURSOR (R176). -/
def execOpenCursor (src table index direction count : Nat) (s : State) : Host.Outcome State Fault Refusal :=
  act (serve (.openCursor src table index direction count) src (cursorWork src table index direction count)) s

/-- R177: the cursor that `src` may use. -/
def cursorFor (src : Nat) (p : Part) : Option Cursor := p.mgmt.cursor.filter (fun c => c.opener = src)

/-- R177, R90: the work of a READ_NEXT. -/
def readNextWork (src : Nat) (cls : SourceClass) (p : Part) : Part :=
  if !cls.atLeast .console then reply src 4 .notPermitted [] p
  else
    match cursorFor src p with
    | none => reply src 4 .noCursor [] p
    | some c =>
      let r := readRecords Config.replyData c [] p
      reply src 4 r.2.2.2 r.2.2.1 { r.1 with mgmt.cursor := r.2.1.kept }

/-- READ_NEXT (R177). -/
def execReadNext (src : Nat) (s : State) : Host.Outcome State Fault Refusal :=
  act (serve (.readNext src) src (readNextWork src)) s

/-- R177: a WRITE_NEXT whose table is known to be writable. -/
def writeNextRecords (src : Nat) (records : List Byte) (c : Cursor) (p : Part) : Part :=
  let size := recordSize c.table p
  if records.length % size ≠ 0 then reply src 5 .badValue [] p
  else
    let r := writeRecords (chunks size (records.length / size) records) c 0 p
    reply src 5 r.2.2.2 (be 1 r.2.2.1) { r.1 with mgmt.cursor := r.2.1 }

/-- R172, R177: the work of a WRITE_NEXT. The table of checks 4 and 5 is the open cursor's. -/
def writeNextWork (src : Nat) (records : List Byte) (cls : SourceClass) (p : Part) : Part :=
  match p.mgmt.cursor with
  | none =>
    if !cls.atLeast .console then reply src 5 .notPermitted [] p else reply src 5 .noCursor [] p
  | some c =>
    match c.table.writeClass with
    | none => reply src 5 .readOnly [] p
    | some least =>
      if !cls.atLeast least then reply src 5 .notPermitted [] p
      else if c.opener ≠ src then reply src 5 .noCursor [] p
      else writeNextRecords src records c p

/-- WRITE_NEXT (R177). -/
def execWriteNext (src : Nat) (records : List Byte) (s : State) : Host.Outcome State Fault Refusal :=
  act (serve (.writeNext src records) src (writeNextWork src records)) s

/-! ## Faults -/

/-- R179: the fault record is set CLEAR, and the part leaves SAFE if asked. -/
def acknowledge (leave : Bool) (p : Part) : Part :=
  let q := { p with mgmt.faults := none }
  if leave ∧ p.mgmt.partState = .safe then
    guardRunning (sendNotice .safeLeft [] { q with mgmt.partState := .running })
  else q

/-- R172, R179: the work of an ACK_FAULT. An operand that is neither set nor clear is judged after the class
(log entry 19). -/
def ackWork (src leave : Nat) (cls : SourceClass) (p : Part) : Part :=
  let answer (c : Code) (p : Part) : Part := reply src 40 c [] p
  if !cls.atLeast .operator ∨ (leave = 1 ∧ cls ≠ .service) then answer .notPermitted p
  else if 1 < leave then answer .badValue p
  else if p.mgmt.faults.isNone ∧ (p.mgmt.partState = .running ∨ leave = 0) then answer .wrongState p
  else answer .ok (acknowledge (leave = 1) p)

/-- ACK_FAULT (R179). -/
def execAckFault (src leave : Nat) (s : State) : Host.Outcome State Fault Refusal :=
  act (serve (.ackFault src leave) src (ackWork src leave)) s

/-! ## Resets -/

/-- R182: the work of a RESET_PART. -/
def resetWork (src : Nat) (cls : SourceClass) (p : Part) : Part :=
  if !cls.atLeast .service then reply src 41 .notPermitted [] p
  else offerReply (.resetReply (replyFrame src 41 .ok [] p)) { p with mgmt.resetting := true }

/-- RESET_PART (R182). -/
def execResetPart (src : Nat) (s : State) : Host.Outcome State Fault Refusal :=
  act (serve (.resetPart src) src (resetWork src)) s

/-- R182: the reply to RESET_PART completes, and a line reset follows. -/
def resetCompletionPart (p : Part) : Part :=
  match p.line.consoleFlight with
  | some (.resetReply _) => warmStart p
  | _ => p

/-- RESET_PART_REPLY_COMPLETION (R182). -/
def execResetPartReplyCompletion (s : State) : Host.Outcome State Fault Refusal :=
  act (powered resetCompletionPart) s

/-- SUPPLY_FAIL (R22, R181): the supply is cut; the retention store runs on the cell. -/
def execSupplyFail (s : State) : Host.Outcome State Fault Refusal :=
  act (fun p => { p with retention.supply := false }) s

/-- COLD_POWER_ON (R181): every block at its cold values. -/
def execColdPowerOn (s : State) : Host.Outcome State Fault Refusal := act (fun _ => Part.cold) s

/-- WARM_POWER_ON (R181): warm if the mark is intact and the cell held, else cold. -/
def execWarmPowerOn (s : State) : Host.Outcome State Fault Refusal := act powerOn s

/-- BACKUP_CELL_LOW (R181): during a cut the cell falls below 2.2 V and the store is not held. While the supply is present
it changes nothing (log entry 79). -/
def execBackupCellLow (s : State) : Host.Outcome State Fault Refusal :=
  act (fun p => if p.retention.supply then p else { p with retention.cellHeld := false }) s

end Sys2Proof.Machine
end

