-- ==== Sys2Proof/Machine/TimeCommands.lean ====
section
/-! DEFINITION. The commands of the Time Scale (Part 1). -/

namespace Sys2Proof.Machine

/-- R1: tower time counts while the supply or the backup cell keeps it (R22). -/
def tickPart (p : Part) : Part :=
  { p with
    osc := p.osc + 1
    time := if p.retention.supply ∨ p.retention.cellHeld then p.time.addTick else p.time }

/-- OSCILLATOR_TICK (R1). -/
def execOscillatorTick (s : State) : Host.Outcome State Fault Refusal := act tickPart s

/-- SECOND_BOUNDARY (R1). -/
def execSecondBoundary (s : State) : Host.Outcome State Fault Refusal := act (powered secondPart) s

/-- SILENCE_TIMEOUT (R11). -/
def execSilenceTimeout (s : State) : Host.Outcome State Fault Refusal := act (powered silenceReached) s

/-- TIME_MARK (R5): the Time Scale takes the delivered mark. -/
def execTimeMark (src year month day second quality : Nat) (s : State) : Host.Outcome State Fault Refusal :=
  act (powered (takeMark src year month day second quality)) s

/-- SET_TIME (R12). -/
def execSetTime (src year month day second : Nat) (s : State) : Host.Outcome State Fault Refusal :=
  act (serveSimple (.setTime src year month day second) src .operator (setTime year month day second)) s

/-- SEASON_ADD (R14). -/
def execSeasonAdd (src instant : Nat) (offset : Int) (s : State) : Host.Outcome State Fault Refusal :=
  act (serveSimple (.seasonAdd src instant offset) src .operator (seasonAdd instant offset)) s

/-- SEASON_REMOVE (R14). -/
def execSeasonRemove (src instant : Nat) (s : State) : Host.Outcome State Fault Refusal :=
  act (serveSimple (.seasonRemove src instant) src .operator (seasonRemove instant)) s

/-- SEASON_BASE (R15). -/
def execSeasonBase (src : Nat) (offset : Int) (s : State) : Host.Outcome State Fault Refusal :=
  act (serveSimple (.seasonBase src offset) src .operator (seasonBase offset)) s

end Sys2Proof.Machine
end

