-- ==== Sys2Proof/Machine/VoiceCommands.lean ====
section
/-! DEFINITION. The commands of the Voices (Part 6). -/

namespace Sys2Proof.Machine

/-- R96: the due instant of a voice has been reached. -/
def Part.voiceDue (p : Part) (v : VoiceId) : Bool := (p.voice v).due.any (fun t => t ≤ p.osc)

/-- R98: a voice at its due instant. -/
def duePart (v : VoiceId) (p : Part) : Part :=
  if !p.voiceDue v then p
  else
    match v with
    | .clock => if p.clock.state = .chiming then playVoice .clock p else p
    | .tune => tuneDue p

/-- VOICE_DUE_INSTANT (R98). -/
def execVoiceDueInstant (v : VoiceId) (s : State) : Host.Outcome State Fault Refusal := act (powered (duePart v)) s

/-- HELD_STRIKE_DEADLINE (R104). -/
def execHeldStrikeDeadline (v : VoiceId) (s : State) : Host.Outcome State Fault Refusal := act (powered (dropLate v)) s

/-- R108: the next blow instant has been reached in PAUSING or STRIKING. -/
def hourBlowPart (p : Part) : Part :=
  if p.clock.state = .pausing ∨ p.clock.state = .striking then
    match p.clock.nextBlow, p.clock.cachedSet with
    | some t, some c => if t ≤ p.osc then blow t c p else p
    | _, _ => p
  else p

/-- HOUR_BLOW (R108). -/
def execHourBlow (s : State) : Host.Outcome State Fault Refusal := act (powered hourBlowPart) s

/-- OMIT_NEXT (R110). -/
def execOmitNext (src : Nat) (s : State) : Host.Outcome State Fault Refusal :=
  act (serveSimple (.omitNext src) src .console (fun p => ({ p with clock.omitNext := true }, .ok))) s

/-- START_TUNE (R111). -/
def execStartTune (src tune repeats : Nat) (s : State) : Host.Outcome State Fault Refusal :=
  act (serveSimple (.startTune src tune repeats) src .console (startTune tune repeats)) s

/-- STOP_TUNE (R112). -/
def execStopTune (src : Nat) (s : State) : Host.Outcome State Fault Refusal :=
  act (serveSimple (.stopTune src) src .console stopTune) s

end Sys2Proof.Machine
end

