-- ==== Sys2Proof/Machine/Dispatch.lean ====
section
/-! DEFINITION. One arm for each command of spec/opcode_table.json, each a call of that command's meaning. -/

namespace Sys2Proof.Machine

def exec (i : Instr) (s : State) : Host.Outcome State Fault Refusal :=
  match i with
  | .oscillatorTick => Sys2Proof.Machine.execOscillatorTick s
  | .secondBoundary => Sys2Proof.Machine.execSecondBoundary s
  | .silenceTimeout => Sys2Proof.Machine.execSilenceTimeout s
  | .timeMark src year month day second quality => Sys2Proof.Machine.execTimeMark src year month day second quality s
  | .setTime src year month day second => Sys2Proof.Machine.execSetTime src year month day second s
  | .seasonAdd src instant offset => Sys2Proof.Machine.execSeasonAdd src instant offset s
  | .seasonRemove src instant => Sys2Proof.Machine.execSeasonRemove src instant s
  | .seasonBase src offset => Sys2Proof.Machine.execSeasonBase src offset s
  | .readRecord src table number offset => Sys2Proof.Machine.execReadRecord src table number offset s
  | .writeRecord src table number record => Sys2Proof.Machine.execWriteRecord src table number record s
  | .openCursor src table index direction count => Sys2Proof.Machine.execOpenCursor src table index direction count s
  | .readNext src => Sys2Proof.Machine.execReadNext src s
  | .writeNext src records => Sys2Proof.Machine.execWriteNext src records s
  | .dialFastInstant dial => Sys2Proof.Machine.execDialFastInstant dial s
  | .dialStepCompletion => Sys2Proof.Machine.execDialStepCompletion s
  | .dialHome src channel => Sys2Proof.Machine.execDialHome src channel s
  | .setDial src dial position => Sys2Proof.Machine.execSetDial src dial position s
  | .bellState src bell position => Sys2Proof.Machine.execBellState src bell position s
  | .settleTimeReached bell => Sys2Proof.Machine.execSettleTimeReached bell s
  | .sensorTimeout bell => Sys2Proof.Machine.execSensorTimeout bell s
  | .hammerReport src channel answer => Sys2Proof.Machine.execHammerReport src channel answer s
  | .hammerTimeout bell => Sys2Proof.Machine.execHammerTimeout bell s
  | .claimBells src bells => Sys2Proof.Machine.execClaimBells src bells s
  | .releaseBells src bells => Sys2Proof.Machine.execReleaseBells src bells s
  | .consoleIdleTimeout bell => Sys2Proof.Machine.execConsoleIdleTimeout bell s
  | .fieldArbiterTake => Sys2Proof.Machine.execFieldArbiterTake s
  | .hammerSetCompletion => Sys2Proof.Machine.execHammerSetCompletion s
  | .lampLevelCompletion => Sys2Proof.Machine.execLampLevelCompletion s
  | .ringRequest src bells => Sys2Proof.Machine.execRingRequest src bells s
  | .ringRelease src => Sys2Proof.Machine.execRingRelease src s
  | .voiceDueInstant voice => Sys2Proof.Machine.execVoiceDueInstant voice s
  | .heldStrikeDeadline voice => Sys2Proof.Machine.execHeldStrikeDeadline voice s
  | .hourBlow => Sys2Proof.Machine.execHourBlow s
  | .omitNext src => Sys2Proof.Machine.execOmitNext src s
  | .startTune src tune repeats => Sys2Proof.Machine.execStartTune src tune repeats s
  | .stopTune src => Sys2Proof.Machine.execStopTune src s
  | .lampUpdate => Sys2Proof.Machine.execLampUpdate s
  | .applyScene src scene => Sys2Proof.Machine.execApplyScene src scene s
  | .lampReport src channel status => Sys2Proof.Machine.execLampReport src channel status s
  | .feedState src stage => Sys2Proof.Machine.execFeedState src stage s
  | .strikeChargeRelease => Sys2Proof.Machine.execStrikeChargeRelease s
  | .restoreTimerExpiry => Sys2Proof.Machine.execRestoreTimerExpiry s
  | .scheduleFire => Sys2Proof.Machine.execScheduleFire s
  | .cueSourceEvent => Sys2Proof.Machine.execCueSourceEvent s
  | .frameReceived port bytes => Sys2Proof.Machine.execFrameReceived port bytes s
  | .consoleTransmitTake => Sys2Proof.Machine.execConsoleTransmitTake s
  | .resetPartReplyCompletion => Sys2Proof.Machine.execResetPartReplyCompletion s
  | .ackFault src leave => Sys2Proof.Machine.execAckFault src leave s
  | .resetPart src => Sys2Proof.Machine.execResetPart src s
  | .supplyFail => Sys2Proof.Machine.execSupplyFail s
  | .coldPowerOn => Sys2Proof.Machine.execColdPowerOn s
  | .warmPowerOn => Sys2Proof.Machine.execWarmPowerOn s
  | .fieldFrameCompletion => Sys2Proof.Machine.execFieldFrameCompletion s
  | .consoleFrameCompletion => Sys2Proof.Machine.execConsoleFrameCompletion s
  | .receiverIdleGap port => Sys2Proof.Machine.execReceiverIdleGap port s
  | .backupCellLow => Sys2Proof.Machine.execBackupCellLow s

end Sys2Proof.Machine
end

