-- ==== Sys2Proof/Safety.lean ====
section
/-! DEFINITION. What counts as a sound part, in the terms that claims use: the invariants that every command
keeps (queues, the Time Scale), what may be in flight on the field port, and when the Management Unit hears a
request and how its answer reads; what a move of tower time, a fade, a cursor and a damaged record lead to; and which
pieces of the part a command may touch. -/

namespace Sys2Proof.Machine

/-! ## Requests and answers -/

/-- The node that a management request comes from; 0 for the other commands. -/
def sourceOf : Instr → Nat
  | .setTime src .. | .seasonAdd src .. | .seasonRemove src .. | .seasonBase src .. | .readRecord src ..
  | .writeRecord src .. | .openCursor src .. | .readNext src | .writeNext src .. | .setDial src ..
  | .claimBells src .. | .releaseBells src .. | .ringRequest src .. | .ringRelease src | .omitNext src
  | .startTune src .. | .stopTune src | .applyScene src .. | .ackFault src .. | .resetPart src => src
  | _ => 0

/-- A command is a management request: it has an operation code of TABLE 11-3. -/
def isRequest (i : Instr) : Bool := operationOf i ≠ 0

/-- The Management Unit is free for a request: none is in hand, no reply waits, no reset is due, no new address
waits, and UP has a place for a reply (R172, R167, R174, R182). -/
def Part.free (p : Part) : Bool :=
  p.retention.supply && p.mgmt.inHand.isNone && p.mgmt.replyWaiting.isNone && !p.mgmt.resetting
    && p.mgmt.nextAddress.isNone && decide (p.line.upQ.length < 16)

/-- The source table gives a node a class: the record passes its check, and has not failed it before (R173). -/
def Part.classIs (p : Part) (src : Nat) (cls : SourceClass) : Bool :=
  decide (1 ≤ src ∧ src ≤ 62) && !p.mgmt.failedSources.contains src
    && bankGet1 p.mgmt.sources src (stored sourceClassBytes .noClass) = stored sourceClassBytes cls

/-- The Management Unit hears a request from a node of a class. -/
def Part.hears (p : Part) (src : Nat) (cls : SourceClass) : Bool := p.free && p.classIs src cls

/-- TABLE 11-3: the least class that may ask an operation. WRITE_RECORD and WRITE_NEXT take theirs from TABLE 11-5,
which no source below CONSOLE meets; ACK_FAULT with its operand set asks SERVICE (R179). -/
def leastOf : Instr → SourceClass
  | .setTime .. | .seasonAdd .. | .seasonRemove .. | .seasonBase .. => .operator
  | .ackFault _ leave => if leave = 1 then .service else .operator
  | .setDial .. | .resetPart .. => .service
  | _ => .console

/-- The MGMT_REPLY of an operation: the code echoed, the completion code and the data (R172, TABLE 10-2). -/
def replyTo (address src operation : Nat) (code : Code) (data : List Byte) : UpItem :=
  .reply { dest := src, src := address, kind := 71, payload := byte operation :: byte code.code :: data }

/-- The part with the reply to a request at the back of UP. -/
def Part.answered (p : Part) (src operation : Nat) (code : Code) (data : List Byte) : Part :=
  { p with line.upQ := p.line.upQ ++ [replyTo p.mgmt.address src operation code data] }

/-- The part has given a reply: it stands in UP, or waits in the Management Unit (R167). -/
def Part.gave (p : Part) (r : UpItem) : Prop := r ∈ p.line.upQ ∨ p.mgmt.replyWaiting = some r

/-- The NOTICE of a kind, with its tower time and detail (R180, TABLE 10-2). -/
def Part.noticeOf (p : Part) (kind : NoticeKind) (time : Option Int) (detail : List Byte) : UpItem :=
  .notice { dest := p.mgmt.noticeNode, src := p.mgmt.address, kind := 72,
            payload := byte kind.code :: ((match time with
              | some t => be 4 t.toNat
              | none => absentBytes 4) ++ detail) }

/-- The fault record after a MAJOR fault: RAISED afresh, or one further (R178). -/
def Part.recordedFault (p : Part) (kind : FaultKind) (detail : List Byte) : FaultRecord :=
  match p.mgmt.faults with
  | none => { kind := kind, detail := detail, time := p.towerTime, further := 0 }
  | some r => { r with further := min (r.further + 1) 255 }

/-! ## Queues -/

/-- The pair of dimmer node and channel field of a waiting LAMP_LEVEL (R165). -/
def LocalItem.channel : LocalItem → Option (Nat × Option Byte)
  | .lampLevel _ _ f => some (f.dest, f.payload.head?)
  | _ => none

/-- R164: SAFETY holds at most 8 frames with at most one per bell, LOCAL at most 24 with at most one LAMP_LEVEL
per channel, PASS at most 16 and UP at most 16. -/
def LineSwitch.fits (l : LineSwitch) : Prop :=
  l.safetyQ.length ≤ 8 ∧ (l.safetyQ.map Setting.bell).Nodup ∧ l.localQ.length ≤ 24
    ∧ (l.localQ.filterMap LocalItem.channel).Nodup ∧ l.passQ.length ≤ 16 ∧ l.upQ.length ≤ 16

/-! ## The Time Scale -/

/-- The season list is in strictly increasing order of instant (R14). -/
def seasonsRise (l : List Season) : Prop := l.Pairwise (fun a b => a.instant < b.instant)

/-- A civil offset: −720 to +840 minutes in steps of 15 (TABLE 0-3's Conventions, R14, R15). -/
def legalOffset (o : Int) : Prop := -720 ≤ o ∧ o ≤ 840 ∧ o % 15 = 0

/-- The Time Scale within its ranges: the trim and the time configuration (R3, R4), the second count and the
accumulator, the step-pending count and the counts (TABLE 1-9), the season list and the offsets (R14, R15), and no time
held while UNSET (R1, R2, R21). -/
structure TimeScale.Legal (t : TimeScale) : Prop where
  trim : -500 ≤ t.trim ∧ t.trim ≤ 500
  window : t.windowSize = 16 ∨ t.windowSize = 64 ∨ t.windowSize = 256 ∨ t.windowSize = 1024
  delay : t.delay ≤ 20
  sec : 0 ≤ t.sec ∧ t.sec ≤ 3155759999
  acc : 0 ≤ t.acc
  pending : t.stepPending ≤ 2
  counts : t.usedMarks ≤ 65535 ∧ t.foreignMarks ≤ 65535 ∧ t.refusedMarks ≤ 65535 ∧ t.qualityOneMarks ≤ 65535
    ∧ t.skippedQuarters ≤ 65535 ∧ t.steps ≤ 65535
  seasons : t.seasons.length ≤ 16 ∧ seasonsRise t.seasons
  instants : ∀ s ∈ t.seasons, 0 ≤ s.instant ∧ s.instant ≤ 3155759999 ∧ s.instant % 60 = 0 ∧ legalOffset s.offset
  offsets : legalOffset t.baseOffset ∧ legalOffset t.currentOffset
  unset : t.state = .unset → t.acc = 0 ∧ t.window = none ∧ t.silence = none ∧ t.civilDate = none
    ∧ t.quarterMarker = none ∧ t.nextChange = none ∧ t.currentOffset = t.baseOffset

/-- What a TIME_MARK of a node is taken with (R4, R5, R163): a copy that waits brings its class, its arrival instant,
`age` ticks back, and the line delay compensation `dl` of then; a mark delivered now has the class that the source table
gives and the present compensation (log entry 5). -/
def Part.markFrom (p : Part) (src y m d s k : Nat) (cls : SourceClass) (age dl : Nat) : Prop :=
  (p.copyOf (.timeMark src y m d s k) = none ∧ p.classIs src cls = true ∧ age = 0 ∧ dl = p.time.delay)
    ∨ ∃ x : Delivery, p.copyOf (.timeMark src y m d s k) = some x ∧ x.cls = some cls ∧ x.arrival + age = p.osc
        ∧ x.delay = dl

/-- R133, R134, R163: the monitor node that governs a FEED_STATE of a node: that of the reception of the copy that waits,
or the present one where the report is delivered now (log entry 5). -/
def Part.feedFrom (p : Part) (src : Nat) (st : Stage) (monitor : Option Nat) : Prop :=
  (p.copyOf (.feedState src st) = none ∧ monitor = p.budget.limits.monitor)
    ∨ ∃ x : Delivery, p.copyOf (.feedState src st) = some x ∧ x.monitor = monitor

/-- R34: the first dial record with a node and channel, or `none` where no record has them. -/
def Part.firstDial (p : Part) (node channel : Nat) : Option Nat → Prop
  | none => ∀ d, 1 ≤ d → d ≤ 4 → ¬ ((p.dial d).config.node = node ∧ (p.dial d).config.channel = channel)
  | some d => 1 ≤ d ∧ d ≤ 4 ∧ (p.dial d).config.node = node ∧ (p.dial d).config.channel = channel
      ∧ ∀ e, 1 ≤ e → e < d → ¬ ((p.dial e).config.node = node ∧ (p.dial e).config.channel = channel)

/-- R23, R34, R163: the dial that a DIAL_HOME belongs to: the one matched at the reception of the copy that waits, or the
one that matches where the report is delivered now (log entry 5). -/
def Part.homeFrom (p : Part) (src channel : Nat) (matched : Option Nat) : Prop :=
  (p.copyOf (.dialHome src channel) = none ∧ p.firstDial src channel matched)
    ∨ ∃ x : Delivery, p.copyOf (.dialHome src channel) = some x ∧ x.dial = matched

/-! ## Claims -/

/-- R53: the claim of a class on bell b is active. -/
def Part.claimActive (p : Part) (b : Nat) : ClaimClass → Bool
  | .ringers => p.ringersActive b
  | .console => (p.bell b).claims.console.isSome
  | .clock => (p.bell b).claims.clock
  | .tune => (p.bell b).claims.tune

/-- Section 3.4: RINGERS ranks above CONSOLE, CONSOLE above CLOCK, CLOCK above TUNE. -/
def ClaimClass.rank : ClaimClass → Nat
  | .ringers => 4
  | .console => 3
  | .clock => 2
  | .tune => 1

/-! ## The voices -/

/-- A voice is sounding a tune or a chime, and its top frame has a step left. -/
def Part.playing (p : Part) (v : VoiceId) (f : PhraseFrame) (rest : List PhraseFrame) : Prop :=
  (match v with
    | .clock => p.clock.state = .chiming
    | .tune => p.tune.state = .playing) ∧ (p.voice v).stack = f :: rest ∧ f.cursor < f.length

/-- Step n of the Tune Store is stored as `c` and passes its check (R82, R86). -/
def Part.stepIs (p : Part) (n : Nat) (c : TuneStep) : Prop :=
  bankGet p.store.steps n (stored stepContents .endStep) = stored stepContents c

/-- The top frame has reached the end of its extent, by its cursor or by an END step (R100). -/
def Part.frameOver (p : Part) (f : PhraseFrame) : Prop :=
  f.length ≤ f.cursor ∨ (f.cursor < f.length ∧ p.stepIs (f.start + f.cursor) .endStep)

/-- The tune of a voice is over. The tune voice is IDLE without claims and TUNE_END goes to the cue links (R113); the
clock voice pauses where a strike follows, with its blows to come and its claims kept (log entry 75), and else ends its
quarter (R107, R109). -/
def Part.tuneOver (p q : Part) (v : VoiceId) (reason : EndReason) : Prop :=
  (q.voice v).stack = [] ∧ (q.voice v).held = [] ∧ match v with
    | .tune => q.tune.state = .idle ∧ q.tune.inHand = none ∧ q.tune.voice.claimed = []
      ∧ (∀ b ∈ p.tune.voice.claimed, (q.bell b).claims.tune = false)
      ∧ (p.time.state ≠ .unset → ∀ t k, p.tune.inHand = some (t, k) →
          q.cal.events = p.cal.events ++ [.tuneEnd t reason])
    | .clock =>
      (p.clock.strikeFollows = true → q.clock.state = .pausing ∧ q.clock.voice.claimed = p.clock.voice.claimed
        ∧ (∀ k h, p.clock.quarter = some (k, h) → q.clock.blows = some (if h % 12 = 0 then 12 else h % 12))
        ∧ ∀ c, p.clock.cachedSet = some c → q.clock.nextBlow = some (p.osc + msTicks c.pause))
      ∧ (p.clock.strikeFollows = false → q.clock.state = .idle ∧ q.clock.quarter = none ∧ q.clock.blows = none
        ∧ q.clock.nextBlow = none ∧ q.clock.cachedSet = p.clock.cachedSet ∧ q.clock.voice.claimed = []
        ∧ ∀ b ∈ p.clock.voice.claimed, (q.bell b).claims.clock = false)

/-! ## The Feed Budget and the session -/

/-- R135, R140: the charge list holds at most 80 entries, at most one for each lamp group and for each dial; a dial
holds its drive charge only while it runs fast or searches, and waits for it only while it holds none. A group stands in
the list only with an amount above 0. R119, R117: the charge of a group is that of its commanded level, and a group that
is not configured stands dark and unclamped. R38: no dial runs while the time state is UNSET. -/
structure Part.BudgetSound (p : Part) : Prop where
  room : p.budget.charges.length ≤ 80
  once : (p.budget.charges.filterMap (fun c => match c.holder with
    | .strike _ _ => none
    | h => some h)).Nodup
  groups : ∀ g, 1 ≤ g → g ≤ 12 → p.budget.groupCharge g = ((p.group g).config.rated * (p.group g).commanded + 999) / 1000
  dark : ∀ g, 1 ≤ g → g ≤ 12 → (p.group g).config.node = none → (p.group g).commanded = 0 ∧ (p.group g).clamp = none
  known : ∀ c ∈ p.budget.charges, ∀ g, c.holder = .group g → 1 ≤ g ∧ g ≤ 12
  lit : ∀ c ∈ p.budget.charges, ∀ g, c.holder = .group g → 0 < c.amount
  priorities : ∀ g, 1 ≤ g → g ≤ 12 → (p.group g).config.priority ≤ 3
  waiting : p.budget.waiting.Nodup ∧ ∀ d ∈ p.budget.waiting, 1 ≤ d ∧ d ≤ 4 ∧ p.budget.dialHolds d = false
    ∧ ((p.dial d).state = .waitingFeed ∨ (p.dial d).state = .unknown)
  dials : ∀ d, 1 ≤ d → d ≤ 4 → p.budget.dialHolds d = true → (p.dial d).state = .advancing ∨ (p.dial d).state = .unknown
  stopped : p.time.state = .unset → ∀ d, 1 ≤ d → d ≤ 4 → (p.dial d).state = .stopped

/-- R63, R66, R73: the session record agrees with the claims. IDLE has no bell; a bell holds a RINGERS claim exactly
while the session has it at a stage other than LEFT; in PREPARING a bell is HELD exactly while its claim is active, and
not all are; in OPEN all are HELD; in CLOSING each is HELD or LEFT, and not all are LEFT. -/
structure Part.SessionSound (p : Part) : Prop where
  idle : p.session.state = .idle ↔ p.session.bells = []
  numbers : (p.session.bells.map SessionBell.bell).Nodup ∧ ∀ y ∈ p.session.bells, 1 ≤ y.bell ∧ y.bell ≤ 16
  claims : ∀ b, 1 ≤ b → b ≤ 16 →
    ((p.bell b).claims.ringers = true ↔ ∃ y ∈ p.session.bells, y.bell = b ∧ y.stage ≠ .left)
  preparing : p.session.state = .preparing →
    (∀ y ∈ p.session.bells, y.stage = (if (p.bell y.bell).hammer = .withdrawn then .held else .withdrawing))
      ∧ ∃ y ∈ p.session.bells, y.stage = .withdrawing
  opened : p.session.state = .opened → ∀ y ∈ p.session.bells, y.stage = .held
  closing : p.session.state = .closing →
    (∀ y ∈ p.session.bells, y.stage = .held ∨ y.stage = .left) ∧ ∃ y ∈ p.session.bells, y.stage = .held

/-! ## The Calendar -/

/-- Every record of the four Calendar tables passes its check, and none has failed it before (R157). -/
def Part.calSound (p : Part) : Prop :=
  p.cal.failed = [] ∧ (∀ n, n < 64 → checkHolds dayClassBytes (p.dayClassRecord n) = true)
    ∧ (∀ n, n < 73 → checkHolds sunBytes (p.sunRecord n) = true)
    ∧ (∀ n, n < 128 → checkHolds scheduleBytes (p.entry n).config = true)
    ∧ ∀ n, n < 32 → checkHolds linkBytes (p.link n).config = true

/-- R150: where an item stands among those of one instant: entries by index, then the sun marks. -/
def DueKind.place : DueKind → Nat
  | .entry n => n
  | .sunrise => 128
  | .sunset => 129

/-- R151, step 1: the outcome recorded on the date `d` or later, and ARMED without one. -/
def outcomeOn (x : Option Decided) (d : Date) : EntryState :=
  match x with
  | none => .armed
  | some y => if dayNumber y.date < dayNumber d then .armed else if y.fired then .fired else .skipped

/-- R149: an enabled entry applies on the date `d`, whose sun instants are `sun`, with today's class set. -/
def ScheduleConfig.appliesOn (c : ScheduleConfig) (d : Date) (classes : List Nat) (sun : Option (Int × Int)) : Prop :=
  weekday d ∈ c.weekdays ∧ (c.required = [] ∨ ∃ f ∈ c.required, f ∈ classes) ∧ (∀ f ∈ c.excluded, f ∉ classes)
    ∧ (c.base = .civil ∨ sun ≠ none)

/-- R149, R151: an entry's state for today before passed items are handled. -/
def ScheduleConfig.stateOn (c : ScheduleConfig) (decided : Option Decided) (d : Date) (classes : List Nat)
    (sun : Option (Int × Int)) (st : EntryState) : Prop :=
  (c.enabled = false → st = .disabled)
    ∧ (c.enabled = true → ¬ c.appliesOn d classes sun → st = .notToday)
    ∧ (c.enabled = true → c.appliesOn d classes sun → st = outcomeOn decided d)

/-- R149: the fire instant of an entry on the date `d`, under an offset history and the day's sun instants. -/
def ScheduleConfig.fireOn (c : ScheduleConfig) (d : Date) (h : OffsetHistory) (sun : Option (Int × Int)) (t : Int) :
    Prop :=
  (c.base = .civil → t = civilFire h (86400 * dayNumber d + 60 * c.minute))
    ∧ (∀ a b, sun = some (a, b) → c.base = .sunrise → t = a + 60 * c.minute)
    ∧ ∀ a b, sun = some (a, b) → c.base = .sunset → t = b + 60 * c.minute

/-- R156: a source event is one that a link's source names. -/
def CueEvent.cues (e : CueEvent) : CueSource → Prop
  | .quarter q => ∃ x h late, e = .quarter x h late ∧ (q = none ∨ q = some x)
  | .hour h => ∃ x late, e = .quarter 4 x late ∧ (h = none ∨ h = some x)
  | .sunrise => e = .sunrise
  | .sunset => e = .sunset
  | .entry n => e = .entry n
  | .sessionOpen => e = .sessionOpen
  | .sessionClosed => e = .sessionClosed
  | .tuneEnd t r => ∃ x y, e = .tuneEnd x y ∧ (t = none ∨ t = some x) ∧ (r = none ∨ r = some y)
  | .feedStage s => e = .feedStage s
  | .faultMajor => e = .faultMajor

/-! ## Records written -/

/-- WRITE_RECORD of a record of the table with a code of TABLE 11-5 is answered with a completion code, and but for the
reply the part is `q` (R172, R175). -/
def Part.writes (p : Part) (src table n : Nat) (record : List Byte) (q : Part) (code : Code) : Prop :=
  ∀ w : List Instr, exec (.writeRecord src table n record) ⟨p, w⟩ = .next ⟨q.answered src 2 code [], w⟩

/-- A field from 1 to `hi`, or absent. -/
def absentOr (hi : Nat) (x : Option Nat) : Prop := ∀ v, x = some v → 1 ≤ v ∧ v ≤ hi

/-- TABLE 2-1, R23: a dial record's configuration is in range. -/
def DialConfig.Legal (c : DialConfig) : Prop :=
  1 ≤ c.node ∧ c.node ≤ 62 ∧ 1 ≤ c.channel ∧ c.channel ≤ 4 ∧ 4 ≤ c.fastRate ∧ c.fastRate ≤ 30 ∧ c.driveCharge ≤ 200
    ∧ (c.stepPeriod = 30 ∧ c.holdLimit ≤ 720 ∨ c.stepPeriod = 60 ∧ c.holdLimit ≤ 360)

/-- TABLE 3-1: a bell record's configuration is in range. -/
def BellConfig.Legal (c : BellConfig) : Prop :=
  absentOr 62 c.hammerNode ∧ 1 ≤ c.hammerChannel ∧ c.hammerChannel ≤ 16 ∧ absentOr 62 c.sensorNode
    ∧ (c.cls = .fixed → c.sensorNode = none) ∧ 200 ≤ c.recovery ∧ c.recovery ≤ 5000 ∧ 10 ≤ c.settle ∧ c.settle ≤ 600
    ∧ c.charge ≤ 500

/-- R79, check 3: a VALID directory entry is in range. -/
def TuneEntry.Legal (e : TuneEntry) : Prop :=
  e.start ≤ 2047 ∧ 1 ≤ e.length ∧ e.length ≤ 512 ∧ e.start + e.length ≤ 2048 ∧ 20 ≤ e.tempo ∧ e.tempo ≤ 240
    ∧ e.bells ≠ [] ∧ canonical 1 16 e.bells = e.bells

/-- TABLE 5-3, R81: a step is in range. -/
def TuneStep.Legal : TuneStep → Prop
  | .note bells force duration => bells ≠ [] ∧ bells.length ≤ 4 ∧ bells.Nodup ∧ (∀ b ∈ bells, 1 ≤ b ∧ b ≤ 16)
    ∧ 1 ≤ force ∧ force ≤ 7 ∧ 1 ≤ duration ∧ duration ≤ 64
  | .rest duration => 1 ≤ duration ∧ duration ≤ 64
  | .call tune repeats => tune ≤ 95 ∧ 1 ≤ repeats ∧ repeats ≤ 8
  | .endStep => True

/-- TABLE 5-4, R83: a chime set is in range. -/
def ChimeSet.Legal (c : ChimeSet) : Prop :=
  c.first ≤ 95 ∧ c.second ≤ 95 ∧ c.third ≤ 95 ∧ c.fourth ≤ 95 ∧ 1 ≤ c.hourBell ∧ c.hourBell ≤ 16
    ∧ absentOr 16 c.altBell ∧ c.altBell ≠ some c.hourBell ∧ 1 ≤ c.blowForce ∧ c.blowForce ≤ 7
    ∧ 1000 ≤ c.blowInterval ∧ c.blowInterval ≤ 10000 ∧ c.pause ≤ 10000

/-- R161, check 2: a VALID route entry is in range. A kind of 255 travels as ANY does (log entry 18). -/
def RouteMatch.Legal (m : RouteMatch) : Prop :=
  (∀ k, m.kind = some k → k < 255) ∧ (∀ d, m.dest = some d → d ≤ 62) ∧ absentOr 62 m.src
    ∧ (m.action = .bellCheck → m.port = .console ∧ (m.kind = some 21 ∨ m.kind = some 22))

/-- TABLE 7-1: a group record's configuration is in range. -/
def LampConfig.Legal (c : LampConfig) : Prop :=
  absentOr 62 c.node ∧ 1 ≤ c.channel ∧ c.channel ≤ 16 ∧ 1 ≤ c.rated ∧ c.rated ≤ 1000 ∧ c.ceiling ≤ 1000
    ∧ c.priority ≤ 3

/-- R121: a scene is in range. -/
def Scene.Legal (s : Scene) : Prop := (∀ x ∈ s.targets.toList, ∀ v, x = some v → v ≤ 1000) ∧ s.fadeTime ≤ 600

/-- TABLE 8-1, R133: a limit table is in range and in order. -/
def LimitTable.Legal (t : LimitTable) : Prop :=
  t.normal ≤ 5000 ∧ t.reduced ≤ t.normal ∧ t.low ≤ t.reduced ∧ 5 ≤ t.restoreDelay ∧ t.restoreDelay ≤ 300
    ∧ absentOr 62 t.monitor

/-- R145: a VALID day-class entry names a date that exists. -/
def DayClass.Legal (c : DayClass) : Prop :=
  1 ≤ c.month ∧ c.month ≤ 12 ∧ 1 ≤ c.day ∧ (∀ y, c.year = some y → y ≤ 99)
    ∧ c.day ≤ daysIn (decide (∀ y ∈ c.year.toList, y % 4 = 0)) c.month ∧ canonical 0 8 c.classes = c.classes

/-- TABLE 9-4: an action's operands are in range. -/
def Action.Legal : Action → Prop
  | .startTune t r => t ≤ 95 ∧ 1 ≤ r ∧ r ≤ 8
  | .scene s => s ≤ 15
  | .quietBegin k | .quietEnd k => k.chimes = true ∨ k.strike = true ∨ k.tunes = true
  | .chimeSet n => n ≤ 3
  | .notice c => c ≤ 255
  | .stopTune | .omitNext => True

/-- R148: a schedule entry is in range. -/
def ScheduleConfig.Legal (c : ScheduleConfig) : Prop :=
  (c.base = .civil → 0 ≤ c.minute ∧ c.minute ≤ 1439) ∧ (c.base ≠ .civil → -120 ≤ c.minute ∧ c.minute ≤ 120)
    ∧ canonical 0 7 c.weekdays = c.weekdays ∧ canonical 0 8 c.required = c.required
    ∧ canonical 0 8 c.excluded = c.excluded ∧ c.action.Legal

/-- R156: a cue link is in range. -/
def LinkConfig.Legal (l : LinkConfig) : Prop :=
  l.action.Legal ∧ match l.source with
    | .quarter q => absentOr 4 q
    | .hour h => ∀ v, h = some v → v ≤ 23
    | .entry n => n ≤ 127
    | .tuneEnd t _ => ∀ v, t = some v → v ≤ 95
    | _ => True

/-! ## The field port -/

/-- R60: bell b may be struck at its take: the part is RUNNING, the bell FIXED or DOWN, its hammer ENGAGED. -/
def Part.strikable (p : Part) (b : Nat) : Bool :=
  p.mgmt.partState = .running && ((p.bell b).config.cls = .fixed || (p.bell b).position = .down)
    && (p.bell b).hammer = .engaged

/-- R49: the hammer of bell b may be engaged: the part is RUNNING and the bell is FIXED, or it holds no RINGERS
claim and is settled. -/
def Part.engageable (p : Part) (b : Nat) : Bool :=
  p.mgmt.partState = .running
    && ((p.bell b).config.cls = .fixed || (!(p.bell b).claims.ringers && (p.bell b).settled))

/-- R162, case 4: no frame of kind STRIKE or HAMMER_SET stands in PASS, or is in flight from it, but as a strike that
the Guard admitted. -/
def LineSwitch.guarded (l : LineSwitch) : Prop :=
  (∀ f : Frame, .plain f ∈ l.passQ → f.kind ≠ 21 ∧ f.kind ≠ 22)
    ∧ ∀ f : Frame, l.fieldFlight = some (.plain f) → f.kind ≠ 21 ∧ f.kind ≠ 22

/-! ## The route table -/

/-- The route table is sound: every entry passes its check and none has failed before (R161). -/
def Part.routesHold (p : Part) : Prop :=
  p.line.failedRoutes = [] ∧ ∀ n, n < 32 → checkHolds routeBytes (p.route n) = true

/-- R162, case 3: the action of the first entry, from 0 upward, that is VALID and whose port, kind, DEST and SRC are
ANY or the frame's; FORWARD where none matches. -/
def Part.routeOf (p : Part) (t : Port) (f : Frame) : RouteAction :=
  match (List.range 32).findSome? (fun n => (p.route n).val.filter (fun m =>
      m.port = t && (m.kind = none || m.kind = some f.kind) && (m.dest = none || m.dest = some f.dest)
        && (m.src = none || m.src = some f.src))) with
  | some m => m.action
  | none => .forward

/-- The part with one of the counts of a port altered. -/
def Part.atPort (p : Part) (t : Port) (g : PortCounts → PortCounts) : Part :=
  match t with
  | .console => { p with line.consolePort := g p.line.consolePort }
  | .field => { p with line.fieldPort := g p.line.fieldPort }

/-- A frame whose parts the bytes of TABLE 10-1 can carry and whose addresses pass R159. -/
def Frame.sound (f : Frame) : Prop :=
  f.dest ≤ 62 ∧ 1 ≤ f.src ∧ f.src ≤ 62 ∧ f.kind < 256 ∧ f.payload.length ≤ 32

/-! ## Frames delivered -/

/-- R163: the part after a frame from a port has been forwarded: into PASS, or into UP as a report, if it has room
(R166, R167). -/
def Part.forwarded (p : Part) (t : Port) (f : Frame) : Part :=
  match t with
  | .console =>
    if p.line.passQ.length < 16 then { p with line.passQ := p.line.passQ ++ [.plain f] }
    else { p with line.passOverflow := bump p.line.passOverflow }
  | .field =>
    if p.line.upQ.length < 14 then { p with line.upQ := p.line.upQ ++ [.report f] }
    else { p with line.upOverflow := bump p.line.upOverflow }

/-- R160: the kinds whose copies go to a block other than the Management Unit. -/
def Frame.hasConsumer (f : Frame) : Prop := f.kind ∈ [41, 42, 43, 44, 45, 61]

/-- TABLE 10-2: the command that the copy of a report or of a time mark spells, its LEN and its codes being those of its
kind. Any quality byte of a mark is a value, which the Time Scale checks (log entry 33). -/
def Frame.spells (f : Frame) (i : Instr) : Prop :=
  (∃ (b : Byte) (pos : ReportedPosition), f.kind = 41 ∧ i = .bellState f.src b.toNat pos
      ∧ f.payload = [b, match pos with
        | .down => 1#8
        | .moving => 2#8
        | .up => 3#8])
    ∨ (∃ (c : Byte) (a : HammerAnswer), f.kind = 42 ∧ i = .hammerReport f.src c.toNat a
        ∧ f.payload = [c, match a with
          | .engaged => 1#8
          | .withdrawn => 2#8
          | .jammed => 3#8])
    ∨ (∃ c : Byte, f.kind = 43 ∧ i = .dialHome f.src c.toNat ∧ f.payload = [c])
    ∨ (∃ (c : Byte) (st : LampStatus), f.kind = 44 ∧ i = .lampReport f.src c.toNat st
        ∧ f.payload = [c, match st with
          | .ok => 0#8
          | .lampFail => 1#8
          | .driverFail => 2#8])
    ∨ (∃ st : Stage, f.kind = 45 ∧ i = .feedState f.src st
        ∧ f.payload = [match st with
          | .normal => 0#8
          | .reduced => 1#8
          | .low => 2#8])
    ∨ ∃ y m d s2 s1 s0 k : Byte, f.kind = 61 ∧ f.payload = [y, m, d, s2, s1, s0, k]
        ∧ i = .timeMark f.src y.toNat m.toNat d.toNat (s2.toNat * 65536 + s1.toNat * 256 + s0.toNat) k.toNat

/-- The number in two bytes, high byte first (Part 11). -/
def two (a b : Byte) : Nat := a.toNat * 256 + b.toNat

/-- TABLES 11-1 and 11-3: the operation that the payload of an MGMT_REQUEST asks, its LEN being that of the operation.
A bell set travels as one bit a bell, bell 1 lowest; an offset as a signed number (log entry 2). -/
def Frame.asks (f : Frame) (i : Instr) : Prop :=
  (∃ t a b c d : Byte, f.payload = [1#8, t, a, b, c, d] ∧ i = .readRecord f.src t.toNat (two a b) (two c d))
    ∨ (∃ (t a b : Byte) (rest : List Byte), f.payload = 2#8 :: t :: a :: b :: rest
        ∧ i = .writeRecord f.src t.toNat (two a b) rest)
    ∨ (∃ t a b d c e : Byte, f.payload = [3#8, t, a, b, d, c, e]
        ∧ i = .openCursor f.src t.toNat (two a b) d.toNat (two c e))
    ∨ (f.payload = [4#8] ∧ i = .readNext f.src)
    ∨ (∃ rest : List Byte, f.payload = 5#8 :: rest ∧ i = .writeNext f.src rest)
    ∨ (∃ y m d s2 s1 s0 : Byte, f.payload = [10#8, y, m, d, s2, s1, s0]
        ∧ i = .setTime f.src y.toNat m.toNat d.toNat (s2.toNat * 65536 + s1.toNat * 256 + s0.toNat))
    ∨ (∃ a b c d x y : Byte, f.payload = [11#8, a, b, c, d, x, y]
        ∧ i = .seasonAdd f.src (two a b * 65536 + two c d) (intOf [x, y]))
    ∨ (∃ a b c d : Byte, f.payload = [12#8, a, b, c, d] ∧ i = .seasonRemove f.src (two a b * 65536 + two c d))
    ∨ (∃ x y : Byte, f.payload = [13#8, x, y] ∧ i = .seasonBase f.src (intOf [x, y]))
    ∨ (∃ d a b : Byte, f.payload = [14#8, d, a, b] ∧ i = .setDial f.src d.toNat (two a b))
    ∨ (∃ a b : Byte, f.payload = [20#8, a, b] ∧ i = .claimBells f.src (bitsSet 1 16 (two a b)))
    ∨ (∃ a b : Byte, f.payload = [21#8, a, b] ∧ i = .releaseBells f.src (bitsSet 1 16 (two a b)))
    ∨ (∃ a b : Byte, f.payload = [22#8, a, b] ∧ i = .ringRequest f.src (bitsSet 1 16 (two a b)))
    ∨ (f.payload = [23#8] ∧ i = .ringRelease f.src)
    ∨ (∃ t k : Byte, f.payload = [30#8, t, k] ∧ i = .startTune f.src t.toNat k.toNat)
    ∨ (f.payload = [31#8] ∧ i = .stopTune f.src)
    ∨ (f.payload = [32#8] ∧ i = .omitNext f.src)
    ∨ (∃ n : Byte, f.payload = [33#8, n] ∧ i = .applyScene f.src n.toNat)
    ∨ (∃ l : Byte, f.payload = [40#8, l] ∧ i = .ackFault f.src l.toNat)
    ∨ (f.payload = [41#8] ∧ i = .resetPart f.src)

/-! ## Pieces -/

/-- The pieces of the part that a claim names when it says what a command leaves alone: the blocks of TABLE 0-1, with
the queues, copies, counts and frames in flight of the Line Switch and the requests and faults of the Management Unit
told apart. -/
inductive Block where
  | osc | time | dialDriver | bellGuard | session | store | clock | tune | lamps | budget
  /-- The Calendar but for the source events handed to it. -/
  | cal
  | events
  /-- The route table, the receivers' waiting, the LOCAL run and the line's own counts. -/
  | routes
  /-- The counts of the two ports. -/
  | ports
  /-- The copies delivered and not yet taken. -/
  | copies
  | safety | locals | pass
  /-- The UP queue with the counts of what it dropped. -/
  | up
  | flights
  /-- The fault record, the tally and the part's state. -/
  | faults
  /-- The request in hand, its reply, and the address it may change. -/
  | requests
  /-- The source table, the notice node and the cursor. -/
  | mgmt
  | retention
  deriving DecidableEq, Repr

/-- The two parts agree in a piece. -/
def Part.sameIn (p q : Part) : Block → Prop
  | .osc => q.osc = p.osc
  | .time => q.time = p.time
  | .dialDriver => q.dialDriver = p.dialDriver
  | .bellGuard => q.bellGuard = p.bellGuard
  | .session => q.session = p.session
  | .store => q.store = p.store
  | .clock => q.clock = p.clock
  | .tune => q.tune = p.tune
  | .lamps => q.lamps = p.lamps
  | .budget => q.budget = p.budget
  | .cal => { q.cal with events := [] } = { p.cal with events := [] }
  | .events => q.cal.events = p.cal.events
  | .routes =>
    q.line.routes = p.line.routes ∧ q.line.failedRoutes = p.line.failedRoutes ∧ q.line.localRun = p.line.localRun
      ∧ q.line.consoleWaits = p.line.consoleWaits ∧ q.line.fieldWaits = p.line.fieldWaits
      ∧ q.line.malformed = p.line.malformed ∧ q.line.undelivered = p.line.undelivered
      ∧ q.line.foreignRequests = p.line.foreignRequests ∧ q.line.passOverflow = p.line.passOverflow
      ∧ q.line.busyDrops = p.line.busyDrops ∧ q.line.discardedAtTake = p.line.discardedAtTake
  | .ports => q.line.consolePort = p.line.consolePort ∧ q.line.fieldPort = p.line.fieldPort
  | .copies => q.line.delivered = p.line.delivered
  | .safety => q.line.safetyQ = p.line.safetyQ
  | .locals => q.line.localQ = p.line.localQ
  | .pass => q.line.passQ = p.line.passQ
  | .up =>
    q.line.upQ = p.line.upQ ∧ q.line.upOverflow = p.line.upOverflow
      ∧ q.line.droppedNotices = p.line.droppedNotices
  | .flights => q.line.fieldFlight = p.line.fieldFlight ∧ q.line.consoleFlight = p.line.consoleFlight
  | .faults =>
    q.mgmt.faults = p.mgmt.faults ∧ q.mgmt.tally = p.mgmt.tally ∧ q.mgmt.partState = p.mgmt.partState
  | .requests =>
    q.mgmt.inHand = p.mgmt.inHand ∧ q.mgmt.replyWaiting = p.mgmt.replyWaiting ∧ q.mgmt.resetting = p.mgmt.resetting
      ∧ q.mgmt.address = p.mgmt.address ∧ q.mgmt.nextAddress = p.mgmt.nextAddress
  | .mgmt =>
    q.mgmt.sources = p.mgmt.sources ∧ q.mgmt.failedSources = p.mgmt.failedSources
      ∧ q.mgmt.noticeNode = p.mgmt.noticeNode ∧ q.mgmt.cursor = p.mgmt.cursor
  | .retention => q.retention = p.retention

/-- The part `q`, come from `p`, differs from it at most in the pieces touched. -/
def Part.sameBut (p q : Part) (touched : List Block) : Prop := ∀ b, b ∉ touched → p.sameIn q b

/-! ## The dials -/

/-- R24, R28, R29: from `p` to `q` dial d, whose record is otherwise `x`, offers one DIAL_STEP. While a step is
outstanding it offers none; LOCAL takes the frame while it has room, and else the offer is deferred and counted. -/
def Part.stepOffered (p q : Part) (d : Nat) (x : Dial) : Prop :=
  (x.outstanding = true → q.dial d = x)
    ∧ (x.outstanding = false →
        (p.line.localQ.length < 24 ∧ q.dial d = { x with outstanding := true, lastOffer := some p.osc }
          ∧ LocalItem.dialStep d { dest := x.config.node, src := p.mgmt.address, kind := 23
                                   payload := [byte x.config.channel, 1] } ∈ q.line.localQ)
        ∨ (24 ≤ q.line.localQ.length ∧ q.dial d = { x with deferred := bump x.deferred, lastOffer := some p.osc }))

/-- R32, R33, R36, R140, R141: from `p` to `q` dial d, whose record is otherwise `x`, has asked for its drive charge.
Granted, then or at a re-offer that followed, it holds the charge, goes to the state `run` and offers a step; refused, it
stands in the waiting list in the state `wait`. -/
def Part.driveAsked (p q : Part) (d : Nat) (x : Dial) (run wait : DialState) : Prop :=
  (q.budget.dialHolds d = true ∧ p.stepOffered q d { x with state := run })
    ∨ (d ∈ q.budget.waiting ∧ q.dial d = { x with state := wait })

/-- R26 to R28, R32, R33: from `p` to `q` dial d, a driven one whose record is `x` with its target re-formed, has been
evaluated. At its target, or ahead of it within the hold limit, it goes to IN_STEP or HOLDING without a charge. One
behind, it carries on if it runs fast, and else goes to IN_STEP and offers a step. At any other distance it carries on
fast, or goes on waiting, and from IN_STEP or HOLDING it asks for its drive charge. -/
def Part.evaluated (p q : Part) (d : Nat) (x : Dial) : Prop :=
  ∀ e t bh ah : Nat, x.effective = some e → x.target = some t → e < x.positions → t < x.positions →
    bh = (t + x.positions - e) % x.positions → ah = (e + x.positions - t) % x.positions →
    (bh = 0 ∨ (2 ≤ bh ∧ ah ≤ x.config.holdLimit) →
      q.dial d = { x with state := if bh = 0 then .inStep else .holding } ∧ q.budget.dialHolds d = false
        ∧ d ∉ q.budget.waiting)
    ∧ (bh = 1 → x.state ≠ .advancing →
        p.stepOffered q d { x with state := .inStep } ∧ q.budget.dialHolds d = false ∧ d ∉ q.budget.waiting)
    ∧ (x.state = .advancing → bh = 1 ∨ (2 ≤ bh ∧ x.config.holdLimit < ah) → q.dial d = x)
    ∧ (x.state = .waitingFeed → 2 ≤ bh → x.config.holdLimit < ah → q.dial d = x)
    ∧ (x.state = .inStep ∨ x.state = .holding → 2 ≤ bh → x.config.holdLimit < ah →
        p.driveAsked q d x .advancing .waitingFeed)

/-- The part's re-offers leave dial d alone until its own turn: it does not wait for a charge, or it alone waits and no
other dial is driven. -/
def Part.undisturbed (p : Part) (d : Nat) : Prop :=
  d ∉ p.budget.waiting
    ∨ (p.budget.waiting = [d] ∧ ∀ e, 1 ≤ e → e ≤ 4 → e ≠ d →
        (p.dial e).state = .stopped ∨ (p.dial e).state = .unknown ∨ (p.dial e).state = .fault)

/-- R25: the target of dial d by the part's Time Scale, the civil second modulo twelve hours in steps of the dial. -/
def Part.targetFor (p : Part) (d : Nat) : Nat :=
  ((p.time.sec + 60 * p.time.currentOffset) % 43200).toNat / (p.dial d).config.stepPeriod

/-- R25, R27, R28: from `p` to `q`, with the Time Scale of `q`, dial d has re-formed its target. A driven dial is
evaluated if its target has changed, or `always`, as at CIVIL_SHIFT and TIME_STEP; if not, one that is IN_STEP and one
behind offers a step that was deferred. A dial that is not driven, or has no position, takes the target alone. -/
def Part.dialFollows (p q : Part) (d : Nat) (always : Prop) : Prop :=
  ∀ (x y : Dial) (t : Nat), x = p.dial d → t = q.targetFor d → y = { x with target := some t } →
    (q.dial d).target = some t
    ∧ (p.undisturbed d →
        (x.state = .stopped ∨ x.state = .unknown ∨ x.state = .fault ∨ x.effective = none → q.dial d = y)
        ∧ (x.state = .inStep ∨ x.state = .advancing ∨ x.state = .waitingFeed ∨ x.state = .holding →
            (always ∨ x.target ≠ some t → p.evaluated q d y)
            ∧ (¬ always → x.target = some t → ∀ e, x.effective = some e → e < x.positions →
                (x.state = .inStep → (t + x.positions - e) % x.positions = 1 → p.stepOffered q d y)
                ∧ (x.state ≠ .inStep ∨ (t + x.positions - e) % x.positions ≠ 1 → q.dial d = x))))

/-- R25, R36, R38: from `p` to `q` tower time has come, and dial d, STOPPED until then and with no charge asked for, has
left STOPPED. Its target is formed. After three home misses it goes to FAULT; without a position it begins its search;
else it goes to IN_STEP and is evaluated. -/
def Part.dialStarts (p q : Part) (d : Nat) : Prop :=
  ∀ y : Dial, y = { p.dial d with target := some (q.targetFor d) } →
    (y.misses = 3 → q.dial d = { y with state := .fault, faultRaised := true } ∧ q.budget.dialHolds d = false
      ∧ d ∉ q.budget.waiting)
    ∧ (y.misses ≠ 3 → y.indicated = none →
        p.driveAsked q d { y with searchCount := 0 } .unknown .unknown)
    ∧ (y.misses ≠ 3 → y.indicated ≠ none → p.evaluated q d { y with state := .inStep })

/-- R38: from `p` to `q` tower time is lost. Every dial is STOPPED without a target, waits for no charge and holds none;
every other charge stays in the list. -/
def Part.dialsStopped (p q : Part) : Prop :=
  (∀ d, 1 ≤ d → d ≤ 4 →
    q.dial d = { p.dial d with state := .stopped, target := none } ∧ q.budget.dialHolds d = false)
    ∧ q.budget.waiting = [] ∧ ∀ c ∈ p.budget.charges, (∀ d, c.holder ≠ .dial d) → c ∈ q.budget.charges

/-! ## Moves of tower time -/

/-- R15, R25: from `p` to `q` the offset cache is recomputed. Where the current offset changes, the dials take
CIVIL_SHIFT. -/
def Part.offsetTaken (p q : Part) : Prop :=
  q.time = p.time.recomputed ∧ p.sameBut q [.time, .dialDriver, .lamps, .budget, .locals]
    ∧ (q.time.currentOffset = p.time.currentOffset → q = { p with time := p.time.recomputed })
    ∧ (q.time.currentOffset ≠ p.time.currentOffset → ∀ d, 1 ≤ d → d ≤ 4 → p.dialFollows q d True)

/-- R16, R146, R149 to R151: from `p` to `q` the civil date is evaluated. Where it differs from the one held, the Calendar
takes DATE_CHANGE: today's class set is worked out afresh, and the due list is rebuilt under a history taken now. -/
def Part.dateTaken (p q : Part) : Prop :=
  ∀ d : Date, d = civilDateAt p.time.sec p.time.currentOffset →
    (p.time.civilDate = some d → q = p)
    ∧ (p.time.civilDate ≠ some d →
        q = rebuild { recomputeClasses { p with time.civilDate := some d } with cal.history := none })

/-- R17, R105: from `p` to `q`, but for the pieces touched, the boundary at the instant `b` goes to the clock voice as
QUARTER(x, h, late), and then to the cue links. -/
def Part.quarterTaken (p q : Part) (b : Int) (late : Bool) (touched : List Block) : Prop :=
  ∀ (c : Int) (x h : Nat), c = (b + 60 * p.time.currentOffset) % 86400 →
    x = (if c % 3600 = 900 then 1 else if c % 3600 = 1800 then 2 else if c % 3600 = 2700 then 3 else 4) →
    h = (c / 3600).toNat →
    (takeQuarter x h late p).sameBut q (.events :: touched)
      ∧ q.cal.events = (takeQuarter x h late p).cal.events ++ [.quarter x h late]

/-- The pieces that the hand-on of a change of time state and a reply may touch behind the quarter rules (R13, R172). -/
def afterQuarters : List Block :=
  [.time, .dialDriver, .lamps, .budget, .locals, .up, .faults, .requests]

/-- R17, R19: what a move of tower time forward to the second `n` leaves in `q`, come from `r`, of the boundaries crossed
since the marker `i`, with `skipped` boundaries counted before it. The marker moves to the latest of them; that one is
handed over late if it lies no more than 90 s back, and every other one is counted as skipped. -/
def Part.crossed (r q : Part) (i n : Int) (skipped : Nat) : Prop :=
  ∀ b : Int, i % 900 = 0 → b = n / 900 * 900 →
    (b ≤ i → q.time.quarterMarker = some i ∧ q.time.skippedQuarters = skipped ∧ r.sameBut q afterQuarters)
    ∧ (i < b → q.time.quarterMarker = some b
        ∧ ((n - b) * 1073741824 + q.time.acc ≤ 90 * 1073741824 →
            q.time.skippedQuarters = bumpBy (((b - i) / 900).toNat - 1) skipped
              ∧ r.quarterTaken q b true afterQuarters)
        ∧ (90 * 1073741824 < (n - b) * 1073741824 + q.time.acc →
            q.time.skippedQuarters = bumpBy ((b - i) / 900).toNat skipped ∧ r.sameBut q afterQuarters))

/-- R6, R12, R13, R15, R16, R38: from `g`, which has tower time set from UNSET, to `q`, but for the pieces touched: the
offset cache, the marker at the latest boundary (R18), the civil date, and the hand-on of the change of time state, at
which the dials leave STOPPED. -/
def Part.timeBegins (g q : Part) (touched : List Block) : Prop :=
  ∃ k r : Part, g.offsetTaken k
    ∧ ({ k with time.quarterMarker := some (g.time.sec / 900 * 900) } : Part).dateTaken r
    ∧ r.sameBut q ([.dialDriver, .lamps, .budget, .locals, .up, .faults] ++ touched)

/-- R14 to R16, R25, R146, R150, R151: from `g`, whose season list or base offset a request has written, to `q`, but for
the reply: the recomputation of the offset cache, with CIVIL_SHIFT to the dials where the current offset changes, the
civil date with its DATE_CHANGE, and the rebuild of the due list. While UNSET no dial has a target and no civil date is
held. -/
def Part.seasonsTaken (g q : Part) : Prop :=
  ∃ k r : Part,
    (g.time.state ≠ .unset → g.offsetTaken k ∧ k.dateTaken r)
    ∧ (g.time.state = .unset → r = k ∧ g.sameBut k [.time, .dialDriver] ∧ k.time = g.time.recomputed
        ∧ (k.time.currentOffset = g.time.currentOffset → k = { g with time := g.time.recomputed })
        ∧ (k.time.currentOffset ≠ g.time.currentOffset →
            ∀ d, 1 ≤ d → d ≤ 4 → k.dial d = { g.dial d with target := none }))
    ∧ (rebuild r).sameBut q [.up, .requests]

/-- R9, R15, R16, R25, R153: from `g`, which has tower time stepped, to `r`, ahead of the quarter rules. The dials take
TIME_STEP; at a step forward within the civil date the Calendar handles the items passed; then come the offset cache and
the civil date (log entry 80). -/
def Part.timeSteps (g r : Part) (forward : Prop) : Prop :=
  ∃ k m l : Part, g.sameBut k [.dialDriver, .lamps, .budget, .locals]
    ∧ (∀ d, 1 ≤ d → d ≤ 4 → g.dialFollows k d True)
    ∧ (forward → g.time.civilDate = some (civilDateAt g.time.sec g.time.offsetNow) → m = calStepForward k)
    ∧ (¬ forward ∨ g.time.civilDate ≠ some (civilDateAt g.time.sec g.time.offsetNow) → m = k)
    ∧ m.offsetTaken l ∧ l.dateTaken r

/-! ## MAJOR faults -/

/-- R167: the UP queue after notices have been offered to it one after the other. -/
def Part.upAfter (p : Part) (notices : List UpItem) : List UpItem :=
  notices.foldl (fun v n => if v.length < 14 then v ++ [n] else v) p.line.upQ

/-- R178: a MAJOR fault takes the part from RUNNING to SAFE, the fault record being RAISED already. -/
def Part.entering (p : Part) : Bool := p.mgmt.faults.isSome && p.mgmt.partState = .running

/-- R178, R180: the notices of a MAJOR fault of a code and detail: FAULT_RAISED, its severity byte 1 (log entry 20), and
behind it SAFE_ENTERED if the fault takes the part to SAFE. -/
def Part.faultNotices (p : Part) (code : Nat) (detail : List Byte) : List UpItem :=
  p.noticeOf .faultRaised p.towerTime (byte code :: 1 :: detail)
    :: (if p.entering then [p.noticeOf .safeEntered p.towerTime []] else [])

/-- R94, R109, R113: the fields of a voice that has stopped: its held strikes dropped and counted as LATE, and nothing
left of what it sounded. Its pulses elapsed are 0: the model's choice, log entry 56. -/
def Voice.stopped (x : Voice) : Voice :=
  { x with
    start := none, tempo := none, pulse := none, pulses := 0, declared := none, stack := [], claimed := [], held := []
    counts := { x.counts with late := bumpBy x.held.length x.counts.late } }

/-- The strikes that the voices hold while they sound something. -/
def Part.heldStrikes (p : Part) : List HeldStrike :=
  (if p.clock.state = .idle then [] else p.clock.voice.held) ++ (if p.tune.state = .idle then [] else p.tune.voice.held)

/-- R114, R104, R109, R113: from `p` to `q` the part has entered SAFE and both voices have stopped. The clock voice ends
its quarter and the tune voice its tune, each that is not IDLE; their claims leave their bells, and the charges of the
strikes they held are released. -/
def Part.voicesStopped (p q : Part) : Prop :=
  q.clock = (if p.clock.state = .idle then p.clock else
      { p.clock with
        state := .idle, quarter := none, strikeFollows := false, blows := none, nextBlow := none
        voice := p.clock.voice.stopped })
    ∧ q.tune = (if p.tune.state = .idle then p.tune else
      { p.tune with state := .idle, inHand := none, voice := p.tune.voice.stopped })
    ∧ (p.clock.state ≠ .idle → ∀ b ∈ p.clock.voice.claimed, (q.bell b).claims.clock = false)
    ∧ (p.tune.state ≠ .idle → ∀ b ∈ p.tune.voice.claimed, (q.bell b).claims.tune = false)
    ∧ (∀ c ∈ q.budget.charges, ∀ h ∈ p.heldStrikes, c.ofStrike h.strike.charge = false)
    ∧ (p.budget.waiting = [] →
        q.budget.charges = p.budget.charges.filter (fun c => p.heldStrikes.all (fun h => !c.ofStrike h.strike.charge)))

/-- R114, R156, R178: what a MAJOR fault leaves in `q`, come from `p`, beside the fault record, the notices and the
hammers. The event FAULT_MAJOR goes to the cue links, and on the entry into SAFE the voices stop, with TUNE_END ahead
of it for a tune that ends so; without an entry the voices, dials, lamps, charges and LOCAL are left alone. -/
def Part.majorRaised (p q : Part) : Prop :=
  q.cal.events = p.cal.events
      ++ (if p.time.state = .unset then [] else
        (if p.entering ∧ p.tune.state ≠ .idle then
          [.tuneEnd ((p.tune.inHand.map Prod.fst).getD 0) .safe] else []) ++ [.faultMajor])
    ∧ (p.entering = true → p.voicesStopped q)
    ∧ (p.entering = false → q.clock = p.clock ∧ q.tune = p.tune ∧ q.dialDriver = p.dialDriver ∧ q.lamps = p.lamps
        ∧ q.budget = p.budget ∧ q.line.localQ = p.line.localQ)

/-! ## Hammer settings -/

/-- R48, TABLE 10-2: the HAMMER_SET that an action gives bell b; none for a bell that is not fitted. -/
def Part.settingFor (p : Part) (b : Nat) (a : HammerAction) : Option Setting :=
  (p.bell b).config.hammerNode.map (fun m =>
    { bell := b, action := a
      frame :=
        { dest := m, src := p.mgmt.address, kind := 22
          payload := [byte (p.bell b).config.hammerChannel, match a with
            | .engage => 1#8
            | .withdraw => 2#8] } })

/-- R48, R164: the SAFETY queue after settings have been decided one after the other. A setting replaces the bell's own in
its place, or enters at the back while fewer than 8 are filled; else it stays with the Guard. -/
def Part.safetyAfter (p : Part) (decided : List (Nat × HammerAction)) : List Setting :=
  decided.foldl (fun v d =>
    match p.settingFor d.1 d.2 with
    | none => v
    | some s =>
      if v.any (fun t => t.bell = d.1) then v.map (fun t => if t.bell = d.1 then s else t)
      else if v.length < 8 then v ++ [s] else v) p.line.safetyQ

/-- R61, R178: the settings decided at a MAJOR fault that concerns bell b, whose hammer is then not WITHDRAWN: a WITHDRAW
for every bell whose hammer is not, in bell-number order, if the fault takes the part from RUNNING to SAFE. -/
def Part.drawnAtFault (p : Part) (b : Nat) : List (Nat × HammerAction) :=
  if p.mgmt.faults ≠ none ∧ p.mgmt.partState = .running then
    ((List.range' 1 16).filter (fun a => a = b || (p.bell a).hammer ≠ .withdrawn)).map (fun a => (a, .withdraw))
  else []

/-- R51: the bells of a list that are engaged when they are examined while RUNNING without a RINGERS claim. -/
def Part.engagedOf (p : Part) (l : List Nat) : List (Nat × HammerAction) :=
  (l.filter (fun b => (p.bell b).hammer = .withdrawn && (p.bell b).wanted = none
    && ((p.bell b).config.cls = .fixed || (p.bell b).settled))).map (fun b => (b, .engage))

/-! ## Fades and levels -/

/-- R117, R123: a lamp update while RUNNING takes the group's fade to elapsed count n and fade level L. A fade in progress
advances by one, its level truncated toward the fade start; a complete one stands at its target, here with the group not
above it. The ceiling limits both. -/
def LampGroup.fadesTo (x : LampGroup) (n L : Nat) : Prop :=
  (x.elapsed < x.fadeLength ∧ n = x.elapsed + 1
      ∧ L = min ((x.fadeStart : Int) + (((x.target : Int) - x.fadeStart) * n).tdiv x.fadeLength).toNat x.config.ceiling)
    ∨ (x.elapsed = x.fadeLength ∧ n = x.elapsed ∧ L = min x.target x.config.ceiling ∧ x.commanded ≤ L)

/-- R120, R139: from `p` to `q` group g, not clamped, has come to want a level. It takes it where the level is not above
its own, or the Budget has the room; else it rises to the largest multiple of 10 below it that fits, if that lies above
its own, and is clamped at the level it then has, as it is where the charge list has no place for it. The charge it holds
is that of a level it moves to. -/
def Part.takesLevel (p q : Part) (g level : Nat) : Prop :=
  ∀ x : LampGroup, x = p.group g →
    (level ≤ x.commanded ∨ (p.budget.committed ≤ p.budget.limit ∧ p.budget.charges.length < 80
        ∧ p.budget.committed + (x.config.rated * level + 999) / 1000 ≤ p.budget.limit + p.budget.groupCharge g) →
      (q.group g).commanded = level ∧ (q.group g).clamp = none ∧ (q.group g).clamps = x.clamps
        ∧ (level ≠ x.commanded → q.budget.groupCharge g = (x.config.rated * level + 999) / 1000)
        ∧ (level = x.commanded → q.budget.charges = p.budget.charges))
    ∧ (x.commanded < level → (p.budget.limit < p.budget.committed
          ∨ p.budget.limit + p.budget.groupCharge g < p.budget.committed + (x.config.rated * level + 999) / 1000) →
        p.budget.charges.length < 80 → 1 ≤ x.config.rated → x.config.ceiling ≤ 1000 →
        ∃ v : Nat, v % 10 = 0 ∧ v < level
          ∧ (v = 0 ∨ p.budget.committed + (x.config.rated * v + 999) / 1000
              ≤ p.budget.limit + p.budget.groupCharge g)
          ∧ (∀ l, l % 10 = 0 → l < level → p.budget.committed + (x.config.rated * l + 999) / 1000
              ≤ p.budget.limit + p.budget.groupCharge g → l ≤ v)
          ∧ (q.group g).commanded = max x.commanded v ∧ (q.group g).clamp = some (max x.commanded v)
          ∧ (q.group g).clamps = bump x.clamps
          ∧ (x.commanded < v → q.budget.groupCharge g = (x.config.rated * v + 999) / 1000)
          ∧ (v ≤ x.commanded → q.budget.charges = p.budget.charges))
    ∧ (x.commanded < level → 80 ≤ p.budget.charges.length → (∀ c ∈ p.budget.charges, c.holder ≠ .group g) →
        (q.group g).commanded = x.commanded ∧ (q.group g).clamp = some x.commanded ∧ (q.group g).clamps = bump x.clamps
          ∧ q.budget.charges = p.budget.charges)

/-- R127, R165: from `p` to `q` the commanded level of group g has been compared `k` times with the level its dimmer will
hold: the queued one, or else the one in flight, or else the one sent. Where they agree nothing is offered. Where they
differ the LAMP_LEVEL replaces the one that waits on its channel, or enters LOCAL at the back; with LOCAL full it is
deferred, and every comparison counted. The frame carries the part's present address also where it replaces one: the
model's choice, log entry 93. -/
def Part.levelOffered (p q : Part) (g k : Nat) : Prop :=
  ∀ (m : Nat) (x y : LampGroup) (item : LocalItem) (channel : Nat × Option Byte),
    x = p.group g → y = q.group g → x.config.node = some m → channel = (m, some (byte x.config.channel)) →
    item = .lampLevel (some g) y.commanded
      { dest := m, src := p.mgmt.address, kind := 24, payload := byte x.config.channel :: be 2 y.commanded } →
    y.inFlight = x.inFlight ∧ y.sent = x.sent
      ∧ ((x.queued.or x.inFlight).or x.sent = some y.commanded →
          q.line.localQ = p.line.localQ ∧ y.queued = x.queued ∧ y.deferred = false
            ∧ y.deferredOffers = x.deferredOffers)
      ∧ ((x.queued.or x.inFlight).or x.sent ≠ some y.commanded →
          ((∃ i ∈ p.line.localQ, i.channel = some channel) →
            q.line.localQ = p.line.localQ.map (fun (i : LocalItem) => if i.channel = some channel then item else i)
              ∧ y.queued = some y.commanded ∧ y.deferred = false ∧ y.deferredOffers = x.deferredOffers)
          ∧ ((∀ i ∈ p.line.localQ, i.channel ≠ some channel) → p.line.localQ.length < 24 →
            q.line.localQ = p.line.localQ ++ [item] ∧ y.queued = some y.commanded ∧ y.deferred = false
              ∧ y.deferredOffers = x.deferredOffers)
          ∧ ((∀ i ∈ p.line.localQ, i.channel ≠ some channel) → 24 ≤ p.line.localQ.length →
            q.line.localQ = p.line.localQ ∧ y.queued = x.queued ∧ y.deferred = true
              ∧ y.deferredOffers = bumpBy k x.deferredOffers))

/-! ## Strikes that lamps make room for -/

/-- R102, R137, R138: a strike of a voice on bell b has been granted after lamps were lowered for it. The lamps are the
only load given up, its charge is held within the limit, and its STRIKE stands last in LOCAL, here with no dial waiting
and the charge list sound. -/
def Part.struckAfterReclaim (p q : Part) (b : Nat) (v : VoiceId) (force : Nat) : Prop :=
  p.BudgetSound → p.budget.waiting = [] →
    q.budget.committed ≤ p.budget.limit ∧ q.budget.strikeGrants = bump p.budget.strikeGrants
      ∧ (∀ c ∈ p.budget.charges, c.isLamp = false → c ∈ q.budget.charges)
      ∧ (∀ g, 1 ≤ g → g ≤ 12 → (q.group g).commanded ≤ (p.group g).commanded)
      ∧ (∃ s : Strike, s.bell = b ∧ q.line.localQ.getLast? = some (.strike s)
          ∧ s.frame = { dest := (p.bell b).config.hammerNode.getD 0, src := p.mgmt.address, kind := 21
                        payload := [byte (p.bell b).config.hammerChannel, byte force, byte (originOf v).code] }
          ∧ { id := s.charge, holder := .strike b (originOf v), amount := (p.bell b).config.charge
              grantedAt := p.osc, releaseAt := none } ∈ q.budget.charges)
      ∧ p.sameBut q [.clock, .tune, .lamps, .budget, .locals]

/-! ## Records read -/

/-- R86, R121, R157, R161, R173: record n of a table as it is stored agrees with its check value. A table without check
values, and an EMPTY directory entry (log entry 42), always does. -/
def Part.passesCheck (p : Part) (n : Nat) : Table → Bool
  | .sources => checkHolds sourceClassBytes (bankGet1 p.mgmt.sources n (stored sourceClassBytes .noClass))
  | .directory =>
    let r := bankGet p.store.directory n (stored dirBytes DirEntry.empty)
    r.val = .empty || checkHolds dirBytes r
  | .steps => checkHolds stepContents (bankGet p.store.steps n (stored stepContents .endStep))
  | .chimes => checkHolds chimeBytes (bankGet p.store.chimes n (stored chimeBytes (ChimeSet.cold n)))
  | .scenes => checkHolds sceneBytes (bankGet p.lamps.scenes n (stored sceneBytes (Scene.cold n)))
  | .dayClasses => checkHolds dayClassBytes (p.dayClassRecord n)
  | .sun => checkHolds sunBytes (p.sunRecord n)
  | .schedule => checkHolds scheduleBytes (p.entry n).config
  | .links => checkHolds linkBytes (p.link n).config
  | .routes => checkHolds routeBytes (p.route n)
  | _ => true

/-- R157, R161, R173: record n of a table has been found to fail its check, and has not been written since. -/
def Part.hasFailed (p : Part) (n : Nat) : Table → Bool
  | .sources => p.mgmt.failedSources.contains n
  | .dayClasses => p.cal.failed.contains (.dayClass, n)
  | .sun => p.cal.failed.contains (.sun, n)
  | .schedule => p.cal.failed.contains (.schedule, n)
  | .links => p.cal.failed.contains (.links, n)
  | .routes => p.line.failedRoutes.contains n
  | _ => false

/-- A check failure counted and held against a record of the Calendar (R157). -/
def Part.calFailed (p q : Part) (t : CalTable) (n : Nat) : Prop :=
  q.cal.failed = p.cal.failed ++ [(t, n)] ∧ q.cal.checkFailures = bump p.cal.checkFailures

/-- The part `q`, come from `p` by a read that finds record n of a table to fail its check. A record of the Tune Store is
counted, and a directory entry becomes EMPTY (R86 to R89); a scene is counted (R121); a record of the Calendar enters the
failed-record set, a schedule entry DISABLED and out of the due list (R157); each raises TABLE_CHECK. A source record or
a route entry raises CONTROL_CHECK, a MAJOR fault (R161, R173, R178), with its notices, its event and the stop of the
voices at an entry into SAFE (R114). The bytes of the notice are those of log entries
20 and 21. -/
def Part.foundDamaged (p q : Part) (t : Table) (n : Nat) : Prop :=
  if t = .sources ∨ t = .routes then
    q.mgmt.faults = some (p.recordedFault .controlCheck (byte t.code :: be 2 n))
      ∧ q.mgmt.partState = (if p.mgmt.faults = none then p.mgmt.partState else .safe)
      ∧ q.line.upQ = p.upAfter (p.faultNotices 8 (byte t.code :: be 2 n)) ∧ p.majorRaised q
      ∧ (t = .sources → q.mgmt.failedSources = p.mgmt.failedSources ++ [n] ∧ q.mgmt.sources = p.mgmt.sources
          ∧ q.mgmt.noticeNode = p.mgmt.noticeNode ∧ q.mgmt.cursor = p.mgmt.cursor)
      ∧ (t = .routes → q.line.failedRoutes = p.line.failedRoutes ++ [n] ∧ q.line.routes = p.line.routes)
      ∧ p.sameBut q [.dialDriver, .bellGuard, .session, .clock, .tune, .lamps, .budget, .events, .safety, .locals, .up,
          .faults, if t = .sources then .mgmt else .routes]
  else
    q.mgmt.tally = { p.mgmt.tally with tableCheck := bump p.mgmt.tally.tableCheck } ∧ q.mgmt.faults = p.mgmt.faults
      ∧ q.mgmt.partState = p.mgmt.partState
      ∧ (p.line.upQ.length < 14 →
          q.line.upQ = p.line.upQ ++ [p.noticeOf .faultRaised p.towerTime ([7, 0, byte t.code] ++ be 2 n)])
      ∧ match t with
        | .directory =>
          q.store = { p.store with
            checkFailures := bump p.store.checkFailures
            directory := bankPut p.store.directory n (stored dirBytes .empty) } ∧ p.sameBut q [.store, .up, .faults]
        | .steps | .chimes =>
          q.store = { p.store with checkFailures := bump p.store.checkFailures } ∧ p.sameBut q [.store, .up, .faults]
        | .scenes =>
          q.lamps = { p.lamps with sceneFailures := bump p.lamps.sceneFailures } ∧ p.sameBut q [.lamps, .up, .faults]
        | .dayClasses => p.calFailed q .dayClass n ∧ p.sameBut q [.cal, .up, .faults]
        | .sun => p.calFailed q .sun n ∧ p.sameBut q [.cal, .up, .faults]
        | .links => p.calFailed q .links n ∧ p.sameBut q [.cal, .up, .faults]
        | .schedule =>
          p.calFailed q .schedule n ∧ q.entry n = { p.entry n with state := .disabled }
            ∧ q.cal.dueList = p.cal.dueList.filter (fun x => x.kind ≠ .entry n) ∧ p.sameBut q [.cal, .up, .faults]
        | _ => False

/-! ## The load cursor -/

/-- R177: the index that the cursor has after `m` records. -/
def Cursor.at (c : Cursor) (m : Nat) : Int := if c.forward then c.index + m else c.index - m

/-- R177: the cursor after `m` records. -/
def Cursor.after (c : Cursor) (m : Nat) : Cursor := { c with index := c.at m, count := c.count - m }

/-- R177: the cursor's next records, within its count and its table, are those of the numbers listed. -/
def Cursor.covers (c : Cursor) (l : List Nat) : Prop :=
  l.length ≤ c.count ∧ ∀ j x : Nat, l[j]? = some x → c.at j = (x : Int) ∧ c.table.holds x = true

/-- R177: the cursor as `m` records leave it: closed at its count or past the first or last record of its table, and
else open at the next one. -/
def Cursor.leaves (c : Cursor) (m : Nat) : Option Cursor → Prop
  | none => c.count = m ∨ ∀ x : Nat, c.at m = (x : Int) → c.table.holds x = false
  | some d => d = c.after m ∧ m < c.count ∧ ∃ x : Nat, c.at m = (x : Int) ∧ c.table.holds x = true

end Sys2Proof.Machine
end

