-- ==== Sys2Proof/Certificates/Slice0/Obligations.lean ====
section
/-! DEFINITION. The statements for the provers. A command's effect is stated as what `exec` answers on a part `p` with
the queue's rest `w`. "The part hears" (`Part.hears`) means that the Management Unit is free and its source table gives
the requesting node the class named; `Part.answered` is the part with a reply at the back of UP, and `Part.gave` says
that a reply stands in UP or waits (R167). `Part.sameBut` names the pieces that a command may touch: all the others
are as they were. -/

section Statements

open Sys2Proof Sys2Proof.Machine

/-! ## The queue of commands, and the supply -/

/-- A step takes the command at the front of the queue and runs its meaning with the queue's rest; on an empty queue
the part idles (log entry 7). Every command answers a next state, with the rest of the queue as it stands: none faults
and none is refused. -/
def Obligations.StepRunsFrontCommand : Prop :=
  ∀ (c : Instr) (p : Part) (w : List Instr),
    step ⟨p, c :: w⟩ = exec c ⟨p, w⟩ ∧ step ⟨p, []⟩ = .next ⟨p, []⟩ ∧ ∃ q : Part, exec c ⟨p, w⟩ = .next ⟨q, w⟩

/-- R1, R11, R22, R181: each tick adds 2²⁰ + T to the accumulator while the time state is not UNSET, and the silence
timer and K count it; a second due at 2³⁰ waits for its command (the model's choice, log entry 4). 600 × 1024 ticks of
silence in ACQUIRING or LOCKED make the time state HOLDOVER, abandon the window and ask for a TIME_STATE notice (R13),
its detail the old and the new state (log entry 21); a timer below that or stopped does nothing (log entry 3). Dials
that hold their targets keep their state at that change (R38). SUPPLY_FAIL cuts the supply; then only the tick, a
power-on and the backup cell's failure change anything (the model's choice, log entry 11), the oscillator count goes on
(log entry 14), and the silence timer and K with tower time while the cell has held. The cell's failure with the supply
present changes nothing (log entry 79). -/
def Obligations.TicksAndSupply : Prop :=
  ∀ (p : Part) (w : List Instr),
    (p.retention.supply = true →
      (p.time.state = .unset → exec .oscillatorTick ⟨p, w⟩ = .next ⟨{ p with osc := p.osc + 1 }, w⟩)
      ∧ (p.time.state ≠ .unset →
          exec .oscillatorTick ⟨p, w⟩
            = .next ⟨{ p with
                osc := p.osc + 1
                time := { p.time with
                  acc := p.time.acc + 1048576 + p.time.trim
                  silence := p.time.silence.map (· + 1)
                  window := p.time.window.map (fun (x : Window) => { x with ticks := x.ticks + 1 }) } }, w⟩)
      ∧ (p.time.silence.any (fun k => 614400 ≤ k) = false ∨ p.time.state = .unset ∨ p.time.state = .holdover →
          exec .silenceTimeout ⟨p, w⟩ = .next ⟨p, w⟩)
      ∧ (∀ k, p.time.silence = some k → 614400 ≤ k → p.time.state = .acquiring ∨ p.time.state = .locked →
          ∃ q : Part, exec .silenceTimeout ⟨p, w⟩ = .next ⟨q, w⟩
            ∧ q.time = { p.time with state := .holdover, window := none }
            ∧ (p.line.upQ.length < 14 →
                q.line.upQ = p.line.upQ ++ [p.noticeOf .timeState (some p.time.sec) [byte p.time.state.code, 3]])
            ∧ ((∀ d, 1 ≤ d → d ≤ 4 → (p.dial d).target = some (p.targetFor d)) → p.sameBut q [.time, .up])
            ∧ p.sameBut q [.time, .dialDriver, .lamps, .budget, .locals, .up]))
    ∧ exec .supplyFail ⟨p, w⟩ = .next ⟨{ p with retention.supply := false }, w⟩
    ∧ (p.retention.supply = true → exec .backupCellLow ⟨p, w⟩ = .next ⟨p, w⟩)
    ∧ (p.retention.supply = false →
        exec .backupCellLow ⟨p, w⟩ = .next ⟨{ p with retention.cellHeld := false }, w⟩
        ∧ exec .oscillatorTick ⟨p, w⟩
          = .next ⟨{ p with
              osc := p.osc + 1
              time := if p.retention.cellHeld = true ∧ p.time.state ≠ .unset then
                  { p.time with
                    acc := p.time.acc + 1048576 + p.time.trim
                    silence := p.time.silence.map (· + 1)
                    window := p.time.window.map (fun (x : Window) => { x with ticks := x.ticks + 1 }) }
                else p.time }, w⟩
        ∧ ∀ c : Instr, c ≠ .oscillatorTick → c ≠ .coldPowerOn → c ≠ .warmPowerOn → c ≠ .backupCellLow →
            exec c ⟨p, w⟩ = .next ⟨p, w⟩)

/-! ## The Time Scale -/

/-- R1, R15, R16, R17, R18: at an accumulator of 2³⁰ or more, which waits for this command (log entry 4), a second
elapses: the offset cache is recomputed if its next change has been reached. R25, R28: each dial then forms its target
from the new second; a driven one whose target has changed is evaluated, every one where the current offset has changed
(CIVIL_SHIFT), and one that is IN_STEP and one behind offers a step; no sooner does the Calendar act (log entry 65).
R16, R146, R151: the civil date is the one of the new second, and where it is another than before, the Calendar works
out today's class set and rebuilds the due list, as CalendarRebuilt says of both. R17, R105: the marker moves to a later
quarter boundary, which goes with `late` clear to the clock voice, as OmitNextQuarter and QuartersSound say of
takeQuarter, and then to the cue links as QUARTER(q, h). R2, R38, R153: past the end of the range the time state becomes
UNSET, with the window abandoned, the step-pending count 0, the marker clear, the cache at the base offset and the due
list empty; the season list, the base offset and the time configuration keep their values; every dial stops without a
target, a charge or a place in the waiting list, and a TIME_STATE notice goes out, its detail that of log entry 21. Below
2³⁰, and while UNSET, nothing happens (log entry 3). -/
def Obligations.SecondElapses : Prop :=
  ∀ (p : Part) (w : List Instr), p.retention.supply = true →
    (p.time.state = .unset ∨ p.time.acc < 1073741824 → exec .secondBoundary ⟨p, w⟩ = .next ⟨p, w⟩)
    ∧ (p.time.state ≠ .unset → 1073741824 ≤ p.time.acc → p.time.sec < 3155759999 →
        ∀ t u : TimeScale, t = { p.time with sec := p.time.sec + 1, acc := p.time.acc - 1073741824 } →
          u = (if t.nextChange.any (fun i => i ≤ t.sec) then t.recomputed else t) →
          ∃ q k r : Part, exec .secondBoundary ⟨p, w⟩ = .next ⟨q, w⟩
            ∧ q.time = { u with
                civilDate := some (civilDateAt u.sec u.currentOffset)
                quarterMarker := if u.sec % 900 = 0 ∧ u.quarterMarker.all (fun m => m < u.sec) then some u.sec
                  else u.quarterMarker }
            ∧ p.sameBut k [.time, .dialDriver, .lamps, .budget, .locals] ∧ k.time = { u with acc := 0 }
            ∧ (∀ d, 1 ≤ d → d ≤ 4 → p.dialFollows k d (u.currentOffset ≠ p.time.currentOffset))
            ∧ k.dateTaken r
            ∧ (u.sec % 900 ≠ 0 ∨ u.quarterMarker.all (fun m => m < u.sec) = false → r.sameBut q [.time])
            ∧ (u.sec % 900 = 0 → u.quarterMarker.all (fun m => m < u.sec) = true →
                r.quarterTaken q u.sec false [.time])
            ∧ p.sameBut q [.time, .dialDriver, .bellGuard, .store, .clock, .tune, .lamps, .budget, .cal, .events,
                .locals, .up, .faults])
    ∧ (p.time.state ≠ .unset → 1073741824 ≤ p.time.acc → 3155759999 ≤ p.time.sec →
        ∃ q : Part, exec .secondBoundary ⟨p, w⟩ = .next ⟨q, w⟩
          ∧ q.time.state = .unset ∧ q.time.acc = 0 ∧ q.time.window = none ∧ q.time.stepPending = 0
          ∧ q.time.quarterMarker = none ∧ q.time.nextChange = none ∧ q.time.currentOffset = p.time.baseOffset
          ∧ q.time.baseOffset = p.time.baseOffset ∧ q.time.seasons = p.time.seasons ∧ q.time.trim = p.time.trim
          ∧ q.time.windowSize = p.time.windowSize ∧ q.time.delay = p.time.delay
          ∧ q.cal.dueList = []
          ∧ (p.budget.waiting.Nodup → (∀ d ∈ p.budget.waiting, 1 ≤ d ∧ d ≤ 4) → p.dialsStopped q)
          ∧ q.line.upQ = p.upAfter [p.noticeOf .timeState none [byte p.time.state.code, 0]]
          ∧ p.sameBut q [.time, .dialDriver, .lamps, .budget, .cal, .locals, .up])

/-- R5, R6: a mark from a source that is not TIME is dropped, one that fails a check is refused, and a quality 1 mark
outside UNSET is not used: one count rises and nothing else changes but that the delivered copy, if the mark is one,
is taken (log entry 5). -/
def Obligations.MarksNotUsed : Prop :=
  ∀ (p : Part) (w : List Instr) (src y m d s k age dl : Nat), p.retention.supply = true →
    (∀ cls : SourceClass, p.markFrom src y m d s k cls age dl → cls ≠ .time →
        exec (.timeMark src y m d s k) ⟨p, w⟩
          = .next ⟨{ takeCopy (.timeMark src y m d s k) p with
              time.foreignMarks := bump p.time.foreignMarks }, w⟩)
    ∧ (p.markFrom src y m d s k .time age dl →
        (k = 0 ∨ 3 < k ∨ 99 < y ∨ m = 0 ∨ 12 < m ∨ d = 0 ∨ daysIn (decide (y % 4 = 0)) m < d ∨ 86400 ≤ s →
          exec (.timeMark src y m d s k) ⟨p, w⟩
            = .next ⟨{ takeCopy (.timeMark src y m d s k) p with
                time.refusedMarks := bump p.time.refusedMarks }, w⟩)
        ∧ (p.time.state ≠ .unset → fieldsValid y m d s = true → k = 1 →
          exec (.timeMark src y m d s k) ⟨p, w⟩
            = .next ⟨{ takeCopy (.timeMark src y m d s k) p with
                time.qualityOneMarks := bump p.time.qualityOneMarks }, w⟩))

/-- R6: a mark that passes R5 while UNSET sets tower time, whatever its quality of 1 to 3: the second count is the
named instant and the accumulator the phase gathered since the mark instant, d ticks before the end of the reception.
A copy taken `age` ticks after its arrival counts them too (log entry 5), with `dl`, the d in force at its arrival
(R4). R13, R15, R16: the offset cache and the civil date follow, with DATE_CHANGE. R36, R38: every dial then leaves
STOPPED with its target formed: in FAULT after three home misses, searching without a position, and else IN_STEP and
evaluated. -/
def Obligations.MarkSetsTime : Prop :=
  ∀ (p : Part) (w : List Instr) (src y m d s k age dl : Nat) (n : Int), p.retention.supply = true →
    p.markFrom src y m d s k .time age dl → fieldsValid y m d s = true → 1 ≤ k → k ≤ 3 → p.time.state = .unset →
    n = namedInstant y m d s →
    ∃ q g : Part, exec (.timeMark src y m d s k) ⟨p, w⟩ = .next ⟨q, w⟩
      ∧ q.time.state = .acquiring ∧ q.time.sec = n
      ∧ q.time.acc = (dl + age) * (1048576 + p.time.trim) ∧ q.time.trim = p.time.trim
      ∧ q.time.stepPending = 0 ∧ q.time.silence = some 0
      ∧ q.time.window = (if 2 ≤ k then some { opened := n, ticks := (dl : Int) + age } else none)
      ∧ q.time.quarterMarker = some (n / 900 * 900)
      ∧ q.time.civilDate = some (civilDateAt n q.time.currentOffset)
      ∧ q.time.usedMarks = bump p.time.usedMarks
      ∧ p.sameBut g [.time, .copies]
      ∧ g.time = { p.time with
          state := .acquiring, sec := n, acc := (dl + age) * (1048576 + p.time.trim), stepPending := 0
          silence := some 0, usedMarks := bump p.time.usedMarks
          window := if 2 ≤ k then some { opened := n, ticks := (dl : Int) + age } else none }
      ∧ g.timeBegins q []
      ∧ (p.BudgetSound → ∀ d, 1 ≤ d → d ≤ 4 → p.dialStarts q d)
      ∧ p.sameBut q [.time, .dialDriver, .bellGuard, .store, .clock, .tune, .lamps, .budget, .cal, .events, .copies,
          .locals, .up, .faults]

/-- R7, R8: a discipline mark within threshold nudges the accumulator by trunc(P ÷ 16) ticks, returns the step-pending
count to 0 and restarts the silence timer. It opens a window if none is open and does nothing to one not yet due to
close; the mark that closes one is WindowCloses's. A second that is due with the nudge, at an accumulator of 2³⁰ or
more, elapses first, just as SECOND_BOUNDARY would have it (R1; SecondElapses), also where a tick had made it due (log
entry 4); past the end of the range the mark does nothing more (log entry 90). Outside HOLDOVER nothing else changes;
HOLDOVER becomes LOCKED behind that second's events, and R13: a TIME_STATE notice says so with the second count of then,
its detail that of log entry 21; dials that hold the targets of the second count then (log entry 72) keep their state
(R38). A copy is judged by local time at its arrival, `age` ticks back (log entry 5), with `dl`, the d in force then
(R4). -/
def Obligations.MarkSlews : Prop :=
  ∀ (p : Part) (w : List Instr) (src y m d s k age dl : Nat) (n delta a : Int) (t : TimeScale),
    p.retention.supply = true → p.markFrom src y m d s k .time age dl → fieldsValid y m d s = true → 2 ≤ k → k ≤ 3 →
    p.time.state ≠ .unset → n = namedInstant y m d s →
    delta = p.time.sec * 1024 + (p.time.acc - age * (1048576 + p.time.trim)) / 1048576 - dl - 1024 * n →
    -128 ≤ delta → delta ≤ 128 →
    p.time.window.all (fun x => n - x.opened < p.time.windowSize) = true →
    a = p.time.acc - delta.tdiv 16 * 1048576 →
    t = { p.time with
      sec := if a < 0 then p.time.sec - 1 else p.time.sec
      acc := if a < 0 then a + 1073741824 else a
      stepPending := 0
      silence := some 0
      usedMarks := bump p.time.usedMarks
      window := p.time.window.or (some { opened := n, ticks := (dl : Int) + age }) } →
    ∀ g : Part, g = { takeCopy (.timeMark src y m d s k) p with time := { t with window := p.time.window } } →
    ∃ r : Part, exec .secondBoundary ⟨g, w⟩ = .next ⟨r, w⟩
      ∧ (a < 1073741824 → r = g)
      ∧ (1073741824 ≤ a → t.sec < 3155759999 → r.time.sec = t.sec + 1)
      ∧ (1073741824 ≤ a → 3155759999 ≤ t.sec →
          r.time.state = .unset ∧ exec (.timeMark src y m d s k) ⟨p, w⟩ = .next ⟨r, w⟩)
      ∧ (a < 1073741824 ∨ t.sec < 3155759999 →
          (p.time.state ≠ .holdover →
            exec (.timeMark src y m d s k) ⟨p, w⟩ = .next ⟨{ r with time.window := t.window }, w⟩)
          ∧ (p.time.state = .holdover →
              ∃ q : Part, exec (.timeMark src y m d s k) ⟨p, w⟩ = .next ⟨q, w⟩
                ∧ q.time = { r.time with state := .locked, window := t.window }
                ∧ q.line.upQ = r.upAfter [r.noticeOf .timeState (some r.time.sec) [3, 2]]
                ∧ (1073741824 ≤ a ∨ (∀ e, 1 ≤ e → e ≤ 4 → (p.dial e).target = some (q.targetFor e)) →
                    r.sameBut q [.time, .up])
                ∧ r.sameBut q [.time, .dialDriver, .lamps, .budget, .locals, .up]))

/-- R9: a discipline mark beyond threshold makes no nudge and leaves the window and the silence timer alone; the third
in a row steps tower time to the mark. R19, R20: the marker after the step; a forward step counts the boundaries it
crosses and hands over the latest, late, if it lies no more than 90 s back, to the clock voice, as OmitNextQuarter and
QuartersSound say of takeQuarter, and then to the cue links. R25, R153: the dials take TIME_STEP, a forward step within
the civil date has the Calendar handle the items it passes, and the offset cache and the civil date follow (log entry
80). A copy is judged by local time at its arrival, `age` ticks back (log entry 5), with `dl`, the d in force then
(R4). -/
def Obligations.MarksBeyondStep : Prop :=
  ∀ (p : Part) (w : List Instr) (src y m d s k age dl : Nat) (n delta : Int), p.retention.supply = true →
    p.markFrom src y m d s k .time age dl → fieldsValid y m d s = true → 2 ≤ k → k ≤ 3 → p.time.state ≠ .unset →
    n = namedInstant y m d s →
    delta = p.time.sec * 1024 + (p.time.acc - age * (1048576 + p.time.trim)) / 1048576 - dl - 1024 * n →
    delta < -128 ∨ 128 < delta →
    (p.time.stepPending < 2 →
      exec (.timeMark src y m d s k) ⟨p, w⟩
        = .next ⟨{ takeCopy (.timeMark src y m d s k) p with
            time.usedMarks := bump p.time.usedMarks
            time.stepPending := p.time.stepPending + 1 }, w⟩)
    ∧ (2 ≤ p.time.stepPending →
        ∃ q g r : Part, exec (.timeMark src y m d s k) ⟨p, w⟩ = .next ⟨q, w⟩
          ∧ q.time.state = .acquiring ∧ q.time.sec = n
          ∧ q.time.acc = (dl + age) * (1048576 + p.time.trim)
          ∧ q.time.stepPending = 0 ∧ q.time.steps = bump p.time.steps ∧ q.time.silence = some 0
          ∧ q.time.window = some { opened := n, ticks := (dl : Int) + age }
          ∧ q.time.usedMarks = bump p.time.usedMarks
          ∧ q.time.civilDate = some (civilDateAt n q.time.currentOffset)
          ∧ q.time.quarterMarker
            = (if delta ≤ 0 then p.time.quarterMarker.map (fun i => max i (n / 900 * 900))
               else if delta < 921600 then p.time.quarterMarker else some (n / 900 * 900))
          ∧ p.sameBut g [.time, .copies]
          ∧ g.time = { p.time with
              state := .acquiring, sec := n, acc := (dl + age) * (1048576 + p.time.trim), stepPending := 0
              steps := bump p.time.steps, silence := some 0, usedMarks := bump p.time.usedMarks
              window := some { opened := n, ticks := (dl : Int) + age } }
          ∧ g.timeSteps r (delta < 0)
          ∧ (∀ i, delta ≤ 0 → p.time.quarterMarker = some i → r.crossed q i n p.time.skippedQuarters)
          ∧ (0 < delta ∨ p.time.quarterMarker = none →
              q.time.skippedQuarters = p.time.skippedQuarters ∧ r.sameBut q afterQuarters)
          ∧ p.sameBut q [.time, .dialDriver, .bellGuard, .store, .clock, .tune, .lamps, .budget, .cal, .events,
              .copies, .locals, .up, .faults])

/-- R10, R8: the discipline mark within threshold at which the open window is due closes it. The nudge, the step-pending
count and the silence timer are those of any mark within threshold. The trim falls by C, which is D ÷ (1024 × Wₑ)
rounded to the nearest, halves away from zero, and limited to ±64; the trim is limited to ±500, with TRIM_LIMIT raised
if it had to be; a new window opens, and the time state is LOCKED. All of this follows a second that is due with the
nudge (SecondElapses, log entry 4), and past the end of the range none of it comes (log entry 90). R13, R180: TRIM_LIMIT
is told ahead of the change to LOCKED, both with the second count of then and the details of log entries 20 and 21. K
runs from mark instant to mark instant; a copy was received `age` ticks back (log entry 5), with `dl` the d in force
then (R4). -/
def Obligations.WindowCloses : Prop :=
  ∀ (p : Part) (w : List Instr) (src y m d s k age dl : Nat) (n delta a e g : Int) (x : Window),
    p.retention.supply = true → p.markFrom src y m d s k .time age dl → fieldsValid y m d s = true → 2 ≤ k → k ≤ 3 →
    p.time.state = .acquiring ∨ p.time.state = .locked → n = namedInstant y m d s →
    delta = p.time.sec * 1024 + (p.time.acc - age * (1048576 + p.time.trim)) / 1048576 - dl - 1024 * n →
    -128 ≤ delta → delta ≤ 128 → a = p.time.acc - delta.tdiv 16 * 1048576 →
    p.time.window = some x → 0 < p.time.windowSize → p.time.windowSize ≤ n - x.opened →
    e = n - x.opened → g = (x.ticks - dl - age) * (1048576 + p.time.trim) - e * 1073741824 →
    ∀ (t : TimeScale) (h : Part),
      t = { p.time with
        sec := if a < 0 then p.time.sec - 1 else p.time.sec
        acc := if a < 0 then a + 1073741824 else a
        stepPending := 0
        silence := some 0
        usedMarks := bump p.time.usedMarks } →
      h = { takeCopy (.timeMark src y m d s k) p with time := t } →
      ∃ r : Part, exec .secondBoundary ⟨h, w⟩ = .next ⟨r, w⟩
        ∧ (a < 1073741824 → r = h)
        ∧ (1073741824 ≤ a → t.sec < 3155759999 → r.time.sec = t.sec + 1 ∧ r.time.trim = p.time.trim)
        ∧ (1073741824 ≤ a → 3155759999 ≤ t.sec →
            r.time.state = .unset ∧ exec (.timeMark src y m d s k) ⟨p, w⟩ = .next ⟨r, w⟩)
        ∧ (a < 1073741824 ∨ t.sec < 3155759999 →
            ∃ (c T : Int) (q : Part), exec (.timeMark src y m d s k) ⟨p, w⟩ = .next ⟨q, w⟩
              ∧ 2 * (g - c * (1024 * e)).natAbs ≤ (1024 * e).natAbs
              ∧ (2 * (g - c * (1024 * e)).natAbs = (1024 * e).natAbs → g.natAbs < (c * (1024 * e)).natAbs)
              ∧ T = p.time.trim - max (-64) (min 64 c)
              ∧ q.time = { r.time with
                  trim := max (-500) (min 500 T), state := .locked
                  window := some { opened := n, ticks := (dl : Int) + age } }
              ∧ q.mgmt.tally.trimLimit
                = (if -500 ≤ T ∧ T ≤ 500 then r.mgmt.tally.trimLimit else bump r.mgmt.tally.trimLimit)
              ∧ q.line.upQ = r.upAfter
                  ((if -500 ≤ T ∧ T ≤ 500 then [] else [r.noticeOf .faultRaised (some r.time.sec) [1, 0]])
                    ++ (if p.time.state = .acquiring then [r.noticeOf .timeState (some r.time.sec) [1, 2]] else []))
              ∧ r.sameBut q [.time, .dialDriver, .lamps, .budget, .locals, .up, .faults])

/-- R12: SET_TIME from an OPERATOR or SERVICE source: its fields are checked, in ACQUIRING and LOCKED too (log entry
28), it is refused with WRONG_STATE in ACQUIRING and LOCKED, and in UNSET or HOLDOVER it sets tower time to the named
instant and replies OK. R19, R20: the marker follows, and a forward step counts the boundaries it crosses and hands over
the latest, late, if it lies no more than 90 s back, to the clock voice, as OmitNextQuarter and QuartersSound say of
takeQuarter, and then to the cue links; a step of amount 0 is forward (log entry 64). R38: set from UNSET, every dial
leaves STOPPED as at a mark (MarkSetsTime). R25, R153: at a step the dials take TIME_STEP, a forward step within the
civil date has the Calendar handle the items it passes, and the offset cache and the civil date follow (log entry 80). -/
def Obligations.SetTimeSets : Prop :=
  ∀ (p : Part) (w : List Instr) (src y m d s : Nat) (cls : SourceClass) (n : Int),
    p.hears src cls = true → cls = .operator ∨ cls = .service → n = namedInstant y m d s →
    (fieldsValid y m d s = false →
      exec (.setTime src y m d s) ⟨p, w⟩ = .next ⟨p.answered src 10 .badValue [], w⟩)
    ∧ (fieldsValid y m d s = true → p.time.state = .acquiring ∨ p.time.state = .locked →
      exec (.setTime src y m d s) ⟨p, w⟩ = .next ⟨p.answered src 10 .wrongState [], w⟩)
    ∧ (fieldsValid y m d s = true → p.time.state = .unset ∨ p.time.state = .holdover →
      ∃ q g r : Part, exec (.setTime src y m d s) ⟨p, w⟩ = .next ⟨q, w⟩
        ∧ q.gave (replyTo p.mgmt.address src 10 .ok [])
        ∧ p.sameBut g [.time, .requests]
        ∧ g.time = { p.time with
            state := .acquiring, sec := n, acc := 0, stepPending := 0, silence := some 0, window := none
            steps := if p.time.state = .unset then p.time.steps else bump p.time.steps }
        ∧ q.time.state = .acquiring ∧ q.time.sec = n ∧ q.time.acc = 0 ∧ q.time.stepPending = 0
        ∧ q.time.silence = some 0 ∧ q.time.window = none
        ∧ q.time.steps = (if p.time.state = .unset then p.time.steps else bump p.time.steps)
        ∧ q.time.civilDate = some (civilDateAt n q.time.currentOffset)
        ∧ (p.time.state = .unset → q.time.quarterMarker = some (n / 900 * 900) ∧ g.timeBegins q [.requests]
            ∧ (p.BudgetSound → ∀ d, 1 ≤ d → d ≤ 4 → p.dialStarts q d))
        ∧ (∀ l : Int, p.time.state = .holdover → l = p.time.sec * 1024 + p.time.acc / 1048576 →
            g.timeSteps r (l < 1024 * n) ∧ (p.time.quarterMarker = none → r.sameBut q afterQuarters)
            ∧ ∀ i : Int, p.time.quarterMarker = some i →
              (l ≤ 1024 * n → r.crossed q i n p.time.skippedQuarters)
              ∧ (1024 * n < l → q.time.skippedQuarters = p.time.skippedQuarters ∧ r.sameBut q afterQuarters
                  ∧ q.time.quarterMarker = some (if l - 1024 * n < 921600 then i else n / 900 * 900)))
        ∧ p.sameBut q [.time, .dialDriver, .bellGuard, .store, .clock, .tune, .lamps, .budget, .cal, .events, .locals,
            .up, .faults, .requests])

/-- R14, R15: SEASON_ADD, SEASON_REMOVE and SEASON_BASE from an OPERATOR or SERVICE source: the checks in their order;
an accepted entry inserted at the place its instant gives, the entry named removed, or the base offset written. The
offset cache is then recomputed, the dials take CIVIL_SHIFT where the current offset changes (R25), the civil date is
evaluated at the new offset with its DATE_CHANGE (R16, R146), and the due list is rebuilt, as CalendarRebuilt says of
`rebuild`. Entries at or before the present instant take effect and leave the list. What a recomputation does to a season
list in rising order: the latest entry that is due becomes the base offset, the current offset is the base offset, and
the next change is the first entry left; while UNSET the current offset is the base offset and no change is awaited. -/
def Obligations.SeasonsWritten : Prop :=
  (∀ t : TimeScale, t.state = .unset → t.recomputed = { t with currentOffset := t.baseOffset, nextChange := none })
  ∧ (∀ t : TimeScale, t.state ≠ .unset → seasonsRise t.seasons →
    (∀ s : Season, s ∈ t.recomputed.seasons ↔ s ∈ t.seasons ∧ t.sec < s.instant)
    ∧ seasonsRise t.recomputed.seasons
    ∧ t.recomputed.currentOffset = t.recomputed.baseOffset
    ∧ t.recomputed.nextChange = t.recomputed.seasons.head?.map Season.instant
    ∧ ((∀ s ∈ t.seasons, t.sec < s.instant) → t.recomputed.baseOffset = t.baseOffset)
    ∧ ∀ s ∈ t.seasons, s.instant ≤ t.sec → (∀ x ∈ t.seasons, x.instant ≤ t.sec → x.instant ≤ s.instant) →
        t.recomputed.baseOffset = s.offset)
  ∧ ∀ (p : Part) (w : List Instr) (src i : Nat) (o : Int) (cls : SourceClass),
    p.hears src cls = true → cls = .operator ∨ cls = .service →
    (3155759999 < i ∨ i % 60 ≠ 0 ∨ o < -720 ∨ 840 < o ∨ o % 15 ≠ 0 →
      exec (.seasonAdd src i o) ⟨p, w⟩ = .next ⟨p.answered src 11 .badValue [], w⟩)
    ∧ (i ≤ 3155759999 → i % 60 = 0 → -720 ≤ o → o ≤ 840 → o % 15 = 0 →
        ((∃ s ∈ p.time.seasons, s.instant = i) →
          exec (.seasonAdd src i o) ⟨p, w⟩ = .next ⟨p.answered src 11 .duplicate [], w⟩)
        ∧ ((∀ s ∈ p.time.seasons, s.instant ≠ i) → 16 ≤ p.time.seasons.length →
          exec (.seasonAdd src i o) ⟨p, w⟩ = .next ⟨p.answered src 11 .full [], w⟩)
        ∧ ((∀ s ∈ p.time.seasons, s.instant ≠ i) → p.time.seasons.length < 16 →
          ∃ q g : Part, exec (.seasonAdd src i o) ⟨p, w⟩ = .next ⟨q, w⟩
            ∧ q.gave (replyTo p.mgmt.address src 11 .ok [])
            ∧ p.sameBut g [.time, .requests] ∧ g.seasonsTaken q
            ∧ (∃ a b : List Season, p.time.seasons = a ++ b ∧ (∀ x ∈ a, x.instant < i) ∧ (∀ x ∈ b.head?, i < x.instant)
                ∧ g.time = { p.time with seasons := a ++ Season.mk i o :: b })
            ∧ q.time = { g.time.recomputed with
                civilDate := if p.time.state = .unset then p.time.civilDate
                  else some (civilDateAt p.time.sec q.time.currentOffset) }
            ∧ (∀ x : Season, x ∈ q.time.seasons ↔
                (x = { instant := (i : Int), offset := o } ∨ x ∈ p.time.seasons)
                  ∧ (p.time.state = .unset ∨ p.time.sec < x.instant))
            ∧ p.sameBut q [.time, .dialDriver, .bellGuard, .store, .clock, .tune, .lamps, .budget, .cal, .events,
                .locals, .up, .faults, .requests]))
    ∧ ((∀ s ∈ p.time.seasons, s.instant ≠ i) →
        exec (.seasonRemove src i) ⟨p, w⟩ = .next ⟨p.answered src 12 .badIndex [], w⟩)
    ∧ ((∃ s ∈ p.time.seasons, s.instant = i) →
        ∃ q g : Part, exec (.seasonRemove src i) ⟨p, w⟩ = .next ⟨q, w⟩
          ∧ q.gave (replyTo p.mgmt.address src 12 .ok [])
          ∧ p.sameBut g [.time, .requests] ∧ g.seasonsTaken q
          ∧ g.time = { p.time with seasons := p.time.seasons.filter (fun x => x.instant ≠ i) }
          ∧ q.time = { g.time.recomputed with
              civilDate := if p.time.state = .unset then p.time.civilDate
                else some (civilDateAt p.time.sec q.time.currentOffset) }
          ∧ (∀ x : Season, x ∈ q.time.seasons ↔
              x ∈ p.time.seasons ∧ x.instant ≠ i ∧ (p.time.state = .unset ∨ p.time.sec < x.instant))
          ∧ p.sameBut q [.time, .dialDriver, .bellGuard, .store, .clock, .tune, .lamps, .budget, .cal, .events,
              .locals, .up, .faults, .requests])
    ∧ (o < -720 ∨ 840 < o ∨ o % 15 ≠ 0 →
      exec (.seasonBase src o) ⟨p, w⟩ = .next ⟨p.answered src 13 .badValue [], w⟩)
    ∧ (-720 ≤ o → o ≤ 840 → o % 15 = 0 →
        ∃ q g : Part, exec (.seasonBase src o) ⟨p, w⟩ = .next ⟨q, w⟩
          ∧ q.gave (replyTo p.mgmt.address src 13 .ok [])
          ∧ p.sameBut g [.time, .requests] ∧ g.seasonsTaken q ∧ g.time = { p.time with baseOffset := o }
          ∧ q.time = { g.time.recomputed with
              civilDate := if p.time.state = .unset then p.time.civilDate
                else some (civilDateAt p.time.sec q.time.currentOffset) }
          ∧ q.time.currentOffset = q.time.baseOffset
          ∧ (p.time.state = .unset ∨ (∀ s ∈ p.time.seasons, p.time.sec < s.instant) → q.time.baseOffset = o)
          ∧ p.sameBut q [.time, .dialDriver, .bellGuard, .store, .clock, .tune, .lamps, .budget, .cal, .events,
              .locals, .up, .faults, .requests])


/-! ## Requests -/

/-- R172, checks 1 and 4 (TABLES 11-3 and 11-5): a request from a source below the least class is answered
NOT_PERMITTED, and that is all. R167, R172: one request at a time. A request delivered while another is in hand, while
a reply waits, or until the reply to RESET_PART has completed, is dropped and counted (log entry 88). A request in hand
is answered as it would be if it were delivered now with the class read at its delivery (log entry 5). R167: a request
whose reply finds 16 frames in UP has the effect that it has with UP empty. UP keeps its frames and takes no notice, and
the reply waits, with the request still in hand; it is the reply given with UP empty, but where the record read is the
line status, which tells how many places of UP are filled. -/
def Obligations.RequestsHeard : Prop :=
  ∀ (c : Instr) (p : Part) (w : List Instr), isRequest c = true →
    (∀ cls : SourceClass, p.hears (sourceOf c) cls = true →
      (cls.rank < (leastOf c).rank →
        exec c ⟨p, w⟩ = .next ⟨p.answered (sourceOf c) (operationOf c) .notPermitted [], w⟩)
      ∧ exec c ⟨{ p with mgmt.inHand := some { request := c, cls := cls } }, w⟩ = exec c ⟨p, w⟩)
    ∧ (p.retention.supply = true → p.busy = true →
      p.mgmt.inHand.all (fun h => h.request ≠ c) = true ∨ p.mgmt.replyWaiting.isSome = true →
      exec c ⟨p, w⟩ = .next ⟨{ p with line.busyDrops := bump p.line.busyDrops }, w⟩)
    ∧ ∀ (cls : SourceClass) (e : Part), e = { p with line.upQ := [] } → e.hears (sourceOf c) cls = true →
      16 ≤ p.line.upQ.length →
      (cls.rank < (leastOf c).rank →
        exec c ⟨p, w⟩ = .next ⟨{ p with
          mgmt.inHand := some { request := c, cls := cls }
          mgmt.replyWaiting := some (replyTo p.mgmt.address (sourceOf c) (operationOf c) .notPermitted []) }, w⟩)
      ∧ ∃ (f q : Part) (u : UpItem), exec c ⟨e, w⟩ = .next ⟨f, w⟩ ∧ exec c ⟨p, w⟩ = .next ⟨q, w⟩
        ∧ f.sameBut q [.up, .requests] ∧ q.line.upQ = p.line.upQ
        ∧ q.mgmt.inHand = some { request := c, cls := cls } ∧ q.mgmt.replyWaiting = some u
        ∧ (∀ n : Frame, u ≠ .notice n)
        ∧ ((∀ src n off, c ≠ .readRecord src 26 n off) → (∀ k, p.mgmt.cursor = some k → k.table ≠ .lineStatus) →
            u ∈ f.line.upQ)

/-! ## What every step keeps -/

/-- Right after reset the Time Scale is within its ranges, the queues fit, PASS is guarded, the budget and the session
are sound, and no command waits. -/
def Obligations.ResetIsSound : Prop :=
  State.reset.part.time.Legal ∧ State.reset.part.line.fits ∧ State.reset.part.line.guarded
    ∧ State.reset.part.BudgetSound ∧ State.reset.part.SessionSound ∧ State.reset.pending = []

/-- R2, R3, R4, R14, R15, TABLE 1-9: every step keeps the Time Scale within its ranges: the trim, W and d, the second
count, the accumulator not below 0, the step-pending count, the counts, the season list and the offsets. -/
def Obligations.StepKeepsTimeLegal : Prop :=
  ∀ s t : State, s.part.time.Legal → step s = .next t → t.part.time.Legal

/-- R164, R167: every step keeps SAFETY within 8 frames with one per bell, LOCAL within 24 with one LAMP_LEVEL per
channel, and PASS and UP within 16. -/
def Obligations.StepKeepsQueuesFit : Prop :=
  ∀ s t : State, s.part.line.fits → step s = .next t → t.part.line.fits

/-- R135, R117, R119, R38: every step keeps the charge list sound: at most 80 entries, at most one for each lamp group
and for each dial, a group only with an amount above 0, its charge that of its commanded level, and a drive charge only
with a dial that runs fast or searches. No step raises the committed load above the limit. -/
def Obligations.StepKeepsBudgetSound : Prop :=
  ∀ s t : State, s.part.BudgetSound → step s = .next t →
    t.part.BudgetSound ∧ t.part.budget.committed ≤ max s.part.budget.committed t.part.budget.limit

/-- R63, R66, R68, R72, R73: every step keeps the session record in agreement with the RINGERS claims and the hammers.
-/
def Obligations.StepKeepsSessionSound : Prop :=
  ∀ s t : State, s.part.SessionSound → step s = .next t → t.part.SessionSound

/-- R49, R60: whatever the command, a strike that comes into flight is for a bell that may be struck and whose
recovery interval has run out, and it is the bell's last take; an ENGAGE setting that comes into flight is for a bell
that may be engaged. R162: no step lets a frame of kind STRIKE or HAMMER_SET into PASS, or from it into flight, but as
a strike that the Guard admitted. -/
def Obligations.OnlyGuardedFramesFly : Prop :=
  ∀ s t : State, step s = .next t →
    (∀ k : Strike, t.part.line.fieldFlight = some (.strike k) → s.part.line.fieldFlight ≠ some (.strike k) →
      t.part.strikable k.bell = true ∧ (t.part.bell k.bell).lastTake = some t.part.osc
        ∧ ∀ i, (s.part.bell k.bell).lastTake = some i →
            i + msTicks (t.part.bell k.bell).config.recovery ≤ t.part.osc)
    ∧ (∀ g : Setting, t.part.line.fieldFlight = some (.setting g) → s.part.line.fieldFlight ≠ some (.setting g) →
        g.action = .engage → t.part.engageable g.bell = true)
    ∧ (s.part.line.guarded → t.part.line.guarded)

/-! ## Resets -/

/-- R21, R39, R92, R173: COLD_POWER_ON leaves the part as it stands right after reset, which is the model's cold state
(log entries 6, 12 and 13). No event and no notice goes out; the store's records pass their checks, node 62 is SERVICE
and every other node NONE, and every dial is STOPPED without a position. -/
def Obligations.ColdStart : Prop :=
  ∀ (p : Part) (w : List Instr), ∃ q : Part, exec .coldPowerOn ⟨p, w⟩ = .next ⟨q, w⟩ ∧ q = State.reset.part
    ∧ q.time = { state := .unset, sec := 0, acc := 0, trim := 0, windowSize := 256, delay := 0, window := none,
                 stepPending := 0, silence := none, seasons := [], baseOffset := 0, currentOffset := 0,
                 nextChange := none, civilDate := none, quarterMarker := none, usedMarks := 0, foreignMarks := 0,
                 refusedMarks := 0, qualityOneMarks := 0, skippedQuarters := 0, steps := 0 }
    ∧ q.cal.events = [] ∧ q.line.upQ = []
    ∧ (∀ n, n < 96 → (readDirectory n q).2 = some .empty) ∧ (∀ n, n < 2048 → (readStep n q).2 = some .endStep)
    ∧ (∀ n, n < 4 → (readChimeSet n q).2 = some
        { first := 4 * n, second := 4 * n + 1, third := 4 * n + 2, fourth := 4 * n + 3, hourBell := 16,
          altBell := none, blowForce := 5, blowInterval := 2500, pause := 2000 })
    ∧ (∀ n, 1 ≤ n → n ≤ 62 → q.classIs n (if n = 62 then .service else .noClass) = true)
    ∧ (∀ d, 1 ≤ d → d ≤ 4 → (q.dial d).state = .stopped ∧ (q.dial d).indicated = none)

/-- R22, R181, R182: the kinds of power-on. A mark lost or a cell that failed makes it cold, at WARM_POWER_ON too (log
entry 13); otherwise it is warm, and the completion of RESET_PART's reply does just the same with tower time counted
throughout. It may come with the supply present (log entry 12). Warm, the oscillator count goes on (log entry 14), and
the Time Scale keeps tower time, the seconds that waited in the accumulator taken into it (log entry 4), trim, W and d,
and comes up in HOLDOVER with the civil date evaluated, its window closed and its silence timer stopped, the quarter
boundaries that passed counted and the latest handed over late if it lies no more than 90 s back (R19), to the clock
voice, as OmitNextQuarter and QuartersSound say of takeQuarter, and then to the cue links; the Calendar takes
DATE_CHANGE with the civil date (R158), and every dial leaves STOPPED (R38, R40); the line has no frame in flight or in
PASS, both receivers wait for an idle gap (R171), and no request is in hand (R183). A written address that still waited
governs from the reset (log entry 43). R22, step 1, R40, R62, R132, R144: a warm start whose time is lost leaves every
block afresh with what the retention store keeps; that the voices then stand with pulses elapsed 0 and blows absent (log
entry 56), and that a dial keeps its search count (log entry 17), is the model's choice. Each fitted bell is given its
start-up setting, WITHDRAW for a SWING bell and ENGAGE for a FIXED one; every claim is gone. The first lamp update is
counted from the oscillator count (log entry 14). -/
def Obligations.WarmStart : Prop :=
  ∀ (p : Part) (w : List Instr),
    (p.retention.mark = false ∨ p.retention.cellHeld = false →
      exec .warmPowerOn ⟨p, w⟩ = .next ⟨State.reset.part, w⟩)
    ∧ (p.retention.mark = true → p.retention.cellHeld = true →
        (∀ f : Frame, p.retention.supply = true → p.line.consoleFlight = some (.resetReply f) →
          exec .resetPartReplyCompletion ⟨p, w⟩ = exec .warmPowerOn ⟨p, w⟩)
        ∧ ∃ q : Part, exec .warmPowerOn ⟨p, w⟩ = .next ⟨q, w⟩
            ∧ q.osc = p.osc ∧ q.retention = { supply := true, mark := true, cellHeld := true }
            ∧ q.time.trim = p.time.trim ∧ q.time.windowSize = p.time.windowSize ∧ q.time.delay = p.time.delay
            ∧ q.time.window = none ∧ q.time.stepPending = 0 ∧ q.time.silence = none ∧ q.time.usedMarks = 0
            ∧ q.line.routes = p.line.routes ∧ q.line.passQ = [] ∧ q.line.fieldFlight = none
            ∧ q.line.consoleFlight = none ∧ q.line.consoleWaits = true ∧ q.line.fieldWaits = true
            ∧ q.mgmt.sources = p.mgmt.sources ∧ q.mgmt.noticeNode = p.mgmt.noticeNode ∧ q.mgmt.cursor = none
            ∧ q.mgmt.inHand = none ∧ q.mgmt.replyWaiting = none ∧ q.mgmt.resetting = false
            ∧ q.mgmt.address = p.mgmt.nextAddress.getD p.mgmt.address
            ∧ q.line.safetyQ = ((List.range' 1 16).filterMap (fun b =>
                q.settingFor b (if (q.bell b).config.cls = .fixed then .engage else .withdraw))).take 8
            ∧ (p.time.state ≠ .unset → p.time.sec + p.time.acc / 1073741824 ≤ 3155759999 →
                q.time.state = .holdover ∧ q.time.sec = p.time.sec + p.time.acc / 1073741824
                  ∧ q.time.acc = p.time.acc % 1073741824 ∧ q.time.currentOffset = q.time.baseOffset
                  ∧ q.time.civilDate = some (civilDateAt q.time.sec q.time.currentOffset)
                  ∧ (∀ d, 1 ≤ d → d ≤ 4 → p.restarted.dialStarts q d)
                  ∧ ∃ g k r : Part, p.restarted.sameBut g [.bellGuard, .safety] ∧ g.offsetTaken k ∧ k.dateTaken r
                    ∧ (p.time.quarterMarker = none → r.sameBut q afterQuarters)
                    ∧ ∀ i, p.time.quarterMarker = some i → r.crossed q i q.time.sec 0))
    ∧ (p.retention.mark = true → p.retention.cellHeld = true →
        p.time.state = .unset ∨ 3155759999 < p.time.sec + p.time.acc / 1073741824 →
        ∃ q : Part, exec .warmPowerOn ⟨p, w⟩ = .next ⟨q, w⟩
          ∧ q.time = { TimeScale.cold with
              trim := p.time.trim, windowSize := p.time.windowSize, delay := p.time.delay, seasons := p.time.seasons,
              baseOffset := p.time.baseOffset, currentOffset := p.time.baseOffset }
          ∧ q.dialDriver = { dials := p.dialDriver.dials.map Dial.restarted, unmatched := 0 }
          ∧ q.store = { p.store with inUseRefusals := 0, checkFailures := 0 }
          ∧ q.clock = ClockVoice.started ∧ q.tune = TuneVoice.started
          ∧ q.lamps.groups = p.lamps.groups.map (fun x => LampGroup.started x.config)
          ∧ q.lamps.scenes = p.lamps.scenes ∧ q.lamps.nextUpdate = p.osc + 1024
          ∧ q.budget = FeedBudget.started p.budget.limits ∧ q.session = Session.started
          ∧ q.mgmt.faults = none ∧ q.mgmt.tally = Tally.zero ∧ q.mgmt.partState = .running
          ∧ q.line.localQ = [] ∧ q.line.upQ = []
          ∧ q.line.safetyQ = ((List.range' 1 16).filterMap (fun b =>
              q.settingFor b (if (q.bell b).config.cls = .fixed then .engage else .withdraw))).take 8
          ∧ ∀ b, 1 ≤ b → b ≤ 16 →
              (q.bell b).config = (p.bell b).config ∧ (q.bell b).claims = Claims.empty ∧ (q.bell b).lastTake = none
                ∧ (q.bell b).position = (if (p.bell b).config.cls = .fixed then .down else .unknown)
                ∧ (q.bell b).hammer
                  = (if (p.bell b).config.hammerNode.isNone then .withdrawn
                     else if (p.bell b).config.cls = .fixed then .engaging else .withdrawing))


/-! ## The dials -/

/-- R26: with an effective position E and a target below P, `behind` is (target − E) mod P and `ahead` is (E − target)
mod P, each within 0 to P − 1. One of the two is 0 exactly when E equals the target; otherwise they add up to P. -/
def Obligations.DialDistances : Prop :=
  ∀ (x : Dial) (e t : Nat), x.effective = some e → x.target = some t → e < x.positions → t < x.positions →
    ∃ bh ah : Nat, x.behind = some bh ∧ x.ahead = some ah
      ∧ (bh : Int) = ((t : Int) - e) % x.positions ∧ (ah : Int) = ((e : Int) - t) % x.positions
      ∧ bh < x.positions ∧ ah < x.positions
      ∧ ((bh = 0 ∨ ah = 0) ↔ e = t) ∧ (e ≠ t → bh + ah = x.positions)

/-- R29, R31, R32, R36: at a fast instant a dial that runs fast, or that searches with its charge, offers one
DIAL_STEP: LOCAL takes it, or it is deferred and counted, and either restarts the fast interval of 61,440 ticks
divided by the rate. At any other moment the command changes nothing (log entry 3). -/
def Obligations.FastInstantOffersStep : Prop :=
  ∀ (p : Part) (w : List Instr) (d : Nat) (x : Dial), p.retention.supply = true → x = p.dial d →
    ((¬ (x.state = .advancing ∨ (x.state = .unknown ∧ p.budget.dialHolds d = true)) ∨ x.outstanding = true
        ∨ ∃ t, x.lastOffer = some t ∧ p.osc < t + 61440 / x.config.fastRate) →
      exec (.dialFastInstant d) ⟨p, w⟩ = .next ⟨p, w⟩)
    ∧ ((x.state = .advancing ∨ (x.state = .unknown ∧ p.budget.dialHolds d = true)) → x.outstanding = false →
        (∀ t, x.lastOffer = some t → t + 61440 / x.config.fastRate ≤ p.osc) →
        (p.line.localQ.length < 24 →
          exec (.dialFastInstant d) ⟨p, w⟩
            = .next ⟨({ p with line.localQ := p.line.localQ ++ [LocalItem.dialStep d
                { dest := x.config.node, src := p.mgmt.address, kind := 23,
                  payload := [byte x.config.channel, 1] }] }).putDial d
              { x with outstanding := true, lastOffer := some p.osc }, w⟩)
        ∧ (24 ≤ p.line.localQ.length →
          exec (.dialFastInstant d) ⟨p, w⟩
            = .next ⟨p.putDial d { x with deferred := bump x.deferred, lastOffer := some p.osc }, w⟩))

/-- R30, R35, R36: a DIAL_STEP of dial d completes: the transmitter is free, the outstanding flag clears and the
steps-sent count rises; a present position moves by one modulo P, and reaching 0 opens a home watch. An open watch that
meets its second completion is a miss, unless the dial stands, when it closes without one (log entry 16); short of a
third miss a dial that is driven or waits goes on to its evaluation (DialEvaluation). In STOPPED and FAULT that is all;
in UNKNOWN the search count rises and a whole revolution is a miss. The third miss in a row, by the watch of a dial
that is driven or by a search, takes the dial to FAULT without charge, and DIAL_FAULT is raised, ahead of the
evaluation (log entry 73). -/
def Obligations.DialStepCompletes : Prop :=
  ∀ (p : Part) (w : List Instr) (d m : Nat) (f : Frame) (x z : Dial) (r : Part), p.retention.supply = true →
    1 ≤ d → d ≤ 4 → p.line.fieldFlight = some (.dialStep d f) → x = p.dial d →
    m = (if x.homeWatch.any (fun k => 0 < k) = true ∧ (x.state = .inStep ∨ x.state = .advancing ∨ x.state = .unknown)
      then x.misses + 1 else x.misses) →
    z = { x with
      outstanding := false
      stepsSent := bump x.stepsSent
      misses := m
      indicated := x.indicated.map (fun i => (i + 1) % x.positions)
      homeWatch := if x.indicated.map (fun i => (i + 1) % x.positions) = some 0 then some 0
        else if x.homeWatch = some 0 then some 1 else none } →
    r = { p with
      line.fieldFlight := none
      line.fieldPort := { p.line.fieldPort with transmitted := bump p.line.fieldPort.transmitted } } →
    (x.state = .stopped ∨ x.state = .fault →
      exec .dialStepCompletion ⟨p, w⟩ = .next ⟨r.putDial d z, w⟩)
    ∧ (x.homeWatch.any (fun k => 0 < k) = true → 2 ≤ x.misses → p.budget.waiting.Nodup →
        x.state = .inStep ∨ x.state = .advancing ∨ x.state = .unknown →
        ∃ q : Part, exec .dialStepCompletion ⟨p, w⟩ = .next ⟨q, w⟩
          ∧ q.dial d = { z with misses := 3, state := .fault, faultRaised := true }
          ∧ q.budget.dialHolds d = false ∧ d ∉ q.budget.waiting
          ∧ q.mgmt.tally.dialFault = bump p.mgmt.tally.dialFault
          ∧ r.sameBut q [.dialDriver, .lamps, .budget, .locals, .up, .faults])
    ∧ (x.state = .inStep ∨ x.state = .advancing ∨ x.state = .waitingFeed ∨ x.state = .holding → m ≤ 2 ∨ m = x.misses →
        ∃ q : Part, exec .dialStepCompletion ⟨p, w⟩ = .next ⟨q, w⟩
          ∧ (q.dial d).misses = m ∧ (q.dial d).homeWatch = z.homeWatch ∧ (q.dial d).indicated = z.indicated
          ∧ (q.dial d).stepsSent = z.stepsSent ∧ (q.dial d).state ≠ .fault
          ∧ r.sameBut q [.dialDriver, .lamps, .budget, .locals])
    ∧ (x.state = .unknown → (x.homeWatch.any (fun k => 0 < k) = true → x.misses < 2) →
        x.searchCount + 1 < x.positions →
        exec .dialStepCompletion ⟨p, w⟩ = .next ⟨r.putDial d { z with searchCount := x.searchCount + 1 }, w⟩)
    ∧ (x.state = .unknown → m < 2 → x.positions ≤ x.searchCount + 1 →
        exec .dialStepCompletion ⟨p, w⟩ = .next ⟨r.putDial d { z with searchCount := 0, misses := m + 1 }, w⟩)
    ∧ (x.state = .unknown → (x.homeWatch.any (fun k => 0 < k) = true → x.misses < 2) → 2 ≤ m →
        x.positions ≤ x.searchCount + 1 → p.budget.waiting.Nodup →
        ∃ q : Part, exec .dialStepCompletion ⟨p, w⟩ = .next ⟨q, w⟩
          ∧ q.dial d = { z with searchCount := 0, misses := 3, state := .fault, faultRaised := true }
          ∧ q.budget.dialHolds d = false ∧ q.mgmt.tally.dialFault = bump p.mgmt.tally.dialFault
          ∧ r.sameBut q [.dialDriver, .lamps, .budget, .locals, .up, .faults])

/-- R27, R28, R32, R33: the evaluation of a dial, as a DIAL_STEP completion makes it. A home watch that is open is
counted on, or closed as the first or second home miss of a dial that runs or is in step (R35), and without a miss in
HOLDING and WAITING_FEED (log entry 16). Standing at the target, or ahead within the hold limit, it goes to IN_STEP or
HOLDING, waits no more and gives its charge back. One behind, it carries on if it runs fast, and else goes to IN_STEP,
waits no more and offers a step. At any other distance it carries on fast, or goes on waiting; from IN_STEP or HOLDING
it asks for its drive charge and runs fast if granted, else waits. -/
def Obligations.DialEvaluation : Prop :=
  ∀ (p : Part) (w : List Instr) (d i t j m bh ah : Nat) (f : Frame) (x z : Dial) (r : Part),
    p.retention.supply = true → 1 ≤ d → d ≤ 4 → p.line.fieldFlight = some (.dialStep d f) → x = p.dial d →
    m = (if x.homeWatch.any (fun k => 0 < k) = true ∧ (x.state = .inStep ∨ x.state = .advancing)
      then x.misses + 1 else x.misses) →
    m ≤ 2 ∨ m = x.misses → x.indicated = some i → x.target = some t → t < x.positions → p.budget.waiting.Nodup →
    j = (i + 1) % x.positions → bh = (t + x.positions - j) % x.positions →
    ah = (j + x.positions - t) % x.positions →
    z = { x with
      outstanding := false, stepsSent := bump x.stepsSent, indicated := some j, misses := m
      homeWatch := if j = 0 then some 0 else if x.homeWatch = some 0 then some 1 else none } →
    r = { p with
      line.fieldFlight := none
      line.fieldPort := { p.line.fieldPort with transmitted := bump p.line.fieldPort.transmitted } } →
    (x.state = .inStep ∨ x.state = .advancing ∨ x.state = .waitingFeed ∨ x.state = .holding →
      (bh = 0 ∨ (2 ≤ bh ∧ ah ≤ x.config.holdLimit) →
        ∃ q : Part, exec .dialStepCompletion ⟨p, w⟩ = .next ⟨q, w⟩
          ∧ q.dial d = { z with state := if bh = 0 then .inStep else .holding } ∧ q.budget.dialHolds d = false
          ∧ d ∉ q.budget.waiting ∧ r.sameBut q [.dialDriver, .lamps, .budget, .locals]))
    ∧ (x.state = .advancing ∧ (bh = 1 ∨ (2 ≤ bh ∧ x.config.holdLimit < ah))
          ∨ x.state = .waitingFeed ∧ 2 ≤ bh ∧ x.config.holdLimit < ah →
        exec .dialStepCompletion ⟨p, w⟩ = .next ⟨r.putDial d z, w⟩)
    ∧ (x.state = .inStep ∨ x.state = .holding ∨ x.state = .waitingFeed → p.budget.dialHolds d = false → bh = 1 →
        (p.line.localQ.length < 24 →
          exec .dialStepCompletion ⟨p, w⟩
            = .next ⟨({ r with
                budget.waiting := p.budget.waiting.erase d
                line.localQ := p.line.localQ ++ [LocalItem.dialStep d
                  { dest := x.config.node, src := p.mgmt.address, kind := 23,
                    payload := [byte x.config.channel, 1] }] }).putDial d
              { z with state := .inStep, outstanding := true, lastOffer := some p.osc }, w⟩)
        ∧ (24 ≤ p.line.localQ.length →
          exec .dialStepCompletion ⟨p, w⟩
            = .next ⟨({ r with budget.waiting := p.budget.waiting.erase d }).putDial d
                { z with state := .inStep, deferred := bump x.deferred, lastOffer := some p.osc }, w⟩))
    ∧ (x.state = .inStep ∨ x.state = .holding → p.budget.dialHolds d = false → d ∉ p.budget.waiting → 2 ≤ bh →
        x.config.holdLimit < ah →
        (p.budget.decide x.config.driveCharge = .refuse →
          exec .dialStepCompletion ⟨p, w⟩
            = .next ⟨({ r with
                budget.waiting := p.budget.waiting ++ [d]
                budget.dialRefusals := bump p.budget.dialRefusals }).putDial d { z with state := .waitingFeed }, w⟩)
        ∧ (p.budget.decide x.config.driveCharge ≠ .refuse →
          ∃ q : Part, exec .dialStepCompletion ⟨p, w⟩ = .next ⟨q, w⟩
            ∧ (q.dial d).state = .advancing ∧ (q.dial d).indicated = some j ∧ q.budget.dialHolds d = true
            ∧ r.sameBut q [.dialDriver, .lamps, .budget, .locals]))

/-- R23, R34, R36: a home report of a node and channel belongs to the first dial that had them when it was received (for
a copy that waits, the dial it keeps, log entry 5), or is counted as unmatched. The watch closes and the misses go. At
position 0 it is a confirmation; at any other a slip, with its amount, after which a driven dial is evaluated with its
hands at 0 (R26 to R28, R32, R33), and one that is not driven has only its record changed. Without a position the dial
stands at 0 and a search ends: the dial runs fast if it holds its drive charge, else it waits no more and is IN_STEP, and
from that state it is evaluated. The evaluations are stated for a dial that stands at most once in the waiting list. -/
def Obligations.HomeReport : Prop :=
  ∀ (p r : Part) (w : List Instr) (src channel : Nat), p.retention.supply = true →
    r = takeCopy (.dialHome src channel) p →
    (p.homeFrom src channel none →
      exec (.dialHome src channel) ⟨p, w⟩
        = .next ⟨{ r with dialDriver.unmatched := bump p.dialDriver.unmatched }, w⟩)
    ∧ ∀ (d : Nat) (x z : Dial), p.homeFrom src channel (some d) → 1 ≤ d → d ≤ 4 → x = p.dial d →
        z = { x with homeWatch := none, misses := 0, faultRaised := false, indicated := some 0 } →
        (x.indicated = some 0 →
          exec (.dialHome src channel) ⟨p, w⟩
            = .next ⟨r.putDial d { z with confirmations := bump x.confirmations }, w⟩)
        ∧ (∀ (i : Nat) (y : Dial), x.indicated = some i → 0 < i →
            y = { z with
              slips := bump x.slips
              lastSlip := if i ≤ x.positions / 2 then (i : Int) else (i : Int) - x.positions } →
            (x.state = .unknown ∨ x.state = .stopped ∨ x.state = .fault →
              exec (.dialHome src channel) ⟨p, w⟩ = .next ⟨r.putDial d y, w⟩)
            ∧ ∃ q : Part, exec (.dialHome src channel) ⟨p, w⟩ = .next ⟨q, w⟩
              ∧ (q.dial d).indicated = some 0 ∧ (q.dial d).misses = 0 ∧ (q.dial d).homeWatch = none
              ∧ (q.dial d).slips = y.slips ∧ (q.dial d).lastSlip = y.lastSlip
              ∧ (x.state = .inStep ∨ x.state = .advancing ∨ x.state = .waitingFeed ∨ x.state = .holding →
                  p.budget.waiting.count d ≤ 1 → r.evaluated q d y)
              ∧ r.sameBut q [.dialDriver, .lamps, .budget, .locals])
        ∧ (x.indicated = none → x.state = .stopped ∨ x.state = .fault →
            exec (.dialHome src channel) ⟨p, w⟩ = .next ⟨r.putDial d { z with searchCount := 0 }, w⟩)
        ∧ (x.indicated = none → x.state = .unknown →
            ∃ q : Part, exec (.dialHome src channel) ⟨p, w⟩ = .next ⟨q, w⟩
              ∧ (q.dial d).indicated = some 0 ∧ (q.dial d).searchCount = 0 ∧ (q.dial d).misses = 0
              ∧ (q.dial d).slips = x.slips ∧ (q.dial d).confirmations = x.confirmations
              ∧ (q.dial d).state ≠ .unknown
              ∧ (p.budget.waiting.count d ≤ 1 →
                  r.evaluated q d { z with
                    searchCount := 0, state := if p.budget.dialHolds d = true then .advancing else .inStep })
              ∧ r.sameBut q [.dialDriver, .lamps, .budget, .locals])

/-- R37: SET_DIAL from a SERVICE source: its checks in order; then the position is the operand, the misses and the
search count are 0 and no watch is open. While UNSET the dial is STOPPED; otherwise it is evaluated from IN_STEP (R27),
here for a dial that stands at most once in the waiting list. -/
def Obligations.SetDialSets : Prop :=
  ∀ (p : Part) (w : List Instr) (src d pos : Nat), p.hears src .service = true →
    (d = 0 ∨ 4 < d → exec (.setDial src d pos) ⟨p, w⟩ = .next ⟨p.answered src 14 .badIndex [], w⟩)
    ∧ (1 ≤ d → d ≤ 4 → (p.dial d).positions ≤ pos →
        exec (.setDial src d pos) ⟨p, w⟩ = .next ⟨p.answered src 14 .badValue [], w⟩)
    ∧ (1 ≤ d → d ≤ 4 → pos < (p.dial d).positions →
        (p.time.state = .unset →
          exec (.setDial src d pos) ⟨p, w⟩
            = .next ⟨(p.putDial d { p.dial d with
                indicated := some pos, misses := 0, searchCount := 0, homeWatch := none, faultRaised := false
                state := .stopped }).answered src 14 .ok [], w⟩)
        ∧ (p.time.state ≠ .unset →
          ∃ q : Part, exec (.setDial src d pos) ⟨p, w⟩ = .next ⟨q, w⟩
            ∧ q.gave (replyTo p.mgmt.address src 14 .ok [])
            ∧ (q.dial d).indicated = some pos ∧ (q.dial d).misses = 0 ∧ (q.dial d).searchCount = 0
            ∧ (q.dial d).homeWatch = none
            ∧ ((q.dial d).state = .inStep ∨ (q.dial d).state = .advancing ∨ (q.dial d).state = .waitingFeed
                ∨ (q.dial d).state = .holding)
            ∧ (p.budget.waiting.count d ≤ 1 → p.evaluated q d
                { p.dial d with
                  indicated := some pos, misses := 0, searchCount := 0, homeWatch := none, faultRaised := false
                  state := .inStep })
            ∧ p.sameBut q [.dialDriver, .lamps, .budget, .locals, .up, .requests]))


/-! ## Bells -/

/-- R44, R46, R163: a BELL_STATE report is ignored and counted, or it is accepted: the last report and the sensor timer
are the arrival instant of its frame (log entry 5), and the position is handled. A repeated DOWN changes nothing more;
MOVING or UP ends the DOWN period and, on a bell without a RINGERS claim, is an intrusion, which raises INTRUSION the
first time, its detail the bell and the reported code (log entry 21), and withdraws the hammer. R48, R164: the WITHDRAW
decided replaces the bell's own setting in SAFETY or enters at its back, and is followed by those of the entry into
SAFE, if the fault causes it (R61). R114, R178: the fault sends FAULT_RAISED, and SAFE_ENTERED at that entry, at which
the voices stop; FAULT_MAJOR goes to the cue links. The severity byte of the notice (log entry 20), and pulses elapsed 0
in a voice that has stopped (log entry 56), are the model's choice. -/
def Obligations.BellReport : Prop :=
  ∀ (p r : Part) (w : List Instr) (src b : Nat) (n : Nat) (pos : ReportedPosition) (x y : Bell), p.retention.supply = true →
    r = takeCopy (.bellState src b pos) p → n = p.arrivalOf (.bellState src b pos) → x = p.bell b →
    y = { x with lastReport := some n, sensorFrom := some n } →
    (b = 0 ∨ 16 < b ∨ x.config.cls = .fixed ∨ x.config.sensorNode ≠ some src →
      exec (.bellState src b pos) ⟨p, w⟩
        = .next ⟨{ r with bellGuard.ignoredReports := bump p.bellGuard.ignoredReports }, w⟩)
    ∧ (1 ≤ b → b ≤ 16 → x.config.cls = .swing → x.config.sensorNode = some src →
        (pos = .down → x.position = .down →
          exec (.bellState src b pos) ⟨p, w⟩ = .next ⟨r.putBell b y, w⟩)
        ∧ (pos = .down → x.position ≠ .down →
          exec (.bellState src b pos) ⟨p, w⟩
            = .next ⟨r.putBell b { y with position := .down, downBegan := some n, settled := false }, w⟩)
        ∧ ∀ z : Bell, z = { y with
              position := if pos = .moving then .moving else .up, downBegan := none, settled := false } →
            pos ≠ .down →
            (x.claims.ringers = true ∨ (x.intruded = true ∧ (x.config.hammerNode = none ∨ x.hammer = .withdrawn
                  ∨ x.hammer = .withdrawing)) →
              exec (.bellState src b pos) ⟨p, w⟩ = .next ⟨r.putBell b z, w⟩)
            ∧ (x.claims.ringers = false → x.intruded = true → x.config.hammerNode ≠ none →
                x.hammer ≠ .withdrawn → x.hammer ≠ .withdrawing →
                ∃ q : Part, exec (.bellState src b pos) ⟨p, w⟩ = .next ⟨q, w⟩
                  ∧ q.bell b = { z with
                      hammer := .withdrawing, wanted := some .withdraw, stateBefore := x.hammer, hammerTimer := none }
                  ∧ q.line.safetyQ = p.safetyAfter [(b, .withdraw)]
                  ∧ (∀ a, a ≠ b → q.bell a = p.bell a) ∧ r.sameBut q [.bellGuard, .safety])
            ∧ (x.claims.ringers = false → x.intruded = false →
                ∃ q : Part, exec (.bellState src b pos) ⟨p, w⟩ = .next ⟨q, w⟩
                  ∧ (q.bell b).position = z.position ∧ (q.bell b).settled = false ∧ (q.bell b).intruded = true
                  ∧ (x.config.hammerNode ≠ none → (q.bell b).hammer = .withdrawing)
                  ∧ q.line.safetyQ = p.safetyAfter ((b, .withdraw) :: p.drawnAtFault b)
                  ∧ q.mgmt.faults
                    = some (p.recordedFault .intrusion [byte b, if pos = .moving then 2 else 3])
                  ∧ q.mgmt.partState = (if p.mgmt.faults = none then p.mgmt.partState else .safe)
                  ∧ q.line.upQ = p.upAfter (p.faultNotices 3 [byte b, if pos = .moving then 2 else 3])
                  ∧ p.majorRaised q
                  ∧ r.sameBut q [.dialDriver, .bellGuard, .session, .clock, .tune, .lamps, .budget, .events, .safety,
                      .locals, .up, .faults]))

/-- R45, R51, R73: a SWING bell that has been DOWN for its settle interval settles. Its hammer, if it is WITHDRAWN with
no setting wanted, no RINGERS claim and the part RUNNING, is engaged, by a setting in SAFETY (R48, R164); in a session
that closes, the claim of a HELD bell leaves, and with the last one the session completes. A bell outside the set, or
LEFT, settles as without a session. R47: at the sensor timeout the position is UNKNOWN, the DOWN period ends,
SENSOR_SILENT is raised, its notice with severity 0 (log entry 20), and the timer stops; the hammer and the other bells
are left alone. Before its instant, off its condition or with the timer stopped, either command changes nothing (log
entry 3). -/
def Obligations.BellTimers : Prop :=
  ∀ (p : Part) (w : List Instr) (b : Nat) (x : Bell), p.retention.supply = true → 1 ≤ b → b ≤ 16 → x = p.bell b →
    (x.config.cls = .fixed ∨ x.position ≠ .down ∨ x.settled = true ∨ x.downBegan = none
        ∨ (∃ t, x.downBegan = some t ∧ p.osc < t + x.config.settle * 1024) →
      exec (.settleTimeReached b) ⟨p, w⟩ = .next ⟨p, w⟩)
    ∧ (∀ t, x.config.cls = .swing → x.position = .down → x.settled = false → x.downBegan = some t →
        t + x.config.settle * 1024 ≤ p.osc →
        (p.session.state ≠ .closing ∨ (¬ ∃ y ∈ p.session.bells, y.bell = b ∧ y.stage = .held) →
          (x.config.hammerNode = none ∨ x.hammer ≠ .withdrawn ∨ x.wanted ≠ none ∨ p.mgmt.partState = .safe
              ∨ x.claims.ringers = true →
            exec (.settleTimeReached b) ⟨p, w⟩ = .next ⟨p.putBell b { x with settled := true }, w⟩)
          ∧ (x.config.hammerNode ≠ none → x.hammer = .withdrawn → x.wanted = none → p.mgmt.partState = .running →
              x.claims.ringers = false →
              ∃ q : Part, exec (.settleTimeReached b) ⟨p, w⟩ = .next ⟨q, w⟩
                ∧ q.bell b = { x with
                    settled := true, intruded := false, hammer := .engaging, wanted := some .engage
                    stateBefore := .withdrawn, hammerTimer := none }
                ∧ q.line.safetyQ = p.safetyAfter [(b, .engage)]
                ∧ (∀ a, a ≠ b → q.bell a = p.bell a) ∧ p.sameBut q [.bellGuard, .safety]))
        ∧ (p.session.state = .closing → (∃ y ∈ p.session.bells, y.bell = b ∧ y.stage = .held) →
            ∃ q : Part, exec (.settleTimeReached b) ⟨p, w⟩ = .next ⟨q, w⟩
              ∧ (q.bell b).settled = true ∧ (q.bell b).claims.ringers = false
              ∧ (x.config.hammerNode ≠ none → x.hammer = .withdrawn → x.wanted = none →
                  p.mgmt.partState = .running → (q.bell b).hammer = .engaging ∧ (q.bell b).wanted = some .engage
                    ∧ q.line.safetyQ = p.safetyAfter [(b, .engage)])
              ∧ (x.config.hammerNode = none ∨ x.hammer ≠ .withdrawn ∨ x.wanted ≠ none ∨ p.mgmt.partState = .safe →
                  q.line.safetyQ = p.line.safetyQ)
              ∧ ((∃ y ∈ p.session.bells, y.bell ≠ b ∧ y.stage ≠ .left) →
                  q.session = { p.session with bells := p.session.bells.map (fun (y : SessionBell) =>
                    if y.bell = b then { y with stage := .left } else y) })
              ∧ ((∀ y ∈ p.session.bells, y.bell = b ∨ y.stage = .left) →
                  q.session = { p.session with
                    state := .idle, bells := [], requester := none, began := p.towerTime, outcome := .closed
                    closed := bump p.session.closed })
              ∧ p.sameBut q [.bellGuard, .session, .events, .safety, .up]))
    ∧ (x.sensorFrom = none ∨ (∃ t, x.sensorFrom = some t ∧ p.osc < t + p.bellGuard.sensorTimeout * 1024) →
      exec (.sensorTimeout b) ⟨p, w⟩ = .next ⟨p, w⟩)
    ∧ ∀ t, x.sensorFrom = some t → t + p.bellGuard.sensorTimeout * 1024 ≤ p.osc →
        ∃ q : Part, exec (.sensorTimeout b) ⟨p, w⟩ = .next ⟨q, w⟩
          ∧ q.bell b = { x with position := .unknown, downBegan := none, settled := false, sensorFrom := none }
          ∧ (∀ a, a ≠ b → q.bell a = p.bell a)
          ∧ q.mgmt.tally = { p.mgmt.tally with sensorSilent := bump p.mgmt.tally.sensorSilent }
          ∧ q.mgmt.faults = p.mgmt.faults ∧ q.mgmt.partState = p.mgmt.partState
          ∧ (p.line.upQ.length < 14 →
              q.line.upQ = p.line.upQ ++ [p.noticeOf .faultRaised p.towerTime [4, 0, byte b]])
          ∧ p.sameBut q [.bellGuard, .up, .faults]

/-- R50, R51, R52: a HAMMER_REPORT that matches no fitted bell is counted. Of a matched bell the hammer timer stops and
the state is the one reported: without a RINGERS claim ENGAGED is just that, and WITHDRAWN leads to re-engagement when
its conditions hold. R66, R68: WITHDRAWN on a SWING bell with a RINGERS claim makes the claim active: while PREPARING
the bell's stage is HELD, and with the last one the session is OPEN, which is told by a notice, its detail that of log
entry 21, and an event. ENGAGED on a bell that holds a RINGERS claim is withdrawn at once, and is HAMMER_UNEXPECTED if
the claim was active, with its notices, its event and the stop of the voices at an entry into SAFE (R114, R178). R48,
R164: what is decided stands in SAFETY, the WITHDRAWs of an entry into SAFE (R61) behind it. The report waits as a copy
until the command takes it (log entry 5); the severity byte of a fault's notice (log entry 20), and pulses elapsed 0 in
a voice that has stopped (log entry 56), are the model's choice. -/
def Obligations.HammerReport : Prop :=
  ∀ (p r : Part) (w : List Instr) (src channel : Nat) (a : HammerAnswer), p.retention.supply = true →
    r = takeCopy (.hammerReport src channel a) p →
    ((∀ b, 1 ≤ b → b ≤ 16 →
        ¬ ((p.bell b).config.hammerNode = some src ∧ (p.bell b).config.hammerChannel = channel)) →
      exec (.hammerReport src channel a) ⟨p, w⟩
        = .next ⟨{ r with bellGuard.unmatchedReports := bump p.bellGuard.unmatchedReports }, w⟩)
    ∧ ∀ (b : Nat) (x : Bell), 1 ≤ b → b ≤ 16 → x = p.bell b → x.config.hammerNode = some src →
        x.config.hammerChannel = channel →
        (∀ c, 1 ≤ c → c < b →
          ¬ ((p.bell c).config.hammerNode = some src ∧ (p.bell c).config.hammerChannel = channel)) →
        (x.claims.ringers = false →
          (a = .engaged →
            exec (.hammerReport src channel a) ⟨p, w⟩
              = .next ⟨r.putBell b { x with hammerTimer := none, hammer := .engaged }, w⟩)
          ∧ (a = .withdrawn →
              x.wanted ≠ none ∨ p.mgmt.partState = .safe ∨ (x.config.cls = .swing ∧ x.settled = false) →
              exec (.hammerReport src channel a) ⟨p, w⟩
                = .next ⟨r.putBell b { x with hammerTimer := none, hammer := .withdrawn }, w⟩)
          ∧ (a = .withdrawn → x.wanted = none → p.mgmt.partState = .running →
              x.config.cls = .fixed ∨ x.settled = true →
              ∃ q : Part, exec (.hammerReport src channel a) ⟨p, w⟩ = .next ⟨q, w⟩
                ∧ q.bell b = { x with
                    intruded := false, hammer := .engaging, wanted := some .engage, stateBefore := .withdrawn
                    hammerTimer := none }
                ∧ q.line.safetyQ = p.safetyAfter [(b, .engage)]
                ∧ (∀ c, c ≠ b → q.bell c = p.bell c) ∧ r.sameBut q [.bellGuard, .safety]))
        ∧ (∀ (y : Bell) (held : List SessionBell), x.claims.ringers = true → x.config.cls = .swing →
            a = .withdrawn → y = { x with hammerTimer := none, hammer := .withdrawn } →
            held = p.session.bells.map (fun (k : SessionBell) => if k.bell = b then { k with stage := .held } else k) →
            (p.session.state ≠ .preparing ∨ x.hammer = .withdrawn →
              exec (.hammerReport src channel a) ⟨p, w⟩ = .next ⟨r.putBell b y, w⟩)
            ∧ (p.session.state = .preparing → x.hammer ≠ .withdrawn →
                ((∃ k ∈ held, k.stage ≠ .held) →
                  exec (.hammerReport src channel a) ⟨p, w⟩
                    = .next ⟨{ r.putBell b y with session.bells := held }, w⟩)
                ∧ ((∀ k ∈ held, k.stage = .held) →
                  ∃ q : Part, exec (.hammerReport src channel a) ⟨p, w⟩ = .next ⟨q, w⟩
                    ∧ q.bell b = y ∧ (∀ c, c ≠ b → q.bell c = p.bell c)
                    ∧ q.session = { p.session with
                        bells := held, state := .opened, began := p.towerTime, opened := bump p.session.opened }
                    ∧ (p.time.state ≠ .unset → q.cal.events = p.cal.events ++ [.sessionOpen])
                    ∧ (p.line.upQ.length < 14 →
                        q.line.upQ = p.line.upQ ++ [p.noticeOf .sessionState p.towerTime
                          ([1, 2] ++ bellSetBytes p.session.set ++ beOpt 1 p.session.requester ++ [1, 0])])
                    ∧ r.sameBut q [.bellGuard, .session, .events, .up])))
        ∧ (x.claims.ringers = true → a = .engaged →
            ∃ q : Part, exec (.hammerReport src channel a) ⟨p, w⟩ = .next ⟨q, w⟩
              ∧ (q.bell b).hammer = .withdrawing ∧ (q.bell b).wanted = some .withdraw
              ∧ (q.bell b).hammerTimer = none ∧ (q.bell b).claims.ringers = true
              ∧ (x.hammer = .withdrawn ∨ p.session.state = .opened ∨ p.session.state = .closing →
                  q.mgmt.faults = some (p.recordedFault .hammerUnexpected [byte b])
                    ∧ q.line.upQ = p.upAfter (p.faultNotices 6 [byte b]) ∧ p.majorRaised q
                    ∧ q.line.safetyQ = p.safetyAfter ((b, .withdraw) :: p.drawnAtFault b))
              ∧ (x.hammer ≠ .withdrawn → p.session.state = .idle ∨ p.session.state = .preparing →
                  q.mgmt = p.mgmt ∧ q.line.safetyQ = p.safetyAfter [(b, .withdraw)])
              ∧ r.sameBut q [.dialDriver, .bellGuard, .session, .clock, .tune, .lamps, .budget, .events, .safety,
                  .locals, .up, .faults])

/-- R50, R178: a hammer jams, by a report of JAMMED or when the hammer timer runs out: HAMMER_JAM is raised. With the
fault record already RAISED and the part RUNNING the part enters SAFE, and the hammer is withdrawn with the others
(R61); else it is JAMMED. FAULT_RAISED is sent, and SAFE_ENTERED at that entry, at which the voices stop with TUNE_END
for a tune that ends so (R113, R114); FAULT_MAJOR goes to the cue links (R156). R69: a session of that bell fails if it
is PREPARING, its claims leave and its last notice says so with the requester of the session (log entries 21 and 54),
and its bells that may be are engaged (R51); if it is OPEN or CLOSING the jam is marked. A timer that has not run out,
or has stopped, changes nothing (log entry 3). The severity byte of the notice (log entry 20), and pulses elapsed 0 in a
voice that has stopped (log entry 56), are the model's choice. -/
def Obligations.HammerJams : Prop :=
  ∀ (p : Part) (w : List Instr) (b node : Nat) (x : Bell), p.retention.supply = true → 1 ≤ b → b ≤ 16 →
    x = p.bell b → x.config.hammerNode = some node →
    (x.hammerTimer = none ∨ (∃ t, x.hammerTimer = some t ∧ p.osc < t) →
      exec (.hammerTimeout b) ⟨p, w⟩ = .next ⟨p, w⟩)
    ∧ ∀ c : Instr,
        (c = .hammerTimeout b ∧ ∃ t, x.hammerTimer = some t ∧ t ≤ p.osc)
          ∨ (c = .hammerReport node x.config.hammerChannel .jammed
              ∧ ∀ a, 1 ≤ a → a < b → ¬ ((p.bell a).config.hammerNode = some node
                  ∧ (p.bell a).config.hammerChannel = x.config.hammerChannel)) →
        ∃ q : Part, exec c ⟨p, w⟩ = .next ⟨q, w⟩
          ∧ (q.bell b).hammer
            = (if p.mgmt.faults ≠ none ∧ p.mgmt.partState = .running then .withdrawing else .jammed)
          ∧ (q.bell b).hammerTimer = none
          ∧ q.mgmt.faults = some (p.recordedFault .hammerJam [byte b])
          ∧ q.mgmt.partState = (if p.mgmt.faults = none then p.mgmt.partState else .safe)
          ∧ (b ∉ p.session.set ∨ p.session.state ≠ .preparing ∨ p.mgmt.faults ≠ none ∨ p.mgmt.partState = .safe →
              q.line.safetyQ = p.safetyAfter (p.drawnAtFault b))
          ∧ p.majorRaised q
          ∧ (b ∉ p.session.set ∨ p.session.state ≠ .preparing →
              q.line.upQ = p.upAfter (p.faultNotices 5 [byte b]))
          ∧ (b ∉ p.session.set → q.session = p.session)
          ∧ (b ∈ p.session.set → p.session.state = .opened ∨ p.session.state = .closing →
              q.session = { p.session with bells := p.session.bells.map (fun (k : SessionBell) =>
                if k.bell = b then { k with jam := true } else k) })
          ∧ (b ∈ p.session.set → p.session.state = .preparing →
              q.session = { p.session with
                state := .idle, bells := [], requester := none, began := p.towerTime, outcome := .failed b
                failed := bump p.session.failed }
              ∧ (∀ a ∈ p.session.set, 1 ≤ a → a ≤ 16 → (q.bell a).claims.ringers = false)
              ∧ (p.mgmt.faults = none → p.mgmt.partState = .running →
                  q.line.safetyQ = p.safetyAfter (p.engagedOf (p.session.set.filter (fun a => a ≠ b))))
              ∧ q.line.upQ = p.upAfter (p.faultNotices 5 [byte b] ++ [p.noticeOf .sessionState p.towerTime
                  ([1, 0] ++ bellSetBytes p.session.set ++ beOpt 1 p.session.requester ++ [4, byte b])]))
          ∧ p.sameBut q [.dialDriver, .bellGuard, .session, .clock, .tune, .lamps, .budget, .events, .copies, .safety,
              .locals, .up, .faults]

/-- R55, R56: CLAIM_BELLS and RELEASE_BELLS from a CONSOLE, OPERATOR or SERVICE source: the checks in their order; an
accepted one enters the node's CONSOLE claim with an idle timer of 120 s on every bell named, or empties the place of
every bell named that has such a claim. A claim leaves at its idle timer; before its instant, or with the timer
stopped, CONSOLE_IDLE_TIMEOUT changes nothing (log entry 3). Other bells and everything else are left alone. -/
def Obligations.ConsoleClaims : Prop :=
  ∀ (p : Part) (w : List Instr),
   (p.retention.supply = true → ∀ b, 1 ≤ b → b ≤ 16 →
      ((p.bell b).consoleIdle = none ∨ (∃ t, (p.bell b).consoleIdle = some t ∧ p.osc < t) →
        exec (.consoleIdleTimeout b) ⟨p, w⟩ = .next ⟨p, w⟩)
      ∧ ∀ t, (p.bell b).consoleIdle = some t → (t ≤ p.osc → exec (.consoleIdleTimeout b) ⟨p, w⟩
          = .next ⟨p.putBell b { p.bell b with
              claims := { (p.bell b).claims with console := none }, consoleIdle := none }, w⟩))
   ∧ ∀ (src : Nat) (cls : SourceClass) (bells : List Nat), p.hears src cls = true → cls.rank ≠ 0 →
    (bells = [] → exec (.claimBells src bells) ⟨p, w⟩ = .next ⟨p.answered src 20 .badValue [], w⟩
      ∧ exec (.releaseBells src bells) ⟨p, w⟩ = .next ⟨p.answered src 21 .badValue [], w⟩)
    ∧ ((∃ b ∈ bells, b = 0 ∨ 16 < b) →
        exec (.claimBells src bells) ⟨p, w⟩ = .next ⟨p.answered src 20 .badIndex [], w⟩
          ∧ exec (.releaseBells src bells) ⟨p, w⟩ = .next ⟨p.answered src 21 .badIndex [], w⟩)
    ∧ (bells ≠ [] → (∀ b ∈ bells, 1 ≤ b ∧ b ≤ 16) →
        (p.mgmt.partState = .safe →
          exec (.claimBells src bells) ⟨p, w⟩ = .next ⟨p.answered src 20 .safeState [], w⟩)
        ∧ (p.mgmt.partState = .running →
          ∃ q : Part, exec (.claimBells src bells) ⟨p, w⟩ = .next ⟨q.answered src 20 .ok [], w⟩
            ∧ (∀ b, 1 ≤ b → b ≤ 16 →
                q.bell b = (if b ∈ bells then { p.bell b with
                  claims := { (p.bell b).claims with console := some src }
                  consoleIdle := some (p.osc + 122880) } else p.bell b))
            ∧ p.sameBut q [.bellGuard])
        ∧ ∃ q : Part, exec (.releaseBells src bells) ⟨p, w⟩ = .next ⟨q.answered src 21 .ok [], w⟩
            ∧ (∀ b, 1 ≤ b → b ≤ 16 →
                q.bell b = (if b ∈ bells ∧ (p.bell b).claims.console ≠ none then { p.bell b with
                  claims := { (p.bell b).claims with console := none }, consoleIdle := none } else p.bell b))
            ∧ p.sameBut q [.bellGuard])

/-- R53: the owner of a bell is its highest-ranked active claim, and a bell without an active claim has none. A
RINGERS claim is active only while the hammer is WITHDRAWN or the session is OPEN or CLOSING. R57, TABLE 3-4: the
guard check at admission. The first condition that fails gives the answer and raises the bell's count of refusals;
when all hold, the answer is ADMITTED with a charge in the list, or BUDGET_SKIP. -/
def Obligations.AdmissionAnswers : Prop :=
  (∀ (p : Part) (b : Nat),
    (∀ c : ClaimClass, p.owner b = some c ↔
      p.claimActive b c = true ∧ ∀ a, p.claimActive b a = true → a.rank ≤ c.rank)
    ∧ (p.owner b = none ↔ ∀ c, p.claimActive b c = false)
    ∧ (p.claimActive b .ringers = true ↔ (p.bell b).claims.ringers = true
        ∧ ((p.bell b).hammer = .withdrawn ∨ p.session.state = .opened ∨ p.session.state = .closing)))
  ∧ ∀ (p : Part) (b : Nat) (o : Origin) (x : Bell), 1 ≤ b → b ≤ 16 → x = p.bell b →
    let still := x.config.cls = .fixed ∨ x.position = .down
    let ready := ∀ t, x.lastTake = some t → t + msTicks x.config.recovery ≤ p.osc
    let r := admitStrike b o p
    let refused := p.putBell b { x with strikesRefused := bump x.strikesRefused }
    (p.mgmt.partState = .safe → r.1 = refused ∧ r.2.1 = .safe)
    ∧ (p.mgmt.partState = .running →
        (p.owner b ≠ some o.claim → r.1 = refused ∧ r.2.1 = .notOwner)
        ∧ (p.owner b = some o.claim →
            (x.config.permits.allows o = false → r.1 = refused ∧ r.2.1 = .notPermitted)
            ∧ (x.config.permits.allows o = true →
                (¬ still → r.1 = refused ∧ r.2.1 = .position)
                ∧ (still → x.hammer ≠ .engaged → r.1 = refused ∧ r.2.1 = .hammer)
                ∧ (still → x.hammer = .engaged → ¬ ready → r.1 = refused ∧ r.2.1 = .recovery)
                ∧ (still → x.hammer = .engaged → ready →
                    (p.budget.decide x.config.charge = .refuse →
                      r.1 = { refused with budget.strikeRefusals := bump p.budget.strikeRefusals }
                        ∧ r.2.1 = .budgetSkip)
                    ∧ (p.budget.decide x.config.charge ≠ .refuse →
                      r.2.1 = .admitted
                        ∧ (∃ c ∈ r.1.budget.charges, c.id = r.2.2 ∧ c.holder = .strike b o
                            ∧ c.amount = x.config.charge ∧ c.releaseAt = none)
                        ∧ p.sameBut r.1 [.dialDriver, .lamps, .budget, .locals])))))


/-! ## The tower line -/

/-- R159, TABLE 10-1: a reception passes as a frame exactly when it is that frame's bytes, the check among them, with
a LEN of 32 at most and a DEST and SRC in range: no bit of a frame is dropped, and nothing else passes. A discarded
reception is counted in its port's errors and in its case, the cases tried in order, and nothing else happens. A
reception under way when the receiver still waits for an idle gap is lost (R171, log entry 47). -/
def Obligations.ReceptionsJudged : Prop :=
  (∀ (bs : List Byte) (f : Frame), judge bs = .frame f ↔ (f.sound ∧ bs = f.bytes))
  ∧ ∀ (p : Part) (w : List Instr) (t : Port) (bs : List Byte), p.retention.supply = true →
    (p.portWaits t = true → exec (.frameReceived t bs) ⟨p, w⟩ = .next ⟨p, w⟩)
    ∧ (p.portWaits t = false →
        (bs.length < 4 →
          exec (.frameReceived t bs) ⟨p, w⟩ = .next ⟨p.atPort t (fun c =>
            { c with errors := bump c.errors, shortErrors := bump c.shortErrors }), w⟩)
        ∧ ∀ (a b k n : Byte) (rest : List Byte), bs = a :: b :: k :: n :: rest →
            (32 < n.toNat →
              exec (.frameReceived t bs) ⟨p, w⟩ = .next ⟨p.atPort t (fun c =>
                { c with errors := bump c.errors, lengthErrors := bump c.lengthErrors }), w⟩)
            ∧ (n.toNat ≤ 32 →
                (bs.length < n.toNat + 6 →
                  exec (.frameReceived t bs) ⟨p, w⟩ = .next ⟨p.atPort t (fun c =>
                    { c with errors := bump c.errors, shortErrors := bump c.shortErrors }), w⟩)
                ∧ (n.toNat + 6 < bs.length →
                  exec (.frameReceived t bs) ⟨p, w⟩ = .next ⟨p.atPort t (fun c =>
                    { c with errors := bump c.errors, longErrors := bump c.longErrors }), w⟩)
                ∧ (bs.length = n.toNat + 6 →
                  (bs.drop (n.toNat + 4) ≠ checkBytes (crc16 (bs.take (n.toNat + 4))) →
                    exec (.frameReceived t bs) ⟨p, w⟩ = .next ⟨p.atPort t (fun c =>
                      { c with errors := bump c.errors, checkErrors := bump c.checkErrors }), w⟩)
                  ∧ (bs.drop (n.toNat + 4) = checkBytes (crc16 (bs.take (n.toNat + 4))) →
                      62 < a.toNat ∨ b.toNat = 0 ∨ 62 < b.toNat →
                    exec (.frameReceived t bs) ⟨p, w⟩ = .next ⟨p.atPort t (fun c =>
                      { c with errors := bump c.errors, addressErrors := bump c.addressErrors }), w⟩))))

/-- R160, R162, R163, R166, R167: what becomes of a frame that passes, an MGMT_REQUEST apart, under a sound route table.
FORWARD and DROP do as R163 says. LOCAL and TAP deliver the copy that the frame spells (any quality byte of a mark is
delivered, log entry 33), with its arrival instant, its port, the d and the monitor node in force (R4, R133), for a
TIME_MARK its class and for a DIAL_HOME the dial it matches (R23, R34); it waits to be taken (log entry 5). A copy that
is malformed, or whose kind has no consumer, is counted and not delivered; one that is both is counted as undelivered
alone, which is the model's choice (log entry 87). TAP forwards the frame besides. A HAMMER_SET from the console is
dropped by the Guard whatever the table says, but for DROP; a STRIKE from the console enters PASS only as a strike that
the Guard admitted for a bell that the console owns. R57, R58, R166: such a STRIKE of no fitted bell is counted and
dropped; one of a bell with a force or origin out of range raises that bell's refusal count. Any other restarts the
bell's console idle timer and is admitted or refused and counted; admitted, it stands at the back of PASS, unchanged,
with its charge in the list, or with PASS full it is dropped, counted and its charge released. Its bytes are read as log
entry 52 says. -/
def Obligations.FramesRouted : Prop :=
  ∀ (p r : Part) (w : List Instr) (t : Port) (f : Frame), p.retention.supply = true → p.portWaits t = false →
    f.sound → p.routesHold → r = p.atPort t (fun c => { c with received := bump c.received }) → f.kind ≠ 70 →
    (p.routeOf t f = .drop →
      exec (.frameReceived t f.bytes) ⟨p, w⟩
        = .next ⟨r.atPort t (fun c => { c with routeDrops := bump c.routeDrops }), w⟩)
    ∧ (t = .field ∨ (f.kind ≠ 21 ∧ f.kind ≠ 22) →
        (p.routeOf t f = .forward → exec (.frameReceived t f.bytes) ⟨p, w⟩ = .next ⟨r.forwarded t f, w⟩)
        ∧ ∀ q : Part,
            (∃ (i : Instr) (cls : Option SourceClass) (m : Option Nat), f.spells i
                ∧ (match i with
                  | .dialHome src channel => p.firstDial src channel m
                  | _ => m = none)
                ∧ (if f.kind = 61 then ∃ c, cls = some c ∧ p.classIs f.src c = true else cls = none)
                ∧ q = { r with line.delivered := p.line.delivered
                    ++ [{ command := i, arrival := p.osc, port := t, cls := cls, delay := p.time.delay
                          monitor := p.budget.limits.monitor, dial := m }] })
              ∨ (f.hasConsumer ∧ (∀ i, ¬ f.spells i) ∧ q = { r with line.malformed := bump p.line.malformed })
              ∨ (¬ f.hasConsumer ∧ q = { r with line.undelivered := bump p.line.undelivered }) →
            (p.routeOf t f = .toPart → exec (.frameReceived t f.bytes) ⟨p, w⟩ = .next ⟨q, w⟩)
            ∧ (p.routeOf t f = .tap → exec (.frameReceived t f.bytes) ⟨p, w⟩ = .next ⟨q.forwarded t f, w⟩))
    ∧ (t = .console → f.kind = 22 → p.routeOf t f ≠ .drop →
        exec (.frameReceived t f.bytes) ⟨p, w⟩
          = .next ⟨{ r with bellGuard.unmatchedConsole := bump p.bellGuard.unmatchedConsole }, w⟩)
    ∧ (t = .console → f.kind = 21 → p.routeOf t f ≠ .drop →
        ∃ q : Part, exec (.frameReceived t f.bytes) ⟨p, w⟩ = .next ⟨q, w⟩
          ∧ (q.line.passQ = p.line.passQ
              ∨ ∃ s : Strike, q.line.passQ = p.line.passQ ++ [.strike s] ∧ s.frame = f
                  ∧ p.owner s.bell = some .console ∧ p.strikable s.bell = true
                  ∧ (p.bell s.bell).config.hammerNode = some f.dest)
          ∧ r.sameBut q [.dialDriver, .bellGuard, .lamps, .budget, .routes, .locals, .pass])
    ∧ ∀ channel force origin : Nat, t = .console → f.kind = 21 → p.routeOf t f ≠ .drop →
        channel = (f.payload.getD 0 0).toNat → force = (f.payload.getD 1 0).toNat →
        origin = (f.payload.getD 2 0).toNat →
        ((∀ b, 1 ≤ b → b ≤ 16 →
            ¬ ((p.bell b).config.hammerNode = some f.dest ∧ (p.bell b).config.hammerChannel = channel)) →
          exec (.frameReceived t f.bytes) ⟨p, w⟩
            = .next ⟨{ r with bellGuard.unmatchedConsole := bump p.bellGuard.unmatchedConsole }, w⟩)
        ∧ ∀ (b : Nat) (x y : Bell), 1 ≤ b → b ≤ 16 → x = p.bell b → x.config.hammerNode = some f.dest →
            x.config.hammerChannel = channel →
            (∀ a, 1 ≤ a → a < b →
              ¬ ((p.bell a).config.hammerNode = some f.dest ∧ (p.bell a).config.hammerChannel = channel)) →
            y = { x with consoleIdle := some (p.osc + 122880) } →
            (force = 0 ∨ 7 < force ∨ origin ≠ 3 →
              exec (.frameReceived t f.bytes) ⟨p, w⟩
                = .next ⟨r.putBell b { x with strikesRefused := bump x.strikesRefused }, w⟩)
            ∧ (1 ≤ force → force ≤ 7 → origin = 3 →
                (p.admission b .console ≠ .admitted →
                  exec (.frameReceived t f.bytes) ⟨p, w⟩
                    = .next ⟨r.putBell b { y with strikesRefused := bump x.strikesRefused }, w⟩)
                ∧ (p.admission b .console = .admitted → p.budget.decide x.config.charge = .refuse →
                  exec (.frameReceived t f.bytes) ⟨p, w⟩
                    = .next ⟨({ r with budget.strikeRefusals := bump p.budget.strikeRefusals }).putBell b
                        { y with strikesRefused := bump x.strikesRefused }, w⟩)
                ∧ (p.admission b .console = .admitted → p.budget.decide x.config.charge ≠ .refuse →
                  ∃ (q : Part) (id : Nat), exec (.frameReceived t f.bytes) ⟨p, w⟩ = .next ⟨q, w⟩
                    ∧ q.budget.strikeGrants = bump p.budget.strikeGrants
                    ∧ (∀ a, a ≠ b → q.bell a = p.bell a)
                    ∧ (p.line.passQ.length < 16 →
                        q.line.passQ = p.line.passQ ++ [.strike { bell := b, charge := id, frame := f }]
                          ∧ { id := id, holder := .strike b .console, amount := x.config.charge, grantedAt := p.osc
                              releaseAt := none } ∈ q.budget.charges
                          ∧ (p.budget.decide x.config.charge = .grant →
                              q.budget.charges = p.budget.charges ++
                                [{ id := id, holder := .strike b .console, amount := x.config.charge
                                   grantedAt := p.osc, releaseAt := none }])
                          ∧ q.bell b = y ∧ r.sameBut q [.dialDriver, .bellGuard, .lamps, .budget, .locals, .pass])
                    ∧ (16 ≤ p.line.passQ.length →
                        q.line.passQ = p.line.passQ ∧ q.line.passOverflow = bump p.line.passOverflow
                          ∧ (∀ c ∈ q.budget.charges, c.holder = .strike b .console → c ∈ p.budget.charges)
                          ∧ q.bell b = { y with strikesRefused := bump x.strikesRefused }
                          ∧ r.sameBut q [.dialDriver, .bellGuard, .lamps, .budget, .routes, .locals])))

/-- R160, R162, R172: an MGMT_REQUEST. With DEST the part's own address it is dropped and counted from the field port,
and delivered from the console port whatever the table holds: counted as malformed without payload, busy or not (log
entry 70), dropped and counted while another is in hand (R167), and also until the reply to RESET_PART has completed
(the model's choice, log entry 88), answered NOT_PERMITTED where the class of its source is NONE or TIME (check 1) and
BAD_VALUE where it asks no operation of TABLE 11-3 with the LEN of its operands (check 2), and else taken in hand with
its source's class read at this delivery; it stays in hand until its own command is taken (log entry 5). With any other
DEST no copy is delivered: it is forwarded or dropped as the table says. -/
def Obligations.RequestsDelivered : Prop :=
  ∀ (p r : Part) (w : List Instr) (t : Port) (f : Frame), p.retention.supply = true → p.portWaits t = false →
    f.sound → f.kind = 70 → r = p.atPort t (fun c => { c with received := bump c.received }) →
    (f.dest = p.mgmt.address →
      (t = .field →
        exec (.frameReceived t f.bytes) ⟨p, w⟩
          = .next ⟨{ r with line.foreignRequests := bump p.line.foreignRequests }, w⟩)
      ∧ (t = .console →
        (f.payload = [] →
          exec (.frameReceived t f.bytes) ⟨p, w⟩ = .next ⟨{ r with line.malformed := bump p.line.malformed }, w⟩)
        ∧ (f.payload ≠ [] → p.busy = true →
          exec (.frameReceived t f.bytes) ⟨p, w⟩ = .next ⟨{ r with line.busyDrops := bump p.line.busyDrops }, w⟩)
        ∧ ∀ (cls : SourceClass) (a : Byte) (rest : List Byte), f.payload = a :: rest → p.hears f.src cls = true →
            (cls = .noClass ∨ cls = .time →
              exec (.frameReceived t f.bytes) ⟨p, w⟩ = .next ⟨r.answered f.src a.toNat .notPermitted [], w⟩)
            ∧ (cls ≠ .noClass → cls ≠ .time →
                ((∀ i, ¬ f.asks i) →
                  exec (.frameReceived t f.bytes) ⟨p, w⟩ = .next ⟨r.answered f.src a.toNat .badValue [], w⟩)
                ∧ ∀ i, f.asks i →
                    exec (.frameReceived t f.bytes) ⟨p, w⟩
                      = .next ⟨{ r with mgmt.inHand := some { request := i, cls := cls } }, w⟩)))
    ∧ (f.dest ≠ p.mgmt.address → p.routesHold →
        (p.routeOf t f = .drop →
          exec (.frameReceived t f.bytes) ⟨p, w⟩
            = .next ⟨r.atPort t (fun c => { c with routeDrops := bump c.routeDrops }), w⟩)
        ∧ (p.routeOf t f = .toPart → exec (.frameReceived t f.bytes) ⟨p, w⟩ = .next ⟨r, w⟩)
        ∧ (p.routeOf t f = .forward ∨ p.routeOf t f = .tap →
          exec (.frameReceived t f.bytes) ⟨p, w⟩ = .next ⟨r.forwarded t f, w⟩))

/-- R168, R60: FIELD_ARBITER_TAKE. With a frame in flight or every queue empty it changes nothing (log entry 3). SAFETY
goes first; a WITHDRAW always leaves, an ENGAGE only if the bell may be engaged (R49), else it is discarded and the
hammer goes back to its state before. That a bell standing WITHDRAWN is not examined at the take of its WITHDRAW is the
model's choice (log entry 89). Then LOCAL, unless its run stands at 4 with PASS non-empty; then PASS. The LOCAL run
rises at a LOCAL take while PASS holds a frame, and a PASS take returns it to 0. The place freed at a LOCAL take goes to
the clock voice's oldest held strike, then to the tune voice's, then to the deferred level of the lowest lamp group that
has one (R165; a waiting frame that its level replaces takes the part's present address, the model's choice, log entry
93). A strike that passes its take check, from LOCAL or from PASS, is the bell's last take, is counted and sets its
charge's release instant (R136); one that fails is discarded and counted, its charge released, and the arbiter takes the
next frame within the same command (the model's choice, log entry 36). -/
def Obligations.ArbiterOrder : Prop :=
  ∀ (p : Part) (w : List Instr), p.retention.supply = true →
    (p.line.fieldFlight ≠ none ∨ (p.line.safetyQ = [] ∧ p.line.localQ = [] ∧ p.line.passQ = []) →
      exec .fieldArbiterTake ⟨p, w⟩ = .next ⟨p, w⟩)
    ∧ (∀ (s : Setting) (rest : List Setting), p.line.fieldFlight = none → p.line.safetyQ = s :: rest →
        (s.action = .withdraw ∨ p.engageable s.bell = true →
          exec .fieldArbiterTake ⟨p, w⟩
            = .next ⟨({ p with line.safetyQ := rest, line.fieldFlight := some (.setting s) }).putBell s.bell
                { p.bell s.bell with wanted := none }, w⟩)
        ∧ (s.action = .engage → p.engageable s.bell = false → rest = [] → p.line.localQ = [] → p.line.passQ = [] →
            (∀ b, b ≠ s.bell → (p.bell b).wanted = none) → (p.bell s.bell).claims.ringers = false →
            exec .fieldArbiterTake ⟨p, w⟩
              = .next ⟨({ p with line.safetyQ := [], line.discardedAtTake := bump p.line.discardedAtTake }).putBell
                  s.bell { p.bell s.bell with wanted := none, hammer := (p.bell s.bell).stateBefore }, w⟩))
    ∧ (∀ (i : LocalItem) (more : List LocalItem) (r : Part), p.line.fieldFlight = none → p.line.safetyQ = [] →
        p.line.localQ = i :: more → p.line.passQ = [] ∨ p.line.localRun ≠ 4 →
        (∀ g, 1 ≤ g → g ≤ 12 → (p.group g).deferred = false) → p.clock.voice.held = [] → p.tune.voice.held = [] →
        r = { p with
          line.localQ := more
          line.localRun := if p.line.passQ = [] then p.line.localRun else min (p.line.localRun + 1) 4 } →
        (∀ d f, i = .dialStep d f →
          exec .fieldArbiterTake ⟨p, w⟩ = .next ⟨{ r with line.fieldFlight := some (.dialStep d f) }, w⟩)
        ∧ (∀ g l f, i = .lampLevel (some g) l f →
          exec .fieldArbiterTake ⟨p, w⟩
            = .next ⟨({ r with line.fieldFlight := some (.lampLevel (some g) l f) }).putGroup g
                { p.group g with queued := none, inFlight := some l }, w⟩)
        ∧ (∀ s : Strike, i = .strike s → p.strikable s.bell = true →
            (∀ t, (p.bell s.bell).lastTake = some t → t + msTicks (p.bell s.bell).config.recovery ≤ p.osc) →
          exec .fieldArbiterTake ⟨p, w⟩
            = .next ⟨({ r with
                line.fieldFlight := some (.strike s)
                budget.charges := p.budget.charges.map (fun (c : Charge) => if c.ofStrike s.charge then
                  { c with releaseAt := some (p.osc + msTicks (p.bell s.bell).config.recovery) } else c) }).putBell
                  s.bell { p.bell s.bell with
                    lastTake := some p.osc, strikesSent := bump (p.bell s.bell).strikesSent }, w⟩))
    ∧ (∀ (f : Frame) (rest : List PassItem), p.line.fieldFlight = none → p.line.safetyQ = [] →
        p.line.localQ = [] ∨ p.line.localRun = 4 → p.line.passQ = .plain f :: rest →
        exec .fieldArbiterTake ⟨p, w⟩
          = .next ⟨{ p with line.passQ := rest, line.fieldFlight := some (.plain f), line.localRun := 0 }, w⟩)
    ∧ (∀ (s : Strike) (rest : List PassItem), p.line.fieldFlight = none → p.line.safetyQ = [] →
        p.line.localQ = [] ∨ p.line.localRun = 4 → p.line.passQ = .strike s :: rest → p.strikable s.bell = true →
        (∀ t, (p.bell s.bell).lastTake = some t → t + msTicks (p.bell s.bell).config.recovery ≤ p.osc) →
        exec .fieldArbiterTake ⟨p, w⟩
          = .next ⟨({ p with
              line.passQ := rest, line.localRun := 0, line.fieldFlight := some (.strike s)
              budget.charges := p.budget.charges.map (fun (c : Charge) => if c.ofStrike s.charge then
                { c with releaseAt := some (p.osc + msTicks (p.bell s.bell).config.recovery) } else c) }).putBell
                s.bell { p.bell s.bell with
                  lastTake := some p.osc, strikesSent := bump (p.bell s.bell).strikesSent }, w⟩)
    ∧ (∀ (s : Strike) (rest : List PassItem) (x : Bell), p.line.fieldFlight = none → p.line.safetyQ = [] →
        1 ≤ s.bell → s.bell ≤ 16 → x = p.bell s.bell →
        (p.line.localQ = [.strike s] ∧ (rest = [] ∨ p.line.localRun ≠ 4) ∧ p.line.passQ = rest
            ∧ (∀ g, 1 ≤ g → g ≤ 12 → (p.group g).deferred = false)
            ∧ p.clock.voice.held = [] ∧ p.tune.voice.held = [])
          ∨ (p.line.localQ = [] ∧ p.line.passQ = .strike s :: rest) →
        p.strikable s.bell = false ∨ (∃ t, x.lastTake = some t ∧ p.osc < t + msTicks x.config.recovery) →
        p.budget.waiting = [] →
        (rest = [] ∨ ∃ f more, rest = .plain f :: more) →
        ∃ q : Part, exec .fieldArbiterTake ⟨p, w⟩ = .next ⟨q, w⟩
          ∧ q.bell s.bell = { x with strikesDiscarded := bump x.strikesDiscarded }
          ∧ (∀ b, b ≠ s.bell → q.bell b = p.bell b)
          ∧ q.budget.charges = p.budget.charges.filter (fun c => !c.ofStrike s.charge)
          ∧ q.line.discardedAtTake = bump p.line.discardedAtTake ∧ q.line.localQ = []
          ∧ (rest = [] → q.line.fieldFlight = none ∧ q.line.passQ = [])
          ∧ (∀ f more, rest = .plain f :: more →
              q.line.fieldFlight = some (.plain f) ∧ q.line.passQ = more ∧ q.line.localRun = 0)
          ∧ p.sameBut q [.bellGuard, .budget, .routes, .locals, .pass, .flights])
    ∧ (∀ (d : Nat) (f : Frame) (more : List LocalItem) (h : HeldStrike) (held : List HeldStrike) (r : Part),
        p.line.fieldFlight = none → p.line.safetyQ = [] → p.line.localQ = .dialStep d f :: more → p.line.passQ = [] →
        r = { p with line.localQ := more ++ [.strike h.strike], line.fieldFlight := some (.dialStep d f) } →
        (p.clock.voice.held = h :: held →
          exec .fieldArbiterTake ⟨p, w⟩ = .next ⟨{ r with clock.voice := { p.clock.voice with held := held } }, w⟩)
        ∧ (p.clock.voice.held = [] → p.tune.voice.held = h :: held →
          exec .fieldArbiterTake ⟨p, w⟩ = .next ⟨{ r with tune.voice := { p.tune.voice with held := held } }, w⟩))
    ∧ ∀ (d g : Nat) (f : Frame) (more : List LocalItem), p.line.fieldFlight = none → p.line.safetyQ = [] →
        p.line.localQ = .dialStep d f :: more → p.line.passQ = [] → p.clock.voice.held = [] → p.tune.voice.held = [] →
        1 ≤ g → g ≤ 12 → (p.group g).deferred = true → (∀ a, 1 ≤ a → a < g → (p.group a).deferred = false) →
        ∃ q : Part, exec .fieldArbiterTake ⟨p, w⟩ = .next ⟨q, w⟩ ∧ q.line.fieldFlight = some (.dialStep d f)
          ∧ ({ p with line.localQ := more } : Part).levelOffered q g 1
          ∧ (q.group g).commanded = (p.group g).commanded ∧ (∀ a, a ≠ g → q.group a = p.group a)
          ∧ p.sameBut q [.lamps, .locals, .flights]

/-- R49, R128, R164, R169: the completions on the field port other than a dial step's. Each frees the transmitter and
is counted; a HAMMER_SET starts the hammer timer, 5 s, if its hammer still waits, and the Guard places its wanted
settings, lowest bell first, while SAFETY has places; a LAMP_LEVEL sets the group's sent level. A completion of
another sort of frame than the one in flight changes nothing (log entry 3). -/
def Obligations.FieldCompletions : Prop :=
  ∀ (p r : Part) (w : List Instr), p.retention.supply = true →
    r = { p with
      line.fieldFlight := none
      line.fieldPort := { p.line.fieldPort with transmitted := bump p.line.fieldPort.transmitted } } →
    ((∀ s, p.line.fieldFlight ≠ some (.strike s)) → (∀ f, p.line.fieldFlight ≠ some (.plain f)) →
      exec .fieldFrameCompletion ⟨p, w⟩ = .next ⟨p, w⟩)
    ∧ ((∃ s, p.line.fieldFlight = some (.strike s)) ∨ (∃ f, p.line.fieldFlight = some (.plain f)) →
        exec .fieldFrameCompletion ⟨p, w⟩ = .next ⟨r, w⟩)
    ∧ ((∀ g l f, p.line.fieldFlight ≠ some (.lampLevel g l f)) → exec .lampLevelCompletion ⟨p, w⟩ = .next ⟨p, w⟩)
    ∧ (∀ l f, p.line.fieldFlight = some (.lampLevel none l f) →
        exec .lampLevelCompletion ⟨p, w⟩ = .next ⟨r, w⟩)
    ∧ (∀ g l f, p.line.fieldFlight = some (.lampLevel (some g) l f) →
        exec .lampLevelCompletion ⟨p, w⟩
          = .next ⟨r.putGroup g { p.group g with
              inFlight := none, sent := some l, levelsSent := bump (p.group g).levelsSent }, w⟩)
    ∧ ((∀ s, p.line.fieldFlight ≠ some (.setting s)) → exec .hammerSetCompletion ⟨p, w⟩ = .next ⟨p, w⟩)
    ∧ ∀ (s : Setting) (x : Bell), p.line.fieldFlight = some (.setting s) → 1 ≤ s.bell → s.bell ≤ 16 →
        x = p.bell s.bell →
        ∃ q : Part, exec .hammerSetCompletion ⟨p, w⟩ = .next ⟨q, w⟩
          ∧ q.bell s.bell = { x with
              hammerTimer := if x.hammer = (if s.action = .engage then .engaging else .withdrawing)
                then some (p.osc + 5120) else x.hammerTimer }
          ∧ (∀ b, b ≠ s.bell → q.bell b = p.bell b)
          ∧ p.line.safetyQ <+: q.line.safetyQ
          ∧ q.line.safetyQ = p.safetyAfter ((List.range' 1 16).filterMap (fun b =>
              if p.line.safetyQ.any (fun y => y.bell = b) then none else (p.bell b).wanted.map (fun a => (b, a))))
          ∧ (∀ b, 1 ≤ b → b ≤ 16 → (p.bell b).config.hammerNode ≠ none → (p.bell b).wanted ≠ none →
              (∃ y ∈ q.line.safetyQ, y.bell = b) ∨ 8 ≤ q.line.safetyQ.length)
          ∧ (∀ a b, 1 ≤ a → a < b → (p.bell a).config.hammerNode ≠ none → (p.bell a).wanted ≠ none →
              (∃ y ∈ q.line.safetyQ, y.bell = b) → (∀ y ∈ p.line.safetyQ, y.bell ≠ b) →
              ∃ y ∈ q.line.safetyQ, y.bell = a)
          ∧ r.sameBut q [.bellGuard, .safety]

/-- R167, R170, R171: the console transmitter takes the front of UP when no frame is in flight, and a reply that waits
enters UP at the place freed, with its request out of hand. A completion frees the transmitter and is counted, but for
RESET_PART's reply, whose completion is a command of its own. A take with a frame in flight, and a completion that
finds no frame of its sort, change nothing (log entry 3). An idle gap ends a receiver's waiting. -/
def Obligations.ConsolePort : Prop :=
  ∀ (p : Part) (w : List Instr), p.retention.supply = true →
    (p.line.consoleFlight ≠ none ∨ p.line.upQ = [] → exec .consoleTransmitTake ⟨p, w⟩ = .next ⟨p, w⟩)
    ∧ (∀ (i : UpItem) (rest : List UpItem), p.line.consoleFlight = none → p.line.upQ = i :: rest →
        (p.mgmt.replyWaiting = none →
          exec .consoleTransmitTake ⟨p, w⟩
            = .next ⟨{ p with line.upQ := rest, line.consoleFlight := some i }, w⟩)
        ∧ (∀ u, p.mgmt.replyWaiting = some u → rest.length < 16 →
          exec .consoleTransmitTake ⟨p, w⟩
            = .next ⟨{ p with
                line.upQ := rest ++ [u], line.consoleFlight := some i, mgmt.inHand := none
                mgmt.replyWaiting := none, mgmt.address := p.mgmt.nextAddress.getD p.mgmt.address
                mgmt.nextAddress := none }, w⟩))
    ∧ (p.line.consoleFlight = none ∨ (∃ f, p.line.consoleFlight = some (.resetReply f)) →
        exec .consoleFrameCompletion ⟨p, w⟩ = .next ⟨p, w⟩)
    ∧ (∀ f, p.line.consoleFlight = some (.report f) ∨ p.line.consoleFlight = some (.notice f)
          ∨ p.line.consoleFlight = some (.reply f) →
        exec .consoleFrameCompletion ⟨p, w⟩
          = .next ⟨{ p with
              line.consoleFlight := none
              line.consolePort := { p.line.consolePort with
                transmitted := bump p.line.consolePort.transmitted } }, w⟩)
    ∧ ((∀ f, p.line.consoleFlight ≠ some (.resetReply f)) →
        exec .resetPartReplyCompletion ⟨p, w⟩ = .next ⟨p, w⟩)
    ∧ exec (.receiverIdleGap .console) ⟨p, w⟩ = .next ⟨{ p with line.consoleWaits := false }, w⟩
    ∧ exec (.receiverIdleGap .field) ⟨p, w⟩ = .next ⟨{ p with line.fieldWaits := false }, w⟩


/-! ## Ringing sessions -/

/-- R64, R65, R66, R68, R75: RING_REQUEST from a CONSOLE, OPERATOR or SERVICE source: its checks in their order.
Taken, the reply goes before the notice; every bell of the set gets a RINGERS claim, a fitted hammer that is not
WITHDRAWN is being withdrawn, and the other bells are left alone. The session is PREPARING, or OPEN at once if every
hammer is WITHDRAWN already. The notice's layout is log entry 21's. R48, R164: a WITHDRAW for each bell that has none
under way replaces its setting in SAFETY or enters at the back, in bell-number order (log entry 82). -/
def Obligations.RingRequest : Prop :=
  ∀ (p : Part) (w : List Instr) (src : Nat) (cls : SourceClass) (bells : List Nat), p.hears src cls = true →
    cls.rank ≠ 0 →
    (p.mgmt.partState = .safe →
      exec (.ringRequest src bells) ⟨p, w⟩ = .next ⟨p.answered src 22 .safeState [], w⟩)
    ∧ (p.mgmt.partState = .running → p.session.state ≠ .idle →
      exec (.ringRequest src bells) ⟨p, w⟩ = .next ⟨p.answered src 22 .busy [], w⟩)
    ∧ (p.mgmt.partState = .running → p.session.state = .idle →
        (bells = [] → exec (.ringRequest src bells) ⟨p, w⟩ = .next ⟨p.answered src 22 .badValue [], w⟩)
        ∧ ((∃ b ∈ bells, b = 0 ∨ 16 < b) →
          exec (.ringRequest src bells) ⟨p, w⟩ = .next ⟨p.answered src 22 .badIndex [], w⟩)
        ∧ (bells ≠ [] → (∀ b ∈ bells, 1 ≤ b ∧ b ≤ 16) →
          ((∃ b ∈ bells, (p.bell b).config.cls = .fixed ∨ (p.bell b).config.sensorNode = none) →
            exec (.ringRequest src bells) ⟨p, w⟩ = .next ⟨p.answered src 22 .notSwing [], w⟩)
          ∧ ((∀ b ∈ bells, (p.bell b).config.cls = .swing ∧ (p.bell b).config.sensorNode ≠ none) →
              ((∃ b ∈ bells, (p.bell b).hammer = .jammed) →
                exec (.ringRequest src bells) ⟨p, w⟩ = .next ⟨p.answered src 22 .wrongState [], w⟩)
              ∧ ((∀ b ∈ bells, (p.bell b).hammer ≠ .jammed) →
                ∃ q : Part, exec (.ringRequest src bells) ⟨p, w⟩ = .next ⟨q, w⟩
                  ∧ q.gave (replyTo p.mgmt.address src 22 .ok [])
                  ∧ (∀ b, b ∈ q.session.set ↔ b ∈ bells) ∧ q.session.requester = some src
                  ∧ q.session.began = p.towerTime
                  ∧ (∀ b ∈ bells, (q.bell b).claims.ringers = true
                      ∧ ((p.bell b).hammer = .withdrawn → (q.bell b).hammer = .withdrawn)
                      ∧ ((p.bell b).hammer ≠ .withdrawn → (p.bell b).config.hammerNode ≠ none →
                          (q.bell b).hammer = .withdrawing))
                  ∧ (∀ b, b ∉ bells → q.bell b = p.bell b)
                  ∧ q.line.safetyQ = p.safetyAfter (((List.range' 1 16).filter (fun b =>
                      decide (b ∈ bells ∧ (p.bell b).hammer ≠ .withdrawn ∧ (p.bell b).hammer ≠ .withdrawing))).map
                        (fun b => (b, .withdraw)))
                  ∧ ((∀ b ∈ bells, (p.bell b).hammer = .withdrawn) →
                      q.session.state = .opened ∧ q.session.opened = bump p.session.opened)
                  ∧ ((∃ b ∈ bells, (p.bell b).hammer ≠ .withdrawn) →
                      q.session.state = .preparing ∧ q.session.opened = p.session.opened)
                  ∧ (p.line.upQ.length < 13 →
                      (p.line.upQ ++ [replyTo p.mgmt.address src 22 .ok [],
                        p.noticeOf .sessionState p.towerTime
                          ([0, 1] ++ bellSetBytes q.session.set ++ [byte src, 0, 0])]) <+: q.line.upQ)
                  ∧ p.sameBut q [.bellGuard, .session, .events, .safety, .up, .requests]))))

/-- R71, R72, R74: RING_RELEASE from a CONSOLE, OPERATOR or SERVICE source, SAFE or not. With no session open or
being prepared it is refused. Otherwise the session is CLOSING: the RINGERS claim leaves each bell of the set that is
settled and stays on the others; and if all are settled the session completes at once as CLOSED. A bell whose claim
leaves is engaged if R51 allows, by a setting in SAFETY (R48, R164), the bells in the order of the set, that of their
numbers (R51). -/
def Obligations.RingRelease : Prop :=
  ∀ (p : Part) (w : List Instr) (src : Nat) (cls : SourceClass), p.hears src cls = true → cls.rank ≠ 0 →
    (p.session.state = .idle ∨ p.session.state = .closing →
      exec (.ringRelease src) ⟨p, w⟩ = .next ⟨p.answered src 23 .wrongState [], w⟩)
    ∧ (p.session.state = .preparing ∨ p.session.state = .opened →
        ∃ q : Part, exec (.ringRelease src) ⟨p, w⟩ = .next ⟨q, w⟩
          ∧ q.gave (replyTo p.mgmt.address src 23 .ok [])
          ∧ (∀ b ∈ p.session.set,
              (q.bell b).claims.ringers = (if (p.bell b).settled then false else (p.bell b).claims.ringers))
          ∧ (∀ b, b ∉ p.session.set → q.bell b = p.bell b)
          ∧ ((∃ b ∈ p.session.set, (p.bell b).settled = false) →
              q.session = { p.session with
                state := .closing
                began := p.towerTime
                bells := p.session.bells.map (fun (x : SessionBell) =>
                  { x with stage := if (p.bell x.bell).settled then .left else .held }) })
          ∧ ((∀ b ∈ p.session.set, (p.bell b).settled = true) →
              q.session = { p.session with
                state := .idle, bells := [], requester := none, began := p.towerTime, outcome := .closed
                closed := bump p.session.closed }
              ∧ (p.time.state ≠ .unset → q.cal.events = p.cal.events ++ [.sessionClosed]))
          ∧ q.line.safetyQ = (if p.mgmt.partState = .safe then p.line.safetyQ
              else p.safetyAfter (p.engagedOf (p.session.set.filter (fun b => (p.bell b).settled))))
          ∧ p.sameBut q [.bellGuard, .session, .events, .safety, .up, .requests])

/-! ## The voices -/

/-- R95, R96, R98, R102, R103: a voice whose due instant, the start plus ⌈pulses × pulse length⌉ in ticks, has not
come, or that sounds nothing, takes no step: the command changes nothing (log entry 3). At the due instant it takes
the step at its cursor. A REST adds its duration. A NOTE adds its duration too and treats its bells in their order:
one outside the declared set is counted and skipped; one refused by the Guard is counted; the STRIKE of one admitted
enters LOCAL while there is room and no strike is held. Else it joins the held strikes with the next due instant as
its deadline, and a fifth displaces the oldest, whose charge is released. One admitted whose charge the Feed Budget
refuses is skipped and counted (BUDGET_SKIP, R137); where the lamps make room, they are lowered for it and it sounds. -/
def Obligations.VoiceTakesStep : Prop :=
  ∀ (p : Part) (w : List Instr) (v : VoiceId) (x : Voice), p.retention.supply = true → x = p.voice v →
    (x.start = none ∨ x.pulse = none
        ∨ (∃ s l, x.start = some s ∧ x.pulse = some l ∧ p.osc < s + (x.pulses * l * 1024 + 999999) / 1000000)
        ∨ (v = .clock ∧ p.clock.state ≠ .chiming) ∨ (v = .tune ∧ p.tune.state = .idle) →
      exec (.voiceDueInstant v) ⟨p, w⟩ = .next ⟨p, w⟩)
    ∧ ∀ (s l : Nat) (f : PhraseFrame) (rest : List PhraseFrame), x.start = some s → x.pulse = some l →
        s + (x.pulses * l * 1024 + 999999) / 1000000 ≤ p.osc → p.playing v f rest →
        (∀ d, p.stepIs (f.start + f.cursor) (.rest d) →
          exec (.voiceDueInstant v) ⟨p, w⟩
            = .next ⟨p.putVoice v { x with
                stack := { f with cursor := f.cursor + 1 } :: rest, pulses := x.pulses + d }, w⟩)
        ∧ (∀ b force d, p.stepIs (f.start + f.cursor) (.note [b] force d) → b ∈ x.declared.getD [] →
            p.admission b (originOf v) ≠ .admitted →
            exec (.voiceDueInstant v) ⟨p, w⟩
              = .next ⟨(p.putBell b { p.bell b with strikesRefused := bump (p.bell b).strikesRefused }).putVoice v
                  { x with
                    stack := { f with cursor := f.cursor + 1 } :: rest, pulses := x.pulses + d
                    counts := match p.admission b (originOf v) with
                      | .notOwner => { x.counts with notOwner := bump x.counts.notOwner }
                      | .notPermitted => { x.counts with notPermitted := bump x.counts.notPermitted }
                      | _ => { x.counts with refused := bump x.counts.refused } }, w⟩)
        ∧ (∀ b force d, p.stepIs (f.start + f.cursor) (.note [b] force d) → b ∈ x.declared.getD [] →
            p.admission b (originOf v) = .admitted →
            (p.budget.decide (p.bell b).config.charge = .refuse →
              exec (.voiceDueInstant v) ⟨p, w⟩
                = .next ⟨({ p with budget.strikeRefusals := bump p.budget.strikeRefusals }.putBell b
                    { p.bell b with strikesRefused := bump (p.bell b).strikesRefused }).putVoice v
                      { x with
                        stack := { f with cursor := f.cursor + 1 } :: rest, pulses := x.pulses + d
                        counts := { x.counts with budgetSkip := bump x.counts.budgetSkip } }, w⟩)
            ∧ (∀ k, p.budget.decide (p.bell b).config.charge = .reclaim k → x.held = [] →
                p.line.localQ.length < 12 →
                ∃ q : Part, exec (.voiceDueInstant v) ⟨p, w⟩ = .next ⟨q, w⟩ ∧ p.struckAfterReclaim q b v force
                  ∧ (p.budget.waiting = [] →
                      (q.voice v).counts = { x.counts with admitted := bump x.counts.admitted })
                  ∧ (q.voice v).counts.admitted = bump x.counts.admitted
                  ∧ (q.voice v).pulses = x.pulses + d
                  ∧ (q.voice v).stack = { f with cursor := f.cursor + 1 } :: rest))
        ∧ (∀ (bells sounded : List Nat) (force d : Nat), p.stepIs (f.start + f.cursor) (.note bells force d) →
            bells.Nodup → (∀ b ∈ bells, 1 ≤ b ∧ b ≤ 16) →
            sounded = bells.filter (fun b =>
              decide (b ∈ x.declared.getD []) && decide (p.admission b (originOf v) = .admitted)) →
            p.budget.committed + (sounded.map (fun b => (p.bell b).config.charge)).sum ≤ p.budget.limit →
            p.budget.charges.length + sounded.length ≤ 80 → x.held = [] →
            p.line.localQ.length + sounded.length ≤ 24 →
            ∃ (q : Part) (ids : List Nat), exec (.voiceDueInstant v) ⟨p, w⟩ = .next ⟨q, w⟩
              ∧ ids.length = sounded.length
              ∧ q.line.localQ = p.line.localQ ++ (sounded.zip ids).map (fun a => LocalItem.strike
                  { bell := a.1, charge := a.2, frame :=
                    { dest := (p.bell a.1).config.hammerNode.getD 0, src := p.mgmt.address, kind := 21
                      payload := [byte (p.bell a.1).config.hammerChannel, byte force, byte (originOf v).code] } })
              ∧ q.budget.charges = p.budget.charges ++ (sounded.zip ids).map (fun a =>
                  ({ id := a.2, holder := .strike a.1 (originOf v), amount := (p.bell a.1).config.charge
                     grantedAt := p.osc, releaseAt := none } : Charge))
              ∧ (∀ b, 1 ≤ b → b ≤ 16 → q.bell b
                  = (if b ∈ bells ∧ b ∈ x.declared.getD [] ∧ b ∉ sounded then
                      { p.bell b with strikesRefused := bump (p.bell b).strikesRefused } else p.bell b))
              ∧ (q.voice v).pulses = x.pulses + d ∧ (q.voice v).stack = { f with cursor := f.cursor + 1 } :: rest
              ∧ (q.voice v).held = []
              ∧ (x.counts.admitted + sounded.length ≤ 65535 →
                  (q.voice v).counts.admitted = x.counts.admitted + sounded.length)
              ∧ (x.counts.undeclared + bells.length ≤ 65535 → (q.voice v).counts.undeclared
                  = x.counts.undeclared + (bells.filter (fun b => decide (b ∉ x.declared.getD []))).length)
              ∧ p.sameBut q [.bellGuard, .clock, .tune, .budget, .locals])
        ∧ (∀ (b force d : Nat) (k : HeldStrike), p.stepIs (f.start + f.cursor) (.note [b] force d) →
            b ∈ x.declared.getD [] → p.admission b (originOf v) = .admitted →
            p.budget.decide (p.bell b).config.charge = .grant →
            k = { strike := { bell := b, charge := p.budget.nextId, frame :=
                    { dest := (p.bell b).config.hammerNode.getD 0, src := p.mgmt.address, kind := 21
                      payload := [byte (p.bell b).config.hammerChannel, byte force, byte (originOf v).code] } }
                  deadline := s + ((x.pulses + d) * l * 1024 + 999999) / 1000000 } →
            (x.held ≠ [] ∨ 24 ≤ p.line.localQ.length → x.held.length < 4 →
              ∃ q : Part, exec (.voiceDueInstant v) ⟨p, w⟩ = .next ⟨q, w⟩
                ∧ (q.voice v).held = x.held ++ [k] ∧ (q.voice v).counts.held = bump x.counts.held
                ∧ (q.voice v).counts.displaced = x.counts.displaced
                ∧ q.budget.committed = p.budget.committed + (p.bell b).config.charge
                ∧ p.sameBut q [.clock, .tune, .budget])
            ∧ (∀ (o : HeldStrike) (more : List HeldStrike), x.held = o :: more → more.length = 3 →
              p.budget.waiting = [] →
              ∃ q : Part, exec (.voiceDueInstant v) ⟨p, w⟩ = .next ⟨q, w⟩
                ∧ (q.voice v).held = more ++ [k] ∧ (q.voice v).counts.held = bump x.counts.held
                ∧ (q.voice v).counts.displaced = bump x.counts.displaced
                ∧ q.budget.charges = (p.budget.charges ++ [({
                    id := p.budget.nextId, holder := .strike b (originOf v), amount := (p.bell b).config.charge
                    grantedAt := p.osc, releaseAt := none } : Charge)]).filter (fun c => !c.ofStrike o.strike.charge)
                ∧ p.sameBut q [.clock, .tune, .budget]))

/-- R97 to R101, R107, R113: the phrase stack at a due instant, here up to the REST that ends its steps. A CALL of a
VALID entry with fewer than four frames pushes a frame; one of an EMPTY entry is counted and skipped; one with four
frames abandons the tune with TUNE_DEPTH, and a step that fails its check does so with TABLE_CHECK. A frame at the end
of its extent, by its cursor or by END, starts again while repeats remain, and else is popped; with the last frame the
tune is over. An abandoned chime keeps the clock voice's claims where an hour strike follows (log entry 75). -/
def Obligations.TuneStructure : Prop :=
  ∀ (p : Part) (w : List Instr) (v : VoiceId) (x : Voice) (s l : Nat) (f : PhraseFrame) (rest : List PhraseFrame),
    p.retention.supply = true → x = p.voice v → x.start = some s → x.pulse = some l →
    s + (x.pulses * l * 1024 + 999999) / 1000000 ≤ p.osc → x.stack = f :: rest →
    (v = .clock → p.clock.state = .chiming) → (v = .tune → p.tune.state = .playing) →
    (∀ t n, f.cursor < f.length → p.stepIs (f.start + f.cursor) (.call t n) →
      (∀ e d, readDirectory t p = (p, some (.valid e)) → rest.length < 3 → 0 < e.length →
        p.stepIs e.start (.rest d) →
        exec (.voiceDueInstant v) ⟨p, w⟩
          = .next ⟨p.putVoice v { x with
              stack := { tune := t, start := e.start, length := e.length, cursor := 1, repeats := n }
                :: { f with cursor := f.cursor + 1 } :: rest
              pulses := x.pulses + d }, w⟩)
      ∧ (∀ d, readDirectory t p = (p, some .empty) → f.cursor + 1 < f.length →
        p.stepIs (f.start + (f.cursor + 1)) (.rest d) →
        exec (.voiceDueInstant v) ⟨p, w⟩
          = .next ⟨p.putVoice v { x with
              stack := { f with cursor := f.cursor + 2 } :: rest, pulses := x.pulses + d
              counts := { x.counts with callSkipped := bump x.counts.callSkipped } }, w⟩)
      ∧ (∀ e, readDirectory t p = (p, some (.valid e)) → 3 ≤ rest.length →
        ∃ q : Part, exec (.voiceDueInstant v) ⟨p, w⟩ = .next ⟨q, w⟩ ∧ p.tuneOver q v .abandoned
          ∧ (q.voice v).counts.abandoned = bump x.counts.abandoned
          ∧ q.mgmt.tally = { p.mgmt.tally with tuneDepth := bump p.mgmt.tally.tuneDepth }
          ∧ p.sameBut q [.dialDriver, .bellGuard, .clock, .tune, .lamps, .budget, .events, .locals, .up, .faults]))
    ∧ (f.cursor < f.length →
        checkHolds stepContents (bankGet p.store.steps (f.start + f.cursor) (stored stepContents .endStep)) = false →
        ∃ q : Part, exec (.voiceDueInstant v) ⟨p, w⟩ = .next ⟨q, w⟩ ∧ p.tuneOver q v .abandoned
          ∧ (q.voice v).counts.abandoned = bump x.counts.abandoned
          ∧ q.store = { p.store with checkFailures := bump p.store.checkFailures }
          ∧ q.mgmt.tally = { p.mgmt.tally with tableCheck := bump p.mgmt.tally.tableCheck }
          ∧ p.sameBut q [.dialDriver, .bellGuard, .store, .clock, .tune, .lamps, .budget, .events, .locals, .up,
              .faults])
    ∧ (p.frameOver f →
        (∀ d, 1 < f.repeats → 0 < f.length → p.stepIs f.start (.rest d) →
          exec (.voiceDueInstant v) ⟨p, w⟩
            = .next ⟨p.putVoice v { x with
                stack := { f with cursor := 1, repeats := f.repeats - 1 } :: rest, pulses := x.pulses + d }, w⟩)
        ∧ (∀ g more d, f.repeats ≤ 1 → rest = g :: more → g.cursor < g.length →
          p.stepIs (g.start + g.cursor) (.rest d) →
          exec (.voiceDueInstant v) ⟨p, w⟩
            = .next ⟨p.putVoice v { x with
                stack := { g with cursor := g.cursor + 1 } :: more, pulses := x.pulses + d }, w⟩)
        ∧ (f.repeats ≤ 1 → rest = [] →
          ∃ q : Part, exec (.voiceDueInstant v) ⟨p, w⟩ = .next ⟨q, w⟩ ∧ p.tuneOver q v .ended
            ∧ p.sameBut q [.dialDriver, .bellGuard, .clock, .tune, .lamps, .budget, .events, .locals]))

/-- R104, R108, R109: the held strikes of a voice whose deadline is reached are dropped as LATE, all by one command (log
entry 26), and with no dial waiting their charges and nothing else go. At the next blow instant the clock voice in
PAUSING or STRIKING makes a blow on the hour bell, else the alternate, if the clock owns it; a blow that finds neither
is withheld, one that the Guard refuses, NOT_PERMITTED or otherwise (R57), is counted, and one whose charge the Feed
Budget refuses is skipped (BUDGET_SKIP, R137), while lamps are lowered for one they can make room for. R103: the STRIKE
of a blow enters LOCAL; with LOCAL full, or strikes held before it, it joins the held strikes with the next blow instant
as its deadline, and a fifth displaces the oldest, whose charge is released. With no blow left the quarter ends, its
claims removed and its blows absent. Before their instants, or out of place, both commands change nothing (log entry 3).
-/
def Obligations.HeldStrikesAndBlows : Prop :=
  ∀ (p : Part) (w : List Instr), p.retention.supply = true →
    (∀ (v : VoiceId) (x : Voice), x = p.voice v →
      ((∀ h ∈ x.held, p.osc < h.deadline) →
        exec (.heldStrikeDeadline v) ⟨p, w⟩ = .next ⟨p, w⟩)
      ∧ (p.budget.waiting = [] →
        ∃ q : Part, exec (.heldStrikeDeadline v) ⟨p, w⟩ = .next ⟨q, w⟩
          ∧ (q.voice v).held = x.held.filter (fun h => p.osc < h.deadline)
          ∧ (∀ c, c ∈ q.budget.charges ↔ c ∈ p.budget.charges
              ∧ ∀ h ∈ x.held, h.deadline ≤ p.osc → c.ofStrike h.strike.charge = false)
          ∧ (x.counts.late + x.held.length ≤ 65535 →
              (q.voice v).counts.late + (q.voice v).held.length = x.counts.late + x.held.length)
          ∧ p.sameBut q [.clock, .tune, .budget]))
    ∧ ((p.clock.state = .idle ∨ p.clock.state = .chiming ∨ ∃ t, p.clock.nextBlow = some t ∧ p.osc < t) →
        exec .hourBlow ⟨p, w⟩ = .next ⟨p, w⟩)
    ∧ ∀ (t : Nat) (c : ChimeSet), p.clock.state = .pausing ∨ p.clock.state = .striking →
        p.clock.nextBlow = some t → p.clock.cachedSet = some c → t ≤ p.osc →
        (p.clock.blows = none ∨ p.clock.blows = some 0 →
          ∃ q : Part, exec .hourBlow ⟨p, w⟩ = .next ⟨q, w⟩
            ∧ q.clock.state = .idle ∧ q.clock.quarter = none ∧ q.clock.nextBlow = none ∧ q.clock.blows = none
            ∧ q.clock.cachedSet = some c ∧ q.clock.voice.claimed = [] ∧ q.clock.voice.held = []
            ∧ (∀ b ∈ p.clock.voice.claimed, (q.bell b).claims.clock = false)
            ∧ p.sameBut q [.dialDriver, .bellGuard, .clock, .tune, .lamps, .budget, .locals])
        ∧ (∀ n, p.clock.blows = some (n + 1) → p.owner c.hourBell ≠ some .clock →
            (∀ b, c.altBell = some b → p.owner b ≠ some .clock) →
            exec .hourBlow ⟨p, w⟩
              = .next ⟨{ p with
                  clock.state := .striking, clock.withheld := bump p.clock.withheld
                  clock.blows := some n, clock.nextBlow := some (t + msTicks c.blowInterval) }, w⟩)
        ∧ (∀ b n, p.clock.blows = some (n + 1) →
            (b = c.hourBell ∨ (p.owner c.hourBell ≠ some .clock ∧ c.altBell = some b)) →
            p.owner b = some .clock →
            (p.admission b .clock ≠ .admitted → p.admission b .clock ≠ .notPermitted →
              exec .hourBlow ⟨p, w⟩
                = .next ⟨{ p.putBell b { p.bell b with strikesRefused := bump (p.bell b).strikesRefused } with
                    clock.state := .striking
                    clock.voice := { p.clock.voice with
                      counts := { p.clock.voice.counts with refused := bump p.clock.voice.counts.refused } }
                    clock.blows := some n, clock.nextBlow := some (t + msTicks c.blowInterval) }, w⟩)
            ∧ (p.admission b .clock = .notPermitted →
              exec .hourBlow ⟨p, w⟩
                = .next ⟨{ p.putBell b { p.bell b with strikesRefused := bump (p.bell b).strikesRefused } with
                    clock.state := .striking
                    clock.voice := { p.clock.voice with
                      counts := { p.clock.voice.counts with
                        notPermitted := bump p.clock.voice.counts.notPermitted } }
                    clock.blows := some n, clock.nextBlow := some (t + msTicks c.blowInterval) }, w⟩)
            ∧ (p.admission b .clock = .admitted → p.budget.decide (p.bell b).config.charge = .refuse →
              exec .hourBlow ⟨p, w⟩
                = .next ⟨{ p.putBell b { p.bell b with strikesRefused := bump (p.bell b).strikesRefused } with
                    budget.strikeRefusals := bump p.budget.strikeRefusals
                    clock.state := .striking
                    clock.voice := { p.clock.voice with
                      counts := { p.clock.voice.counts with
                        budgetSkip := bump p.clock.voice.counts.budgetSkip } }
                    clock.blows := some n, clock.nextBlow := some (t + msTicks c.blowInterval) }, w⟩)
            ∧ (∀ k, p.admission b .clock = .admitted → p.budget.decide (p.bell b).config.charge = .reclaim k →
                p.clock.voice.held = [] → p.line.localQ.length < 12 →
                ∃ q : Part, exec .hourBlow ⟨p, w⟩ = .next ⟨q, w⟩ ∧ p.struckAfterReclaim q b .clock c.blowForce
                  ∧ q.clock.state = .striking ∧ q.clock.blows = some n
                  ∧ q.clock.nextBlow = some (t + msTicks c.blowInterval)
                  ∧ q.clock.voice.counts.admitted = bump p.clock.voice.counts.admitted)
            ∧ (p.admission b .clock = .admitted → p.budget.decide (p.bell b).config.charge = .grant →
                p.clock.voice.held = [] → p.line.localQ.length < 24 →
                ∃ (q : Part) (s : Strike), exec .hourBlow ⟨p, w⟩ = .next ⟨q, w⟩ ∧ s.bell = b
                  ∧ q.line.localQ = p.line.localQ ++ [.strike s] ∧ q.clock.state = .striking
                  ∧ q.clock.blows = some n
                  ∧ q.clock.nextBlow = some (t + msTicks c.blowInterval)
                  ∧ q.clock.voice.counts.admitted = bump p.clock.voice.counts.admitted
                  ∧ p.sameBut q [.clock, .budget, .locals])
            ∧ ∀ (k : HeldStrike) (g : Charge), p.admission b .clock = .admitted →
                p.budget.decide (p.bell b).config.charge = .grant →
                k = { strike := { bell := b, charge := p.budget.nextId, frame :=
                        { dest := (p.bell b).config.hammerNode.getD 0, src := p.mgmt.address, kind := 21
                          payload := [byte (p.bell b).config.hammerChannel, byte c.blowForce, 1] } }
                      deadline := t + msTicks c.blowInterval } →
                g = { id := p.budget.nextId, holder := .strike b .clock, amount := (p.bell b).config.charge
                      grantedAt := p.osc, releaseAt := none } →
                (p.clock.voice.held ≠ [] ∨ 24 ≤ p.line.localQ.length → p.clock.voice.held.length < 4 →
                  ∃ q : Part, exec .hourBlow ⟨p, w⟩ = .next ⟨q, w⟩
                    ∧ q.clock = { p.clock with
                        state := .striking, blows := some n, nextBlow := some (t + msTicks c.blowInterval)
                        voice := { p.clock.voice with
                          held := p.clock.voice.held ++ [k]
                          counts := { p.clock.voice.counts with
                            admitted := bump p.clock.voice.counts.admitted
                            held := bump p.clock.voice.counts.held } } }
                    ∧ q.budget.charges = p.budget.charges ++ [g]
                    ∧ p.sameBut q [.clock, .budget])
                ∧ (∀ (o : HeldStrike) (more : List HeldStrike), p.clock.voice.held = o :: more → more.length = 3 →
                  p.budget.waiting = [] →
                  ∃ q : Part, exec .hourBlow ⟨p, w⟩ = .next ⟨q, w⟩
                    ∧ q.clock = { p.clock with
                        state := .striking, blows := some n, nextBlow := some (t + msTicks c.blowInterval)
                        voice := { p.clock.voice with
                          held := more ++ [k]
                          counts := { p.clock.voice.counts with
                            admitted := bump p.clock.voice.counts.admitted
                            held := bump p.clock.voice.counts.held
                            displaced := bump p.clock.voice.counts.displaced } } }
                    ∧ q.budget.charges = (p.budget.charges ++ [g]).filter (fun x => !x.ofStrike o.strike.charge)
                    ∧ p.sameBut q [.clock, .budget]))

/-- R110: OMIT_NEXT, asked by a CONSOLE, OPERATOR or SERVICE source or done as an action, sets the flag in every state
of the voice and while SAFE, and the request replies OK. The next QUARTER the voice takes consumes it, whatever that
quarter would have done. Both kinds of reset leave it clear. -/
def Obligations.OmitNextQuarter : Prop :=
  (∀ (p : Part) (w : List Instr) (src : Nat) (cls : SourceClass), p.hears src cls = true →
      cls = .console ∨ cls = .operator ∨ cls = .service →
      exec (.omitNext src) ⟨p, w⟩ = .next ⟨({ p with clock.omitNext := true }).answered src 32 .ok [], w⟩)
  ∧ (∀ (a : ActionSource) (p : Part), doAction a .omitNext p = ({ p with clock.omitNext := true }, .ok))
  ∧ Part.cold.clock.omitNext = false ∧ (∀ p : Part, p.restarted.clock.omitNext = false)
  ∧ ∀ (p : Part) (q h : Nat) (late : Bool), p.clock.omitNext = true →
      takeQuarter q h late p = { p with clock.omitNext := false, clock.omitted := bump p.clock.omitted }

/-- R105, R106, R107: a QUARTER, late or not, without the omit flag. It is an overrun while the voice is not IDLE, and
is counted while SAFE. Otherwise the chime set that the Calendar selects is copied; a set that fails its check is
counted, with TABLE_CHECK, and leaves the earlier copy to sound from, and without one the quarter counts as quiet (log
entry 24). With a VALID quarter tune and the CHIMES quiet count 0 a chime begins, here with a REST: its bells are
claimed, and the hour bells too if a strike follows, which it does for q 4 with the STRIKE quiet count 0. Without a
chime (its entry is not read while CHIMES is quiet, log entry 57) the strike pauses at once, with h mod 12 blows to
come, 12 for 0. A quarter that sounds neither is quiet. -/
def Obligations.QuartersSound : Prop :=
  ∀ (p : Part) (q h : Nat) (late : Bool), p.clock.omitNext = false →
    (p.clock.state ≠ .idle → takeQuarter q h late p = { p with clock.overrun := bump p.clock.overrun })
    ∧ (p.clock.state = .idle → p.mgmt.partState = .safe →
        takeQuarter q h late p = { p with clock.safeQuarters := bump p.clock.safeQuarters })
    ∧ (p.clock.state = .idle → p.mgmt.partState = .running → p.clock.cachedSet = none →
        checkHolds chimeBytes (bankGet p.store.chimes p.cal.config.selector
          (stored chimeBytes (ChimeSet.cold p.cal.config.selector))) = false →
        (takeQuarter q h late p).clock
            = { p.clock with setFailures := bump p.clock.setFailures, quiet := bump p.clock.quiet }
          ∧ (takeQuarter q h late p).mgmt.tally.tableCheck = bump p.mgmt.tally.tableCheck
          ∧ p.sameBut (takeQuarter q h late p) [.store, .clock, .up, .faults])
    ∧ (∀ (c : ChimeSet) (n : Nat) (hour : List Nat) (t : Part), p.clock.state = .idle → p.mgmt.partState = .running →
        p.clock.cachedSet = some c →
        checkHolds chimeBytes (bankGet p.store.chimes p.cal.config.selector
          (stored chimeBytes (ChimeSet.cold p.cal.config.selector))) = false →
        n = (if q = 1 then c.first else if q = 2 then c.second else if q = 3 then c.third else c.fourth) →
        hour = (if q = 4 ∧ p.cal.quietStrike = 0 then c.hourBell :: c.altBell.toList else []) →
        t = takeQuarter q h late p →
        (0 < p.cal.quietChimes ∨ readDirectory n p = (p, some .empty) →
          t.mgmt.tally.tableCheck = bump p.mgmt.tally.tableCheck
            ∧ (q ≠ 4 ∨ 0 < p.cal.quietStrike →
                t.clock = { p.clock with
                  setFailures := bump p.clock.setFailures, quiet := bump p.clock.quiet }
                ∧ p.sameBut t [.store, .clock, .up, .faults])
            ∧ (q = 4 → p.cal.quietStrike = 0 →
                t.clock = { p.clock with
                  state := .pausing, setFailures := bump p.clock.setFailures, sounded := bump p.clock.sounded
                  quarter := some (4, h), strikeFollows := true
                  blows := some (if h % 12 = 0 then 12 else h % 12), nextBlow := some (p.osc + msTicks c.pause)
                  voice := { p.clock.voice with claimed := canonical 1 16 hour } }
                ∧ (∀ b, 1 ≤ b → b ≤ 16 → t.bell b
                    = (if b ∈ hour then { p.bell b with
                        claims := { (p.bell b).claims with clock := true } } else p.bell b))
                ∧ p.sameBut t [.bellGuard, .store, .clock, .up, .faults]))
        ∧ ∀ (e : TuneEntry) (d : Nat), p.cal.quietChimes = 0 → readDirectory n p = (p, some (.valid e)) →
            0 < e.length → p.stepIs e.start (.rest d) →
            t.mgmt.tally.tableCheck = bump p.mgmt.tally.tableCheck ∧ t.clock.state = .chiming
              ∧ t.clock.cachedSet = some c ∧ t.clock.setFailures = bump p.clock.setFailures
              ∧ t.clock.sounded = bump p.clock.sounded ∧ t.clock.quarter = some (q, h)
              ∧ t.clock.voice.claimed = canonical 1 16 (e.bells ++ hour)
              ∧ t.clock.voice.stack = [{ tune := n, start := e.start, length := e.length, cursor := 1, repeats := 1 }]
              ∧ (∀ b, 1 ≤ b → b ≤ 16 → t.bell b
                  = (if b ∈ e.bells ∨ b ∈ hour then { p.bell b with
                      claims := { (p.bell b).claims with clock := true } } else p.bell b))
              ∧ p.sameBut t [.bellGuard, .store, .clock, .up, .faults])
    ∧ ∀ (c : ChimeSet) (n : Nat) (hour : List Nat), p.clock.state = .idle → p.mgmt.partState = .running →
        bankGet p.store.chimes p.cal.config.selector (stored chimeBytes (ChimeSet.cold p.cal.config.selector))
          = stored chimeBytes c →
        n = (if q = 1 then c.first else if q = 2 then c.second else if q = 3 then c.third else c.fourth) →
        hour = (if q = 4 ∧ p.cal.quietStrike = 0 then c.hourBell :: c.altBell.toList else []) →
        (0 < p.cal.quietChimes ∨ readDirectory n p = (p, some .empty) →
          (q ≠ 4 ∨ 0 < p.cal.quietStrike →
            takeQuarter q h late p = { p with clock.cachedSet := some c, clock.quiet := bump p.clock.quiet })
          ∧ (q = 4 → p.cal.quietStrike = 0 →
              (takeQuarter q h late p).clock.state = .pausing
                ∧ (takeQuarter q h late p).clock.blows = some (if h % 12 = 0 then 12 else h % 12)
                ∧ (takeQuarter q h late p).clock.nextBlow = some (p.osc + msTicks c.pause)
                ∧ (takeQuarter q h late p).clock.quarter = some (4, h)
                ∧ (takeQuarter q h late p).clock.cachedSet = some c
                ∧ (takeQuarter q h late p).clock.sounded = bump p.clock.sounded
                ∧ (∀ b, 1 ≤ b → b ≤ 16 → (takeQuarter q h late p).bell b
                    = (if b ∈ hour then { p.bell b with
                        claims := { (p.bell b).claims with clock := true } } else p.bell b))
                ∧ p.sameBut (takeQuarter q h late p) [.bellGuard, .clock]))
        ∧ ∀ (e : TuneEntry) (d : Nat), p.cal.quietChimes = 0 → readDirectory n p = (p, some (.valid e)) →
            0 < e.length → p.stepIs e.start (.rest d) →
            (takeQuarter q h late p).clock = { p.clock with
              state := .chiming, cachedSet := some c, sounded := bump p.clock.sounded, quarter := some (q, h)
              strikeFollows := decide (q = 4 ∧ p.cal.quietStrike = 0)
              voice := { p.clock.voice with
                start := some p.osc, tempo := some e.tempo, pulse := some ((15000000 + e.tempo) / (2 * e.tempo))
                pulses := d, declared := some e.bells, claimed := canonical 1 16 (e.bells ++ hour)
                stack := [{ tune := n, start := e.start, length := e.length, cursor := 1, repeats := 1 }] } }
            ∧ (∀ b, 1 ≤ b → b ≤ 16 → (takeQuarter q h late p).bell b
                = (if b ∈ e.bells ∨ b ∈ hour then { p.bell b with
                    claims := { (p.bell b).claims with clock := true } } else p.bell b))
            ∧ p.sameBut (takeQuarter q h late p) [.bellGuard, .clock]

/-- R111, R112, R113: START_TUNE and STOP_TUNE from a CONSOLE, OPERATOR or SERVICE source. START_TUNE's checks come in
their order and a refusal is counted. That operands out of range are answered BAD_VALUE with the directory entry unread,
and no TABLE_CHECK raised for it, is the model's choice (log entry 85). Taken, the bells of the entry's declared set are
claimed and the first step is taken at once, here a REST. STOP_TUNE lets a tune that plays run to its next due instant,
where it ends as STOPPED. -/
def Obligations.TunesStartAndStop : Prop :=
  ∀ (p : Part) (w : List Instr) (src t k : Nat) (cls : SourceClass),
    (p.hears src cls = true → cls.rank ≠ 0 →
      (∀ code : Code,
        code = (if p.mgmt.partState = .safe then .safeState else if p.tune.state ≠ .idle then .busy
          else if 0 < p.cal.quietTunes then .wrongState
          else if 95 < t ∨ k = 0 ∨ 8 < k then .badValue else .ok) →
        code ≠ .ok →
        exec (.startTune src t k) ⟨p, w⟩
          = .next ⟨({ p with tune.startsRefused := bump p.tune.startsRefused }).answered src 30 code [], w⟩)
      ∧ (p.mgmt.partState = .running → p.tune.state = .idle → p.cal.quietTunes = 0 → t ≤ 95 → 1 ≤ k → k ≤ 8 →
          (readDirectory t p = (p, some .empty)
              ∨ (∃ e, readDirectory t p = (p, some (.valid e)) ∧ e.kind ≠ .tune) →
            exec (.startTune src t k) ⟨p, w⟩
              = .next ⟨({ p with tune.startsRefused := bump p.tune.startsRefused }).answered src 30 .badValue [], w⟩)
          ∧ ∀ (e : TuneEntry) (d : Nat), readDirectory t p = (p, some (.valid e)) → e.kind = .tune → 0 < e.length →
              bankGet p.store.steps e.start (stored stepContents TuneStep.endStep) = stored stepContents (.rest d) →
              ∃ q : Part, exec (.startTune src t k) ⟨p, w⟩ = .next ⟨q.answered src 30 .ok [], w⟩
                ∧ q.tune = { p.tune with
                    state := .playing, starts := bump p.tune.starts, inHand := some (t, k)
                    voice := { p.tune.voice with
                      start := some p.osc, tempo := some e.tempo
                      pulse := some ((15000000 + e.tempo) / (2 * e.tempo)), pulses := d, declared := some e.bells
                      stack := [{ tune := t, start := e.start, length := e.length, cursor := 1, repeats := k }]
                      claimed := e.bells } }
                ∧ (∀ b, 1 ≤ b → b ≤ 16 → q.bell b
                    = (if b ∈ e.bells then { p.bell b with claims := { (p.bell b).claims with tune := true } }
                      else p.bell b))
                ∧ p.sameBut q [.bellGuard, .tune])
      ∧ (p.tune.state = .idle →
          exec (.stopTune src) ⟨p, w⟩ = .next ⟨p.answered src 31 .wrongState [], w⟩)
      ∧ (p.tune.state ≠ .idle →
          exec (.stopTune src) ⟨p, w⟩ = .next ⟨({ p with tune.state := .stopping }).answered src 31 .ok [], w⟩))
    ∧ (p.retention.supply = true → p.tune.state = .stopping → p.voiceDue .tune = true →
        ∃ q : Part, exec (.voiceDueInstant .tune) ⟨p, w⟩ = .next ⟨q, w⟩
          ∧ q.tune.state = .idle ∧ q.tune.inHand = none ∧ q.tune.stopped = bump p.tune.stopped
          ∧ q.tune.voice.stack = [] ∧ q.tune.voice.held = [] ∧ q.tune.voice.claimed = []
          ∧ (∀ b ∈ p.tune.voice.claimed, (q.bell b).claims.tune = false)
          ∧ (p.time.state ≠ .unset →
              q.cal.events = p.cal.events ++ [.tuneEnd ((p.tune.inHand.map Prod.fst).getD 0) .stopped])
          ∧ p.sameBut q [.dialDriver, .bellGuard, .clock, .tune, .lamps, .budget, .events, .locals])


/-! ## Floodlights -/

/-- R116, R120, R123, R126, R139: the lamp update before its beat changes nothing (log entry 3). At the beat, with one
group configured and sound, a fade in progress advances by one step while the part is RUNNING, a complete one stands,
and the fade level is L, lowered to the ceiling. A clamp at or above the limited target goes first (log entry 60). A
group not clamped takes L: down at once, up if the Budget has the room; the charge held becomes that of L, rated load ×
L ÷ 1000 rounded up (R117). Where L does not fit it rises to the largest multiple of 10 below L that fits, if that lies
above its level, and is clamped at the level it then has, as it is where the charge list has no place for it. A clamped
group falls with its fade, and asks nothing. The level is compared with the sent one after a change of it and at the end
(log entry 67), and offered to LOCAL (R127, R165), a waiting frame replaced taking the part's present address (log entry
93). While SAFE the fade stands. With several groups configured, none clamped, and room for every rise, each takes its
own fade level; a group in FAULT and one not configured stand. -/
def Obligations.LampUpdateAdvancesFade : Prop :=
  ∀ (p : Part) (w : List Instr), p.retention.supply = true →
    (p.osc < p.lamps.nextUpdate → exec .lampUpdate ⟨p, w⟩ = .next ⟨p, w⟩)
    ∧ (∀ (g : Nat) (x : LampGroup), p.lamps.nextUpdate ≤ p.osc → 1 ≤ g → g ≤ 12 → x = p.group g →
        x.config.node ≠ none → x.failure = none →
        (∀ a, 1 ≤ a → a ≤ 12 → a ≠ g → (p.group a).config.node = none ∧ (p.group a).clamp = none) →
        p.budget.waiting = [] →
        (p.mgmt.partState = .safe → x.clamp = none →
          ∃ q : Part, exec .lampUpdate ⟨p, w⟩ = .next ⟨q, w⟩ ∧ (q.group g).commanded = x.commanded
            ∧ (q.group g).elapsed = x.elapsed ∧ q.lamps.nextUpdate = p.lamps.nextUpdate + 1024
            ∧ p.levelOffered q g 1 ∧ p.sameBut q [.lamps, .locals])
        ∧ ∀ n level : Nat, p.mgmt.partState = .running → x.fadesTo n level →
            ∃ q : Part, exec .lampUpdate ⟨p, w⟩ = .next ⟨q, w⟩
              ∧ (q.group g).elapsed = n ∧ q.lamps.nextUpdate = p.lamps.nextUpdate + 1024
              ∧ p.sameBut q [.lamps, .budget, .locals]
              ∧ p.levelOffered q g (if (q.group g).commanded = x.commanded then 1 else 2)
              ∧ ((∀ c, x.clamp = some c → min x.target x.config.ceiling ≤ c) → p.takesLevel q g level)
              ∧ ∀ c, x.clamp = some c → c < min x.target x.config.ceiling →
                (q.group g).clamp = x.clamp ∧ (q.group g).commanded = min x.commanded level
                  ∧ (level < x.commanded → q.budget.groupCharge g = (x.config.rated * level + 999) / 1000)
                  ∧ (x.commanded ≤ level → q.budget.charges = p.budget.charges))
    ∧ ∀ lev num need : Nat → Nat, p.lamps.nextUpdate ≤ p.osc → p.mgmt.partState = .running → p.BudgetSound →
        p.budget.waiting = [] →
        (∀ g, 1 ≤ g → g ≤ 12 → (p.group g).clamp = none) →
        (∀ g, 1 ≤ g → g ≤ 12 → (p.group g).config.node ≠ none → (p.group g).failure = none →
          (p.group g).fadesTo (num g) (lev g)
            ∧ ((p.group g).config.rated * lev g + 999) / 1000 ≤ p.budget.groupCharge g + need g) →
        p.budget.committed + ((List.range 12).map (fun i => need (i + 1))).sum ≤ p.budget.limit →
        p.budget.charges.length + 12 ≤ 80 →
        ∃ q : Part, exec .lampUpdate ⟨p, w⟩ = .next ⟨q, w⟩ ∧ q.lamps.nextUpdate = p.lamps.nextUpdate + 1024
          ∧ p.sameBut q [.lamps, .budget, .locals]
          ∧ ∀ g, 1 ≤ g → g ≤ 12 →
            ((p.group g).config.node = none → q.group g = p.group g)
            ∧ ((p.group g).failure ≠ none →
                (q.group g).commanded = (p.group g).commanded ∧ (q.group g).elapsed = (p.group g).elapsed)
            ∧ ((p.group g).config.node ≠ none → (p.group g).failure = none →
                (q.group g).elapsed = num g ∧ (q.group g).commanded = lev g ∧ (q.group g).clamp = none
                  ∧ q.budget.groupCharge g = ((p.group g).config.rated * lev g + 999) / 1000)

/-- R122: APPLY_SCENE from a CONSOLE, OPERATOR or SERVICE source: its checks in their order. A scene with a fade time
restarts the fade of every group that it does not leave, from the group's present level; a clamp at or above the new
limited target goes, and a group already at that target is complete at once. A scene with fade time 0, here naming one
group with no dial waiting, takes a group that is configured, sound and not clamped to the target at once, as far as the
Budget has room (R120, R139), also where the clamp has just gone (log entry 60); a changed level is offered to LOCAL
(R127, R165; log entry 93). A scene that fails its check is answered CHECK_FAIL and raises TABLE_CHECK. -/
def Obligations.ApplySceneRestartsFades : Prop :=
  ∀ (p : Part) (w : List Instr) (src n : Nat) (cls : SourceClass), p.hears src cls = true → cls.rank ≠ 0 →
    (p.mgmt.partState = .safe →
      exec (.applyScene src n) ⟨p, w⟩ = .next ⟨p.answered src 33 .safeState [], w⟩)
    ∧ (p.mgmt.partState = .running → 16 ≤ n →
      exec (.applyScene src n) ⟨p, w⟩ = .next ⟨p.answered src 33 .badIndex [], w⟩)
    ∧ (p.mgmt.partState = .running → n < 16 →
        checkHolds sceneBytes (bankGet p.lamps.scenes n (stored sceneBytes (Scene.cold n))) = false →
        ∃ q : Part, exec (.applyScene src n) ⟨p, w⟩ = .next ⟨q, w⟩
          ∧ q.gave (replyTo p.mgmt.address src 33 .checkFail [])
          ∧ q.lamps = { p.lamps with sceneFailures := bump p.lamps.sceneFailures }
          ∧ q.mgmt.tally = { p.mgmt.tally with tableCheck := bump p.mgmt.tally.tableCheck }
          ∧ p.sameBut q [.lamps, .up, .faults, .requests])
    ∧ (∀ s : Scene, p.mgmt.partState = .running → n < 16 →
        bankGet p.lamps.scenes n (stored sceneBytes (Scene.cold n)) = stored sceneBytes s → 0 < s.fadeTime →
        ∃ q : Part, exec (.applyScene src n) ⟨p, w⟩ = .next ⟨q.answered src 33 .ok [], w⟩
          ∧ (∀ (g : Nat) (x : LampGroup), 1 ≤ g → g ≤ 12 → x = p.group g →
              (bankGet1 s.targets g none = none → q.group g = x)
              ∧ ∀ (t top : Nat) (held : Option Nat), bankGet1 s.targets g none = some t → top = min t x.config.ceiling →
                  held = (if x.clamp.any (fun c => top ≤ c) then none else x.clamp) →
                  q.group g = { x with
                    target := t, fadeStart := x.commanded, fadeLength := s.fadeTime, clamp := held
                    elapsed := if x.config.node ≠ none ∧ x.failure = none ∧ held = none ∧ top = x.commanded
                      then s.fadeTime else 0 })
          ∧ p.sameBut q [.lamps, .budget])
    ∧ ∀ (s : Scene) (g t level : Nat) (x : LampGroup), p.mgmt.partState = .running → n < 16 →
        bankGet p.lamps.scenes n (stored sceneBytes (Scene.cold n)) = stored sceneBytes s → s.fadeTime = 0 →
        1 ≤ g → g ≤ 12 → x = p.group g → bankGet1 s.targets g none = some t →
        (∀ a, a ≠ g → bankGet1 s.targets a none = none) → level = min t x.config.ceiling → p.budget.waiting = [] →
        ∃ q : Part, exec (.applyScene src n) ⟨p, w⟩ = .next ⟨q.answered src 33 .ok [], w⟩
          ∧ (q.group g).target = t ∧ (q.group g).fadeStart = x.commanded ∧ (q.group g).fadeLength = 0
          ∧ (q.group g).elapsed = 0 ∧ (∀ a, a ≠ g → q.group a = p.group a) ∧ p.sameBut q [.lamps, .budget, .locals]
          ∧ (x.config.node = none ∨ x.failure ≠ none ∨ (∃ c, x.clamp = some c ∧ c < level) →
              (q.group g).commanded = x.commanded ∧ q.budget.charges = p.budget.charges
                ∧ q.line.localQ = p.line.localQ
                ∧ (q.group g).clamp = (if x.clamp.any (fun c => level ≤ c) then none else x.clamp))
          ∧ (x.config.node ≠ none → x.failure = none → (∀ c, x.clamp = some c → level ≤ c) →
              p.takesLevel q g level ∧ ((q.group g).commanded ≠ x.commanded → p.levelOffered q g 1)
                ∧ ((q.group g).commanded = x.commanded → q.line.localQ = p.line.localQ))

/-- R129, R130: a LAMP_REPORT that matches no configured group is counted. A failure puts a sound group in FAULT: dark,
without clamp or charge, its fade kept, its level 0 offered to LOCAL (R127, R165; log entry 93), and LAMP_FAIL raised;
on a group in FAULT it only takes the status. OK ends the FAULT with a fresh fade from 0, and changes nothing on a sound
group. -/
def Obligations.LampReport : Prop :=
  ∀ (p r : Part) (w : List Instr) (src channel : Nat) (st : LampStatus), p.retention.supply = true →
    r = takeCopy (.lampReport src channel st) p →
    ((∀ g, 1 ≤ g → g ≤ 12 → ¬ ((p.group g).config.node = some src ∧ (p.group g).config.channel = channel)) →
      exec (.lampReport src channel st) ⟨p, w⟩ = .next ⟨{ r with lamps.unmatched := bump p.lamps.unmatched }, w⟩)
    ∧ ∀ (g : Nat) (x : LampGroup), 1 ≤ g → g ≤ 12 → x = p.group g → x.config.node = some src →
        x.config.channel = channel →
        (∀ a, 1 ≤ a → a < g → ¬ ((p.group a).config.node = some src ∧ (p.group a).config.channel = channel)) →
        (st = .ok → x.failure = none → exec (.lampReport src channel st) ⟨p, w⟩ = .next ⟨r, w⟩)
        ∧ (st = .ok → x.failure ≠ none →
            exec (.lampReport src channel st) ⟨p, w⟩
              = .next ⟨r.putGroup g { x with failure := none, fadeStart := 0, elapsed := 0 }, w⟩)
        ∧ (st ≠ .ok → x.failure ≠ none →
            exec (.lampReport src channel st) ⟨p, w⟩ = .next ⟨r.putGroup g { x with failure := some st }, w⟩)
        ∧ (st ≠ .ok → x.failure = none →
            ∃ q : Part, exec (.lampReport src channel st) ⟨p, w⟩ = .next ⟨q, w⟩
              ∧ (q.group g).failure = some st ∧ (q.group g).failures = bump x.failures
              ∧ (q.group g).commanded = 0 ∧ (q.group g).clamp = none ∧ (q.group g).state = .fault
              ∧ (q.group g).target = x.target ∧ (q.group g).fadeLength = x.fadeLength
              ∧ (q.group g).elapsed = x.elapsed ∧ q.budget.groupCharge g = 0
              ∧ (p.budget.waiting = [] → p.levelOffered q g 1)
              ∧ q.mgmt.tally = { p.mgmt.tally with lampFail := bump p.mgmt.tally.lampFail }
              ∧ q.mgmt.faults = p.mgmt.faults ∧ q.mgmt.partState = p.mgmt.partState
              ∧ r.sameBut q [.dialDriver, .lamps, .budget, .locals, .up, .faults])

/-! ## The Feed Budget -/

/-- R133, R134, R138, R143: a FEED_STATE report from a node other than the monitor is ignored and counted, and one of
the present stage changes nothing. The monitor is the one in force when the report was received (for a copy that waits,
the one it keeps, log entry 5). Another stage is taken, counted, sent as a notice and handed to the cue links; a fall to
LOW raises FEED_LOW. With no dial waiting, a load within the new limit keeps every charge; an excess that only one group
can give up is reclaimed from it: it goes to 0, or to the largest multiple of 10 that brings the load within the limit,
and is clamped there, the level offered to LOCAL (R127, R165; log entry 93). The notice's detail, the committed load in
three bytes, is log entry 21's. -/
def Obligations.FeedStageChanges : Prop :=
  ∀ (p r : Part) (w : List Instr) (src : Nat) (st : Stage) (limit : Nat) (monitor : Option Nat),
    p.retention.supply = true → p.feedFrom src st monitor → r = takeCopy (.feedState src st) p →
    limit = (match st with
      | .normal => p.budget.limits.normal
      | .reduced => p.budget.limits.reduced
      | .low => p.budget.limits.low) →
    (∀ m, monitor = some m → m ≠ src →
      exec (.feedState src st) ⟨p, w⟩
        = .next ⟨{ r with budget.ignoredReports := bump p.budget.ignoredReports }, w⟩)
    ∧ (monitor = none ∨ monitor = some src →
        (st = p.budget.stage → exec (.feedState src st) ⟨p, w⟩ = .next ⟨r, w⟩)
        ∧ (st ≠ p.budget.stage →
            ∃ q : Part, exec (.feedState src st) ⟨p, w⟩ = .next ⟨q, w⟩
              ∧ q.budget.stage = st ∧ q.budget.stageChanges = bump p.budget.stageChanges
              ∧ (p.time.state ≠ .unset → q.cal.events = p.cal.events ++ [.feedStage st])
              ∧ q.mgmt.tally = (if st = .low then { p.mgmt.tally with feedLow := bump p.mgmt.tally.feedLow }
                  else p.mgmt.tally)
              ∧ (p.line.upQ.length < 13 →
                  q.line.upQ.getLast? = some (p.noticeOf .feedStage p.towerTime
                    ([byte (stageCode p.budget.stage), byte (stageCode st)] ++ be 3 q.budget.committed)))
              ∧ (∀ c ∈ p.budget.charges, c.isLamp = false → c ∈ q.budget.charges)
              ∧ (p.budget.waiting = [] → p.budget.committed ≤ limit →
                  q.budget.charges = p.budget.charges ∧ q.lamps = p.lamps)
              ∧ (∀ (g : Nat) (x : LampGroup) (c : Charge), p.budget.waiting = [] → limit < p.budget.committed →
                  stageCode p.budget.stage < stageCode st → 1 ≤ g → g ≤ 12 → x = p.group g → x.config.priority ≤ 3 →
                  p.budget.charges.filter Charge.isLamp = [c] → c.holder = .group g → 0 < c.amount →
                  (q.group g).commanded % 10 = 0 ∧ (q.group g).clamp = some (q.group g).commanded
                    ∧ (q.group g).reclaims = bump x.reclaims
                    ∧ ((q.group g).commanded ≠ x.commanded → p.levelOffered q g 1)
                    ∧ (c.amount ≤ p.budget.committed - limit →
                        (q.group g).commanded = 0 ∧ q.budget.committed = p.budget.committed - c.amount)
                    ∧ (p.budget.committed - limit < c.amount → q.budget.committed ≤ limit
                        ∧ ∀ l, l ≤ 1000 → l % 10 = 0 →
                            (x.config.rated * l + 999) / 1000 ≤ c.amount - (p.budget.committed - limit) →
                            0 < x.config.rated → l ≤ (q.group g).commanded))
              ∧ r.sameBut q [.dialDriver, .lamps, .budget, .events, .locals, .up, .faults]))

/-- R136, R137, R142: the grant rule decides a strike or dial charge, its cases in their order, and a plain grant puts
the charge in the list and never takes the load above the limit. A strike's charge leaves at its release instant: one
charge, the first in the list, at each command (log entry 41). R141: after it the waiting dials are re-offered from the
front, each once: a dial granted leaves the list, runs fast (or goes on searching, R36) and offers a step, and one
refused keeps its place. The restore timer, once it has run for the restore delay, lifts the clamp of its group, which
rises to its fade level when the Budget has the room, the level offered to LOCAL (R127, R165; log entry 93). Before
their instants both commands change nothing (log entry 3). -/
def Obligations.ChargesGrantedAndReleased : Prop :=
  (∀ (b : FeedBudget) (a : Nat),
    (80 ≤ b.charges.length → b.decide a = .refuse)
    ∧ (b.charges.length < 80 →
        (a = 0 → b.decide a = .grant)
        ∧ (0 < a → b.limit < b.committed → b.decide a = .refuse)
        ∧ (0 < a → b.committed + a ≤ b.limit → b.decide a = .grant)
        ∧ (b.committed ≤ b.limit → b.limit < b.committed + a →
            (b.committed + a - b.limit ≤ b.lampCharges → b.decide a = .reclaim (b.committed + a - b.limit))
            ∧ (b.lampCharges < b.committed + a - b.limit → b.decide a = .refuse))))
  ∧ (∀ (p : Part) (bell a : Nat) (o : Origin), p.budget.decide a = .grant →
      (askStrike bell o a p).2.isSome = true ∧ (askStrike bell o a p).1.budget.committed = p.budget.committed + a
        ∧ (0 < a → (askStrike bell o a p).1.budget.committed ≤ p.budget.limit)
        ∧ p.sameBut (askStrike bell o a p).1 [.budget])
  ∧ ∀ (p : Part) (w : List Instr), p.retention.supply = true →
      ((∀ c ∈ p.budget.charges, ∀ t, c.releaseAt = some t → p.osc < t) →
        exec .strikeChargeRelease ⟨p, w⟩ = .next ⟨p, w⟩)
      ∧ (∀ (before after : List Charge) (c : Charge) (t : Nat), p.budget.charges = before ++ c :: after →
          (∀ x ∈ before, ∀ u, x.releaseAt = some u → p.osc < u) → c.releaseAt = some t → t ≤ p.osc →
          (∃ b o, c.holder = .strike b o) → (∀ x ∈ before ++ after, x.ofStrike c.id = false) →
          (p.budget.waiting = [] →
            ∃ q : Part, exec .strikeChargeRelease ⟨p, w⟩ = .next ⟨q, w⟩ ∧ q.budget.charges = before ++ after
              ∧ q.budget.committed + c.amount = p.budget.committed ∧ p.sameBut q [.budget])
          ∧ ∀ (d e : Nat) (m : FeedBudget) (x y : Dial), p.budget.waiting = [d, e] → d ≠ e → 1 ≤ d → d ≤ 4 →
              1 ≤ e → e ≤ 4 → x = p.dial d → y = p.dial e →
              m = { p.budget with charges := before ++ after } → y.outstanding = false →
              p.line.localQ.length < 24 →
              m.decide x.config.driveCharge = .refuse → m.decide y.config.driveCharge = .grant →
              ∃ q : Part, exec .strikeChargeRelease ⟨p, w⟩ = .next ⟨q, w⟩
                ∧ q.budget.waiting = [d] ∧ q.budget.dialRefusals = bump p.budget.dialRefusals
                ∧ q.budget.dialGrants = bump p.budget.dialGrants
                ∧ q.budget.charges = before ++ after ++ [{
                    id := p.budget.nextId, holder := .dial e, amount := y.config.driveCharge, grantedAt := p.osc
                    releaseAt := none }]
                ∧ q.dial d = x
                ∧ q.dial e = { y with
                    state := if y.state = .unknown then .unknown else .advancing
                    outstanding := true, lastOffer := some p.osc }
                ∧ q.line.localQ = p.line.localQ ++ [LocalItem.dialStep e
                    { dest := y.config.node, src := p.mgmt.address, kind := 23
                      payload := [byte y.config.channel, 1] }]
                ∧ p.sameBut q [.dialDriver, .budget, .locals])
      ∧ (∀ (before after : List Charge) (c : Charge) (t d e : Nat) (x y : Dial),
          p.budget.charges = before ++ c :: after → (∀ k ∈ before, ∀ u, k.releaseAt = some u → p.osc < u) →
          c.releaseAt = some t → t ≤ p.osc → (∃ b o, c.holder = .strike b o) →
          (∀ k ∈ before ++ after, k.ofStrike c.id = false) → p.budget.waiting = [d, e] → d ≠ e → 1 ≤ d → d ≤ 4 →
          1 ≤ e → e ≤ 4 → x = p.dial d → y = p.dial e → (before ++ after).length < 79 →
          p.budget.committed + x.config.driveCharge + y.config.driveCharge ≤ p.budget.limit + c.amount →
          ∃ q : Part, exec .strikeChargeRelease ⟨p, w⟩ = .next ⟨q, w⟩
            ∧ q.budget.waiting = [] ∧ q.budget.dialRefusals = p.budget.dialRefusals
            ∧ q.budget.charges.map Charge.holder = (before ++ after).map Charge.holder ++ [.dial d, .dial e]
            ∧ (∀ a, a = d ∨ a = e → (q.dial a).state
                = (if (p.dial a).state = .unknown then .unknown else .advancing))
            ∧ p.sameBut q [.dialDriver, .budget, .locals])
      ∧ ((p.budget.restore = none ∨ ∃ t, p.budget.restore = some t
            ∧ p.osc < t.start + p.budget.limits.restoreDelay * 1024) →
          exec .restoreTimerExpiry ⟨p, w⟩ = .next ⟨p, w⟩)
      ∧ ∀ (t : RestoreTimer) (x : LampGroup), p.budget.restore = some t → 1 ≤ t.group → t.group ≤ 12 →
          t.start + p.budget.limits.restoreDelay * 1024 ≤ p.osc → x = p.group t.group → x.clamp ≠ none →
          (x.fadeLevel ≤ x.commanded ∨ p.mgmt.partState = .safe →
            ∃ q : Part, exec .restoreTimerExpiry ⟨p, w⟩ = .next ⟨q, w⟩
              ∧ q.group t.group = { x with clamp := none } ∧ q.budget.charges = p.budget.charges
              ∧ q.budget.restorations = bump p.budget.restorations ∧ p.sameBut q [.lamps, .budget])
          ∧ (x.commanded < x.fadeLevel → p.mgmt.partState = .running → p.budget.committed ≤ p.budget.limit →
              p.budget.charges.length < 80 →
              p.budget.committed + (x.config.rated * x.fadeLevel + 999) / 1000
                ≤ p.budget.limit + p.budget.groupCharge t.group →
              ∃ q : Part, exec .restoreTimerExpiry ⟨p, w⟩ = .next ⟨q, w⟩
                ∧ (q.group t.group).commanded = x.fadeLevel ∧ (q.group t.group).clamp = none
                ∧ q.budget.groupCharge t.group = (x.config.rated * x.fadeLevel + 999) / 1000
                ∧ q.budget.restorations = bump p.budget.restorations ∧ p.levelOffered q t.group 1
                ∧ p.sameBut q [.lamps, .budget, .locals])


/-! ## The Calendar -/

/-- R150, R152, R154: SCHEDULE_FIRE with no item reached, or while UNSET, changes nothing (log entry 3); a second that
waits in the accumulator counts as reached (log entry 4). The first item reached fires: it leaves the due list, FIRED
on today's date, and is counted; an entry's action is performed, here a quiet one, and ENTRY(n) goes to the cue links,
to be taken before what the action emits (R156); a sun mark gives its event. Two items reached fire in list order. -/
def Obligations.ScheduleFires : Prop :=
  ∀ (p : Part) (w : List Instr), p.retention.supply = true →
    (p.time.state = .unset ∨ (∀ x ∈ p.cal.dueList, p.time.sec + p.time.acc / 1073741824 < x.fire) →
      exec .scheduleFire ⟨p, w⟩ = .next ⟨p, w⟩)
    ∧ (∀ (x : DueItem) (rest : List DueItem), p.time.state ≠ .unset → p.cal.dueList = x :: rest →
        x.fire ≤ p.time.sec + p.time.acc / 1073741824 →
        (∀ y ∈ rest, p.time.sec + p.time.acc / 1073741824 < y.fire ∧ y.kind ≠ x.kind) →
        (∀ (n : Nat) (k : QuietKinds), x.kind = .entry n → n < 128 → p.cal.reapply = false →
          (p.entry n).config.val.action = .quietBegin k →
          exec .scheduleFire ⟨p, w⟩
            = .next ⟨{ p with
                cal.schedule := bankPut p.cal.schedule n { p.entry n with
                  state := .fired
                  decided := p.time.civilDate.map (fun d => { date := d, fired := true }) }
                cal.dueList := rest, cal.fired := bump p.cal.fired
                cal.quietChimes := if k.chimes then min (p.cal.quietChimes + 1) 15 else p.cal.quietChimes
                cal.quietStrike := if k.strike then min (p.cal.quietStrike + 1) 15 else p.cal.quietStrike
                cal.quietTunes := if k.tunes then min (p.cal.quietTunes + 1) 15 else p.cal.quietTunes
                cal.events := p.cal.events ++ [.entry n] }, w⟩)
        ∧ (∀ (n : Nat) (a : Action), x.kind = .entry n → n < 128 → (p.entry n).config.val.action = a →
            ∃ q : Part, exec .scheduleFire ⟨p, w⟩ = .next ⟨q, w⟩
              ∧ (q.entry n).state = .fired
              ∧ (q.entry n).decided = p.time.civilDate.map (fun d => { date := d, fired := true })
              ∧ q.cal.dueList = rest ∧ q.cal.fired = bump p.cal.fired ∧ q.cal.firedLate = p.cal.firedLate
              ∧ q.cal.reapply = false ∧ (p.cal.events ++ [.entry n]) <+: q.cal.events
              ∧ (a = .omitNext → q.clock.omitNext = true)
              ∧ (∀ m, a = .chimeSet m → q.cal.config = { p.cal.config with selector := m })
              ∧ p.sameBut q [.dialDriver, .bellGuard, .store, .clock, .tune, .lamps, .budget, .cal, .events,
                  .locals, .up, .faults])
        ∧ (x.kind = .sunrise →
          exec .scheduleFire ⟨p, w⟩
            = .next ⟨{ p with
                cal.sunrise := { p.cal.sunrise with
                  state := .fired
                  decided := p.time.civilDate.map (fun d => { date := d, fired := true }) }
                cal.dueList := rest, cal.fired := bump p.cal.fired
                cal.events := p.cal.events ++ [.sunrise] }, w⟩)
        ∧ (x.kind = .sunset →
          exec .scheduleFire ⟨p, w⟩
            = .next ⟨{ p with
                cal.sunset := { p.cal.sunset with
                  state := .fired
                  decided := p.time.civilDate.map (fun d => { date := d, fired := true }) }
                cal.dueList := rest, cal.fired := bump p.cal.fired
                cal.events := p.cal.events ++ [.sunset] }, w⟩))
    ∧ ∀ a b : Int, p.time.state ≠ .unset → p.cal.dueList = [{ kind := .sunrise, fire := a }, { kind := .sunset, fire := b }] →
        a ≤ p.time.sec + p.time.acc / 1073741824 → b ≤ p.time.sec + p.time.acc / 1073741824 →
        ∃ q : Part, exec .scheduleFire ⟨p, w⟩ = .next ⟨q, w⟩
          ∧ q.cal.dueList = [] ∧ q.cal.fired = bump (bump p.cal.fired)
          ∧ q.cal.events = p.cal.events ++ [.sunrise, .sunset]
          ∧ q.cal.sunrise.state = .fired ∧ q.cal.sunset.state = .fired ∧ p.sameBut q [.cal, .events]

/-- R146, R147, R149, R150, R151, R153: the Calendar's day, with its records sound. Today's class set unites the flags
of the VALID entries that name the civil date. The sun instants are interpolated between two entries, to the nearest
minute, and a day without either entry has none. The fire instant of a civil minute is the earliest at which an offset
tried is the one in force, or else the instant of the change that passes the minute over. At a rebuild every entry
takes its state for today; the ARMED items stand in the due list by fire instant, ties by entry index and the sun
marks last, SUNRISE ahead of SUNSET (log entry 69); an item already passed, tower time counted with its fraction,
fires late within the catch-up window and is SKIPPED beyond it; and so at a forward step of the same date, a backward
step leaving the Calendar alone. A second that waits in the accumulator counts as reached (log entry 4). While UNSET
the list is empty. -/
def Obligations.CalendarRebuilt : Prop :=
  ∀ p : Part, p.calSound →
    (∀ d, p.time.civilDate = some d →
      (∀ f, f ∈ (recomputeClasses p).cal.classSet ↔ f < 8 ∧ ∃ n c, n < 64 ∧ (p.dayClassRecord n).val = some c
        ∧ c.month = d.month ∧ c.day = d.day ∧ (c.year = none ∨ ∃ y : Nat, c.year = some y ∧ (y : Int) = d.year)
        ∧ f ∈ c.classes)
      ∧ p.sameBut (recomputeClasses p) [.cal])
    ∧ (∀ (d : Date) (k f : Nat), k = min ((dayOfYear d - 1) / 5) 72 → f = dayOfYear d - 1 - 5 * k →
        (∀ x y : SunTimes, (p.sunRecord k).val = some x → (p.sunRecord ((k + 1) % 73)).val = some y →
          ∃ m e : Int, sunInstants d p = (p, some
              (86400 * dayNumber d + 60 * (x.sunrise + m), 86400 * dayNumber d + 60 * (x.sunset + e)))
            ∧ 2 * (5 * m - ((y.sunrise : Int) - x.sunrise) * f).natAbs ≤ 5
            ∧ 2 * (5 * e - ((y.sunset : Int) - x.sunset) * f).natAbs ≤ 5)
        ∧ ((p.sunRecord k).val = none ∨ (p.sunRecord ((k + 1) % 73)).val = none → sunInstants d p = (p, none)))
    ∧ (∀ (h : OffsetHistory) (civil : Int), seasonsRise h.changes →
        (∀ o ∈ h.first :: h.changes.map Season.offset, h.offsetAt (civil - 60 * o) = o →
          civilFire h civil ≤ civil - 60 * o ∧ ∃ a ∈ h.first :: h.changes.map Season.offset,
            civilFire h civil = civil - 60 * a ∧ h.offsetAt (civilFire h civil) = a)
        ∧ ((∀ o ∈ h.first :: h.changes.map Season.offset, h.offsetAt (civil - 60 * o) ≠ o) →
          ∃ (before after : List Season) (c : Season), h.changes = before ++ c :: after
            ∧ civilFire h civil = c.instant
            ∧ c.instant + 60 * ((before.getLast?.map Season.offset).getD h.first) ≤ civil
            ∧ civil < c.instant + 60 * c.offset))
    ∧ (∀ (d : Date) (now : Int) (h : OffsetHistory) (sun : Option (Int × Int)) (st : Nat → EntryState)
        (fire : Nat → Int) (due : DueItem → Prop), p.time.civilDate = some d → p.time.state ≠ .unset →
        now = p.time.sec + p.time.acc / 1073741824 → sunInstants d p = (p, sun) →
        h = (match p.cal.history with
          | none => { first := p.time.currentOffset, changes := p.time.seasons }
          | some k => { k with changes := k.changes.filter (fun c => c.instant ≤ now)
              ++ p.time.seasons.filter (fun c => now < c.instant) }) →
        (∀ n, n < 128 → (p.entry n).config.val.stateOn (p.entry n).decided d p.cal.classSet sun (st n)
          ∧ (p.entry n).config.val.fireOn d h sun (fire n)) →
        (∀ x, due x ↔ (∃ n, n < 128 ∧ st n = .armed ∧ x = { kind := .entry n, fire := fire n })
          ∨ (∃ a b, sun = some (a, b) ∧ outcomeOn p.cal.sunrise.decided d = .armed ∧ x = { kind := .sunrise, fire := a })
          ∨ ∃ a b, sun = some (a, b) ∧ outcomeOn p.cal.sunset.decided d = .armed ∧ x = { kind := .sunset, fire := b }) →
        ((∀ x, due x → now < x.fire) →
          (∀ n, n < 128 → (rebuild p).entry n = { p.entry n with state := st n })
          ∧ (∀ x, x ∈ (rebuild p).cal.dueList ↔ due x)
          ∧ (rebuild p).cal.dueList.Pairwise (fun a b =>
              a.fire < b.fire ∨ (a.fire = b.fire ∧ a.kind.place < b.kind.place))
          ∧ (rebuild p).cal.history = some h
          ∧ (rebuild p).cal.sunrise = { p.cal.sunrise with
              instant := sun.map Prod.fst
              state := if sun = none then .notToday else outcomeOn p.cal.sunrise.decided d }
          ∧ (rebuild p).cal.sunset = { p.cal.sunset with
              instant := sun.map Prod.snd
              state := if sun = none then .notToday else outcomeOn p.cal.sunset.decided d }
          ∧ (rebuild p).cal.fired = p.cal.fired ∧ (rebuild p).cal.skipped = p.cal.skipped
          ∧ p.sameBut (rebuild p) [.cal])
        ∧ ∀ n, n < 128 → st n = .armed → fire n ≤ now →
            (∀ x, due x → x.fire ≤ now → x = { kind := .entry n, fire := fire n }) →
            (60 * p.cal.config.catchUp * 1073741824 < (p.time.sec - fire n) * 1073741824 + p.time.acc →
              (rebuild p).entry n = { p.entry n with
                state := .skipped, decided := some { date := d, fired := false } }
              ∧ (∀ x, x ∈ (rebuild p).cal.dueList ↔ due x ∧ now < x.fire)
              ∧ (rebuild p).cal.skipped = bump p.cal.skipped ∧ (rebuild p).cal.fired = p.cal.fired
              ∧ p.sameBut (rebuild p) [.cal])
            ∧ ((p.time.sec - fire n) * 1073741824 + p.time.acc ≤ 60 * p.cal.config.catchUp * 1073741824 →
              ((rebuild p).entry n).state = .fired
              ∧ ((rebuild p).entry n).decided = some { date := d, fired := true }
              ∧ (∀ x, x ∈ (rebuild p).cal.dueList ↔ due x ∧ now < x.fire)
              ∧ (rebuild p).cal.fired = bump p.cal.fired ∧ (rebuild p).cal.firedLate = bump p.cal.firedLate
              ∧ (rebuild p).cal.skipped = p.cal.skipped ∧ (p.cal.events ++ [.entry n]) <+: (rebuild p).cal.events))
    ∧ (p.time.state = .unset →
        (rebuild p).cal.dueList = []
          ∧ (∀ n, n < 128 → (rebuild p).entry n = { p.entry n with
              state := if (p.entry n).config.val.enabled then .notToday else .disabled })
          ∧ p.sameBut (rebuild p) [.cal])
    ∧ (∀ (a : Int) (old : TimeState), a < 0 → p.time.state ≠ .unset →
        p.time.civilDate = some (civilDateAt p.time.sec p.time.offsetNow) → (afterStep a old p).cal = p.cal)
    ∧ ∀ (x : DueItem) (rest : List DueItem) (d : Date) (n : Nat), p.time.civilDate = some d →
        p.cal.dueList = x :: rest → x.kind = .entry n → n < 128 →
        x.fire ≤ p.time.sec + p.time.acc / 1073741824 →
        (∀ y ∈ rest, p.time.sec + p.time.acc / 1073741824 < y.fire ∧ y.kind ≠ x.kind) →
        (60 * p.cal.config.catchUp * 1073741824 < (p.time.sec - x.fire) * 1073741824 + p.time.acc →
          calStepForward p = { p with
            cal.schedule := bankPut p.cal.schedule n { p.entry n with
              state := .skipped, decided := some { date := d, fired := false } }
            cal.dueList := rest, cal.skipped := bump p.cal.skipped })
        ∧ ((p.time.sec - x.fire) * 1073741824 + p.time.acc ≤ 60 * p.cal.config.catchUp * 1073741824 →
          ((calStepForward p).entry n).state = .fired ∧ (calStepForward p).cal.dueList = rest
            ∧ (calStepForward p).cal.firedLate = bump p.cal.firedLate)

/-- R154, R156, R158: CUE_SOURCE_EVENT takes the first source event handed over and without one changes nothing (log
entry 3); an event that waits when the part is UNSET is lost (log entry 31). Where no enabled link that passes its
check names it, nothing more happens. Where just one does, its action is performed: here an accepted selector or end
of a quiet period, or a refused STOP_TUNE, which is counted against the link and recorded. -/
def Obligations.CueLinkActs : Prop :=
  ∀ (p : Part) (w : List Instr) (e : CueEvent) (more : List CueEvent), p.retention.supply = true →
    (p.cal.events = [] → exec .cueSourceEvent ⟨p, w⟩ = .next ⟨p, w⟩)
    ∧ (p.cal.events = e :: more →
        (p.time.state = .unset → exec .cueSourceEvent ⟨p, w⟩ = .next ⟨{ p with cal.events := more }, w⟩)
        ∧ (p.time.state ≠ .unset → p.calSound →
            ((∀ n, n < 32 → (p.link n).config.val.enabled = false ∨ ¬ e.cues (p.link n).config.val.source) →
              exec .cueSourceEvent ⟨p, w⟩ = .next ⟨{ p with cal.events := more }, w⟩)
            ∧ ∀ n, n < 32 → (p.link n).config.val.enabled = true → p.cal.reapply = false →
                e.cues (p.link n).config.val.source →
                (∀ k, k < 32 → k ≠ n →
                  (p.link k).config.val.enabled = false ∨ ¬ e.cues (p.link k).config.val.source) →
                (∀ m, (p.link n).config.val.action = .chimeSet m →
                  exec .cueSourceEvent ⟨p, w⟩
                    = .next ⟨{ p with
                        cal.events := more, cal.config := { p.cal.config with selector := m } }, w⟩)
                ∧ (∀ k, (p.link n).config.val.action = .quietEnd k →
                  exec .cueSourceEvent ⟨p, w⟩
                    = .next ⟨{ p with
                        cal.events := more
                        cal.quietChimes := if k.chimes then p.cal.quietChimes - 1 else p.cal.quietChimes
                        cal.quietStrike := if k.strike then p.cal.quietStrike - 1 else p.cal.quietStrike
                        cal.quietTunes := if k.tunes then p.cal.quietTunes - 1 else p.cal.quietTunes }, w⟩)
                ∧ ((p.link n).config.val.action = .stopTune → p.tune.state = .idle →
                  exec .cueSourceEvent ⟨p, w⟩
                    = .next ⟨{ p with
                        cal.events := more
                        cal.links := bankPut p.cal.links n { p.link n with
                          refusals := bump (p.link n).refusals }
                        cal.lastRefusal := some {
                          source := .link n, action := Action.stopTune.code, code := .wrongState } }, w⟩)))


/-! ## Management -/

/-- R172, R175: READ_RECORD and WRITE_RECORD from a source that manages: the checks in their order. A record that passes
its check is answered with up to 30 of its bytes from the offset. One that fails it is answered CHECK_FAIL without
bytes, and the failure is raised as its table's rule says (R86 to R90, R121, R157, R161, R173), a MAJOR one with its
notices, its event and the stop of the voices at an entry into SAFE (R114, R178), a management read making the check as
a use does (log entry 48); where it has been found before, nothing more is raised. The bytes of the notices are those of
log entries 20 and 21, a voice that has stopped has pulses elapsed 0 (the model's choice, log entry 56), and a fault's
notice stands ahead of the reply (log entry 50). A write of the time configuration by a SERVICE source sets the trim, W
and d together when all three are in range, a changed trim abandoning the open window (R3, R4); else it changes nothing.
The size is looked at before the class, and BAD_TABLE comes whatever the LEN (log entry 39); READ_ONLY comes whatever
the size (log entry 40); the trim travels as two's complement (log entry 2); an offset within a short record is answered
from there (log entry 78). -/
def Obligations.RecordsReadAndWritten : Prop :=
  ∀ (p : Part) (w : List Instr) (src table n off : Nat) (cls : SourceClass) (record : List Byte),
    p.hears src cls = true → cls.rank ≠ 0 →
    (Table.ofCode table = none →
      exec (.readRecord src table n off) ⟨p, w⟩ = .next ⟨p.answered src 1 .badTable [], w⟩
        ∧ exec (.writeRecord src table n record) ⟨p, w⟩ = .next ⟨p.answered src 2 .badTable [], w⟩)
    ∧ ∀ t : Table, Table.ofCode table = some t →
        (t.holds n = false →
          exec (.readRecord src table n off) ⟨p, w⟩ = .next ⟨p.answered src 1 .badIndex [], w⟩)
        ∧ (t.holds n = true → (recordBytes t n p).length ≤ off →
          exec (.readRecord src table n off) ⟨p, w⟩ = .next ⟨p.answered src 1 .badValue [], w⟩)
        ∧ (t.holds n = true → off < (recordBytes t n p).length → checkRecord t n p = (p, true) →
          exec (.readRecord src table n off) ⟨p, w⟩
            = .next ⟨p.answered src 1 .ok (((recordBytes t n p).drop off).take 30), w⟩)
        ∧ (t.holds n = true → off < (recordBytes t n p).length →
          (p.hasFailed n t = true →
            exec (.readRecord src table n off) ⟨p, w⟩ = .next ⟨p.answered src 1 .checkFail [], w⟩)
          ∧ (p.hasFailed n t = false → p.passesCheck n t = false →
            ∃ q : Part, exec (.readRecord src table n off) ⟨p, w⟩ = .next ⟨q.answered src 1 .checkFail [], w⟩
              ∧ p.foundDamaged q t n))
        ∧ (t.writeClass = none →
          exec (.writeRecord src table n record) ⟨p, w⟩ = .next ⟨p.answered src 2 .readOnly [], w⟩)
        ∧ (∀ least, t.writeClass = some least →
          (record.length ≠ recordSize t p →
            exec (.writeRecord src table n record) ⟨p, w⟩ = .next ⟨p.answered src 2 .badValue [], w⟩)
          ∧ (record.length = recordSize t p → cls.rank < least.rank →
            exec (.writeRecord src table n record) ⟨p, w⟩ = .next ⟨p.answered src 2 .notPermitted [], w⟩))
        ∧ ∀ (t1 t0 w1 w0 d : Byte) (trim : Int) (size : Nat), t = .timeConfig → cls = .service → n = 0 →
            record = [t1, t0, w1, w0, d] → size = w1.toNat * 256 + w0.toNat →
            trim = (if t1.toNat < 128 then (t1.toNat * 256 + t0.toNat : Int)
              else (t1.toNat * 256 + t0.toNat : Int) - 65536) →
            (-500 ≤ trim → trim ≤ 500 → size = 16 ∨ size = 64 ∨ size = 256 ∨ size = 1024 → d.toNat ≤ 20 →
              exec (.writeRecord src table n record) ⟨p, w⟩
                = .next ⟨({ p with
                    time.trim := trim, time.windowSize := size, time.delay := d.toNat
                    time.window := if trim = p.time.trim then p.time.window else none }).answered src 2 .ok [], w⟩)
            ∧ (trim < -500 ∨ 500 < trim ∨ (size ≠ 16 ∧ size ≠ 64 ∧ size ≠ 256 ∧ size ≠ 1024) ∨ 20 < d.toNat →
              exec (.writeRecord src table n record) ⟨p, w⟩ = .next ⟨p.answered src 2 .badValue [], w⟩)

/-- R23, R42, R43: WRITE_RECORD of a dial, a bell or the guard configuration from a SERVICE source: the ranges, the
checks in their order, and what an accepted write does. A dial with a new step period loses its position and its charge
and searches for home, or stands STOPPED while UNSET; an open home watch stays (R35). A bell keeps its claims, its last
take and its counts, restarts the rest, and is given its start-up setting in place of any that waits. Each sensor timer
that the new timeout has run out expires at once, in bell-number order (log entry 53). A guard configuration's number
other than 0 is BAD_INDEX (log entry 66), and a bell's state before setting after the write is log entry 74's. The
layouts are those of TABLE 2-1 and TABLE 3-1 (log entry 18), with the named values of log entry 44. The faults that
expiry raises are told ahead of the reply (log entry 50), their bytes those of log entries 20 and 21. -/
def Obligations.DialsAndBellsWritten : Prop :=
  ∀ (p : Part) (src n : Nat) (record : List Byte), p.hears src .service = true →
    (∀ c, parseDialConfig record = some c ↔ record = dialConfigBytes c ∧ c.Legal)
    ∧ (record.length = 7 →
      (n = 0 ∨ 4 < n → p.writes src 7 n record p .badIndex)
      ∧ (1 ≤ n → n ≤ 4 →
        (parseDialConfig record = none → p.writes src 7 n record p .badValue)
        ∧ ∀ (c : DialConfig) (x : Dial), parseDialConfig record = some c → x = p.dial n →
          ((∃ e, 1 ≤ e ∧ e ≤ 4 ∧ e ≠ n ∧ (p.dial e).config.node = c.node ∧ (p.dial e).config.channel = c.channel) →
            p.writes src 7 n record p .duplicate)
          ∧ ((∀ e, 1 ≤ e → e ≤ 4 → e ≠ n →
                ¬ ((p.dial e).config.node = c.node ∧ (p.dial e).config.channel = c.channel)) →
            (c.stepPeriod = x.config.stepPeriod → c.fastRate = x.config.fastRate → c.holdLimit = x.config.holdLimit →
                x.target = targetOf c.stepPeriod p.time →
              p.writes src 7 n record (p.putDial n { x with config := c }) .ok)
            ∧ (c.stepPeriod = x.config.stepPeriod →
              ∃ q : Part, p.writes src 7 n record q .ok ∧ (q.dial n).config = c
                ∧ (q.dial n).indicated = x.indicated ∧ (q.dial n).misses = x.misses
                ∧ (q.dial n).homeWatch = x.homeWatch ∧ p.sameBut q [.dialDriver, .lamps, .budget, .locals])
            ∧ (c.stepPeriod ≠ x.config.stepPeriod → p.budget.waiting.Nodup →
              ∃ q : Part, p.writes src 7 n record q .ok ∧ (q.dial n).config = c ∧ (q.dial n).indicated = none
                ∧ (q.dial n).searchCount = 0 ∧ (q.dial n).misses = 0 ∧ (q.dial n).homeWatch = x.homeWatch
                ∧ (x.outstanding = true → (q.dial n).outstanding = true)
                ∧ (p.time.state = .unset → (q.dial n).state = .stopped ∧ (q.dial n).outstanding = x.outstanding
                    ∧ q.budget.dialHolds n = false ∧ n ∉ q.budget.waiting)
                ∧ (p.time.state ≠ .unset → (q.dial n).state = .unknown
                    ∧ (q.budget.dialHolds n = true ∨ n ∈ q.budget.waiting))
                ∧ p.sameBut q [.dialDriver, .lamps, .budget, .locals]))))
    ∧ (∀ c : BellConfig, (c.Legal → parseBellConfig (bellConfigBytes c) = some c)
        ∧ (parseBellConfig record = some c → c.Legal))
    ∧ (record.length = 11 →
      (n = 0 ∨ 16 < n → p.writes src 8 n record p .badIndex)
      ∧ (1 ≤ n → n ≤ 16 →
        (parseBellConfig record = none → p.writes src 8 n record p .badValue)
        ∧ ∀ (c : BellConfig) (x : Bell) (same : Prop), parseBellConfig record = some c → x = p.bell n →
          (same ↔ ∃ a m, 1 ≤ a ∧ a ≤ 16 ∧ a ≠ n ∧ c.hammerNode = some m ∧ (p.bell a).config.hammerNode = some m
            ∧ (p.bell a).config.hammerChannel = c.hammerChannel) →
          (same → p.writes src 8 n record p .duplicate)
          ∧ (¬ same → x.claims.ringers = true → p.writes src 8 n record p .inUse)
          ∧ (¬ same → x.claims.ringers = false →
            ∃ (q : Part) (act : HammerAction), p.writes src 8 n record q .ok
              ∧ act = (if c.cls = .fixed ∧ p.mgmt.partState = .running then .engage else .withdraw)
              ∧ q.bell n = { x with
                  config := c
                  position := if c.cls = .fixed then .down else .unknown
                  lastReport := none, downBegan := none, settled := false, intruded := false
                  sensorFrom := if c.cls = .swing ∧ c.sensorNode ≠ none then some p.osc else none
                  hammerTimer := none
                  hammer := if c.hammerNode = none then .withdrawn else if act = .engage then .engaging else .withdrawing
                  wanted := if c.hammerNode = none then none else some act
                  stateBefore := if c.hammerNode = none then .withdrawn else .unknown }
              ∧ (∀ b, b ≠ n → q.bell b = p.bell b)
              ∧ (∀ s ∈ p.line.safetyQ, s.bell ≠ n → s ∈ q.line.safetyQ)
              ∧ (c.hammerNode = none ∨ (∃ s ∈ q.line.safetyQ, s.bell = n) ∨ 8 ≤ q.line.safetyQ.length)
              ∧ (∀ s ∈ q.line.safetyQ, s.bell = n → s.action = act ∧ ∃ m, c.hammerNode = some m
                  ∧ s.frame = { dest := m, src := p.mgmt.address, kind := 22
                                payload := [byte c.hammerChannel, byte (if act = .engage then 1 else 2)] })
              ∧ p.sameBut q [.bellGuard, .safety])))
    ∧ (∀ t, parseGuardConfig record = some t ↔ record = [byte t] ∧ 10 ≤ t ∧ t ≤ 120)
    ∧ (record.length = 1 →
      (n ≠ 0 → p.writes src 9 n record p .badIndex)
      ∧ (n = 0 → parseGuardConfig record = none → p.writes src 9 n record p .badValue)
      ∧ ∀ (t : Nat) (due : List Nat), n = 0 → parseGuardConfig record = some t →
          due = (List.range' 1 16).filter (fun b => (p.bell b).sensorFrom.any (fun i => i + t * 1024 ≤ p.osc)) →
          ∃ q : Part, p.writes src 9 n record q .ok ∧ q.bellGuard.sensorTimeout = t
            ∧ (∀ b, 1 ≤ b → b ≤ 16 → q.bell b = (if b ∈ due then
                { p.bell b with position := .unknown, downBegan := none, settled := false, sensorFrom := none }
                else p.bell b))
            ∧ (p.mgmt.tally.sensorSilent + due.length ≤ 65535 →
                q.mgmt.tally = { p.mgmt.tally with sensorSilent := p.mgmt.tally.sensorSilent + due.length })
            ∧ (p.line.upQ.length + due.length ≤ 14 →
                q.line.upQ = p.line.upQ ++ due.map (fun b => p.noticeOf .faultRaised p.towerTime [4, 0, byte b]))
            ∧ q.mgmt.faults = p.mgmt.faults ∧ q.mgmt.partState = p.mgmt.partState
            ∧ p.sameBut q [.bellGuard, .up, .faults])

/-- R79, R81, R83, R84, R161, R173, R174: WRITE_RECORD of a directory entry, a step or a chime set from an OPERATOR or
SERVICE source, and of a route entry, a source record or the part configuration from a SERVICE source: the ranges, the
checks in their order, and the record stored with its check value. A step within the cached extent of a frame of
either voice is IN_USE, and a write that would leave no SERVICE record likewise. The reply to a new address carries
the old one. A part configuration's number other than 0 is BAD_INDEX (log entry 66), and the layouts are log entry
18's, with a step's check value over the bytes of its kind (log entry 55) and the codes for EMPTY, the ports and the
kinds of log entry 44. A damaged SERVICE record is none at a source write's look, which raises nothing (log entry 63).
-/
def Obligations.StoreAndLineWritten : Prop :=
  ∀ (p : Part) (src n : Nat) (cls : SourceClass) (record : List Byte), p.hears src cls = true → 2 ≤ cls.rank →
    (∀ e : TuneEntry, (e.Legal → parseDir (dirBytes (.valid e)) = some (.valid e))
        ∧ (parseDir record = some (.valid e) → e.Legal))
    ∧ (record.length = 9 → record.head? = some 0#8 → parseDir record = some .empty)
    ∧ (record.length = 9 →
      (96 ≤ n → p.writes src 11 n record p .badIndex)
      ∧ (n < 96 → parseDir record = none → p.writes src 11 n record p .badValue)
      ∧ (∀ e, n < 96 → parseDir record = some e →
          p.writes src 11 n record
            { p with store.directory := bankPut p.store.directory n (stored dirBytes e) } .ok))
    ∧ (∀ s : TuneStep, (s.Legal → parseStep (stepBytes s) = some s) ∧ (parseStep record = some s → s.Legal))
    ∧ (record.length = 7 →
      (2048 ≤ n → p.writes src 12 n record p .badIndex)
      ∧ (n < 2048 → parseStep record = none → p.writes src 12 n record p .badValue)
      ∧ (∀ s, n < 2048 → parseStep record = some s →
          ((∃ f ∈ p.clock.voice.stack ++ p.tune.voice.stack, f.start ≤ n ∧ n < f.start + f.length) →
            p.writes src 12 n record { p with store.inUseRefusals := bump p.store.inUseRefusals } .inUse)
          ∧ ((∀ f ∈ p.clock.voice.stack ++ p.tune.voice.stack, n < f.start ∨ f.start + f.length ≤ n) →
            p.writes src 12 n record
              { p with store.steps := bankPut p.store.steps n (stored stepContents s) } .ok)))
    ∧ (∀ c, parseChime record = some c ↔ record = chimeBytes c ∧ c.Legal)
    ∧ (record.length = 11 →
      (4 ≤ n → p.writes src 13 n record p .badIndex)
      ∧ (n < 4 → parseChime record = none → p.writes src 13 n record p .badValue)
      ∧ (∀ c, n < 4 → parseChime record = some c →
          p.writes src 13 n record { p with store.chimes := bankPut p.store.chimes n (stored chimeBytes c) } .ok))
    ∧ (∀ m : RouteMatch, (m.Legal → parseRoute (routeBytes (some m)) = some (some m))
        ∧ (parseRoute record = some (some m) → m.Legal))
    ∧ (record.length = 6 → record.head? = some 0#8 → parseRoute record = some none)
    ∧ (cls = .service →
      (record.length = 6 →
        (32 ≤ n → p.writes src 25 n record p .badIndex)
        ∧ (n < 32 → parseRoute record = none → p.writes src 25 n record p .badValue)
        ∧ (∀ e, n < 32 → parseRoute record = some e →
            p.writes src 25 n record { p with
              line.routes := bankPut p.line.routes n (stored routeBytes e)
              line.failedRoutes := p.line.failedRoutes.filter (fun k => k ≠ n) } .ok))
      ∧ (∀ b : Byte, record = [b] →
        (n = 0 ∨ 62 < n → p.writes src 2 n record p .badIndex)
        ∧ (1 ≤ n → n ≤ 62 → 4 < b.toNat → p.writes src 2 n record p .badValue)
        ∧ ∀ (c : SourceClass) (q : Part), 1 ≤ n → n ≤ 62 →
            (b = 0 ∧ c = .noClass ∨ b = 1 ∧ c = .console ∨ b = 2 ∧ c = .operator ∨ b = 3 ∧ c = .service
              ∨ b = 4 ∧ c = .time) →
            q = { p with
              mgmt.sources := bankPut1 p.mgmt.sources n (stored sourceClassBytes c)
              mgmt.failedSources := p.mgmt.failedSources.filter (fun k => k ≠ n) } →
            ((∀ m, q.classIs m .service = false) → p.writes src 2 n record p .inUse)
            ∧ ((∃ m, q.classIs m .service = true) → p.writes src 2 n record q .ok))
      ∧ ∀ a m : Byte, record = [a, m] →
        (n ≠ 0 → p.writes src 1 n record p .badIndex)
        ∧ (n = 0 → a.toNat = 0 ∨ 62 < a.toNat ∨ 62 < m.toNat → p.writes src 1 n record p .badValue)
        ∧ (n = 0 → 1 ≤ a.toNat → a.toNat ≤ 62 → m.toNat ≤ 62 → ∀ w : List Instr,
          exec (.writeRecord src 1 n record) ⟨p, w⟩
            = .next ⟨{ p.answered src 2 .ok [] with
                mgmt.address := a.toNat, mgmt.noticeNode := m.toNat }, w⟩))

/-- R118, R121, R133: WRITE_RECORD of a lamp group or of the limit table from a SERVICE source, and of a scene from an
OPERATOR or SERVICE source: the ranges, the checks in their order, and what an accepted write does. A group takes its
old channel dark, gives its charge back, restarts its live part and begins a fresh fade; its counts stay (log entry
58). A limit of the present stage, changed or not (log entry 76), is IN_USE only if the load stands above it and lamps
could not bring the load within it; else an excess is reclaimed from them, a waiting dial is re-offered what a raised
limit gives, and a restore timer that the new delay has run out expires, after that and ahead of the examination of
R142 (log entry 68). A limit table's number other than 0 is BAD_INDEX (log entry 66). -/
def Obligations.LampTablesWritten : Prop :=
  ∀ (p : Part) (src n : Nat) (cls : SourceClass) (record : List Byte), p.hears src cls = true → 2 ≤ cls.rank →
    (∀ s : Scene, (s.Legal → parseScene (sceneBytes s) = some s) ∧ (parseScene record = some s → s.Legal))
    ∧ (record.length = 26 →
      (16 ≤ n → p.writes src 16 n record p .badIndex)
      ∧ (n < 16 → parseScene record = none → p.writes src 16 n record p .badValue)
      ∧ (∀ s, n < 16 → parseScene record = some s →
          p.writes src 16 n record { p with lamps.scenes := bankPut p.lamps.scenes n (stored sceneBytes s) } .ok))
    ∧ (∀ c, parseLampConfig record = some c ↔ record = lampConfigBytes c ∧ c.Legal)
    ∧ (∀ t, parseLimits record = some t ↔ record = limitBytes t ∧ t.Legal)
    ∧ (cls = .service →
      (record.length = 7 →
        (n = 0 ∨ 12 < n → p.writes src 15 n record p .badIndex)
        ∧ (1 ≤ n → n ≤ 12 →
          (parseLampConfig record = none → p.writes src 15 n record p .badValue)
          ∧ ∀ (c : LampConfig) (x : LampGroup) (same : Prop), parseLampConfig record = some c → x = p.group n →
            (same ↔ ∃ g m, 1 ≤ g ∧ g ≤ 12 ∧ g ≠ n ∧ c.node = some m ∧ (p.group g).config.node = some m
              ∧ (p.group g).config.channel = c.channel) →
            (same → p.writes src 15 n record p .duplicate)
            ∧ (¬ same → p.BudgetSound → p.budget.waiting = [] →
              ∃ q : Part, p.writes src 15 n record q .ok ∧ (∀ g, g ≠ n → q.group g = p.group g)
                ∧ (q.group n).config = c ∧ (q.group n).commanded = 0 ∧ (q.group n).clamp = none
                ∧ (q.group n).failure = none ∧ (q.group n).queued = none ∧ (q.group n).inFlight = none
                ∧ (q.group n).sent = none ∧ (q.group n).target = x.target
                ∧ (q.group n).fadeLength = x.fadeLength
                ∧ (c.node ≠ none → (q.group n).fadeStart = 0 ∧ (q.group n).elapsed = 0)
                ∧ (q.group n).failures = x.failures ∧ (q.group n).levelsSent = x.levelsSent
                ∧ q.budget.charges = p.budget.charges.filter (fun k => !k.ofGroup n)
                ∧ (∀ m, x.config.node = some m → 0 < x.commanded → x.sent = some x.commanded → x.queued = none →
                    x.inFlight = none → p.line.localQ.length < 24 →
                    ∃ f : Frame, LocalItem.lampLevel none 0 f ∈ q.line.localQ ∧ f.dest = m ∧ f.kind = 24
                      ∧ f.payload = [byte x.config.channel, 0#8, 0#8])
                ∧ p.sameBut q [.lamps, .budget, .locals, .flights])))
      ∧ (record.length = 9 →
        (n ≠ 0 → p.writes src 17 n record p .badIndex)
        ∧ (n = 0 → parseLimits record = none → p.writes src 17 n record p .badValue)
        ∧ ∀ (t : LimitTable) (new : Nat), n = 0 → parseLimits record = some t →
            new = (match p.budget.stage with
              | .normal => t.normal
              | .reduced => t.reduced
              | .low => t.low) →
            (new < p.budget.committed → new < p.budget.committed - p.budget.lampCharges →
              p.writes src 17 n record p .inUse)
            ∧ (p.budget.committed ≤ new → p.budget.waiting = [] → t.restoreDelay = p.budget.limits.restoreDelay →
              ∃ q : Part, p.writes src 17 n record q .ok ∧ q.budget.limits = t ∧ q.budget.charges = p.budget.charges
                ∧ p.sameBut q [.budget])
            ∧ (new < p.budget.committed → p.budget.committed - p.budget.lampCharges ≤ new → p.BudgetSound →
              p.budget.waiting = [] → t.restoreDelay = p.budget.limits.restoreDelay →
              ∃ q : Part, p.writes src 17 n record q .ok ∧ q.budget.limits = t ∧ q.budget.committed ≤ new
                ∧ (∀ k ∈ p.budget.charges, k.isLamp = false → k ∈ q.budget.charges)
                ∧ (∀ g, 1 ≤ g → g ≤ 12 → (q.group g).commanded ≤ (p.group g).commanded)
                ∧ p.sameBut q [.lamps, .budget, .locals])
            ∧ (∀ (d : Nat) (x : Dial), p.budget.limit < new → p.budget.committed + x.config.driveCharge ≤ new →
              p.budget.waiting = [d] → 1 ≤ d → d ≤ 4 → x = p.dial d → p.budget.charges.length < 80 →
              t.restoreDelay = p.budget.limits.restoreDelay →
              ∃ q : Part, p.writes src 17 n record q .ok ∧ q.budget.waiting = [] ∧ q.budget.dialHolds d = true
                ∧ (q.dial d).state = (if x.state = .unknown then .unknown else .advancing)
                ∧ p.sameBut q [.dialDriver, .budget, .locals])
            ∧ ∀ (r : RestoreTimer) (x : LampGroup), p.budget.committed ≤ new → p.budget.waiting = [] →
                t.restoreDelay ≠ p.budget.limits.restoreDelay → p.budget.restore = some r → 1 ≤ r.group →
                r.group ≤ 12 → r.start + t.restoreDelay * 1024 ≤ p.osc → x = p.group r.group → x.clamp ≠ none →
                x.fadeLevel ≤ x.commanded →
                ∃ q : Part, p.writes src 17 n record q .ok ∧ q.budget.limits = t
                  ∧ q.group r.group = { x with clamp := none }
                  ∧ q.budget.restorations = bump p.budget.restorations ∧ p.sameBut q [.lamps, .budget]))

/-- R145, R147, R148, R155, R156, R157: WRITE_RECORD of a Calendar table from an OPERATOR or SERVICE source: the
ranges, the checks in their order, and an accepted write. The record is stored with its check value and leaves the
failed-record set. A cue link's refusal count goes to 0. A day class recomputes the class set; after it, and after a
sun entry, a schedule entry, which keeps its last-decided date, or the configuration, the due list is rebuilt, as
CalendarRebuilt says of `rebuild`, here with the request in hand. A configuration's number other than 0 is BAD_INDEX
(log entry 66), and the layouts are log entry 18's. -/
def Obligations.CalendarTablesWritten : Prop :=
  ∀ (p r : Part) (src n table : Nat) (cls : SourceClass) (record : List Byte), p.hears src cls = true → 2 ≤ cls.rank →
    r = { p with mgmt.inHand := some { request := .writeRecord src table n record, cls := cls } } →
    (∀ c : DayClass, (c.Legal → parseDayClass (dayClassBytes (some c)) = some (some c))
        ∧ (parseDayClass record = some (some c) → c.Legal))
    ∧ (∀ t, parseSun record = some (some t) ↔ record = sunBytes (some t) ∧ t.sunrise ≤ 1439 ∧ t.sunset ≤ 1439)
    ∧ (∀ c : ScheduleConfig, (c.Legal → parseSchedule (scheduleBytes c) = some c)
        ∧ (parseSchedule record = some c → c.Legal))
    ∧ (∀ l : LinkConfig, (l.Legal → parseLink (linkBytes l) = some l) ∧ (parseLink record = some l → l.Legal))
    ∧ (∀ c, parseCalendarConfig record = some c ↔
        record = calendarConfigBytes c ∧ c.catchUp ≤ 60 ∧ c.selector ≤ 3)
    ∧ (table = 19 → record.length = 5 →
      (64 ≤ n → p.writes src table n record p .badIndex)
      ∧ (n < 64 → parseDayClass record = none → p.writes src table n record p .badValue)
      ∧ ∀ (c : Option DayClass) (q : Part), n < 64 → parseDayClass record = some c →
          q = rebuild (recomputeClasses { r with
            cal.dayClasses := bankPut p.cal.dayClasses n (stored dayClassBytes c)
            cal.failed := p.cal.failed.filter (fun x => x ≠ (.dayClass, n)) }) →
          p.writes src table n record { q with mgmt.inHand := none } .ok)
    ∧ (table = 20 → record.length = 4 →
      (73 ≤ n → p.writes src table n record p .badIndex)
      ∧ (n < 73 → parseSun record = none → p.writes src table n record p .badValue)
      ∧ ∀ (t : Option SunTimes) (q : Part), n < 73 → parseSun record = some t →
          q = rebuild { r with
            cal.sun := bankPut p.cal.sun n (stored sunBytes t)
            cal.failed := p.cal.failed.filter (fun x => x ≠ (.sun, n)) } →
          p.writes src table n record { q with mgmt.inHand := none } .ok)
    ∧ (table = 21 → record.length = 10 →
      (128 ≤ n → p.writes src table n record p .badIndex)
      ∧ (n < 128 → parseSchedule record = none → p.writes src table n record p .badValue)
      ∧ ∀ (c : ScheduleConfig) (q : Part), n < 128 → parseSchedule record = some c →
          q = rebuild { r with
            cal.schedule := bankPut p.cal.schedule n { p.entry n with config := stored scheduleBytes c }
            cal.failed := p.cal.failed.filter (fun x => x ≠ (.schedule, n)) } →
          p.writes src table n record { q with mgmt.inHand := none } .ok)
    ∧ (table = 22 → record.length = 7 →
      (32 ≤ n → p.writes src table n record p .badIndex)
      ∧ (n < 32 → parseLink record = none → p.writes src table n record p .badValue)
      ∧ ∀ l : LinkConfig, n < 32 → parseLink record = some l →
          p.writes src table n record { p with
            cal.links := bankPut p.cal.links n { config := stored linkBytes l, refusals := 0 }
            cal.failed := p.cal.failed.filter (fun x => x ≠ (.links, n)) } .ok)
    ∧ (table = 23 → record.length = 2 →
      (n ≠ 0 → p.writes src table n record p .badIndex)
      ∧ (n = 0 → parseCalendarConfig record = none → p.writes src table n record p .badValue)
      ∧ ∀ (c : CalendarConfig) (q : Part), n = 0 → parseCalendarConfig record = some c →
          q = rebuild { r with cal.config := c } →
          p.writes src table n record { q with mgmt.inHand := none } .ok)

/-- R176, R177: the load cursor, for a source that manages. OPEN_CURSOR's checks in their order; accepted, it replaces
the cursor. READ_NEXT and WRITE_NEXT without a cursor, or from a node that did not open it, find none; WRITE_NEXT is
held to the write class of the open cursor's table first. READ_NEXT delivers the written parts (log entry 18) of as many
records as fit in 30 bytes, forward or backward, up to the count and the table's end, and the cursor moves over them,
closing at the count or past the end; a record that fails its check stops the reply there with CHECK_FAIL, the records
before it delivered, and the cursor stays at it (R90); what that raises is told ahead of the reply (log entries 20, 21,
48 and 50), and acts as at READ_RECORD (R114, R178), a voice that has stopped with pulses elapsed 0 (the model's choice,
log entry 56). WRITE_NEXT writes its records one at a time, here those of the step store in either direction and a last
one of the time configuration: all taken, the reply is OK; one refused, it carries that record's code and the cursor
stays there; one beyond the count or the table's end, BAD_INDEX, and the cursor closes. Its data is the number accepted,
also with a refusal (log entry 40). -/
def Obligations.CursorTransfers : Prop :=
  ∀ (p : Part) (w : List Instr) (src table i dir k : Nat) (cls : SourceClass) (record : List Byte),
    p.hears src cls = true → cls.rank ≠ 0 →
    (Table.ofCode table = none →
      exec (.openCursor src table i dir k) ⟨p, w⟩ = .next ⟨p.answered src 3 .badTable [], w⟩)
    ∧ (∀ t : Table, Table.ofCode table = some t →
        (30 < recordSize t p →
          exec (.openCursor src table i dir k) ⟨p, w⟩ = .next ⟨p.answered src 3 .badTable [], w⟩)
        ∧ (recordSize t p ≤ 30 →
          (t.holds i = false →
            exec (.openCursor src table i dir k) ⟨p, w⟩ = .next ⟨p.answered src 3 .badIndex [], w⟩)
          ∧ (t.holds i = true → (dir ≠ 1 ∧ dir ≠ 255) ∨ k = 0 →
            exec (.openCursor src table i dir k) ⟨p, w⟩ = .next ⟨p.answered src 3 .badValue [], w⟩)
          ∧ (t.holds i = true → dir = 1 ∨ dir = 255 → 0 < k →
            exec (.openCursor src table i dir k) ⟨p, w⟩
              = .next ⟨({ p with mgmt.cursor := some (Cursor.mk t (i : Int) (decide (dir = 1)) k src) }).answered
                  src 3 .ok [], w⟩)))
    ∧ (p.mgmt.cursor = none ∨ (∃ c, p.mgmt.cursor = some c ∧ c.opener ≠ src) →
        exec (.readNext src) ⟨p, w⟩ = .next ⟨p.answered src 4 .noCursor [], w⟩)
    ∧ (p.mgmt.cursor = none →
        exec (.writeNext src record) ⟨p, w⟩ = .next ⟨p.answered src 5 .noCursor [], w⟩)
    ∧ (∀ (c : Cursor) (least : SourceClass), p.mgmt.cursor = some c → c.table.writeClass = some least →
        (cls.rank < least.rank →
          exec (.writeNext src record) ⟨p, w⟩ = .next ⟨p.answered src 5 .notPermitted [], w⟩)
        ∧ (least.rank ≤ cls.rank → c.opener ≠ src →
          exec (.writeNext src record) ⟨p, w⟩ = .next ⟨p.answered src 5 .noCursor [], w⟩))
    ∧ (∀ (c : Cursor) (l : List Nat) (kept : Option Cursor), p.mgmt.cursor = some c → c.opener = src → c.covers l →
        (∀ x ∈ l, checkRecord c.table x p = (p, true) ∧ (writtenBytes c.table x p).length = recordSize c.table p) →
        l.length * recordSize c.table p ≤ 30 →
        (c.leaves l.length kept → kept = none ∨ 30 < (l.length + 1) * recordSize c.table p →
          exec (.readNext src) ⟨p, w⟩
            = .next ⟨({ p with mgmt.cursor := kept }).answered src 4 .ok (l.flatMap (fun x => writtenBytes c.table x p)),
                w⟩)
        ∧ ∀ x : Nat, l.length < c.count → c.at l.length = (x : Int) → c.table.holds x = true →
            (l.length + 1) * recordSize c.table p ≤ 30 →
            (p.hasFailed x c.table = true →
              exec (.readNext src) ⟨p, w⟩
                = .next ⟨({ p with mgmt.cursor := some (c.after l.length) }).answered src 4 .checkFail
                    (l.flatMap (fun x => writtenBytes c.table x p)), w⟩)
            ∧ (p.hasFailed x c.table = false → p.passesCheck x c.table = false →
              ∃ q : Part, exec (.readNext src) ⟨p, w⟩
                  = .next ⟨({ q with mgmt.cursor := some (c.after l.length) }).answered src 4 .checkFail
                      (l.flatMap (fun x => writtenBytes c.table x p)), w⟩
                ∧ p.foundDamaged q c.table x))
    ∧ (∀ (c : Cursor) (l : List Nat) (rs : List (List Byte)) (ss : List TuneStep) (q : Part), p.mgmt.cursor = some c →
        c.opener = src → c.table = .steps → 2 ≤ cls.rank → c.covers l → (∀ r ∈ rs, r.length = 7) →
        rs.map parseStep = ss.map some → ss.length = l.length →
        (∀ x ∈ l, ∀ f ∈ p.clock.voice.stack ++ p.tune.voice.stack, x < f.start ∨ f.start + f.length ≤ x) →
        q = { p with store.steps :=
          (l.zip ss).foldl (fun v a => bankPut v a.1 (stored stepContents a.2)) p.store.steps } →
        (∀ kept, record = rs.flatten → c.leaves l.length kept →
          exec (.writeNext src record) ⟨p, w⟩
            = .next ⟨({ q with mgmt.cursor := kept }).answered src 5 .ok (be 1 l.length), w⟩)
        ∧ ∀ r rest : List Byte, record = rs.flatten ++ r ++ rest → r.length = 7 → rest.length % 7 = 0 →
            (c.leaves l.length none →
              exec (.writeNext src record) ⟨p, w⟩
                = .next ⟨({ q with mgmt.cursor := none }).answered src 5 .badIndex (be 1 l.length), w⟩)
            ∧ ∀ x : Nat, l.length < c.count → c.at l.length = (x : Int) → c.table.holds x = true →
                (parseStep r = none →
                  exec (.writeNext src record) ⟨p, w⟩
                    = .next ⟨({ q with mgmt.cursor := some (c.after l.length) }).answered src 5 .badValue
                        (be 1 l.length), w⟩)
                ∧ (parseStep r ≠ none →
                    (∃ f ∈ p.clock.voice.stack ++ p.tune.voice.stack, f.start ≤ x ∧ x < f.start + f.length) →
                    exec (.writeNext src record) ⟨p, w⟩
                      = .next ⟨({ q with
                          mgmt.cursor := some (c.after l.length)
                          store.inUseRefusals := bump p.store.inUseRefusals }).answered src 5 .inUse
                            (be 1 l.length), w⟩))
    ∧ ∀ (c : Cursor) (at_ : Nat), p.mgmt.cursor = some c → c.opener = src → c.index = (at_ : Int) →
        c.table.holds at_ = true → c.count = 1 → recordSize c.table p ≤ 30 →
        (c.table.writeClass = none →
          exec (.writeNext src record) ⟨p, w⟩ = .next ⟨p.answered src 5 .readOnly [], w⟩)
        ∧ ∀ least, c.table.writeClass = some least → least.rank ≤ cls.rank →
            (record.length % recordSize c.table p ≠ 0 →
              exec (.writeNext src record) ⟨p, w⟩ = .next ⟨p.answered src 5 .badValue [], w⟩)
            ∧ (∀ t1 t0 w1 w0 d : Byte, c.table = .timeConfig → record = [t1, t0, w1, w0, d] →
                (parseTimeConfig record = none →
                  exec (.writeNext src record) ⟨p, w⟩ = .next ⟨p.answered src 5 .badValue [0], w⟩)
                ∧ ∀ (trim : Int) (size delay : Nat), parseTimeConfig record = some (trim, size, delay) →
                    exec (.writeNext src record) ⟨p, w⟩
                      = .next ⟨({ p with
                          mgmt.cursor := none
                          time.trim := trim, time.windowSize := size, time.delay := delay
                          time.window := if trim = p.time.trim then p.time.window else none }).answered
                            src 5 .ok [1], w⟩)

/-- R179, R182: ACK_FAULT from a source that may ask it, its leave operand 1 for set and 0 for clear; another value is
BAD_VALUE after the class (log entry 19). With the record CLEAR it is refused unless it asks a SAFE part to leave; else
the record is CLEAR, and a SAFE part asked to leave is RUNNING, with SAFE_LEFT sent and the bells examined for
re-engagement in bell-number order, their settings in SAFETY (R48, R51). RESET_PART from a SERVICE source puts its own
reply in UP in every part state, and every request after it is dropped until that reply has gone, each raising the busy
drop count, which is the model's choice (log entry 88). -/
def Obligations.AcknowledgeAndReset : Prop :=
  ∀ (p : Part) (w : List Instr) (src : Nat) (leave : Nat) (cls : SourceClass), p.hears src cls = true →
    ((cls = .operator ∨ cls = .service) → (leave = 1 → cls = .service) →
      (1 < leave → exec (.ackFault src leave) ⟨p, w⟩ = .next ⟨p.answered src 40 .badValue [], w⟩)
      ∧ (leave ≤ 1 → p.mgmt.faults = none → (p.mgmt.partState = .running ∨ leave = 0) →
        exec (.ackFault src leave) ⟨p, w⟩ = .next ⟨p.answered src 40 .wrongState [], w⟩)
      ∧ (leave ≤ 1 → p.mgmt.faults ≠ none → (p.mgmt.partState = .running ∨ leave = 0) →
        exec (.ackFault src leave) ⟨p, w⟩
          = .next ⟨({ p with mgmt.faults := none }).answered src 40 .ok [], w⟩)
      ∧ (p.mgmt.partState = .safe → leave = 1 →
        ∃ q : Part, exec (.ackFault src leave) ⟨p, w⟩ = .next ⟨q, w⟩
          ∧ q.gave (replyTo p.mgmt.address src 40 .ok [])
          ∧ q.mgmt.faults = none ∧ q.mgmt.partState = .running ∧ q.mgmt.tally = p.mgmt.tally
          ∧ (p.line.upQ.length < 14 → (p.line.upQ ++ [p.noticeOf .safeLeft p.towerTime []]) <+: q.line.upQ)
          ∧ (∀ b, 1 ≤ b → b ≤ 16 → (p.bell b).config.hammerNode ≠ none → (p.bell b).hammer = .withdrawn →
              (p.bell b).wanted = none →
              (p.bell b).config.cls = .fixed ∨ ((p.bell b).claims.ringers = false ∧ (p.bell b).settled = true) →
              (q.bell b).hammer = .engaging)
          ∧ q.line.safetyQ = p.safetyAfter (p.engagedOf ((List.range' 1 16).filter (fun b =>
              (p.bell b).config.cls = .fixed || (p.bell b).claims.ringers = false)))
          ∧ p.sameBut q [.bellGuard, .session, .events, .safety, .up, .faults, .requests]))
    ∧ (cls = .service →
        ∃ q : Part, exec (.resetPart src) ⟨p, w⟩ = .next ⟨q, w⟩
          ∧ q = { p with
              line.upQ := p.line.upQ ++ [.resetReply (Frame.mk src p.mgmt.address 71 [41, 0])]
              mgmt.resetting := true }
          ∧ ∀ c : Instr, isRequest c = true →
              exec c ⟨q, w⟩ = .next ⟨{ q with line.busyDrops := bump q.line.busyDrops }, w⟩)

end Statements
end

