-- ==== Sys2Proof/Laws/State.lean ====
section
/-! SUPPORT. What each update of the state leaves alone, one lemma a field, and what a record reads back as after
it has been put: the lemmas that spare later proofs the unfolding of a record update. -/

namespace Sys2Proof.Machine

/-! ## The blocks that an update of a record leaves alone -/

section putDial

variable (p : Part) (d : Nat) (x : Dial)

@[simp] theorem putDial_osc : (p.putDial d x).osc = p.osc := rfl
@[simp] theorem putDial_time : (p.putDial d x).time = p.time := rfl
@[simp] theorem putDial_bellGuard : (p.putDial d x).bellGuard = p.bellGuard := rfl
@[simp] theorem putDial_session : (p.putDial d x).session = p.session := rfl
@[simp] theorem putDial_store : (p.putDial d x).store = p.store := rfl
@[simp] theorem putDial_clock : (p.putDial d x).clock = p.clock := rfl
@[simp] theorem putDial_tune : (p.putDial d x).tune = p.tune := rfl
@[simp] theorem putDial_lamps : (p.putDial d x).lamps = p.lamps := rfl
@[simp] theorem putDial_budget : (p.putDial d x).budget = p.budget := rfl
@[simp] theorem putDial_cal : (p.putDial d x).cal = p.cal := rfl
@[simp] theorem putDial_line : (p.putDial d x).line = p.line := rfl
@[simp] theorem putDial_mgmt : (p.putDial d x).mgmt = p.mgmt := rfl
@[simp] theorem putDial_retention : (p.putDial d x).retention = p.retention := rfl

end putDial

section putBell

variable (p : Part) (b : Nat) (x : Bell)

@[simp] theorem putBell_osc : (p.putBell b x).osc = p.osc := rfl
@[simp] theorem putBell_time : (p.putBell b x).time = p.time := rfl
@[simp] theorem putBell_dialDriver : (p.putBell b x).dialDriver = p.dialDriver := rfl
@[simp] theorem putBell_session : (p.putBell b x).session = p.session := rfl
@[simp] theorem putBell_store : (p.putBell b x).store = p.store := rfl
@[simp] theorem putBell_clock : (p.putBell b x).clock = p.clock := rfl
@[simp] theorem putBell_tune : (p.putBell b x).tune = p.tune := rfl
@[simp] theorem putBell_lamps : (p.putBell b x).lamps = p.lamps := rfl
@[simp] theorem putBell_budget : (p.putBell b x).budget = p.budget := rfl
@[simp] theorem putBell_cal : (p.putBell b x).cal = p.cal := rfl
@[simp] theorem putBell_line : (p.putBell b x).line = p.line := rfl
@[simp] theorem putBell_mgmt : (p.putBell b x).mgmt = p.mgmt := rfl
@[simp] theorem putBell_retention : (p.putBell b x).retention = p.retention := rfl

end putBell

section putGroup

variable (p : Part) (g : Nat) (x : LampGroup)

@[simp] theorem putGroup_osc : (p.putGroup g x).osc = p.osc := rfl
@[simp] theorem putGroup_time : (p.putGroup g x).time = p.time := rfl
@[simp] theorem putGroup_dialDriver : (p.putGroup g x).dialDriver = p.dialDriver := rfl
@[simp] theorem putGroup_bellGuard : (p.putGroup g x).bellGuard = p.bellGuard := rfl
@[simp] theorem putGroup_session : (p.putGroup g x).session = p.session := rfl
@[simp] theorem putGroup_store : (p.putGroup g x).store = p.store := rfl
@[simp] theorem putGroup_clock : (p.putGroup g x).clock = p.clock := rfl
@[simp] theorem putGroup_tune : (p.putGroup g x).tune = p.tune := rfl
@[simp] theorem putGroup_budget : (p.putGroup g x).budget = p.budget := rfl
@[simp] theorem putGroup_cal : (p.putGroup g x).cal = p.cal := rfl
@[simp] theorem putGroup_line : (p.putGroup g x).line = p.line := rfl
@[simp] theorem putGroup_mgmt : (p.putGroup g x).mgmt = p.mgmt := rfl
@[simp] theorem putGroup_retention : (p.putGroup g x).retention = p.retention := rfl

end putGroup

section putVoice

variable (p : Part) (v : VoiceId) (x : Voice)

@[simp] theorem putVoice_osc : (p.putVoice v x).osc = p.osc := by cases v <;> rfl
@[simp] theorem putVoice_time : (p.putVoice v x).time = p.time := by cases v <;> rfl
@[simp] theorem putVoice_dialDriver : (p.putVoice v x).dialDriver = p.dialDriver := by cases v <;> rfl
@[simp] theorem putVoice_bellGuard : (p.putVoice v x).bellGuard = p.bellGuard := by cases v <;> rfl
@[simp] theorem putVoice_session : (p.putVoice v x).session = p.session := by cases v <;> rfl
@[simp] theorem putVoice_store : (p.putVoice v x).store = p.store := by cases v <;> rfl
@[simp] theorem putVoice_lamps : (p.putVoice v x).lamps = p.lamps := by cases v <;> rfl
@[simp] theorem putVoice_budget : (p.putVoice v x).budget = p.budget := by cases v <;> rfl
@[simp] theorem putVoice_cal : (p.putVoice v x).cal = p.cal := by cases v <;> rfl
@[simp] theorem putVoice_line : (p.putVoice v x).line = p.line := by cases v <;> rfl
@[simp] theorem putVoice_mgmt : (p.putVoice v x).mgmt = p.mgmt := by cases v <;> rfl
@[simp] theorem putVoice_retention : (p.putVoice v x).retention = p.retention := by cases v <;> rfl

end putVoice

section putPort

variable (p : Part) (t : Port) (c : PortCounts)

@[simp] theorem putPort_osc : (p.putPort t c).osc = p.osc := by cases t <;> rfl
@[simp] theorem putPort_time : (p.putPort t c).time = p.time := by cases t <;> rfl
@[simp] theorem putPort_dialDriver : (p.putPort t c).dialDriver = p.dialDriver := by cases t <;> rfl
@[simp] theorem putPort_bellGuard : (p.putPort t c).bellGuard = p.bellGuard := by cases t <;> rfl
@[simp] theorem putPort_session : (p.putPort t c).session = p.session := by cases t <;> rfl
@[simp] theorem putPort_store : (p.putPort t c).store = p.store := by cases t <;> rfl
@[simp] theorem putPort_clock : (p.putPort t c).clock = p.clock := by cases t <;> rfl
@[simp] theorem putPort_tune : (p.putPort t c).tune = p.tune := by cases t <;> rfl
@[simp] theorem putPort_lamps : (p.putPort t c).lamps = p.lamps := by cases t <;> rfl
@[simp] theorem putPort_budget : (p.putPort t c).budget = p.budget := by cases t <;> rfl
@[simp] theorem putPort_cal : (p.putPort t c).cal = p.cal := by cases t <;> rfl
@[simp] theorem putPort_mgmt : (p.putPort t c).mgmt = p.mgmt := by cases t <;> rfl
@[simp] theorem putPort_retention : (p.putPort t c).retention = p.retention := by cases t <;> rfl

end putPort

section putEntry

variable (p : Part) (n : Nat) (e : ScheduleEntry)

@[simp] theorem putEntry_osc : (p.putEntry n e).osc = p.osc := rfl
@[simp] theorem putEntry_time : (p.putEntry n e).time = p.time := rfl
@[simp] theorem putEntry_dialDriver : (p.putEntry n e).dialDriver = p.dialDriver := rfl
@[simp] theorem putEntry_bellGuard : (p.putEntry n e).bellGuard = p.bellGuard := rfl
@[simp] theorem putEntry_session : (p.putEntry n e).session = p.session := rfl
@[simp] theorem putEntry_store : (p.putEntry n e).store = p.store := rfl
@[simp] theorem putEntry_clock : (p.putEntry n e).clock = p.clock := rfl
@[simp] theorem putEntry_tune : (p.putEntry n e).tune = p.tune := rfl
@[simp] theorem putEntry_lamps : (p.putEntry n e).lamps = p.lamps := rfl
@[simp] theorem putEntry_budget : (p.putEntry n e).budget = p.budget := rfl
@[simp] theorem putEntry_line : (p.putEntry n e).line = p.line := rfl
@[simp] theorem putEntry_mgmt : (p.putEntry n e).mgmt = p.mgmt := rfl
@[simp] theorem putEntry_retention : (p.putEntry n e).retention = p.retention := rfl

end putEntry

section putLink

variable (p : Part) (n : Nat) (l : CueLink)

@[simp] theorem putLink_osc : (p.putLink n l).osc = p.osc := rfl
@[simp] theorem putLink_time : (p.putLink n l).time = p.time := rfl
@[simp] theorem putLink_dialDriver : (p.putLink n l).dialDriver = p.dialDriver := rfl
@[simp] theorem putLink_bellGuard : (p.putLink n l).bellGuard = p.bellGuard := rfl
@[simp] theorem putLink_session : (p.putLink n l).session = p.session := rfl
@[simp] theorem putLink_store : (p.putLink n l).store = p.store := rfl
@[simp] theorem putLink_clock : (p.putLink n l).clock = p.clock := rfl
@[simp] theorem putLink_tune : (p.putLink n l).tune = p.tune := rfl
@[simp] theorem putLink_lamps : (p.putLink n l).lamps = p.lamps := rfl
@[simp] theorem putLink_budget : (p.putLink n l).budget = p.budget := rfl
@[simp] theorem putLink_line : (p.putLink n l).line = p.line := rfl
@[simp] theorem putLink_mgmt : (p.putLink n l).mgmt = p.mgmt := rfl
@[simp] theorem putLink_retention : (p.putLink n l).retention = p.retention := rfl

end putLink

/-! ## Banks -/

theorem bankGet_bankPut_self {α : Type} {n : Nat} (v : Vector α n) (i : Nat) (x d : α) (h : i < n) :
    bankGet (bankPut v i x) i d = x := by
  simp [bankGet, bankPut, Vector.toList_setIfInBounds, h]

theorem bankGet_bankPut_ne {α : Type} {n : Nat} (v : Vector α n) (i j : Nat) (x d : α) (h : j ≠ i) :
    bankGet (bankPut v i x) j d = bankGet v j d := by
  simp [bankGet, bankPut, Vector.toList_setIfInBounds, List.getElem?_set_ne (Ne.symm h)]

theorem bankGet1_bankPut1_self {α : Type} {n : Nat} (v : Vector α n) (i : Nat) (x d : α) (h : 1 ≤ i ∧ i ≤ n) :
    bankGet1 (bankPut1 v i x) i d = x := by
  have h0 : i ≠ 0 := by omega
  have h1 : i - 1 < n := by omega
  simp [bankGet1, bankPut1, h0, bankGet_bankPut_self _ _ _ _ h1]

theorem bankGet1_bankPut1_ne {α : Type} {n : Nat} (v : Vector α n) (i j : Nat) (x d : α) (h : j ≠ i) :
    bankGet1 (bankPut1 v i x) j d = bankGet1 v j d := by
  by_cases hj : j = 0
  · simp [bankGet1, hj]
  · by_cases hi : i = 0
    · simp [bankPut1, hi]
    · have h1 : j - 1 ≠ i - 1 := by omega
      simp [bankGet1, bankPut1, hj, hi, bankGet_bankPut_ne _ _ _ _ _ h1]

/-- A record whose number lies outside its bank reads as the default and is not written. -/
theorem bankGet1_outside {α : Type} {n : Nat} (v : Vector α n) (i : Nat) (d : α) (h : ¬ (1 ≤ i ∧ i ≤ n)) :
    bankGet1 v i d = d := by
  by_cases hi : i = 0
  · simp [bankGet1, hi]
  · have : n ≤ i - 1 := by omega
    simp [bankGet1, bankGet, hi, this]

theorem bankPut1_outside {α : Type} {n : Nat} (v : Vector α n) (i : Nat) (x : α) (h : ¬ (1 ≤ i ∧ i ≤ n)) :
    bankPut1 v i x = v := by
  by_cases hi : i = 0
  · simp [bankPut1, hi]
  · have : n ≤ i - 1 := by omega
    simp [bankPut1, bankPut, hi, Vector.setIfInBounds_eq_of_size_le this]

/-! ## A record after it has been put -/

@[simp] theorem dial_putDial_self (p : Part) (d : Nat) (x : Dial) (h : 1 ≤ d ∧ d ≤ 4) : (p.putDial d x).dial d = x :=
  bankGet1_bankPut1_self _ _ _ _ h

@[simp] theorem dial_putDial_ne (p : Part) (d e : Nat) (x : Dial) (h : e ≠ d) : (p.putDial d x).dial e = p.dial e :=
  bankGet1_bankPut1_ne _ _ _ _ _ h

@[simp] theorem bell_putBell_self (p : Part) (b : Nat) (x : Bell) (h : 1 ≤ b ∧ b ≤ 16) : (p.putBell b x).bell b = x :=
  bankGet1_bankPut1_self _ _ _ _ h

@[simp] theorem bell_putBell_ne (p : Part) (b c : Nat) (x : Bell) (h : c ≠ b) : (p.putBell b x).bell c = p.bell c :=
  bankGet1_bankPut1_ne _ _ _ _ _ h

@[simp] theorem group_putGroup_self (p : Part) (g : Nat) (x : LampGroup) (h : 1 ≤ g ∧ g ≤ 12) :
    (p.putGroup g x).group g = x :=
  bankGet1_bankPut1_self _ _ _ _ h

@[simp] theorem group_putGroup_ne (p : Part) (g k : Nat) (x : LampGroup) (h : k ≠ g) :
    (p.putGroup g x).group k = p.group k :=
  bankGet1_bankPut1_ne _ _ _ _ _ h

@[simp] theorem voice_putVoice_self (p : Part) (v : VoiceId) (x : Voice) : (p.putVoice v x).voice v = x := by
  cases v <;> rfl

@[simp] theorem voice_putVoice_ne (p : Part) (v w : VoiceId) (x : Voice) (h : w ≠ v) :
    (p.putVoice v x).voice w = p.voice w := by
  cases v <;> cases w <;> first | rfl | exact absurd rfl h

@[simp] theorem entry_putEntry_self (p : Part) (n : Nat) (e : ScheduleEntry) (h : n < 128) :
    (p.putEntry n e).entry n = e :=
  bankGet_bankPut_self _ _ _ _ h

@[simp] theorem entry_putEntry_ne (p : Part) (n k : Nat) (e : ScheduleEntry) (h : k ≠ n) :
    (p.putEntry n e).entry k = p.entry k :=
  bankGet_bankPut_ne _ _ _ _ _ h

@[simp] theorem link_putLink_self (p : Part) (n : Nat) (l : CueLink) (h : n < 32) : (p.putLink n l).link n = l :=
  bankGet_bankPut_self _ _ _ _ h

@[simp] theorem link_putLink_ne (p : Part) (n k : Nat) (l : CueLink) (h : k ≠ n) :
    (p.putLink n l).link k = p.link k :=
  bankGet_bankPut_ne _ _ _ _ _ h

/-! ## Records read from the blocks that hold them -/

@[simp] theorem dial_putBell (p : Part) (b : Nat) (x : Bell) (k : Nat) : (p.putBell b x).dial k = p.dial k := rfl
@[simp] theorem dial_putGroup (p : Part) (b : Nat) (x : LampGroup) (k : Nat) : (p.putGroup b x).dial k = p.dial k := rfl
@[simp] theorem dial_putVoice (p : Part) (v : VoiceId) (x : Voice) (k : Nat) : (p.putVoice v x).dial k = p.dial k := by cases v <;> rfl
@[simp] theorem bell_putDial (p : Part) (b : Nat) (x : Dial) (k : Nat) : (p.putDial b x).bell k = p.bell k := rfl
@[simp] theorem bell_putGroup (p : Part) (b : Nat) (x : LampGroup) (k : Nat) : (p.putGroup b x).bell k = p.bell k := rfl
@[simp] theorem bell_putVoice (p : Part) (v : VoiceId) (x : Voice) (k : Nat) : (p.putVoice v x).bell k = p.bell k := by cases v <;> rfl
@[simp] theorem group_putDial (p : Part) (b : Nat) (x : Dial) (k : Nat) : (p.putDial b x).group k = p.group k := rfl
@[simp] theorem group_putBell (p : Part) (b : Nat) (x : Bell) (k : Nat) : (p.putBell b x).group k = p.group k := rfl
@[simp] theorem group_putVoice (p : Part) (v : VoiceId) (x : Voice) (k : Nat) : (p.putVoice v x).group k = p.group k := by cases v <;> rfl
@[simp] theorem voice_putDial (p : Part) (b : Nat) (x : Dial) (v : VoiceId) : (p.putDial b x).voice v = p.voice v := by cases v <;> rfl
@[simp] theorem voice_putBell (p : Part) (b : Nat) (x : Bell) (v : VoiceId) : (p.putBell b x).voice v = p.voice v := by cases v <;> rfl
@[simp] theorem voice_putGroup (p : Part) (b : Nat) (x : LampGroup) (v : VoiceId) : (p.putGroup b x).voice v = p.voice v := by cases v <;> rfl

/-- The records follow from the blocks that hold them. -/
theorem bell_congr {p q : Part} (h : q.bellGuard = p.bellGuard) (b : Nat) : q.bell b = p.bell b := by
  simp only [Part.bell, h]

theorem dial_congr {p q : Part} (h : q.dialDriver = p.dialDriver) (d : Nat) : q.dial d = p.dial d := by
  simp only [Part.dial, h]

theorem group_congr {p q : Part} (h : q.lamps = p.lamps) (g : Nat) : q.group g = p.group g := by
  simp only [Part.group, h]

/-! ## Commands and the queue -/

/-- A command whose meaning is an `act` answers a next state and leaves the queue as it stands. -/
@[simp] theorem act_eq (f : Part → Part) (s : State) : act f s = .next { s with part := f s.part } := rfl

@[simp] theorem powered_on (f : Part → Part) (p : Part) (h : p.retention.supply = true) : powered f p = f p := by
  simp [powered, h]

@[simp] theorem powered_off (f : Part → Part) (p : Part) (h : p.retention.supply = false) : powered f p = p := by
  simp [powered, h]

end Sys2Proof.Machine
end

