-- ==== Sys2Proof/Laws/Calm.lean ====
section
/-! SUPPORT. What the shared operations of the blocks leave alone. `Drift p q` says that the part `q`, come from
`p`, has the same oscillator, the same supply, the same last takes and the same frames in flight, keeps its queues
within R164, and lists no lamp group with a charge of 0 if `p` lists none; `Calm p q` adds that the Time Scale is
untouched. One lemma for each operation says that the operation is calm; they are simp lemmas, so a composite operation
is proved calm by unfolding it once. -/

namespace Sys2Proof.Machine

/-- A frame in flight, less the lamp group whose record its completion alters (R118). -/
def FieldFlight.bare : FieldFlight → FieldFlight
  | .lampLevel _ l f => .lampLevel none l f
  | x => x

/-- R135: no lamp group stands in a charge list with an amount of 0. -/
def litCharges (l : List Charge) : Prop := ∀ c ∈ l, ∀ g, c.holder = .group g → 0 < c.amount

/-- What an operation that is no take, no completion, no tick and no reset leaves alone, the Time Scale apart. -/
structure Drift (p q : Part) : Prop where
  osc : q.osc = p.osc
  retention : q.retention = p.retention
  takes : ∀ b, (q.bell b).lastTake = (p.bell b).lastTake
  field : q.line.fieldFlight.map FieldFlight.bare = p.line.fieldFlight.map FieldFlight.bare
  console : q.line.consoleFlight = p.line.consoleFlight
  fits : p.line.fits → q.line.fits
  lit : litCharges p.budget.charges → litCharges q.budget.charges

/-- A `Drift` that leaves the Time Scale alone too. -/
structure Calm (p q : Part) : Prop extends Drift p q where
  time : q.time = p.time

variable {p q r : Part}

theorem Drift.refl (p : Part) : Drift p p := ⟨rfl, rfl, fun _ => rfl, rfl, rfl, id, id⟩

theorem Drift.trans (h : Drift p q) (k : Drift q r) : Drift p r :=
  ⟨k.osc.trans h.osc, k.retention.trans h.retention, fun b => (k.takes b).trans (h.takes b), k.field.trans h.field,
    k.console.trans h.console, k.fits ∘ h.fits, k.lit ∘ h.lit⟩

@[simp] theorem Calm.refl (p : Part) : Calm p p := ⟨Drift.refl p, rfl⟩

theorem Calm.trans (h : Calm p q) (k : Calm q r) : Calm p r := ⟨h.toDrift.trans k.toDrift, k.time.trans h.time⟩

theorem fits_of_queues {l m : LineSwitch} (h1 : m.safetyQ = l.safetyQ) (h2 : m.localQ = l.localQ)
    (h3 : m.passQ = l.passQ) (h4 : m.upQ = l.upQ) (h : l.fits) : m.fits := by
  simpa only [LineSwitch.fits, h1, h2, h3, h4] using h

theorem litCharges_filter {l : List Charge} {f : Charge → Bool} (h : litCharges l) : litCharges (l.filter f) :=
  fun c hc => h c (List.mem_filter.mp hc).1

/-- An update that touches neither the bells nor the line's queues and flights, and keeps the listed groups lit, is calm. -/
@[simp] theorem calm_mk {dd : DialDriver} {bg : BellGuard} {se : Session} {st : TuneStore} {cl : ClockVoice}
    {tu : TuneVoice} {la : LampController} {bu : FeedBudget} {ca : Calendar} {l : LineSwitch} {mg : Management}
    (h : Calm p q) (hb : bg.bells = q.bellGuard.bells) (h1 : l.safetyQ = q.line.safetyQ)
    (h2 : l.localQ = q.line.localQ) (h3 : l.passQ = q.line.passQ) (h4 : l.upQ = q.line.upQ)
    (h5 : l.fieldFlight = q.line.fieldFlight) (h6 : l.consoleFlight = q.line.consoleFlight)
    (h7 : litCharges q.budget.charges → litCharges bu.charges) :
    Calm p { osc := q.osc, time := q.time, dialDriver := dd, bellGuard := bg, session := se, store := st, clock := cl,
             tune := tu, lamps := la, budget := bu, cal := ca, line := l, mgmt := mg, retention := q.retention } := by
  refine ⟨⟨h.osc, h.retention, fun b => ?_, ?_, ?_, fun hp => ?_, h7 ∘ h.lit⟩, h.time⟩
  · simpa [Part.bell, hb] using h.takes b
  · simpa [h5] using h.field
  · simpa [h6] using h.console
  · exact fits_of_queues h1 h2 h3 h4 (h.fits hp)

@[simp] theorem calm_putDial {d : Nat} {x : Dial} (h : Calm p q) : Calm p (q.putDial d x) := by
  simp [Part.putDial, h]

@[simp] theorem calm_putGroup {g : Nat} {x : LampGroup} (h : Calm p q) : Calm p (q.putGroup g x) := by
  simp [Part.putGroup, h]

@[simp] theorem calm_putVoice {v : VoiceId} {x : Voice} (h : Calm p q) : Calm p (q.putVoice v x) := by
  cases v <;> simp [Part.putVoice, h]

@[simp] theorem calm_putEntry {n : Nat} {e : ScheduleEntry} (h : Calm p q) : Calm p (q.putEntry n e) := by
  simp [Part.putEntry, h]

@[simp] theorem calm_putLink {n : Nat} {l : CueLink} (h : Calm p q) : Calm p (q.putLink n l) := by
  simp [Part.putLink, h]

@[simp] theorem calm_putPort {t : Port} {c : PortCounts} (h : Calm p q) : Calm p (q.putPort t c) := by
  cases t <;> simp [Part.putPort, h]

@[simp] theorem calm_putBell {b : Nat} {x : Bell} (h : Calm p q) (hx : x.lastTake = (q.bell b).lastTake) :
    Calm p (q.putBell b x) := by
  refine ⟨⟨h.osc, h.retention, fun c => ?_, h.field, h.console, h.fits, h.lit⟩, h.time⟩
  rw [← h.takes c]
  by_cases hb : 1 ≤ b ∧ b ≤ 16
  · by_cases hc : c = b
    · subst hc; simp [hb, hx]
    · simp [hc]
  · simp [Part.bell, Part.putBell, bankPut1_outside _ _ _ hb]

/-! ## The queues -/

theorem calm_upQ {u : List UpItem} (h : Calm p q) (hu : u.length ≤ 16) : Calm p { q with line.upQ := u } :=
  ⟨⟨h.osc, h.retention, h.takes, h.field, h.console,
    fun hp => let ⟨a, b, c, d, e, _⟩ := h.fits hp; ⟨a, b, c, d, e, hu⟩, h.lit⟩, h.time⟩

theorem calm_passQ {u : List PassItem} (h : Calm p q) (hu : u.length ≤ 16) : Calm p { q with line.passQ := u } :=
  ⟨⟨h.osc, h.retention, h.takes, h.field, h.console,
    fun hp => let ⟨a, b, c, d, _, f⟩ := h.fits hp; ⟨a, b, c, d, hu, f⟩, h.lit⟩, h.time⟩

theorem calm_localQ {u : List LocalItem} (h : Calm p q)
    (hu : q.line.fits → u.length ≤ 24 ∧ (u.filterMap LocalItem.channel).Nodup) :
    Calm p { q with line.localQ := u } :=
  ⟨⟨h.osc, h.retention, h.takes, h.field, h.console,
    fun hp => let ⟨a, b, _, _, e, f⟩ := h.fits hp; let k := hu (h.fits hp); ⟨a, b, k.1, k.2, e, f⟩, h.lit⟩, h.time⟩

theorem calm_safetyQ {u : List Setting} (h : Calm p q)
    (hu : q.line.fits → u.length ≤ 8 ∧ (u.map Setting.bell).Nodup) : Calm p { q with line.safetyQ := u } :=
  ⟨⟨h.osc, h.retention, h.takes, h.field, h.console,
    fun hp => let ⟨_, _, c, d, e, f⟩ := h.fits hp; let k := hu (h.fits hp); ⟨k.1, k.2, c, d, e, f⟩, h.lit⟩, h.time⟩

/-- A frame that is no LAMP_LEVEL enters LOCAL at a free place. -/
theorem calm_localQ_push {i : LocalItem} (h : Calm p q) (hn : q.line.localQ.length < 24) (hi : i.channel = none) :
    Calm p { q with line.localQ := q.line.localQ ++ [i] } := by
  refine calm_localQ h fun k => ⟨by simp; omega, ?_⟩
  simp only [List.filterMap_append, List.filterMap_cons, hi, List.filterMap_nil, List.append_nil]
  exact k.2.2.2.1

/-- The frames of LOCAL are altered without a change of channel. -/
theorem calm_localQ_map {f : LocalItem → LocalItem} (h : Calm p q) (hf : ∀ i, (f i).channel = i.channel) :
    Calm p { q with line.localQ := q.line.localQ.map f } := by
  refine calm_localQ h fun k => ⟨by simpa using k.2.2.1, ?_⟩
  have : LocalItem.channel ∘ f = LocalItem.channel := funext hf
  rw [List.filterMap_map, this]
  exact k.2.2.2.1

end Sys2Proof.Machine
end

