-- ==== Sys2Proof/Laws/CalmOps.lean ====
section
/-! SUPPORT. Every shared operation of the blocks is calm (Laws/Calm.lean): it alters neither the oscillator, the
supply, the last takes, the frames in flight nor the Time Scale, and it keeps the queues within R164. -/

namespace Sys2Proof.Machine

variable {p q : Part}

@[simp] theorem calm_ite {c : Prop} [Decidable c] {a b : Part} (ha : Calm p a) (hb : Calm p b) :
    Calm p (if c then a else b) := by
  split <;> assumption

/-- A fold of calm steps is calm. -/
theorem calm_foldl {α : Type} {f : Part → α → Part} (hf : ∀ q a, Calm q (f q a)) (l : List α) (h : Calm p q) :
    Calm p (l.foldl f q) := by
  induction l generalizing q with
  | nil => exact h
  | cons a l ih => exact ih (h.trans (hf q a))

/-! ## UP, notices and cue events -/

@[simp] theorem calm_offerReport {f : Frame} (h : Calm p q) : Calm p (offerReport f q) := by
  unfold offerReport
  split
  · rename_i hl
    exact calm_upQ h (by simp [Config.upOpenPlaces] at hl ⊢; omega)
  · simp [h]

@[simp] theorem calm_offerNotice {f : Frame} (h : Calm p q) : Calm p (offerNotice f q) := by
  unfold offerNotice
  split
  · rename_i hl
    exact calm_upQ h (by simp [Config.upOpenPlaces] at hl ⊢; omega)
  · simp [h]

@[simp] theorem calm_sendNotice {k : NoticeKind} {d : List Byte} (h : Calm p q) : Calm p (sendNotice k d q) := by
  unfold sendNotice
  (try dsimp only)
  (repeat' split) <;> simp (maxDischargeDepth := 40) [*]

@[simp] theorem calm_noticeFault {k : FaultKind} {d : List Byte} (h : Calm p q) : Calm p (noticeFault k d q) := by
  unfold noticeFault
  (try dsimp only)
  (repeat' split) <;> simp (maxDischargeDepth := 40) [*]

@[simp] theorem calm_raiseMinor {k : FaultKind} {d : List Byte} (h : Calm p q) : Calm p (raiseMinor k d q) := by
  unfold raiseMinor
  (try dsimp only)
  (repeat' split) <;> simp (maxDischargeDepth := 40) [*]

@[simp] theorem calm_emitCue {e : CueEvent} (h : Calm p q) : Calm p (emitCue e q) := by
  unfold emitCue
  (try dsimp only)
  (repeat' split) <;> simp (maxDischargeDepth := 40) [*]

@[simp] theorem calm_takeCopy {i : Instr} (h : Calm p q) : Calm p (takeCopy i q) := by
  unfold takeCopy
  (try dsimp only)
  (repeat' split) <;> simp (maxDischargeDepth := 40) [*]

/-! ## Lamps and the Feed Budget -/

@[simp] theorem calm_offerLevel {g : Nat} (h : Calm p q) : Calm p (offerLevel g q) := by
  unfold offerLevel
  dsimp only
  split
  · exact h
  · split
    · simp [h]
    · split
      · refine calm_putGroup (calm_localQ_map h fun i => ?_)
        split
        · rename_i hi
          cases i <;> simp_all [LocalItem.onChannel, LocalItem.channel, lampFrame]
        · rfl
      · split
        · rename_i hany hl
          refine calm_putGroup (calm_localQ h fun k => ⟨by simp [Config.localPlaces] at hl ⊢; omega, ?_⟩)
          simp only [List.filterMap_append, List.filterMap_cons, List.filterMap_nil, LocalItem.channel]
          rw [List.nodup_append]
          refine ⟨k.2.2.2.1, by simp, ?_⟩
          intro a ha b hb hab
          subst hab
          simp only [List.mem_singleton] at hb
          subst hb
          obtain ⟨i, hi, hc⟩ := List.mem_filterMap.mp ha
          apply hany
          rw [List.any_eq_true]
          refine ⟨i, hi, ?_⟩
          cases i <;> simp_all [LocalItem.onChannel, LocalItem.channel, lampFrame]
        · simp [h]

@[simp] theorem calm_addCharge {ho : Holder} {a : Nat} (h : Calm p q) (hg : ∀ g, ho = .group g → 0 < a) :
    Calm p (addCharge ho a q) := by
  unfold addCharge
  refine calm_mk h rfl rfl rfl rfl rfl rfl rfl fun k c hc g e => ?_
  rcases List.mem_append.mp hc with hc | hc
  · exact k c hc g e
  · obtain rfl := List.mem_singleton.mp hc
    exact hg g e

/-- R135: a group's entry leaves the list at 0, and stands in it with an amount above 0. -/
@[simp] theorem calm_setGroupCharge {g a : Nat} (h : Calm p q) : Calm p (setGroupCharge g a q) := by
  unfold setGroupCharge
  split
  · exact calm_mk h rfl rfl rfl rfl rfl rfl rfl litCharges_filter
  · rename_i ha
    split
    · refine calm_mk h rfl rfl rfl rfl rfl rfl rfl fun k c hc i e => ?_
      obtain ⟨x, hx, rfl⟩ := List.mem_map.mp hc
      by_cases m : x.ofGroup g = true
      · simpa only [m, if_true] using Nat.pos_of_ne_zero ha
      · simp only [m] at e ⊢
        exact k x hx i e
    · exact calm_addCharge h fun _ _ => Nat.pos_of_ne_zero ha

@[simp] theorem calm_lowerGroup {g l : Nat} (h : Calm p q) : Calm p (lowerGroup g l q) := by
  unfold lowerGroup
  (try dsimp only)
  (repeat' split) <;> simp (maxDischargeDepth := 40) [*]

@[simp] theorem calm_reclaimWalk {l : List Nat} {x : Nat} (h : Calm p q) : Calm p (reclaimWalk l x q) := by
  induction l generalizing q x with
  | nil => exact h
  | cons g l ih =>
    unfold reclaimWalk
    dsimp only
    (repeat' split) <;> simp [*]

@[simp] theorem calm_reclaim {x : Nat} (h : Calm p q) : Calm p (reclaim x q) := by
  unfold reclaim
  (try dsimp only)
  (repeat' split) <;> simp (maxDischargeDepth := 40) [*]

theorem calm_tryGrant {ho : Holder} {a : Nat} {r : Part × Bool} (h : Calm p q) (hr : tryGrant ho a q = some r)
    (hg : ∀ g, ho ≠ .group g) : Calm p r.1 := by
  unfold tryGrant at hr
  split at hr <;> simp at hr <;> subst hr <;> simp [h, hg]

@[simp] theorem calm_offerStep {d : Nat} (h : Calm p q) : Calm p (offerStep d q) := by
  unfold offerStep
  dsimp only
  split
  · exact h
  · split
    · rename_i hl
      exact calm_putDial (calm_localQ_push h (by simpa [Config.localPlaces] using hl) rfl)
    · simp [h]

@[simp] theorem calm_stopWaiting {d : Nat} (h : Calm p q) : Calm p (stopWaiting d q) := by
  unfold stopWaiting
  (try dsimp only)
  (repeat' split) <;> simp (maxDischargeDepth := 40) [*]

@[simp] theorem calm_dialGranted {d : Nat} (h : Calm p q) : Calm p (dialGranted d q) := by
  unfold dialGranted
  (try dsimp only)
  (repeat' split) <;> simp (maxDischargeDepth := 40) [*]

theorem calm_reofferOne {acc : Part × Bool} {d : Nat} (h : Calm p acc.1) : Calm p (reofferOne acc d).1 := by
  unfold reofferOne
  dsimp only
  split
  · rename_i hg
    have := calm_tryGrant h hg
    simp at this
    simp (maxDischargeDepth := 40) [*]
  · simp [h]

theorem calm_reofferOnes {l : List Nat} {acc : Part × Bool} (h : Calm p acc.1) : Calm p (l.foldl reofferOne acc).1 := by
  induction l generalizing acc with
  | nil => exact h
  | cons d l ih => exact ih (calm_reofferOne h)

@[simp] theorem calm_reoffer {k : Nat} (h : Calm p q) : Calm p (reoffer k q) := by
  induction k generalizing q with
  | zero => exact h
  | succ k ih =>
    have := @calm_reofferOnes p q.budget.waiting (q, false) h
    unfold reoffer
    dsimp only
    split
    · exact ih this
    · exact this

@[simp] theorem calm_examine (h : Calm p q) : Calm p (examine q) := by
  unfold examine
  (try dsimp only)
  (repeat' split) <;> simp (maxDischargeDepth := 40) [*]

@[simp] theorem calm_afterRelease (h : Calm p q) : Calm p (afterRelease q) := by
  unfold afterRelease
  (try dsimp only)
  (repeat' split) <;> simp (maxDischargeDepth := 40) [*]

@[simp] theorem calm_releaseCharge {i : Nat} (h : Calm p q) : Calm p (releaseCharge i q) := by
  unfold releaseCharge
  split
  · exact calm_afterRelease (calm_mk h rfl rfl rfl rfl rfl rfl rfl litCharges_filter)
  · exact h

@[simp] theorem calm_releaseDial {d : Nat} (h : Calm p q) : Calm p (releaseDial d q) := by
  unfold releaseDial
  split
  · exact calm_afterRelease (calm_mk h rfl rfl rfl rfl rfl rfl rfl litCharges_filter)
  · exact h

@[simp] theorem calm_afterGrant {b : Bool} (h : Calm p q) : Calm p (afterGrant b q) := by
  unfold afterGrant
  (try dsimp only)
  (repeat' split) <;> simp (maxDischargeDepth := 40) [*]

@[simp] theorem calm_askDrive {d : Nat} (h : Calm p q) : Calm p (askDrive d q) := by
  unfold askDrive
  dsimp only
  split
  · rename_i hg
    have := calm_tryGrant h hg
    simp at this
    simp (maxDischargeDepth := 40) [*]
  · simp (maxDischargeDepth := 40) [*]

@[simp] theorem calm_askStrike {b a : Nat} {o : Origin} (h : Calm p q) : Calm p (askStrike b o a q).1 := by
  unfold askStrike
  dsimp only
  split
  · rename_i hg
    have := calm_tryGrant h hg
    simp at this
    simp (maxDischargeDepth := 40) [*]
  · simp (maxDischargeDepth := 40) [*]

@[simp] theorem calm_lampFall {g l : Nat} (h : Calm p q) : Calm p (lampFall g l q) := by
  unfold lampFall
  (try dsimp only)
  (repeat' split) <;> simp (maxDischargeDepth := 40) [*]

@[simp] theorem calm_lampAsk {g l : Nat} (h : Calm p q) : Calm p (lampAsk g l q) := by
  unfold lampAsk
  (try dsimp only)
  (repeat' split) <;> simp (maxDischargeDepth := 40) [*]

@[simp] theorem calm_dropClamp {g : Nat} (h : Calm p q) : Calm p (dropClamp g q) := by
  unfold dropClamp
  (try dsimp only)
  (repeat' split) <;> simp (maxDischargeDepth := 40) [*]

@[simp] theorem calm_restoreGroup {g : Nat} (h : Calm p q) : Calm p (restoreGroup g q) := by
  unfold restoreGroup
  (try dsimp only)
  (repeat' split) <;> simp (maxDischargeDepth := 40) [*]

/-! ## Dials -/

@[simp] theorem calm_restDial {d : Nat} {st : DialState} (h : Calm p q) : Calm p (restDial d st q) := by
  unfold restDial
  (try dsimp only)
  (repeat' split) <;> simp (maxDischargeDepth := 40) [*]

@[simp] theorem calm_evaluateDial {d : Nat} (h : Calm p q) : Calm p (evaluateDial d q) := by
  unfold evaluateDial
  (try dsimp only)
  (repeat' split) <;> simp (maxDischargeDepth := 40) [*]

@[simp] theorem calm_reformTarget {b : Bool} {d : Nat} (h : Calm p q) : Calm p (reformTarget b d q) := by
  unfold reformTarget
  (try dsimp only)
  (repeat' split) <;> simp (maxDischargeDepth := 40) [*]

@[simp] theorem calm_dialsShifted (h : Calm p q) : Calm p (dialsShifted q) := by
  unfold dialsShifted
  try dsimp only
  exact calm_foldl (fun q a => by simp) _ h

@[simp] theorem calm_dialSecond {d : Nat} (h : Calm p q) : Calm p (dialSecond d q) := by
  unfold dialSecond
  (try dsimp only)
  (repeat' split) <;> simp (maxDischargeDepth := 40) [*]

@[simp] theorem calm_dialsSecond (h : Calm p q) : Calm p (dialsSecond q) := by
  unfold dialsSecond
  try dsimp only
  exact calm_foldl (fun q a => by simp) _ h

@[simp] theorem calm_faultDial {d : Nat} (h : Calm p q) : Calm p (faultDial d q) := by
  unfold faultDial
  (try dsimp only)
  (repeat' split) <;> simp (maxDischargeDepth := 40) [*]

@[simp] theorem calm_missHome {d : Nat} (h : Calm p q) : Calm p (missHome d q) := by
  unfold missHome
  (try dsimp only)
  (repeat' split) <;> simp (maxDischargeDepth := 40) [*]

@[simp] theorem calm_beginSearch {d : Nat} (h : Calm p q) : Calm p (beginSearch d q) := by
  unfold beginSearch
  (try dsimp only)
  (repeat' split) <;> simp (maxDischargeDepth := 40) [*]

@[simp] theorem calm_searchStep {d : Nat} (h : Calm p q) : Calm p (searchStep d q) := by
  unfold searchStep
  (try dsimp only)
  (repeat' split) <;> simp (maxDischargeDepth := 40) [*]

@[simp] theorem calm_watchStep {d : Nat} (h : Calm p q) : Calm p (watchStep d q) := by
  unfold watchStep
  (try dsimp only)
  (repeat' split) <;> simp (maxDischargeDepth := 40) [*]

@[simp] theorem calm_dialStepDone {d : Nat} (h : Calm p q) : Calm p (dialStepDone d q) := by
  unfold dialStepDone
  (try dsimp only)
  (repeat' split) <;> simp (maxDischargeDepth := 40) [*]

@[simp] theorem calm_homeReported {d : Nat} (h : Calm p q) : Calm p (homeReported d q) := by
  unfold homeReported
  (try dsimp only)
  (repeat' split) <;> simp (maxDischargeDepth := 40) [*]

@[simp] theorem calm_setDialTaken {d k : Nat} (h : Calm p q) : Calm p (setDialTaken d k q) := by
  unfold setDialTaken
  (try dsimp only)
  (repeat' split) <;> simp (maxDischargeDepth := 40) [*]

@[simp] theorem calm_dialsStop (h : Calm p q) : Calm p (dialsStop q) := by
  unfold dialsStop
  dsimp only
  exact calm_foldl (fun q a => by simp) _ (calm_foldl (fun q a => by simp) _ h)

@[simp] theorem calm_dialLeavesStopped {d : Nat} (h : Calm p q) : Calm p (dialLeavesStopped d q) := by
  unfold dialLeavesStopped
  (try dsimp only)
  (repeat' split) <;> simp (maxDischargeDepth := 40) [*]

@[simp] theorem calm_dialsFollow {a b : TimeState} (h : Calm p q) : Calm p (dialsFollow a b q) := by
  unfold dialsFollow
  repeat' split
  · exact h
  · exact calm_dialsStop h
  · exact calm_foldl (fun q a => by simp) _ h
  · exact calm_foldl (fun q a => by simp) _ h

@[simp] theorem calm_dialWritten {d : Nat} {c : DialConfig} (h : Calm p q) : Calm p (dialWritten d c q) := by
  unfold dialWritten
  (try dsimp only)
  (repeat' split) <;> simp (maxDischargeDepth := 40) [*]

@[simp] theorem calm_writeDial {d : Nat} {bs : List Byte} (h : Calm p q) : Calm p (writeDial d bs q).1 := by
  unfold writeDial
  (try dsimp only)
  (repeat' split) <;> simp (maxDischargeDepth := 40) [*]

/-! ## The Session Controller and the Bell Guard -/

@[simp] theorem calm_sessionNotice {o n : SessionState} {l : List Nat} {k : Option Nat} {r : SessionReason} (h : Calm p q) : Calm p (sessionNotice o n l k r q) := by
  unfold sessionNotice
  (try dsimp only)
  (repeat' split) <;> simp (maxDischargeDepth := 40) [*]

@[simp] theorem calm_lookForOpen (h : Calm p q) : Calm p (lookForOpen q) := by
  unfold lookForOpen
  (try dsimp only)
  (repeat' split) <;> simp (maxDischargeDepth := 40) [*]

@[simp] theorem calm_toldActive {b : Nat} (h : Calm p q) : Calm p (toldActive b q) := by
  unfold toldActive
  (try dsimp only)
  (repeat' split) <;> simp (maxDischargeDepth := 40) [*]

@[simp] theorem calm_toldInactive {b : Nat} (h : Calm p q) : Calm p (toldInactive b q) := by
  unfold toldInactive
  (try dsimp only)
  (repeat' split) <;> simp (maxDischargeDepth := 40) [*]

@[simp] theorem calm_placeSetting {b : Nat} (h : Calm p q) : Calm p (placeSetting b q) := by
  unfold placeSetting
  dsimp only
  split
  · split
    · refine calm_safetyQ h fun k => ⟨by simpa using k.1, ?_⟩
      rw [List.map_map]
      refine (List.map_congr_left fun t _ => ?_) ▸ k.2.1
      simp only [Function.comp]
      split
      · rename_i ht; simp [settingOf, ht]
      · rfl
    · split
      · rename_i hany hl
        refine calm_safetyQ h fun k => ⟨by simp [Config.safetyPlaces] at hl ⊢; omega, ?_⟩
        simp only [List.map_append, List.map_cons, List.map_nil]
        rw [List.nodup_append]
        refine ⟨k.2.1, by simp, ?_⟩
        intro a ha c hc hac
        subst hac
        simp only [List.mem_singleton, settingOf] at hc
        subst hc
        obtain ⟨t, ht, e⟩ := List.mem_map.mp ha
        apply hany
        rw [List.any_eq_true]
        exact ⟨t, ht, by simpa using e⟩
      · exact h
  · exact h

@[simp] theorem calm_placeWanted (h : Calm p q) : Calm p (placeWanted q) := by
  unfold placeWanted
  try dsimp only
  exact calm_foldl (fun q a => by simp) _ h

@[simp] theorem calm_changeHammer {b : Nat} {st : HammerState} (h : Calm p q) : Calm p (changeHammer b st q) := by
  unfold changeHammer
  (try dsimp only)
  (repeat' split) <;> simp (maxDischargeDepth := 40) [*]

@[simp] theorem calm_decideSetting {b : Nat} {a : HammerAction} (h : Calm p q) : Calm p (decideSetting b a q) := by
  unfold decideSetting
  (try dsimp only)
  (repeat' split) <;> simp (maxDischargeDepth := 40) [*]

@[simp] theorem calm_reengage {b : Nat} (h : Calm p q) : Calm p (reengage b q) := by
  unfold reengage
  (try dsimp only)
  (repeat' split) <;> simp (maxDischargeDepth := 40) [*]

@[simp] theorem calm_setVoiceClaim {v : VoiceId} {k : Bool} {b : Nat} (h : Calm p q) :
    Calm p (setVoiceClaim v k q b) := by
  cases v <;> simp [setVoiceClaim, h]

@[simp] theorem calm_enterClaims {v : VoiceId} {l : List Nat} (h : Calm p q) : Calm p (enterClaims v l q) := by
  unfold enterClaims
  try dsimp only
  exact calm_foldl (fun q a => by simp) _ h

@[simp] theorem calm_removeClaims {v : VoiceId} {l : List Nat} (h : Calm p q) : Calm p (removeClaims v l q) := by
  unfold removeClaims
  try dsimp only
  exact calm_foldl (fun q a => by simp) _ h

@[simp] theorem calm_enterRingers {b : Nat} (h : Calm p q) : Calm p (enterRingers q b) := by
  unfold enterRingers
  (try dsimp only)
  (repeat' split) <;> simp (maxDischargeDepth := 40) [*]

@[simp] theorem calm_removeRingers {b : Nat} (h : Calm p q) : Calm p (removeRingers q b) := by
  unfold removeRingers
  (try dsimp only)
  (repeat' split) <;> simp (maxDischargeDepth := 40) [*]

@[simp] theorem calm_refuseStrike {b : Nat} (h : Calm p q) : Calm p (refuseStrike b q) := by
  unfold refuseStrike
  (try dsimp only)
  (repeat' split) <;> simp (maxDischargeDepth := 40) [*]

@[simp] theorem calm_admitStrike {b : Nat} {o : Origin} (h : Calm p q) : Calm p (admitStrike b o q).1 := by
  unfold admitStrike
  (try dsimp only)
  (repeat' split) <;> simp (maxDischargeDepth := 40) [*]

@[simp] theorem calm_guardSafe (h : Calm p q) : Calm p (guardSafe q) := by
  unfold guardSafe
  try dsimp only
  exact calm_foldl (fun q a => by split <;> simp) _ h

@[simp] theorem calm_guardRunning (h : Calm p q) : Calm p (guardRunning q) := by
  unfold guardRunning
  try dsimp only
  exact calm_foldl (fun q a => by simp) _ h

/-! ## What ends a voice's sounding -/

@[simp] theorem calm_releaseStrikes {l : List HeldStrike} (h : Calm p q) : Calm p (releaseStrikes l q) := by
  unfold releaseStrikes
  try dsimp only
  exact calm_foldl (fun q a => by simp) _ h

@[simp] theorem calm_dropHeld {v : VoiceId} (h : Calm p q) : Calm p (dropHeld v q) := by
  unfold dropHeld
  (try dsimp only)
  (repeat' split) <;> simp (maxDischargeDepth := 40) [*]

@[simp] theorem calm_dropLate {v : VoiceId} (h : Calm p q) : Calm p (dropLate v q) := by
  unfold dropLate
  (try dsimp only)
  (repeat' split) <;> simp (maxDischargeDepth := 40) [*]

@[simp] theorem calm_placeStrike {v : VoiceId} {s : Strike} {d : Nat} (h : Calm p q) : Calm p (placeStrike v s d q) := by
  unfold placeStrike
  dsimp only
  split
  · rename_i hl
    exact calm_localQ_push h (by simpa [Config.localPlaces] using hl.2) rfl
  · (repeat' split) <;> simp (maxDischargeDepth := 40) [*]

@[simp] theorem calm_endQuarter (h : Calm p q) : Calm p (endQuarter q) := by
  unfold endQuarter
  (try dsimp only)
  (repeat' split) <;> simp (maxDischargeDepth := 40) [*]

@[simp] theorem calm_endTune {r : EndReason} (h : Calm p q) : Calm p (endTune r q) := by
  unfold endTune
  (try dsimp only)
  (repeat' split) <;> simp (maxDischargeDepth := 40) [*]

@[simp] theorem calm_voicesSafe (h : Calm p q) : Calm p (voicesSafe q) := by
  unfold voicesSafe
  (try dsimp only)
  (repeat' split) <;> simp (maxDischargeDepth := 40) [*]

/-! ## Faults, the ends of a session, and requests -/

@[simp] theorem calm_raiseMajor {k : FaultKind} {d : List Byte} (h : Calm p q) : Calm p (raiseMajor k d q) := by
  unfold raiseMajor
  (try dsimp only)
  (repeat' split) <;> simp (maxDischargeDepth := 40) [*]

@[simp] theorem calm_readSource {n : Nat} (h : Calm p q) : Calm p (readSource n q).1 := by
  unfold readSource
  (try dsimp only)
  (repeat' split) <;> simp (maxDischargeDepth := 40) [*]

@[simp] theorem calm_classOf {n : Nat} (h : Calm p q) : Calm p (classOf n q).1 := by
  unfold classOf
  (try dsimp only)
  (repeat' split) <;> simp (maxDischargeDepth := 40) [*]

@[simp] theorem calm_sessionJam {b : Nat} (h : Calm p q) : Calm p (sessionJam b q) := by
  unfold sessionJam
  dsimp only
  (repeat' split) <;> try simp (maxDischargeDepth := 40) [*]
  all_goals first
    | done
    | exact calm_sessionNotice (calm_mk (calm_foldl (fun q a => by simp) _ (by simp [h])) rfl rfl rfl rfl rfl rfl rfl id)

@[simp] theorem calm_completeSession (h : Calm p q) : Calm p (completeSession q) := by
  unfold completeSession
  (try dsimp only)
  (repeat' split) <;> simp (maxDischargeDepth := 40) [*]

@[simp] theorem calm_leaveBell {b : Nat} (h : Calm p q) : Calm p (leaveBell q b) := by
  unfold leaveBell
  (try dsimp only)
  (repeat' split) <;> simp (maxDischargeDepth := 40) [*]

@[simp] theorem calm_sessionSettled {b : Nat} (h : Calm p q) : Calm p (sessionSettled b q) := by
  unfold sessionSettled
  (try dsimp only)
  (repeat' split) <;> simp (maxDischargeDepth := 40) [*]

@[simp] theorem calm_closeSession (h : Calm p q) : Calm p (closeSession q) := by
  unfold closeSession
  dsimp only
  exact calm_foldl (fun q a => by simp) _ (by simp [h])

@[simp] theorem calm_beginSession {l : List Nat} {s : Nat} (h : Calm p q) : Calm p (beginSession l s q) := by
  unfold beginSession
  (try dsimp only)
  (repeat' split) <;> simp (maxDischargeDepth := 40) [*]

@[simp] theorem calm_enterSessionClaims (h : Calm p q) : Calm p (enterSessionClaims q) := by
  unfold enterSessionClaims
  try dsimp only
  exact calm_foldl (fun q a => by simp) _ h

@[simp] theorem calm_replyQueued (h : Calm p q) : Calm p (replyQueued q) := by
  unfold replyQueued
  (try dsimp only)
  (repeat' split) <;> simp (maxDischargeDepth := 40) [*]

@[simp] theorem calm_offerReply {i : UpItem} (h : Calm p q) : Calm p (offerReply i q) := by
  unfold offerReply
  split
  · rename_i hl
    exact calm_replyQueued (calm_upQ h (by simp [Config.upPlaces] at hl ⊢; omega))
  · simp [h]

@[simp] theorem calm_reply {s o : Nat} {c : Code} {d : List Byte} (h : Calm p q) : Calm p (reply s o c d q) := by
  unfold reply
  (try dsimp only)
  (repeat' split) <;> simp (maxDischargeDepth := 40) [*]

@[simp] theorem calm_deliverRequest {i : Instr} {s : Nat} (h : Calm p q) : Calm p (deliverRequest i s q) := by
  unfold deliverRequest
  (try dsimp only)
  (repeat' split) <;> simp (maxDischargeDepth := 40) [*]

@[simp] theorem calm_serve {i : Instr} {s : Nat} {w : SourceClass → Part → Part} (h : Calm p q) (hw : ∀ {c : SourceClass} {r : Part}, Calm p r → Calm p (w c r)) : Calm p (serve i s w q) := by
  unfold serve
  dsimp only
  (repeat' split) <;> simp (maxDischargeDepth := 40) [*]
  all_goals exact hw (by simp (maxDischargeDepth := 40) [*])

@[simp] theorem calm_serveSimple {i : Instr} {s : Nat} {m : SourceClass} {op : Part → Part × Code} (h : Calm p q) (ho : ∀ {r : Part}, Calm p r → Calm p (op r).1) : Calm p (serveSimple i s m op q) := by
  unfold serveSimple
  refine calm_serve h fun {c r} hr => ?_
  dsimp only
  split <;> simp [ho hr, hr]

/-! ## The Tune Store and the voices' playing -/

@[simp] theorem calm_storeFailure {t : Table} {n : Nat} (h : Calm p q) : Calm p (storeFailure t n q) := by
  unfold storeFailure
  (try dsimp only)
  (repeat' split) <;> simp (maxDischargeDepth := 40) [*]

@[simp] theorem calm_readDirectory {n : Nat} (h : Calm p q) : Calm p (readDirectory n q).1 := by
  unfold readDirectory
  (try dsimp only)
  (repeat' split) <;> simp (maxDischargeDepth := 40) [*]

@[simp] theorem calm_readTune {n : Nat} (h : Calm p q) : Calm p (readTune n q).1 := by
  unfold readTune
  (try dsimp only)
  (repeat' split) <;> simp (maxDischargeDepth := 40) [*]

@[simp] theorem calm_readStep {n : Nat} (h : Calm p q) : Calm p (readStep n q).1 := by
  unfold readStep
  (try dsimp only)
  (repeat' split) <;> simp (maxDischargeDepth := 40) [*]

@[simp] theorem calm_readChimeSet {n : Nat} (h : Calm p q) : Calm p (readChimeSet n q).1 := by
  unfold readChimeSet
  (try dsimp only)
  (repeat' split) <;> simp (maxDischargeDepth := 40) [*]

@[simp] theorem calm_writeDirectory {n : Nat} {bs : List Byte} (h : Calm p q) : Calm p (writeDirectory n bs q).1 := by
  unfold writeDirectory
  (try dsimp only)
  (repeat' split) <;> simp (maxDischargeDepth := 40) [*]

@[simp] theorem calm_writeStep {n : Nat} {bs : List Byte} (h : Calm p q) : Calm p (writeStep n bs q).1 := by
  unfold writeStep
  (try dsimp only)
  (repeat' split) <;> simp (maxDischargeDepth := 40) [*]

@[simp] theorem calm_writeChimeSet {n : Nat} {bs : List Byte} (h : Calm p q) : Calm p (writeChimeSet n bs q).1 := by
  unfold writeChimeSet
  (try dsimp only)
  (repeat' split) <;> simp (maxDischargeDepth := 40) [*]

@[simp] theorem calm_voiceStrike {v : VoiceId} {f d b : Nat} (h : Calm p q) : Calm p (voiceStrike v f d q b) := by
  unfold voiceStrike
  (try dsimp only)
  (repeat' split) <;> simp (maxDischargeDepth := 40) [*]

@[simp] theorem calm_noteBell {v : VoiceId} {f d b : Nat} (h : Calm p q) : Calm p (noteBell v f d q b) := by
  unfold noteBell
  (try dsimp only)
  (repeat' split) <;> simp (maxDischargeDepth := 40) [*]

@[simp] theorem calm_playNote {v : VoiceId} {l : List Nat} {f : Nat} (h : Calm p q) : Calm p (playNote v l f q) := by
  unfold playNote
  try dsimp only
  exact calm_foldl (fun q a => by simp) _ h

@[simp] theorem calm_setStack {v : VoiceId} {l : List PhraseFrame} (h : Calm p q) : Calm p (setStack v l q) := by
  unfold setStack
  (try dsimp only)
  (repeat' split) <;> simp (maxDischargeDepth := 40) [*]

@[simp] theorem calm_addPulses {v : VoiceId} {n : Nat} (h : Calm p q) : Calm p (addPulses v n q) := by
  unfold addPulses
  (try dsimp only)
  (repeat' split) <;> simp (maxDischargeDepth := 40) [*]

@[simp] theorem calm_abandonTune {v : VoiceId} (h : Calm p q) : Calm p (abandonTune v q) := by
  unfold abandonTune
  (try dsimp only)
  (repeat' split) <;> simp (maxDischargeDepth := 40) [*]

@[simp] theorem calm_skipCall {v : VoiceId} (h : Calm p q) : Calm p (skipCall v q) := by
  unfold skipCall
  (try dsimp only)
  (repeat' split) <;> simp (maxDischargeDepth := 40) [*]

@[simp] theorem calm_takeSteps {k : Nat} {v : VoiceId} (h : Calm p q) : Calm p (takeSteps k v q).1 := by
  induction k generalizing q with
  | zero => exact h
  | succ k ih =>
    unfold takeSteps
    dsimp only
    (repeat' split) <;> simp (maxDischargeDepth := 40) [*]

@[simp] theorem calm_enterPausing (h : Calm p q) : Calm p (enterPausing q) := by
  unfold enterPausing
  (try dsimp only)
  (repeat' split) <;> simp (maxDischargeDepth := 40) [*]

@[simp] theorem calm_chimeEnded (h : Calm p q) : Calm p (chimeEnded q) := by
  unfold chimeEnded
  (try dsimp only)
  (repeat' split) <;> simp (maxDischargeDepth := 40) [*]

@[simp] theorem calm_playVoice {v : VoiceId} (h : Calm p q) : Calm p (playVoice v q) := by
  unfold playVoice
  (try dsimp only)
  (repeat' split) <;> simp (maxDischargeDepth := 40) [*]

@[simp] theorem calm_sound {k j : Nat} {c : ChimeSet} {e : Option TuneEntry} {b : Bool} (h : Calm p q) : Calm p (sound k j c e b q) := by
  unfold sound
  (try dsimp only)
  (repeat' split) <;> simp (maxDischargeDepth := 40) [*]

@[simp] theorem calm_decideQuarter {k j : Nat} {c : ChimeSet} (h : Calm p q) : Calm p (decideQuarter k j c q) := by
  unfold decideQuarter
  (try dsimp only)
  (repeat' split) <;> simp (maxDischargeDepth := 40) [*]

@[simp] theorem calm_copyChimeSet (h : Calm p q) : Calm p (copyChimeSet q) := by
  unfold copyChimeSet
  (try dsimp only)
  (repeat' split) <;> simp (maxDischargeDepth := 40) [*]

@[simp] theorem calm_takeQuarter {k j : Nat} {l : Bool} (h : Calm p q) : Calm p (takeQuarter k j l q) := by
  unfold takeQuarter
  (try dsimp only)
  (repeat' split) <;> simp (maxDischargeDepth := 40) [*]

@[simp] theorem calm_blow {t : Nat} {c : ChimeSet} (h : Calm p q) : Calm p (blow t c q) := by
  unfold blow
  (try dsimp only)
  (repeat' split) <;> simp (maxDischargeDepth := 40) [*]

@[simp] theorem calm_startTune {t n : Nat} (h : Calm p q) : Calm p (startTune t n q).1 := by
  unfold startTune
  (try dsimp only)
  (repeat' split) <;> simp (maxDischargeDepth := 40) [*]

@[simp] theorem calm_stopTune (h : Calm p q) : Calm p (stopTune q).1 := by
  unfold stopTune
  (try dsimp only)
  (repeat' split) <;> simp (maxDischargeDepth := 40) [*]

@[simp] theorem calm_tuneDue (h : Calm p q) : Calm p (tuneDue q) := by
  unfold tuneDue
  (try dsimp only)
  (repeat' split) <;> simp (maxDischargeDepth := 40) [*]

/-! ## The Lamp Controller and the Feed Budget's events -/

@[simp] theorem calm_readScene {n : Nat} (h : Calm p q) : Calm p (readScene n q).1 := by
  unfold readScene
  (try dsimp only)
  (repeat' split) <;> simp (maxDischargeDepth := 40) [*]

@[simp] theorem calm_writeScene {n : Nat} {bs : List Byte} (h : Calm p q) : Calm p (writeScene n bs q).1 := by
  unfold writeScene
  (try dsimp only)
  (repeat' split) <;> simp (maxDischargeDepth := 40) [*]

@[simp] theorem calm_followRestart {g : Nat} (h : Calm p q) : Calm p (followRestart g q) := by
  unfold followRestart
  (try dsimp only)
  (repeat' split) <;> simp (maxDischargeDepth := 40) [*]

@[simp] theorem calm_sceneGroup {s : Scene} {g : Nat} (h : Calm p q) : Calm p (sceneGroup s q g) := by
  unfold sceneGroup
  (try dsimp only)
  (repeat' split) <;> simp (maxDischargeDepth := 40) [*]

@[simp] theorem calm_applyScene {n : Nat} (h : Calm p q) : Calm p (applyScene n q).1 := by
  unfold applyScene
  dsimp only
  (repeat' split) <;> try simp (maxDischargeDepth := 40) [*]
  all_goals exact calm_foldl (fun q a => by simp) _ (by simp [h])

@[simp] theorem calm_compareLevel {g : Nat} (h : Calm p q) : Calm p (compareLevel g q) := by
  unfold compareLevel
  (try dsimp only)
  (repeat' split) <;> simp (maxDischargeDepth := 40) [*]

@[simp] theorem calm_updateGroup {g : Nat} (h : Calm p q) : Calm p (updateGroup q g) := by
  unfold updateGroup
  (try dsimp only)
  (repeat' split) <;> simp (maxDischargeDepth := 40) [*]

@[simp] theorem calm_lampUpdate (h : Calm p q) : Calm p (lampUpdate q) := by
  unfold lampUpdate
  exact calm_foldl (fun q a => by simp) _ (by simp [h])

@[simp] theorem calm_failGroup {g : Nat} {s : LampStatus} (h : Calm p q) : Calm p (failGroup g s q) := by
  unfold failGroup
  (try dsimp only)
  (repeat' split) <;> simp (maxDischargeDepth := 40) [*]

@[simp] theorem calm_groupReported {g : Nat} {s : LampStatus} (h : Calm p q) : Calm p (groupReported g s q) := by
  unfold groupReported
  (try dsimp only)
  (repeat' split) <;> simp (maxDischargeDepth := 40) [*]

@[simp] theorem calm_darkenOld {g : Nat} (h : Calm p q) : Calm p (darkenOld g q) := by
  unfold darkenOld
  (try dsimp only)
  (repeat' split) <;> simp (maxDischargeDepth := 40) [*]

@[simp] theorem channel_detach (g : Nat) (i : LocalItem) : (i.detach g).channel = i.channel := by
  cases i with
  | lampLevel k l f => cases k <;> simp only [LocalItem.detach] <;> (try split) <;> rfl
  | _ => rfl

@[simp] theorem bare_detach (g : Nat) (x : FieldFlight) : (x.detach g).bare = x.bare := by
  cases x with
  | lampLevel k l f => cases k <;> simp only [FieldFlight.detach] <;> (try split) <;> rfl
  | _ => rfl

/-- R118, step 3: frames detached from their group. -/
theorem calm_detached {g : Nat} (h : Calm p q) :
    Calm p { q with
      line.localQ := q.line.localQ.map (LocalItem.detach g)
      line.fieldFlight := q.line.fieldFlight.map (FieldFlight.detach g) } := by
  have k := calm_localQ_map (f := LocalItem.detach g) h (channel_detach g)
  refine ⟨⟨k.osc, k.retention, k.takes, ?_, k.console, k.fits, k.lit⟩, k.time⟩
  rw [← h.field]
  cases q.line.fieldFlight <;> simp

@[simp] theorem calm_groupWritten {g : Nat} {c : LampConfig} (h : Calm p q) : Calm p (groupWritten g c q) := by
  unfold groupWritten
  dsimp only
  exact calm_examine (calm_detached (by simp [h]))

@[simp] theorem calm_writeGroup {g : Nat} {bs : List Byte} (h : Calm p q) : Calm p (writeGroup g bs q).1 := by
  unfold writeGroup
  (try dsimp only)
  (repeat' split) <;> simp (maxDischargeDepth := 40) [*]

@[simp] theorem calm_restoreExpires (h : Calm p q) : Calm p (restoreExpires q) := by
  unfold restoreExpires
  (try dsimp only)
  (repeat' split) <;> simp (maxDischargeDepth := 40) [*]

@[simp] theorem calm_reclaimExcess (h : Calm p q) : Calm p (reclaimExcess q) := by
  unfold reclaimExcess
  (try dsimp only)
  (repeat' split) <;> simp (maxDischargeDepth := 40) [*]

@[simp] theorem calm_limitsWritten {t : LimitTable} (h : Calm p q) : Calm p (limitsWritten t q) := by
  unfold limitsWritten
  (try dsimp only)
  (repeat' split) <;> simp (maxDischargeDepth := 40) [*]

@[simp] theorem calm_writeLimits {n : Nat} {bs : List Byte} (h : Calm p q) : Calm p (writeLimits n bs q).1 := by
  unfold writeLimits
  (try dsimp only)
  (repeat' split) <;> simp (maxDischargeDepth := 40) [*]

@[simp] theorem calm_stageChanged {s : Stage} (h : Calm p q) : Calm p (stageChanged s q) := by
  unfold stageChanged
  (try dsimp only)
  (repeat' split) <;> simp (maxDischargeDepth := 40) [*]

@[simp] theorem calm_feedReported {m : Option Nat} {n : Nat} {s : Stage} (h : Calm p q) : Calm p (feedReported m n s q) := by
  unfold feedReported
  (try dsimp only)
  (repeat' split) <;> simp (maxDischargeDepth := 40) [*]

@[simp] theorem calm_releaseTaken (h : Calm p q) : Calm p (releaseTaken q) := by
  unfold releaseTaken
  (try dsimp only)
  (repeat' split) <;> simp (maxDischargeDepth := 40) [*]

/-! ## The Calendar -/

@[simp] theorem calm_dropDue {k : DueKind} (h : Calm p q) : Calm p (dropDue k q) := by
  unfold dropDue
  (try dsimp only)
  (repeat' split) <;> simp (maxDischargeDepth := 40) [*]

@[simp] theorem calm_calDisabled {t : CalTable} {n : Nat} (h : Calm p q) : Calm p (calDisabled t n q) := by
  unfold calDisabled
  (try dsimp only)
  (repeat' split) <;> simp (maxDischargeDepth := 40) [*]

@[simp] theorem calm_calFailure {t : CalTable} {n : Nat} (h : Calm p q) : Calm p (calFailure t n q) := by
  unfold calFailure
  (try dsimp only)
  (repeat' split) <;> simp (maxDischargeDepth := 40) [*]

@[simp] theorem calm_readCal {α : Type} {t : CalTable} {f : α → List Byte} {n : Nat} {r : Checked α} (h : Calm p q) : Calm p (readCal t f n r q).1 := by
  unfold readCal
  (try dsimp only)
  (repeat' split) <;> simp (maxDischargeDepth := 40) [*]

@[simp] theorem calm_calMended {t : CalTable} {n : Nat} (h : Calm p q) : Calm p (calMended t n q) := by
  unfold calMended
  (try dsimp only)
  (repeat' split) <;> simp (maxDischargeDepth := 40) [*]

theorem calm_foldl_fst {α β : Type} {f : Part × β → α → Part × β}
    (hf : ∀ {acc : Part × β} {a : α}, Calm p acc.1 → Calm p (f acc a).1) {l : List α} {acc : Part × β}
    (h : Calm p acc.1) : Calm p (l.foldl f acc).1 := by
  induction l generalizing acc with
  | nil => exact h
  | cons a l ih => exact ih (hf h)

@[simp] theorem calm_recomputeClasses (h : Calm p q) : Calm p (recomputeClasses q) := by
  unfold recomputeClasses
  have : Calm p ((List.range 64).foldl classEntry (q, [])).1 :=
    calm_foldl_fst (fun {acc a} ha => by simp [classEntry, ha]) h
  simp [this]

@[simp] theorem calm_sunInstants {d : Date} (h : Calm p q) : Calm p (sunInstants d q).1 := by
  unfold sunInstants
  (try dsimp only)
  (repeat' split) <;> simp (maxDischargeDepth := 40) [*]

@[simp] theorem calm_rebuildEntry {d : Date} {j : OffsetHistory} {s : Option (Int × Int)} {n : Nat} (h : Calm p q) : Calm p (rebuildEntry d j s q n) := by
  unfold rebuildEntry
  (try dsimp only)
  (repeat' split) <;> simp (maxDischargeDepth := 40) [*]

@[simp] theorem calm_rebuildEntryUnset {n : Nat} (h : Calm p q) : Calm p (rebuildEntryUnset q n) := by
  unfold rebuildEntryUnset
  (try dsimp only)
  (repeat' split) <;> simp (maxDischargeDepth := 40) [*]

@[simp] theorem calm_decideItem {k : DueKind} {f : Bool} (h : Calm p q) : Calm p (decideItem k f q) := by
  unfold decideItem
  (try dsimp only)
  (repeat' split) <;> simp (maxDischargeDepth := 40) [*]

@[simp] theorem calm_doAction {s : ActionSource} {a : Action} (h : Calm p q) : Calm p (doAction s a q).1 := by
  unfold doAction
  (try dsimp only)
  (repeat' split) <;> simp (maxDischargeDepth := 40) [*]

@[simp] theorem calm_countRefusal {s : ActionSource} {k : Nat} {c : Code} (h : Calm p q) : Calm p (countRefusal s k c q) := by
  unfold countRefusal
  (try dsimp only)
  (repeat' split) <;> simp (maxDischargeDepth := 40) [*]

@[simp] theorem calm_reapplyScene {s : ActionSource} {a : Action} (h : Calm p q) : Calm p (reapplyScene s a q) := by
  unfold reapplyScene
  (try dsimp only)
  (repeat' split) <;> simp (maxDischargeDepth := 40) [*]

@[simp] theorem calm_perform {s : ActionSource} {a : Action} (h : Calm p q) : Calm p (perform s a q) := by
  unfold perform
  (try dsimp only)
  (repeat' split) <;> simp (maxDischargeDepth := 40) [*]

@[simp] theorem calm_fireItem {l : Bool} {k : DueKind} (h : Calm p q) : Calm p (fireItem l k q) := by
  unfold fireItem
  (try dsimp only)
  (repeat' split) <;> simp (maxDischargeDepth := 40) [*]

@[simp] theorem calm_skipItem {k : DueKind} (h : Calm p q) : Calm p (skipItem k q) := by
  unfold skipItem
  (try dsimp only)
  (repeat' split) <;> simp (maxDischargeDepth := 40) [*]

@[simp] theorem calm_passItem {x : DueItem} (h : Calm p q) : Calm p (passItem q x) := by
  unfold passItem
  (try dsimp only)
  (repeat' split) <;> simp (maxDischargeDepth := 40) [*]

@[simp] theorem calm_passItems (h : Calm p q) : Calm p (passItems q) := by
  unfold passItems
  try dsimp only
  exact calm_foldl (fun q a => by simp) _ h

@[simp] theorem calm_rebuildWith {j : OffsetHistory} (h : Calm p q) : Calm p (rebuildWith j q) := by
  unfold rebuildWith
  dsimp only
  (repeat' split)
  · exact calm_foldl (fun q a => by simp) _ (by simp [h])
  · refine calm_passItems ?_
    have k : ∀ x y z w, Calm x y → Calm x ((List.range 128).foldl (rebuildEntry z j w) y) :=
      fun x y z w hy => calm_foldl (fun q a => by simp) _ hy
    simp (maxDischargeDepth := 40) [k, h]
  · exact calm_foldl (fun q a => by simp) _ (by simp [h])

@[simp] theorem calm_rebuild (h : Calm p q) : Calm p (rebuild q) := by
  unfold rebuild
  (try dsimp only)
  (repeat' split) <;> simp (maxDischargeDepth := 40) [*]

@[simp] theorem calm_calDateChange (h : Calm p q) : Calm p (calDateChange q) := by
  unfold calDateChange
  (try dsimp only)
  (repeat' split) <;> simp (maxDischargeDepth := 40) [*]

@[simp] theorem calm_calStepForward (h : Calm p q) : Calm p (calStepForward q) := by
  unfold calStepForward
  (try dsimp only)
  (repeat' split) <;> simp (maxDischargeDepth := 40) [*]

@[simp] theorem calm_calUnset (h : Calm p q) : Calm p (calUnset q) := by
  unfold calUnset
  dsimp only
  exact calm_foldl (fun q a => by simp) _ (by simp [h])

@[simp] theorem calm_scheduleReached (h : Calm p q) : Calm p (scheduleReached q) := by
  unfold scheduleReached
  try dsimp only
  exact calm_foldl (fun q a => by simp) _ h

@[simp] theorem calm_linkActs {e : CueEvent} {n : Nat} (h : Calm p q) : Calm p (linkActs e q n) := by
  unfold linkActs
  (try dsimp only)
  (repeat' split) <;> simp (maxDischargeDepth := 40) [*]

@[simp] theorem calm_takeCueEvent (h : Calm p q) : Calm p (takeCueEvent q) := by
  unfold takeCueEvent
  dsimp only
  (repeat' split)
  · exact h
  · simp [h]
  · exact calm_foldl (fun q a => by simp) _ (by simp [h])

@[simp] theorem calm_writeDayClass {n : Nat} {bs : List Byte} (h : Calm p q) : Calm p (writeDayClass n bs q).1 := by
  unfold writeDayClass
  (try dsimp only)
  (repeat' split) <;> simp (maxDischargeDepth := 40) [*]

@[simp] theorem calm_writeSun {n : Nat} {bs : List Byte} (h : Calm p q) : Calm p (writeSun n bs q).1 := by
  unfold writeSun
  (try dsimp only)
  (repeat' split) <;> simp (maxDischargeDepth := 40) [*]

@[simp] theorem calm_writeSchedule {n : Nat} {bs : List Byte} (h : Calm p q) : Calm p (writeSchedule n bs q).1 := by
  unfold writeSchedule
  (try dsimp only)
  (repeat' split) <;> simp (maxDischargeDepth := 40) [*]

@[simp] theorem calm_writeLink {n : Nat} {bs : List Byte} (h : Calm p q) : Calm p (writeLink n bs q).1 := by
  unfold writeLink
  (try dsimp only)
  (repeat' split) <;> simp (maxDischargeDepth := 40) [*]

@[simp] theorem calm_writeCalendarConfig {n : Nat} {bs : List Byte} (h : Calm p q) : Calm p (writeCalendarConfig n bs q).1 := by
  unfold writeCalendarConfig
  (try dsimp only)
  (repeat' split) <;> simp (maxDischargeDepth := 40) [*]

/-! ## The Bell Guard's events -/

@[simp] theorem calm_examineIntrusion {b : Nat} {x : ReportedPosition} (h : Calm p q) : Calm p (examineIntrusion b x q) := by
  unfold examineIntrusion
  (try dsimp only)
  (repeat' split) <;> simp (maxDischargeDepth := 40) [*]

@[simp] theorem calm_bellReported {b k : Nat} {x : ReportedPosition} (h : Calm p q) : Calm p (bellReported b x k q) := by
  unfold bellReported
  (try dsimp only)
  (repeat' split) <;> simp (maxDischargeDepth := 40) [*]

@[simp] theorem calm_takeBellState {s b k : Nat} {x : ReportedPosition} (h : Calm p q) : Calm p (takeBellState s b x k q) := by
  unfold takeBellState
  (try dsimp only)
  (repeat' split) <;> simp (maxDischargeDepth := 40) [*]

@[simp] theorem calm_bellSettles {b : Nat} (h : Calm p q) : Calm p (bellSettles b q) := by
  unfold bellSettles
  (try dsimp only)
  (repeat' split) <;> simp (maxDischargeDepth := 40) [*]

@[simp] theorem calm_sensorExpires {b : Nat} (h : Calm p q) : Calm p (sensorExpires b q) := by
  unfold sensorExpires
  (try dsimp only)
  (repeat' split) <;> simp (maxDischargeDepth := 40) [*]

@[simp] theorem calm_hammerJams {b : Nat} (h : Calm p q) : Calm p (hammerJams b q) := by
  unfold hammerJams
  (try dsimp only)
  (repeat' split) <;> simp (maxDischargeDepth := 40) [*]

@[simp] theorem calm_hammerReported {b : Nat} {a : HammerAnswer} (h : Calm p q) : Calm p (hammerReported b a q) := by
  unfold hammerReported
  (try dsimp only)
  (repeat' split) <;> simp (maxDischargeDepth := 40) [*]

@[simp] theorem calm_takeHammerReport {s c : Nat} {a : HammerAnswer} (h : Calm p q) : Calm p (takeHammerReport s c a q) := by
  unfold takeHammerReport
  (try dsimp only)
  (repeat' split) <;> simp (maxDischargeDepth := 40) [*]

@[simp] theorem calm_hammerExpires {b : Nat} (h : Calm p q) : Calm p (hammerExpires b q) := by
  unfold hammerExpires
  (try dsimp only)
  (repeat' split) <;> simp (maxDischargeDepth := 40) [*]

@[simp] theorem calm_claimBells {s : Nat} {l : List Nat} (h : Calm p q) : Calm p (claimBells s l q).1 := by
  unfold claimBells
  dsimp only
  (repeat' split) <;> try simp [h]
  exact calm_foldl (fun q a => by simp) _ h

@[simp] theorem calm_releaseConsole {b : Nat} (h : Calm p q) : Calm p (releaseConsole q b) := by
  unfold releaseConsole
  (try dsimp only)
  (repeat' split) <;> simp (maxDischargeDepth := 40) [*]

@[simp] theorem calm_releaseNamed {b : Nat} (h : Calm p q) : Calm p (releaseNamed q b) := by
  unfold releaseNamed
  (try dsimp only)
  (repeat' split) <;> simp (maxDischargeDepth := 40) [*]

@[simp] theorem calm_releaseBells {l : List Nat} (h : Calm p q) : Calm p (releaseBells l q).1 := by
  unfold releaseBells
  (repeat' split) <;> try simp [h]
  exact calm_foldl (fun q a => by simp) _ h

@[simp] theorem calm_restartConsoleIdle {b : Nat} (h : Calm p q) : Calm p (restartConsoleIdle b q) := by
  unfold restartConsoleIdle
  (try dsimp only)
  (repeat' split) <;> simp (maxDischargeDepth := 40) [*]

@[simp] theorem calm_startSetting {b : Nat} (h : Calm p q) : Calm p (startSetting q b) := by
  unfold startSetting
  (try dsimp only)
  (repeat' split) <;> simp (maxDischargeDepth := 40) [*]

@[simp] theorem calm_withdrawSetting {b : Nat} (h : Calm p q) : Calm p (withdrawSetting b q) := by
  unfold withdrawSetting
  split
  · refine calm_placeWanted (calm_safetyQ h fun k => ⟨?_, ?_⟩)
    · exact Nat.le_trans (List.length_filter_le _ _) k.1
    · exact k.2.1.sublist (List.filter_sublist.map _)
  · exact h

@[simp] theorem calm_bellWritten {b : Nat} {c : BellConfig} (h : Calm p q) : Calm p (bellWritten b c q) := by
  unfold bellWritten
  exact calm_startSetting (calm_withdrawSetting (calm_putBell h rfl))

@[simp] theorem calm_writeBell {b : Nat} {bs : List Byte} (h : Calm p q) : Calm p (writeBell b bs q).1 := by
  unfold writeBell
  (try dsimp only)
  (repeat' split) <;> simp (maxDischargeDepth := 40) [*]

@[simp] theorem calm_writeGuardConfig {n : Nat} {bs : List Byte} (h : Calm p q) : Calm p (writeGuardConfig n bs q).1 := by
  unfold writeGuardConfig
  (repeat' split) <;> try simp [h]
  exact calm_foldl (fun q a => by split <;> simp) _ (by simp [h])

/-! ## The Line Switch -/

@[simp] theorem calm_copyClass {f : Frame} (h : Calm p q) : Calm p (copyClass f q).1 := by
  unfold copyClass
  (try dsimp only)
  (repeat' split) <;> simp (maxDischargeDepth := 40) [*]

@[simp] theorem calm_deliverCopy {t : Port} {f : Frame} (h : Calm p q) : Calm p (deliverCopy t f q) := by
  unfold deliverCopy
  (try dsimp only)
  (repeat' split) <;> simp (maxDischargeDepth := 40) [*]

@[simp] theorem calm_deliverFrame {f : Frame} (h : Calm p q) : Calm p (deliverFrame f q) := by
  unfold deliverFrame
  (try dsimp only)
  (repeat' split) <;> simp (maxDischargeDepth := 40) [*]

@[simp] theorem calm_readRoute {n : Nat} (h : Calm p q) : Calm p (readRoute n q).1 := by
  unfold readRoute
  (try dsimp only)
  (repeat' split) <;> simp (maxDischargeDepth := 40) [*]

@[simp] theorem calm_matchRoute {t : Port} {f : Frame} {l : List Nat} (h : Calm p q) : Calm p (matchRoute t f l q).1 := by
  induction l generalizing q with
  | nil => exact h
  | cons n l ih =>
    unfold matchRoute
    dsimp only
    (repeat' split) <;> simp (maxDischargeDepth := 40) [*]

@[simp] theorem calm_writeRoute {n : Nat} {bs : List Byte} (h : Calm p q) : Calm p (writeRoute n bs q).1 := by
  unfold writeRoute
  (try dsimp only)
  (repeat' split) <;> simp (maxDischargeDepth := 40) [*]

@[simp] theorem calm_offerPass {i : PassItem} (h : Calm p q) : Calm p (offerPass i q) := by
  unfold offerPass
  split
  · rename_i hl
    exact calm_passQ h (by simp [Config.passPlaces] at hl ⊢; omega)
  · simp [h]

@[simp] theorem calm_forwardFrame {t : Port} {f : Frame} (h : Calm p q) : Calm p (forwardFrame t f q) := by
  unfold forwardFrame
  (try dsimp only)
  (repeat' split) <;> simp (maxDischargeDepth := 40) [*]

@[simp] theorem calm_dropFrame {t : Port} (h : Calm p q) : Calm p (dropFrame t q) := by
  unfold dropFrame
  (try dsimp only)
  (repeat' split) <;> simp (maxDischargeDepth := 40) [*]

@[simp] theorem calm_unmatchedConsole (h : Calm p q) : Calm p (unmatchedConsole q) := by
  unfold unmatchedConsole
  (try dsimp only)
  (repeat' split) <;> simp (maxDischargeDepth := 40) [*]

@[simp] theorem calm_queueConsoleStrike {b i : Nat} {f : Frame} (h : Calm p q) : Calm p (queueConsoleStrike b i f q) := by
  unfold queueConsoleStrike
  (try dsimp only)
  (repeat' split) <;> simp (maxDischargeDepth := 40) [*]

@[simp] theorem calm_consoleStrike {f : Frame} (h : Calm p q) : Calm p (consoleStrike f q) := by
  unfold consoleStrike
  (try dsimp only)
  (repeat' split) <;> simp (maxDischargeDepth := 40) [*]

@[simp] theorem calm_guardFrame {f : Frame} (h : Calm p q) : Calm p (guardFrame f q) := by
  unfold guardFrame
  (try dsimp only)
  (repeat' split) <;> simp (maxDischargeDepth := 40) [*]

@[simp] theorem calm_routeFrame {t : Port} {f : Frame} {a : RouteAction} (h : Calm p q) : Calm p (routeFrame t f a q) := by
  unfold routeFrame
  (try dsimp only)
  (repeat' split) <;> simp (maxDischargeDepth := 40) [*]

@[simp] theorem calm_classify {t : Port} {f : Frame} (h : Calm p q) : Calm p (classify t f q) := by
  unfold classify
  (try dsimp only)
  (repeat' split) <;> simp (maxDischargeDepth := 40) [*]

@[simp] theorem calm_receive {t : Port} {bs : List Byte} (h : Calm p q) : Calm p (receive t bs q) := by
  unfold receive
  (try dsimp only)
  (repeat' split) <;> simp (maxDischargeDepth := 40) [*]

@[simp] theorem calm_discardTake (h : Calm p q) : Calm p (discardTake q) := by
  unfold discardTake
  (try dsimp only)
  (repeat' split) <;> simp (maxDischargeDepth := 40) [*]

@[simp] theorem calm_strikeDiscarded {s : Strike} (h : Calm p q) : Calm p (strikeDiscarded s q) := by
  unfold strikeDiscarded
  (try dsimp only)
  (repeat' split) <;> simp (maxDischargeDepth := 40) [*]

@[simp] theorem calm_levelTaken {i : LocalItem} (h : Calm p q) : Calm p (levelTaken i q) := by
  unfold levelTaken
  (try dsimp only)
  (repeat' split) <;> simp (maxDischargeDepth := 40) [*]

@[simp] theorem calm_passTaken {b : Bool} (h : Calm p q) : Calm p (passTaken b q) := by
  unfold passTaken
  (try dsimp only)
  (repeat' split) <;> simp (maxDischargeDepth := 40) [*]

@[simp] theorem calm_localTaken (h : Calm p q) : Calm p (localTaken q) := by
  unfold localTaken
  (try dsimp only)
  (repeat' split) <;> simp (maxDischargeDepth := 40) [*]

/-! ## Management -/

@[simp] theorem calm_checkRecord {t : Table} {n : Nat} (h : Calm p q) : Calm p (checkRecord t n q).1 := by
  unfold checkRecord
  split <;> simp [h]

@[simp] theorem calm_writeSource {n : Nat} {bs : List Byte} (h : Calm p q) : Calm p (writeSource n bs q).1 := by
  unfold writeSource
  (try dsimp only)
  (repeat' split) <;> simp (maxDischargeDepth := 40) [*]

@[simp] theorem calm_writePartConfig {n : Nat} {bs : List Byte} (h : Calm p q) : Calm p (writePartConfig n bs q).1 := by
  unfold writePartConfig
  (try dsimp only)
  (repeat' split) <;> simp (maxDischargeDepth := 40) [*]

@[simp] theorem calm_readOne {t : Table} {n o : Nat} (h : Calm p q) : Calm p (readOne t n o q).1 := by
  unfold readOne
  (try dsimp only)
  (repeat' split) <;> simp (maxDischargeDepth := 40) [*]

@[simp] theorem calm_readWork {s t n o : Nat} {c : SourceClass} (h : Calm p q) : Calm p (readWork s t n o c q) := by
  unfold readWork
  (try dsimp only)
  (repeat' split) <;> simp (maxDischargeDepth := 40) [*]

@[simp] theorem calm_openCursor {s : Nat} {t : Table} {i d c : Nat} (h : Calm p q) : Calm p (openCursor s t i d c q).1 := by
  unfold openCursor
  (try dsimp only)
  (repeat' split) <;> simp (maxDischargeDepth := 40) [*]

@[simp] theorem calm_cursorWork {s t i d k : Nat} {c : SourceClass} (h : Calm p q) : Calm p (cursorWork s t i d k c q) := by
  unfold cursorWork
  (try dsimp only)
  (repeat' split) <;> simp (maxDischargeDepth := 40) [*]

@[simp] theorem calm_readRecords {k : Nat} {c : Cursor} {d : List Byte} (h : Calm p q) : Calm p (readRecords k c d q).1 := by
  induction k generalizing q c d with
  | zero => exact h
  | succ k ih =>
    unfold readRecords
    dsimp only
    (repeat' split) <;> simp (maxDischargeDepth := 40) [*]

@[simp] theorem calm_readNextWork {s : Nat} {c : SourceClass} (h : Calm p q) : Calm p (readNextWork s c q) := by
  unfold readNextWork
  (try dsimp only)
  (repeat' split) <;> simp (maxDischargeDepth := 40) [*]

@[simp] theorem calm_acknowledge {l : Bool} (h : Calm p q) : Calm p (acknowledge l q) := by
  unfold acknowledge
  (try dsimp only)
  (repeat' split) <;> simp (maxDischargeDepth := 40) [*]

@[simp] theorem calm_ackWork {s l : Nat} {c : SourceClass} (h : Calm p q) : Calm p (ackWork s l c q) := by
  unfold ackWork
  (try dsimp only)
  (repeat' split) <;> simp (maxDischargeDepth := 40) [*]

@[simp] theorem calm_resetWork {s : Nat} {c : SourceClass} (h : Calm p q) : Calm p (resetWork s c q) := by
  unfold resetWork
  (try dsimp only)
  (repeat' split) <;> simp (maxDischargeDepth := 40) [*]

@[simp] theorem calm_ringWork {s : Nat} {l : List Nat} {c : SourceClass} (h : Calm p q) : Calm p (ringWork s l c q) := by
  unfold ringWork
  (try dsimp only)
  (repeat' split) <;> simp (maxDischargeDepth := 40) [*]

@[simp] theorem calm_ringReleaseWork {s : Nat} {c : SourceClass} (h : Calm p q) : Calm p (ringReleaseWork s c q) := by
  unfold ringReleaseWork
  (try dsimp only)
  (repeat' split) <;> simp (maxDischargeDepth := 40) [*]

@[simp] theorem calm_setDialPart {d k : Nat} (h : Calm p q) : Calm p (setDialPart d k q).1 := by
  unfold setDialPart
  (try dsimp only)
  (repeat' split) <;> simp (maxDischargeDepth := 40) [*]

@[simp] theorem calm_placeReply (h : Calm p q) : Calm p (placeReply q) := by
  unfold placeReply
  (try dsimp only)
  (repeat' split) <;> simp (maxDischargeDepth := 40) [*]

end Sys2Proof.Machine
end

