-- ==== Sys2Proof/Laws/Drift.lean ====
section
/-! SUPPORT. The operations that move the Time Scale: each is a drift (Laws/Calm.lean), so it leaves alone everything
that a calm operation leaves alone but the Time Scale itself. -/

namespace Sys2Proof.Machine

variable {p q r : Part}

theorem Drift.calm (h : Drift p q) (k : Calm q r) : Drift p r := h.trans k.toDrift

@[simp] theorem drift_refl (p : Part) : Drift p p := Drift.refl p

/-- An update that touches neither the bells nor the line's queues and flights is a drift. -/
@[simp] theorem drift_mk {t : TimeScale} {dd : DialDriver} {bg : BellGuard} {se : Session} {st : TuneStore}
    {cl : ClockVoice} {tu : TuneVoice} {la : LampController} {bu : FeedBudget} {ca : Calendar} {l : LineSwitch}
    {mg : Management} (h : Drift p q) (hb : bg.bells = q.bellGuard.bells) (h1 : l.safetyQ = q.line.safetyQ)
    (h2 : l.localQ = q.line.localQ) (h3 : l.passQ = q.line.passQ) (h4 : l.upQ = q.line.upQ)
    (h5 : l.fieldFlight = q.line.fieldFlight) (h6 : l.consoleFlight = q.line.consoleFlight)
    (h7 : litCharges q.budget.charges → litCharges bu.charges) :
    Drift p { osc := q.osc, time := t, dialDriver := dd, bellGuard := bg, session := se, store := st, clock := cl,
              tune := tu, lamps := la, budget := bu, cal := ca, line := l, mgmt := mg, retention := q.retention } := by
  have k : Calm q { osc := q.osc, time := q.time, dialDriver := dd, bellGuard := bg, session := se, store := st,
                    clock := cl, tune := tu, lamps := la, budget := bu, cal := ca, line := l, mgmt := mg,
                    retention := q.retention } := calm_mk (Calm.refl q) hb h1 h2 h3 h4 h5 h6 h7
  exact h.trans ⟨k.osc, k.retention, k.takes, k.field, k.console, k.fits, k.lit⟩

@[simp] theorem drift_ite {c : Prop} [Decidable c] {a b : Part} (ha : Drift p a) (hb : Drift p b) :
    Drift p (if c then a else b) := by
  split <;> assumption

@[simp] theorem calm_tellTimeState {a b : TimeState} (h : Calm p q) : Calm p (tellTimeState a b q) := by
  unfold tellTimeState
  dsimp only
  (repeat' split) <;> simp (maxDischargeDepth := 40) [h]

@[simp] theorem calm_emitQuarter {b : Int} {l : Bool} (h : Calm p q) : Calm p (emitQuarter b l q) := by
  simp [emitQuarter, h]

/-! ## Calm operations that the Time Scale's own work calls -/


@[simp] theorem drift_tellTimeState {a b : TimeState} (h : Drift p q) : Drift p (tellTimeState a b q) := h.calm (calm_tellTimeState (Calm.refl q))
@[simp] theorem drift_emitQuarter {b : Int} {l : Bool} (h : Drift p q) : Drift p (emitQuarter b l q) := h.calm (calm_emitQuarter (Calm.refl q))
@[simp] theorem drift_dialsShifted (h : Drift p q) : Drift p (dialsShifted q) := h.calm (calm_dialsShifted (Calm.refl q))
@[simp] theorem drift_dialsSecond (h : Drift p q) : Drift p (dialsSecond q) := h.calm (calm_dialsSecond (Calm.refl q))
@[simp] theorem drift_calDateChange (h : Drift p q) : Drift p (calDateChange q) := h.calm (calm_calDateChange (Calm.refl q))
@[simp] theorem drift_calStepForward (h : Drift p q) : Drift p (calStepForward q) := h.calm (calm_calStepForward (Calm.refl q))
@[simp] theorem drift_rebuild (h : Drift p q) : Drift p (rebuild q) := h.calm (calm_rebuild (Calm.refl q))
@[simp] theorem drift_raiseMinor {k : FaultKind} {d : List Byte} (h : Drift p q) : Drift p (raiseMinor k d q) := h.calm (calm_raiseMinor (Calm.refl q))
@[simp] theorem drift_classOf {n : Nat} (h : Drift p q) : Drift p (classOf n q).1 := h.calm (calm_classOf (Calm.refl q))
@[simp] theorem drift_reply {s o : Nat} {c : Code} {d : List Byte} (h : Drift p q) : Drift p (reply s o c d q) := h.calm (calm_reply (Calm.refl q))
@[simp] theorem drift_takeCopy {i : Instr} (h : Drift p q) : Drift p (takeCopy i q) := h.calm (calm_takeCopy (Calm.refl q))

/-! ## The Time Scale's own work -/


@[simp] theorem drift_rangeEnd (h : Drift p q) : Drift p (rangeEnd q) := by
  unfold rangeEnd
  (try dsimp only)
  (repeat' split) <;> simp (maxDischargeDepth := 40) [*]

@[simp] theorem drift_recomputeOffset (h : Drift p q) : Drift p (recomputeOffset q) := by
  unfold recomputeOffset
  (try dsimp only)
  (repeat' split) <;> simp (maxDischargeDepth := 40) [*]

@[simp] theorem drift_evaluateDate (h : Drift p q) : Drift p (evaluateDate q) := by
  unfold evaluateDate
  (try dsimp only)
  (repeat' split) <;> simp (maxDischargeDepth := 40) [*]

@[simp] theorem drift_quarterAtSecond (h : Drift p q) : Drift p (quarterAtSecond q) := by
  unfold quarterAtSecond
  (try dsimp only)
  (repeat' split) <;> simp (maxDischargeDepth := 40) [*]

@[simp] theorem drift_crossedQuarters (h : Drift p q) : Drift p (crossedQuarters q) := by
  unfold crossedQuarters
  (try dsimp only)
  (repeat' split) <;> simp (maxDischargeDepth := 40) [*]

@[simp] theorem drift_quartersAfterStep {a : Int} (h : Drift p q) : Drift p (quartersAfterStep a q) := by
  unfold quartersAfterStep
  (try dsimp only)
  (repeat' split) <;> simp (maxDischargeDepth := 40) [*]

@[simp] theorem drift_secondWork (h : Drift p q) : Drift p (secondWork q) := by
  unfold secondWork
  (try dsimp only)
  (repeat' split) <;> simp (maxDischargeDepth := 40) [*]

@[simp] theorem drift_secondElapses (h : Drift p q) : Drift p (secondElapses q) := by
  unfold secondElapses
  (try dsimp only)
  (repeat' split) <;> simp (maxDischargeDepth := 40) [*]

@[simp] theorem drift_leaveUnset (h : Drift p q) : Drift p (leaveUnset q) := by
  unfold leaveUnset
  (try dsimp only)
  (repeat' split) <;> simp (maxDischargeDepth := 40) [*]

@[simp] theorem drift_afterStep {a : Int} {o : TimeState} (h : Drift p q) : Drift p (afterStep a o q) := by
  unfold afterStep
  (try dsimp only)
  (repeat' split) <;> simp (maxDischargeDepth := 40) [*]

@[simp] theorem drift_closeWindow {a : Reception} {n : Int} {w : Window} (h : Drift p q) : Drift p (closeWindow a n w q) := by
  unfold closeWindow
  dsimp only
  by_cases hc : limitTo 500 (q.time.trim - windowCorrection q.time.trim (n - w.opened) (w.ticks - a.back))
      = q.time.trim - windowCorrection q.time.trim (n - w.opened) (w.ticks - a.back)
  · simp only [hc, if_true]
    split <;> simp [h]
  · simp only [hc, if_false]
    split <;> simp (maxDischargeDepth := 40) [h]

@[simp] theorem drift_serveWindow {a : Reception} {n : Int} (h : Drift p q) : Drift p (serveWindow a n q) := by
  unfold serveWindow
  (try dsimp only)
  (repeat' split) <;> simp (maxDischargeDepth := 40) [*]

@[simp] theorem drift_secondPart (h : Drift p q) : Drift p (secondPart q) := by
  unfold secondPart
  split <;> simp [h]

@[simp] theorem drift_leaveHoldover (h : Drift p q) : Drift p (leaveHoldover q) := by
  unfold leaveHoldover
  split <;> simp [h]

@[simp] theorem drift_slew {a : Reception} {n o : Int} (h : Drift p q) : Drift p (slew a n o q) := by
  unfold slew
  (try dsimp only)
  (repeat' split) <;> simp (maxDischargeDepth := 40) [*]

@[simp] theorem drift_beyond {a : Reception} {n d : Int} (h : Drift p q) : Drift p (beyond a n d q) := by
  unfold beyond
  (try dsimp only)
  (repeat' split) <;> simp (maxDischargeDepth := 40) [*]

@[simp] theorem drift_setFromMark {a : Reception} {n : Int} {k : Nat} (h : Drift p q) : Drift p (setFromMark a n k q) := by
  unfold setFromMark
  (try dsimp only)
  (repeat' split) <;> simp (maxDischargeDepth := 40) [*]

@[simp] theorem drift_useMark {t : SourceClass} {a : Reception} {y m d c k : Nat} (h : Drift p q) : Drift p (useMark t a y m d c k q) := by
  unfold useMark
  (try dsimp only)
  (repeat' split) <;> simp (maxDischargeDepth := 40) [*]

@[simp] theorem drift_takeMark {s y m d c k : Nat} (h : Drift p q) : Drift p (takeMark s y m d c k q) := by
  unfold takeMark
  dsimp only
  split
  · exact drift_useMark (drift_takeCopy h)
  · exact drift_useMark (drift_classOf (drift_takeCopy h))

@[simp] theorem drift_silenceReached (h : Drift p q) : Drift p (silenceReached q) := by
  unfold silenceReached
  (try dsimp only)
  (repeat' split) <;> simp (maxDischargeDepth := 40) [*]

@[simp] theorem drift_setTime {y m d c : Nat} (h : Drift p q) : Drift p (setTime y m d c q).1 := by
  unfold setTime
  (try dsimp only)
  (repeat' split) <;> simp (maxDischargeDepth := 40) [*]

@[simp] theorem drift_seasonsChanged (h : Drift p q) : Drift p (seasonsChanged q) := by
  unfold seasonsChanged
  (try dsimp only)
  (repeat' split) <;> simp (maxDischargeDepth := 40) [*]

@[simp] theorem drift_seasonAdd {i : Nat} {o : Int} (h : Drift p q) : Drift p (seasonAdd i o q).1 := by
  unfold seasonAdd
  (try dsimp only)
  (repeat' split) <;> simp (maxDischargeDepth := 40) [*]

@[simp] theorem drift_seasonRemove {i : Nat} (h : Drift p q) : Drift p (seasonRemove i q).1 := by
  unfold seasonRemove
  (try dsimp only)
  (repeat' split) <;> simp (maxDischargeDepth := 40) [*]

@[simp] theorem drift_seasonBase {o : Int} (h : Drift p q) : Drift p (seasonBase o q).1 := by
  unfold seasonBase
  (try dsimp only)
  (repeat' split) <;> simp (maxDischargeDepth := 40) [*]

@[simp] theorem drift_writeTimeConfig {n : Nat} {bs : List Byte} (h : Drift p q) : Drift p (writeTimeConfig n bs q).1 := by
  unfold writeTimeConfig
  (repeat' split) <;> simp [timeConfigWritten, h]

/-- Every table but the time configuration is written without touching the Time Scale. -/
theorem calm_writeTable {t : Table} {n : Nat} {bs : List Byte} (ht : t ≠ .timeConfig) (h : Calm p q) :
    Calm p (writeTable t n bs q).1 := by
  cases t <;> first | exact absurd rfl ht | simp [writeTable, h]

@[simp] theorem drift_writeTable {t : Table} {n : Nat} {bs : List Byte} (h : Drift p q) :
    Drift p (writeTable t n bs q).1 := by
  by_cases ht : t = .timeConfig
  · subst ht; exact drift_writeTimeConfig h
  · exact h.calm (calm_writeTable ht (Calm.refl q))


@[simp] theorem drift_writeRecords {l : List (List Byte)} {c : Cursor} {n : Nat} (h : Drift p q) : Drift p (writeRecords l c n q).1 := by
  induction l generalizing q c n with
  | nil => exact h
  | cons bs l ih =>
    unfold writeRecords
    dsimp only
    (repeat' split) <;> simp [*]

/-- What a request does: its work, or what is calm. -/
theorem serve_cases (i : Instr) (s : Nat) (w : SourceClass → Part → Part) (p : Part) :
    ∃ q, Calm p q ∧ (serve i s w p = q ∨ ∃ c, serve i s w p = w c q) := by
  have k : Calm p (if (p.mgmt.inHand.any fun h => h.request = i) = true ∧ p.mgmt.replyWaiting.isNone = true then p
      else deliverRequest i s p) := by simp
  unfold serve
  dsimp only
  revert k
  generalize (if (p.mgmt.inHand.any fun h => h.request = i) = true ∧ p.mgmt.replyWaiting.isNone = true then p
      else deliverRequest i s p) = q
  intro k
  (repeat' split)
  · exact ⟨p, Calm.refl p, .inl rfl⟩
  · exact ⟨_, calm_reply k, .inl rfl⟩
  · exact ⟨q, k, .inr ⟨_, rfl⟩⟩
  · exact ⟨q, k, .inl rfl⟩
  · exact ⟨q, k, .inl rfl⟩

theorem drift_serve {i : Instr} {s : Nat} {w : SourceClass → Part → Part} (h : Drift p q)
    (hw : ∀ {c : SourceClass} {r : Part}, Drift p r → Drift p (w c r)) : Drift p (serve i s w q) := by
  obtain ⟨r, hr, e | ⟨c, e⟩⟩ := serve_cases i s w q
  · exact e ▸ h.calm hr
  · exact e ▸ hw (h.calm hr)

theorem drift_serveSimple {i : Instr} {s : Nat} {m : SourceClass} {op : Part → Part × Code} (h : Drift p q)
    (ho : ∀ {r : Part}, Drift p r → Drift p (op r).1) : Drift p (serveSimple i s m op q) := by
  refine drift_serve h fun {c r} hr => ?_
  dsimp only
  split <;> simp [ho hr, hr]


@[simp] theorem drift_writeWork {s t n : Nat} {l : List Byte} {c : SourceClass} (h : Drift p q) : Drift p (writeWork s t n l c q) := by
  unfold writeWork
  (try dsimp only)
  (repeat' split) <;> simp (maxDischargeDepth := 40) [*]

@[simp] theorem drift_writeNextRecords {s : Nat} {l : List Byte} {c : Cursor} (h : Drift p q) : Drift p (writeNextRecords s l c q) := by
  unfold writeNextRecords
  (try dsimp only)
  (repeat' split) <;> simp (maxDischargeDepth := 40) [*]

@[simp] theorem drift_writeNextWork {s : Nat} {l : List Byte} {c : SourceClass} (h : Drift p q) : Drift p (writeNextWork s l c q) := by
  unfold writeNextWork
  (try dsimp only)
  (repeat' split) <;> simp (maxDischargeDepth := 40) [*]

end Sys2Proof.Machine
end

