-- ==== Sys2Proof/Laws/Arbiter.lean ====
section
/-! SUPPORT. The field arbiter (R168): what it chooses, and one turn of it in each case. -/

namespace Sys2Proof.Machine

/-- What the arbiter chooses says what the queues hold (R168). -/
theorem choose_cases (l : LineSwitch) :
    (l.choose = .nothing ∧ l.safetyQ = [] ∧ l.localQ = [] ∧ l.passQ = [])
    ∨ (∃ s rest, l.choose = .safety s rest ∧ l.safetyQ = s :: rest)
    ∨ (∃ i rest, l.choose = .fromLocal i rest ∧ l.safetyQ = [] ∧ l.localQ = i :: rest
        ∧ (l.passQ = [] ∨ l.localRun ≠ Config.localRunLimit))
    ∨ (∃ i rest, l.choose = .pass i rest ∧ l.safetyQ = [] ∧ l.passQ = i :: rest
        ∧ (l.localQ = [] ∨ l.localRun = Config.localRunLimit)) := by
  unfold LineSwitch.choose
  cases hs : l.safetyQ with
  | cons s rest => exact .inr (.inl ⟨s, rest, rfl, rfl⟩)
  | nil =>
    cases hl : l.localQ with
    | nil =>
      cases hp : l.passQ with
      | nil => exact .inl ⟨rfl, rfl, rfl, rfl⟩
      | cons j rest => exact .inr (.inr (.inr ⟨j, rest, rfl, rfl, rfl, .inl rfl⟩))
    | cons i more =>
      cases hp : l.passQ with
      | nil => exact .inr (.inr (.inl ⟨i, more, rfl, rfl, rfl, .inl rfl⟩))
      | cons j rest =>
        by_cases hr : l.localRun = Config.localRunLimit
        · exact .inr (.inr (.inr ⟨j, rest, by simp [hr], rfl, rfl, .inr hr⟩))
        · exact .inr (.inr (.inl ⟨i, more, by simp [hr], rfl, rfl, .inr hr⟩))

/-- One turn of the arbiter: the frame of the queue chosen is taken, and where it is discarded the arbiter goes on. -/
def turn (p : Part) : Part × Bool :=
  match p.line.choose with
  | .nothing => (p, true)
  | .safety s rest => takeSetting s { p with line.safetyQ := rest }
  | .fromLocal i rest => takeLocal i (giveLocalPlace (levelTaken i { p with line.localQ := rest }))
  | .pass i rest => takePass i { p with line.passQ := rest }

theorem arbitrate_succ (k : Nat) (p : Part) :
    arbitrate (k + 1) p = if (turn p).2 then (turn p).1 else arbitrate k (turn p).1 := rfl

theorem turn_nothing {p : Part} (h : p.line.choose = .nothing) : turn p = (p, true) := by simp only [turn, h]

theorem turn_safety {p : Part} {s rest} (h : p.line.choose = .safety s rest) :
    turn p = takeSetting s { p with line.safetyQ := rest } := by simp only [turn, h]

theorem turn_local {p : Part} {i rest} (h : p.line.choose = .fromLocal i rest) :
    turn p = takeLocal i (giveLocalPlace (levelTaken i { p with line.localQ := rest })) := by simp only [turn, h]

theorem turn_pass {p : Part} {i rest} (h : p.line.choose = .pass i rest) :
    turn p = takePass i { p with line.passQ := rest } := by simp only [turn, h]

/-- A property that every turn keeps, the arbiter keeps. -/
theorem arbitrate_keeps {P : Part → Prop} (hP : ∀ p, P p → P (turn p).1) (k : Nat) {p : Part} (h : P p) :
    P (arbitrate k p) := by
  induction k generalizing p with
  | zero => exact h
  | succ k ih =>
    rw [arbitrate_succ]
    split
    · exact hP p h
    · exact ih (hP p h)

/-- A setting that fails its take check leaves nothing in flight that was not (R49). -/
theorem calm_settingLost (s : Setting) {p q : Part} (h : Calm p q) :
    Calm p (placeWanted (reengage s.bell (changeHammer s.bell (q.bell s.bell).stateBefore (discardTake q)))) := by
  simp (maxDischargeDepth := 40) [h]

/-- What a turn of the arbiter transmits: a setting or a strike that passed its check at that moment, or a frame that
needs none. -/
theorem takeSetting_cases (s : Setting) (p : Part) :
    (∃ q, Calm p q ∧ q.settingPasses s = true
        ∧ takeSetting s p = ({ q with line.fieldFlight := some (.setting s) }, true))
    ∨ ∃ q, Calm p q ∧ takeSetting s p = (q, false) := by
  have k : Calm p (p.putBell s.bell { p.bell s.bell with wanted := none }) := by simp
  unfold takeSetting
  dsimp only
  split
  · rename_i hp
    exact .inl ⟨_, k, hp, rfl⟩
  · exact .inr ⟨_, calm_settingLost s k, rfl⟩

end Sys2Proof.Machine
end

