-- ==== Sys2Proof/Laws/Copies.lean ====
section
/-! SUPPORT. What a copy that waits, or a frame delivered now, brings to the command that takes it: the dial that a
DIAL_HOME belongs to (R23, R34) and the monitor node of a FEED_STATE (R133). -/

namespace Sys2Proof.Machine

/-- At most one dial, or none, is the first with a node and channel. -/
theorem firstDial_unique {p : Part} {node channel : Nat} {a b : Option Nat} (ha : p.firstDial node channel a)
    (hb : p.firstDial node channel b) : a = b := by
  match a, b with
  | none, none => rfl
  | none, some d => exact (ha d hb.1 hb.2.1 ⟨hb.2.2.1, hb.2.2.2.1⟩).elim
  | some d, none => exact (hb d ha.1 ha.2.1 ⟨ha.2.2.1, ha.2.2.2.1⟩).elim
  | some c, some d =>
    obtain h | rfl | h := Nat.lt_trichotomy c d
    · exact (hb.2.2.2.2 c ha.1 h ⟨ha.2.2.1, ha.2.2.2.1⟩).elim
    · rfl
    · exact (ha.2.2.2.2 d hb.1 h ⟨hb.2.2.1, hb.2.2.2.1⟩).elim

/-- The dial found for a node and channel is the first with them. -/
theorem firstDial_dialAt (p : Part) (node channel : Nat) : p.firstDial node channel (dialAt node channel p) := by
  have h : dialNumbers = [1, 2, 3, 4] := rfl
  unfold dialAt
  rw [h]
  simp only [List.find?_cons, List.find?_nil, ← Bool.decide_and, decide_eq_true_eq]
  repeat' split
  all_goals
    simp only [Part.firstDial, decide_eq_true_eq, decide_eq_false_iff_not] at *
    try refine ⟨by omega, by omega, And.left ‹_›, And.right ‹_›, ?_⟩
    intro e h1 h2
    interval_cases e <;> assumption

/-- R34: `dialAt` answers the first dial record with a node and channel, and `none` exactly where no record has them. -/
theorem dialAt_eq_iff {p : Part} {node channel : Nat} {m : Option Nat} :
    dialAt node channel p = m ↔ p.firstDial node channel m :=
  ⟨fun h => h ▸ firstDial_dialAt p node channel, firstDial_unique (firstDial_dialAt p node channel)⟩

/-- R23, R34: the dial that a DIAL_HOME is taken for is the one its copy keeps, or the one that matches now. -/
theorem homeDialOf_eq_iff {p : Part} {src channel : Nat} {m : Option Nat} :
    p.homeDialOf src channel = m ↔ p.homeFrom src channel m := by
  unfold Part.homeDialOf Part.homeFrom
  cases p.copyOf (.dialHome src channel) <;> simp [dialAt_eq_iff]

/-- R133: the monitor node that a FEED_STATE is taken with is the one its copy keeps, or the present one. -/
theorem monitorOf_eq_iff {p : Part} {src : Nat} {st : Stage} {m : Option Nat} :
    p.monitorOf (.feedState src st) = m ↔ p.feedFrom src st m := by
  unfold Part.monitorOf Part.feedFrom
  cases p.copyOf (.feedState src st) <;> simp [eq_comm]

end Sys2Proof.Machine
end

