-- ==== Sys2Proof/Laws/Kept.lean ====
section
/-! SUPPORT. What an operation that is not dial d's own leaves of dial d. `Kept d p q` says that the part `q`, come from
`p`, has the same oscillator and address, that LOCAL has lost no DIAL_STEP and no place, that the dial's target and
configuration are as they were, that a dial which waits for no charge is left alone altogether, and that one which waits
either waits on or has been granted its charge. -/

namespace Sys2Proof.Machine

/-- The state that a waiting dial goes to when its charge is granted (R32, R36). -/
def DialState.onGrant (st : DialState) : DialState := if st = .unknown then .unknown else .advancing

/-- The oscillator and the address stand, and LOCAL has lost no DIAL_STEP and no place. -/
structure Still (p q : Part) : Prop where
  osc : q.osc = p.osc
  address : q.mgmt.address = p.mgmt.address
  places : p.line.localQ.length ≤ q.line.localQ.length
  steps : ∀ k f, LocalItem.dialStep k f ∈ p.line.localQ → LocalItem.dialStep k f ∈ q.line.localQ

/-- What is left of dial d by what the others do. -/
structure Kept (d : Nat) (p q : Part) : Prop extends Still p q where
  target : (q.dial d).target = (p.dial d).target
  config : (q.dial d).config = (p.dial d).config
  fewer : q.budget.waiting.count d ≤ p.budget.waiting.count d
  calm : d ∉ p.budget.waiting →
    q.dial d = p.dial d ∧ d ∉ q.budget.waiting ∧ q.budget.dialHolds d = p.budget.dialHolds d
  asked : p.budget.waiting.count d = 1 →
    (q.budget.waiting.count d = 1 ∧ q.dial d = p.dial d)
      ∨ (d ∉ q.budget.waiting ∧ q.budget.dialHolds d = true
          ∧ p.stepOffered q d { p.dial d with state := (p.dial d).state.onGrant })

variable {d : Nat} {p q r : Part}

theorem Still.refl (p : Part) : Still p p := ⟨rfl, rfl, Nat.le_refl _, fun _ _ h => h⟩

theorem Still.of_eq (h1 : q.osc = p.osc) (h2 : q.mgmt.address = p.mgmt.address) (h3 : q.line.localQ = p.line.localQ) :
    Still p q := ⟨h1, h2, Nat.le_of_eq (by rw [h3]), fun _ _ m => by rwa [h3]⟩

theorem Still.trans (h : Still p q) (k : Still q r) : Still p r :=
  ⟨k.osc.trans h.osc, k.address.trans h.address, Nat.le_trans h.places k.places,
    fun _ _ m => k.steps _ _ (h.steps _ _ m)⟩

@[simp] theorem Kept.refl (d : Nat) (p : Part) : Kept d p p :=
  ⟨Still.refl p, rfl, rfl, Nat.le_refl _, fun h => ⟨rfl, h, rfl⟩, fun h => .inl ⟨h, rfl⟩⟩

/-- A step once offered stays offered. -/
theorem stepOffered_mono {x : Dial} (h : p.stepOffered q d x) (k : Kept d q r) (hw : d ∉ q.budget.waiting) :
    p.stepOffered r d x := by
  obtain ⟨h1, h2⟩ := h
  have e := (k.calm hw).1
  refine ⟨fun ho => e.trans (h1 ho), fun ho => ?_⟩
  rcases h2 ho with ⟨a, b, c⟩ | ⟨a, b⟩
  · exact .inl ⟨a, e.trans b, k.steps _ _ c⟩
  · exact .inr ⟨Nat.le_trans a k.places, e.trans b⟩

/-- What is offered after others have acted counts as offered from where they began. -/
theorem stepOffered_from {x : Dial} (k : Still p q) (h : q.stepOffered r d x) : p.stepOffered r d x := by
  obtain ⟨h1, h2⟩ := h
  refine ⟨h1, fun ho => ?_⟩
  rcases h2 ho with ⟨a, b, c⟩ | ⟨a, b⟩
  · exact .inl ⟨Nat.lt_of_le_of_lt k.places a, by rw [b, k.osc], by rwa [k.address] at c⟩
  · exact .inr ⟨a, by rw [b, k.osc]⟩

theorem Kept.trans (h : Kept d p q) (k : Kept d q r) : Kept d p r where
  toStill := h.toStill.trans k.toStill
  target := k.target.trans h.target
  config := k.config.trans h.config
  fewer := Nat.le_trans k.fewer h.fewer
  calm hw :=
    let ⟨a, b, c⟩ := h.calm hw
    let ⟨x, y, z⟩ := k.calm b
    ⟨x.trans a, y, z.trans c⟩
  asked hw := by
    rcases h.asked hw with ⟨a, b⟩ | ⟨a, b, c⟩
    · rcases k.asked a with ⟨x, y⟩ | ⟨x, y, z⟩
      · exact .inl ⟨x, y.trans b⟩
      · rw [b] at z
        exact .inr ⟨x, y, stepOffered_from h.toStill z⟩
    · exact .inr ⟨(k.calm a).2.1, (k.calm a).2.2.trans b, stepOffered_mono c k a⟩

/-- An update that touches neither the dials, the waiting list, the drive charges nor LOCAL. -/
theorem Kept.of_eq (h1 : q.osc = p.osc) (h2 : q.mgmt.address = p.mgmt.address) (h3 : q.line.localQ = p.line.localQ)
    (h4 : q.dial d = p.dial d) (h5 : q.budget.waiting = p.budget.waiting)
    (h6 : q.budget.dialHolds d = p.budget.dialHolds d) : Kept d p q where
  toStill := ⟨h1, h2, Nat.le_of_eq (by rw [h3]), fun _ _ m => by rwa [h3]⟩
  target := by rw [h4]
  config := by rw [h4]
  fewer := Nat.le_of_eq (by rw [h5])
  calm hw := ⟨h4, by rwa [h5], h6⟩
  asked hw := .inl ⟨by rwa [h5], h4⟩

/-- The same, for a part written out. -/
@[simp] theorem kept_mk {t : TimeScale} {dd : DialDriver} {bg : BellGuard} {se : Session} {st : TuneStore}
    {cl : ClockVoice} {tu : TuneVoice} {la : LampController} {bu : FeedBudget} {ca : Calendar} {l : LineSwitch}
    {mg : Management} {re : Retention} (h : Kept d p q) (h1 : dd = q.dialDriver)
    (h2 : bu.waiting = q.budget.waiting) (h3 : bu.charges = q.budget.charges) (h4 : l.localQ = q.line.localQ)
    (h5 : mg.address = q.mgmt.address) :
    Kept d p { osc := q.osc, time := t, dialDriver := dd, bellGuard := bg, session := se, store := st, clock := cl,
               tune := tu, lamps := la, budget := bu, cal := ca, line := l, mgmt := mg, retention := re } :=
  h.trans (Kept.of_eq rfl h5 h4 (by subst h1; rfl) h2 (by simp only [FeedBudget.dialHolds, h3]))

@[simp] theorem kept_putBell {b : Nat} {x : Bell} (h : Kept d p q) : Kept d p (q.putBell b x) := by
  simp [Part.putBell, h]

@[simp] theorem kept_putGroup {g : Nat} {x : LampGroup} (h : Kept d p q) : Kept d p (q.putGroup g x) := by
  simp [Part.putGroup, h]

@[simp] theorem kept_putVoice {v : VoiceId} {x : Voice} (h : Kept d p q) : Kept d p (q.putVoice v x) := by
  cases v <;> simp [Part.putVoice, h]

@[simp] theorem kept_putEntry {n : Nat} {e : ScheduleEntry} (h : Kept d p q) : Kept d p (q.putEntry n e) := by
  simp [Part.putEntry, h]

@[simp] theorem kept_putLink {n : Nat} {l : CueLink} (h : Kept d p q) : Kept d p (q.putLink n l) := by
  simp [Part.putLink, h]

/-- The record of another dial is altered. -/
theorem kept_putDial {e : Nat} {x : Dial} (h : Kept d p q) (he : d ≠ e) : Kept d p (q.putDial e x) :=
  h.trans (Kept.of_eq rfl rfl rfl (dial_putDial_ne _ _ _ _ he) rfl rfl)

/-- The charges of others are altered. -/
theorem kept_charges {l : List Charge} (h : Kept d p q)
    (hl : l.any (fun c => c.holder = .dial d) = q.budget.charges.any (fun c => c.holder = .dial d)) :
    Kept d p { q with budget.charges := l } :=
  h.trans (Kept.of_eq rfl rfl rfl rfl rfl hl)

/-- LOCAL keeps its places and its DIAL_STEPs. -/
theorem kept_localQ {l : List LocalItem} (h : Kept d p q) (hn : q.line.localQ.length ≤ l.length)
    (hs : ∀ k f, LocalItem.dialStep k f ∈ q.line.localQ → LocalItem.dialStep k f ∈ l) :
    Kept d p { q with line.localQ := l } :=
  h.trans ⟨⟨rfl, rfl, hn, hs⟩, rfl, rfl, Nat.le_refl _, fun hw => ⟨rfl, hw, rfl⟩, fun hw => .inl ⟨hw, rfl⟩⟩

theorem kept_localQ_push {i : LocalItem} (h : Kept d p q) : Kept d p { q with line.localQ := q.line.localQ ++ [i] } :=
  kept_localQ h (by simp) (fun _ _ m => List.mem_append_left _ m)

@[simp] theorem kept_ite {c : Prop} [Decidable c] {a b : Part} (ha : Kept d p a) (hb : Kept d p b) :
    Kept d p (if c then a else b) := by
  split <;> assumption

/-- A fold of steps that keep dial d keeps it. -/
theorem kept_foldl {α : Type} {f : Part → α → Part} (l : List α) (hf : ∀ a ∈ l, ∀ q, Kept d q (f q a))
    (h : Kept d p q) : Kept d p (l.foldl f q) := by
  induction l generalizing q with
  | nil => exact h
  | cons a l ih => exact ih (fun b hb => hf b (List.mem_cons_of_mem _ hb)) (h.trans (hf a List.mem_cons_self q))

/-! ## Lamps and the Feed Budget -/

@[simp] theorem kept_offerLevel {g : Nat} (h : Kept d p q) : Kept d p (offerLevel g q) := by
  unfold offerLevel
  dsimp only
  split
  · exact h
  · split
    · simp (maxDischargeDepth := 40) [h]
    · split
      · refine kept_putGroup (kept_localQ h (by simp) fun k f m => ?_)
        refine List.mem_map.mpr ⟨_, m, ?_⟩
        simp [LocalItem.onChannel]
      · split
        · exact kept_putGroup (kept_localQ_push h)
        · simp (maxDischargeDepth := 40) [h]

theorem kept_addCharge {ho : Holder} {a : Nat} (h : Kept d p q) (hh : ho ≠ .dial d) : Kept d p (addCharge ho a q) := by
  unfold addCharge
  refine h.trans (Kept.of_eq rfl rfl rfl rfl rfl ?_)
  simp [FeedBudget.dialHolds, hh]

theorem setGroupCharge_dialHolds (d g a : Nat) (q : Part) :
    (setGroupCharge g a q).budget.dialHolds d = q.budget.dialHolds d := by
  unfold setGroupCharge
  split
  · rw [Bool.eq_iff_iff]
    simp only [FeedBudget.dialHolds, List.any_eq_true, List.mem_filter, decide_eq_true_eq, Charge.ofGroup]
    constructor
    · rintro ⟨c, ⟨hc, _⟩, e⟩
      exact ⟨c, hc, e⟩
    · rintro ⟨c, hc, e⟩
      exact ⟨c, ⟨hc, by simp [e]⟩, e⟩
  · split
    · simp only [FeedBudget.dialHolds, List.any_map]
      congr 1
      funext c
      simp only [Function.comp]
      split <;> rfl
    · simp [addCharge, FeedBudget.dialHolds]

@[simp] theorem kept_setGroupCharge {g a : Nat} (h : Kept d p q) : Kept d p (setGroupCharge g a q) := by
  refine h.trans (Kept.of_eq ?_ ?_ ?_ (dial_congr ?_ d) ?_ (setGroupCharge_dialHolds d g a q)) <;>
    (unfold setGroupCharge addCharge; (repeat' split) <;> rfl)

@[simp] theorem kept_lowerGroup {g l : Nat} (h : Kept d p q) : Kept d p (lowerGroup g l q) := by
  unfold lowerGroup
  simp (maxDischargeDepth := 40) [h]

@[simp] theorem kept_reclaimWalk {l : List Nat} {x : Nat} (h : Kept d p q) : Kept d p (reclaimWalk l x q) := by
  induction l generalizing q x with
  | nil => exact h
  | cons g l ih =>
    unfold reclaimWalk
    dsimp only
    (repeat' split) <;> simp (maxDischargeDepth := 40) [*]

@[simp] theorem kept_reclaim {x : Nat} (h : Kept d p q) : Kept d p (reclaim x q) := by
  unfold reclaim
  simp (maxDischargeDepth := 40) [h]

theorem kept_tryGrant {ho : Holder} {a : Nat} {r : Part × Bool} (h : Kept d p q) (hh : ho ≠ .dial d)
    (hr : tryGrant ho a q = some r) : Kept d p r.1 := by
  unfold tryGrant at hr
  split at hr <;> simp at hr <;> subst hr <;> exact kept_addCharge (by simp [h]) hh

theorem kept_offerStep {e : Nat} (h : Kept d p q) (he : d ≠ e) : Kept d p (offerStep e q) := by
  unfold offerStep
  dsimp only
  (repeat' split)
  · exact h
  · exact kept_putDial (kept_localQ_push h) he
  · exact kept_putDial h he

theorem kept_stopWaiting {e : Nat} (h : Kept d p q) (he : d ≠ e) : Kept d p (stopWaiting e q) := by
  unfold stopWaiting
  refine h.trans ⟨(Still.of_eq rfl rfl rfl), rfl, rfl, ?_, fun hw => ⟨rfl, ?_, rfl⟩, fun hw => .inl ⟨?_, rfl⟩⟩
  · exact Nat.le_of_eq (List.count_erase_of_ne he)
  · exact fun m => hw (List.mem_of_mem_erase m)
  · simpa [List.count_erase_of_ne he] using hw

theorem kept_dialGranted {e : Nat} (h : Kept d p q) (he : d ≠ e) : Kept d p (dialGranted e q) := by
  unfold dialGranted
  refine kept_offerStep ?_ he
  split
  · exact h
  · exact kept_putDial h he

/-- What an offer of a step does to the dial that makes it. -/
theorem stepOffered_offerStep (hd : 1 ≤ d ∧ d ≤ 4) : q.stepOffered (offerStep d q) d (q.dial d) := by
  unfold offerStep
  dsimp only
  refine ⟨fun ho => by simp [ho], fun ho => ?_⟩
  simp only [ho, Bool.false_eq_true, if_false]
  split
  · rename_i hl
    refine .inl ⟨by simpa [Config.localPlaces] using hl, by simp [hd], ?_⟩
    simp [dialFrame, kindDialStep]
  · rename_i hl
    exact .inr ⟨by simpa [Config.localPlaces] using hl, by simp [hd]⟩

/-! ## What the Budget's exchanges are, whoever asks -/

theorem still_offerStep {e : Nat} (h : Still p q) : Still p (offerStep e q) := by
  refine h.trans ?_
  unfold offerStep
  dsimp only
  (repeat' split)
  · exact Still.refl q
  · exact ⟨rfl, rfl, by simp, fun _ _ m => List.mem_append_left _ m⟩
  · exact (Still.of_eq rfl rfl rfl)

theorem still_tryGrant {ho : Holder} {a : Nat} {r : Part × Bool} (hr : tryGrant ho a q = some r) : Still q r.1 := by
  unfold tryGrant at hr
  split at hr <;> simp at hr <;> subst hr
  · exact (Still.of_eq rfl rfl rfl)
  · have k : ∀ x, Kept 0 q (reclaim x q) := fun x => kept_reclaim (Kept.refl 0 q)
    exact (k _).toStill.trans (Still.of_eq rfl rfl rfl)

/-- What lowering lamps leaves of the dials: their records, the waiting list and the drive charges. -/
def SameDials (p q : Part) : Prop :=
  q.dialDriver = p.dialDriver ∧ q.budget.waiting = p.budget.waiting ∧ ∀ d, q.budget.dialHolds d = p.budget.dialHolds d

theorem SameDials.trans (h : SameDials p q) (k : SameDials q r) : SameDials p r :=
  ⟨k.1.trans h.1, k.2.1.trans h.2.1, fun d => (k.2.2 d).trans (h.2.2 d)⟩

theorem setGroupCharge_dials (g a : Nat) (q : Part) : SameDials q (setGroupCharge g a q) := by
  refine ⟨?_, ?_, fun d => ?_⟩
  · unfold setGroupCharge addCharge
    (repeat' split) <;> rfl
  · unfold setGroupCharge addCharge
    (repeat' split) <;> rfl
  · exact setGroupCharge_dialHolds d g a q

theorem offerLevel_dials (g : Nat) (q : Part) : SameDials q (offerLevel g q) := by
  unfold offerLevel
  dsimp only
  (repeat' split) <;> exact ⟨rfl, rfl, fun _ => rfl⟩

theorem lowerGroup_dials (g l : Nat) (q : Part) : SameDials q (lowerGroup g l q) := by
  unfold lowerGroup
  dsimp only
  refine SameDials.trans ?_ (offerLevel_dials _ _)
  refine SameDials.trans (q := setGroupCharge g (chargeOf (q.group g).config.rated l) (q.putGroup g _)) ?_
    ⟨rfl, rfl, fun _ => rfl⟩
  exact SameDials.trans ⟨rfl, rfl, fun _ => rfl⟩ (setGroupCharge_dials _ _ _)

theorem reclaimWalk_dials (l : List Nat) (x : Nat) (q : Part) : SameDials q (reclaimWalk l x q) := by
  induction l generalizing x q with
  | nil => exact ⟨rfl, rfl, fun _ => rfl⟩
  | cons g l ih =>
    unfold reclaimWalk
    dsimp only
    (repeat' split)
    · exact ⟨rfl, rfl, fun _ => rfl⟩
    · exact lowerGroup_dials _ _ _
    · exact (lowerGroup_dials _ _ _).trans (ih _ _)

/-- The reclaim procedure leaves the dials and their charges alone. -/
theorem reclaim_dials (x : Nat) (q : Part) : SameDials q (reclaim x q) := reclaimWalk_dials _ _ _

/-- A charge granted to dial d enters the list; its record and the waiting list are left alone. -/
theorem tryGrant_own {a : Nat} {r : Part × Bool} (hr : tryGrant (.dial d) a q = some r) :
    r.1.dialDriver = q.dialDriver ∧ r.1.budget.waiting = q.budget.waiting ∧ r.1.budget.dialHolds d = true := by
  unfold tryGrant at hr
  split at hr <;> simp at hr <;> subst hr
  · exact ⟨rfl, rfl, by simp [addCharge, FeedBudget.dialHolds]⟩
  · exact ⟨(reclaim_dials _ _).1, (reclaim_dials _ _).2.1, by simp [addCharge, FeedBudget.dialHolds]⟩

/-- A dial that has been granted its charge: it waits no longer, and offers a step. -/
theorem dialGranted_own (hd : 1 ≤ d ∧ d ≤ 4) :
    q.stepOffered (dialGranted d q) d { q.dial d with state := (q.dial d).state.onGrant }
      ∧ (dialGranted d q).budget = q.budget ∧ Still q (dialGranted d q)
      ∧ ((dialGranted d q).dial d).target = (q.dial d).target
      ∧ ((dialGranted d q).dial d).config = (q.dial d).config := by
  have hb : ∀ r : Part, (offerStep d r).budget = r.budget := by
    intro r
    unfold offerStep
    dsimp only
    (repeat' split) <;> rfl
  have ht : ∀ r : Part, ((offerStep d r).dial d).target = (r.dial d).target
      ∧ ((offerStep d r).dial d).config = (r.dial d).config := by
    intro r
    unfold offerStep
    dsimp only
    (repeat' split)
    · exact ⟨rfl, rfl⟩
    · rw [dial_putDial_self _ _ _ hd]; exact ⟨rfl, rfl⟩
    · rw [dial_putDial_self _ _ _ hd]; exact ⟨rfl, rfl⟩
  unfold dialGranted
  dsimp only
  split
  · rename_i hs
    have e : { q.dial d with state := (q.dial d).state.onGrant } = q.dial d := by
      rw [hs]; simp [DialState.onGrant, ← hs]
    rw [e]
    exact ⟨stepOffered_offerStep hd, hb _, still_offerStep (Still.refl q), ht _⟩
  · rename_i hs
    have e : (q.putDial d { q.dial d with state := .advancing }).dial d
        = { q.dial d with state := (q.dial d).state.onGrant } := by
      rw [dial_putDial_self _ _ _ hd]; simp [DialState.onGrant, hs]
    have k := @stepOffered_offerStep d (q.putDial d { q.dial d with state := .advancing }) hd
    rw [e] at k
    refine ⟨stepOffered_from (Still.of_eq rfl rfl rfl) k, hb _, ?_, ?_⟩
    · exact still_offerStep (Still.of_eq rfl rfl rfl)
    · rw [(ht _).1, (ht _).2, e]; exact ⟨rfl, rfl⟩

/-! ## Re-offers -/

theorem kept_reofferOne {acc : Part × Bool} {e : Nat} (h : Kept d p acc.1) (he : d ≠ e) :
    Kept d p (reofferOne acc e).1 := by
  unfold reofferOne
  dsimp only
  split
  · rename_i hg
    refine kept_dialGranted (kept_stopWaiting ?_ he) he
    have k := kept_tryGrant h (by simpa using fun m => he m.symm) hg
    exact k.trans (Kept.of_eq rfl rfl rfl rfl rfl rfl)
  · simp (maxDischargeDepth := 40) [h]

/-- Dial d's own turn in a re-offer. -/
theorem kept_reofferOne_own {acc : Part × Bool} (h : Kept d p acc.1) (hd : 1 ≤ d ∧ d ≤ 4)
    (hw : d ∈ acc.1.budget.waiting) : Kept d p (reofferOne acc d).1 := by
  refine h.trans ?_
  unfold reofferOne
  dsimp only
  split
  · rename_i r lowered hg
    obtain ⟨a, b, c⟩ := tryGrant_own hg
    have st := still_tryGrant hg
    obtain ⟨x, y, z, u, v⟩ := @dialGranted_own d
      (stopWaiting d { r with budget.dialGrants := bump r.budget.dialGrants }) hd
    have e : (stopWaiting d { r with budget.dialGrants := bump r.budget.dialGrants }).dial d = acc.1.dial d :=
      dial_congr (p := acc.1) a d
    rw [e] at x u v
    have y' : Still r (stopWaiting d { r with budget.dialGrants := bump r.budget.dialGrants }) :=
      Still.of_eq rfl rfl rfl
    refine ⟨st.trans (y'.trans z), u, v, ?_, fun m => absurd hw m, fun m => .inr ⟨?_, ?_, ?_⟩⟩
    · rw [y]
      simp only [stopWaiting]
      rw [show r.budget.waiting = acc.1.budget.waiting from b]
      exact List.Sublist.count_le d (List.erase_sublist)
    · rw [y]
      simp only [stopWaiting]
      rw [← List.count_eq_zero, List.count_erase_self, show r.budget.waiting = acc.1.budget.waiting from b, m]
    · rw [y]; exact c
    · exact stepOffered_from (st.trans y') x
  · simp (maxDischargeDepth := 40)

/-- Another's turn in a re-offer leaves dial d's record, its waiting and its charge alone. -/
theorem reofferOne_apart {acc : Part × Bool} {e : Nat} (he : d ≠ e) :
    (reofferOne acc e).1.dial d = acc.1.dial d
      ∧ (reofferOne acc e).1.budget.waiting.count d = acc.1.budget.waiting.count d
      ∧ (reofferOne acc e).1.budget.dialHolds d = acc.1.budget.dialHolds d := by
  have go : ∀ q : Part, (offerStep e q).dial d = q.dial d ∧ (offerStep e q).budget = q.budget := by
    intro q
    unfold offerStep
    dsimp only
    (repeat' split)
    · exact ⟨rfl, rfl⟩
    · exact ⟨dial_putDial_ne _ _ _ _ he, rfl⟩
    · exact ⟨dial_putDial_ne _ _ _ _ he, rfl⟩
  have gr : ∀ q : Part, (dialGranted e q).dial d = q.dial d ∧ (dialGranted e q).budget = q.budget := by
    intro q
    unfold dialGranted
    dsimp only
    rw [(go _).1, (go _).2]
    split
    · exact ⟨rfl, rfl⟩
    · exact ⟨dial_putDial_ne _ _ _ _ he, rfl⟩
  have ad : ∀ (q : Part) (a : Nat), (addCharge (.dial e) a q).budget.dialHolds d = q.budget.dialHolds d := by
    intro q a
    simp [addCharge, FeedBudget.dialHolds, he.symm]
  unfold reofferOne
  dsimp only
  split
  · rename_i r lowered hg
    rw [(gr _).1, (gr _).2]
    unfold tryGrant at hg
    split at hg <;> simp at hg <;> obtain ⟨rfl, _⟩ := hg
    · exact ⟨rfl, List.count_erase_of_ne he, ad _ _⟩
    · have k := reclaim_dials ‹_› acc.1
      exact ⟨dial_congr k.1 d, (List.count_erase_of_ne he).trans (by simp [addCharge, k.2.1]), (ad _ _).trans (k.2.2 d)⟩
  · exact ⟨rfl, rfl, rfl⟩

theorem reofferOnes_apart {l : List Nat} {acc : Part × Bool} (hl : d ∉ l) :
    (l.foldl reofferOne acc).1.dial d = acc.1.dial d
      ∧ (l.foldl reofferOne acc).1.budget.waiting.count d = acc.1.budget.waiting.count d
      ∧ (l.foldl reofferOne acc).1.budget.dialHolds d = acc.1.budget.dialHolds d := by
  induction l generalizing acc with
  | nil => exact ⟨rfl, rfl, rfl⟩
  | cons e l ih =>
    have k := @reofferOne_apart d acc e fun m => hl (by simp [m])
    have j := @ih (reofferOne acc e) fun m => hl (List.mem_cons_of_mem _ m)
    exact ⟨j.1.trans k.1, j.2.1.trans k.2.1, j.2.2.trans k.2.2⟩

theorem kept_reofferOnes {l : List Nat} {acc : Part × Bool} (h : Kept d p acc.1) (hl : d ∉ l) :
    Kept d p (l.foldl reofferOne acc).1 := by
  induction l generalizing acc with
  | nil => exact h
  | cons e l ih =>
    exact ih (kept_reofferOne h fun m => hl (by simp [m])) fun m => hl (List.mem_cons_of_mem _ m)

/-- A dial that waits at most once, or not at all, is kept by a re-offer of every waiting dial. -/
theorem kept_reofferRound (h : Kept d p q) (hd : 1 ≤ d ∧ d ≤ 4) (hw : q.budget.waiting.count d ≤ 1) :
    Kept d p (q.budget.waiting.foldl reofferOne (q, false)).1 := by
  refine h.trans ?_
  by_cases hm : d ∈ q.budget.waiting
  · obtain ⟨a, b, hab⟩ := List.append_of_mem hm
    have hc : (a ++ d :: b).count d ≤ 1 := hab ▸ hw
    rw [List.count_append, List.count_cons_self] at hc
    have ha : d ∉ a := List.count_eq_zero.mp (by omega)
    have hb : d ∉ b := List.count_eq_zero.mp (by omega)
    have k1 : Kept d q (a.foldl reofferOne (q, false)).1 := kept_reofferOnes (Kept.refl d q) ha
    rw [hab, List.foldl_append, List.foldl_cons]
    have one : q.budget.waiting.count d = 1 := by
      rw [hab, List.count_append, List.count_cons_self, List.count_eq_zero.mpr ha, List.count_eq_zero.mpr hb]
    have ap := @reofferOnes_apart d a (q, false) ha
    have hm' : d ∈ (a.foldl reofferOne (q, false)).1.budget.waiting :=
      List.one_le_count_iff.mp (Nat.le_of_eq (ap.2.1.trans one).symm)
    exact kept_reofferOnes (kept_reofferOne_own k1 hd hm') hb
  · exact kept_reofferOnes (Kept.refl d q) hm

/-! ## Keeping a dial that waits at most once -/

/-- Dial d is kept, given that it is a dial and waits at most once. -/
def Keeps (d : Nat) (p q : Part) : Prop := (1 ≤ d ∧ d ≤ 4) → p.budget.waiting.count d ≤ 1 → Kept d p q

@[simp] theorem Keeps.refl (d : Nat) (p : Part) : Keeps d p p := fun _ _ => Kept.refl d p

theorem Keeps.trans (h : Keeps d p q) (k : Keeps d q r) : Keeps d p r :=
  fun hd hc => (h hd hc).trans (k hd (Nat.le_trans (h hd hc).fewer hc))

theorem Keeps.of_eq (h1 : q.osc = p.osc) (h2 : q.mgmt.address = p.mgmt.address) (h3 : q.line.localQ = p.line.localQ)
    (h4 : q.dialDriver = p.dialDriver) (h5 : q.budget.waiting = p.budget.waiting)
    (h6 : q.budget.dialHolds d = p.budget.dialHolds d) : Keeps d p q :=
  fun _ _ => Kept.of_eq h1 h2 h3 (dial_congr h4 d) h5 h6

@[simp] theorem keeps_mk {t : TimeScale} {dd : DialDriver} {bg : BellGuard} {se : Session} {st : TuneStore}
    {cl : ClockVoice} {tu : TuneVoice} {la : LampController} {bu : FeedBudget} {ca : Calendar} {l : LineSwitch}
    {mg : Management} {re : Retention} (h : Keeps d p q) (h1 : dd = q.dialDriver)
    (h2 : bu.waiting = q.budget.waiting) (h3 : bu.charges = q.budget.charges) (h4 : l.localQ = q.line.localQ)
    (h5 : mg.address = q.mgmt.address) :
    Keeps d p { osc := q.osc, time := t, dialDriver := dd, bellGuard := bg, session := se, store := st, clock := cl,
                tune := tu, lamps := la, budget := bu, cal := ca, line := l, mgmt := mg, retention := re } :=
  fun hd hc => kept_mk (h hd hc) h1 h2 h3 h4 h5

@[simp] theorem keeps_putBell {b : Nat} {x : Bell} (h : Keeps d p q) : Keeps d p (q.putBell b x) :=
  fun hd hc => kept_putBell (h hd hc)
@[simp] theorem keeps_putGroup {g : Nat} {x : LampGroup} (h : Keeps d p q) : Keeps d p (q.putGroup g x) :=
  fun hd hc => kept_putGroup (h hd hc)
@[simp] theorem keeps_putVoice {v : VoiceId} {x : Voice} (h : Keeps d p q) : Keeps d p (q.putVoice v x) :=
  fun hd hc => kept_putVoice (h hd hc)
@[simp] theorem keeps_putEntry {n : Nat} {e : ScheduleEntry} (h : Keeps d p q) : Keeps d p (q.putEntry n e) :=
  fun hd hc => kept_putEntry (h hd hc)
@[simp] theorem keeps_putLink {n : Nat} {l : CueLink} (h : Keeps d p q) : Keeps d p (q.putLink n l) :=
  fun hd hc => kept_putLink (h hd hc)
theorem keeps_putDial {e : Nat} {x : Dial} (h : Keeps d p q) (he : d ≠ e) : Keeps d p (q.putDial e x) :=
  fun hd hc => kept_putDial (h hd hc) he
theorem keeps_localQ_push {i : LocalItem} (h : Keeps d p q) :
    Keeps d p { q with line.localQ := q.line.localQ ++ [i] } := fun hd hc => kept_localQ_push (h hd hc)
theorem keeps_charges {l : List Charge} (h : Keeps d p q)
    (hl : l.any (fun c => c.holder = .dial d) = q.budget.charges.any (fun c => c.holder = .dial d)) :
    Keeps d p { q with budget.charges := l } := fun hd hc => kept_charges (h hd hc) hl
@[simp] theorem keeps_ite {c : Prop} [Decidable c] {a b : Part} (ha : Keeps d p a) (hb : Keeps d p b) :
    Keeps d p (if c then a else b) := by
  split <;> assumption
/-- A fold of steps that keep dial d keeps it. -/
theorem keeps_foldl {α : Type} {f : Part → α → Part} (hf : ∀ q a, Keeps d q (f q a)) (l : List α) (h : Keeps d p q) :
    Keeps d p (l.foldl f q) := by
  induction l generalizing q with
  | nil => exact h
  | cons a l ih => exact ih (h.trans (hf q a))

@[simp] theorem keeps_offerLevel {g : Nat} (h : Keeps d p q) : Keeps d p (offerLevel g q) :=
  fun hd hc => kept_offerLevel (h hd hc)
@[simp] theorem keeps_setGroupCharge {g a : Nat} (h : Keeps d p q) : Keeps d p (setGroupCharge g a q) :=
  fun hd hc => kept_setGroupCharge (h hd hc)
@[simp] theorem keeps_lowerGroup {g l : Nat} (h : Keeps d p q) : Keeps d p (lowerGroup g l q) :=
  fun hd hc => kept_lowerGroup (h hd hc)
@[simp] theorem keeps_reclaimWalk {l : List Nat} {x : Nat} (h : Keeps d p q) : Keeps d p (reclaimWalk l x q) :=
  fun hd hc => kept_reclaimWalk (h hd hc)
@[simp] theorem keeps_reclaim {x : Nat} (h : Keeps d p q) : Keeps d p (reclaim x q) :=
  fun hd hc => kept_reclaim (h hd hc)

@[simp] theorem keeps_reoffer {k : Nat} (h : Keeps d p q) : Keeps d p (reoffer k q) := by
  induction k generalizing q with
  | zero => exact h
  | succ k ih =>
    have round : Keeps d p (q.budget.waiting.foldl reofferOne (q, false)).1 :=
      h.trans fun hd hc => kept_reofferRound (Kept.refl d q) hd hc
    unfold reoffer
    dsimp only
    split
    · exact ih round
    · exact round

@[simp] theorem keeps_examine (h : Keeps d p q) : Keeps d p (examine q) := by
  unfold examine
  simp [h]

@[simp] theorem keeps_afterRelease (h : Keeps d p q) : Keeps d p (afterRelease q) := by
  unfold afterRelease
  simp [h]

@[simp] theorem keeps_releaseCharge {i : Nat} (h : Keeps d p q) : Keeps d p (releaseCharge i q) := by
  unfold releaseCharge
  split
  · refine keeps_afterRelease (keeps_charges h ?_)
    rw [Bool.eq_iff_iff]
    simp only [List.any_eq_true, List.mem_filter, decide_eq_true_eq, Charge.ofStrike]
    constructor
    · rintro ⟨c, ⟨hc, _⟩, e⟩
      exact ⟨c, hc, e⟩
    · rintro ⟨c, hc, e⟩
      exact ⟨c, ⟨hc, by simp [e]⟩, e⟩
  · exact h

/-- Another dial's charge is released. -/
theorem keeps_releaseDial {e : Nat} (h : Keeps d p q) (he : d ≠ e) : Keeps d p (releaseDial e q) := by
  unfold releaseDial
  split
  · refine keeps_afterRelease (keeps_charges h ?_)
    rw [Bool.eq_iff_iff]
    simp only [List.any_eq_true, List.mem_filter, decide_eq_true_eq]
    constructor
    · rintro ⟨c, ⟨hc, _⟩, k⟩
      exact ⟨c, hc, k⟩
    · rintro ⟨c, hc, k⟩
      exact ⟨c, ⟨hc, by simp [k, he]⟩, k⟩
  · exact h

@[simp] theorem keeps_afterGrant {b : Bool} (h : Keeps d p q) : Keeps d p (afterGrant b q) := by
  unfold afterGrant
  split <;> simp [h]

/-- Another dial asks for its drive charge. -/
theorem keeps_askDrive {e : Nat} (h : Keeps d p q) (he : d ≠ e) : Keeps d p (askDrive e q) := by
  refine h.trans ?_
  unfold askDrive
  dsimp only
  split
  · rename_i hg
    refine keeps_afterGrant fun hd hc => kept_dialGranted (kept_stopWaiting ?_ he) he
    have k := kept_tryGrant (Kept.refl d q) (by simpa using fun m => he m.symm) hg
    exact k.trans (Kept.of_eq rfl rfl rfl rfl rfl rfl)
  · refine keeps_putDial (fun hd hc => ?_) he
    have hcount : ∀ l : List Nat, (l ++ [e]).count d = l.count d := by
      intro l
      rw [List.count_append, List.count_singleton, if_neg (by simpa using he.symm)]
      rfl
    split
    · exact Kept.of_eq rfl rfl rfl rfl rfl rfl
    · refine ⟨Still.of_eq rfl rfl rfl, rfl, rfl, Nat.le_of_eq (hcount _), fun hw => ⟨rfl, ?_, rfl⟩,
        fun hw => .inl ⟨(hcount _).trans hw, rfl⟩⟩
      simpa [he] using hw

/-- A charge for a strike is asked for. -/
@[simp] theorem keeps_askStrike {b a : Nat} {o : Origin} (h : Keeps d p q) : Keeps d p (askStrike b o a q).1 := by
  refine h.trans ?_
  unfold askStrike
  dsimp only
  split
  · rename_i hg
    refine keeps_afterGrant fun hd hc => ?_
    have k := kept_tryGrant (Kept.refl d q) (by simp) hg
    exact k.trans (Kept.of_eq rfl rfl rfl rfl rfl rfl)
  · simp

/-! ## Dial d's own turn -/

/-- A dial that waits for nothing gives its charge back. -/
theorem releaseDial_own (hd : 1 ≤ d ∧ d ≤ 4) (hm : d ∉ q.budget.waiting) :
    Still q (releaseDial d q) ∧ (releaseDial d q).dial d = q.dial d
      ∧ d ∉ (releaseDial d q).budget.waiting ∧ (releaseDial d q).budget.dialHolds d = false := by
  unfold releaseDial
  split
  · generalize hr : ({ q with budget.charges := q.budget.charges.filter (fun c => c.holder ≠ .dial d) } : Part) = r
    have hq : Still q r := by subst hr; exact Still.of_eq rfl rfl rfl
    have hx : r.dial d = q.dial d := by subst hr; rfl
    have hw : d ∉ r.budget.waiting := by subst hr; exact hm
    have hh : r.budget.dialHolds d = false := by subst hr; simp [FeedBudget.dialHolds]
    have k : Kept d r (afterRelease r) := keeps_afterRelease (Keeps.refl d r) hd (by
      rw [List.count_eq_zero.mpr hw]; exact Nat.zero_le 1)
    obtain ⟨a, b, c⟩ := k.calm hw
    exact ⟨hq.trans k.toStill, a.trans hx, b, c.trans hh⟩
  · rename_i hh
    exact ⟨Still.refl q, rfl, hm, by simpa using hh⟩

/-- A dial comes to stand: it keeps its record but for the state, waits for nothing and holds no charge. -/
theorem restDial_own {st : DialState} (hd : 1 ≤ d ∧ d ≤ 4) (hc : q.budget.waiting.count d ≤ 1) :
    Still q (restDial d st q) ∧ (restDial d st q).dial d = { q.dial d with state := st }
      ∧ d ∉ (restDial d st q).budget.waiting ∧ (restDial d st q).budget.dialHolds d = false := by
  unfold restDial
  have hm : d ∉ (stopWaiting d (q.putDial d { q.dial d with state := st })).budget.waiting := by
    show d ∉ q.budget.waiting.erase d
    rw [← List.count_eq_zero, List.count_erase_self]
    omega
  obtain ⟨a, b, c, e⟩ := releaseDial_own hd hm
  have h : Still q (stopWaiting d (q.putDial d { q.dial d with state := st })) := Still.of_eq rfl rfl rfl
  exact ⟨h.trans a, b.trans (dial_putDial_self _ _ _ hd), c, e⟩

theorem offerStep_budget (d : Nat) (q : Part) : (offerStep d q).budget = q.budget := by
  unfold offerStep
  dsimp only
  (repeat' split) <;> rfl

/-- A dial asks for its drive charge: it is granted it and offers a step, or it waits. -/
theorem askDrive_own (hd : 1 ≤ d ∧ d ≤ 4) (hc : q.budget.waiting.count d ≤ 1) :
    Still q (askDrive d q)
      ∧ ((d ∉ (askDrive d q).budget.waiting ∧ (askDrive d q).budget.dialHolds d = true
            ∧ q.stepOffered (askDrive d q) d { q.dial d with state := (q.dial d).state.onGrant })
        ∨ ((askDrive d q).budget.waiting.count d = 1
            ∧ (askDrive d q).dial d = { q.dial d with
                state := if (q.dial d).state = .unknown then .unknown else .waitingFeed })) := by
  unfold askDrive
  dsimp only
  split
  · rename_i r lowered hg
    obtain ⟨a, b, c⟩ := tryGrant_own hg
    have st := still_tryGrant hg
    obtain ⟨x, y, z, _, _⟩ := @dialGranted_own d
      (stopWaiting d { r with budget.dialGrants := bump r.budget.dialGrants }) hd
    have e : (stopWaiting d { r with budget.dialGrants := bump r.budget.dialGrants }).dial d = q.dial d :=
      dial_congr (p := q) a d
    rw [e] at x
    have y' : Still r (stopWaiting d { r with budget.dialGrants := bump r.budget.dialGrants }) :=
      Still.of_eq rfl rfl rfl
    have hm : d ∉ (dialGranted d
        (stopWaiting d { r with budget.dialGrants := bump r.budget.dialGrants })).budget.waiting := by
      rw [y]
      simp only [stopWaiting]
      rw [← List.count_eq_zero, List.count_erase_self, show r.budget.waiting = q.budget.waiting from b]
      omega
    have k : Kept d _ (afterGrant lowered _) := keeps_afterGrant (Keeps.refl d (dialGranted d
      (stopWaiting d { r with budget.dialGrants := bump r.budget.dialGrants }))) hd (by
        rw [List.count_eq_zero.mpr hm]; exact Nat.zero_le 1)
    refine ⟨(st.trans (y'.trans z)).trans k.toStill, .inl ⟨(k.calm hm).2.1, (k.calm hm).2.2.trans ?_, ?_⟩⟩
    · rw [y]; exact c
    · exact stepOffered_mono (stepOffered_from (st.trans y') x) k hm
  · refine ⟨Still.of_eq rfl rfl rfl, .inr ⟨?_, dial_putDial_self _ _ _ hd⟩⟩
    show (if q.budget.waiting.contains d then q.budget.waiting else q.budget.waiting ++ [d]).count d = 1
    split
    · rename_i hm
      have := List.one_le_count_iff.mpr (by simpa using hm : d ∈ q.budget.waiting)
      omega
    · rename_i hm
      rw [List.count_append, List.count_eq_zero.mpr (by simpa using hm)]
      simp

end Sys2Proof.Machine
end

