-- ==== Sys2Proof/Laws/DialTurns.lean ====
section
/-! SUPPORT. What the dials do when tower time moves: the evaluation of one dial in its turn, and the four dials one
after the other at a second boundary, a CIVIL_SHIFT or a TIME_STEP, and when tower time comes. -/

namespace Sys2Proof.Machine

variable {d : Nat} {p q r : Part}

theorem forward_eq {P a b : Nat} (ha : a < P) : forward P a b = (b + P - a) % P := by
  unfold forward
  rw [Nat.mod_eq_of_lt ha]
  congr 1
  omega

theorem behind_eq {x : Dial} {e t : Nat} (he : x.effective = some e) (ht : x.target = some t) (h : e < x.positions) :
    x.behind = some ((t + x.positions - e) % x.positions) := by
  simp only [Dial.behind, he, ht, forward_eq h]

theorem ahead_eq {x : Dial} {e t : Nat} (he : x.effective = some e) (ht : x.target = some t) (h : t < x.positions) :
    x.ahead = some ((e + x.positions - t) % x.positions) := by
  simp only [Dial.ahead, he, ht, forward_eq h]

/-- The state of a driven dial (R27). -/
def DialState.driven (st : DialState) : Prop := st = .inStep ∨ st = .advancing ∨ st = .waitingFeed ∨ st = .holding

/-- R27: the evaluation of a driven dial, case by case. -/
theorem evaluateDial_own {x : Dial} {e t bh ah : Nat} (hd : 1 ≤ d ∧ d ≤ 4) (hc : q.budget.waiting.count d ≤ 1)
    (hx : x = q.dial d) (hs : x.state.driven) (he : x.effective = some e) (ht : x.target = some t)
    (he' : e < x.positions) (ht' : t < x.positions) (hb : bh = (t + x.positions - e) % x.positions)
    (ha : ah = (e + x.positions - t) % x.positions) :
    Still q (evaluateDial d q)
    ∧ (bh = 0 ∨ (2 ≤ bh ∧ ah ≤ x.config.holdLimit) →
        (evaluateDial d q).dial d = { x with state := if bh = 0 then .inStep else .holding }
          ∧ (evaluateDial d q).budget.dialHolds d = false ∧ d ∉ (evaluateDial d q).budget.waiting)
    ∧ (bh = 1 → x.state ≠ .advancing →
        q.stepOffered (evaluateDial d q) d { x with state := .inStep }
          ∧ (evaluateDial d q).budget.dialHolds d = false ∧ d ∉ (evaluateDial d q).budget.waiting)
    ∧ (x.state = .advancing → bh = 1 ∨ (2 ≤ bh ∧ x.config.holdLimit < ah) → evaluateDial d q = q)
    ∧ (x.state = .waitingFeed → 2 ≤ bh → x.config.holdLimit < ah → evaluateDial d q = q)
    ∧ (x.state = .inStep ∨ x.state = .holding → 2 ≤ bh → x.config.holdLimit < ah →
        evaluateDial d q = askDrive d q) := by
  have h1 := behind_eq he ht he'
  have h2 := ahead_eq he ht ht'
  rw [← hb] at h1
  rw [← ha] at h2
  have ev : evaluateDial d q =
      (if bh = 0 then restDial d .inStep q
       else if bh = 1 then (if x.state = .advancing then q else offerStep d (restDial d .inStep q))
       else if ah ≤ x.config.holdLimit then restDial d .holding q
       else if x.state = .advancing ∨ x.state = .waitingFeed then q else askDrive d q) := by
    unfold evaluateDial
    dsimp only
    rw [← hx, if_pos (show x.state = .inStep ∨ x.state = .advancing ∨ x.state = .waitingFeed ∨ x.state = .holding from hs),
      h1, h2]
  have rest := fun st => @restDial_own d q st hd hc
  rw [ev]
  refine ⟨?_, ?_, ?_, ?_, ?_, ?_⟩
  · (repeat' split)
    · exact (rest _).1
    · exact Still.refl q
    · exact still_offerStep (rest _).1
    · exact (rest _).1
    · exact Still.refl q
    · exact (askDrive_own hd hc).1
  · intro h
    by_cases h0 : bh = 0
    · simp only [h0, if_true]
      exact ⟨hx ▸ (rest _).2.1, (rest _).2.2.2, (rest _).2.2.1⟩
    · have h' : 2 ≤ bh ∧ ah ≤ x.config.holdLimit := by simpa [h0] using h
      simp only [h0, if_false, show bh ≠ 1 by omega, h'.2, if_true]
      exact ⟨hx ▸ (rest _).2.1, (rest _).2.2.2, (rest _).2.2.1⟩
  · intro h hn
    subst h
    simp only [hn, if_false, if_true, Nat.one_ne_zero]
    rw [offerStep_budget]
    refine ⟨?_, (rest _).2.2.2, (rest _).2.2.1⟩
    have k := @stepOffered_offerStep d (restDial d .inStep q) hd
    rw [(rest _).2.1, ← hx] at k
    exact stepOffered_from (rest _).1 k
  · rintro h (k | ⟨k, l⟩)
    · simp [h, k]
    · simp [h, show bh ≠ 0 by omega, show bh ≠ 1 by omega, show ¬ ah ≤ x.config.holdLimit by omega]
  · intro h k l
    simp [h, show bh ≠ 0 by omega, show bh ≠ 1 by omega, show ¬ ah ≤ x.config.holdLimit by omega]
  · intro h k l
    have : ¬ (x.state = .advancing ∨ x.state = .waitingFeed) := by rcases h with h | h <;> simp [h]
    simp [this, show bh ≠ 0 by omega, show bh ≠ 1 by omega, show ¬ ah ≤ x.config.holdLimit by omega]

/-- Nothing of dial d has changed. -/
structure Apart (d : Nat) (p q : Part) : Prop where
  still : Still p q
  dial : q.dial d = p.dial d
  waiting : q.budget.waiting = p.budget.waiting
  charges : q.budget.charges = p.budget.charges

theorem Apart.refl (d : Nat) (p : Part) : Apart d p p := ⟨Still.refl p, rfl, rfl, rfl⟩

theorem Apart.trans (h : Apart d p q) (k : Apart d q r) : Apart d p r :=
  ⟨h.still.trans k.still, k.dial.trans h.dial, k.waiting.trans h.waiting, k.charges.trans h.charges⟩

/-- What has come of dial d in its turn stands when the others have acted: they keep it, and where it waits unasked they
leave it apart. -/
theorem evaluated_after {x : Dial} (hd : 1 ≤ d ∧ d ≤ 4) (hc : q.budget.waiting.count d ≤ 1)
    (hx : x = q.dial d) (hs : x.state.driven) (h1 : Still p q) (h2 : Kept d (evaluateDial d q) r)
    (h3 : d ∈ q.budget.waiting → Apart d (evaluateDial d q) r) : p.evaluated r d x := by
  intro e t bh ah he ht he' ht' hb ha
  obtain ⟨_, a, b, c, f, g⟩ := evaluateDial_own hd hc hx hs he ht he' ht' hb ha
  have same : evaluateDial d q = q → r.dial d = x := by
    intro k
    rw [k] at h2 h3
    by_cases m : d ∈ q.budget.waiting
    · rw [(h3 m).dial, hx]
    · rw [(h2.calm m).1, hx]
  refine ⟨fun k => ?_, fun k l => ?_, fun k l => same (c k l), fun k l m => same (f k l m), fun k l m => ?_⟩
  · obtain ⟨x1, x2, x3⟩ := a k
    obtain ⟨y1, y2, y3⟩ := h2.calm x3
    exact ⟨y1.trans x1, y3.trans x2, y2⟩
  · obtain ⟨x1, x2, x3⟩ := b k l
    obtain ⟨y1, y2, y3⟩ := h2.calm x3
    exact ⟨stepOffered_mono (stepOffered_from h1 x1) h2 x3, y3.trans x2, y2⟩
  · rw [g k l m] at h2
    have hu : x.state ≠ .unknown := by rcases k with k | k <;> simp [k]
    have hg : x.state.onGrant = .advancing := by simp [DialState.onGrant, hu]
    obtain ⟨st, own⟩ := @askDrive_own d q hd hc
    rw [← hx, hg, if_neg hu] at own
    rcases own with ⟨x1, x2, x3⟩ | ⟨x1, x2⟩
    · exact .inl ⟨(h2.calm x1).2.2.trans x2, stepOffered_mono (stepOffered_from h1 x3) h2 x1⟩
    · rcases h2.asked x1 with ⟨y1, y2⟩ | ⟨y1, y2, y3⟩
      · exact .inr ⟨List.one_le_count_iff.mp (by omega), y2.trans x2⟩
      · rw [x2] at y3
        exact .inl ⟨y2, stepOffered_from (h1.trans st) y3⟩

/-! ## Targets -/

theorem state_putDial_target (q : Part) (e k : Nat) (t : Option Nat) :
    ((q.putDial e { q.dial e with target := t }).dial k).state = (q.dial k).state := by
  by_cases hk : k = e
  · subst hk
    by_cases hr : 1 ≤ k ∧ k ≤ 4
    · rw [dial_putDial_self _ _ _ hr]
    · simp [Part.dial, Part.putDial, bankPut1_outside _ _ _ hr]
  · rw [dial_putDial_ne _ _ _ _ hk]

/-- Every dial has the target and the configuration it had. -/
def SameTargets (p q : Part) : Prop := ∀ k, (q.dial k).target = (p.dial k).target ∧ (q.dial k).config = (p.dial k).config

theorem SameTargets.refl (p : Part) : SameTargets p p := fun _ => ⟨rfl, rfl⟩

theorem SameTargets.trans (h : SameTargets p q) (k : SameTargets q r) : SameTargets p r :=
  fun d => ⟨(k d).1.trans (h d).1, (k d).2.trans (h d).2⟩

theorem SameTargets.of_eq (h : q.dialDriver = p.dialDriver) : SameTargets p q := fun k => by
  rw [dial_congr h k]; exact ⟨rfl, rfl⟩

theorem targets_putDial {e : Nat} {x : Dial} (h : x.target = (q.dial e).target) (hc : x.config = (q.dial e).config) :
    SameTargets q (q.putDial e x) := by
  intro k
  by_cases hk : k = e
  · subst hk
    by_cases hr : 1 ≤ k ∧ k ≤ 4
    · rw [dial_putDial_self _ _ _ hr, h, hc]; exact ⟨rfl, rfl⟩
    · simp [Part.dial, Part.putDial, bankPut1_outside _ _ _ hr]
  · rw [dial_putDial_ne _ _ _ _ hk]; exact ⟨rfl, rfl⟩

theorem targets_offerStep (e : Nat) (q : Part) : SameTargets q (offerStep e q) := by
  unfold offerStep
  dsimp only
  (repeat' split)
  · exact SameTargets.refl q
  · exact SameTargets.trans (SameTargets.of_eq rfl) (targets_putDial rfl rfl)
  · exact targets_putDial rfl rfl

theorem targets_dialGranted (e : Nat) (q : Part) : SameTargets q (dialGranted e q) := by
  unfold dialGranted
  refine SameTargets.trans ?_ (targets_offerStep _ _)
  split
  · exact SameTargets.refl q
  · exact targets_putDial rfl rfl

theorem targets_reofferOne (acc : Part × Bool) (e : Nat) : SameTargets acc.1 (reofferOne acc e).1 := by
  unfold reofferOne
  dsimp only
  split
  · rename_i hg
    exact SameTargets.trans (SameTargets.of_eq (tryGrant_own hg).1) (targets_dialGranted _ _)
  · exact SameTargets.of_eq rfl

theorem targets_reoffer (k : Nat) (q : Part) : SameTargets q (reoffer k q) := by
  have round : ∀ (l : List Nat) (acc : Part × Bool), SameTargets acc.1 (l.foldl reofferOne acc).1 := by
    intro l
    induction l with
    | nil => exact fun acc => SameTargets.refl _
    | cons e l ih => exact fun acc => (targets_reofferOne acc e).trans (ih _)
  induction k generalizing q with
  | zero => exact SameTargets.refl q
  | succ k ih =>
    unfold reoffer
    dsimp only
    split
    · exact (round _ (q, false)).trans (ih _)
    · exact round _ (q, false)

theorem targets_afterRelease (q : Part) : SameTargets q (afterRelease q) :=
  SameTargets.trans (targets_reoffer 5 q) (SameTargets.of_eq rfl)

theorem targets_restDial (e : Nat) (st : DialState) (q : Part) : SameTargets q (restDial e st q) := by
  unfold restDial releaseDial
  have h : SameTargets q (stopWaiting e (q.putDial e { q.dial e with state := st })) :=
    SameTargets.trans (q := q.putDial e { q.dial e with state := st }) (targets_putDial rfl rfl) (SameTargets.of_eq rfl)
  split
  · refine h.trans (SameTargets.trans ?_ (targets_afterRelease _))
    exact SameTargets.of_eq rfl
  · exact h

theorem targets_afterGrant (b : Bool) (q : Part) : SameTargets q (afterGrant b q) := by
  unfold afterGrant
  split
  · exact targets_afterRelease _
  · exact SameTargets.of_eq rfl

theorem targets_askDrive (e : Nat) (q : Part) : SameTargets q (askDrive e q) := by
  unfold askDrive
  dsimp only
  split
  · rename_i hg
    refine SameTargets.trans ?_ (targets_afterGrant _ _)
    refine SameTargets.trans ?_ (targets_dialGranted _ _)
    exact SameTargets.of_eq (tryGrant_own hg).1
  · exact SameTargets.trans (SameTargets.of_eq rfl) (targets_putDial rfl rfl)

theorem targets_evaluateDial (e : Nat) (q : Part) : SameTargets q (evaluateDial e q) := by
  unfold evaluateDial
  dsimp only
  split
  · split
    · split
      · exact targets_restDial _ _ _
      · split
        · split
          · exact SameTargets.refl q
          · exact (targets_restDial _ _ _).trans (targets_offerStep _ _)
        · split
          · exact targets_restDial _ _ _
          · split
            · exact SameTargets.refl q
            · exact targets_askDrive _ _
    · exact SameTargets.refl q
  · exact SameTargets.refl q

/-! ## The others' turns -/

theorem keeps_restDial {e : Nat} {st : DialState} (h : Keeps d p q) (he : d ≠ e) : Keeps d p (restDial e st q) := by
  unfold restDial
  exact keeps_releaseDial (fun hd hc => kept_stopWaiting (kept_putDial (h hd hc) he) he) he

theorem keeps_evaluateDial {e : Nat} (h : Keeps d p q) (he : d ≠ e) : Keeps d p (evaluateDial e q) := by
  unfold evaluateDial
  dsimp only
  (repeat' split) <;> first
    | exact h
    | exact keeps_restDial h he
    | exact fun hd hc => kept_offerStep (keeps_restDial h he hd hc) he
    | exact keeps_askDrive h he

theorem keeps_reformTarget {b : Bool} {e : Nat} (h : Keeps d p q) (he : d ≠ e) : Keeps d p (reformTarget b e q) := by
  unfold reformTarget
  dsimp only
  split
  · exact keeps_evaluateDial (keeps_putDial h he) he
  · exact keeps_putDial h he

theorem keeps_dialSecond {e : Nat} (h : Keeps d p q) (he : d ≠ e) : Keeps d p (dialSecond e q) := by
  unfold dialSecond
  dsimp only
  (repeat' split)
  · exact keeps_reformTarget h he
  · exact fun hd hc => kept_offerStep (h hd hc) he
  · exact h

/-- The turn of another dial that is not driven leaves dial d apart. -/
def DialState.undriven (st : DialState) : Prop := st = .stopped ∨ st = .unknown ∨ st = .fault

theorem evaluateDial_undriven {e : Nat} (h : (q.dial e).state.undriven) : evaluateDial e q = q := by
  unfold evaluateDial
  dsimp only
  rw [if_neg]
  rcases h with h | h | h <;> simp [h]

theorem reformTarget_undriven {b : Bool} {e : Nat} (h : (q.dial e).state.undriven) :
    reformTarget b e q = q.putDial e { q.dial e with target := targetOf (q.dial e).config.stepPeriod q.time } := by
  unfold reformTarget
  dsimp only
  split
  · exact evaluateDial_undriven (by rwa [state_putDial_target])
  · rfl

theorem config_putDial_target (q : Part) (e k : Nat) (t : Option Nat) :
    ((q.putDial e { q.dial e with target := t }).dial k).config = (q.dial k).config := by
  by_cases hk : k = e
  · subst hk
    by_cases hr : 1 ≤ k ∧ k ≤ 4
    · rw [dial_putDial_self _ _ _ hr]
    · simp [Part.dial, Part.putDial, bankPut1_outside _ _ _ hr]
  · rw [dial_putDial_ne _ _ _ _ hk]

theorem reformTarget_targets (b : Bool) (e : Nat) (q : Part) :
    SameTargets (q.putDial e { q.dial e with target := targetOf (q.dial e).config.stepPeriod q.time })
      (reformTarget b e q) := by
  unfold reformTarget
  dsimp only
  split
  · exact targets_evaluateDial _ _
  · exact SameTargets.refl _

/-- The dials' turns of one occasion: the operation `turn` of each dial in dial-number order. -/
structure Turn (turn : Nat → Part → Part) : Prop where
  time : ∀ (e : Nat) (q : Part), (turn e q).time = q.time
  others : ∀ {d e : Nat} {q : Part}, d ≠ e → ((turn e q).dial d).target = (q.dial d).target
  config : ∀ (d e : Nat) (q : Part), ((turn e q).dial d).config = (q.dial d).config
  target : ∀ {d : Nat} {q : Part}, 1 ≤ d ∧ d ≤ 4 →
    ((turn d q).dial d).target = targetOf (q.dial d).config.stepPeriod q.time
  keeps : ∀ {d e : Nat} {q : Part}, d ≠ e → Keeps d q (turn e q)
  apart : ∀ {d e : Nat} {q : Part}, d ≠ e → (q.dial e).state.undriven →
    Apart d q (turn e q) ∧ ∀ k, ((turn e q).dial k).state = (q.dial k).state

theorem turn_reformTarget (b : Bool) : Turn (reformTarget b) where
  time _ _ := (calm_reformTarget (Calm.refl _)).time
  others {d e q} he := by
    rw [(reformTarget_targets b e q d).1, dial_putDial_ne _ _ _ _ he]
  config d e q := by
    rw [(reformTarget_targets b e q d).2]
    exact config_putDial_target _ _ _ _
  target {d q} hd := by
    rw [(reformTarget_targets b d q d).1, dial_putDial_self _ _ _ hd]
  keeps he := keeps_reformTarget (Keeps.refl _ _) he
  apart he hu := by
    rw [reformTarget_undriven hu]
    exact ⟨⟨Still.of_eq rfl rfl rfl, dial_putDial_ne _ _ _ _ he, rfl, rfl⟩, fun k => state_putDial_target _ _ _ _⟩

theorem turn_dialSecond : Turn dialSecond where
  time _ _ := (calm_dialSecond (Calm.refl _)).time
  others {d e q} he := by
    unfold dialSecond
    dsimp only
    (repeat' split)
    · exact (turn_reformTarget false).others he
    · exact (targets_offerStep e q d).1
    · rfl
  config d e q := by
    unfold dialSecond
    dsimp only
    (repeat' split)
    · exact (turn_reformTarget false).config d e q
    · exact (targets_offerStep e q d).2
    · rfl
  target {d q} hd := by
    unfold dialSecond
    dsimp only
    split
    · exact (turn_reformTarget false).target hd
    · rename_i h
      have h : targetOf (q.dial d).config.stepPeriod q.time = (q.dial d).target := by simpa using h
      split
      · exact (targets_offerStep d q d).1.trans h.symm
      · exact h.symm
  keeps he := keeps_dialSecond (Keeps.refl _ _) he
  apart {d e q} he hu := by
    unfold dialSecond
    dsimp only
    split
    · exact (turn_reformTarget false).apart he hu
    · rw [if_neg (by rcases hu with h | h | h <;> simp [h])]
      exact ⟨Apart.refl _ _, fun _ => rfl⟩

section Fold

variable {turn : Nat → Part → Part}

theorem Turn.keeps_fold (ht : Turn turn) {l : List Nat} (hl : d ∉ l) : Keeps d q (l.foldl (fun p e => turn e p) q) := by
  induction l generalizing q with
  | nil => exact Keeps.refl _ _
  | cons e l ih =>
    exact (ht.keeps fun m => hl (by simp [m])).trans (ih fun m => hl (List.mem_cons_of_mem _ m))

theorem Turn.apart_fold (ht : Turn turn) {l : List Nat} (hl : d ∉ l) (hu : ∀ e ∈ l, (q.dial e).state.undriven) :
    Apart d q (l.foldl (fun p e => turn e p) q)
      ∧ ∀ k, ((l.foldl (fun p e => turn e p) q).dial k).state = (q.dial k).state := by
  induction l generalizing q with
  | nil => exact ⟨Apart.refl _ _, fun _ => rfl⟩
  | cons e l ih =>
    obtain ⟨a, b⟩ := ht.apart (d := d) (e := e) (q := q) (fun m => hl (by simp [m])) (hu e List.mem_cons_self)
    obtain ⟨x, y⟩ := @ih (turn e q) (fun m => hl (List.mem_cons_of_mem _ m))
      (fun k hk => by rw [b]; exact hu k (List.mem_cons_of_mem _ hk))
    exact ⟨a.trans x, fun k => (y k).trans (b k)⟩

theorem Turn.time_fold (ht : Turn turn) (l : List Nat) (q : Part) :
    (l.foldl (fun p e => turn e p) q).time = q.time := by
  induction l generalizing q with
  | nil => rfl
  | cons e l ih => exact (ih _).trans (ht.time _ _)

theorem Turn.config_fold (ht : Turn turn) (l : List Nat) (q : Part) :
    ((l.foldl (fun p e => turn e p) q).dial d).config = (q.dial d).config := by
  induction l generalizing q with
  | nil => rfl
  | cons e l ih => exact (ih _).trans (ht.config _ _ _)

theorem Turn.target_fold (ht : Turn turn) {l : List Nat} (hl : d ∉ l) (q : Part) :
    ((l.foldl (fun p e => turn e p) q).dial d).target = (q.dial d).target := by
  induction l generalizing q with
  | nil => rfl
  | cons e l ih =>
    exact (ih (fun m => hl (List.mem_cons_of_mem _ m)) _).trans (ht.others fun m => hl (by simp [m]))

/-- Every dial comes out of the four turns with its target formed. -/
theorem Turn.formed (ht : Turn turn) (hd : 1 ≤ d ∧ d ≤ 4) (p : Part) :
    ((dialNumbers.foldl (fun p e => turn e p) p).dial d).target = targetOf (p.dial d).config.stepPeriod p.time := by
  have hm : d ∈ dialNumbers := by
    obtain ⟨a, b⟩ := hd
    simp only [dialNumbers, oneTo, List.mem_map, List.mem_range]
    exact ⟨d - 1, by omega, by omega⟩
  obtain ⟨l, m, hlm⟩ := List.append_of_mem hm
  have hn : (l ++ d :: m).Nodup := hlm ▸ (by decide : dialNumbers.Nodup)
  have hm' : d ∉ m := (List.nodup_cons.mp (List.nodup_append.mp hn).2.1).1
  rw [hlm, List.foldl_append, List.foldl_cons, ht.target_fold hm', ht.target hd, ht.config_fold, ht.time_fold]

/-- The four turns, taken apart at dial d: the ones before it, its own, and the ones behind it. -/
theorem Turn.split (ht : Turn turn) (hd : 1 ≤ d ∧ d ≤ 4) (hw : p.undisturbed d) :
    ∃ q : Part, Still p q ∧ q.time = p.time ∧ q.dial d = p.dial d ∧ q.budget.waiting.count d ≤ 1
      ∧ Keeps d (turn d q) (dialNumbers.foldl (fun p e => turn e p) p)
      ∧ (d ∈ q.budget.waiting → Apart d (turn d q) (dialNumbers.foldl (fun p e => turn e p) p)) := by
  have hm : d ∈ dialNumbers := by
    obtain ⟨a, b⟩ := hd
    simp only [dialNumbers, oneTo, List.mem_map, List.mem_range]
    exact ⟨d - 1, by omega, by omega⟩
  have hr : ∀ e ∈ dialNumbers, 1 ≤ e ∧ e ≤ 4 := by
    intro e he
    simp only [dialNumbers, oneTo, List.mem_map, List.mem_range] at he
    omega
  obtain ⟨l, m, hlm⟩ := List.append_of_mem hm
  have hn : (l ++ d :: m).Nodup := hlm ▸ (by decide : dialNumbers.Nodup)
  have hl : d ∉ l := fun h => (List.nodup_append.mp hn).2.2 d h d List.mem_cons_self rfl
  have hm' : d ∉ m := (List.nodup_cons.mp (List.nodup_append.mp hn).2.1).1
  rw [hlm] at hr ⊢
  rw [List.foldl_append, List.foldl_cons]
  refine ⟨l.foldl (fun p e => turn e p) p, ?_⟩
  rcases hw with hw | ⟨hw, hu⟩
  · have c0 : p.budget.waiting.count d ≤ 1 := by rw [List.count_eq_zero.mpr hw]; exact Nat.zero_le 1
    have k := @Turn.keeps_fold d p turn ht l hl hd c0
    refine ⟨k.toStill, ht.time_fold _ _, (k.calm hw).1, Nat.le_trans k.fewer c0, ht.keeps_fold hm',
      fun h => absurd h (k.calm hw).2.1⟩
  · have ul : ∀ e ∈ l, (p.dial e).state.undriven := fun e he => by
      have := hr e (List.mem_append_left _ he)
      exact hu e this.1 this.2 fun h => hl (h ▸ he)
    obtain ⟨a, b⟩ := @Turn.apart_fold d p turn ht l hl ul
    refine ⟨a.still, ht.time_fold _ _, a.dial, by rw [a.waiting, hw]; simp, ht.keeps_fold hm', fun _ => ?_⟩
    refine (ht.apart_fold hm' fun e he => ?_).1
    have re := hr e (List.mem_append_right _ (List.mem_cons_of_mem _ he))
    have ne : e ≠ d := fun h => hm' (h ▸ he)
    have nw : e ∉ (l.foldl (fun p e => turn e p) p).budget.waiting := by rw [a.waiting, hw]; simpa using ne
    have k := @Turn.keeps turn ht e d (l.foldl (fun p e => turn e p) p) ne re (by
      rw [List.count_eq_zero.mpr nw]; exact Nat.zero_le 1)
    rw [(k.calm nw).1, b]
    exact hu e re.1 re.2 ne

end Fold

/-! ## Following the Time Scale -/

theorem evaluateDial_count (hd : 1 ≤ d ∧ d ≤ 4) (hc : q.budget.waiting.count d ≤ 1) :
    (evaluateDial d q).budget.waiting.count d ≤ 1 := by
  have rest : ∀ st, (restDial d st q).budget.waiting.count d ≤ 1 := fun st => by
    rw [List.count_eq_zero.mpr (@restDial_own d q st hd hc).2.2.1]
    exact Nat.zero_le 1
  have ask : (askDrive d q).budget.waiting.count d ≤ 1 := by
    rcases (@askDrive_own d q hd hc).2 with ⟨h, _⟩ | ⟨h, _⟩
    · rw [List.count_eq_zero.mpr h]; exact Nat.zero_le 1
    · exact Nat.le_of_eq h
  unfold evaluateDial
  dsimp only
  (repeat' split) <;> first
    | exact hc
    | exact rest _
    | exact ask
    | (rw [offerStep_budget]; exact rest _)

theorem evaluateDial_untargeted (h : (q.dial d).target = none) : evaluateDial d q = q := by
  unfold evaluateDial
  dsimp only
  split
  · simp [Dial.behind, h]
  · rfl

theorem reformTarget_unset {b : Bool} (hd : 1 ≤ d ∧ d ≤ 4) (hu : q.time.state = .unset) :
    reformTarget b d q = q.putDial d { q.dial d with target := none } := by
  have ht : targetOf (q.dial d).config.stepPeriod q.time = none := by rw [targetOf, if_pos hu]
  unfold reformTarget
  dsimp only
  rw [ht]
  split
  · exact evaluateDial_untargeted (by rw [dial_putDial_self _ _ _ hd])
  · rfl

theorem evaluateDial_lost {x : Dial} (hx : x = q.dial d) (he : x.effective = none) : evaluateDial d q = q := by
  unfold evaluateDial
  dsimp only
  rw [← hx, show x.behind = none by simp [Dial.behind, he]]
  split <;> rfl

theorem targetOf_set (hu : p.time.state ≠ .unset) (d : Nat) :
    targetOf (p.dial d).config.stepPeriod p.time = some (p.targetFor d) := by
  rw [targetOf, if_neg hu]
  rfl

/-- What dial d has become in its turn stands, and the others leave it. -/
theorem rested_after {x : Dial} (hd : 1 ≤ d ∧ d ≤ 4) (hc : q.budget.waiting.count d ≤ 1) (hx : q.dial d = x)
    (h2 : Keeps d q r) (h3 : d ∈ q.budget.waiting → Apart d q r) : r.dial d = x := by
  by_cases m : d ∈ q.budget.waiting
  · rw [(h3 m).dial, hx]
  · rw [((h2 hd hc).calm m).1, hx]

/-- R25: the target formed and the dial evaluated, with the others' turns behind it. -/
theorem evaluated_reformed {x y : Dial} {t : Nat} (hd : 1 ≤ d ∧ d ≤ 4) (hc : q.budget.waiting.count d ≤ 1)
    (hy : y = { x with target := some t }) (h1 : Still p q)
    (h2 : Keeps d (evaluateDial d (q.putDial d y)) r)
    (h3 : d ∈ q.budget.waiting → Apart d (evaluateDial d (q.putDial d y)) r) :
    (x.state.undriven ∨ x.effective = none → r.dial d = y) ∧ (x.state.driven → p.evaluated r d y) := by
  have hy' : y = (q.putDial d y).dial d := (dial_putDial_self _ _ _ hd).symm
  have c' := evaluateDial_count (q := q.putDial d y) hd hc
  have nw : d ∈ (q.putDial d y).budget.waiting ↔ d ∈ q.budget.waiting := Iff.rfl
  refine ⟨fun h => ?_, fun h => ?_⟩
  · have e : evaluateDial d (q.putDial d y) = q.putDial d y := by
      rcases h with h | h
      · refine evaluateDial_undriven ?_
        rw [← hy', hy]
        exact h
      · exact evaluateDial_lost hy' (by rw [hy]; exact h)
    rw [e] at h2 h3
    exact rested_after (q := q.putDial d y) hd hc hy'.symm h2 h3
  · exact evaluated_after (q := q.putDial d y) hd hc hy' (by rw [hy]; exact h) (h1.trans (Still.of_eq rfl rfl rfl)) (h2 hd c') h3

theorem dialsShifted_follows (hd : 1 ≤ d ∧ d ≤ 4) (hu : p.time.state ≠ .unset) :
    p.dialFollows (dialsShifted p) d True := by
  have ht := turn_reformTarget true
  have time : (dialsShifted p).time = p.time := ht.time_fold _ _
  have conf : ((dialsShifted p).dial d).config = (p.dial d).config := ht.config_fold _ _
  intro x y t hx h hy
  have h' : t = p.targetFor d := by
    rw [h]; simp only [Part.targetFor, time, conf]
  refine ⟨(ht.formed hd p).trans (by rw [targetOf_set hu, h']), fun hw => ?_⟩
  obtain ⟨q, a, b, c, e, f, g⟩ := ht.split hd hw
  have turn : reformTarget true d q = evaluateDial d (q.putDial d y) := by
    unfold reformTarget
    dsimp only
    rw [if_pos (.inl rfl), c, b, targetOf_set hu, ← hx, ← h', ← hy]
  rw [turn] at f g
  have k := evaluated_reformed hd e hy a f g
  refine ⟨fun hs => k.1 ?_, fun hs => ⟨fun _ => k.2 hs, fun n => absurd trivial n⟩⟩
  rcases hs with hs | hs | hs | hs
  · exact .inl (.inl hs)
  · exact .inl (.inr (.inl hs))
  · exact .inl (.inr (.inr hs))
  · exact .inr hs

theorem behind_one {x : Dial} {e t : Nat} (he : x.effective = some e) (ht : x.target = some t)
    (h : e < x.positions) : x.behind = some 1 ↔ (t + x.positions - e) % x.positions = 1 := by
  rw [behind_eq he ht h]
  exact ⟨fun k => Option.some.inj k, fun k => by rw [k]⟩

theorem dialsSecond_follows (hd : 1 ≤ d ∧ d ≤ 4) (hu : p.time.state ≠ .unset) :
    p.dialFollows (dialsSecond p) d False := by
  have ht := turn_dialSecond
  have time : (dialsSecond p).time = p.time := ht.time_fold _ _
  have conf : ((dialsSecond p).dial d).config = (p.dial d).config := ht.config_fold _ _
  intro x y t hx h hy
  have h' : t = p.targetFor d := by
    rw [h]; simp only [Part.targetFor, time, conf]
  refine ⟨(ht.formed hd p).trans (by rw [targetOf_set hu, h']), fun hw => ?_⟩
  obtain ⟨q, a, b, c, e, f, g⟩ := ht.split hd hw
  have hxq : x = q.dial d := hx.trans c.symm
  have tgt : targetOf (q.dial d).config.stepPeriod q.time = some t := by rw [c, b, targetOf_set hu, ← h']
  have hy' : y = (q.putDial d y).dial d := (dial_putDial_self _ _ _ hd).symm
  change Keeps d (dialSecond d q) (dialsSecond p) at f
  change d ∈ q.budget.waiting → Apart d (dialSecond d q) (dialsSecond p) at g
  by_cases same : x.target = some t
  · have yx : y = x := by rw [hy, ← same]
    have turn : dialSecond d q = if x.state = .inStep ∧ x.behind = some 1 then offerStep d q else q := by
      unfold dialSecond
      dsimp only
      rw [tgt, ← hxq, if_neg (by simp [same])]
    have noStep : ¬ (x.state = .inStep ∧ x.behind = some 1) → (dialsSecond p).dial d = x := by
      intro n
      rw [turn, if_neg n] at f g
      exact rested_after hd e hxq.symm f g
    refine ⟨fun hs => ?_, fun hs => ⟨fun o => ?_, fun _ _ i hi hp => ⟨fun k l => ?_, fun k => noStep ?_⟩⟩⟩
    · rw [yx]
      refine noStep ?_
      rcases hs with hs | hs | hs | hs
      · simp [hs]
      · simp [hs]
      · simp [hs]
      · simp [Dial.behind, hs]
    · exact absurd same (by simpa using o)
    · rw [turn, if_pos ⟨k, (behind_one hi same hp).mpr l⟩] at f g
      rw [yx]
      have o := @stepOffered_offerStep d q hd
      rw [← hxq] at o
      have bu : (offerStep d q).budget.waiting = q.budget.waiting := by rw [offerStep_budget]
      by_cases m : d ∈ q.budget.waiting
      · obtain ⟨o1, o2⟩ := stepOffered_from a o
        have ap := g m
        refine ⟨fun z => ap.dial.trans (o1 z), fun z => ?_⟩
        rcases o2 z with ⟨o2, o3, o4⟩ | ⟨o2, o3⟩
        · exact .inl ⟨o2, ap.dial.trans o3, ap.still.steps _ _ o4⟩
        · exact .inr ⟨Nat.le_trans o2 ap.still.places, ap.dial.trans o3⟩
      · exact stepOffered_mono (stepOffered_from a o) (f hd (by rw [bu]; exact e)) (by rwa [bu])
    · rcases k with k | k
      · exact fun z => k z.1
      · exact fun z => k ((behind_one hi same hp).mp z.2)
  · have turn : dialSecond d q = evaluateDial d (q.putDial d y) := by
      unfold dialSecond reformTarget
      dsimp only
      rw [tgt, ← hxq, if_pos (fun z => same z.symm), if_pos (.inr fun z => same z.symm), ← hy]
    rw [turn] at f g
    have k := evaluated_reformed hd e hy a f g
    refine ⟨fun hs => k.1 ?_, fun hs => ⟨fun _ => k.2 hs, fun _ z => absurd z same⟩⟩
    rcases hs with hs | hs | hs | hs
    · exact .inl (.inl hs)
    · exact .inl (.inr (.inl hs))
    · exact .inl (.inr (.inr hs))
    · exact .inr hs

/-! ## Tower time comes -/

theorem keeps_raiseMinor {k : FaultKind} {l : List Byte} (h : Keeps d p q) : Keeps d p (raiseMinor k l q) := by
  simp only [raiseMinor, noticeFault, sendNotice, offerNotice]
  split <;> simp [h]

theorem keeps_faultDial {e : Nat} (h : Keeps d p q) (he : d ≠ e) : Keeps d p (faultDial e q) :=
  keeps_raiseMinor (keeps_putDial (keeps_restDial h he) he)

theorem keeps_beginSearch {e : Nat} (h : Keeps d p q) (he : d ≠ e) : Keeps d p (beginSearch e q) :=
  keeps_askDrive (keeps_putDial h he) he

theorem keeps_leavesStopped {e : Nat} (h : Keeps d p q) (he : d ≠ e) : Keeps d p (dialLeavesStopped e q) := by
  have k := fun x => keeps_putDial (x := x) h he
  unfold dialLeavesStopped
  dsimp only
  (repeat' split)
  · exact k _
  · exact keeps_restDial (k _) he
  · exact keeps_faultDial (k _) he
  · exact keeps_beginSearch (k _) he
  · exact keeps_evaluateDial (keeps_putDial (k _) he) he

theorem calm_dialLeavesStopped' (e : Nat) (q : Part) : (dialLeavesStopped e q).time = q.time :=
  (calm_dialLeavesStopped (Calm.refl q)).time

theorem keeps_leaveFold {l : List Nat} (hl : d ∉ l) :
    Keeps d q (l.foldl (fun p e => dialLeavesStopped e p) q) := by
  induction l generalizing q with
  | nil => exact Keeps.refl _ _
  | cons e l ih =>
    exact (keeps_leavesStopped (Keeps.refl _ _) fun m => hl (by simp [m])).trans
      (ih fun m => hl (List.mem_cons_of_mem _ m))

theorem time_leaveFold (l : List Nat) (q : Part) :
    (l.foldl (fun p e => dialLeavesStopped e p) q).time = q.time := by
  induction l generalizing q with
  | nil => rfl
  | cons e l ih => exact (ih _).trans (calm_dialLeavesStopped' e q)

theorem faultDial_own (hd : 1 ≤ d ∧ d ≤ 4) (hc : q.budget.waiting.count d ≤ 1) :
    (faultDial d q).dial d = { q.dial d with state := .fault, faultRaised := true }
      ∧ d ∉ (faultDial d q).budget.waiting ∧ (faultDial d q).budget.dialHolds d = false := by
  obtain ⟨_, a, b, c⟩ := @restDial_own d q .fault hd hc
  obtain ⟨r, hr⟩ : ∃ r, r = (restDial d .fault q).putDial d { (restDial d .fault q).dial d with faultRaised := true } :=
    ⟨_, rfl⟩
  have e : faultDial d q = raiseMinor .dialFault [byte d] r := by rw [hr]; rfl
  have nw : d ∉ r.budget.waiting := by rw [hr]; exact b
  have k := keeps_raiseMinor (k := .dialFault) (l := [byte d]) (Keeps.refl d r) hd (by
    rw [List.count_eq_zero.mpr nw]; exact Nat.zero_le 1)
  obtain ⟨x, y, z⟩ := k.calm nw
  rw [e]
  refine ⟨x.trans ?_, y, z.trans ?_⟩
  · rw [hr, dial_putDial_self _ _ _ hd, a]
  · rw [hr]; exact c

/-- R36: a dial begins its search: it holds its drive charge and has offered a step, or it waits. -/
theorem beginSearch_own {x : Dial} (hd : 1 ≤ d ∧ d ≤ 4) (hc : q.budget.waiting.count d ≤ 1)
    (hx : x = { q.dial d with searchCount := 0 }) (h1 : Still p q) (h2 : Kept d (beginSearch d q) r) :
    p.driveAsked r d x .unknown .unknown := by
  obtain ⟨q', hq⟩ : ∃ q', q' = q.putDial d { q.dial d with state := .unknown, searchCount := 0 } := ⟨_, rfl⟩
  have e : beginSearch d q = askDrive d q' := by rw [hq]; rfl
  have xq : q'.dial d = { x with state := .unknown } := by rw [hq, dial_putDial_self _ _ _ hd, hx]
  have st : Still p q' := by rw [hq]; exact h1.trans (Still.of_eq rfl rfl rfl)
  rw [e] at h2
  obtain ⟨sa, own⟩ := @askDrive_own d q' hd (by rw [hq]; exact hc)
  rw [xq] at own
  rcases own with ⟨a, b, c⟩ | ⟨a, b⟩
  · exact .inl ⟨(h2.calm a).2.2.trans b, stepOffered_mono (stepOffered_from st c) h2 a⟩
  · rcases h2.asked a with ⟨y1, y2⟩ | ⟨y1, y2, y3⟩
    · exact .inr ⟨List.one_le_count_iff.mp (by omega), y2.trans b⟩
    · rw [b] at y3
      exact .inl ⟨y2, stepOffered_from (st.trans sa) y3⟩

/-- R36, R38: where no dial waits for a charge, every STOPPED one leaves STOPPED as tower time comes. -/
theorem dialsLeave_starts (hd : 1 ≤ d ∧ d ≤ 4) (hu : p.time.state ≠ .unset) (hs : (p.dial d).state = .stopped)
    (hw : d ∉ p.budget.waiting) :
    p.dialStarts (dialNumbers.foldl (fun p e => dialLeavesStopped e p) p) d := by
  generalize hr : dialNumbers.foldl (fun p e => dialLeavesStopped e p) p = r
  have hm : d ∈ dialNumbers := by
    obtain ⟨a, b⟩ := hd
    simp only [dialNumbers, oneTo, List.mem_map, List.mem_range]
    exact ⟨d - 1, by omega, by omega⟩
  obtain ⟨l, m, hlm⟩ := List.append_of_mem hm
  have hn : (l ++ d :: m).Nodup := hlm ▸ (by decide : dialNumbers.Nodup)
  have hl : d ∉ l := fun h => (List.nodup_append.mp hn).2.2 d h d List.mem_cons_self rfl
  have hm' : d ∉ m := (List.nodup_cons.mp (List.nodup_append.mp hn).2.1).1
  have c0 : p.budget.waiting.count d ≤ 1 := by rw [List.count_eq_zero.mpr hw]; exact Nat.zero_le 1
  have time : r.time = p.time := by rw [← hr]; exact time_leaveFold _ _
  have k := @keeps_leaveFold d p l hl hd c0
  obtain ⟨q, hq⟩ : ∃ q, q = l.foldl (fun p e => dialLeavesStopped e p) p := ⟨_, rfl⟩
  rw [← hq] at k
  obtain ⟨dial, nw, _⟩ := k.calm hw
  have tq : q.time = p.time := by rw [hq]; exact time_leaveFold _ _
  have c1 : q.budget.waiting.count d ≤ 1 := Nat.le_trans k.fewer c0
  have f : Keeps d (dialLeavesStopped d q) r := by
    have := @keeps_leaveFold d (dialLeavesStopped d q) m hm'
    rwa [← hr, hlm, List.foldl_append, List.foldl_cons, ← hq]
  -- dial d's own turn
  obtain ⟨z, hz⟩ : ∃ z, z = { p.dial d with target := some (p.targetFor d) } := ⟨_, rfl⟩
  obtain ⟨q1, hq1⟩ : ∃ q1, q1 = q.putDial d z := ⟨_, rfl⟩
  have x1 : q1.dial d = z := by rw [hq1]; exact dial_putDial_self _ _ _ hd
  have c2 : q1.budget.waiting.count d ≤ 1 := by rw [hq1]; exact c1
  have s1 : Still p q1 := by rw [hq1]; exact k.toStill.trans (Still.of_eq rfl rfl rfl)
  have turn : dialLeavesStopped d q =
      if z.misses = 3 then (if z.faultRaised then restDial d .fault q1 else faultDial d q1)
      else if z.indicated.isNone then beginSearch d q1
      else evaluateDial d (q1.putDial d { z with state := .inStep }) := by
    unfold dialLeavesStopped
    dsimp only
    rw [dial, tq, targetOf_set hu, ← hz, ← hq1, x1, if_neg (by simp [hs])]
    simp only [hz]
  -- the configuration stands, and with it the target
  have target : r.targetFor d = p.targetFor d := by
    have own : ((dialLeavesStopped d q).dial d).config = (p.dial d).config
        ∧ (dialLeavesStopped d q).budget.waiting.count d ≤ 1 := by
      have none : ∀ {l : List Nat}, d ∉ l → l.count d ≤ 1 := fun h => by
        rw [List.count_eq_zero.mpr h]; exact Nat.zero_le 1
      have zc : z.config = (p.dial d).config := by rw [hz]
      have rest := @restDial_own d q1 .fault hd c2
      have fault := @faultDial_own d q1 hd c2
      rw [turn]
      split
      · split
        · exact ⟨by rw [rest.2.1, x1, zc], none rest.2.2.1⟩
        · exact ⟨by rw [fault.1, x1, zc], none fault.2.1⟩
      · split
        · refine ⟨?_, ?_⟩
          · unfold beginSearch
            rw [(targets_askDrive _ _ _).2, dial_putDial_self _ _ _ hd, x1, zc]
          · rcases (@askDrive_own d (q1.putDial d { q1.dial d with state := .unknown, searchCount := 0 }) hd c2).2 with
              ⟨h, _⟩ | ⟨h, _⟩
            · exact none h
            · exact Nat.le_of_eq h
        · refine ⟨?_, evaluateDial_count hd c2⟩
          rw [(targets_evaluateDial _ _ _).2, dial_putDial_self _ _ _ hd, zc]
    rw [Part.targetFor, time, ((f hd own.2).config).trans own.1]
    rfl
  intro y hy
  rw [target, ← hz] at hy
  subst hy
  refine ⟨fun hm3 => ?_, fun hm3 hi => ?_, fun hm3 hi => ?_⟩
  · rw [turn, if_pos hm3] at f
    have fin : ∀ {v : Part}, Keeps d v r → v.dial d = { y with state := .fault, faultRaised := true } →
        d ∉ v.budget.waiting → v.budget.dialHolds d = false →
        r.dial d = { y with state := .fault, faultRaised := true } ∧ r.budget.dialHolds d = false
          ∧ d ∉ r.budget.waiting := fun h a b c => by
      obtain ⟨u, v, w⟩ := (h hd (by rw [List.count_eq_zero.mpr b]; exact Nat.zero_le 1)).calm b
      exact ⟨u.trans a, w.trans c, v⟩
    split at f
    · rename_i hf
      have o := @restDial_own d q1 .fault hd c2
      refine fin f (o.2.1.trans ?_) o.2.2.1 o.2.2.2
      rw [x1, ← hf]
    · have o := @faultDial_own d q1 hd c2
      exact fin f (o.1.trans (by rw [x1])) o.2.1 o.2.2
  · rw [turn, if_neg hm3, if_pos (by simp [hi])] at f
    refine beginSearch_own hd c2 (by rw [x1]) s1 (f hd ?_)
    rcases (@askDrive_own d (q1.putDial d { q1.dial d with state := .unknown, searchCount := 0 }) hd c2).2 with
      ⟨h, _⟩ | ⟨h, _⟩
    · unfold beginSearch
      rw [List.count_eq_zero.mpr h]; exact Nat.zero_le 1
    · exact Nat.le_of_eq h
  · rw [turn, if_neg hm3, if_neg (by simpa [Option.isNone_iff_eq_none] using hi)] at f
    refine evaluated_after (q := q1.putDial d { y with state := .inStep }) hd c2
      (dial_putDial_self _ _ _ hd).symm (.inl rfl) (s1.trans (Still.of_eq rfl rfl rfl))
      (f hd (evaluateDial_count hd c2)) fun h => ?_
    have : d ∈ q.budget.waiting := by rw [hq1] at h; exact h
    exact absurd this nw

/-- R37: SET_DIAL with tower time set has the dial evaluated from IN_STEP. -/
theorem setDialTaken_evaluated {pos : Nat} (hd : 1 ≤ d ∧ d ≤ 4) (hu : p.time.state ≠ .unset)
    (hc : p.budget.waiting.count d ≤ 1) :
    p.evaluated (setDialTaken d pos p) d
      { p.dial d with
        indicated := some pos, misses := 0, searchCount := 0, homeWatch := none, faultRaised := false
        state := .inStep } := by
  obtain ⟨g, hg⟩ : ∃ g, g = p.putDial d
      { p.dial d with
        indicated := some pos, misses := 0, searchCount := 0, homeWatch := none, faultRaised := false } := ⟨_, rfl⟩
  have hgu : g.unset = false := by rw [hg]; exact decide_eq_false hu
  have turn : setDialTaken d pos p = evaluateDial d (restDial d .inStep g) := by
    unfold setDialTaken
    dsimp only
    rw [← hg, if_neg (by simp [hgu])]
  obtain ⟨a, b, c, _⟩ := @restDial_own d g .inStep hd (by rw [hg]; exact hc)
  have hw : (restDial d .inStep g).budget.waiting.count d ≤ 1 := by
    rw [List.count_eq_zero.mpr c]; exact Nat.zero_le 1
  have st : Still p g := by rw [hg]; exact Still.of_eq rfl rfl rfl
  rw [turn]
  refine evaluated_after (q := restDial d .inStep g) hd hw ?_ (.inl rfl) (st.trans a) (Kept.refl _ _)
    fun h => absurd h c
  rw [b, hg, dial_putDial_self _ _ _ hd]

/-- R34: a slip of a driven dial has it evaluated with its hands at position 0. -/
theorem homeReported_slip {i : Nat} {x : Dial} (hd : 1 ≤ d ∧ d ≤ 4) (hc : p.budget.waiting.count d ≤ 1)
    (hi : (p.dial d).indicated = some i) (h0 : 0 < i)
    (hx : x = { p.dial d with
      homeWatch := none, misses := 0, faultRaised := false, indicated := some 0, slips := bump (p.dial d).slips
      lastSlip := if i ≤ (p.dial d).positions / 2 then (i : Int) else (i : Int) - (p.dial d).positions }) :
    homeReported d p = evaluateDial d (p.putDial d x)
      ∧ (x.state.driven → p.evaluated (homeReported d p) d x) := by
  have turn : homeReported d p = evaluateDial d (p.putDial d x) := by
    unfold homeReported
    dsimp only
    rw [hi]
    split
    · rename_i h
      exact absurd (Option.some.inj h) (Nat.ne_of_gt h0)
    · rename_i h
      obtain rfl := Option.some.inj h
      rw [hx]
      rfl
    · rename_i h
      cases h
  refine ⟨turn, fun hs => ?_⟩
  rw [turn]
  exact evaluated_after (q := p.putDial d x) hd hc (dial_putDial_self _ _ _ hd).symm hs (Still.of_eq rfl rfl rfl)
    (Kept.refl _ _) fun _ => Apart.refl _ _

/-- R36: a home report that ends a search has the dial evaluated at position 0: running fast with its charge, and else
from IN_STEP, waiting no more. -/
theorem homeReported_found {x : Dial} (hd : 1 ≤ d ∧ d ≤ 4) (hc : p.budget.waiting.count d ≤ 1)
    (hi : (p.dial d).indicated = none) (hs : (p.dial d).state = .unknown)
    (hx : x = { p.dial d with
      homeWatch := none, misses := 0, faultRaised := false, indicated := some 0, searchCount := 0
      state := if p.budget.dialHolds d then .advancing else .inStep }) :
    p.evaluated (homeReported d p) d x := by
  have turn : homeReported d p = if p.budget.dialHolds d then evaluateDial d (p.putDial d x)
      else evaluateDial d (stopWaiting d (p.putDial d x)) := by
    unfold homeReported
    dsimp only
    rw [hi]
    dsimp only
    rw [if_pos hs, hx]
    by_cases h : p.budget.dialHolds d = true <;> simp [h]
  rw [turn]
  split
  · rename_i h
    exact evaluated_after (q := p.putDial d x) hd hc (dial_putDial_self _ _ _ hd).symm (.inr (.inl (by simp [hx, h])))
      (Still.of_eq rfl rfl rfl) (Kept.refl _ _) fun _ => Apart.refl _ _
  · rename_i h
    have nw : d ∉ (stopWaiting d (p.putDial d x)).budget.waiting := by
      have : (p.budget.waiting.erase d).count d = 0 := by rw [List.count_erase_self]; omega
      exact List.count_eq_zero.mp this
    exact evaluated_after (q := stopWaiting d (p.putDial d x)) hd (by rw [List.count_eq_zero.mpr nw]; exact Nat.zero_le 1)
      (dial_putDial_self _ _ _ hd).symm (.inl (by simp [hx, h])) (Still.of_eq rfl rfl rfl) (Kept.refl _ _)
      fun m => absurd m nw

end Sys2Proof.Machine
end

