-- ==== Sys2Proof/Laws/Frames.lean ====
section
/-! SUPPORT. The frame of every shared operation: `same_<operation>` says which pieces of the part (Safety.lean, `Block`)
the operation may touch, as memberships in a list `T` of pieces; all the others stay as they were. They are simp
lemmas: the frame of a composite operation, with `T` a literal list, is proved by unfolding it once. -/

namespace Sys2Proof.Machine

variable {p q r : Part} {T : List Block}

@[simp] theorem same_refl (p : Part) (T : List Block) : p.sameBut p T := fun b _ => by cases b <;> simp [Part.sameIn]

theorem sameBut_trans (h : p.sameBut q T) (k : q.sameBut r T) : p.sameBut r T := fun b hb => by
  have h1 := h b hb
  have h2 := k b hb
  cases b <;> simp_all [Part.sameIn]

theorem sameBut_mono {U : List Block} (h : p.sameBut q T) (hs : ∀ b ∈ T, b ∈ U) : p.sameBut q U :=
  fun b hb => h b (fun k => hb (hs b k))

@[simp] theorem same_ite {c : Prop} [Decidable c] {a b : Part} (ha : p.sameBut a T) (hb : p.sameBut b T) :
    p.sameBut (if c then a else b) T := by
  split <;> assumption

/-- A fold of steps that each touch at most `T`. -/
theorem same_foldl {α : Type} {f : Part → α → Part} (hf : ∀ (q : Part) (a : α), q.sameBut (f q a) T) (l : List α)
    (h : p.sameBut q T) : p.sameBut (l.foldl f q) T := by
  induction l generalizing q with
  | nil => exact h
  | cons a l ih => exact ih (sameBut_trans h (hf q a))

theorem same_foldl_fst {α β : Type} {f : Part × β → α → Part × β}
    (hf : ∀ {acc : Part × β} {a : α}, p.sameBut acc.1 T → p.sameBut (f acc a).1 T) {l : List α} {acc : Part × β}
    (h : p.sameBut acc.1 T) : p.sameBut (l.foldl f acc).1 T := by
  induction l generalizing acc with
  | nil => exact h
  | cons a l ih => exact ih (hf h)

/-- An update touches the pieces whose fields it changes. -/
@[simp] theorem same_mk {t : TimeScale} {dd : DialDriver} {bg : BellGuard} {se : Session} {st : TuneStore}
    {cl : ClockVoice} {tu : TuneVoice} {la : LampController} {bu : FeedBudget} {ca : Calendar} {l : LineSwitch}
    {mg : Management} (h : p.sameBut q T)
    (h2 : t = q.time ∨ Block.time ∈ T)
    (h3 : dd = q.dialDriver ∨ Block.dialDriver ∈ T)
    (h4 : bg = q.bellGuard ∨ Block.bellGuard ∈ T)
    (h5 : se = q.session ∨ Block.session ∈ T)
    (h6 : st = q.store ∨ Block.store ∈ T)
    (h7 : cl = q.clock ∨ Block.clock ∈ T)
    (h8 : tu = q.tune ∨ Block.tune ∈ T)
    (h9 : la = q.lamps ∨ Block.lamps ∈ T)
    (h10 : bu = q.budget ∨ Block.budget ∈ T)
    (h11 : { ca with events := [] } = { q.cal with events := [] } ∨ Block.cal ∈ T)
    (h12 : ca.events = q.cal.events ∨ Block.events ∈ T)
    (h13 : (l.routes = q.line.routes ∧ l.failedRoutes = q.line.failedRoutes ∧ l.localRun = q.line.localRun ∧ l.consoleWaits = q.line.consoleWaits ∧ l.fieldWaits = q.line.fieldWaits ∧ l.malformed = q.line.malformed ∧ l.undelivered = q.line.undelivered ∧ l.foreignRequests = q.line.foreignRequests ∧ l.passOverflow = q.line.passOverflow ∧ l.busyDrops = q.line.busyDrops ∧ l.discardedAtTake = q.line.discardedAtTake) ∨ Block.routes ∈ T)
    (h14 : (l.consolePort = q.line.consolePort ∧ l.fieldPort = q.line.fieldPort) ∨ Block.ports ∈ T)
    (h15 : (l.delivered = q.line.delivered) ∨ Block.copies ∈ T)
    (h16 : (l.safetyQ = q.line.safetyQ) ∨ Block.safety ∈ T)
    (h17 : (l.localQ = q.line.localQ) ∨ Block.locals ∈ T)
    (h18 : (l.passQ = q.line.passQ) ∨ Block.pass ∈ T)
    (h19 : (l.upQ = q.line.upQ ∧ l.upOverflow = q.line.upOverflow ∧ l.droppedNotices = q.line.droppedNotices) ∨ Block.up ∈ T)
    (h20 : (l.fieldFlight = q.line.fieldFlight ∧ l.consoleFlight = q.line.consoleFlight) ∨ Block.flights ∈ T)
    (h21 : (mg.faults = q.mgmt.faults ∧ mg.tally = q.mgmt.tally ∧ mg.partState = q.mgmt.partState) ∨ Block.faults ∈ T)
    (h22 : (mg.inHand = q.mgmt.inHand ∧ mg.replyWaiting = q.mgmt.replyWaiting ∧ mg.resetting = q.mgmt.resetting ∧ mg.address = q.mgmt.address ∧ mg.nextAddress = q.mgmt.nextAddress) ∨ Block.requests ∈ T)
    (h23 : (mg.sources = q.mgmt.sources ∧ mg.failedSources = q.mgmt.failedSources ∧ mg.noticeNode = q.mgmt.noticeNode ∧ mg.cursor = q.mgmt.cursor) ∨ Block.mgmt ∈ T) :
    p.sameBut { osc := q.osc, time := t, dialDriver := dd, bellGuard := bg, session := se, store := st, clock := cl,
                tune := tu, lamps := la, budget := bu, cal := ca, line := l, mgmt := mg, retention := q.retention } T := by
  refine sameBut_trans h fun b hb => ?_
  cases b
  · exact rfl
  · exact h2.resolve_right hb
  · exact h3.resolve_right hb
  · exact h4.resolve_right hb
  · exact h5.resolve_right hb
  · exact h6.resolve_right hb
  · exact h7.resolve_right hb
  · exact h8.resolve_right hb
  · exact h9.resolve_right hb
  · exact h10.resolve_right hb
  · exact h11.resolve_right hb
  · exact h12.resolve_right hb
  · exact h13.resolve_right hb
  · exact h14.resolve_right hb
  · exact h15.resolve_right hb
  · exact h16.resolve_right hb
  · exact h17.resolve_right hb
  · exact h18.resolve_right hb
  · exact h19.resolve_right hb
  · exact h20.resolve_right hb
  · exact h21.resolve_right hb
  · exact h22.resolve_right hb
  · exact h23.resolve_right hb
  · exact rfl

@[simp] theorem putEntry_events {n : Nat} {e : ScheduleEntry} : (p.putEntry n e).cal.events = p.cal.events := rfl

@[simp] theorem putLink_events {n : Nat} {l : CueLink} : (p.putLink n l).cal.events = p.cal.events := rfl

@[simp] theorem same_putDial {d : Nat} {x : Dial} (h : p.sameBut q T) (h1 : Block.dialDriver ∈ T) : p.sameBut (q.putDial d x) T := by
  simp [Part.putDial, *]

@[simp] theorem same_putBell {d : Nat} {x : Bell} (h : p.sameBut q T) (h1 : Block.bellGuard ∈ T) : p.sameBut (q.putBell d x) T := by
  simp [Part.putBell, *]

@[simp] theorem same_putGroup {d : Nat} {x : LampGroup} (h : p.sameBut q T) (h1 : Block.lamps ∈ T) : p.sameBut (q.putGroup d x) T := by
  simp [Part.putGroup, *]

@[simp] theorem same_putEntry {d : Nat} {x : ScheduleEntry} (h : p.sameBut q T) (h1 : Block.cal ∈ T) : p.sameBut (q.putEntry d x) T := by
  simp [Part.putEntry, *]

@[simp] theorem same_putLink {d : Nat} {x : CueLink} (h : p.sameBut q T) (h1 : Block.cal ∈ T) : p.sameBut (q.putLink d x) T := by
  simp [Part.putLink, *]

@[simp] theorem same_putPort {t : Port} {c : PortCounts} (h : p.sameBut q T) (h1 : Block.ports ∈ T) :
    p.sameBut (q.putPort t c) T := by
  cases t <;> simp [Part.putPort, *]

@[simp] theorem same_putVoice {v : VoiceId} {x : Voice} (h : p.sameBut q T) (h1 : Block.clock ∈ T)
    (h2 : Block.tune ∈ T) : p.sameBut (q.putVoice v x) T := by
  cases v <;> simp [Part.putVoice, *]

/-! ## UP, notices and cue events -/

@[simp] theorem same_offerReport {f : Frame} (h : p.sameBut q T) (h1 : Block.up ∈ T) :
    p.sameBut (offerReport f q) T := by
  unfold offerReport
  (try dsimp only)
  (repeat' split) <;> simp (maxDischargeDepth := 40) [*]

@[simp] theorem same_offerNotice {f : Frame} (h : p.sameBut q T) (h1 : Block.up ∈ T) :
    p.sameBut (offerNotice f q) T := by
  unfold offerNotice
  (try dsimp only)
  (repeat' split) <;> simp (maxDischargeDepth := 40) [*]

@[simp] theorem same_sendNotice {k : NoticeKind} {d : List Byte} (h : p.sameBut q T) (h1 : Block.up ∈ T) :
    p.sameBut (sendNotice k d q) T := by
  unfold sendNotice
  (try dsimp only)
  (repeat' split) <;> simp (maxDischargeDepth := 40) [*]

@[simp] theorem same_noticeFault {k : FaultKind} {d : List Byte} (h : p.sameBut q T) (h1 : Block.up ∈ T) :
    p.sameBut (noticeFault k d q) T := by
  unfold noticeFault
  (try dsimp only)
  (repeat' split) <;> simp (maxDischargeDepth := 40) [*]

@[simp] theorem same_raiseMinor {k : FaultKind} {d : List Byte} (h : p.sameBut q T) (h1 : Block.up ∈ T) (h2 : Block.faults ∈ T) :
    p.sameBut (raiseMinor k d q) T := by
  unfold raiseMinor
  (try dsimp only)
  (repeat' split) <;> simp (maxDischargeDepth := 40) [*]

@[simp] theorem same_emitCue {e : CueEvent} (h : p.sameBut q T) (h1 : Block.events ∈ T) :
    p.sameBut (emitCue e q) T := by
  unfold emitCue
  (try dsimp only)
  (repeat' split) <;> simp (maxDischargeDepth := 40) [*]

@[simp] theorem same_takeCopy {i : Instr} (h : p.sameBut q T) (h1 : Block.copies ∈ T) :
    p.sameBut (takeCopy i q) T := by
  unfold takeCopy
  (try dsimp only)
  (repeat' split) <;> simp (maxDischargeDepth := 40) [*]

/-! ## Lamps and the Feed Budget -/

@[simp] theorem same_offerLevel {g : Nat} (h : p.sameBut q T) (h1 : Block.lamps ∈ T) (h2 : Block.locals ∈ T) :
    p.sameBut (offerLevel g q) T := by
  unfold offerLevel
  (try dsimp only)
  (repeat' split) <;> simp (maxDischargeDepth := 40) [*]

@[simp] theorem same_addCharge {ho : Holder} {a : Nat} (h : p.sameBut q T) (h1 : Block.budget ∈ T) :
    p.sameBut (addCharge ho a q) T := by
  unfold addCharge
  (try dsimp only)
  (repeat' split) <;> simp (maxDischargeDepth := 40) [*]

@[simp] theorem same_setGroupCharge {g a : Nat} (h : p.sameBut q T) (h1 : Block.budget ∈ T) :
    p.sameBut (setGroupCharge g a q) T := by
  unfold setGroupCharge
  (try dsimp only)
  (repeat' split) <;> simp (maxDischargeDepth := 40) [*]

@[simp] theorem same_lowerGroup {g l : Nat} (h : p.sameBut q T) (h1 : Block.lamps ∈ T) (h2 : Block.budget ∈ T) (h3 : Block.locals ∈ T) :
    p.sameBut (lowerGroup g l q) T := by
  unfold lowerGroup
  (try dsimp only)
  (repeat' split) <;> simp (maxDischargeDepth := 40) [*]

@[simp] theorem same_reclaimWalk {l : List Nat} {x : Nat} (h : p.sameBut q T) (h1 : Block.lamps ∈ T) (h2 : Block.budget ∈ T) (h3 : Block.locals ∈ T) :
    p.sameBut (reclaimWalk l x q) T := by
  induction l generalizing q x with
  | nil => exact h
  | cons g l ih =>
    unfold reclaimWalk
    dsimp only
    (repeat' split) <;> simp (maxDischargeDepth := 40) [*]

@[simp] theorem same_reclaim {x : Nat} (h : p.sameBut q T) (h1 : Block.lamps ∈ T) (h2 : Block.budget ∈ T) (h3 : Block.locals ∈ T) :
    p.sameBut (reclaim x q) T := by
  unfold reclaim
  (try dsimp only)
  (repeat' split) <;> simp (maxDischargeDepth := 40) [*]

theorem same_tryGrant {ho : Holder} {a : Nat} {r : Part × Bool} (h : p.sameBut q T)
    (h1 : Block.lamps ∈ T) (h2 : Block.budget ∈ T) (h3 : Block.locals ∈ T) (hr : tryGrant ho a q = some r) : p.sameBut r.1 T := by
  unfold tryGrant at hr
  split at hr <;> simp at hr <;> subst hr <;> simp (maxDischargeDepth := 40) [*]

@[simp] theorem same_offerStep {d : Nat} (h : p.sameBut q T) (h1 : Block.dialDriver ∈ T) (h2 : Block.locals ∈ T) :
    p.sameBut (offerStep d q) T := by
  unfold offerStep
  (try dsimp only)
  (repeat' split) <;> simp (maxDischargeDepth := 40) [*]

@[simp] theorem same_stopWaiting {d : Nat} (h : p.sameBut q T) (h1 : Block.budget ∈ T) :
    p.sameBut (stopWaiting d q) T := by
  unfold stopWaiting
  (try dsimp only)
  (repeat' split) <;> simp (maxDischargeDepth := 40) [*]

@[simp] theorem same_dialGranted {d : Nat} (h : p.sameBut q T) (h1 : Block.dialDriver ∈ T) (h2 : Block.locals ∈ T) :
    p.sameBut (dialGranted d q) T := by
  unfold dialGranted
  (try dsimp only)
  (repeat' split) <;> simp (maxDischargeDepth := 40) [*]

@[simp] theorem same_reofferOne {acc : Part × Bool} {d : Nat} (h : p.sameBut acc.1 T) (h1 : Block.dialDriver ∈ T) (h2 : Block.lamps ∈ T) (h3 : Block.budget ∈ T) (h4 : Block.locals ∈ T) :
    p.sameBut (reofferOne acc d).1 T := by
  unfold reofferOne
  dsimp only
  split
  · rename_i hg
    have := same_tryGrant h (by assumption) (by assumption) (by assumption) hg
    simp at this
    simp (maxDischargeDepth := 40) [*]
  · simp (maxDischargeDepth := 40) [*]

@[simp] theorem same_reoffer {k : Nat} (h : p.sameBut q T) (h1 : Block.dialDriver ∈ T) (h2 : Block.lamps ∈ T) (h3 : Block.budget ∈ T) (h4 : Block.locals ∈ T) :
    p.sameBut (reoffer k q) T := by
  induction k generalizing q with
  | zero => exact h
  | succ k ih =>
    have : p.sameBut (q.budget.waiting.foldl reofferOne (q, false)).1 T :=
      same_foldl_fst (fun {acc a} ha => by simp (maxDischargeDepth := 40) [*]) (by exact h)
    unfold reoffer
    dsimp only
    split
    · exact ih this
    · exact this

@[simp] theorem same_examine (h : p.sameBut q T) (h1 : Block.budget ∈ T) :
    p.sameBut (examine q) T := by
  unfold examine
  (try dsimp only)
  (repeat' split) <;> simp (maxDischargeDepth := 40) [*]

@[simp] theorem same_afterRelease (h : p.sameBut q T) (h1 : Block.dialDriver ∈ T) (h2 : Block.lamps ∈ T) (h3 : Block.budget ∈ T) (h4 : Block.locals ∈ T) :
    p.sameBut (afterRelease q) T := by
  unfold afterRelease
  (try dsimp only)
  (repeat' split) <;> simp (maxDischargeDepth := 40) [*]

@[simp] theorem same_releaseCharge {i : Nat} (h : p.sameBut q T) (h1 : Block.dialDriver ∈ T) (h2 : Block.lamps ∈ T) (h3 : Block.budget ∈ T) (h4 : Block.locals ∈ T) :
    p.sameBut (releaseCharge i q) T := by
  unfold releaseCharge
  (try dsimp only)
  (repeat' split) <;> simp (maxDischargeDepth := 40) [*]

@[simp] theorem same_releaseDial {d : Nat} (h : p.sameBut q T) (h1 : Block.dialDriver ∈ T) (h2 : Block.lamps ∈ T) (h3 : Block.budget ∈ T) (h4 : Block.locals ∈ T) :
    p.sameBut (releaseDial d q) T := by
  unfold releaseDial
  (try dsimp only)
  (repeat' split) <;> simp (maxDischargeDepth := 40) [*]

@[simp] theorem same_afterGrant {b : Bool} (h : p.sameBut q T) (h1 : Block.dialDriver ∈ T) (h2 : Block.lamps ∈ T) (h3 : Block.budget ∈ T) (h4 : Block.locals ∈ T) :
    p.sameBut (afterGrant b q) T := by
  unfold afterGrant
  (try dsimp only)
  (repeat' split) <;> simp (maxDischargeDepth := 40) [*]

@[simp] theorem same_askDrive {d : Nat} (h : p.sameBut q T) (h1 : Block.dialDriver ∈ T) (h2 : Block.lamps ∈ T) (h3 : Block.budget ∈ T) (h4 : Block.locals ∈ T) :
    p.sameBut (askDrive d q) T := by
  unfold askDrive
  dsimp only
  split
  · rename_i hg
    have := same_tryGrant h (by assumption) (by assumption) (by assumption) hg
    simp at this
    simp (maxDischargeDepth := 40) [*]
  · simp (maxDischargeDepth := 40) [*]

@[simp] theorem same_askStrike {b a : Nat} {o : Origin} (h : p.sameBut q T) (h1 : Block.dialDriver ∈ T) (h2 : Block.lamps ∈ T) (h3 : Block.budget ∈ T) (h4 : Block.locals ∈ T) :
    p.sameBut (askStrike b o a q).1 T := by
  unfold askStrike
  dsimp only
  split
  · rename_i hg
    have := same_tryGrant h (by assumption) (by assumption) (by assumption) hg
    simp at this
    simp (maxDischargeDepth := 40) [*]
  · simp (maxDischargeDepth := 40) [*]

@[simp] theorem same_lampFall {g l : Nat} (h : p.sameBut q T) (h1 : Block.dialDriver ∈ T) (h2 : Block.lamps ∈ T) (h3 : Block.budget ∈ T) (h4 : Block.locals ∈ T) :
    p.sameBut (lampFall g l q) T := by
  unfold lampFall
  (try dsimp only)
  (repeat' split) <;> simp (maxDischargeDepth := 40) [*]

@[simp] theorem same_lampAsk {g l : Nat} (h : p.sameBut q T) (h1 : Block.lamps ∈ T) (h2 : Block.budget ∈ T) (h3 : Block.locals ∈ T) :
    p.sameBut (lampAsk g l q) T := by
  unfold lampAsk
  (try dsimp only)
  (repeat' split) <;> simp (maxDischargeDepth := 40) [*]

@[simp] theorem same_dropClamp {g : Nat} (h : p.sameBut q T) (h1 : Block.lamps ∈ T) (h2 : Block.budget ∈ T) :
    p.sameBut (dropClamp g q) T := by
  unfold dropClamp
  (try dsimp only)
  (repeat' split) <;> simp (maxDischargeDepth := 40) [*]

@[simp] theorem same_restoreGroup {g : Nat} (h : p.sameBut q T) (h1 : Block.lamps ∈ T) (h2 : Block.budget ∈ T) (h3 : Block.locals ∈ T) :
    p.sameBut (restoreGroup g q) T := by
  unfold restoreGroup
  (try dsimp only)
  (repeat' split) <;> simp (maxDischargeDepth := 40) [*]

/-! ## Dials -/

@[simp] theorem same_restDial {d : Nat} {st : DialState} (h : p.sameBut q T) (h1 : Block.dialDriver ∈ T) (h2 : Block.lamps ∈ T) (h3 : Block.budget ∈ T) (h4 : Block.locals ∈ T) :
    p.sameBut (restDial d st q) T := by
  unfold restDial
  (try dsimp only)
  (repeat' split) <;> simp (maxDischargeDepth := 40) [*]

@[simp] theorem same_evaluateDial {d : Nat} (h : p.sameBut q T) (h1 : Block.dialDriver ∈ T) (h2 : Block.lamps ∈ T) (h3 : Block.budget ∈ T) (h4 : Block.locals ∈ T) :
    p.sameBut (evaluateDial d q) T := by
  unfold evaluateDial
  (try dsimp only)
  (repeat' split) <;> simp (maxDischargeDepth := 40) [*]

@[simp] theorem same_reformTarget {b : Bool} {d : Nat} (h : p.sameBut q T) (h1 : Block.dialDriver ∈ T) (h2 : Block.lamps ∈ T) (h3 : Block.budget ∈ T) (h4 : Block.locals ∈ T) :
    p.sameBut (reformTarget b d q) T := by
  unfold reformTarget
  (try dsimp only)
  (repeat' split) <;> simp (maxDischargeDepth := 40) [*]

@[simp] theorem same_dialsShifted (h : p.sameBut q T) (h1 : Block.dialDriver ∈ T) (h2 : Block.lamps ∈ T) (h3 : Block.budget ∈ T) (h4 : Block.locals ∈ T) :
    p.sameBut (dialsShifted q) T := by
  unfold dialsShifted
  try dsimp only
  exact same_foldl (fun q a => by simp (maxDischargeDepth := 40) [*]) _ (by simp (maxDischargeDepth := 40) [*])

@[simp] theorem same_dialSecond {d : Nat} (h : p.sameBut q T) (h1 : Block.dialDriver ∈ T) (h2 : Block.lamps ∈ T) (h3 : Block.budget ∈ T) (h4 : Block.locals ∈ T) :
    p.sameBut (dialSecond d q) T := by
  unfold dialSecond
  (try dsimp only)
  (repeat' split) <;> simp (maxDischargeDepth := 40) [*]

@[simp] theorem same_dialsSecond (h : p.sameBut q T) (h1 : Block.dialDriver ∈ T) (h2 : Block.lamps ∈ T) (h3 : Block.budget ∈ T) (h4 : Block.locals ∈ T) :
    p.sameBut (dialsSecond q) T := by
  unfold dialsSecond
  try dsimp only
  exact same_foldl (fun q a => by simp (maxDischargeDepth := 40) [*]) _ (by simp (maxDischargeDepth := 40) [*])

@[simp] theorem same_faultDial {d : Nat} (h : p.sameBut q T) (h1 : Block.dialDriver ∈ T) (h2 : Block.lamps ∈ T) (h3 : Block.budget ∈ T) (h4 : Block.locals ∈ T) (h5 : Block.up ∈ T) (h6 : Block.faults ∈ T) :
    p.sameBut (faultDial d q) T := by
  unfold faultDial
  (try dsimp only)
  (repeat' split) <;> simp (maxDischargeDepth := 40) [*]

@[simp] theorem same_missHome {d : Nat} (h : p.sameBut q T) (h1 : Block.dialDriver ∈ T) (h2 : Block.lamps ∈ T) (h3 : Block.budget ∈ T) (h4 : Block.locals ∈ T) (h5 : Block.up ∈ T) (h6 : Block.faults ∈ T) :
    p.sameBut (missHome d q) T := by
  unfold missHome
  (try dsimp only)
  (repeat' split) <;> simp (maxDischargeDepth := 40) [*]

@[simp] theorem same_beginSearch {d : Nat} (h : p.sameBut q T) (h1 : Block.dialDriver ∈ T) (h2 : Block.lamps ∈ T) (h3 : Block.budget ∈ T) (h4 : Block.locals ∈ T) :
    p.sameBut (beginSearch d q) T := by
  unfold beginSearch
  (try dsimp only)
  (repeat' split) <;> simp (maxDischargeDepth := 40) [*]

@[simp] theorem same_searchStep {d : Nat} (h : p.sameBut q T) (h1 : Block.dialDriver ∈ T) (h2 : Block.lamps ∈ T) (h3 : Block.budget ∈ T) (h4 : Block.locals ∈ T) (h5 : Block.up ∈ T) (h6 : Block.faults ∈ T) :
    p.sameBut (searchStep d q) T := by
  unfold searchStep
  (try dsimp only)
  (repeat' split) <;> simp (maxDischargeDepth := 40) [*]

@[simp] theorem same_watchStep {d : Nat} (h : p.sameBut q T) (h1 : Block.dialDriver ∈ T) (h2 : Block.lamps ∈ T) (h3 : Block.budget ∈ T) (h4 : Block.locals ∈ T) (h5 : Block.up ∈ T) (h6 : Block.faults ∈ T) :
    p.sameBut (watchStep d q) T := by
  unfold watchStep
  (try dsimp only)
  (repeat' split) <;> simp (maxDischargeDepth := 40) [*]

@[simp] theorem same_dialStepDone {d : Nat} (h : p.sameBut q T) (h1 : Block.dialDriver ∈ T) (h2 : Block.lamps ∈ T) (h3 : Block.budget ∈ T) (h4 : Block.locals ∈ T) (h5 : Block.up ∈ T) (h6 : Block.faults ∈ T) :
    p.sameBut (dialStepDone d q) T := by
  unfold dialStepDone
  (try dsimp only)
  (repeat' split) <;> simp (maxDischargeDepth := 40) [*]

@[simp] theorem same_homeReported {d : Nat} (h : p.sameBut q T) (h1 : Block.dialDriver ∈ T) (h2 : Block.lamps ∈ T) (h3 : Block.budget ∈ T) (h4 : Block.locals ∈ T) :
    p.sameBut (homeReported d q) T := by
  unfold homeReported
  (try dsimp only)
  (repeat' split) <;> simp (maxDischargeDepth := 40) [*]

@[simp] theorem same_setDialTaken {d k : Nat} (h : p.sameBut q T) (h1 : Block.dialDriver ∈ T) (h2 : Block.lamps ∈ T) (h3 : Block.budget ∈ T) (h4 : Block.locals ∈ T) :
    p.sameBut (setDialTaken d k q) T := by
  unfold setDialTaken
  (try dsimp only)
  (repeat' split) <;> simp (maxDischargeDepth := 40) [*]

@[simp] theorem same_dialsStop (h : p.sameBut q T) (h1 : Block.dialDriver ∈ T) (h2 : Block.lamps ∈ T) (h3 : Block.budget ∈ T) (h4 : Block.locals ∈ T) :
    p.sameBut (dialsStop q) T := by
  unfold dialsStop
  dsimp only
  exact same_foldl (fun q a => by simp (maxDischargeDepth := 40) [*]) _ (same_foldl (fun q a => by simp (maxDischargeDepth := 40) [*]) _ h)

@[simp] theorem same_dialLeavesStopped {d : Nat} (h : p.sameBut q T) (h1 : Block.dialDriver ∈ T) (h2 : Block.lamps ∈ T) (h3 : Block.budget ∈ T) (h4 : Block.locals ∈ T) (h5 : Block.up ∈ T) (h6 : Block.faults ∈ T) :
    p.sameBut (dialLeavesStopped d q) T := by
  unfold dialLeavesStopped
  (try dsimp only)
  (repeat' split) <;> simp (maxDischargeDepth := 40) [*]

@[simp] theorem same_dialsFollow {a b : TimeState} (h : p.sameBut q T) (h1 : Block.dialDriver ∈ T) (h2 : Block.lamps ∈ T) (h3 : Block.budget ∈ T) (h4 : Block.locals ∈ T) (h5 : Block.up ∈ T) (h6 : Block.faults ∈ T) :
    p.sameBut (dialsFollow a b q) T := by
  unfold dialsFollow
  (try dsimp only)
  (repeat' split) <;> try simp (maxDischargeDepth := 40) [*]
  all_goals exact same_foldl (fun q a => by (try split) <;> simp (maxDischargeDepth := 40) [*]) _ (by simp (maxDischargeDepth := 40) [*])

@[simp] theorem same_dialWritten {d : Nat} {c : DialConfig} (h : p.sameBut q T) (h1 : Block.dialDriver ∈ T) (h2 : Block.lamps ∈ T) (h3 : Block.budget ∈ T) (h4 : Block.locals ∈ T) :
    p.sameBut (dialWritten d c q) T := by
  unfold dialWritten
  (try dsimp only)
  (repeat' split) <;> simp (maxDischargeDepth := 40) [*]

@[simp] theorem same_writeDial {d : Nat} {bs : List Byte} (h : p.sameBut q T) (h1 : Block.dialDriver ∈ T) (h2 : Block.lamps ∈ T) (h3 : Block.budget ∈ T) (h4 : Block.locals ∈ T) :
    p.sameBut (writeDial d bs q).1 T := by
  unfold writeDial
  (try dsimp only)
  (repeat' split) <;> simp (maxDischargeDepth := 40) [*]

/-! ## The Session Controller and the Bell Guard -/

@[simp] theorem same_sessionNotice {o n : SessionState} {l : List Nat} {k : Option Nat} {r : SessionReason} (h : p.sameBut q T) (h1 : Block.up ∈ T) :
    p.sameBut (sessionNotice o n l k r q) T := by
  unfold sessionNotice
  (try dsimp only)
  (repeat' split) <;> simp (maxDischargeDepth := 40) [*]

@[simp] theorem same_lookForOpen (h : p.sameBut q T) (h1 : Block.session ∈ T) (h2 : Block.events ∈ T) (h3 : Block.up ∈ T) :
    p.sameBut (lookForOpen q) T := by
  unfold lookForOpen
  (try dsimp only)
  (repeat' split) <;> simp (maxDischargeDepth := 40) [*]

@[simp] theorem same_toldActive {b : Nat} (h : p.sameBut q T) (h1 : Block.session ∈ T) (h2 : Block.events ∈ T) (h3 : Block.up ∈ T) :
    p.sameBut (toldActive b q) T := by
  unfold toldActive
  (try dsimp only)
  (repeat' split) <;> simp (maxDischargeDepth := 40) [*]

@[simp] theorem same_toldInactive {b : Nat} (h : p.sameBut q T) (h1 : Block.session ∈ T) :
    p.sameBut (toldInactive b q) T := by
  unfold toldInactive
  (try dsimp only)
  (repeat' split) <;> simp (maxDischargeDepth := 40) [*]

@[simp] theorem same_placeSetting {b : Nat} (h : p.sameBut q T) (h1 : Block.safety ∈ T) :
    p.sameBut (placeSetting b q) T := by
  unfold placeSetting
  (try dsimp only)
  (repeat' split) <;> simp (maxDischargeDepth := 40) [*]

@[simp] theorem same_placeWanted (h : p.sameBut q T) (h1 : Block.safety ∈ T) :
    p.sameBut (placeWanted q) T := by
  unfold placeWanted
  try dsimp only
  exact same_foldl (fun q a => by simp (maxDischargeDepth := 40) [*]) _ (by simp (maxDischargeDepth := 40) [*])

@[simp] theorem same_changeHammer {b : Nat} {st : HammerState} (h : p.sameBut q T) (h1 : Block.bellGuard ∈ T) (h2 : Block.session ∈ T) (h3 : Block.events ∈ T) (h4 : Block.up ∈ T) :
    p.sameBut (changeHammer b st q) T := by
  unfold changeHammer
  (try dsimp only)
  (repeat' split) <;> simp (maxDischargeDepth := 40) [*]

@[simp] theorem same_decideSetting {b : Nat} {a : HammerAction} (h : p.sameBut q T) (h1 : Block.bellGuard ∈ T) (h2 : Block.session ∈ T) (h3 : Block.events ∈ T) (h4 : Block.safety ∈ T) (h5 : Block.up ∈ T) :
    p.sameBut (decideSetting b a q) T := by
  unfold decideSetting
  (try dsimp only)
  (repeat' split) <;> simp (maxDischargeDepth := 40) [*]

@[simp] theorem same_reengage {b : Nat} (h : p.sameBut q T) (h1 : Block.bellGuard ∈ T) (h2 : Block.session ∈ T) (h3 : Block.events ∈ T) (h4 : Block.safety ∈ T) (h5 : Block.up ∈ T) :
    p.sameBut (reengage b q) T := by
  unfold reengage
  (try dsimp only)
  (repeat' split) <;> simp (maxDischargeDepth := 40) [*]

@[simp] theorem same_setVoiceClaim {v : VoiceId} {k : Bool} {b : Nat} (h : p.sameBut q T) (h1 : Block.bellGuard ∈ T) :
    p.sameBut (setVoiceClaim v k q b) T := by
  cases v <;> simp (maxDischargeDepth := 40) [setVoiceClaim, *]

@[simp] theorem same_enterClaims {v : VoiceId} {l : List Nat} (h : p.sameBut q T) (h1 : Block.bellGuard ∈ T) :
    p.sameBut (enterClaims v l q) T := by
  unfold enterClaims
  try dsimp only
  exact same_foldl (fun q a => by simp (maxDischargeDepth := 40) [*]) _ (by simp (maxDischargeDepth := 40) [*])

@[simp] theorem same_removeClaims {v : VoiceId} {l : List Nat} (h : p.sameBut q T) (h1 : Block.bellGuard ∈ T) :
    p.sameBut (removeClaims v l q) T := by
  unfold removeClaims
  try dsimp only
  exact same_foldl (fun q a => by simp (maxDischargeDepth := 40) [*]) _ (by simp (maxDischargeDepth := 40) [*])

@[simp] theorem same_enterRingers {b : Nat} (h : p.sameBut q T) (h1 : Block.bellGuard ∈ T) (h2 : Block.session ∈ T) (h3 : Block.events ∈ T) (h4 : Block.safety ∈ T) (h5 : Block.up ∈ T) :
    p.sameBut (enterRingers q b) T := by
  unfold enterRingers
  (try dsimp only)
  (repeat' split) <;> simp (maxDischargeDepth := 40) [*]

@[simp] theorem same_removeRingers {b : Nat} (h : p.sameBut q T) (h1 : Block.bellGuard ∈ T) (h2 : Block.session ∈ T) (h3 : Block.events ∈ T) (h4 : Block.safety ∈ T) (h5 : Block.up ∈ T) :
    p.sameBut (removeRingers q b) T := by
  unfold removeRingers
  (try dsimp only)
  (repeat' split) <;> simp (maxDischargeDepth := 40) [*]

@[simp] theorem same_refuseStrike {b : Nat} (h : p.sameBut q T) (h1 : Block.bellGuard ∈ T) :
    p.sameBut (refuseStrike b q) T := by
  unfold refuseStrike
  (try dsimp only)
  (repeat' split) <;> simp (maxDischargeDepth := 40) [*]

@[simp] theorem same_admitStrike {b : Nat} {o : Origin} (h : p.sameBut q T) (h1 : Block.dialDriver ∈ T) (h2 : Block.bellGuard ∈ T) (h3 : Block.lamps ∈ T) (h4 : Block.budget ∈ T) (h5 : Block.locals ∈ T) :
    p.sameBut (admitStrike b o q).1 T := by
  unfold admitStrike
  (try dsimp only)
  (repeat' split) <;> simp (maxDischargeDepth := 40) [*]

@[simp] theorem same_guardSafe (h : p.sameBut q T) (h1 : Block.bellGuard ∈ T) (h2 : Block.session ∈ T) (h3 : Block.events ∈ T) (h4 : Block.safety ∈ T) (h5 : Block.up ∈ T) :
    p.sameBut (guardSafe q) T := by
  unfold guardSafe
  try dsimp only
  exact same_foldl (fun q a => by split <;> simp (maxDischargeDepth := 40) [*]) _ (by simp (maxDischargeDepth := 40) [*])

@[simp] theorem same_guardRunning (h : p.sameBut q T) (h1 : Block.bellGuard ∈ T) (h2 : Block.session ∈ T) (h3 : Block.events ∈ T) (h4 : Block.safety ∈ T) (h5 : Block.up ∈ T) :
    p.sameBut (guardRunning q) T := by
  unfold guardRunning
  try dsimp only
  exact same_foldl (fun q a => by simp (maxDischargeDepth := 40) [*]) _ (by simp (maxDischargeDepth := 40) [*])

/-! ## What ends a voice's sounding -/

@[simp] theorem same_releaseStrikes {l : List HeldStrike} (h : p.sameBut q T) (h1 : Block.dialDriver ∈ T) (h2 : Block.lamps ∈ T) (h3 : Block.budget ∈ T) (h4 : Block.locals ∈ T) :
    p.sameBut (releaseStrikes l q) T := by
  unfold releaseStrikes
  try dsimp only
  exact same_foldl (fun q a => by simp (maxDischargeDepth := 40) [*]) _ (by simp (maxDischargeDepth := 40) [*])

@[simp] theorem same_dropHeld {v : VoiceId} (h : p.sameBut q T) (h1 : Block.dialDriver ∈ T) (h2 : Block.clock ∈ T) (h3 : Block.tune ∈ T) (h4 : Block.lamps ∈ T) (h5 : Block.budget ∈ T) (h6 : Block.locals ∈ T) :
    p.sameBut (dropHeld v q) T := by
  unfold dropHeld
  (try dsimp only)
  (repeat' split) <;> simp (maxDischargeDepth := 40) [*]

@[simp] theorem same_dropLate {v : VoiceId} (h : p.sameBut q T) (h1 : Block.dialDriver ∈ T) (h2 : Block.clock ∈ T) (h3 : Block.tune ∈ T) (h4 : Block.lamps ∈ T) (h5 : Block.budget ∈ T) (h6 : Block.locals ∈ T) :
    p.sameBut (dropLate v q) T := by
  unfold dropLate
  (try dsimp only)
  (repeat' split) <;> simp (maxDischargeDepth := 40) [*]

@[simp] theorem same_placeStrike {v : VoiceId} {s : Strike} {d : Nat} (h : p.sameBut q T) (h1 : Block.dialDriver ∈ T) (h2 : Block.clock ∈ T) (h3 : Block.tune ∈ T) (h4 : Block.lamps ∈ T) (h5 : Block.budget ∈ T) (h6 : Block.locals ∈ T) :
    p.sameBut (placeStrike v s d q) T := by
  unfold placeStrike
  (try dsimp only)
  (repeat' split) <;> simp (maxDischargeDepth := 40) [*]

@[simp] theorem same_endQuarter (h : p.sameBut q T) (h1 : Block.dialDriver ∈ T) (h2 : Block.bellGuard ∈ T) (h3 : Block.clock ∈ T) (h4 : Block.tune ∈ T) (h5 : Block.lamps ∈ T) (h6 : Block.budget ∈ T) (h7 : Block.locals ∈ T) :
    p.sameBut (endQuarter q) T := by
  unfold endQuarter
  (try dsimp only)
  (repeat' split) <;> simp (maxDischargeDepth := 40) [*]

@[simp] theorem same_endTune {r : EndReason} (h : p.sameBut q T) (h1 : Block.dialDriver ∈ T) (h2 : Block.bellGuard ∈ T) (h3 : Block.clock ∈ T) (h4 : Block.tune ∈ T) (h5 : Block.lamps ∈ T) (h6 : Block.budget ∈ T) (h7 : Block.events ∈ T) (h8 : Block.locals ∈ T) :
    p.sameBut (endTune r q) T := by
  unfold endTune
  (try dsimp only)
  (repeat' split) <;> simp (maxDischargeDepth := 40) [*]

@[simp] theorem same_voicesSafe (h : p.sameBut q T) (h1 : Block.dialDriver ∈ T) (h2 : Block.bellGuard ∈ T) (h3 : Block.clock ∈ T) (h4 : Block.tune ∈ T) (h5 : Block.lamps ∈ T) (h6 : Block.budget ∈ T) (h7 : Block.events ∈ T) (h8 : Block.locals ∈ T) :
    p.sameBut (voicesSafe q) T := by
  unfold voicesSafe
  (try dsimp only)
  (repeat' split) <;> simp (maxDischargeDepth := 40) [*]

/-! ## Faults, the ends of a session, and requests -/

@[simp] theorem same_raiseMajor {k : FaultKind} {d : List Byte} (h : p.sameBut q T) (h1 : Block.dialDriver ∈ T) (h2 : Block.bellGuard ∈ T) (h3 : Block.session ∈ T) (h4 : Block.clock ∈ T) (h5 : Block.tune ∈ T) (h6 : Block.lamps ∈ T) (h7 : Block.budget ∈ T) (h8 : Block.events ∈ T) (h9 : Block.safety ∈ T) (h10 : Block.locals ∈ T) (h11 : Block.up ∈ T) (h12 : Block.faults ∈ T) :
    p.sameBut (raiseMajor k d q) T := by
  unfold raiseMajor
  (try dsimp only)
  (repeat' split) <;> simp (maxDischargeDepth := 40) [*]

@[simp] theorem same_readSource {n : Nat} (h : p.sameBut q T) (h1 : Block.dialDriver ∈ T) (h2 : Block.bellGuard ∈ T) (h3 : Block.session ∈ T) (h4 : Block.clock ∈ T) (h5 : Block.tune ∈ T) (h6 : Block.lamps ∈ T) (h7 : Block.budget ∈ T) (h8 : Block.events ∈ T) (h9 : Block.safety ∈ T) (h10 : Block.locals ∈ T) (h11 : Block.up ∈ T) (h12 : Block.faults ∈ T) (h13 : Block.mgmt ∈ T) :
    p.sameBut (readSource n q).1 T := by
  unfold readSource
  (try dsimp only)
  (repeat' split) <;> simp (maxDischargeDepth := 40) [*]

@[simp] theorem same_classOf {n : Nat} (h : p.sameBut q T) (h1 : Block.dialDriver ∈ T) (h2 : Block.bellGuard ∈ T) (h3 : Block.session ∈ T) (h4 : Block.clock ∈ T) (h5 : Block.tune ∈ T) (h6 : Block.lamps ∈ T) (h7 : Block.budget ∈ T) (h8 : Block.events ∈ T) (h9 : Block.safety ∈ T) (h10 : Block.locals ∈ T) (h11 : Block.up ∈ T) (h12 : Block.faults ∈ T) (h13 : Block.mgmt ∈ T) :
    p.sameBut (classOf n q).1 T := by
  unfold classOf
  (try dsimp only)
  (repeat' split) <;> simp (maxDischargeDepth := 40) [*]

@[simp] theorem same_sessionJam {b : Nat} (h : p.sameBut q T) (h1 : Block.bellGuard ∈ T) (h2 : Block.session ∈ T) (h3 : Block.events ∈ T) (h4 : Block.safety ∈ T) (h5 : Block.up ∈ T) :
    p.sameBut (sessionJam b q) T := by
  have k : ∀ (l : List Nat) (s : Session), p.sameBut (l.foldl removeRingers { q with session := s }) T :=
    fun l s => same_foldl (fun q a => by simp (maxDischargeDepth := 40) [*]) _ (by simp (maxDischargeDepth := 40) [*])
  unfold sessionJam
  dsimp only
  (repeat' split) <;> simp (maxDischargeDepth := 40) [*]

@[simp] theorem same_completeSession (h : p.sameBut q T) (h1 : Block.session ∈ T) (h2 : Block.events ∈ T) (h3 : Block.up ∈ T) :
    p.sameBut (completeSession q) T := by
  unfold completeSession
  (try dsimp only)
  (repeat' split) <;> simp (maxDischargeDepth := 40) [*]

@[simp] theorem same_leaveBell {b : Nat} (h : p.sameBut q T) (h1 : Block.bellGuard ∈ T) (h2 : Block.session ∈ T) (h3 : Block.events ∈ T) (h4 : Block.safety ∈ T) (h5 : Block.up ∈ T) :
    p.sameBut (leaveBell q b) T := by
  unfold leaveBell
  (try dsimp only)
  (repeat' split) <;> simp (maxDischargeDepth := 40) [*]

@[simp] theorem same_sessionSettled {b : Nat} (h : p.sameBut q T) (h1 : Block.bellGuard ∈ T) (h2 : Block.session ∈ T) (h3 : Block.events ∈ T) (h4 : Block.safety ∈ T) (h5 : Block.up ∈ T) :
    p.sameBut (sessionSettled b q) T := by
  unfold sessionSettled
  (try dsimp only)
  (repeat' split) <;> simp (maxDischargeDepth := 40) [*]

@[simp] theorem same_closeSession (h : p.sameBut q T) (h1 : Block.bellGuard ∈ T) (h2 : Block.session ∈ T) (h3 : Block.events ∈ T) (h4 : Block.safety ∈ T) (h5 : Block.up ∈ T) :
    p.sameBut (closeSession q) T := by
  unfold closeSession
  (try dsimp only)
  all_goals exact same_foldl (fun q a => by (try split) <;> simp (maxDischargeDepth := 40) [*]) _ (by simp (maxDischargeDepth := 40) [*])

@[simp] theorem same_beginSession {l : List Nat} {s : Nat} (h : p.sameBut q T) (h1 : Block.session ∈ T) :
    p.sameBut (beginSession l s q) T := by
  unfold beginSession
  (try dsimp only)
  (repeat' split) <;> simp (maxDischargeDepth := 40) [*]

@[simp] theorem same_enterSessionClaims (h : p.sameBut q T) (h1 : Block.bellGuard ∈ T) (h2 : Block.session ∈ T) (h3 : Block.events ∈ T) (h4 : Block.safety ∈ T) (h5 : Block.up ∈ T) :
    p.sameBut (enterSessionClaims q) T := by
  unfold enterSessionClaims
  try dsimp only
  exact same_foldl (fun q a => by simp (maxDischargeDepth := 40) [*]) _ (by simp (maxDischargeDepth := 40) [*])

@[simp] theorem same_replyQueued (h : p.sameBut q T) (h1 : Block.requests ∈ T) :
    p.sameBut (replyQueued q) T := by
  unfold replyQueued
  (try dsimp only)
  (repeat' split) <;> simp (maxDischargeDepth := 40) [*]

@[simp] theorem same_offerReply {i : UpItem} (h : p.sameBut q T) (h1 : Block.up ∈ T) (h2 : Block.requests ∈ T) :
    p.sameBut (offerReply i q) T := by
  unfold offerReply
  (try dsimp only)
  (repeat' split) <;> simp (maxDischargeDepth := 40) [*]

@[simp] theorem same_reply {s o : Nat} {c : Code} {d : List Byte} (h : p.sameBut q T) (h1 : Block.up ∈ T) (h2 : Block.requests ∈ T) :
    p.sameBut (reply s o c d q) T := by
  unfold reply
  (try dsimp only)
  (repeat' split) <;> simp (maxDischargeDepth := 40) [*]

@[simp] theorem same_deliverRequest {i : Instr} {s : Nat} (h : p.sameBut q T) (h1 : Block.dialDriver ∈ T) (h2 : Block.bellGuard ∈ T) (h3 : Block.session ∈ T) (h4 : Block.clock ∈ T) (h5 : Block.tune ∈ T) (h6 : Block.lamps ∈ T) (h7 : Block.budget ∈ T) (h8 : Block.events ∈ T) (h9 : Block.routes ∈ T) (h10 : Block.safety ∈ T) (h11 : Block.locals ∈ T) (h12 : Block.up ∈ T) (h13 : Block.faults ∈ T) (h14 : Block.requests ∈ T) (h15 : Block.mgmt ∈ T) :
    p.sameBut (deliverRequest i s q) T := by
  unfold deliverRequest
  (try dsimp only)
  (repeat' split) <;> simp (maxDischargeDepth := 40) [*]

/-! ## The Tune Store and the voices' playing -/

@[simp] theorem same_storeFailure {t : Table} {n : Nat} (h : p.sameBut q T) (h1 : Block.store ∈ T) (h2 : Block.up ∈ T) (h3 : Block.faults ∈ T) :
    p.sameBut (storeFailure t n q) T := by
  unfold storeFailure
  (try dsimp only)
  (repeat' split) <;> simp (maxDischargeDepth := 40) [*]

@[simp] theorem same_readDirectory {n : Nat} (h : p.sameBut q T) (h1 : Block.store ∈ T) (h2 : Block.up ∈ T) (h3 : Block.faults ∈ T) :
    p.sameBut (readDirectory n q).1 T := by
  unfold readDirectory
  (try dsimp only)
  (repeat' split) <;> simp (maxDischargeDepth := 40) [*]

@[simp] theorem same_readTune {n : Nat} (h : p.sameBut q T) (h1 : Block.store ∈ T) (h2 : Block.up ∈ T) (h3 : Block.faults ∈ T) :
    p.sameBut (readTune n q).1 T := by
  unfold readTune
  (try dsimp only)
  (repeat' split) <;> simp (maxDischargeDepth := 40) [*]

@[simp] theorem same_readStep {n : Nat} (h : p.sameBut q T) (h1 : Block.store ∈ T) (h2 : Block.up ∈ T) (h3 : Block.faults ∈ T) :
    p.sameBut (readStep n q).1 T := by
  unfold readStep
  (try dsimp only)
  (repeat' split) <;> simp (maxDischargeDepth := 40) [*]

@[simp] theorem same_readChimeSet {n : Nat} (h : p.sameBut q T) (h1 : Block.store ∈ T) (h2 : Block.up ∈ T) (h3 : Block.faults ∈ T) :
    p.sameBut (readChimeSet n q).1 T := by
  unfold readChimeSet
  (try dsimp only)
  (repeat' split) <;> simp (maxDischargeDepth := 40) [*]

@[simp] theorem same_writeDirectory {n : Nat} {bs : List Byte} (h : p.sameBut q T) (h1 : Block.store ∈ T) :
    p.sameBut (writeDirectory n bs q).1 T := by
  unfold writeDirectory
  (try dsimp only)
  (repeat' split) <;> simp (maxDischargeDepth := 40) [*]

@[simp] theorem same_writeStep {n : Nat} {bs : List Byte} (h : p.sameBut q T) (h1 : Block.store ∈ T) :
    p.sameBut (writeStep n bs q).1 T := by
  unfold writeStep
  (try dsimp only)
  (repeat' split) <;> simp (maxDischargeDepth := 40) [*]

@[simp] theorem same_writeChimeSet {n : Nat} {bs : List Byte} (h : p.sameBut q T) (h1 : Block.store ∈ T) :
    p.sameBut (writeChimeSet n bs q).1 T := by
  unfold writeChimeSet
  (try dsimp only)
  (repeat' split) <;> simp (maxDischargeDepth := 40) [*]

@[simp] theorem same_voiceStrike {v : VoiceId} {f d b : Nat} (h : p.sameBut q T) (h1 : Block.dialDriver ∈ T) (h2 : Block.bellGuard ∈ T) (h3 : Block.clock ∈ T) (h4 : Block.tune ∈ T) (h5 : Block.lamps ∈ T) (h6 : Block.budget ∈ T) (h7 : Block.locals ∈ T) :
    p.sameBut (voiceStrike v f d q b) T := by
  unfold voiceStrike
  (try dsimp only)
  (repeat' split) <;> simp (maxDischargeDepth := 40) [*]

@[simp] theorem same_noteBell {v : VoiceId} {f d b : Nat} (h : p.sameBut q T) (h1 : Block.dialDriver ∈ T) (h2 : Block.bellGuard ∈ T) (h3 : Block.clock ∈ T) (h4 : Block.tune ∈ T) (h5 : Block.lamps ∈ T) (h6 : Block.budget ∈ T) (h7 : Block.locals ∈ T) :
    p.sameBut (noteBell v f d q b) T := by
  unfold noteBell
  (try dsimp only)
  (repeat' split) <;> simp (maxDischargeDepth := 40) [*]

@[simp] theorem same_playNote {v : VoiceId} {l : List Nat} {f : Nat} (h : p.sameBut q T) (h1 : Block.dialDriver ∈ T) (h2 : Block.bellGuard ∈ T) (h3 : Block.clock ∈ T) (h4 : Block.tune ∈ T) (h5 : Block.lamps ∈ T) (h6 : Block.budget ∈ T) (h7 : Block.locals ∈ T) :
    p.sameBut (playNote v l f q) T := by
  unfold playNote
  try dsimp only
  exact same_foldl (fun q a => by simp (maxDischargeDepth := 40) [*]) _ (by simp (maxDischargeDepth := 40) [*])

@[simp] theorem same_setStack {v : VoiceId} {l : List PhraseFrame} (h : p.sameBut q T) (h1 : Block.clock ∈ T) (h2 : Block.tune ∈ T) :
    p.sameBut (setStack v l q) T := by
  unfold setStack
  (try dsimp only)
  (repeat' split) <;> simp (maxDischargeDepth := 40) [*]

@[simp] theorem same_addPulses {v : VoiceId} {n : Nat} (h : p.sameBut q T) (h1 : Block.clock ∈ T) (h2 : Block.tune ∈ T) :
    p.sameBut (addPulses v n q) T := by
  unfold addPulses
  (try dsimp only)
  (repeat' split) <;> simp (maxDischargeDepth := 40) [*]

@[simp] theorem same_abandonTune {v : VoiceId} (h : p.sameBut q T) (h1 : Block.dialDriver ∈ T) (h2 : Block.clock ∈ T) (h3 : Block.tune ∈ T) (h4 : Block.lamps ∈ T) (h5 : Block.budget ∈ T) (h6 : Block.locals ∈ T) :
    p.sameBut (abandonTune v q) T := by
  unfold abandonTune
  (try dsimp only)
  (repeat' split) <;> simp (maxDischargeDepth := 40) [*]

@[simp] theorem same_skipCall {v : VoiceId} (h : p.sameBut q T) (h1 : Block.clock ∈ T) (h2 : Block.tune ∈ T) :
    p.sameBut (skipCall v q) T := by
  unfold skipCall
  (try dsimp only)
  (repeat' split) <;> simp (maxDischargeDepth := 40) [*]

@[simp] theorem same_takeSteps {k : Nat} {v : VoiceId} (h : p.sameBut q T) (h1 : Block.dialDriver ∈ T) (h2 : Block.bellGuard ∈ T) (h3 : Block.store ∈ T) (h4 : Block.clock ∈ T) (h5 : Block.tune ∈ T) (h6 : Block.lamps ∈ T) (h7 : Block.budget ∈ T) (h8 : Block.locals ∈ T) (h9 : Block.up ∈ T) (h10 : Block.faults ∈ T) :
    p.sameBut (takeSteps k v q).1 T := by
  induction k generalizing q with
  | zero => exact h
  | succ k ih =>
    unfold takeSteps
    dsimp only
    (repeat' split) <;> simp (maxDischargeDepth := 40) [*]

@[simp] theorem same_enterPausing (h : p.sameBut q T) (h1 : Block.clock ∈ T) :
    p.sameBut (enterPausing q) T := by
  unfold enterPausing
  (try dsimp only)
  (repeat' split) <;> simp (maxDischargeDepth := 40) [*]

@[simp] theorem same_chimeEnded (h : p.sameBut q T) (h1 : Block.dialDriver ∈ T) (h2 : Block.bellGuard ∈ T) (h3 : Block.clock ∈ T) (h4 : Block.tune ∈ T) (h5 : Block.lamps ∈ T) (h6 : Block.budget ∈ T) (h7 : Block.locals ∈ T) :
    p.sameBut (chimeEnded q) T := by
  unfold chimeEnded
  (try dsimp only)
  (repeat' split) <;> simp (maxDischargeDepth := 40) [*]

@[simp] theorem same_playVoice {v : VoiceId} (h : p.sameBut q T) (h1 : Block.dialDriver ∈ T) (h2 : Block.bellGuard ∈ T) (h3 : Block.store ∈ T) (h4 : Block.clock ∈ T) (h5 : Block.tune ∈ T) (h6 : Block.lamps ∈ T) (h7 : Block.budget ∈ T) (h8 : Block.events ∈ T) (h9 : Block.locals ∈ T) (h10 : Block.up ∈ T) (h11 : Block.faults ∈ T) :
    p.sameBut (playVoice v q) T := by
  unfold playVoice
  (try dsimp only)
  (repeat' split) <;> simp (maxDischargeDepth := 40) [*]

@[simp] theorem same_sound {k j : Nat} {c : ChimeSet} {e : Option TuneEntry} {b : Bool} (h : p.sameBut q T) (h1 : Block.dialDriver ∈ T) (h2 : Block.bellGuard ∈ T) (h3 : Block.store ∈ T) (h4 : Block.clock ∈ T) (h5 : Block.tune ∈ T) (h6 : Block.lamps ∈ T) (h7 : Block.budget ∈ T) (h8 : Block.events ∈ T) (h9 : Block.locals ∈ T) (h10 : Block.up ∈ T) (h11 : Block.faults ∈ T) :
    p.sameBut (sound k j c e b q) T := by
  unfold sound
  (try dsimp only)
  (repeat' split) <;> simp (maxDischargeDepth := 40) [*]

@[simp] theorem same_decideQuarter {k j : Nat} {c : ChimeSet} (h : p.sameBut q T) (h1 : Block.dialDriver ∈ T) (h2 : Block.bellGuard ∈ T) (h3 : Block.store ∈ T) (h4 : Block.clock ∈ T) (h5 : Block.tune ∈ T) (h6 : Block.lamps ∈ T) (h7 : Block.budget ∈ T) (h8 : Block.events ∈ T) (h9 : Block.locals ∈ T) (h10 : Block.up ∈ T) (h11 : Block.faults ∈ T) :
    p.sameBut (decideQuarter k j c q) T := by
  unfold decideQuarter
  (try dsimp only)
  (repeat' split) <;> simp (maxDischargeDepth := 40) [*]

@[simp] theorem same_copyChimeSet (h : p.sameBut q T) (h1 : Block.store ∈ T) (h2 : Block.clock ∈ T) (h3 : Block.up ∈ T) (h4 : Block.faults ∈ T) :
    p.sameBut (copyChimeSet q) T := by
  unfold copyChimeSet
  (try dsimp only)
  (repeat' split) <;> simp (maxDischargeDepth := 40) [*]

@[simp] theorem same_takeQuarter {k j : Nat} {l : Bool} (h : p.sameBut q T) (h1 : Block.dialDriver ∈ T) (h2 : Block.bellGuard ∈ T) (h3 : Block.store ∈ T) (h4 : Block.clock ∈ T) (h5 : Block.tune ∈ T) (h6 : Block.lamps ∈ T) (h7 : Block.budget ∈ T) (h8 : Block.events ∈ T) (h9 : Block.locals ∈ T) (h10 : Block.up ∈ T) (h11 : Block.faults ∈ T) :
    p.sameBut (takeQuarter k j l q) T := by
  unfold takeQuarter
  (try dsimp only)
  (repeat' split) <;> simp (maxDischargeDepth := 40) [*]

@[simp] theorem same_blow {t : Nat} {c : ChimeSet} (h : p.sameBut q T) (h1 : Block.dialDriver ∈ T) (h2 : Block.bellGuard ∈ T) (h3 : Block.clock ∈ T) (h4 : Block.tune ∈ T) (h5 : Block.lamps ∈ T) (h6 : Block.budget ∈ T) (h7 : Block.locals ∈ T) :
    p.sameBut (blow t c q) T := by
  unfold blow
  (try dsimp only)
  (repeat' split) <;> simp (maxDischargeDepth := 40) [*]

@[simp] theorem same_startTune {t n : Nat} (h : p.sameBut q T) (h1 : Block.dialDriver ∈ T) (h2 : Block.bellGuard ∈ T) (h3 : Block.store ∈ T) (h4 : Block.clock ∈ T) (h5 : Block.tune ∈ T) (h6 : Block.lamps ∈ T) (h7 : Block.budget ∈ T) (h8 : Block.events ∈ T) (h9 : Block.locals ∈ T) (h10 : Block.up ∈ T) (h11 : Block.faults ∈ T) :
    p.sameBut (startTune t n q).1 T := by
  unfold startTune
  (try dsimp only)
  (repeat' split) <;> simp (maxDischargeDepth := 40) [*]

@[simp] theorem same_stopTune (h : p.sameBut q T) (h1 : Block.tune ∈ T) :
    p.sameBut (stopTune q).1 T := by
  unfold stopTune
  (try dsimp only)
  (repeat' split) <;> simp (maxDischargeDepth := 40) [*]

@[simp] theorem same_tuneDue (h : p.sameBut q T) (h1 : Block.dialDriver ∈ T) (h2 : Block.bellGuard ∈ T) (h3 : Block.store ∈ T) (h4 : Block.clock ∈ T) (h5 : Block.tune ∈ T) (h6 : Block.lamps ∈ T) (h7 : Block.budget ∈ T) (h8 : Block.events ∈ T) (h9 : Block.locals ∈ T) (h10 : Block.up ∈ T) (h11 : Block.faults ∈ T) :
    p.sameBut (tuneDue q) T := by
  unfold tuneDue
  (try dsimp only)
  (repeat' split) <;> simp (maxDischargeDepth := 40) [*]

/-! ## The Lamp Controller and the Feed Budget's events -/

@[simp] theorem same_readScene {n : Nat} (h : p.sameBut q T) (h1 : Block.lamps ∈ T) (h2 : Block.up ∈ T) (h3 : Block.faults ∈ T) :
    p.sameBut (readScene n q).1 T := by
  unfold readScene
  (try dsimp only)
  (repeat' split) <;> simp (maxDischargeDepth := 40) [*]

@[simp] theorem same_writeScene {n : Nat} {bs : List Byte} (h : p.sameBut q T) (h1 : Block.lamps ∈ T) :
    p.sameBut (writeScene n bs q).1 T := by
  unfold writeScene
  (try dsimp only)
  (repeat' split) <;> simp (maxDischargeDepth := 40) [*]

@[simp] theorem same_followRestart {g : Nat} (h : p.sameBut q T) (h1 : Block.dialDriver ∈ T) (h2 : Block.lamps ∈ T) (h3 : Block.budget ∈ T) (h4 : Block.locals ∈ T) :
    p.sameBut (followRestart g q) T := by
  unfold followRestart
  (try dsimp only)
  (repeat' split) <;> simp (maxDischargeDepth := 40) [*]

@[simp] theorem same_sceneGroup {s : Scene} {g : Nat} (h : p.sameBut q T) (h1 : Block.dialDriver ∈ T) (h2 : Block.lamps ∈ T) (h3 : Block.budget ∈ T) (h4 : Block.locals ∈ T) :
    p.sameBut (sceneGroup s q g) T := by
  unfold sceneGroup
  (try dsimp only)
  (repeat' split) <;> simp (maxDischargeDepth := 40) [*]

@[simp] theorem same_applyScene {n : Nat} (h : p.sameBut q T) (h1 : Block.dialDriver ∈ T) (h2 : Block.lamps ∈ T) (h3 : Block.budget ∈ T) (h4 : Block.locals ∈ T) (h5 : Block.up ∈ T) (h6 : Block.faults ∈ T) :
    p.sameBut (applyScene n q).1 T := by
  unfold applyScene
  (try dsimp only)
  (repeat' split) <;> try simp (maxDischargeDepth := 40) [*]
  all_goals exact same_foldl (fun q a => by (try split) <;> simp (maxDischargeDepth := 40) [*]) _ (by simp (maxDischargeDepth := 40) [*])

@[simp] theorem same_compareLevel {g : Nat} (h : p.sameBut q T) (h1 : Block.dialDriver ∈ T) (h2 : Block.lamps ∈ T) (h3 : Block.budget ∈ T) (h4 : Block.locals ∈ T) :
    p.sameBut (compareLevel g q) T := by
  unfold compareLevel
  (try dsimp only)
  (repeat' split) <;> simp (maxDischargeDepth := 40) [*]

@[simp] theorem same_updateGroup {g : Nat} (h : p.sameBut q T) (h1 : Block.dialDriver ∈ T) (h2 : Block.lamps ∈ T) (h3 : Block.budget ∈ T) (h4 : Block.locals ∈ T) :
    p.sameBut (updateGroup q g) T := by
  unfold updateGroup
  (try dsimp only)
  (repeat' split) <;> simp (maxDischargeDepth := 40) [*]

@[simp] theorem same_lampUpdate (h : p.sameBut q T) (h1 : Block.dialDriver ∈ T) (h2 : Block.lamps ∈ T) (h3 : Block.budget ∈ T) (h4 : Block.locals ∈ T) :
    p.sameBut (lampUpdate q) T := by
  unfold lampUpdate
  (try dsimp only)
  all_goals exact same_foldl (fun q a => by (try split) <;> simp (maxDischargeDepth := 40) [*]) _ (by simp (maxDischargeDepth := 40) [*])

@[simp] theorem same_failGroup {g : Nat} {s : LampStatus} (h : p.sameBut q T) (h1 : Block.dialDriver ∈ T) (h2 : Block.lamps ∈ T) (h3 : Block.budget ∈ T) (h4 : Block.locals ∈ T) (h5 : Block.up ∈ T) (h6 : Block.faults ∈ T) :
    p.sameBut (failGroup g s q) T := by
  unfold failGroup
  (try dsimp only)
  (repeat' split) <;> simp (maxDischargeDepth := 40) [*]

@[simp] theorem same_groupReported {g : Nat} {s : LampStatus} (h : p.sameBut q T) (h1 : Block.dialDriver ∈ T) (h2 : Block.lamps ∈ T) (h3 : Block.budget ∈ T) (h4 : Block.locals ∈ T) (h5 : Block.up ∈ T) (h6 : Block.faults ∈ T) :
    p.sameBut (groupReported g s q) T := by
  unfold groupReported
  (try dsimp only)
  (repeat' split) <;> simp (maxDischargeDepth := 40) [*]

@[simp] theorem same_darkenOld {g : Nat} (h : p.sameBut q T) (h1 : Block.dialDriver ∈ T) (h2 : Block.lamps ∈ T) (h3 : Block.budget ∈ T) (h4 : Block.locals ∈ T) :
    p.sameBut (darkenOld g q) T := by
  unfold darkenOld
  (try dsimp only)
  (repeat' split) <;> simp (maxDischargeDepth := 40) [*]

@[simp] theorem same_groupWritten {g : Nat} {c : LampConfig} (h : p.sameBut q T) (h1 : Block.dialDriver ∈ T) (h2 : Block.lamps ∈ T) (h3 : Block.budget ∈ T) (h4 : Block.locals ∈ T) (h5 : Block.flights ∈ T) :
    p.sameBut (groupWritten g c q) T := by
  unfold groupWritten
  (try dsimp only)
  (repeat' split) <;> simp (maxDischargeDepth := 40) [*]

@[simp] theorem same_writeGroup {g : Nat} {bs : List Byte} (h : p.sameBut q T) (h1 : Block.dialDriver ∈ T) (h2 : Block.lamps ∈ T) (h3 : Block.budget ∈ T) (h4 : Block.locals ∈ T) (h5 : Block.flights ∈ T) :
    p.sameBut (writeGroup g bs q).1 T := by
  unfold writeGroup
  (try dsimp only)
  (repeat' split) <;> simp (maxDischargeDepth := 40) [*]

@[simp] theorem same_restoreExpires (h : p.sameBut q T) (h1 : Block.lamps ∈ T) (h2 : Block.budget ∈ T) (h3 : Block.locals ∈ T) :
    p.sameBut (restoreExpires q) T := by
  unfold restoreExpires
  (try dsimp only)
  (repeat' split) <;> simp (maxDischargeDepth := 40) [*]

@[simp] theorem same_reclaimExcess (h : p.sameBut q T) (h1 : Block.dialDriver ∈ T) (h2 : Block.lamps ∈ T) (h3 : Block.budget ∈ T) (h4 : Block.locals ∈ T) :
    p.sameBut (reclaimExcess q) T := by
  unfold reclaimExcess
  (try dsimp only)
  (repeat' split) <;> simp (maxDischargeDepth := 40) [*]

@[simp] theorem same_limitsWritten {t : LimitTable} (h : p.sameBut q T) (h1 : Block.dialDriver ∈ T) (h2 : Block.lamps ∈ T) (h3 : Block.budget ∈ T) (h4 : Block.locals ∈ T) :
    p.sameBut (limitsWritten t q) T := by
  unfold limitsWritten
  (try dsimp only)
  (repeat' split) <;> simp (maxDischargeDepth := 40) [*]

@[simp] theorem same_writeLimits {n : Nat} {bs : List Byte} (h : p.sameBut q T) (h1 : Block.dialDriver ∈ T) (h2 : Block.lamps ∈ T) (h3 : Block.budget ∈ T) (h4 : Block.locals ∈ T) :
    p.sameBut (writeLimits n bs q).1 T := by
  unfold writeLimits
  (try dsimp only)
  (repeat' split) <;> simp (maxDischargeDepth := 40) [*]

@[simp] theorem same_stageChanged {s : Stage} (h : p.sameBut q T) (h1 : Block.dialDriver ∈ T) (h2 : Block.lamps ∈ T) (h3 : Block.budget ∈ T) (h4 : Block.events ∈ T) (h5 : Block.locals ∈ T) (h6 : Block.up ∈ T) (h7 : Block.faults ∈ T) :
    p.sameBut (stageChanged s q) T := by
  unfold stageChanged
  (try dsimp only)
  (repeat' split) <;> simp (maxDischargeDepth := 40) [*]

@[simp] theorem same_feedReported {m : Option Nat} {n : Nat} {s : Stage} (h : p.sameBut q T) (h1 : Block.dialDriver ∈ T) (h2 : Block.lamps ∈ T) (h3 : Block.budget ∈ T) (h4 : Block.events ∈ T) (h5 : Block.locals ∈ T) (h6 : Block.up ∈ T) (h7 : Block.faults ∈ T) :
    p.sameBut (feedReported m n s q) T := by
  unfold feedReported
  (try dsimp only)
  (repeat' split) <;> simp (maxDischargeDepth := 40) [*]

@[simp] theorem same_releaseTaken (h : p.sameBut q T) (h1 : Block.dialDriver ∈ T) (h2 : Block.lamps ∈ T) (h3 : Block.budget ∈ T) (h4 : Block.locals ∈ T) :
    p.sameBut (releaseTaken q) T := by
  unfold releaseTaken
  (try dsimp only)
  (repeat' split) <;> simp (maxDischargeDepth := 40) [*]

/-! ## The Calendar -/

@[simp] theorem same_dropDue {k : DueKind} (h : p.sameBut q T) (h1 : Block.cal ∈ T) :
    p.sameBut (dropDue k q) T := by
  unfold dropDue
  (try dsimp only)
  (repeat' split) <;> simp (maxDischargeDepth := 40) [*]

@[simp] theorem same_calDisabled {t : CalTable} {n : Nat} (h : p.sameBut q T) (h1 : Block.cal ∈ T) :
    p.sameBut (calDisabled t n q) T := by
  unfold calDisabled
  (try dsimp only)
  (repeat' split) <;> simp (maxDischargeDepth := 40) [*]

@[simp] theorem same_calFailure {t : CalTable} {n : Nat} (h : p.sameBut q T) (h1 : Block.cal ∈ T) (h2 : Block.up ∈ T) (h3 : Block.faults ∈ T) :
    p.sameBut (calFailure t n q) T := by
  unfold calFailure
  (try dsimp only)
  (repeat' split) <;> simp (maxDischargeDepth := 40) [*]

@[simp] theorem same_readCal {α : Type} {t : CalTable} {f : α → List Byte} {n : Nat} {r : Checked α} (h : p.sameBut q T) (h1 : Block.cal ∈ T) (h2 : Block.up ∈ T) (h3 : Block.faults ∈ T) :
    p.sameBut (readCal t f n r q).1 T := by
  unfold readCal
  (try dsimp only)
  (repeat' split) <;> simp (maxDischargeDepth := 40) [*]

@[simp] theorem same_calMended {t : CalTable} {n : Nat} (h : p.sameBut q T) (h1 : Block.cal ∈ T) :
    p.sameBut (calMended t n q) T := by
  unfold calMended
  (try dsimp only)
  (repeat' split) <;> simp (maxDischargeDepth := 40) [*]

@[simp] theorem same_recomputeClasses (h : p.sameBut q T) (h1 : Block.cal ∈ T) (h2 : Block.up ∈ T) (h3 : Block.faults ∈ T) :
    p.sameBut (recomputeClasses q) T := by
  unfold recomputeClasses
  have : p.sameBut ((List.range 64).foldl classEntry (q, [])).1 T :=
    same_foldl_fst (fun {acc a} ha => by simp (maxDischargeDepth := 40) [classEntry, *]) h
  simp [*]

@[simp] theorem same_sunInstants {d : Date} (h : p.sameBut q T) (h1 : Block.cal ∈ T) (h2 : Block.up ∈ T) (h3 : Block.faults ∈ T) :
    p.sameBut (sunInstants d q).1 T := by
  unfold sunInstants
  (try dsimp only)
  (repeat' split) <;> simp (maxDischargeDepth := 40) [*]

@[simp] theorem same_rebuildEntry {d : Date} {j : OffsetHistory} {s : Option (Int × Int)} {n : Nat} (h : p.sameBut q T) (h1 : Block.cal ∈ T) (h2 : Block.up ∈ T) (h3 : Block.faults ∈ T) :
    p.sameBut (rebuildEntry d j s q n) T := by
  unfold rebuildEntry
  (try dsimp only)
  (repeat' split) <;> simp (maxDischargeDepth := 40) [*]

@[simp] theorem same_rebuildEntryUnset {n : Nat} (h : p.sameBut q T) (h1 : Block.cal ∈ T) (h2 : Block.up ∈ T) (h3 : Block.faults ∈ T) :
    p.sameBut (rebuildEntryUnset q n) T := by
  unfold rebuildEntryUnset
  (try dsimp only)
  (repeat' split) <;> simp (maxDischargeDepth := 40) [*]

@[simp] theorem same_decideItem {k : DueKind} {f : Bool} (h : p.sameBut q T) (h1 : Block.cal ∈ T) :
    p.sameBut (decideItem k f q) T := by
  unfold decideItem
  (try dsimp only)
  (repeat' split) <;> simp (maxDischargeDepth := 40) [*]

@[simp] theorem same_doAction {s : ActionSource} {a : Action} (h : p.sameBut q T) (h1 : Block.dialDriver ∈ T) (h2 : Block.bellGuard ∈ T) (h3 : Block.store ∈ T) (h4 : Block.clock ∈ T) (h5 : Block.tune ∈ T) (h6 : Block.lamps ∈ T) (h7 : Block.budget ∈ T) (h8 : Block.cal ∈ T) (h9 : Block.events ∈ T) (h10 : Block.locals ∈ T) (h11 : Block.up ∈ T) (h12 : Block.faults ∈ T) :
    p.sameBut (doAction s a q).1 T := by
  unfold doAction
  (try dsimp only)
  (repeat' split) <;> simp (maxDischargeDepth := 40) [*]

@[simp] theorem same_countRefusal {s : ActionSource} {k : Nat} {c : Code} (h : p.sameBut q T) (h1 : Block.cal ∈ T) :
    p.sameBut (countRefusal s k c q) T := by
  unfold countRefusal
  (try dsimp only)
  (repeat' split) <;> simp (maxDischargeDepth := 40) [*]

@[simp] theorem same_reapplyScene {s : ActionSource} {a : Action} (h : p.sameBut q T) (h1 : Block.dialDriver ∈ T) (h2 : Block.lamps ∈ T) (h3 : Block.budget ∈ T) (h4 : Block.cal ∈ T) (h5 : Block.locals ∈ T) (h6 : Block.up ∈ T) (h7 : Block.faults ∈ T) :
    p.sameBut (reapplyScene s a q) T := by
  unfold reapplyScene
  (try dsimp only)
  (repeat' split) <;> simp (maxDischargeDepth := 40) [*]

@[simp] theorem same_perform {s : ActionSource} {a : Action} (h : p.sameBut q T) (h1 : Block.dialDriver ∈ T) (h2 : Block.bellGuard ∈ T) (h3 : Block.store ∈ T) (h4 : Block.clock ∈ T) (h5 : Block.tune ∈ T) (h6 : Block.lamps ∈ T) (h7 : Block.budget ∈ T) (h8 : Block.cal ∈ T) (h9 : Block.events ∈ T) (h10 : Block.locals ∈ T) (h11 : Block.up ∈ T) (h12 : Block.faults ∈ T) :
    p.sameBut (perform s a q) T := by
  unfold perform
  (try dsimp only)
  (repeat' split) <;> simp (maxDischargeDepth := 40) [*]

@[simp] theorem same_fireItem {l : Bool} {k : DueKind} (h : p.sameBut q T) (h1 : Block.dialDriver ∈ T) (h2 : Block.bellGuard ∈ T) (h3 : Block.store ∈ T) (h4 : Block.clock ∈ T) (h5 : Block.tune ∈ T) (h6 : Block.lamps ∈ T) (h7 : Block.budget ∈ T) (h8 : Block.cal ∈ T) (h9 : Block.events ∈ T) (h10 : Block.locals ∈ T) (h11 : Block.up ∈ T) (h12 : Block.faults ∈ T) :
    p.sameBut (fireItem l k q) T := by
  unfold fireItem
  (try dsimp only)
  (repeat' split) <;> simp (maxDischargeDepth := 40) [*]

@[simp] theorem same_skipItem {k : DueKind} (h : p.sameBut q T) (h1 : Block.cal ∈ T) :
    p.sameBut (skipItem k q) T := by
  unfold skipItem
  (try dsimp only)
  (repeat' split) <;> simp (maxDischargeDepth := 40) [*]

@[simp] theorem same_passItem {x : DueItem} (h : p.sameBut q T) (h1 : Block.dialDriver ∈ T) (h2 : Block.bellGuard ∈ T) (h3 : Block.store ∈ T) (h4 : Block.clock ∈ T) (h5 : Block.tune ∈ T) (h6 : Block.lamps ∈ T) (h7 : Block.budget ∈ T) (h8 : Block.cal ∈ T) (h9 : Block.events ∈ T) (h10 : Block.locals ∈ T) (h11 : Block.up ∈ T) (h12 : Block.faults ∈ T) :
    p.sameBut (passItem q x) T := by
  unfold passItem
  (try dsimp only)
  (repeat' split) <;> simp (maxDischargeDepth := 40) [*]

@[simp] theorem same_passItems (h : p.sameBut q T) (h1 : Block.dialDriver ∈ T) (h2 : Block.bellGuard ∈ T) (h3 : Block.store ∈ T) (h4 : Block.clock ∈ T) (h5 : Block.tune ∈ T) (h6 : Block.lamps ∈ T) (h7 : Block.budget ∈ T) (h8 : Block.cal ∈ T) (h9 : Block.events ∈ T) (h10 : Block.locals ∈ T) (h11 : Block.up ∈ T) (h12 : Block.faults ∈ T) :
    p.sameBut (passItems q) T := by
  unfold passItems
  try dsimp only
  exact same_foldl (fun q a => by simp (maxDischargeDepth := 40) [*]) _ (by simp (maxDischargeDepth := 40) [*])

@[simp] theorem same_rebuildWith {j : OffsetHistory} (h : p.sameBut q T) (h1 : Block.dialDriver ∈ T) (h2 : Block.bellGuard ∈ T) (h3 : Block.store ∈ T) (h4 : Block.clock ∈ T) (h5 : Block.tune ∈ T) (h6 : Block.lamps ∈ T) (h7 : Block.budget ∈ T) (h8 : Block.cal ∈ T) (h9 : Block.events ∈ T) (h10 : Block.locals ∈ T) (h11 : Block.up ∈ T) (h12 : Block.faults ∈ T) :
    p.sameBut (rebuildWith j q) T := by
  unfold rebuildWith
  dsimp only
  (repeat' split)
  · exact same_foldl (fun q a => by simp (maxDischargeDepth := 40) [*]) _ (by simp (maxDischargeDepth := 40) [*])
  · refine same_passItems ?_ h1 h2 h3 h4 h5 h6 h7 h8 h9 h10 h11 h12
    have k : ∀ (x y : Part) z w, x.sameBut y T → x.sameBut ((List.range 128).foldl (rebuildEntry z j w) y) T :=
      fun x y z w hy => same_foldl (fun q a => by simp (maxDischargeDepth := 40) [*]) _ hy
    simp (maxDischargeDepth := 40) [*]
  · exact same_foldl (fun q a => by simp (maxDischargeDepth := 40) [*]) _ (by simp (maxDischargeDepth := 40) [*])

@[simp] theorem same_rebuild (h : p.sameBut q T) (h1 : Block.dialDriver ∈ T) (h2 : Block.bellGuard ∈ T) (h3 : Block.store ∈ T) (h4 : Block.clock ∈ T) (h5 : Block.tune ∈ T) (h6 : Block.lamps ∈ T) (h7 : Block.budget ∈ T) (h8 : Block.cal ∈ T) (h9 : Block.events ∈ T) (h10 : Block.locals ∈ T) (h11 : Block.up ∈ T) (h12 : Block.faults ∈ T) :
    p.sameBut (rebuild q) T := by
  unfold rebuild
  (try dsimp only)
  (repeat' split) <;> simp (maxDischargeDepth := 40) [*]

@[simp] theorem same_calDateChange (h : p.sameBut q T) (h1 : Block.dialDriver ∈ T) (h2 : Block.bellGuard ∈ T) (h3 : Block.store ∈ T) (h4 : Block.clock ∈ T) (h5 : Block.tune ∈ T) (h6 : Block.lamps ∈ T) (h7 : Block.budget ∈ T) (h8 : Block.cal ∈ T) (h9 : Block.events ∈ T) (h10 : Block.locals ∈ T) (h11 : Block.up ∈ T) (h12 : Block.faults ∈ T) :
    p.sameBut (calDateChange q) T := by
  unfold calDateChange
  (try dsimp only)
  (repeat' split) <;> simp (maxDischargeDepth := 40) [*]

@[simp] theorem same_calStepForward (h : p.sameBut q T) (h1 : Block.dialDriver ∈ T) (h2 : Block.bellGuard ∈ T) (h3 : Block.store ∈ T) (h4 : Block.clock ∈ T) (h5 : Block.tune ∈ T) (h6 : Block.lamps ∈ T) (h7 : Block.budget ∈ T) (h8 : Block.cal ∈ T) (h9 : Block.events ∈ T) (h10 : Block.locals ∈ T) (h11 : Block.up ∈ T) (h12 : Block.faults ∈ T) :
    p.sameBut (calStepForward q) T := by
  unfold calStepForward
  (try dsimp only)
  (repeat' split) <;> simp (maxDischargeDepth := 40) [*]

@[simp] theorem same_calUnset (h : p.sameBut q T) (h1 : Block.cal ∈ T) :
    p.sameBut (calUnset q) T := by
  unfold calUnset
  (try dsimp only)
  all_goals exact same_foldl (fun q a => by (try split) <;> simp (maxDischargeDepth := 40) [*]) _ (by simp (maxDischargeDepth := 40) [*])

@[simp] theorem same_scheduleReached (h : p.sameBut q T) (h1 : Block.dialDriver ∈ T) (h2 : Block.bellGuard ∈ T) (h3 : Block.store ∈ T) (h4 : Block.clock ∈ T) (h5 : Block.tune ∈ T) (h6 : Block.lamps ∈ T) (h7 : Block.budget ∈ T) (h8 : Block.cal ∈ T) (h9 : Block.events ∈ T) (h10 : Block.locals ∈ T) (h11 : Block.up ∈ T) (h12 : Block.faults ∈ T) :
    p.sameBut (scheduleReached q) T := by
  unfold scheduleReached
  try dsimp only
  exact same_foldl (fun q a => by simp (maxDischargeDepth := 40) [*]) _ (by simp (maxDischargeDepth := 40) [*])

@[simp] theorem same_linkActs {e : CueEvent} {n : Nat} (h : p.sameBut q T) (h1 : Block.dialDriver ∈ T) (h2 : Block.bellGuard ∈ T) (h3 : Block.store ∈ T) (h4 : Block.clock ∈ T) (h5 : Block.tune ∈ T) (h6 : Block.lamps ∈ T) (h7 : Block.budget ∈ T) (h8 : Block.cal ∈ T) (h9 : Block.events ∈ T) (h10 : Block.locals ∈ T) (h11 : Block.up ∈ T) (h12 : Block.faults ∈ T) :
    p.sameBut (linkActs e q n) T := by
  unfold linkActs
  (try dsimp only)
  (repeat' split) <;> simp (maxDischargeDepth := 40) [*]

@[simp] theorem same_takeCueEvent (h : p.sameBut q T) (h1 : Block.dialDriver ∈ T) (h2 : Block.bellGuard ∈ T) (h3 : Block.store ∈ T) (h4 : Block.clock ∈ T) (h5 : Block.tune ∈ T) (h6 : Block.lamps ∈ T) (h7 : Block.budget ∈ T) (h8 : Block.cal ∈ T) (h9 : Block.events ∈ T) (h10 : Block.locals ∈ T) (h11 : Block.up ∈ T) (h12 : Block.faults ∈ T) :
    p.sameBut (takeCueEvent q) T := by
  unfold takeCueEvent
  (try dsimp only)
  (repeat' split) <;> try simp (maxDischargeDepth := 40) [*]
  all_goals exact same_foldl (fun q a => by (try split) <;> simp (maxDischargeDepth := 40) [*]) _ (by simp (maxDischargeDepth := 40) [*])

@[simp] theorem same_writeDayClass {n : Nat} {bs : List Byte} (h : p.sameBut q T) (h1 : Block.dialDriver ∈ T) (h2 : Block.bellGuard ∈ T) (h3 : Block.store ∈ T) (h4 : Block.clock ∈ T) (h5 : Block.tune ∈ T) (h6 : Block.lamps ∈ T) (h7 : Block.budget ∈ T) (h8 : Block.cal ∈ T) (h9 : Block.events ∈ T) (h10 : Block.locals ∈ T) (h11 : Block.up ∈ T) (h12 : Block.faults ∈ T) :
    p.sameBut (writeDayClass n bs q).1 T := by
  unfold writeDayClass
  (try dsimp only)
  (repeat' split) <;> simp (maxDischargeDepth := 40) [*]

@[simp] theorem same_writeSun {n : Nat} {bs : List Byte} (h : p.sameBut q T) (h1 : Block.dialDriver ∈ T) (h2 : Block.bellGuard ∈ T) (h3 : Block.store ∈ T) (h4 : Block.clock ∈ T) (h5 : Block.tune ∈ T) (h6 : Block.lamps ∈ T) (h7 : Block.budget ∈ T) (h8 : Block.cal ∈ T) (h9 : Block.events ∈ T) (h10 : Block.locals ∈ T) (h11 : Block.up ∈ T) (h12 : Block.faults ∈ T) :
    p.sameBut (writeSun n bs q).1 T := by
  unfold writeSun
  (try dsimp only)
  (repeat' split) <;> simp (maxDischargeDepth := 40) [*]

@[simp] theorem same_writeSchedule {n : Nat} {bs : List Byte} (h : p.sameBut q T) (h1 : Block.dialDriver ∈ T) (h2 : Block.bellGuard ∈ T) (h3 : Block.store ∈ T) (h4 : Block.clock ∈ T) (h5 : Block.tune ∈ T) (h6 : Block.lamps ∈ T) (h7 : Block.budget ∈ T) (h8 : Block.cal ∈ T) (h9 : Block.events ∈ T) (h10 : Block.locals ∈ T) (h11 : Block.up ∈ T) (h12 : Block.faults ∈ T) :
    p.sameBut (writeSchedule n bs q).1 T := by
  unfold writeSchedule
  (try dsimp only)
  (repeat' split) <;> simp (maxDischargeDepth := 40) [*]

@[simp] theorem same_writeLink {n : Nat} {bs : List Byte} (h : p.sameBut q T) (h1 : Block.cal ∈ T) :
    p.sameBut (writeLink n bs q).1 T := by
  unfold writeLink
  (try dsimp only)
  (repeat' split) <;> simp (maxDischargeDepth := 40) [*]

@[simp] theorem same_writeCalendarConfig {n : Nat} {bs : List Byte} (h : p.sameBut q T) (h1 : Block.dialDriver ∈ T) (h2 : Block.bellGuard ∈ T) (h3 : Block.store ∈ T) (h4 : Block.clock ∈ T) (h5 : Block.tune ∈ T) (h6 : Block.lamps ∈ T) (h7 : Block.budget ∈ T) (h8 : Block.cal ∈ T) (h9 : Block.events ∈ T) (h10 : Block.locals ∈ T) (h11 : Block.up ∈ T) (h12 : Block.faults ∈ T) :
    p.sameBut (writeCalendarConfig n bs q).1 T := by
  unfold writeCalendarConfig
  (try dsimp only)
  (repeat' split) <;> simp (maxDischargeDepth := 40) [*]

/-! ## The Bell Guard's events -/

@[simp] theorem same_examineIntrusion {b : Nat} {x : ReportedPosition} (h : p.sameBut q T) (h1 : Block.dialDriver ∈ T) (h2 : Block.bellGuard ∈ T) (h3 : Block.session ∈ T) (h4 : Block.clock ∈ T) (h5 : Block.tune ∈ T) (h6 : Block.lamps ∈ T) (h7 : Block.budget ∈ T) (h8 : Block.events ∈ T) (h9 : Block.safety ∈ T) (h10 : Block.locals ∈ T) (h11 : Block.up ∈ T) (h12 : Block.faults ∈ T) :
    p.sameBut (examineIntrusion b x q) T := by
  unfold examineIntrusion
  (try dsimp only)
  (repeat' split) <;> simp (maxDischargeDepth := 40) [*]

@[simp] theorem same_bellReported {b k : Nat} {x : ReportedPosition} (h : p.sameBut q T) (h1 : Block.dialDriver ∈ T) (h2 : Block.bellGuard ∈ T) (h3 : Block.session ∈ T) (h4 : Block.clock ∈ T) (h5 : Block.tune ∈ T) (h6 : Block.lamps ∈ T) (h7 : Block.budget ∈ T) (h8 : Block.events ∈ T) (h9 : Block.safety ∈ T) (h10 : Block.locals ∈ T) (h11 : Block.up ∈ T) (h12 : Block.faults ∈ T) :
    p.sameBut (bellReported b x k q) T := by
  unfold bellReported
  (try dsimp only)
  (repeat' split) <;> simp (maxDischargeDepth := 40) [*]

@[simp] theorem same_takeBellState {s b k : Nat} {x : ReportedPosition} (h : p.sameBut q T) (h1 : Block.dialDriver ∈ T) (h2 : Block.bellGuard ∈ T) (h3 : Block.session ∈ T) (h4 : Block.clock ∈ T) (h5 : Block.tune ∈ T) (h6 : Block.lamps ∈ T) (h7 : Block.budget ∈ T) (h8 : Block.events ∈ T) (h9 : Block.safety ∈ T) (h10 : Block.locals ∈ T) (h11 : Block.up ∈ T) (h12 : Block.faults ∈ T) :
    p.sameBut (takeBellState s b x k q) T := by
  unfold takeBellState
  (try dsimp only)
  (repeat' split) <;> simp (maxDischargeDepth := 40) [*]

@[simp] theorem same_bellSettles {b : Nat} (h : p.sameBut q T) (h1 : Block.bellGuard ∈ T) (h2 : Block.session ∈ T) (h3 : Block.events ∈ T) (h4 : Block.safety ∈ T) (h5 : Block.up ∈ T) :
    p.sameBut (bellSettles b q) T := by
  unfold bellSettles
  (try dsimp only)
  (repeat' split) <;> simp (maxDischargeDepth := 40) [*]

@[simp] theorem same_sensorExpires {b : Nat} (h : p.sameBut q T) (h1 : Block.bellGuard ∈ T) (h2 : Block.up ∈ T) (h3 : Block.faults ∈ T) :
    p.sameBut (sensorExpires b q) T := by
  unfold sensorExpires
  (try dsimp only)
  (repeat' split) <;> simp (maxDischargeDepth := 40) [*]

@[simp] theorem same_hammerJams {b : Nat} (h : p.sameBut q T) (h1 : Block.dialDriver ∈ T) (h2 : Block.bellGuard ∈ T) (h3 : Block.session ∈ T) (h4 : Block.clock ∈ T) (h5 : Block.tune ∈ T) (h6 : Block.lamps ∈ T) (h7 : Block.budget ∈ T) (h8 : Block.events ∈ T) (h9 : Block.safety ∈ T) (h10 : Block.locals ∈ T) (h11 : Block.up ∈ T) (h12 : Block.faults ∈ T) :
    p.sameBut (hammerJams b q) T := by
  unfold hammerJams
  (try dsimp only)
  (repeat' split) <;> simp (maxDischargeDepth := 40) [*]

@[simp] theorem same_hammerReported {b : Nat} {a : HammerAnswer} (h : p.sameBut q T) (h1 : Block.dialDriver ∈ T) (h2 : Block.bellGuard ∈ T) (h3 : Block.session ∈ T) (h4 : Block.clock ∈ T) (h5 : Block.tune ∈ T) (h6 : Block.lamps ∈ T) (h7 : Block.budget ∈ T) (h8 : Block.events ∈ T) (h9 : Block.safety ∈ T) (h10 : Block.locals ∈ T) (h11 : Block.up ∈ T) (h12 : Block.faults ∈ T) :
    p.sameBut (hammerReported b a q) T := by
  unfold hammerReported
  (try dsimp only)
  (repeat' split) <;> simp (maxDischargeDepth := 40) [*]

@[simp] theorem same_takeHammerReport {s c : Nat} {a : HammerAnswer} (h : p.sameBut q T) (h1 : Block.dialDriver ∈ T) (h2 : Block.bellGuard ∈ T) (h3 : Block.session ∈ T) (h4 : Block.clock ∈ T) (h5 : Block.tune ∈ T) (h6 : Block.lamps ∈ T) (h7 : Block.budget ∈ T) (h8 : Block.events ∈ T) (h9 : Block.safety ∈ T) (h10 : Block.locals ∈ T) (h11 : Block.up ∈ T) (h12 : Block.faults ∈ T) :
    p.sameBut (takeHammerReport s c a q) T := by
  unfold takeHammerReport
  (try dsimp only)
  (repeat' split) <;> simp (maxDischargeDepth := 40) [*]

@[simp] theorem same_hammerExpires {b : Nat} (h : p.sameBut q T) (h1 : Block.dialDriver ∈ T) (h2 : Block.bellGuard ∈ T) (h3 : Block.session ∈ T) (h4 : Block.clock ∈ T) (h5 : Block.tune ∈ T) (h6 : Block.lamps ∈ T) (h7 : Block.budget ∈ T) (h8 : Block.events ∈ T) (h9 : Block.safety ∈ T) (h10 : Block.locals ∈ T) (h11 : Block.up ∈ T) (h12 : Block.faults ∈ T) :
    p.sameBut (hammerExpires b q) T := by
  unfold hammerExpires
  (try dsimp only)
  (repeat' split) <;> simp (maxDischargeDepth := 40) [*]

@[simp] theorem same_claimBells {s : Nat} {l : List Nat} (h : p.sameBut q T) (h1 : Block.bellGuard ∈ T) :
    p.sameBut (claimBells s l q).1 T := by
  unfold claimBells
  (try dsimp only)
  (repeat' split) <;> try simp (maxDischargeDepth := 40) [*]
  all_goals exact same_foldl (fun q a => by (try split) <;> simp (maxDischargeDepth := 40) [*]) _ (by simp (maxDischargeDepth := 40) [*])

@[simp] theorem same_releaseConsole {b : Nat} (h : p.sameBut q T) (h1 : Block.bellGuard ∈ T) :
    p.sameBut (releaseConsole q b) T := by
  unfold releaseConsole
  (try dsimp only)
  (repeat' split) <;> simp (maxDischargeDepth := 40) [*]

@[simp] theorem same_releaseNamed {b : Nat} (h : p.sameBut q T) (h1 : Block.bellGuard ∈ T) :
    p.sameBut (releaseNamed q b) T := by
  unfold releaseNamed
  (try dsimp only)
  (repeat' split) <;> simp (maxDischargeDepth := 40) [*]

@[simp] theorem same_releaseBells {l : List Nat} (h : p.sameBut q T) (h1 : Block.bellGuard ∈ T) :
    p.sameBut (releaseBells l q).1 T := by
  unfold releaseBells
  (try dsimp only)
  (repeat' split) <;> try simp (maxDischargeDepth := 40) [*]
  all_goals exact same_foldl (fun q a => by (try split) <;> simp (maxDischargeDepth := 40) [*]) _ (by simp (maxDischargeDepth := 40) [*])

@[simp] theorem same_restartConsoleIdle {b : Nat} (h : p.sameBut q T) (h1 : Block.bellGuard ∈ T) :
    p.sameBut (restartConsoleIdle b q) T := by
  unfold restartConsoleIdle
  (try dsimp only)
  (repeat' split) <;> simp (maxDischargeDepth := 40) [*]

@[simp] theorem same_startSetting {b : Nat} (h : p.sameBut q T) (h1 : Block.bellGuard ∈ T) (h2 : Block.session ∈ T) (h3 : Block.events ∈ T) (h4 : Block.safety ∈ T) (h5 : Block.up ∈ T) :
    p.sameBut (startSetting q b) T := by
  unfold startSetting
  (try dsimp only)
  (repeat' split) <;> simp (maxDischargeDepth := 40) [*]

@[simp] theorem same_withdrawSetting {b : Nat} (h : p.sameBut q T) (h1 : Block.safety ∈ T) :
    p.sameBut (withdrawSetting b q) T := by
  unfold withdrawSetting
  (try dsimp only)
  (repeat' split) <;> simp (maxDischargeDepth := 40) [*]

@[simp] theorem same_bellWritten {b : Nat} {c : BellConfig} (h : p.sameBut q T) (h1 : Block.bellGuard ∈ T) (h2 : Block.session ∈ T) (h3 : Block.events ∈ T) (h4 : Block.safety ∈ T) (h5 : Block.up ∈ T) :
    p.sameBut (bellWritten b c q) T := by
  unfold bellWritten
  (try dsimp only)
  (repeat' split) <;> simp (maxDischargeDepth := 40) [*]

@[simp] theorem same_writeBell {b : Nat} {bs : List Byte} (h : p.sameBut q T) (h1 : Block.bellGuard ∈ T) (h2 : Block.session ∈ T) (h3 : Block.events ∈ T) (h4 : Block.safety ∈ T) (h5 : Block.up ∈ T) :
    p.sameBut (writeBell b bs q).1 T := by
  unfold writeBell
  (try dsimp only)
  (repeat' split) <;> simp (maxDischargeDepth := 40) [*]

@[simp] theorem same_writeGuardConfig {n : Nat} {bs : List Byte} (h : p.sameBut q T) (h1 : Block.bellGuard ∈ T) (h2 : Block.up ∈ T) (h3 : Block.faults ∈ T) :
    p.sameBut (writeGuardConfig n bs q).1 T := by
  unfold writeGuardConfig
  (try dsimp only)
  (repeat' split) <;> try simp (maxDischargeDepth := 40) [*]
  all_goals exact same_foldl (fun q a => by (try split) <;> simp (maxDischargeDepth := 40) [*]) _ (by simp (maxDischargeDepth := 40) [*])

/-! ## The Line Switch -/

@[simp] theorem same_copyClass {f : Frame} (h : p.sameBut q T) (h1 : Block.dialDriver ∈ T) (h2 : Block.bellGuard ∈ T) (h3 : Block.session ∈ T) (h4 : Block.clock ∈ T) (h5 : Block.tune ∈ T) (h6 : Block.lamps ∈ T) (h7 : Block.budget ∈ T) (h8 : Block.events ∈ T) (h9 : Block.safety ∈ T) (h10 : Block.locals ∈ T) (h11 : Block.up ∈ T) (h12 : Block.faults ∈ T) (h13 : Block.mgmt ∈ T) :
    p.sameBut (copyClass f q).1 T := by
  unfold copyClass
  (try dsimp only)
  (repeat' split) <;> simp (maxDischargeDepth := 40) [*]

@[simp] theorem same_deliverCopy {t : Port} {f : Frame} (h : p.sameBut q T) (h1 : Block.dialDriver ∈ T) (h2 : Block.bellGuard ∈ T) (h3 : Block.session ∈ T) (h4 : Block.clock ∈ T) (h5 : Block.tune ∈ T) (h6 : Block.lamps ∈ T) (h7 : Block.budget ∈ T) (h8 : Block.events ∈ T) (h9 : Block.routes ∈ T) (h10 : Block.copies ∈ T) (h11 : Block.safety ∈ T) (h12 : Block.locals ∈ T) (h13 : Block.up ∈ T) (h14 : Block.faults ∈ T) (h15 : Block.mgmt ∈ T) :
    p.sameBut (deliverCopy t f q) T := by
  unfold deliverCopy
  (try dsimp only)
  (repeat' split) <;> simp (maxDischargeDepth := 40) [*]

@[simp] theorem same_deliverFrame {f : Frame} (h : p.sameBut q T) (h1 : Block.dialDriver ∈ T) (h2 : Block.bellGuard ∈ T) (h3 : Block.session ∈ T) (h4 : Block.clock ∈ T) (h5 : Block.tune ∈ T) (h6 : Block.lamps ∈ T) (h7 : Block.budget ∈ T) (h8 : Block.events ∈ T) (h9 : Block.routes ∈ T) (h10 : Block.safety ∈ T) (h11 : Block.locals ∈ T) (h12 : Block.up ∈ T) (h13 : Block.faults ∈ T) (h14 : Block.requests ∈ T) (h15 : Block.mgmt ∈ T) :
    p.sameBut (deliverFrame f q) T := by
  unfold deliverFrame
  (try dsimp only)
  (repeat' split) <;> simp (maxDischargeDepth := 40) [*]

@[simp] theorem same_readRoute {n : Nat} (h : p.sameBut q T) (h1 : Block.dialDriver ∈ T) (h2 : Block.bellGuard ∈ T) (h3 : Block.session ∈ T) (h4 : Block.clock ∈ T) (h5 : Block.tune ∈ T) (h6 : Block.lamps ∈ T) (h7 : Block.budget ∈ T) (h8 : Block.events ∈ T) (h9 : Block.routes ∈ T) (h10 : Block.safety ∈ T) (h11 : Block.locals ∈ T) (h12 : Block.up ∈ T) (h13 : Block.faults ∈ T) :
    p.sameBut (readRoute n q).1 T := by
  unfold readRoute
  (try dsimp only)
  (repeat' split) <;> simp (maxDischargeDepth := 40) [*]

@[simp] theorem same_matchRoute {t : Port} {f : Frame} {l : List Nat} (h : p.sameBut q T) (h1 : Block.dialDriver ∈ T) (h2 : Block.bellGuard ∈ T) (h3 : Block.session ∈ T) (h4 : Block.clock ∈ T) (h5 : Block.tune ∈ T) (h6 : Block.lamps ∈ T) (h7 : Block.budget ∈ T) (h8 : Block.events ∈ T) (h9 : Block.routes ∈ T) (h10 : Block.safety ∈ T) (h11 : Block.locals ∈ T) (h12 : Block.up ∈ T) (h13 : Block.faults ∈ T) :
    p.sameBut (matchRoute t f l q).1 T := by
  induction l generalizing q with
  | nil => exact h
  | cons n l ih =>
    unfold matchRoute
    dsimp only
    (repeat' split) <;> simp (maxDischargeDepth := 40) [*]

@[simp] theorem same_writeRoute {n : Nat} {bs : List Byte} (h : p.sameBut q T) (h1 : Block.routes ∈ T) :
    p.sameBut (writeRoute n bs q).1 T := by
  unfold writeRoute
  (try dsimp only)
  (repeat' split) <;> simp (maxDischargeDepth := 40) [*]

@[simp] theorem same_offerPass {i : PassItem} (h : p.sameBut q T) (h1 : Block.routes ∈ T) (h2 : Block.pass ∈ T) :
    p.sameBut (offerPass i q) T := by
  unfold offerPass
  (try dsimp only)
  (repeat' split) <;> simp (maxDischargeDepth := 40) [*]

@[simp] theorem same_forwardFrame {t : Port} {f : Frame} (h : p.sameBut q T) (h1 : Block.routes ∈ T) (h2 : Block.pass ∈ T) (h3 : Block.up ∈ T) :
    p.sameBut (forwardFrame t f q) T := by
  unfold forwardFrame
  (try dsimp only)
  (repeat' split) <;> simp (maxDischargeDepth := 40) [*]

@[simp] theorem same_dropFrame {t : Port} (h : p.sameBut q T) (h1 : Block.ports ∈ T) :
    p.sameBut (dropFrame t q) T := by
  unfold dropFrame
  (try dsimp only)
  (repeat' split) <;> simp (maxDischargeDepth := 40) [*]

@[simp] theorem same_unmatchedConsole (h : p.sameBut q T) (h1 : Block.bellGuard ∈ T) :
    p.sameBut (unmatchedConsole q) T := by
  unfold unmatchedConsole
  (try dsimp only)
  (repeat' split) <;> simp (maxDischargeDepth := 40) [*]

@[simp] theorem same_queueConsoleStrike {b i : Nat} {f : Frame} (h : p.sameBut q T) (h1 : Block.dialDriver ∈ T) (h2 : Block.bellGuard ∈ T) (h3 : Block.lamps ∈ T) (h4 : Block.budget ∈ T) (h5 : Block.routes ∈ T) (h6 : Block.locals ∈ T) (h7 : Block.pass ∈ T) :
    p.sameBut (queueConsoleStrike b i f q) T := by
  unfold queueConsoleStrike
  (try dsimp only)
  (repeat' split) <;> simp (maxDischargeDepth := 40) [*]

@[simp] theorem same_consoleStrike {f : Frame} (h : p.sameBut q T) (h1 : Block.dialDriver ∈ T) (h2 : Block.bellGuard ∈ T) (h3 : Block.lamps ∈ T) (h4 : Block.budget ∈ T) (h5 : Block.routes ∈ T) (h6 : Block.locals ∈ T) (h7 : Block.pass ∈ T) :
    p.sameBut (consoleStrike f q) T := by
  unfold consoleStrike
  (try dsimp only)
  (repeat' split) <;> simp (maxDischargeDepth := 40) [*]

@[simp] theorem same_guardFrame {f : Frame} (h : p.sameBut q T) (h1 : Block.dialDriver ∈ T) (h2 : Block.bellGuard ∈ T) (h3 : Block.lamps ∈ T) (h4 : Block.budget ∈ T) (h5 : Block.routes ∈ T) (h6 : Block.locals ∈ T) (h7 : Block.pass ∈ T) :
    p.sameBut (guardFrame f q) T := by
  unfold guardFrame
  (try dsimp only)
  (repeat' split) <;> simp (maxDischargeDepth := 40) [*]

@[simp] theorem same_routeFrame {t : Port} {f : Frame} {a : RouteAction} (h : p.sameBut q T) (h1 : Block.dialDriver ∈ T) (h2 : Block.bellGuard ∈ T) (h3 : Block.session ∈ T) (h4 : Block.clock ∈ T) (h5 : Block.tune ∈ T) (h6 : Block.lamps ∈ T) (h7 : Block.budget ∈ T) (h8 : Block.events ∈ T) (h9 : Block.routes ∈ T) (h10 : Block.ports ∈ T) (h11 : Block.copies ∈ T) (h12 : Block.safety ∈ T) (h13 : Block.locals ∈ T) (h14 : Block.pass ∈ T) (h15 : Block.up ∈ T) (h16 : Block.faults ∈ T) (h17 : Block.mgmt ∈ T) :
    p.sameBut (routeFrame t f a q) T := by
  unfold routeFrame
  (try dsimp only)
  (repeat' split) <;> simp (maxDischargeDepth := 40) [*]

@[simp] theorem same_classify {t : Port} {f : Frame} (h : p.sameBut q T) (h1 : Block.dialDriver ∈ T) (h2 : Block.bellGuard ∈ T) (h3 : Block.session ∈ T) (h4 : Block.clock ∈ T) (h5 : Block.tune ∈ T) (h6 : Block.lamps ∈ T) (h7 : Block.budget ∈ T) (h8 : Block.events ∈ T) (h9 : Block.routes ∈ T) (h10 : Block.ports ∈ T) (h11 : Block.copies ∈ T) (h12 : Block.safety ∈ T) (h13 : Block.locals ∈ T) (h14 : Block.pass ∈ T) (h15 : Block.up ∈ T) (h16 : Block.faults ∈ T) (h17 : Block.requests ∈ T) (h18 : Block.mgmt ∈ T) :
    p.sameBut (classify t f q) T := by
  unfold classify
  (try dsimp only)
  (repeat' split) <;> simp (maxDischargeDepth := 40) [*]

@[simp] theorem same_receive {t : Port} {bs : List Byte} (h : p.sameBut q T) (h1 : Block.dialDriver ∈ T) (h2 : Block.bellGuard ∈ T) (h3 : Block.session ∈ T) (h4 : Block.clock ∈ T) (h5 : Block.tune ∈ T) (h6 : Block.lamps ∈ T) (h7 : Block.budget ∈ T) (h8 : Block.events ∈ T) (h9 : Block.routes ∈ T) (h10 : Block.ports ∈ T) (h11 : Block.copies ∈ T) (h12 : Block.safety ∈ T) (h13 : Block.locals ∈ T) (h14 : Block.pass ∈ T) (h15 : Block.up ∈ T) (h16 : Block.faults ∈ T) (h17 : Block.requests ∈ T) (h18 : Block.mgmt ∈ T) :
    p.sameBut (receive t bs q) T := by
  unfold receive
  (try dsimp only)
  (repeat' split) <;> simp (maxDischargeDepth := 40) [*]

@[simp] theorem same_discardTake (h : p.sameBut q T) (h1 : Block.routes ∈ T) :
    p.sameBut (discardTake q) T := by
  unfold discardTake
  (try dsimp only)
  (repeat' split) <;> simp (maxDischargeDepth := 40) [*]

@[simp] theorem same_strikeDiscarded {s : Strike} (h : p.sameBut q T) (h1 : Block.dialDriver ∈ T) (h2 : Block.bellGuard ∈ T) (h3 : Block.lamps ∈ T) (h4 : Block.budget ∈ T) (h5 : Block.routes ∈ T) (h6 : Block.locals ∈ T) :
    p.sameBut (strikeDiscarded s q) T := by
  unfold strikeDiscarded
  (try dsimp only)
  (repeat' split) <;> simp (maxDischargeDepth := 40) [*]

@[simp] theorem same_levelTaken {i : LocalItem} (h : p.sameBut q T) (h1 : Block.lamps ∈ T) :
    p.sameBut (levelTaken i q) T := by
  unfold levelTaken
  (try dsimp only)
  (repeat' split) <;> simp (maxDischargeDepth := 40) [*]

@[simp] theorem same_passTaken {b : Bool} (h : p.sameBut q T) (h1 : Block.routes ∈ T) :
    p.sameBut (passTaken b q) T := by
  unfold passTaken
  (try dsimp only)
  (repeat' split) <;> simp (maxDischargeDepth := 40) [*]

@[simp] theorem same_localTaken (h : p.sameBut q T) (h1 : Block.routes ∈ T) :
    p.sameBut (localTaken q) T := by
  unfold localTaken
  (try dsimp only)
  (repeat' split) <;> simp (maxDischargeDepth := 40) [*]

/-! ## Management -/

@[simp] theorem same_checkRecord {t : Table} {n : Nat} (h : p.sameBut q T) (h1 : Block.dialDriver ∈ T) (h2 : Block.bellGuard ∈ T) (h3 : Block.session ∈ T) (h4 : Block.store ∈ T) (h5 : Block.clock ∈ T) (h6 : Block.tune ∈ T) (h7 : Block.lamps ∈ T) (h8 : Block.budget ∈ T) (h9 : Block.cal ∈ T) (h10 : Block.events ∈ T) (h11 : Block.routes ∈ T) (h12 : Block.safety ∈ T) (h13 : Block.locals ∈ T) (h14 : Block.up ∈ T) (h15 : Block.faults ∈ T) (h16 : Block.mgmt ∈ T) :
    p.sameBut (checkRecord t n q).1 T := by
  unfold checkRecord
  (try dsimp only)
  (repeat' split) <;> simp (maxDischargeDepth := 40) [*]

@[simp] theorem same_writeSource {n : Nat} {bs : List Byte} (h : p.sameBut q T) (h1 : Block.mgmt ∈ T) :
    p.sameBut (writeSource n bs q).1 T := by
  unfold writeSource
  (try dsimp only)
  (repeat' split) <;> simp (maxDischargeDepth := 40) [*]

@[simp] theorem same_writePartConfig {n : Nat} {bs : List Byte} (h : p.sameBut q T) (h1 : Block.requests ∈ T) (h2 : Block.mgmt ∈ T) :
    p.sameBut (writePartConfig n bs q).1 T := by
  unfold writePartConfig
  (try dsimp only)
  (repeat' split) <;> simp (maxDischargeDepth := 40) [*]

@[simp] theorem same_readOne {t : Table} {n o : Nat} (h : p.sameBut q T) (h1 : Block.dialDriver ∈ T) (h2 : Block.bellGuard ∈ T) (h3 : Block.session ∈ T) (h4 : Block.store ∈ T) (h5 : Block.clock ∈ T) (h6 : Block.tune ∈ T) (h7 : Block.lamps ∈ T) (h8 : Block.budget ∈ T) (h9 : Block.cal ∈ T) (h10 : Block.events ∈ T) (h11 : Block.routes ∈ T) (h12 : Block.safety ∈ T) (h13 : Block.locals ∈ T) (h14 : Block.up ∈ T) (h15 : Block.faults ∈ T) (h16 : Block.mgmt ∈ T) :
    p.sameBut (readOne t n o q).1 T := by
  unfold readOne
  (try dsimp only)
  (repeat' split) <;> simp (maxDischargeDepth := 40) [*]

@[simp] theorem same_readWork {s t n o : Nat} {c : SourceClass} (h : p.sameBut q T) (h1 : Block.dialDriver ∈ T) (h2 : Block.bellGuard ∈ T) (h3 : Block.session ∈ T) (h4 : Block.store ∈ T) (h5 : Block.clock ∈ T) (h6 : Block.tune ∈ T) (h7 : Block.lamps ∈ T) (h8 : Block.budget ∈ T) (h9 : Block.cal ∈ T) (h10 : Block.events ∈ T) (h11 : Block.routes ∈ T) (h12 : Block.safety ∈ T) (h13 : Block.locals ∈ T) (h14 : Block.up ∈ T) (h15 : Block.faults ∈ T) (h16 : Block.requests ∈ T) (h17 : Block.mgmt ∈ T) :
    p.sameBut (readWork s t n o c q) T := by
  unfold readWork
  (try dsimp only)
  (repeat' split) <;> simp (maxDischargeDepth := 40) [*]

@[simp] theorem same_openCursor {s : Nat} {t : Table} {i d c : Nat} (h : p.sameBut q T) (h1 : Block.mgmt ∈ T) :
    p.sameBut (openCursor s t i d c q).1 T := by
  unfold openCursor
  (try dsimp only)
  (repeat' split) <;> simp (maxDischargeDepth := 40) [*]

@[simp] theorem same_cursorWork {s t i d k : Nat} {c : SourceClass} (h : p.sameBut q T) (h1 : Block.up ∈ T) (h2 : Block.requests ∈ T) (h3 : Block.mgmt ∈ T) :
    p.sameBut (cursorWork s t i d k c q) T := by
  unfold cursorWork
  (try dsimp only)
  (repeat' split) <;> simp (maxDischargeDepth := 40) [*]

@[simp] theorem same_readRecords {k : Nat} {c : Cursor} {d : List Byte} (h : p.sameBut q T) (h1 : Block.dialDriver ∈ T) (h2 : Block.bellGuard ∈ T) (h3 : Block.session ∈ T) (h4 : Block.store ∈ T) (h5 : Block.clock ∈ T) (h6 : Block.tune ∈ T) (h7 : Block.lamps ∈ T) (h8 : Block.budget ∈ T) (h9 : Block.cal ∈ T) (h10 : Block.events ∈ T) (h11 : Block.routes ∈ T) (h12 : Block.safety ∈ T) (h13 : Block.locals ∈ T) (h14 : Block.up ∈ T) (h15 : Block.faults ∈ T) (h16 : Block.mgmt ∈ T) :
    p.sameBut (readRecords k c d q).1 T := by
  induction k generalizing q c d with
  | zero => exact h
  | succ k ih =>
    unfold readRecords
    dsimp only
    (repeat' split) <;> simp (maxDischargeDepth := 40) [*]

@[simp] theorem same_readNextWork {s : Nat} {c : SourceClass} (h : p.sameBut q T) (h1 : Block.dialDriver ∈ T) (h2 : Block.bellGuard ∈ T) (h3 : Block.session ∈ T) (h4 : Block.store ∈ T) (h5 : Block.clock ∈ T) (h6 : Block.tune ∈ T) (h7 : Block.lamps ∈ T) (h8 : Block.budget ∈ T) (h9 : Block.cal ∈ T) (h10 : Block.events ∈ T) (h11 : Block.routes ∈ T) (h12 : Block.safety ∈ T) (h13 : Block.locals ∈ T) (h14 : Block.up ∈ T) (h15 : Block.faults ∈ T) (h16 : Block.requests ∈ T) (h17 : Block.mgmt ∈ T) :
    p.sameBut (readNextWork s c q) T := by
  unfold readNextWork
  (try dsimp only)
  (repeat' split) <;> simp (maxDischargeDepth := 40) [*]

@[simp] theorem same_acknowledge {l : Bool} (h : p.sameBut q T) (h1 : Block.bellGuard ∈ T) (h2 : Block.session ∈ T) (h3 : Block.events ∈ T) (h4 : Block.safety ∈ T) (h5 : Block.up ∈ T) (h6 : Block.faults ∈ T) :
    p.sameBut (acknowledge l q) T := by
  unfold acknowledge
  (try dsimp only)
  (repeat' split) <;> simp (maxDischargeDepth := 40) [*]

@[simp] theorem same_ackWork {s l : Nat} {c : SourceClass} (h : p.sameBut q T) (h1 : Block.bellGuard ∈ T) (h2 : Block.session ∈ T) (h3 : Block.events ∈ T) (h4 : Block.safety ∈ T) (h5 : Block.up ∈ T) (h6 : Block.faults ∈ T) (h7 : Block.requests ∈ T) :
    p.sameBut (ackWork s l c q) T := by
  unfold ackWork
  (try dsimp only)
  (repeat' split) <;> simp (maxDischargeDepth := 40) [*]

@[simp] theorem same_resetWork {s : Nat} {c : SourceClass} (h : p.sameBut q T) (h1 : Block.up ∈ T) (h2 : Block.requests ∈ T) :
    p.sameBut (resetWork s c q) T := by
  unfold resetWork
  (try dsimp only)
  (repeat' split) <;> simp (maxDischargeDepth := 40) [*]

@[simp] theorem same_ringWork {s : Nat} {l : List Nat} {c : SourceClass} (h : p.sameBut q T) (h1 : Block.bellGuard ∈ T) (h2 : Block.session ∈ T) (h3 : Block.events ∈ T) (h4 : Block.safety ∈ T) (h5 : Block.up ∈ T) (h6 : Block.requests ∈ T) :
    p.sameBut (ringWork s l c q) T := by
  unfold ringWork
  (try dsimp only)
  (repeat' split) <;> simp (maxDischargeDepth := 40) [*]

@[simp] theorem same_ringReleaseWork {s : Nat} {c : SourceClass} (h : p.sameBut q T) (h1 : Block.bellGuard ∈ T) (h2 : Block.session ∈ T) (h3 : Block.events ∈ T) (h4 : Block.safety ∈ T) (h5 : Block.up ∈ T) (h6 : Block.requests ∈ T) :
    p.sameBut (ringReleaseWork s c q) T := by
  unfold ringReleaseWork
  (try dsimp only)
  (repeat' split) <;> simp (maxDischargeDepth := 40) [*]

@[simp] theorem same_setDialPart {d k : Nat} (h : p.sameBut q T) (h1 : Block.dialDriver ∈ T) (h2 : Block.lamps ∈ T) (h3 : Block.budget ∈ T) (h4 : Block.locals ∈ T) :
    p.sameBut (setDialPart d k q).1 T := by
  unfold setDialPart
  (try dsimp only)
  (repeat' split) <;> simp (maxDischargeDepth := 40) [*]

@[simp] theorem same_placeReply (h : p.sameBut q T) (h1 : Block.up ∈ T) (h2 : Block.requests ∈ T) :
    p.sameBut (placeReply q) T := by
  unfold placeReply
  (try dsimp only)
  (repeat' split) <;> simp (maxDischargeDepth := 40) [*]

/-! ## The Time Scale -/

@[simp] theorem same_tellTimeState {a b : TimeState} (h : p.sameBut q T) (h1 : Block.dialDriver ∈ T) (h2 : Block.lamps ∈ T) (h3 : Block.budget ∈ T) (h4 : Block.cal ∈ T) (h5 : Block.locals ∈ T) (h6 : Block.up ∈ T) (h7 : Block.faults ∈ T) :
    p.sameBut (tellTimeState a b q) T := by
  unfold tellTimeState
  (try dsimp only)
  (repeat' split) <;> simp (maxDischargeDepth := 40) [*]

@[simp] theorem same_emitQuarter {b : Int} {l : Bool} (h : p.sameBut q T) (h1 : Block.dialDriver ∈ T) (h2 : Block.bellGuard ∈ T) (h3 : Block.store ∈ T) (h4 : Block.clock ∈ T) (h5 : Block.tune ∈ T) (h6 : Block.lamps ∈ T) (h7 : Block.budget ∈ T) (h8 : Block.events ∈ T) (h9 : Block.locals ∈ T) (h10 : Block.up ∈ T) (h11 : Block.faults ∈ T) :
    p.sameBut (emitQuarter b l q) T := by
  unfold emitQuarter
  (try dsimp only)
  (repeat' split) <;> simp (maxDischargeDepth := 40) [*]

@[simp] theorem same_rangeEnd (h : p.sameBut q T) (h1 : Block.time ∈ T) (h2 : Block.dialDriver ∈ T) (h3 : Block.lamps ∈ T) (h4 : Block.budget ∈ T) (h5 : Block.cal ∈ T) (h6 : Block.locals ∈ T) (h7 : Block.up ∈ T) (h8 : Block.faults ∈ T) :
    p.sameBut (rangeEnd q) T := by
  unfold rangeEnd
  (try dsimp only)
  (repeat' split) <;> simp (maxDischargeDepth := 40) [*]

@[simp] theorem same_recomputeOffset (h : p.sameBut q T) (h1 : Block.time ∈ T) (h2 : Block.dialDriver ∈ T) (h3 : Block.lamps ∈ T) (h4 : Block.budget ∈ T) (h5 : Block.locals ∈ T) :
    p.sameBut (recomputeOffset q) T := by
  unfold recomputeOffset
  (try dsimp only)
  (repeat' split) <;> simp (maxDischargeDepth := 40) [*]

@[simp] theorem same_evaluateDate (h : p.sameBut q T) (h1 : Block.time ∈ T) (h2 : Block.dialDriver ∈ T) (h3 : Block.bellGuard ∈ T) (h4 : Block.store ∈ T) (h5 : Block.clock ∈ T) (h6 : Block.tune ∈ T) (h7 : Block.lamps ∈ T) (h8 : Block.budget ∈ T) (h9 : Block.cal ∈ T) (h10 : Block.events ∈ T) (h11 : Block.locals ∈ T) (h12 : Block.up ∈ T) (h13 : Block.faults ∈ T) :
    p.sameBut (evaluateDate q) T := by
  unfold evaluateDate
  (try dsimp only)
  (repeat' split) <;> simp (maxDischargeDepth := 40) [*]

@[simp] theorem same_quarterAtSecond (h : p.sameBut q T) (h1 : Block.time ∈ T) (h2 : Block.dialDriver ∈ T) (h3 : Block.bellGuard ∈ T) (h4 : Block.store ∈ T) (h5 : Block.clock ∈ T) (h6 : Block.tune ∈ T) (h7 : Block.lamps ∈ T) (h8 : Block.budget ∈ T) (h9 : Block.events ∈ T) (h10 : Block.locals ∈ T) (h11 : Block.up ∈ T) (h12 : Block.faults ∈ T) :
    p.sameBut (quarterAtSecond q) T := by
  unfold quarterAtSecond
  (try dsimp only)
  (repeat' split) <;> simp (maxDischargeDepth := 40) [*]

@[simp] theorem same_crossedQuarters (h : p.sameBut q T) (h1 : Block.time ∈ T) (h2 : Block.dialDriver ∈ T) (h3 : Block.bellGuard ∈ T) (h4 : Block.store ∈ T) (h5 : Block.clock ∈ T) (h6 : Block.tune ∈ T) (h7 : Block.lamps ∈ T) (h8 : Block.budget ∈ T) (h9 : Block.events ∈ T) (h10 : Block.locals ∈ T) (h11 : Block.up ∈ T) (h12 : Block.faults ∈ T) :
    p.sameBut (crossedQuarters q) T := by
  unfold crossedQuarters
  (try dsimp only)
  (repeat' split) <;> simp (maxDischargeDepth := 40) [*]

@[simp] theorem same_quartersAfterStep {a : Int} (h : p.sameBut q T) (h1 : Block.time ∈ T) (h2 : Block.dialDriver ∈ T) (h3 : Block.bellGuard ∈ T) (h4 : Block.store ∈ T) (h5 : Block.clock ∈ T) (h6 : Block.tune ∈ T) (h7 : Block.lamps ∈ T) (h8 : Block.budget ∈ T) (h9 : Block.events ∈ T) (h10 : Block.locals ∈ T) (h11 : Block.up ∈ T) (h12 : Block.faults ∈ T) :
    p.sameBut (quartersAfterStep a q) T := by
  unfold quartersAfterStep
  (try dsimp only)
  (repeat' split) <;> simp (maxDischargeDepth := 40) [*]

@[simp] theorem same_secondWork (h : p.sameBut q T) (h1 : Block.time ∈ T) (h2 : Block.dialDriver ∈ T) (h3 : Block.bellGuard ∈ T) (h4 : Block.store ∈ T) (h5 : Block.clock ∈ T) (h6 : Block.tune ∈ T) (h7 : Block.lamps ∈ T) (h8 : Block.budget ∈ T) (h9 : Block.cal ∈ T) (h10 : Block.events ∈ T) (h11 : Block.locals ∈ T) (h12 : Block.up ∈ T) (h13 : Block.faults ∈ T) :
    p.sameBut (secondWork q) T := by
  unfold secondWork
  (try dsimp only)
  (repeat' split) <;> simp (maxDischargeDepth := 40) [*]

@[simp] theorem same_secondElapses (h : p.sameBut q T) (h1 : Block.time ∈ T) (h2 : Block.dialDriver ∈ T) (h3 : Block.bellGuard ∈ T) (h4 : Block.store ∈ T) (h5 : Block.clock ∈ T) (h6 : Block.tune ∈ T) (h7 : Block.lamps ∈ T) (h8 : Block.budget ∈ T) (h9 : Block.cal ∈ T) (h10 : Block.events ∈ T) (h11 : Block.locals ∈ T) (h12 : Block.up ∈ T) (h13 : Block.faults ∈ T) :
    p.sameBut (secondElapses q) T := by
  unfold secondElapses
  (try dsimp only)
  (repeat' split) <;> simp (maxDischargeDepth := 40) [*]

@[simp] theorem same_leaveUnset (h : p.sameBut q T) (h1 : Block.time ∈ T) (h2 : Block.dialDriver ∈ T) (h3 : Block.bellGuard ∈ T) (h4 : Block.store ∈ T) (h5 : Block.clock ∈ T) (h6 : Block.tune ∈ T) (h7 : Block.lamps ∈ T) (h8 : Block.budget ∈ T) (h9 : Block.cal ∈ T) (h10 : Block.events ∈ T) (h11 : Block.locals ∈ T) (h12 : Block.up ∈ T) (h13 : Block.faults ∈ T) :
    p.sameBut (leaveUnset q) T := by
  unfold leaveUnset
  (try dsimp only)
  (repeat' split) <;> simp (maxDischargeDepth := 40) [*]

@[simp] theorem same_afterStep {a : Int} {o : TimeState} (h : p.sameBut q T) (h1 : Block.time ∈ T) (h2 : Block.dialDriver ∈ T) (h3 : Block.bellGuard ∈ T) (h4 : Block.store ∈ T) (h5 : Block.clock ∈ T) (h6 : Block.tune ∈ T) (h7 : Block.lamps ∈ T) (h8 : Block.budget ∈ T) (h9 : Block.cal ∈ T) (h10 : Block.events ∈ T) (h11 : Block.locals ∈ T) (h12 : Block.up ∈ T) (h13 : Block.faults ∈ T) :
    p.sameBut (afterStep a o q) T := by
  unfold afterStep
  (try dsimp only)
  (repeat' split) <;> simp (maxDischargeDepth := 40) [*]

@[simp] theorem same_closeWindow {a : Reception} {n : Int} {w : Window} (h : p.sameBut q T) (h1 : Block.time ∈ T) (h2 : Block.dialDriver ∈ T) (h3 : Block.lamps ∈ T) (h4 : Block.budget ∈ T) (h5 : Block.cal ∈ T) (h6 : Block.locals ∈ T) (h7 : Block.up ∈ T) (h8 : Block.faults ∈ T) :
    p.sameBut (closeWindow a n w q) T := by
  unfold closeWindow
  dsimp only
  by_cases hc : limitTo 500 (q.time.trim - windowCorrection q.time.trim (n - w.opened) (w.ticks - a.back))
      = q.time.trim - windowCorrection q.time.trim (n - w.opened) (w.ticks - a.back)
  · simp only [hc, if_true]
    split <;> simp (maxDischargeDepth := 40) [*]
  · simp only [hc, if_false]
    split <;> simp (maxDischargeDepth := 40) [*]

@[simp] theorem same_serveWindow {a : Reception} {n : Int} (h : p.sameBut q T) (h1 : Block.time ∈ T) (h2 : Block.dialDriver ∈ T) (h3 : Block.lamps ∈ T) (h4 : Block.budget ∈ T) (h5 : Block.cal ∈ T) (h6 : Block.locals ∈ T) (h7 : Block.up ∈ T) (h8 : Block.faults ∈ T) :
    p.sameBut (serveWindow a n q) T := by
  unfold serveWindow
  (try dsimp only)
  (repeat' split) <;> simp (maxDischargeDepth := 40) [*]

@[simp] theorem same_secondPart (h : p.sameBut q T) (h1 : Block.time ∈ T) (h2 : Block.dialDriver ∈ T) (h3 : Block.bellGuard ∈ T) (h4 : Block.store ∈ T) (h5 : Block.clock ∈ T) (h6 : Block.tune ∈ T) (h7 : Block.lamps ∈ T) (h8 : Block.budget ∈ T) (h9 : Block.cal ∈ T) (h10 : Block.events ∈ T) (h11 : Block.locals ∈ T) (h12 : Block.up ∈ T) (h13 : Block.faults ∈ T) :
    p.sameBut (secondPart q) T := by
  unfold secondPart
  split <;> simp (maxDischargeDepth := 40) [*]

@[simp] theorem same_leaveHoldover (h : p.sameBut q T) (h1 : Block.time ∈ T) (h2 : Block.dialDriver ∈ T) (h3 : Block.lamps ∈ T) (h4 : Block.budget ∈ T) (h5 : Block.cal ∈ T) (h6 : Block.locals ∈ T) (h7 : Block.up ∈ T) (h8 : Block.faults ∈ T) :
    p.sameBut (leaveHoldover q) T := by
  unfold leaveHoldover
  split <;> simp (maxDischargeDepth := 40) [*]

@[simp] theorem same_slew {a : Reception} {n o : Int} (h : p.sameBut q T) (h1 : Block.time ∈ T) (h2 : Block.dialDriver ∈ T) (h3 : Block.bellGuard ∈ T) (h4 : Block.store ∈ T) (h5 : Block.clock ∈ T) (h6 : Block.tune ∈ T) (h7 : Block.lamps ∈ T) (h8 : Block.budget ∈ T) (h9 : Block.cal ∈ T) (h10 : Block.events ∈ T) (h11 : Block.locals ∈ T) (h12 : Block.up ∈ T) (h13 : Block.faults ∈ T) :
    p.sameBut (slew a n o q) T := by
  unfold slew
  (try dsimp only)
  (repeat' split) <;> simp (maxDischargeDepth := 40) [*]

@[simp] theorem same_beyond {a : Reception} {n d : Int} (h : p.sameBut q T) (h1 : Block.time ∈ T) (h2 : Block.dialDriver ∈ T) (h3 : Block.bellGuard ∈ T) (h4 : Block.store ∈ T) (h5 : Block.clock ∈ T) (h6 : Block.tune ∈ T) (h7 : Block.lamps ∈ T) (h8 : Block.budget ∈ T) (h9 : Block.cal ∈ T) (h10 : Block.events ∈ T) (h11 : Block.locals ∈ T) (h12 : Block.up ∈ T) (h13 : Block.faults ∈ T) :
    p.sameBut (beyond a n d q) T := by
  unfold beyond
  (try dsimp only)
  (repeat' split) <;> simp (maxDischargeDepth := 40) [*]

@[simp] theorem same_setFromMark {a : Reception} {n : Int} {k : Nat} (h : p.sameBut q T) (h1 : Block.time ∈ T) (h2 : Block.dialDriver ∈ T) (h3 : Block.bellGuard ∈ T) (h4 : Block.store ∈ T) (h5 : Block.clock ∈ T) (h6 : Block.tune ∈ T) (h7 : Block.lamps ∈ T) (h8 : Block.budget ∈ T) (h9 : Block.cal ∈ T) (h10 : Block.events ∈ T) (h11 : Block.locals ∈ T) (h12 : Block.up ∈ T) (h13 : Block.faults ∈ T) :
    p.sameBut (setFromMark a n k q) T := by
  unfold setFromMark
  (try dsimp only)
  (repeat' split) <;> simp (maxDischargeDepth := 40) [*]

@[simp] theorem same_useMark {t : SourceClass} {a : Reception} {y m d c k : Nat} (h : p.sameBut q T) (h1 : Block.time ∈ T) (h2 : Block.dialDriver ∈ T) (h3 : Block.bellGuard ∈ T) (h4 : Block.store ∈ T) (h5 : Block.clock ∈ T) (h6 : Block.tune ∈ T) (h7 : Block.lamps ∈ T) (h8 : Block.budget ∈ T) (h9 : Block.cal ∈ T) (h10 : Block.events ∈ T) (h11 : Block.locals ∈ T) (h12 : Block.up ∈ T) (h13 : Block.faults ∈ T) :
    p.sameBut (useMark t a y m d c k q) T := by
  unfold useMark
  (try dsimp only)
  (repeat' split) <;> simp (maxDischargeDepth := 40) [*]

@[simp] theorem same_takeMark {s y m d c k : Nat} (h : p.sameBut q T) (h1 : Block.time ∈ T) (h2 : Block.dialDriver ∈ T) (h3 : Block.bellGuard ∈ T) (h4 : Block.session ∈ T) (h5 : Block.store ∈ T) (h6 : Block.clock ∈ T) (h7 : Block.tune ∈ T) (h8 : Block.lamps ∈ T) (h9 : Block.budget ∈ T) (h10 : Block.cal ∈ T) (h11 : Block.events ∈ T) (h12 : Block.copies ∈ T) (h13 : Block.safety ∈ T) (h14 : Block.locals ∈ T) (h15 : Block.up ∈ T) (h16 : Block.faults ∈ T) (h17 : Block.mgmt ∈ T) :
    p.sameBut (takeMark s y m d c k q) T := by
  unfold takeMark
  (try dsimp only)
  (repeat' split) <;> simp (maxDischargeDepth := 40) [*]

@[simp] theorem same_silenceReached (h : p.sameBut q T) (h1 : Block.time ∈ T) (h2 : Block.dialDriver ∈ T) (h3 : Block.lamps ∈ T) (h4 : Block.budget ∈ T) (h5 : Block.cal ∈ T) (h6 : Block.locals ∈ T) (h7 : Block.up ∈ T) (h8 : Block.faults ∈ T) :
    p.sameBut (silenceReached q) T := by
  unfold silenceReached
  (try dsimp only)
  (repeat' split) <;> simp (maxDischargeDepth := 40) [*]

@[simp] theorem same_setTime {y m d c : Nat} (h : p.sameBut q T) (h1 : Block.time ∈ T) (h2 : Block.dialDriver ∈ T) (h3 : Block.bellGuard ∈ T) (h4 : Block.store ∈ T) (h5 : Block.clock ∈ T) (h6 : Block.tune ∈ T) (h7 : Block.lamps ∈ T) (h8 : Block.budget ∈ T) (h9 : Block.cal ∈ T) (h10 : Block.events ∈ T) (h11 : Block.locals ∈ T) (h12 : Block.up ∈ T) (h13 : Block.faults ∈ T) :
    p.sameBut (setTime y m d c q).1 T := by
  unfold setTime
  (try dsimp only)
  (repeat' split) <;> simp (maxDischargeDepth := 40) [*]

@[simp] theorem same_seasonsChanged (h : p.sameBut q T) (h1 : Block.time ∈ T) (h2 : Block.dialDriver ∈ T) (h3 : Block.bellGuard ∈ T) (h4 : Block.store ∈ T) (h5 : Block.clock ∈ T) (h6 : Block.tune ∈ T) (h7 : Block.lamps ∈ T) (h8 : Block.budget ∈ T) (h9 : Block.cal ∈ T) (h10 : Block.events ∈ T) (h11 : Block.locals ∈ T) (h12 : Block.up ∈ T) (h13 : Block.faults ∈ T) :
    p.sameBut (seasonsChanged q) T := by
  unfold seasonsChanged
  (try dsimp only)
  (repeat' split) <;> simp (maxDischargeDepth := 40) [*]

@[simp] theorem same_seasonAdd {i : Nat} {o : Int} (h : p.sameBut q T) (h1 : Block.time ∈ T) (h2 : Block.dialDriver ∈ T) (h3 : Block.bellGuard ∈ T) (h4 : Block.store ∈ T) (h5 : Block.clock ∈ T) (h6 : Block.tune ∈ T) (h7 : Block.lamps ∈ T) (h8 : Block.budget ∈ T) (h9 : Block.cal ∈ T) (h10 : Block.events ∈ T) (h11 : Block.locals ∈ T) (h12 : Block.up ∈ T) (h13 : Block.faults ∈ T) :
    p.sameBut (seasonAdd i o q).1 T := by
  unfold seasonAdd
  (try dsimp only)
  (repeat' split) <;> simp (maxDischargeDepth := 40) [*]

@[simp] theorem same_seasonRemove {i : Nat} (h : p.sameBut q T) (h1 : Block.time ∈ T) (h2 : Block.dialDriver ∈ T) (h3 : Block.bellGuard ∈ T) (h4 : Block.store ∈ T) (h5 : Block.clock ∈ T) (h6 : Block.tune ∈ T) (h7 : Block.lamps ∈ T) (h8 : Block.budget ∈ T) (h9 : Block.cal ∈ T) (h10 : Block.events ∈ T) (h11 : Block.locals ∈ T) (h12 : Block.up ∈ T) (h13 : Block.faults ∈ T) :
    p.sameBut (seasonRemove i q).1 T := by
  unfold seasonRemove
  (try dsimp only)
  (repeat' split) <;> simp (maxDischargeDepth := 40) [*]

@[simp] theorem same_seasonBase {o : Int} (h : p.sameBut q T) (h1 : Block.time ∈ T) (h2 : Block.dialDriver ∈ T) (h3 : Block.bellGuard ∈ T) (h4 : Block.store ∈ T) (h5 : Block.clock ∈ T) (h6 : Block.tune ∈ T) (h7 : Block.lamps ∈ T) (h8 : Block.budget ∈ T) (h9 : Block.cal ∈ T) (h10 : Block.events ∈ T) (h11 : Block.locals ∈ T) (h12 : Block.up ∈ T) (h13 : Block.faults ∈ T) :
    p.sameBut (seasonBase o q).1 T := by
  unfold seasonBase
  (try dsimp only)
  (repeat' split) <;> simp (maxDischargeDepth := 40) [*]

@[simp] theorem same_writeTimeConfig {n : Nat} {bs : List Byte} (h : p.sameBut q T) (h1 : Block.time ∈ T) :
    p.sameBut (writeTimeConfig n bs q).1 T := by
  unfold writeTimeConfig
  (repeat' split) <;> simp [timeConfigWritten, *]

/-! ## Takes and completions -/

@[simp] theorem same_placeHeld {v : VoiceId} {x : HeldStrike} {l : List HeldStrike} (h : p.sameBut q T) (h1 : Block.clock ∈ T) (h2 : Block.tune ∈ T) (h3 : Block.locals ∈ T) :
    p.sameBut (placeHeld v x l q) T := by
  unfold placeHeld
  (try dsimp only)
  (repeat' split) <;> simp (maxDischargeDepth := 40) [*]

@[simp] theorem same_giveLocalPlace (h : p.sameBut q T) (h1 : Block.clock ∈ T) (h2 : Block.tune ∈ T) (h3 : Block.lamps ∈ T) (h4 : Block.locals ∈ T) :
    p.sameBut (giveLocalPlace q) T := by
  unfold giveLocalPlace
  (try dsimp only)
  (repeat' split) <;> simp (maxDischargeDepth := 40) [*]

@[simp] theorem same_strikeTaken {s : Strike} (h : p.sameBut q T) (h1 : Block.bellGuard ∈ T) (h2 : Block.budget ∈ T) (h3 : Block.flights ∈ T) :
    p.sameBut (strikeTaken s q) T := by
  unfold strikeTaken
  (try dsimp only)
  (repeat' split) <;> simp (maxDischargeDepth := 40) [*]

@[simp] theorem same_takeSetting {s : Setting} (h : p.sameBut q T) (h1 : Block.bellGuard ∈ T) (h2 : Block.session ∈ T) (h3 : Block.events ∈ T) (h4 : Block.routes ∈ T) (h5 : Block.safety ∈ T) (h6 : Block.up ∈ T) (h7 : Block.flights ∈ T) :
    p.sameBut (takeSetting s q).1 T := by
  unfold takeSetting
  (try dsimp only)
  (repeat' split) <;> simp (maxDischargeDepth := 40) [*]

@[simp] theorem same_takeLocal {i : LocalItem} (h : p.sameBut q T) (h1 : Block.dialDriver ∈ T) (h2 : Block.bellGuard ∈ T) (h3 : Block.lamps ∈ T) (h4 : Block.budget ∈ T) (h5 : Block.routes ∈ T) (h6 : Block.locals ∈ T) (h7 : Block.flights ∈ T) :
    p.sameBut (takeLocal i q).1 T := by
  unfold takeLocal
  (try dsimp only)
  (repeat' split) <;> simp (maxDischargeDepth := 40) [*]

@[simp] theorem same_takePass {i : PassItem} (h : p.sameBut q T) (h1 : Block.dialDriver ∈ T) (h2 : Block.bellGuard ∈ T) (h3 : Block.lamps ∈ T) (h4 : Block.budget ∈ T) (h5 : Block.routes ∈ T) (h6 : Block.locals ∈ T) (h7 : Block.flights ∈ T) :
    p.sameBut (takePass i q).1 T := by
  unfold takePass
  (try dsimp only)
  (repeat' split) <;> simp (maxDischargeDepth := 40) [*]

@[simp] theorem same_fieldCompletes (h : p.sameBut q T) (h1 : Block.ports ∈ T) (h2 : Block.flights ∈ T) :
    p.sameBut (fieldCompletes q) T := by
  unfold fieldCompletes
  (try dsimp only)
  (repeat' split) <;> simp (maxDischargeDepth := 40) [*]

@[simp] theorem same_settingCompletes {s : Setting} (h : p.sameBut q T) (h1 : Block.bellGuard ∈ T) (h2 : Block.safety ∈ T) :
    p.sameBut (settingCompletes s q) T := by
  unfold settingCompletes
  (try dsimp only)
  (repeat' split) <;> simp (maxDischargeDepth := 40) [*]

@[simp] theorem same_levelCompletes {g : Option Nat} {l : Nat} (h : p.sameBut q T) (h1 : Block.lamps ∈ T) :
    p.sameBut (levelCompletes g l q) T := by
  unfold levelCompletes
  (try dsimp only)
  (repeat' split) <;> simp (maxDischargeDepth := 40) [*]

@[simp] theorem same_consoleCompletes (h : p.sameBut q T) (h1 : Block.ports ∈ T) (h2 : Block.flights ∈ T) :
    p.sameBut (consoleCompletes q) T := by
  unfold consoleCompletes
  (try dsimp only)
  (repeat' split) <;> simp (maxDischargeDepth := 40) [*]

@[simp] theorem same_consoleTakes (h : p.sameBut q T) (h1 : Block.up ∈ T) (h2 : Block.flights ∈ T) (h3 : Block.requests ∈ T) :
    p.sameBut (consoleTakes q) T := by
  unfold consoleTakes
  (try dsimp only)
  (repeat' split) <;> simp (maxDischargeDepth := 40) [*]

/-! ## Writes -/

@[simp] theorem same_writeTable {t : Table} {n : Nat} {bs : List Byte} (h : p.sameBut q T) (h1 : Block.time ∈ T) (h2 : Block.dialDriver ∈ T) (h3 : Block.bellGuard ∈ T) (h4 : Block.session ∈ T) (h5 : Block.store ∈ T) (h6 : Block.clock ∈ T) (h7 : Block.tune ∈ T) (h8 : Block.lamps ∈ T) (h9 : Block.budget ∈ T) (h10 : Block.cal ∈ T) (h11 : Block.events ∈ T) (h12 : Block.routes ∈ T) (h13 : Block.safety ∈ T) (h14 : Block.locals ∈ T) (h15 : Block.up ∈ T) (h16 : Block.flights ∈ T) (h17 : Block.faults ∈ T) (h18 : Block.requests ∈ T) (h19 : Block.mgmt ∈ T) :
    p.sameBut (writeTable t n bs q).1 T := by
  cases t <;> simp (maxDischargeDepth := 40) [writeTable, *]

@[simp] theorem same_writeRecords {l : List (List Byte)} {c : Cursor} {n : Nat} (h : p.sameBut q T) (h1 : Block.time ∈ T) (h2 : Block.dialDriver ∈ T) (h3 : Block.bellGuard ∈ T) (h4 : Block.session ∈ T) (h5 : Block.store ∈ T) (h6 : Block.clock ∈ T) (h7 : Block.tune ∈ T) (h8 : Block.lamps ∈ T) (h9 : Block.budget ∈ T) (h10 : Block.cal ∈ T) (h11 : Block.events ∈ T) (h12 : Block.routes ∈ T) (h13 : Block.safety ∈ T) (h14 : Block.locals ∈ T) (h15 : Block.up ∈ T) (h16 : Block.flights ∈ T) (h17 : Block.faults ∈ T) (h18 : Block.requests ∈ T) (h19 : Block.mgmt ∈ T) :
    p.sameBut (writeRecords l c n q).1 T := by
  induction l generalizing q c n with
  | nil => exact h
  | cons bs l ih =>
    unfold writeRecords
    dsimp only
    (repeat' split) <;> simp (maxDischargeDepth := 40) [*]

@[simp] theorem same_writeWork {s t n : Nat} {l : List Byte} {c : SourceClass} (h : p.sameBut q T) (h1 : Block.time ∈ T) (h2 : Block.dialDriver ∈ T) (h3 : Block.bellGuard ∈ T) (h4 : Block.session ∈ T) (h5 : Block.store ∈ T) (h6 : Block.clock ∈ T) (h7 : Block.tune ∈ T) (h8 : Block.lamps ∈ T) (h9 : Block.budget ∈ T) (h10 : Block.cal ∈ T) (h11 : Block.events ∈ T) (h12 : Block.routes ∈ T) (h13 : Block.safety ∈ T) (h14 : Block.locals ∈ T) (h15 : Block.up ∈ T) (h16 : Block.flights ∈ T) (h17 : Block.faults ∈ T) (h18 : Block.requests ∈ T) (h19 : Block.mgmt ∈ T) :
    p.sameBut (writeWork s t n l c q) T := by
  unfold writeWork
  (try dsimp only)
  (repeat' split) <;> simp (maxDischargeDepth := 40) [*]

@[simp] theorem same_writeNextRecords {s : Nat} {l : List Byte} {c : Cursor} (h : p.sameBut q T) (h1 : Block.time ∈ T) (h2 : Block.dialDriver ∈ T) (h3 : Block.bellGuard ∈ T) (h4 : Block.session ∈ T) (h5 : Block.store ∈ T) (h6 : Block.clock ∈ T) (h7 : Block.tune ∈ T) (h8 : Block.lamps ∈ T) (h9 : Block.budget ∈ T) (h10 : Block.cal ∈ T) (h11 : Block.events ∈ T) (h12 : Block.routes ∈ T) (h13 : Block.safety ∈ T) (h14 : Block.locals ∈ T) (h15 : Block.up ∈ T) (h16 : Block.flights ∈ T) (h17 : Block.faults ∈ T) (h18 : Block.requests ∈ T) (h19 : Block.mgmt ∈ T) :
    p.sameBut (writeNextRecords s l c q) T := by
  unfold writeNextRecords
  (try dsimp only)
  (repeat' split) <;> simp (maxDischargeDepth := 40) [*]

@[simp] theorem same_writeNextWork {s : Nat} {l : List Byte} {c : SourceClass} (h : p.sameBut q T) (h1 : Block.time ∈ T) (h2 : Block.dialDriver ∈ T) (h3 : Block.bellGuard ∈ T) (h4 : Block.session ∈ T) (h5 : Block.store ∈ T) (h6 : Block.clock ∈ T) (h7 : Block.tune ∈ T) (h8 : Block.lamps ∈ T) (h9 : Block.budget ∈ T) (h10 : Block.cal ∈ T) (h11 : Block.events ∈ T) (h12 : Block.routes ∈ T) (h13 : Block.safety ∈ T) (h14 : Block.locals ∈ T) (h15 : Block.up ∈ T) (h16 : Block.flights ∈ T) (h17 : Block.faults ∈ T) (h18 : Block.requests ∈ T) (h19 : Block.mgmt ∈ T) :
    p.sameBut (writeNextWork s l c q) T := by
  unfold writeNextWork
  (try dsimp only)
  (repeat' split) <;> simp (maxDischargeDepth := 40) [*]

end Sys2Proof.Machine
end

