-- ==== Sys2Proof/Laws/Lit.lean ====
section
/-! SUPPORT. Every command keeps the charge list free of groups with an amount of 0 (R135): a drift does
(Laws/Calm.lean), and so do the takes, the completions, the resets and the ticks. -/

namespace Sys2Proof.Machine

variable {p q : Part}

/-- The charge list has no group with an amount of 0 (R135). -/
def Part.lit (p : Part) : Prop := litCharges p.budget.charges

theorem Part.lit.calm (h : p.lit) (k : Calm p q) : q.lit := k.lit h

theorem Part.lit.drift (h : p.lit) (k : Drift p q) : q.lit := k.lit h

theorem lit_powered {f : Part → Part} (h : p.lit) (hf : p.lit → (f p).lit) : (powered f p).lit := by
  unfold powered
  split
  · exact hf h
  · exact h

/-! ## Takes -/

theorem lit_giveLocalPlace (h : p.lit) : (giveLocalPlace p).lit := by
  unfold giveLocalPlace placeHeld
  (repeat' split)
  · exact h
  · exact h
  · exact h.calm (calm_offerLevel (Calm.refl p))
  · exact h

theorem lit_strikeTaken {s : Strike} (h : p.lit) : (strikeTaken s p).lit := by
  intro c hc g e
  obtain ⟨x, hx, rfl⟩ := List.mem_map.mp hc
  by_cases m : x.ofStrike s.charge = true
  · simp only [m, if_true] at e ⊢
    exact h x hx g e
  · simp only [m] at e ⊢
    exact h x hx g e

theorem lit_localTaken (h : p.lit) : (localTaken p).lit := h.calm (calm_localTaken (Calm.refl p))

theorem lit_passTaken {b : Bool} (h : p.lit) : (passTaken b p).lit := h.calm (calm_passTaken (Calm.refl p))

theorem lit_placeReply (h : p.lit) : (placeReply p).lit := h.calm (calm_placeReply (Calm.refl p))

theorem lit_placeWanted (h : p.lit) : (placeWanted p).lit := h.calm (calm_placeWanted (Calm.refl p))

theorem lit_turn (h : p.lit) : (turn p).1.lit := by
  unfold turn
  split
  · exact h
  · rename_i s rest _
    rcases takeSetting_cases s { p with line.safetyQ := rest } with ⟨q, k, _, e⟩ | ⟨q, k, e⟩ <;> rw [e]
    · exact k.lit h
    · exact k.lit h
  · rename_i i rest _
    have k : (giveLocalPlace (levelTaken i { p with line.localQ := rest })).lit :=
      lit_giveLocalPlace (Part.lit.calm (p := { p with line.localQ := rest }) h (calm_levelTaken (Calm.refl _)))
    revert k
    generalize giveLocalPlace (levelTaken i { p with line.localQ := rest }) = q
    intro k
    unfold takeLocal
    (repeat' split)
    · exact lit_localTaken (lit_strikeTaken k)
    · exact k.calm (calm_strikeDiscarded (Calm.refl q))
    · exact lit_localTaken k
    · exact lit_localTaken k
  · rename_i i rest _
    obtain ⟨q, hq⟩ : ∃ q : Part, q = { p with line.passQ := rest } := ⟨_, rfl⟩
    have k : q.lit := hq ▸ h
    rw [← hq]
    unfold takePass
    (repeat' split)
    · exact lit_passTaken k
    · exact lit_passTaken (lit_strikeTaken k)
    · exact lit_passTaken (k.calm (calm_strikeDiscarded (Calm.refl q)))

theorem lit_arbiterTakes (h : p.lit) : (arbiterTakes p).lit := by
  unfold arbiterTakes
  split
  · exact h
  · exact arbitrate_keeps (P := Part.lit) (fun _ => lit_turn) _ h

theorem lit_consoleTakes (h : p.lit) : (consoleTakes p).lit := by
  unfold consoleTakes
  (repeat' split)
  · exact h
  · exact h
  · exact lit_placeReply h

/-! ## Completions -/

theorem lit_fieldCompletes (h : p.lit) : (fieldCompletes p).lit := h

theorem lit_settingCompletes {s : Setting} (h : p.lit) : (settingCompletes s p).lit := by
  unfold settingCompletes
  dsimp only
  split
  · exact lit_placeWanted h
  · exact lit_placeWanted h

theorem lit_levelCompletes {g : Option Nat} {l : Nat} (h : p.lit) : (levelCompletes g l p).lit := by
  unfold levelCompletes
  split <;> exact h

/-! ## Starts -/

theorem lit_warmStart (p : Part) : (warmStart p).lit := by
  have a : p.restarted.lit := fun c hc => by simp [Part.restarted, FeedBudget.started] at hc
  have b : (guardStarts p.restarted).lit :=
    a.calm (calm_foldl (fun q _ => calm_startSetting (Calm.refl q)) _ (Calm.refl _))
  unfold warmStart timeStarts
  split
  · exact b
  · exact b.drift (drift_tellTimeState
      (drift_crossedQuarters (drift_evaluateDate (drift_recomputeOffset (Drift.refl _)))))

theorem lit_cold : Part.cold.lit := fun c hc => by simp [Part.cold, FeedBudget.started] at hc

theorem lit_powerOn (p : Part) : (powerOn p).lit := by
  unfold powerOn
  split
  · exact lit_warmStart p
  · exact lit_cold

/-! ## Commands -/

theorem lit_serve {i : Instr} {s : Nat} {w : SourceClass → Part → Part} (h : p.lit)
    (hw : ∀ {c : SourceClass} {r : Part}, Drift p r → Drift p (w c r)) : (serve i s w p).lit :=
  h.drift (drift_serve (Drift.refl p) hw)

theorem lit_serveSimple {i : Instr} {s : Nat} {m : SourceClass} {op : Part → Part × Code} (h : p.lit)
    (ho : ∀ {r : Part}, Drift p r → Drift p (op r).1) : (serveSimple i s m op p).lit :=
  h.drift (drift_serveSimple (Drift.refl p) ho)

/-- R135: no command leaves a group in the charge list with an amount of 0, if none stands in it so. -/
theorem exec_lit {c : Instr} {w v : List Instr} (h : p.lit) (he : exec c ⟨p, w⟩ = .next ⟨q, v⟩) : q.lit := by
  have done : ∀ {f : Part → Part}, (f p).lit → act f ⟨p, w⟩ = .next ⟨q, v⟩ → q.lit := fun {f} k e => by
    have : f p = q ∧ w = v := by simpa [act] using e
    exact this.1 ▸ k
  cases c <;> revert he
  case oscillatorTick =>
    exact done (f := tickPart) h
  case secondBoundary =>
    exact done (f := powered _) (lit_powered h fun h => h.drift (drift_secondPart (Drift.refl p)))
  case silenceTimeout =>
    exact done (f := powered _) (lit_powered h fun h => h.drift (drift_silenceReached (Drift.refl p)))
  case timeMark =>
    exact done (f := powered _) (lit_powered h fun h => h.drift (drift_takeMark (Drift.refl p)))
  case setTime =>
    exact done (f := serveSimple _ _ _ _) (lit_serveSimple h fun k => drift_setTime k)
  case seasonAdd =>
    exact done (f := serveSimple _ _ _ _) (lit_serveSimple h fun k => drift_seasonAdd k)
  case seasonRemove =>
    exact done (f := serveSimple _ _ _ _) (lit_serveSimple h fun k => drift_seasonRemove k)
  case seasonBase =>
    exact done (f := serveSimple _ _ _ _) (lit_serveSimple h fun k => drift_seasonBase k)
  case readRecord =>
    exact done (f := serve _ _ _) (lit_serve h fun k => k.calm (calm_readWork (Calm.refl _)))
  case writeRecord =>
    exact done (f := serve _ _ _) (lit_serve h fun k => drift_writeWork k)
  case openCursor =>
    exact done (f := serve _ _ _) (lit_serve h fun k => k.calm (calm_cursorWork (Calm.refl _)))
  case readNext =>
    exact done (f := serve _ _ _) (lit_serve h fun k => k.calm (calm_readNextWork (Calm.refl _)))
  case writeNext =>
    exact done (f := serve _ _ _) (lit_serve h fun k => drift_writeNextWork k)
  case dialFastInstant =>
    exact done (f := powered _) (lit_powered h fun h => h.calm (by unfold fastPart; simp))
  case dialStepCompletion =>
    exact done (f := powered _) (lit_powered h fun h => by
      unfold dialCompletionPart
      split
      · exact Part.lit.calm (p := fieldCompletes p) h (calm_dialStepDone (Calm.refl _))
      · exact h)
  case dialHome =>
    exact done (f := powered _) (lit_powered h fun h => h.calm (by unfold dialHomePart; split <;> simp))
  case setDial =>
    exact done (f := serveSimple _ _ _ _) (lit_serveSimple h fun k => k.calm (calm_setDialPart (Calm.refl _)))
  case bellState =>
    exact done (f := powered _) (lit_powered h fun h => h.calm (by simp))
  case settleTimeReached =>
    exact done (f := powered _) (lit_powered h fun h => h.calm (by simp))
  case sensorTimeout =>
    exact done (f := powered _) (lit_powered h fun h => h.calm (by simp))
  case hammerReport =>
    exact done (f := powered _) (lit_powered h fun h => h.calm (by simp))
  case hammerTimeout =>
    exact done (f := powered _) (lit_powered h fun h => h.calm (by simp))
  case claimBells =>
    exact done (f := serveSimple _ _ _ _) (lit_serveSimple h fun k => k.calm (calm_claimBells (Calm.refl _)))
  case releaseBells =>
    exact done (f := serveSimple _ _ _ _) (lit_serveSimple h fun k => k.calm (calm_releaseBells (Calm.refl _)))
  case consoleIdleTimeout =>
    exact done (f := powered _) (lit_powered h fun h => h.calm (by simp))
  case fieldArbiterTake =>
    exact done (f := powered _) (lit_powered h fun h => lit_arbiterTakes h)
  case hammerSetCompletion =>
    exact done (f := powered _) (lit_powered h fun h => by
      unfold settingCompletionPart
      split
      · exact lit_settingCompletes (lit_fieldCompletes h)
      · exact h)
  case lampLevelCompletion =>
    exact done (f := powered _) (lit_powered h fun h => by
      unfold levelCompletionPart
      split
      · exact lit_levelCompletes (lit_fieldCompletes h)
      · exact h)
  case ringRequest =>
    exact done (f := serve _ _ _) (lit_serve h fun k => k.calm (calm_ringWork (Calm.refl _)))
  case ringRelease =>
    exact done (f := serve _ _ _) (lit_serve h fun k => k.calm (calm_ringReleaseWork (Calm.refl _)))
  case voiceDueInstant =>
    exact done (f := powered _) (lit_powered h fun h => h.calm (by unfold duePart; (repeat' split) <;> simp))
  case heldStrikeDeadline =>
    exact done (f := powered _) (lit_powered h fun h => h.calm (by simp))
  case hourBlow =>
    exact done (f := powered _) (lit_powered h fun h => h.calm (by unfold hourBlowPart; (repeat' split) <;> simp))
  case omitNext =>
    exact done (f := serveSimple _ _ _ _) (lit_serveSimple h fun k => k.calm (by simp))
  case startTune =>
    exact done (f := serveSimple _ _ _ _) (lit_serveSimple h fun k => k.calm (calm_startTune (Calm.refl _)))
  case stopTune =>
    exact done (f := serveSimple _ _ _ _) (lit_serveSimple h fun k => k.calm (calm_stopTune (Calm.refl _)))
  case lampUpdate =>
    exact done (f := powered _) (lit_powered h fun h => h.calm (by simp))
  case applyScene =>
    exact done (f := serveSimple _ _ _ _) (lit_serveSimple h fun k => k.calm (calm_applyScene (Calm.refl _)))
  case lampReport =>
    exact done (f := powered _) (lit_powered h fun h => h.calm (by unfold lampReportPart; split <;> simp))
  case feedState =>
    exact done (f := powered _) (lit_powered h fun h => h.calm (by simp))
  case strikeChargeRelease =>
    exact done (f := powered _) (lit_powered h fun h => h.calm (by simp))
  case restoreTimerExpiry =>
    exact done (f := powered _) (lit_powered h fun h => h.calm (by simp))
  case scheduleFire =>
    exact done (f := powered _) (lit_powered h fun h => h.calm (by simp))
  case cueSourceEvent =>
    exact done (f := powered _) (lit_powered h fun h => h.calm (by simp))
  case frameReceived =>
    exact done (f := powered _) (lit_powered h fun h => h.calm (by unfold receptionPart; simp))
  case consoleTransmitTake =>
    exact done (f := powered _) (lit_powered h fun h => lit_consoleTakes h)
  case resetPartReplyCompletion =>
    exact done (f := powered _) (lit_powered h fun h => by
      unfold resetCompletionPart
      split
      · exact lit_warmStart p
      · exact h)
  case ackFault =>
    exact done (f := serve _ _ _) (lit_serve h fun k => k.calm (calm_ackWork (Calm.refl _)))
  case resetPart =>
    exact done (f := serve _ _ _) (lit_serve h fun k => k.calm (calm_resetWork (Calm.refl _)))
  case supplyFail =>
    exact done (f := fun p => { p with retention.supply := false }) h
  case coldPowerOn =>
    exact done (f := fun _ => Part.cold) lit_cold
  case warmPowerOn =>
    exact done (f := powerOn) (lit_powerOn p)
  case fieldFrameCompletion =>
    exact done (f := powered _) (lit_powered h fun h => by
      unfold fieldCompletionPart
      split <;> exact h)
  case consoleFrameCompletion =>
    exact done (f := powered _) (lit_powered h fun h => by
      unfold consoleCompletionPart
      split <;> exact h)
  case receiverIdleGap =>
    exact done (f := powered _) (lit_powered h fun h => by
      unfold gapPart
      split <;> exact h)
  case backupCellLow =>
    exact done (f := fun p => if p.retention.supply then p else { p with retention.cellHeld := false })
      (by dsimp only; split <;> exact h)

end Sys2Proof.Machine
end

