-- ==== Sys2Proof/WellFormed.lean ====
section
/-! DEFINITION. Which commands the tower line and the part's own timers can spell: every operand lies
within the bytes its frame or request gives it (TABLES 10-2 and 11-1), and an event of a bell, a dial
or a voice names one that exists (TABLE 0-3). What the rules refuse is well formed: refusing it is the
command's effect. -/

namespace Sys2Proof.WellFormed

/-- A value that one byte carries. -/
def byteSized (n : Nat) : Bool := n < 256
/-- A value that two bytes carry. -/
def wordSized (n : Nat) : Bool := n < 65536
/-- A node of the tower line, 1 to 62 (TABLE 0-3). -/
def node (n : Nat) : Bool := 1 ≤ n && n ≤ 62
/-- A bell, 1 to 16 (TABLE 0-3). -/
def bell (n : Nat) : Bool := 1 ≤ n && n ≤ 16
/-- A dial, 1 to 4 (TABLE 0-3). -/
def dial (n : Nat) : Bool := 1 ≤ n && n ≤ 4
/-- A set operand: one bit per bell, so each member is a bell (Part 11, record travel). -/
def bellSet (l : List Nat) : Bool := l.all bell
/-- An offset in the two bytes a request gives it. -/
def offsetSized (i : Int) : Bool := -32768 ≤ i && i ≤ 32767

end Sys2Proof.WellFormed

namespace Sys2Proof

open WellFormed

/-- The command is one that the line or the part's own timers can give. -/
def Instr.wellFormed : Instr → Bool
  | .oscillatorTick | .secondBoundary | .silenceTimeout => true
  | .timeMark src y m d sec q =>
      node src && byteSized y && byteSized m && byteSized d && decide (sec < 16777216) && byteSized q
  | .setTime src y m d sec => node src && byteSized y && byteSized m && byteSized d && decide (sec < 16777216)
  | .seasonAdd src t off => node src && decide (t < 4294967296) && offsetSized off
  | .seasonRemove src t => node src && decide (t < 4294967296)
  | .seasonBase src off => node src && offsetSized off
  | .readRecord src t n off => node src && byteSized t && wordSized n && wordSized off
  | .writeRecord src t n rec => node src && byteSized t && wordSized n && decide (rec.length ≤ 28)
  | .openCursor src t i dir c => node src && byteSized t && wordSized i && byteSized dir && wordSized c
  | .readNext src => node src
  | .writeNext src recs => node src && decide (recs.length ≤ 31)
  | .dialFastInstant d => dial d
  | .dialStepCompletion => true
  | .dialHome src ch => node src && byteSized ch
  | .setDial src d pos => node src && byteSized d && wordSized pos
  | .bellState src b _ => node src && byteSized b
  | .settleTimeReached b => bell b
  | .sensorTimeout b => bell b
  | .hammerReport src ch _ => node src && byteSized ch
  | .hammerTimeout b => bell b
  | .claimBells src bs => node src && bellSet bs
  | .releaseBells src bs => node src && bellSet bs
  | .consoleIdleTimeout b => bell b
  | .fieldArbiterTake | .hammerSetCompletion | .lampLevelCompletion => true
  | .ringRequest src bs => node src && bellSet bs
  | .ringRelease src => node src
  | .voiceDueInstant _ | .heldStrikeDeadline _ | .hourBlow => true
  | .omitNext src => node src
  | .startTune src t r => node src && byteSized t && byteSized r
  | .stopTune src => node src
  | .lampUpdate => true
  | .applyScene src sc => node src && byteSized sc
  | .lampReport src ch _ => node src && byteSized ch
  | .feedState src _ => node src
  | .strikeChargeRelease | .restoreTimerExpiry | .scheduleFire | .cueSourceEvent => true
  | .frameReceived _ _ => true
  | .consoleTransmitTake | .resetPartReplyCompletion => true
  | .ackFault src leave => node src && byteSized leave
  | .resetPart src => node src
  | .supplyFail | .coldPowerOn | .warmPowerOn | .fieldFrameCompletion | .consoleFrameCompletion => true
  | .receiverIdleGap _ => true
  | .backupCellLow => true

end Sys2Proof
end

