-- ==== Sys2Proof/Laws/PerInstr.lean ====
section
/-! SUPPORT. One statement about each command as it is spelled: a well-formed management request comes from a node of
the line (TABLE 0-3), only a management request has a source to answer, and every operation code is one of
TABLE 11-3. -/

/- The theorems below unfold the same few functions over every command. Elaborated one after the other, the equations
of those functions are found once; elaborated at once, every theorem waits for them in a thread of its own. -/
set_option Elab.async false

namespace Sys2Proof.Laws

open Sys2Proof.Machine

/-- What holds of every command's spelling. -/
def Spelled.Statement (i : Instr) : Prop :=
  (i.wellFormed = true → isRequest i = true → 1 ≤ sourceOf i ∧ sourceOf i ≤ 62)
    ∧ (isRequest i = false → sourceOf i = 0) ∧ operationOf i ≤ 41

theorem Spelled.oscillatorTick : Spelled.Statement (.oscillatorTick) := by
  simp [Spelled.Statement, isRequest, sourceOf, operationOf, Instr.wellFormed]

theorem Spelled.secondBoundary : Spelled.Statement (.secondBoundary) := by
  simp [Spelled.Statement, isRequest, sourceOf, operationOf, Instr.wellFormed]

theorem Spelled.silenceTimeout : Spelled.Statement (.silenceTimeout) := by
  simp [Spelled.Statement, isRequest, sourceOf, operationOf, Instr.wellFormed]

theorem Spelled.timeMark (src year month day second quality : Nat) : Spelled.Statement (.timeMark src year month day second quality) := by
  simp [Spelled.Statement, isRequest, sourceOf, operationOf, Instr.wellFormed]

theorem Spelled.setTime (src year month day second : Nat) : Spelled.Statement (.setTime src year month day second) := by
  simp [Spelled.Statement, isRequest, sourceOf, operationOf, Instr.wellFormed, WellFormed.node]
  all_goals try omega

theorem Spelled.seasonAdd (src instant : Nat) (offset : Int) : Spelled.Statement (.seasonAdd src instant offset) := by
  simp [Spelled.Statement, isRequest, sourceOf, operationOf, Instr.wellFormed, WellFormed.node]
  all_goals try omega

theorem Spelled.seasonRemove (src instant : Nat) : Spelled.Statement (.seasonRemove src instant) := by
  simp [Spelled.Statement, isRequest, sourceOf, operationOf, Instr.wellFormed, WellFormed.node]
  all_goals try omega

theorem Spelled.seasonBase (src : Nat) (offset : Int) : Spelled.Statement (.seasonBase src offset) := by
  simp [Spelled.Statement, isRequest, sourceOf, operationOf, Instr.wellFormed, WellFormed.node]
  all_goals try omega

theorem Spelled.readRecord (src table number offset : Nat) : Spelled.Statement (.readRecord src table number offset) := by
  simp [Spelled.Statement, isRequest, sourceOf, operationOf, Instr.wellFormed, WellFormed.node]
  all_goals try omega

theorem Spelled.writeRecord (src table number : Nat) (record : List Byte) : Spelled.Statement (.writeRecord src table number record) := by
  simp [Spelled.Statement, isRequest, sourceOf, operationOf, Instr.wellFormed, WellFormed.node]
  all_goals try omega

theorem Spelled.openCursor (src table index direction count : Nat) : Spelled.Statement (.openCursor src table index direction count) := by
  simp [Spelled.Statement, isRequest, sourceOf, operationOf, Instr.wellFormed, WellFormed.node]
  all_goals try omega

theorem Spelled.readNext (src : Nat) : Spelled.Statement (.readNext src) := by
  simp [Spelled.Statement, isRequest, sourceOf, operationOf, Instr.wellFormed, WellFormed.node]
  all_goals try omega

theorem Spelled.writeNext (src : Nat) (records : List Byte) : Spelled.Statement (.writeNext src records) := by
  simp [Spelled.Statement, isRequest, sourceOf, operationOf, Instr.wellFormed, WellFormed.node]
  all_goals try omega

theorem Spelled.dialFastInstant (dial : Nat) : Spelled.Statement (.dialFastInstant dial) := by
  simp [Spelled.Statement, isRequest, sourceOf, operationOf, Instr.wellFormed]

theorem Spelled.dialStepCompletion : Spelled.Statement (.dialStepCompletion) := by
  simp [Spelled.Statement, isRequest, sourceOf, operationOf, Instr.wellFormed]

theorem Spelled.dialHome (src channel : Nat) : Spelled.Statement (.dialHome src channel) := by
  simp [Spelled.Statement, isRequest, sourceOf, operationOf, Instr.wellFormed]

theorem Spelled.setDial (src dial position : Nat) : Spelled.Statement (.setDial src dial position) := by
  simp [Spelled.Statement, isRequest, sourceOf, operationOf, Instr.wellFormed, WellFormed.node]
  all_goals try omega

theorem Spelled.bellState (src bell : Nat) (position : ReportedPosition) : Spelled.Statement (.bellState src bell position) := by
  simp [Spelled.Statement, isRequest, sourceOf, operationOf, Instr.wellFormed]

theorem Spelled.settleTimeReached (bell : Nat) : Spelled.Statement (.settleTimeReached bell) := by
  simp [Spelled.Statement, isRequest, sourceOf, operationOf, Instr.wellFormed]

theorem Spelled.sensorTimeout (bell : Nat) : Spelled.Statement (.sensorTimeout bell) := by
  simp [Spelled.Statement, isRequest, sourceOf, operationOf, Instr.wellFormed]

theorem Spelled.hammerReport (src channel : Nat) (answer : HammerAnswer) : Spelled.Statement (.hammerReport src channel answer) := by
  simp [Spelled.Statement, isRequest, sourceOf, operationOf, Instr.wellFormed]

theorem Spelled.hammerTimeout (bell : Nat) : Spelled.Statement (.hammerTimeout bell) := by
  simp [Spelled.Statement, isRequest, sourceOf, operationOf, Instr.wellFormed]

theorem Spelled.claimBells (src : Nat) (bells : List Nat) : Spelled.Statement (.claimBells src bells) := by
  simp [Spelled.Statement, isRequest, sourceOf, operationOf, Instr.wellFormed, WellFormed.node]
  all_goals try omega

theorem Spelled.releaseBells (src : Nat) (bells : List Nat) : Spelled.Statement (.releaseBells src bells) := by
  simp [Spelled.Statement, isRequest, sourceOf, operationOf, Instr.wellFormed, WellFormed.node]
  all_goals try omega

theorem Spelled.consoleIdleTimeout (bell : Nat) : Spelled.Statement (.consoleIdleTimeout bell) := by
  simp [Spelled.Statement, isRequest, sourceOf, operationOf, Instr.wellFormed]

theorem Spelled.fieldArbiterTake : Spelled.Statement (.fieldArbiterTake) := by
  simp [Spelled.Statement, isRequest, sourceOf, operationOf, Instr.wellFormed]

theorem Spelled.hammerSetCompletion : Spelled.Statement (.hammerSetCompletion) := by
  simp [Spelled.Statement, isRequest, sourceOf, operationOf, Instr.wellFormed]

theorem Spelled.lampLevelCompletion : Spelled.Statement (.lampLevelCompletion) := by
  simp [Spelled.Statement, isRequest, sourceOf, operationOf, Instr.wellFormed]

theorem Spelled.ringRequest (src : Nat) (bells : List Nat) : Spelled.Statement (.ringRequest src bells) := by
  simp [Spelled.Statement, isRequest, sourceOf, operationOf, Instr.wellFormed, WellFormed.node]
  all_goals try omega

theorem Spelled.ringRelease (src : Nat) : Spelled.Statement (.ringRelease src) := by
  simp [Spelled.Statement, isRequest, sourceOf, operationOf, Instr.wellFormed, WellFormed.node]
  all_goals try omega

theorem Spelled.voiceDueInstant (voice : VoiceId) : Spelled.Statement (.voiceDueInstant voice) := by
  simp [Spelled.Statement, isRequest, sourceOf, operationOf, Instr.wellFormed]

theorem Spelled.heldStrikeDeadline (voice : VoiceId) : Spelled.Statement (.heldStrikeDeadline voice) := by
  simp [Spelled.Statement, isRequest, sourceOf, operationOf, Instr.wellFormed]

theorem Spelled.hourBlow : Spelled.Statement (.hourBlow) := by
  simp [Spelled.Statement, isRequest, sourceOf, operationOf, Instr.wellFormed]

theorem Spelled.omitNext (src : Nat) : Spelled.Statement (.omitNext src) := by
  simp [Spelled.Statement, isRequest, sourceOf, operationOf, Instr.wellFormed, WellFormed.node]
  all_goals try omega

theorem Spelled.startTune (src tune repeats : Nat) : Spelled.Statement (.startTune src tune repeats) := by
  simp [Spelled.Statement, isRequest, sourceOf, operationOf, Instr.wellFormed, WellFormed.node]
  all_goals try omega

theorem Spelled.stopTune (src : Nat) : Spelled.Statement (.stopTune src) := by
  simp [Spelled.Statement, isRequest, sourceOf, operationOf, Instr.wellFormed, WellFormed.node]
  all_goals try omega

theorem Spelled.lampUpdate : Spelled.Statement (.lampUpdate) := by
  simp [Spelled.Statement, isRequest, sourceOf, operationOf, Instr.wellFormed]

theorem Spelled.applyScene (src scene : Nat) : Spelled.Statement (.applyScene src scene) := by
  simp [Spelled.Statement, isRequest, sourceOf, operationOf, Instr.wellFormed, WellFormed.node]
  all_goals try omega

theorem Spelled.lampReport (src channel : Nat) (status : LampStatus) : Spelled.Statement (.lampReport src channel status) := by
  simp [Spelled.Statement, isRequest, sourceOf, operationOf, Instr.wellFormed]

theorem Spelled.feedState (src : Nat) (stage : Stage) : Spelled.Statement (.feedState src stage) := by
  simp [Spelled.Statement, isRequest, sourceOf, operationOf, Instr.wellFormed]

theorem Spelled.strikeChargeRelease : Spelled.Statement (.strikeChargeRelease) := by
  simp [Spelled.Statement, isRequest, sourceOf, operationOf, Instr.wellFormed]

theorem Spelled.restoreTimerExpiry : Spelled.Statement (.restoreTimerExpiry) := by
  simp [Spelled.Statement, isRequest, sourceOf, operationOf, Instr.wellFormed]

theorem Spelled.scheduleFire : Spelled.Statement (.scheduleFire) := by
  simp [Spelled.Statement, isRequest, sourceOf, operationOf, Instr.wellFormed]

theorem Spelled.cueSourceEvent : Spelled.Statement (.cueSourceEvent) := by
  simp [Spelled.Statement, isRequest, sourceOf, operationOf, Instr.wellFormed]

theorem Spelled.frameReceived (port : Port) (bytes : List Byte) : Spelled.Statement (.frameReceived port bytes) := by
  simp [Spelled.Statement, isRequest, sourceOf, operationOf, Instr.wellFormed]

theorem Spelled.consoleTransmitTake : Spelled.Statement (.consoleTransmitTake) := by
  simp [Spelled.Statement, isRequest, sourceOf, operationOf, Instr.wellFormed]

theorem Spelled.resetPartReplyCompletion : Spelled.Statement (.resetPartReplyCompletion) := by
  simp [Spelled.Statement, isRequest, sourceOf, operationOf, Instr.wellFormed]

theorem Spelled.ackFault (src : Nat) (leave : Nat) : Spelled.Statement (.ackFault src leave) := by
  simp [Spelled.Statement, isRequest, sourceOf, operationOf, Instr.wellFormed, WellFormed.node]
  all_goals try omega

theorem Spelled.resetPart (src : Nat) : Spelled.Statement (.resetPart src) := by
  simp [Spelled.Statement, isRequest, sourceOf, operationOf, Instr.wellFormed, WellFormed.node]
  all_goals try omega

theorem Spelled.supplyFail : Spelled.Statement (.supplyFail) := by
  simp [Spelled.Statement, isRequest, sourceOf, operationOf, Instr.wellFormed]

theorem Spelled.coldPowerOn : Spelled.Statement (.coldPowerOn) := by
  simp [Spelled.Statement, isRequest, sourceOf, operationOf, Instr.wellFormed]

theorem Spelled.warmPowerOn : Spelled.Statement (.warmPowerOn) := by
  simp [Spelled.Statement, isRequest, sourceOf, operationOf, Instr.wellFormed]

theorem Spelled.fieldFrameCompletion : Spelled.Statement (.fieldFrameCompletion) := by
  simp [Spelled.Statement, isRequest, sourceOf, operationOf, Instr.wellFormed]

theorem Spelled.consoleFrameCompletion : Spelled.Statement (.consoleFrameCompletion) := by
  simp [Spelled.Statement, isRequest, sourceOf, operationOf, Instr.wellFormed]

theorem Spelled.receiverIdleGap (port : Port) : Spelled.Statement (.receiverIdleGap port) := by
  simp [Spelled.Statement, isRequest, sourceOf, operationOf, Instr.wellFormed]

theorem Spelled.backupCellLow : Spelled.Statement (.backupCellLow) := by
  simp [Spelled.Statement, isRequest, sourceOf, operationOf, Instr.wellFormed]

end Sys2Proof.Laws
end

