-- ==== Sys2Proof/Laws/Reads.lean ====
section
/-! SUPPORT. What a read of a checked record answers when the record passes its check (R80, R86, R87, R89, R157):
the record, with the part as it was. -/

namespace Sys2Proof.Machine

/-- A record stored now passes its check. -/
@[simp] theorem checkHolds_stored {α : Type} (bytes : α → List Byte) (v : α) :
    checkHolds bytes (stored bytes v) = true := by
  simp [checkHolds, stored]

/-- An EMPTY directory entry is read as it is, whatever its check value. -/
theorem readDirectory_empty {p : Part} {n : Nat}
    (h : (bankGet p.store.directory n (stored dirBytes DirEntry.empty)).val = .empty) :
    readDirectory n p = (p, some .empty) := by
  simp only [readDirectory, h]

/-- A VALID directory entry that passes its check is read as it is. -/
theorem readDirectory_valid {p : Part} {n : Nat} {e : TuneEntry}
    (h : bankGet p.store.directory n (stored dirBytes DirEntry.empty) = stored dirBytes (.valid e)) :
    readDirectory n p = (p, some (.valid e)) := by
  simp [readDirectory, h]
  simp [stored]

/-- A step that passes its check is read as it is. -/
theorem readStep_holds {p : Part} {n : Nat}
    (h : checkHolds stepContents (bankGet p.store.steps n (stored stepContents TuneStep.endStep)) = true) :
    readStep n p = (p, some (bankGet p.store.steps n (stored stepContents TuneStep.endStep)).val) := by
  simp [readStep, h]

/-- A chime set that passes its check is read as it is. -/
theorem readChimeSet_holds {p : Part} {n : Nat}
    (h : checkHolds chimeBytes (bankGet p.store.chimes n (stored chimeBytes (ChimeSet.cold n))) = true) :
    readChimeSet n p = (p, some (bankGet p.store.chimes n (stored chimeBytes (ChimeSet.cold n))).val) := by
  simp [readChimeSet, h]

/-- A record of the time configuration has no check value. -/
@[simp] theorem checkRecord_timeConfig (n : Nat) (p : Part) : checkRecord .timeConfig n p = (p, true) := rfl

end Sys2Proof.Machine
end

