-- ==== Sys2Proof/Laws/Requests.lean ====
section
/-! SUPPORT. How a request is heard and answered (R172): for a request that the Management Unit hears, `serve` is its
work on the part with the request in hand; and what a reply does. -/

namespace Sys2Proof.Machine

variable {p q : Part}

/-- The part with a request taken in hand (R172). -/
def Part.taken (p : Part) (i : Instr) (cls : SourceClass) : Part :=
  { p with mgmt.inHand := some { request := i, cls := cls } }

theorem hears_free {src cls} (h : p.hears src cls = true) :
    p.retention.supply = true ∧ p.mgmt.inHand = none ∧ p.mgmt.replyWaiting = none ∧ p.mgmt.resetting = false
      ∧ p.mgmt.nextAddress = none ∧ p.line.upQ.length < 16 := by
  simp only [Part.hears, Part.free, Bool.and_eq_true, decide_eq_true_eq, Option.isNone_iff_eq_none,
    Bool.not_eq_true'] at h
  obtain ⟨⟨⟨⟨⟨⟨a, b⟩, c⟩, d⟩, e⟩, f⟩, _⟩ := h
  exact ⟨a, b, c, d, e, f⟩

/-- R173: the class of a source whose record stands. -/
theorem classOf_of_classIs {src cls} (h : p.classIs src cls = true) : classOf src p = (p, cls) := by
  simp only [Part.classIs, Bool.and_eq_true, decide_eq_true_eq, Bool.not_eq_true'] at h
  obtain ⟨⟨⟨h1, h2⟩, hf⟩, hr⟩ := h
  have hk : checkHolds sourceClassBytes (stored sourceClassBytes cls) = true := by simp [checkHolds, stored]
  have hw : within 1 src 62 = true := by simp [within, h1, h2]
  have hs : readSource src p = (p, some cls) := by
    simp only [readSource, hf, hr, hk]
    simp [stored]
  simp [classOf, hw, hs]

/-- A request that is heard from a class that manages does its work, taken in hand. -/
theorem serve_heard {i src cls} {work : SourceClass → Part → Part} (h : p.hears src cls = true)
    (hc : cls.rank ≠ 0) : serve i src work p = work cls (p.taken i cls) := by
  obtain ⟨a, b, c, d, _, _⟩ := hears_free h
  have hk : p.classIs src cls = true := by simp only [Part.hears, Bool.and_eq_true] at h; exact h.2
  have hb : p.busy = false := by simp [Part.busy, b, c, d]
  simp [serve, a, b, c, deliverRequest, hb, classOf_of_classIs hk, hc, Part.taken]

/-- R172, check 1: a request from a source of class NONE or TIME. -/
theorem serve_unranked {i src cls} {work : SourceClass → Part → Part} (h : p.hears src cls = true)
    (hc : cls.rank = 0) : serve i src work p = reply src (operationOf i) .notPermitted [] (p.taken i cls) := by
  obtain ⟨a, b, c, d, _, _⟩ := hears_free h
  have hk : p.classIs src cls = true := by simp only [Part.hears, Bool.and_eq_true] at h; exact h.2
  have hb : p.busy = false := by simp [Part.busy, b, c, d]
  simp [serve, a, b, c, deliverRequest, hb, classOf_of_classIs hk, hc, Part.taken]

/-- The reply to a request that has changed nothing. -/
theorem reply_taken {i : Instr} {src o : Nat} {cls s} {code : Code} {data : List Byte} (h : p.hears s cls = true) :
    reply src o code data (p.taken i cls) = p.answered src o code data := by
  obtain ⟨_, b, c, d, e, f⟩ := hears_free h
  obtain ⟨osc, time, dd, bg, se, st, cl, tu, la, bu, ca, li, mg, re⟩ := p
  obtain ⟨m1, m2, m3, m4, m5, m6, m7, m8, m9, m10, m11, m12⟩ := mg
  simp only at b c d e f
  subst b c e
  simp [reply, offerReply, Part.taken, Config.upPlaces, f, replyQueued, Part.answered, replyTo, replyFrame, kindReply]

/-- A request whose class falls short is answered NOT_PERMITTED (R172, check 4). -/
theorem serveSimple_short {i src cls least} {op : Part → Part × Code} (h : p.hears src cls = true)
    (hl : cls.rank < SourceClass.rank least) :
    serveSimple i src least op p = p.answered src (operationOf i) .notPermitted [] := by
  by_cases hc : cls.rank = 0
  · rw [serveSimple, serve_unranked h hc, reply_taken h]
  · rw [serveSimple, serve_heard h hc]
    have : cls.atLeast least = false := by simp [SourceClass.atLeast]; omega
    simp [this, reply_taken h]

/-- A request whose class suffices does its operation and is answered with the code of it. -/
theorem serveSimple_heard {i src cls least} {op : Part → Part × Code} (h : p.hears src cls = true)
    (hc : cls.rank ≠ 0) (hl : SourceClass.rank least ≤ cls.rank) :
    serveSimple i src least op p
      = reply src (operationOf i) (op (p.taken i cls)).2 [] (op (p.taken i cls)).1 := by
  have : cls.atLeast least = true := by simp [SourceClass.atLeast, hl]
  rw [serveSimple, serve_heard h hc]
  simp [this]

/-- A request that its operation refuses, changing nothing, is answered with the refusal. -/
theorem serveSimple_refused {i src cls least code} {op : Part → Part × Code} (h : p.hears src cls = true)
    (hc : cls.rank ≠ 0) (hl : SourceClass.rank least ≤ cls.rank)
    (ho : op (p.taken i cls) = (p.taken i cls, code)) :
    serveSimple i src least op p = p.answered src (operationOf i) code [] := by
  rw [serveSimple_heard h hc hl, ho, reply_taken h]

/-! ## Replies -/

theorem gave_offerReply {item : UpItem} : (offerReply item q).gave item := by
  unfold offerReply Part.gave
  split
  · left; simp [replyQueued]
  · right; rfl

/-- R172: what is replied is given. -/
theorem gave_reply {src o : Nat} {code : Code} {data : List Byte} :
    (reply src o code data q).gave (replyTo q.mgmt.address src o code data) := gave_offerReply

/-- A reply already given is not taken back by what touches neither UP nor the requests. -/
theorem gave_of_same {r : UpItem} {T : List Block} (h : p.gave r) (k : p.sameBut q T) (h1 : Block.up ∉ T)
    (h2 : Block.requests ∉ T) : q.gave r := by
  have a := k _ h1
  have b := k _ h2
  simp only [Part.sameIn] at a b
  simpa [Part.gave, a.1, b.2.1] using h

/-- A reply alters nothing but UP and the request in hand. -/
theorem same_offerReply' {item : UpItem} {T : List Block} (h1 : Block.up ∈ T) (h2 : Block.requests ∈ T) :
    q.sameBut (offerReply item q) T := by simp [h1, h2]

@[simp] theorem taken_osc {i cls} : (p.taken i cls).osc = p.osc := rfl
@[simp] theorem taken_time {i cls} : (p.taken i cls).time = p.time := rfl
@[simp] theorem taken_dialDriver {i cls} : (p.taken i cls).dialDriver = p.dialDriver := rfl
@[simp] theorem taken_bellGuard {i cls} : (p.taken i cls).bellGuard = p.bellGuard := rfl
@[simp] theorem taken_session {i cls} : (p.taken i cls).session = p.session := rfl
@[simp] theorem taken_store {i cls} : (p.taken i cls).store = p.store := rfl
@[simp] theorem taken_clock {i cls} : (p.taken i cls).clock = p.clock := rfl
@[simp] theorem taken_tune {i cls} : (p.taken i cls).tune = p.tune := rfl
@[simp] theorem taken_lamps {i cls} : (p.taken i cls).lamps = p.lamps := rfl
@[simp] theorem taken_budget {i cls} : (p.taken i cls).budget = p.budget := rfl
@[simp] theorem taken_cal {i cls} : (p.taken i cls).cal = p.cal := rfl
@[simp] theorem taken_line {i cls} : (p.taken i cls).line = p.line := rfl
@[simp] theorem taken_retention {i cls} : (p.taken i cls).retention = p.retention := rfl
@[simp] theorem taken_dial {i cls d} : (p.taken i cls).dial d = p.dial d := rfl
@[simp] theorem taken_bell {i cls b} : (p.taken i cls).bell b = p.bell b := rfl
@[simp] theorem taken_group {i cls g} : (p.taken i cls).group g = p.group g := rfl
@[simp] theorem taken_unset {i cls} : (p.taken i cls).unset = p.unset := rfl
@[simp] theorem taken_partState {i cls} : (p.taken i cls).mgmt.partState = p.mgmt.partState := rfl
@[simp] theorem taken_faults {i cls} : (p.taken i cls).mgmt.faults = p.mgmt.faults := rfl
@[simp] theorem taken_address {i cls} : (p.taken i cls).mgmt.address = p.mgmt.address := rfl

@[simp] theorem same_taken {i : Instr} {cls : SourceClass} {T : List Block} (h : p.sameBut q T)
    (h1 : Block.requests ∈ T) : p.sameBut (q.taken i cls) T := by simp [Part.taken, *]

end Sys2Proof.Machine
end

