-- ==== Sys2Proof/Laws/TimeLaws.lean ====
section
/-! SUPPORT. What the Time Scale's operations make of the Time Scale itself, as equations: the blocks it hands its
events to leave it alone (Laws/CalmOps.lean), so each is the record update of its rule. -/

namespace Sys2Proof.Machine

variable {p q : Part}

@[simp] theorem tellTimeState_time {a b : TimeState} : (tellTimeState a b p).time = p.time :=
  (calm_tellTimeState (Calm.refl _)).time

@[simp] theorem emitQuarter_time {b : Int} {l : Bool} : (emitQuarter b l p).time = p.time :=
  (calm_emitQuarter (Calm.refl _)).time

@[simp] theorem dialsSecond_time : (dialsSecond p).time = p.time := (calm_dialsSecond (Calm.refl _)).time

@[simp] theorem dialsShifted_time : (dialsShifted p).time = p.time := (calm_dialsShifted (Calm.refl _)).time

@[simp] theorem calDateChange_time : (calDateChange p).time = p.time := (calm_calDateChange (Calm.refl _)).time

@[simp] theorem calStepForward_time : (calStepForward p).time = p.time := (calm_calStepForward (Calm.refl _)).time

@[simp] theorem rebuild_time : (rebuild p).time = p.time := (calm_rebuild (Calm.refl _)).time

@[simp] theorem raiseMinor_time {k : FaultKind} {d : List Byte} : (raiseMinor k d p).time = p.time :=
  (calm_raiseMinor (Calm.refl _)).time

/-- R15: the Time Scale after a recomputation of the offset cache. -/
@[simp] theorem recomputeOffset_time : (recomputeOffset p).time = p.time.recomputed := by
  unfold recomputeOffset
  dsimp only
  split
  · rfl
  · exact dialsShifted_time

/-- R16: the Time Scale after the civil date has been evaluated. -/
theorem evaluateDate_time (h : p.time.state ≠ .unset) :
    (evaluateDate p).time = { p.time with civilDate := some p.time.dateNow } := by
  have hu : p.unset = false := by simp [Part.unset, h]
  unfold evaluateDate
  split
  · rename_i k
    simp [hu] at k
    rw [← k]
  · exact calDateChange_time

/-- R18: the Time Scale after the quarter rule of a second boundary. -/
theorem quarterAtSecond_time :
    (quarterAtSecond p).time = { p.time with
      quarterMarker := if p.time.sec % 900 = 0 ∧ p.time.quarterMarker.all (fun m => m < p.time.sec) then some p.time.sec
        else p.time.quarterMarker } := by
  unfold quarterAtSecond
  split
  · rename_i h
    rw [emitQuarter_time]
    simp [Config.quarterSeconds] at h
    simp [h]
  · rename_i h
    simp [Config.quarterSeconds] at h
    have : ¬ (p.time.sec % 900 = 0 ∧ p.time.quarterMarker.all (fun m => decide (m < p.time.sec)) = true) := by
      simpa using h
    rw [if_neg this]

/-- R19: the Time Scale after the crossed boundaries have been looked at. -/
theorem crossedQuarters_marker :
    (crossedQuarters p).time.quarterMarker
      = p.time.quarterMarker.map (fun i => max i (p.time.sec / 900 * 900))
    ∧ (crossedQuarters p).time.civilDate = p.time.civilDate ∧ (crossedQuarters p).time.sec = p.time.sec
    ∧ (crossedQuarters p).time.acc = p.time.acc := by
  unfold crossedQuarters lastBoundary
  dsimp only [Config.quarterSeconds]
  split
  · rename_i h; simp [h]
  · rename_i m h
    split
    · rw [h]; simp; omega
    · split <;> simp [h] <;> omega

@[simp] theorem recomputed_state {t : TimeScale} : t.recomputed.state = t.state := by
  unfold TimeScale.recomputed; split <;> rfl
@[simp] theorem recomputed_sec {t : TimeScale} : t.recomputed.sec = t.sec := by
  unfold TimeScale.recomputed; split <;> rfl
@[simp] theorem recomputed_acc {t : TimeScale} : t.recomputed.acc = t.acc := by
  unfold TimeScale.recomputed; split <;> rfl
@[simp] theorem recomputed_trim {t : TimeScale} : t.recomputed.trim = t.trim := by
  unfold TimeScale.recomputed; split <;> rfl
@[simp] theorem recomputed_windowSize {t : TimeScale} : t.recomputed.windowSize = t.windowSize := by
  unfold TimeScale.recomputed; split <;> rfl
@[simp] theorem recomputed_delay {t : TimeScale} : t.recomputed.delay = t.delay := by
  unfold TimeScale.recomputed; split <;> rfl
@[simp] theorem recomputed_window {t : TimeScale} : t.recomputed.window = t.window := by
  unfold TimeScale.recomputed; split <;> rfl
@[simp] theorem recomputed_stepPending {t : TimeScale} : t.recomputed.stepPending = t.stepPending := by
  unfold TimeScale.recomputed; split <;> rfl
@[simp] theorem recomputed_silence {t : TimeScale} : t.recomputed.silence = t.silence := by
  unfold TimeScale.recomputed; split <;> rfl
@[simp] theorem recomputed_civilDate {t : TimeScale} : t.recomputed.civilDate = t.civilDate := by
  unfold TimeScale.recomputed; split <;> rfl
@[simp] theorem recomputed_quarterMarker {t : TimeScale} : t.recomputed.quarterMarker = t.quarterMarker := by
  unfold TimeScale.recomputed; split <;> rfl
@[simp] theorem recomputed_steps {t : TimeScale} : t.recomputed.steps = t.steps := by
  unfold TimeScale.recomputed; split <;> rfl
@[simp] theorem recomputed_usedMarks {t : TimeScale} : t.recomputed.usedMarks = t.usedMarks := by
  unfold TimeScale.recomputed; split <;> rfl

/-! ## The hand-on of a recomputation -/

theorem untargets {l : List Nat} (hl : ∀ e ∈ l, 1 ≤ e ∧ e ≤ 4) (hu : p.time.state = .unset) :
    p.sameBut (l.foldl (fun p d => reformTarget true d p) p) [.dialDriver]
      ∧ ∀ d, (d ∈ l → (l.foldl (fun p d => reformTarget true d p) p).dial d = { p.dial d with target := none })
        ∧ (d ∉ l → (l.foldl (fun p d => reformTarget true d p) p).dial d = p.dial d) := by
  induction l generalizing p with
  | nil => exact ⟨same_refl _ _, fun _ => ⟨fun h => absurd h List.not_mem_nil, fun _ => rfl⟩⟩
  | cons e l ih =>
    have he := hl e List.mem_cons_self
    obtain ⟨r, hr⟩ : ∃ r, r = p.putDial e { p.dial e with target := none } := ⟨_, rfl⟩
    have own : r.dial e = { p.dial e with target := none } := by rw [hr, dial_putDial_self _ _ _ he]
    have other : ∀ d, d ≠ e → r.dial d = p.dial d := fun d h => by rw [hr, dial_putDial_ne _ _ _ _ h]
    obtain ⟨k1, k2⟩ := ih (p := r) (fun x hx => hl x (List.mem_cons_of_mem _ hx)) (by rw [hr]; exact hu)
    simp only [List.foldl_cons, reformTarget_unset he hu, ← hr]
    refine ⟨sameBut_trans (by rw [hr]; simp) k1, fun d => ⟨fun hd => ?_, fun hd => ?_⟩⟩
    · by_cases de : d = e
      · subst de
        by_cases hm : d ∈ l
        · rw [(k2 d).1 hm, own]
        · rw [(k2 d).2 hm, own]
      · rw [(k2 d).1 (by simpa [de] using hd), other d de]
    · rw [(k2 d).2 fun h => hd (List.mem_cons_of_mem _ h), other d fun h => hd (h ▸ List.mem_cons_self)]

/-- R25: at a CIVIL_SHIFT while UNSET no dial has a target. -/
theorem dialsShifted_unset (hu : p.time.state = .unset) :
    p.sameBut (dialsShifted p) [.dialDriver]
      ∧ ∀ d, 1 ≤ d → d ≤ 4 → (dialsShifted p).dial d = { p.dial d with target := none } := by
  have hn : dialNumbers = [1, 2, 3, 4] := by decide
  have k := untargets (p := p) (l := dialNumbers) (by rw [hn]; decide) hu
  refine ⟨k.1, fun d h1 h4 => (k.2 d).1 ?_⟩
  rw [hn]
  have h : d = 1 ∨ d = 2 ∨ d = 3 ∨ d = 4 := by omega
  simpa using h

/-- R15, R25: the offset cache recomputed while tower time is set. -/
theorem recomputeOffset_taken (hs : p.time.state ≠ .unset) : p.offsetTaken (recomputeOffset p) := by
  refine ⟨recomputeOffset_time, by simp, fun h => ?_, fun h d h1 h4 => ?_⟩
  all_goals
    rw [recomputeOffset_time] at h
    unfold recomputeOffset
    dsimp only
  · rw [if_pos h]
  · rw [if_neg h]
    have k := @dialsShifted_follows d { p with time := p.time.recomputed } ⟨h1, h4⟩ (by simpa using hs)
    exact k

/-- R151: a rebuild while tower time is set and the civil date is held replaces the history. -/
theorem rebuildWith_history {h : OffsetHistory} {x : Option OffsetHistory} {d : Date} (hs : p.time.state ≠ .unset)
    (hd : p.time.civilDate = some d) : rebuildWith h { p with cal.history := x } = rebuildWith h p := by
  have hu : p.unset = false := by simp [Part.unset, hs]
  have hv : Part.unset { p with cal.history := x } = false := hu
  unfold rebuildWith
  simp only [hd, hu, hv, if_neg Bool.false_ne_true]

/-- R146, R151: a history that is to be taken afresh need not be dropped first. -/
theorem rebuild_fresh {d : Date} (hs : p.time.state ≠ .unset) (hd : p.time.civilDate = some d) :
    rebuildWith (takeHistory p) p = rebuild { p with cal.history := none } := by
  have hh : refreshHistory { p with cal.history := none } = takeHistory p := rfl
  unfold rebuild
  rw [hh]
  exact (rebuildWith_history hs hd).symm

/-- R16, R146, R150: the civil date evaluated while tower time is set. -/
theorem evaluateDate_taken (hs : p.time.state ≠ .unset) : p.dateTaken (evaluateDate p) := by
  intro d hd
  have hu : p.unset = false := by simp [Part.unset, hs]
  have hn : p.time.dateNow = d := hd.symm
  unfold evaluateDate
  rw [hn, hu]
  refine ⟨fun h => by simp [h], fun h => ?_⟩
  rw [if_neg (by simp [h])]
  have ht : (recomputeClasses { p with time.civilDate := some d }).time = { p.time with civilDate := some d } :=
    (calm_recomputeClasses (Calm.refl _)).time
  simp only [calDateChange]
  revert ht
  generalize recomputeClasses { p with time.civilDate := some d } = q
  exact fun ht => rebuild_fresh (p := q) (d := d) (by rw [ht]; exact hs) (by rw [ht])

/-- R14, R15: the hand-on of an accepted write of the season list or of the base offset. -/
theorem seasonsChanged_taken {src o : Nat} {c : Code} {l : List Byte} :
    p.seasonsTaken (reply src o c l (seasonsChanged p)) := by
  refine ⟨recomputeOffset p, evaluateDate (recomputeOffset p),
    fun hs => ⟨recomputeOffset_taken hs, evaluateDate_taken (by simpa using hs)⟩, fun hs => ?_,
    same_offerReply' (by simp) (by simp)⟩
  have hu : ({ p with time := p.time.recomputed } : Part).time.state = .unset := by simpa using hs
  refine ⟨?_, ?_, recomputeOffset_time, fun h => ?_, fun h d h1 h4 => ?_⟩
  · unfold evaluateDate
    rw [if_pos (.inl (by simp [Part.unset, hs]))]
  · have k : p.sameBut { p with time := p.time.recomputed } [.time, .dialDriver] := by simp
    unfold recomputeOffset
    dsimp only
    split
    · exact k
    · exact sameBut_trans k (sameBut_mono (dialsShifted_unset hu).1 (by simp))
  all_goals
    rw [recomputeOffset_time] at h
    unfold recomputeOffset
    dsimp only
  · rw [if_pos h]
  · rw [if_neg h]
    exact (dialsShifted_unset hu).2 d h1 h4

/-! ## Changes of time state that neither enter nor leave UNSET, and the change to UNSET -/

theorem same_dialsFollow_set {a b : TimeState} {T : List Block} (ha : a ≠ .unset) (hb : b ≠ .unset)
    (h : p.sameBut q T) (h1 : Block.dialDriver ∈ T) (h2 : Block.lamps ∈ T) (h3 : Block.budget ∈ T)
    (h4 : Block.locals ∈ T) : p.sameBut (dialsFollow a b q) T := by
  unfold dialsFollow
  rw [if_neg hb, if_neg ha]
  exact same_foldl (fun q a => by simp [*]) _ h

/-- R13: a change of time state between ACQUIRING, LOCKED and HOLDOVER raises no fault and leaves the Calendar alone. -/
theorem same_tellTimeState_set {a b : TimeState} {T : List Block} (ha : a ≠ .unset) (hb : b ≠ .unset)
    (h : p.sameBut q T) (h1 : Block.dialDriver ∈ T) (h2 : Block.lamps ∈ T) (h3 : Block.budget ∈ T)
    (h4 : Block.locals ∈ T) (h5 : Block.up ∈ T) : p.sameBut (tellTimeState a b q) T := by
  have k := same_dialsFollow_set ha hb h h1 h2 h3 h4
  unfold tellTimeState
  dsimp only
  split
  · exact h
  · simp [k, h5]

/-- R13, R38: the change to UNSET raises no fault. -/
theorem same_tellTimeState_unset {a : TimeState} {T : List Block} (h : p.sameBut q T) (h1 : Block.dialDriver ∈ T)
    (h2 : Block.lamps ∈ T) (h3 : Block.budget ∈ T) (h4 : Block.locals ∈ T) (h5 : Block.up ∈ T)
    (h6 : Block.cal ∈ T) : p.sameBut (tellTimeState a .unset q) T := by
  have k : p.sameBut (dialsFollow a .unset q) T := by
    unfold dialsFollow
    rw [if_pos rfl]
    split
    · exact h
    · exact same_dialsStop h h1 h2 h3 h4
  unfold tellTimeState
  split
  · exact h
  · simp [k, h5, h6]

/-! ## A mark within threshold -/

/-- R8: below 2³⁰ no second is due. -/
theorem secondPart_below (h : p.time.acc < 1073741824) : secondPart p = p := by
  unfold secondPart
  rw [if_neg]
  simp only [Config.secondPhase]
  omega

/-- R8: a second that is due elapses. -/
theorem secondPart_due (hs : p.time.state ≠ .unset) (h : 1073741824 ≤ p.time.acc) : secondPart p = secondElapses p := by
  unfold secondPart
  rw [if_pos]
  exact ⟨by simp [Part.unset, hs], h⟩

/-- R8: a mark within threshold whose nudge leaves no second due. -/
theorem slew_below {r : Reception} {n off : Int} (hs : p.time.state ≠ .unset)
    (h : (p.time.nudged off).acc < 1073741824) :
    slew r n off p = serveWindow r n (leaveHoldover { p with time := p.time.nudged off }) := by
  have hu : (p.time.nudged off).state ≠ .unset := by
    unfold TimeScale.nudged
    dsimp only
    split <;> exact hs
  unfold slew
  dsimp only
  rw [secondPart_below (p := { p with time := p.time.nudged off }) h,
    if_neg (by simpa [Part.unset] using hu)]

/-- R8, R13: out of HOLDOVER the change to LOCKED reaches the dials and the notices alone. -/
theorem same_leaveHoldover_set {T : List Block} (h : p.sameBut q T) (h1 : Block.time ∈ T) (h2 : Block.dialDriver ∈ T)
    (h3 : Block.lamps ∈ T) (h4 : Block.budget ∈ T) (h5 : Block.locals ∈ T) (h6 : Block.up ∈ T) :
    p.sameBut (leaveHoldover q) T := by
  unfold leaveHoldover
  split
  · exact same_tellTimeState_set (by simp) (by simp) (by simp [h, h1]) h2 h3 h4 h5 h6
  · exact h

end Sys2Proof.Machine
end

