-- ==== Sys2Proof/Tests/Slice0.lean ====
section
/-! SUPPORT. Tests: the WellFormed smoke, one-step tests of commands against the manual's tables and examples, and for
every statement of Obligations a witness that its hypotheses can be met together, clause by clause, at the boundaries
of their ranges. -/

set_option Elab.async false

namespace Sys2Proof.Tests

open Sys2Proof Sys2Proof.Machine

/-! ## WellFormed: one ill-formed command for each check, refused -/

theorem test_wf_node_zero : (Instr.stopTune 0).wellFormed = false := by decide
theorem test_wf_node_63 : (Instr.stopTune 63).wellFormed = false := by decide
theorem test_wf_node_62 : (Instr.stopTune 62).wellFormed = true := by decide
theorem test_wf_byte : (Instr.applyScene 1 256).wellFormed = false := by decide
theorem test_wf_word : (Instr.setDial 1 1 65536).wellFormed = false := by decide
theorem test_wf_second_of_day : (Instr.timeMark 1 0 1 1 16777216 2).wellFormed = false := by decide
theorem test_wf_set_time_second : (Instr.setTime 1 0 1 1 16777216).wellFormed = false := by decide
theorem test_wf_instant : (Instr.seasonRemove 1 4294967296).wellFormed = false := by decide
theorem test_wf_instant_added : (Instr.seasonAdd 1 4294967296 0).wellFormed = false := by decide
theorem test_wf_offset_low : (Instr.seasonBase 1 (-32769)).wellFormed = false := by decide
theorem test_wf_offset_high : (Instr.seasonBase 1 32768).wellFormed = false := by decide
theorem test_wf_bell : (Instr.hammerTimeout 17).wellFormed = false := by decide
theorem test_wf_dial : (Instr.dialFastInstant 5).wellFormed = false := by decide
theorem test_wf_bell_set : (Instr.claimBells 1 [1, 0]).wellFormed = false := by decide
theorem test_wf_record_length : (Instr.writeRecord 1 4 0 (List.replicate 29 0)).wellFormed = false := by decide
theorem test_wf_records_length : (Instr.writeNext 1 (List.replicate 32 0)).wellFormed = false := by decide

/-! ## Small states -/

/-- The part after a cold power-on (R21). -/
def cold : Part := Part.cold
/-- The part with its time state LOCKED at a second count and accumulator. -/
def lockedAt (sec acc : Int) : Part :=
  { cold with time := { TimeScale.cold with
      state := .locked, sec := sec, acc := acc, silence := some 0,
      civilDate := some (civilDateAt sec 0), quarterMarker := some (sec / 900 * 900) } }
/-- LOCKED at the start of tower second 1000. -/
def locked : Part := lockedAt 1000 0
/-- The part with the source class of a node written. -/
def withClass (node : Nat) (c : SourceClass) (p : Part) : Part :=
  { p with mgmt.sources := bankPut1 p.mgmt.sources node (stored sourceClassBytes c) }
def withBell (b : Nat) (f : Bell → Bell) (p : Part) : Part := p.putBell b (f (p.bell b))
def withDial (d : Nat) (f : Dial → Dial) (p : Part) : Part := p.putDial d (f (p.dial d))
def withGroup (g : Nat) (f : LampGroup → LampGroup) (p : Part) : Part := p.putGroup g (f (p.group g))
/-- The part SAFE. -/
def safe (p : Part) : Part := { p with mgmt.partState := .safe }
/-- A bell fitted at node 20, its channel its number. -/
def fitted (x : Bell) : Bell := { x with config := { x.config with hammerNode := some 20 } }
/-- A SWING bell fitted at node 20 with its sensor at node 21, hanging still and settled with its hammer engaged. -/
def ready (x : Bell) : Bell :=
  { x with
    config := { x.config with hammerNode := some 20, sensorNode := some 21 }, position := .down, downBegan := some 0,
    settled := true, hammer := .engaged }
/-- The part that a command leaves, for tests of one step. -/
def after (c : Instr) (p : Part) : Part :=
  match exec c { part := p, pending := [] } with
  | .next s => s.part
  | _ => p

/-- A property of the bells is checked bell by bell. -/
theorem each16 {P : Nat → Prop} (h : ∀ b : Fin 17, 1 ≤ b.val → P b.val) : ∀ b, 1 ≤ b → b ≤ 16 → P b :=
  fun b h1 h2 => h ⟨b, by omega⟩ h1
theorem each12 {P : Nat → Prop} (h : ∀ b : Fin 13, 1 ≤ b.val → P b.val) : ∀ b, 1 ≤ b → b ≤ 12 → P b :=
  fun b h1 h2 => h ⟨b, by omega⟩ h1
theorem each4 {P : Nat → Prop} (h : ∀ b : Fin 5, 1 ≤ b.val → P b.val) : ∀ b, 1 ≤ b → b ≤ 4 → P b :=
  fun b h1 h2 => h ⟨b, by omega⟩ h1
theorem each32 {P : Nat → Prop} (h : ∀ b : Fin 32, P b.val) : ∀ b, b < 32 → P b := fun b h1 => h ⟨b, h1⟩

/-! ## Witnesses: the Time Scale and requests -/

/-- LOCKED with k ticks of silence. -/
def silent (k : Nat) : Part := { locked with time := { locked.time with silence := some k } }
theorem witness_TicksAndSupply :
    cold.retention.supply = true ∧ cold.time.state = .unset ∧ locked.retention.supply = true
      ∧ locked.time.state ≠ .unset
      ∧ (silent 614399).time.silence.any (fun k => 614400 ≤ k) = false
      ∧ (silent 614400).time.silence = some 614400 ∧ (silent 614400).time.state = .locked
      ∧ (silent 614400).line.upQ.length < 14
      ∧ ({ silent 614400 with time.state := .acquiring } : Part).time.state = .acquiring
      ∧ (after .supplyFail cold).retention.supply = false
      ∧ (after .supplyFail locked).retention.cellHeld = true
      ∧ Instr.secondBoundary ≠ .oscillatorTick ∧ Instr.secondBoundary ≠ .coldPowerOn
      ∧ Instr.secondBoundary ≠ .warmPowerOn ∧ Instr.secondBoundary ≠ .backupCellLow := by decide +kernel
/-- The dials with the targets that their part's second count gives. -/
def targeted (p : Part) : Part :=
  dialNumbers.foldl (fun p d => withDial d (fun x => { x with target := some (p.targetFor d) }) p) p
theorem witness_TicksAndSupply_dials :
    (∀ d, 1 ≤ d → d ≤ 4 →
        ((targeted (silent 614400)).dial d).target = some ((targeted (silent 614400)).targetFor d))
      ∧ (targeted (silent 614400)).time.silence = some 614400 ∧ (targeted (silent 614400)).time.state = .locked :=
  ⟨each4 (by decide +kernel), by decide +kernel⟩
/-- A season list with one entry due, one later and none in between. -/
def twoSeasons : TimeScale :=
  { locked.time with seasons := [{ instant := 960, offset := 60 }, { instant := 1020, offset := 0 }] }
theorem witness_SecondElapses :
    cold.time.state = .unset ∧ (lockedAt 1000 1073741823).time.acc < 1073741824
      ∧ (∀ sec ∈ [(3155759998 : Int), 3155759999], (lockedAt sec 1073741824).retention.supply = true
          ∧ (lockedAt sec 1073741824).time.state ≠ .unset ∧ 1073741824 ≤ (lockedAt sec 1073741824).time.acc)
      ∧ ((3155759998 : Int) < 3155759999)
      ∧ (({ (lockedAt 899 1073741824).time with sec := 900, acc := 0 } : TimeScale).sec % 900 = 0)
      ∧ ({ (lockedAt 899 1073741824).time with sec := 900 } : TimeScale).quarterMarker.all (fun m => m < 900) = true
      ∧ ({ twoSeasons with nextChange := some 1001, sec := 1001 } : TimeScale).nextChange.any (fun i => i ≤ 1001) = true
      := by decide +kernel
/-- Dial 1 in a state at position i with target t, a second due. Its target in second 1020 is 34. -/
def turning (st : DialState) (i sec : Nat) (t : Nat) : Part :=
  withDial 1 (fun x => { x with state := st, indicated := some i, target := some t }) (lockedAt sec 1073741824)
/-- LOCAL filled with steps of dial 1. -/
def localFull (p : Part) : Part :=
  { p with line := { p.line with localQ := List.replicate 24 (.dialStep 1 (Frame.mk 40 1 23 [1, 1])) } }
theorem witness_SecondElapses_dials :
    (∀ st ∈ [DialState.inStep, .advancing, .waitingFeed, .holding], ∀ i ∈ [34, 36, 394, 395, 33, 35, 32],
        let p := turning st i 1019 33
        p.retention.supply = true ∧ p.time.state ≠ .unset ∧ 1073741824 ≤ p.time.acc ∧ p.time.sec < 3155759999
          ∧ (p.dial 1).state = st ∧ (p.dial 1).effective = some i ∧ i < (p.dial 1).positions
          ∧ ((1020 + 60 * 0 : Int) % 43200).toNat / (p.dial 1).config.stepPeriod = 34 ∧ 34 < (p.dial 1).positions
          ∧ (p.dial 1).target ≠ some 34 ∧ 1 ∉ p.budget.waiting)
      ∧ (∀ i ∈ [394, 36], 2 ≤ (34 + 1440 - i) % 1440 ∧ (i + 1440 - 34) % 1440 ≤ (cold.dial 1).config.holdLimit)
      ∧ (cold.dial 1).config.holdLimit < (395 + 1440 - 34) % 1440 ∧ (34 + 1440 - 33) % 1440 = 1
      ∧ (let p := turning .inStep 32 1001 33
         ((1002 + 60 * 0 : Int) % 43200).toNat / (p.dial 1).config.stepPeriod = 33 ∧ (p.dial 1).target = some 33
          ∧ (p.dial 1).effective = some 32 ∧ (33 + 1440 - 32) % 1440 = 1 ∧ (p.dial 1).outstanding = false
          ∧ p.line.localQ.length < 24 ∧ 24 ≤ (localFull p).line.localQ.length)
      ∧ ((withDial 1 (fun x => { x with outstanding := true }) (turning .inStep 32 1001 33)).dial 1).outstanding = true
      ∧ (withDial 1 (fun x => { x with indicated := none }) (turning .inStep 32 1001 33)).dial 1
          = { (turning .inStep 32 1001 33).dial 1 with indicated := none }
      ∧ ((turning .stopped 32 1001 33).dial 1).state = .stopped := by decide +kernel
/-- Dial 1 alone waits for its drive charge, the others STOPPED. -/
theorem witness_SecondElapses_waiting :
    ({ turning .waitingFeed 30 1019 33 with budget.waiting := [1] } : Part).undisturbed 1
      ∧ (turning .waitingFeed 30 1019 33).undisturbed 1 :=
  ⟨.inr ⟨rfl, fun e h1 h4 hn => .inl
    (each4 (P := fun e => e ≠ 1 → (Part.dial { turning .waitingFeed 30 1019 33 with budget.waiting := [1] } e).state
      = .stopped) (by decide +kernel) e h1 h4 hn)⟩, .inl (by decide +kernel)⟩
/-- The boundary brings a new offset at second 1001, a new date at 86400 and a quarter at 900; at the end of the range
dial 2 waits and dial 1 holds a charge. -/
theorem witness_SecondElapses_clauses :
    (let t : TimeScale := { twoSeasons with nextChange := some 960, sec := 1001 }
     t.recomputed.currentOffset = 60 ∧ t.currentOffset = 0)
      ∧ (lockedAt 86399 1073741824).time.civilDate ≠ some (civilDateAt 86400 0)
      ∧ (lockedAt 1019 1073741824).time.civilDate = some (civilDateAt 1020 0)
      ∧ (∀ c ∈ [((900 : Int), 1, 0), (1800, 2, 0), (2700, 3, 0), (3600, 4, 1), (86400, 4, 0)],
          (c.1 + 60 * 0) % 86400 % 900 = 0)
      ∧ [2].Nodup ∧ (∀ d ∈ [2], 1 ≤ d ∧ d ≤ 4) := by decide +kernel
/-- Node 10 is a TIME source. -/
def timed (p : Part) : Part := withClass 10 .time p
/-- A mark of node 10 that arrived at tick 3, its class read then, and now waits at tick 1000. -/
def waitingMark (p : Part) : Part :=
  { p with
    osc := 1000
    line := { p.line with delivered := [{ command := .timeMark 10 0 1 1 1000 2, arrival := 3, port := .console,
                                          cls := some .time, delay := 7, monitor := none, dial := none }] } }
theorem witness_markFrom :
    cold.markFrom 62 0 1 1 1000 2 .service 0 0 ∧ (timed cold).markFrom 10 0 1 1 1000 2 .time 0 0
      ∧ (waitingMark locked).markFrom 10 0 1 1 1000 2 .time 997 7 :=
  ⟨.inl (by decide +kernel), .inl (by decide +kernel),
    .inr ⟨Delivery.mk (.timeMark 10 0 1 1 1000 2) 3 .console (some .time) 7 none none, by decide +kernel, rfl, rfl, rfl⟩⟩
theorem witness_MarksNotUsed :
    cold.retention.supply = true ∧ cold.copyOf (.timeMark 62 0 1 1 1000 2) = none ∧ cold.classIs 62 .service = true
      ∧ SourceClass.service ≠ .time ∧ (timed cold).classIs 10 .time = true ∧ daysIn (decide (1 % 4 = 0)) 2 < 29
      ∧ (∀ k ∈ [0, 4], k = 0 ∨ 3 < k) ∧ (timed locked).time.state ≠ .unset
      ∧ fieldsValid 99 12 31 86399 = true := by decide +kernel
theorem witness_MarkSetsTime :
    (timed cold).retention.supply = true ∧ (timed cold).copyOf (.timeMark 10 0 1 1 1000 3) = none
      ∧ (timed cold).classIs 10 .time = true ∧ fieldsValid 0 2 29 0 = true
      ∧ 1 ≤ 1 ∧ 3 ≤ 3 ∧ (timed cold).time.state = .unset ∧ namedInstant 0 1 1 1000 = 1000 := by decide +kernel
/-- UNSET, dial 1 with three home misses, dial 2 without a position, dial 3 at position 33. -/
def stoppedDials : Part :=
  withDial 1 (fun x => { x with misses := 3, indicated := some 0 })
    (withDial 3 (fun x => { x with indicated := some 33 }) cold)
theorem stoppedDials_sound : stoppedDials.BudgetSound := by
  constructor
  case groups => exact each12 (by decide +kernel)
  case dark => exact each12 (by decide +kernel)
  case priorities => exact each12 (by decide +kernel)
  case dials => exact each4 (by decide +kernel)
  case known => exact fun c h => absurd h (by simp [show stoppedDials.budget.charges = [] by decide +kernel])
  case lit => exact fun c h => absurd h (by simp [show stoppedDials.budget.charges = [] by decide +kernel])
  case stopped => exact fun _ => each4 (by decide +kernel)
  all_goals decide +kernel
theorem witness_MarkSetsTime_dials :
    stoppedDials.BudgetSound ∧ (timed stoppedDials).time.state = .unset ∧ (stoppedDials.dial 1).misses = 3
      ∧ (stoppedDials.dial 2).misses ≠ 3 ∧ (stoppedDials.dial 2).indicated = none
      ∧ (stoppedDials.dial 3).misses ≠ 3 ∧ (stoppedDials.dial 3).effective = some 33
      ∧ 33 < (stoppedDials.dial 3).positions ∧ (33 + 1440 - 33) % 1440 = 0
      ∧ stoppedDials.hears 62 .service = true := ⟨stoppedDials_sound, by decide +kernel⟩
/-- LOCKED at second 1000 and a fraction of it, in ticks; node 10 is a TIME source. -/
def atTick (k : Int) : Part := timed (lockedAt 1000 (k * 1048576))
theorem witness_MarkSlews :
    (∀ k ∈ [(-128 : Int), 128], (atTick k).copyOf (.timeMark 10 0 1 1 1000 2) = none
        ∧ (atTick k).classIs 10 .time = true ∧ fieldsValid 0 1 1 1000 = true
        ∧ (atTick k).time.state ≠ .unset
        ∧ (atTick k).time.sec * 1024 + (atTick k).time.acc / 1048576 - (atTick k).time.delay
            - 1024 * namedInstant 0 1 1 1000 = k
        ∧ (atTick k).time.window.all (fun x => (1000 : Int) - x.opened < ((atTick k).time.windowSize : Int)) = true
        ∧ (atTick k).time.state ≠ .holdover)
      ∧ ({ (atTick 128) with time.state := .holdover } : Part).time.state = .holdover := by decide +kernel
theorem witness_MarkSlews_dials :
    let p : Part := targeted { (atTick 128) with time.state := .holdover }
    (∀ e, 1 ≤ e → e ≤ 4 → (p.dial e).target = some (p.targetFor e)) ∧ p.time.state = .holdover :=
  ⟨each4 (by decide +kernel), by decide +kernel⟩
/-- One tick short of second 1000, at which d = 20 makes P −21 and the nudge a tick forward. -/
def nudgedOver (st : TimeState) : Part :=
  { (timed (lockedAt 999 (1023 * 1048576))) with time := { (lockedAt 999 (1023 * 1048576)).time with
      state := st, delay := 20 } }
/-- At the last second of the range, a mark of that second whose reception ended 1019 ticks back. -/
def nudgedPast (st : TimeState) : Part :=
  { (timed (lockedAt 3155759999 (1023 * 1048576))) with
    osc := 1019
    time := { (lockedAt 3155759999 (1023 * 1048576)).time with state := st }
    line := { cold.line with delivered :=
      [Delivery.mk (.timeMark 10 99 12 31 86399 2) 0 .console (some .time) 20 none none] } }
theorem witness_MarkSlews_second :
    (∀ st ∈ [TimeState.locked, .holdover], (nudgedOver st).copyOf (.timeMark 10 0 1 1 1000 2) = none
        ∧ (nudgedOver st).classIs 10 .time = true
        ∧ (nudgedOver st).time.sec * 1024 + (nudgedOver st).time.acc / 1048576 - 20 - 1024 * 1000 = -21
        ∧ (nudgedOver st).time.acc - (-21 : Int).tdiv 16 * 1048576 = 1073741824 ∧ (nudgedOver st).time.sec < 3155759999)
      ∧ (nudgedPast .holdover).copyOf (.timeMark 10 99 12 31 86399 2)
          = some (Delivery.mk (.timeMark 10 99 12 31 86399 2) 0 .console (some .time) 20 none none)
      ∧ 0 + 1019 = (nudgedPast .holdover).osc ∧ namedInstant 99 12 31 86399 = 3155759999
      ∧ (nudgedPast .holdover).time.sec * 1024
          + ((nudgedPast .holdover).time.acc - 1019 * (1048576 + (nudgedPast .holdover).time.trim)) / 1048576 - 20
          - 1024 * 3155759999 = -16
      ∧ (nudgedPast .holdover).time.acc - (-16 : Int).tdiv 16 * 1048576 = 1073741824
      ∧ (nudgedPast .holdover).time.window.isNone = true := by decide +kernel
theorem witness_MarksBeyondStep :
    (∀ k ∈ [(-129 : Int), 129], (atTick k).retention.supply = true
        ∧ (atTick k).copyOf (.timeMark 10 0 1 1 1000 2) = none ∧ (atTick k).classIs 10 .time = true
        ∧ (atTick k).time.state ≠ .unset ∧ (atTick k).time.stepPending < 2
        ∧ (atTick k).time.sec * 1024 + (atTick k).time.acc / 1048576 - (atTick k).time.delay
            - 1024 * namedInstant 0 1 1 1000 = k)
      ∧ 2 ≤ ({ (atTick 129) with time.stepPending := 2 } : Part).time.stepPending := by decide +kernel
/-- The step clauses: a mark naming second 1799 crosses nothing, 1890 crosses a boundary exactly 90 s back and 1891 one
further back, and 3690 crosses several; 100 s back is short of 900 s, and 900 s back is not. -/
theorem witness_MarksBeyondStep_steps :
    (∀ n ∈ [(1799 : Int), 1890, 1891, 3690, 900, 100], namedInstant 0 1 1 n.toNat = n
        ∧ fieldsValid 0 1 1 n.toNat = true ∧ (atTick 0).copyOf (.timeMark 10 0 1 1 n.toNat 2) = none
        ∧ (1024 * (1000 - n) < -128 ∨ 128 < 1024 * (1000 - n)))
      ∧ (atTick 0).time.quarterMarker = some 900 ∧ (900 : Int) % 900 = 0
      ∧ 1024 * (1000 - (100 : Int)) = 921600 ∧ 1024 * (1000 - (900 : Int)) < 921600 := by decide +kernel
/-- A step forward within the civil date, one to another date, and one with the marker clear. -/
theorem witness_MarksBeyondStep_dates :
    (atTick 0).time.civilDate = some (civilDateAt 1799 (atTick 0).time.offsetNow)
      ∧ (atTick 0).time.civilDate ≠ some (civilDateAt 86400 (atTick 0).time.offsetNow)
      ∧ ({ (atTick 0) with time.quarterMarker := none } : Part).time.quarterMarker = none
      ∧ namedInstant 0 1 2 0 = 86400 := by decide +kernel
/-- LOCKED at second 1000 with a window of 256 s opened 256 s ago. -/
def windowed : Part :=
  { (atTick 0) with time.window := some { opened := 744, ticks := 262150 } }
theorem witness_WindowCloses :
    windowed.retention.supply = true ∧ windowed.copyOf (.timeMark 10 0 1 1 1000 2) = none
      ∧ windowed.classIs 10 .time = true ∧ fieldsValid 0 1 1 1000 = true
      ∧ windowed.time.state = .locked ∧ 0 < windowed.time.windowSize
      ∧ windowed.time.window = some { opened := 744, ticks := 262150 }
      ∧ windowed.time.windowSize ≤ 1000 - 744
      ∧ windowed.time.sec * 1024 + windowed.time.acc / 1048576 - windowed.time.delay
          - 1024 * namedInstant 0 1 1 1000 = 0 := by decide +kernel
theorem witness_WindowCloses_second :
    (∀ st ∈ [TimeState.acquiring, .locked],
        let p : Part := { (nudgedOver st) with time.window := some { opened := 744, ticks := 262150 } }
        p.time.state = st ∧ p.time.window = some { opened := 744, ticks := 262150 } ∧ p.time.windowSize ≤ 1000 - 744
          ∧ p.time.acc - (-21 : Int).tdiv 16 * 1048576 = 1073741824)
      ∧ (let p : Part := { (nudgedPast .locked) with time.window := some { opened := 3155759743, ticks := 263163 } }
         p.time.window = some { opened := 3155759743, ticks := 263163 } ∧ p.time.windowSize ≤ 3155759999 - 3155759743
          ∧ 3155759999 ≤ p.time.sec) := by decide +kernel
theorem witness_SetTimeSets :
    cold.hears 62 .service = true ∧ fieldsValid 99 2 29 0 = false ∧ fieldsValid 96 2 29 86399 = true
      ∧ cold.time.state = .unset ∧ locked.hears 62 .service = true ∧ locked.time.state = .locked
      ∧ ({ locked with time.state := .holdover } : Part).hears 62 .service = true := by decide +kernel
theorem witness_SetTimeSets_steps :
    (let p : Part := { locked with time.state := .holdover }
     p.time.quarterMarker = some 900 ∧ p.time.sec * 1024 + p.time.acc / 1048576 = 1024 * 1000)
      ∧ (∀ n ∈ [(1000 : Int), 1890, 1891], 1024 * 1000 ≤ 1024 * n ∧ namedInstant 0 1 1 n.toNat = n)
      ∧ (∀ n ∈ [(999 : Int), 100], 1024 * n < 1024 * 1000) := by decide +kernel
theorem witness_SetTimeSets_clauses :
    stoppedDials.BudgetSound ∧ stoppedDials.hears 62 .service = true ∧ stoppedDials.time.state = .unset
      ∧ (let p : Part := { locked with time := { locked.time with state := .holdover, quarterMarker := none } }
         p.hears 62 .service = true ∧ p.time.state = .holdover ∧ p.time.quarterMarker = none) :=
  ⟨stoppedDials_sound, by decide +kernel⟩
theorem witness_SeasonsWritten :
    twoSeasons.state ≠ .unset ∧ (twoSeasons.seasons.map Season.instant).Pairwise (· < ·)
      ∧ (∃ s ∈ twoSeasons.seasons, s.instant ≤ twoSeasons.sec
          ∧ ∀ x ∈ twoSeasons.seasons, x.instant ≤ twoSeasons.sec → x.instant ≤ s.instant)
      ∧ (∀ s ∈ locked.time.seasons, locked.time.sec < s.instant)
      ∧ cold.hears 62 .service = true ∧ 3155759999 < 3155760000 ∧ 3155759940 ≤ 3155759999 ∧ 3155759940 % 60 = 0
      ∧ ({ cold with time.seasons := [{ instant := 60, offset := 0 }] } : Part).hears 62 .service = true
      ∧ (∃ s ∈ [({ instant := 60, offset := 0 } : Season)], s.instant = 60)
      ∧ (∀ s ∈ cold.time.seasons, s.instant ≠ 60) ∧ cold.time.seasons.length < 16
      ∧ 16 ≤ (List.replicate 16 ({ instant := 60, offset := 0 } : Season)).length
      ∧ (840 : Int) % 15 = 0 ∧ (-720 : Int) % 15 = 0 ∧ (841 : Int) % 15 ≠ 0 := by decide +kernel
/-- Accepted writes: an entry between two others, the first of a list, the last, and a base offset that shifts the dials
and one that does not, while tower time is set and while UNSET. -/
theorem witness_SeasonsWritten_handed :
    ({ locked with time := twoSeasons } : Part).hears 62 .service = true
      ∧ twoSeasons.seasons = [Season.mk 960 60] ++ [Season.mk 1020 0]
      ∧ (∀ x ∈ [Season.mk 960 60], x.instant < 1000) ∧ (∀ x ∈ [Season.mk 1020 0].head?, 1000 < x.instant)
      ∧ ({ twoSeasons with baseOffset := 30, seasons := [] } : TimeScale).recomputed.currentOffset
          ≠ twoSeasons.currentOffset
      ∧ ({ twoSeasons with seasons := [] } : TimeScale).recomputed.currentOffset = twoSeasons.currentOffset
      ∧ cold.hears 62 .service = true ∧ cold.time.state = .unset
      ∧ ({ cold.time with baseOffset := 30 } : TimeScale).recomputed.currentOffset ≠ cold.time.currentOffset
      ∧ (cold.dial 1).target = none := by decide +kernel
/-- A RING_RELEASE of node 62 is in hand. -/
def heldPart : Part := { cold with mgmt.inHand := some { request := .ringRelease 62, cls := .service } }
theorem witness_RequestsHeard :
    isRequest (.resetPart 9) = true ∧ (withClass 9 .operator cold).hears (sourceOf (.resetPart 9)) .operator = true
      ∧ SourceClass.operator.rank < (leastOf (.resetPart 9)).rank
      ∧ cold.hears (sourceOf (.stopTune 9)) .noClass = true
      ∧ SourceClass.noClass.rank < (leastOf (.stopTune 9)).rank
      ∧ isRequest (.stopTune 62) = true ∧ cold.hears (sourceOf (.stopTune 62)) .service = true
      ∧ heldPart.retention.supply = true ∧ heldPart.busy = true
      ∧ heldPart.mgmt.inHand.all (fun h => h.request ≠ .stopTune 62) = true
      ∧ (let p : Part := { cold with mgmt.replyWaiting := some (replyTo 1 62 4 .ok []) }
         p.busy = true ∧ p.mgmt.replyWaiting.isSome = true) := by decide +kernel
/-- UP with 16 frames and else cold: a request below its class, one that is served, and one of the line status. -/
theorem witness_RequestsHeard_full :
    (let p : Part := { cold with line.upQ := List.replicate 16 (replyTo 1 62 4 .ok []) }
     16 ≤ p.line.upQ.length)
      ∧ cold.hears (sourceOf (.stopTune 9)) .noClass = true ∧ cold.hears (sourceOf (.stopTune 62)) .service = true
      ∧ SourceClass.noClass.rank < (leastOf (.stopTune 9)).rank
      ∧ isRequest (.readRecord 62 25 0 0) = true ∧ (∀ off, Instr.readRecord 62 25 0 off ≠ .readRecord 62 26 0 off)
      ∧ cold.mgmt.cursor = none := by
  refine ⟨by decide +kernel, by decide +kernel, by decide +kernel, by decide +kernel, by decide +kernel, ?_, rfl⟩
  exact fun off h => absurd h (by simp)
/-- A LOCKED part at the ends of the ranges: trim 500, d = 20, W = 1024, two marks beyond threshold. -/
def edge : Part :=
  { locked with time := { locked.time with
      trim := 500, delay := 20, windowSize := 1024, stepPending := 2, seasons := [{ instant := 1020, offset := 60 }] } }
theorem witness_StepKeepsTimeLegal :
    edge.time.Legal ∧ ∃ t, step { part := edge, pending := [.oscillatorTick] } = .next t := by
  refine ⟨?_, _, rfl⟩
  constructor
  case seasons => exact ⟨by decide +kernel, by unfold seasonsRise; decide +kernel⟩
  case instants => unfold legalOffset; decide +kernel
  case offsets => unfold legalOffset; decide +kernel
  all_goals decide +kernel
theorem witness_StepKeepsQueuesFit :
    cold.line.fits ∧ ∃ t, step { part := cold, pending := [.supplyFail] } = .next t := by
  refine ⟨?_, _, rfl⟩
  unfold LineSwitch.fits
  decide +kernel
/-- NORMAL and LOCKED with group 12 lit for 100 W, dial 1 running fast for 30 W and dial 2 waiting. -/
def sound : Part :=
  let p := withGroup 12 (fun x => { x with
    config := { x.config with node := some 30 }, target := 1000, commanded := 1000 })
    (withDial 1 (fun x => { x with state := .advancing }) (withDial 2 (fun x => { x with state := .waitingFeed }) locked))
  { p with budget := { p.budget with
      stage := .normal, waiting := [2]
      charges := [Charge.mk 0 (.dial 1) 30 0 none, Charge.mk 1 (.group 12) 100 0 none] } }
theorem witness_StepKeepsBudgetSound :
    sound.BudgetSound ∧ ∃ t, step { part := sound, pending := [.lampUpdate] } = .next t := by
  refine ⟨?_, _, rfl⟩
  constructor
  case groups => exact each12 (by decide +kernel)
  case dark => exact each12 (by decide +kernel)
  case priorities => exact each12 (by decide +kernel)
  case dials => exact each4 (by decide +kernel)
  case known =>
    intro c h g e
    have h : c = Charge.mk 0 (.dial 1) 30 0 none ∨ c = Charge.mk 1 (.group 12) 100 0 none := by
      simpa [sound] using h
    rcases h with rfl | rfl
    · simp at e
    · simp at e
      omega
  case lit =>
    intro c h g e
    have h : c = Charge.mk 0 (.dial 1) 30 0 none ∨ c = Charge.mk 1 (.group 12) 100 0 none := by
      simpa [sound] using h
    rcases h with rfl | rfl
    · simp at e
    · decide
  case stopped => exact fun h => absurd h (by decide +kernel)
  all_goals decide +kernel
/-- A session in a state with bell 16 at one stage, its claim held while the stage is not LEFT. -/
def ringing (st : SessionState) (k : BellStage) (h : HammerState) : Part :=
  let p := withBell 16 (fun x => { ready x with hammer := h, claims.ringers := decide (k ≠ .left) })
    (withBell 1 (fun x => { ready x with hammer := h, claims.ringers := true }) locked)
  { p with session := { p.session with
      state := st, requester := some 62
      bells := [SessionBell.mk 1 (if st = .preparing then .withdrawing else .held) false, SessionBell.mk 16 k false] } }
theorem witness_StepKeepsSessionSound :
    (ringing .preparing .withdrawing .withdrawing).SessionSound ∧ (ringing .closing .left .withdrawn).SessionSound
      ∧ ∃ t, step { part := ringing .closing .left .withdrawn, pending := [.settleTimeReached 1] } = .next t := by
  refine ⟨?_, ?_, _, rfl⟩ <;> constructor
  case refine_1.claims => exact each16 (by decide +kernel)
  case refine_2.claims => exact each16 (by decide +kernel)
  all_goals decide +kernel

/-! ## Witnesses: flights, resets, dials -/

/-- The STRIKE frame for a bell at node 20, of origin CLOCK and force 5. -/
def strikeFrame (b : Nat) : Frame := Frame.mk 20 1 21 [byte b, 5, 1]
def strikeFor (b : Nat) : Strike := Strike.mk b 0 (strikeFrame b)
/-- RUNNING, bell 1 ready, its recovery interval of 1200 ms just over at tick 1229, with a strike for it in LOCAL. -/
def striker : Part :=
  let p := withBell 1 (fun x => { ready x with lastTake := some 0 }) { cold with osc := 1229 }
  { p with line.localQ := [.strike (strikeFor 1)] }
theorem witness_OnlyGuardedFramesFly :
    striker.line.guarded
      ∧ cold.line.fieldFlight = none ∧ msTicks 1200 = 1229
      ∧ (after .fieldArbiterTake striker).line.fieldFlight = some (.strike (strikeFor 1))
      ∧ (after .fieldArbiterTake { striker with osc := 1228 }).line.fieldFlight = none := by
  refine ⟨⟨fun f h => ?_, fun f h => ?_⟩, by decide +kernel⟩
  · simp [show striker.line.passQ = [] by decide +kernel] at h
  · simp [show striker.line.fieldFlight = none by decide +kernel] at h
/-- The supply gone at the last second of the range but one, two seconds and a half of phase counted since. -/
def cutLate (sec : Int) : Part :=
  { lockedAt sec 2684354560 with retention := { supply := false, mark := true, cellHeld := true } }
theorem witness_WarmStart :
    ({ cold.retention with mark := false } : Retention).mark = false
      ∧ (cutLate 3155759997).retention.mark = true ∧ (cutLate 3155759997).retention.cellHeld = true
      ∧ (cutLate 3155759997).time.state ≠ .unset
      ∧ (cutLate 3155759997).time.sec + (cutLate 3155759997).time.acc / 1073741824 = 3155759999
      ∧ (after .consoleTransmitTake (after (.resetPart 62) cold)).retention.supply = true
      ∧ (after .consoleTransmitTake (after (.resetPart 62) cold)).line.consoleFlight
          = some (.resetReply { dest := 62, src := 1, kind := 71, payload := [41, 0] })
      ∧ cold.retention.mark = true ∧ cold.retention.cellHeld = true ∧ cold.time.state = .unset
      ∧ (cutLate 3155759998).retention.mark = true ∧ (cutLate 3155759998).retention.cellHeld = true
      ∧ 3155759999 < (cutLate 3155759998).time.sec + (cutLate 3155759998).time.acc / 1073741824 := by decide +kernel
/-- The power returns 90 s after a quarter boundary that passed meanwhile, or a tick later. -/
theorem witness_WarmStart_late :
    ∀ a ∈ [(0 : Int), 1048576], (lockedAt 899 (991 * 1073741824 + a)).retention.cellHeld = true
      ∧ (lockedAt 899 (991 * 1073741824 + a)).time.quarterMarker = some 0
      ∧ (lockedAt 899 (991 * 1073741824 + a)).time.sec
          + (lockedAt 899 (991 * 1073741824 + a)).time.acc / 1073741824 = 1890 := by decide +kernel
theorem witness_WarmStart_unmarked :
    (let p : Part := { lockedAt 1000 0 with time.quarterMarker := none }
     p.retention.mark = true ∧ p.retention.cellHeld = true ∧ p.time.state ≠ .unset
      ∧ p.time.sec + p.time.acc / 1073741824 ≤ 3155759999 ∧ p.time.quarterMarker = none) := by decide +kernel
/-- Dial 1 in a state at a position and with a target. -/
def dialAt (st : DialState) (i : Option Nat) (t : Nat) (p : Part) : Part :=
  withDial 1 (fun x => { x with state := st, indicated := i, target := some t }) p
/-- The DIAL_STEP frame of dial 1 in flight. -/
def stepFrame : Frame := { dest := 40, src := 1, kind := 23, payload := [1, 1] }
def stepInFlight (p : Part) : Part := { p with line.fieldFlight := some (.dialStep 1 stepFrame) }
theorem witness_DialDistances :
    ((dialAt .inStep (some 1439) 0 locked).dial 1).effective = some 1439
      ∧ ((dialAt .inStep (some 1439) 0 locked).dial 1).target = some 0
      ∧ 1439 < ((dialAt .inStep (some 1439) 0 locked).dial 1).positions
      ∧ ((dialAt .inStep (some 7) 7 locked).dial 1).effective = some 7 := by decide +kernel
theorem witness_FastInstantOffersStep :
    (cold.dial 1).state = .stopped ∧ ((dialAt .advancing (some 0) 9 locked).dial 1).state = .advancing
      ∧ ((dialAt .advancing (some 0) 9 locked).dial 1).outstanding = false
      ∧ ((dialAt .advancing (some 0) 9 locked).dial 1).lastOffer = none
      ∧ (dialAt .advancing (some 0) 9 locked).line.localQ.length < 24
      ∧ 61440 / ((dialAt .advancing (some 0) 9 locked).dial 1).config.fastRate = 3072 := by decide +kernel
theorem witness_DialStepCompletes :
    (∀ st ∈ [DialState.stopped, .fault, .unknown],
      (stepInFlight (dialAt st none 9 locked)).retention.supply = true
        ∧ (stepInFlight (dialAt st none 9 locked)).line.fieldFlight = some (.dialStep 1 stepFrame)
        ∧ ((stepInFlight (dialAt st none 9 locked)).dial 1).state = st
        ∧ ((stepInFlight (dialAt st none 9 locked)).dial 1).homeWatch.any (fun k => 0 < k) ≠ true
        ∧ ((stepInFlight (dialAt st none 9 locked)).dial 1).searchCount + 1
            < ((stepInFlight (dialAt st none 9 locked)).dial 1).positions)
      ∧ (∀ m ∈ [1, 2],
          let p := withDial 1 (fun x => { x with searchCount := 1439, misses := m })
            (stepInFlight (dialAt .unknown none 9 locked))
          (p.dial 1).positions ≤ (p.dial 1).searchCount + 1 ∧ (p.dial 1).misses = m ∧ p.budget.waiting.Nodup)
      ∧ (∀ st ∈ [DialState.inStep, .advancing, .unknown],
          let p := withDial 1 (fun x => { x with homeWatch := some 1, misses := 2 })
            (stepInFlight (dialAt st (some 5) 9 locked))
          (p.dial 1).homeWatch.any (fun k => 0 < k) = true ∧ 2 ≤ (p.dial 1).misses ∧ (p.dial 1).state = st) := by
  decide +kernel
/-- Dial 1 with an open home watch and a number of misses, its step in flight. -/
def watched (st : DialState) (misses : Nat) : Part :=
  withDial 1 (fun x => { x with homeWatch := some 1, misses := misses }) (stepInFlight (dialAt st (some 5) 9 locked))
theorem witness_DialStepCompletes_watch :
    ∀ st ∈ [DialState.inStep, .advancing, .waitingFeed, .holding], ∀ m ∈ [0, 1],
      ((watched st m).dial 1).homeWatch.any (fun k => 0 < k) = true ∧ ((watched st m).dial 1).misses = m ∧ m + 1 ≤ 2
        ∧ (watched st m).line.fieldFlight = some (.dialStep 1 stepFrame) ∧ ((watched st m).dial 1).state = st
        ∧ ((watched st m).dial 1).target = some 9 ∧ ((watched st m).dial 1).indicated = some 5
        ∧ (watched st m).budget.waiting.Nodup := by decide +kernel
/-- A dial whose step completes at the distances that DialEvaluation tells apart: behind 0, 1, 2 (ahead 1438) and
1080 (ahead 360, the hold limit). -/
def evaluated (st : DialState) (behind : Nat) : Part :=
  stepInFlight (dialAt st (some 1439) behind locked)
theorem witness_DialEvaluation :
    (∀ st ∈ [DialState.inStep, .advancing, .waitingFeed, .holding], ∀ k ∈ [0, 1, 2, 1079, 1080],
      (evaluated st k).retention.supply = true
        ∧ (evaluated st k).line.fieldFlight = some (.dialStep 1 stepFrame) ∧ ((evaluated st k).dial 1).state = st
        ∧ ((evaluated st k).dial 1).homeWatch = none ∧ ((evaluated st k).dial 1).indicated = some 1439
        ∧ ((evaluated st k).dial 1).target = some k ∧ k < ((evaluated st k).dial 1).positions
        ∧ 1 ∉ (evaluated st k).budget.waiting ∧ (evaluated st k).budget.waiting.Nodup
        ∧ (1439 + 1) % 1440 = 0
        ∧ (evaluated st k).budget.dialHolds 1 = false
        ∧ (evaluated st k).budget.decide ((evaluated st k).dial 1).config.driveCharge = .grant)
      ∧ (1440 - 1080) ≤ ((evaluated .inStep 1080).dial 1).config.holdLimit
      ∧ ((evaluated .inStep 1079).dial 1).config.holdLimit < 1440 - 1079
      ∧ ({ (evaluated .inStep 2) with budget.charges :=
            [{ id := 0, holder := .dial 2, amount := 1200, grantedAt := 0, releaseAt := none }] } : Part).budget.decide
          30 = .refuse := by decide +kernel
/-- A home report of node 40, channel 4, received when the dial `m` or none had them, waits to be taken. -/
def waitingHome (m : Option Nat) (p : Part) : Part :=
  { p with line.delivered := [Delivery.mk (.dialHome 40 4) 3 .field none 0 none m] }
theorem witness_homeFrom :
    cold.homeFrom 40 5 none ∧ cold.homeFrom 40 4 (some 4)
      ∧ (waitingHome none locked).homeFrom 40 4 none ∧ (waitingHome (some 1) locked).homeFrom 40 4 (some 1) := by
  refine ⟨.inl ⟨rfl, each4 (by decide +kernel)⟩, .inl ⟨rfl, ?_⟩, .inr ⟨_, rfl, rfl⟩, .inr ⟨_, rfl, rfl⟩⟩
  refine ⟨by decide, by decide, by decide +kernel, by decide +kernel, fun e h1 h2 => ?_⟩
  have h : ∀ e : Fin 5, 1 ≤ e.val → e.val < 4 → (cold.dial e.val).config.channel ≠ 4 := by decide +kernel
  exact fun hh => h ⟨e, by omega⟩ h1 h2 hh.2
theorem witness_HomeReport :
    locked.retention.supply = true ∧ (waitingHome none locked).retention.supply = true
      ∧ (∀ i ∈ [0, 1, 1439], ((dialAt .inStep (some i) 0 locked).dial 1).indicated = some i)
      ∧ ((dialAt .stopped none 0 locked).dial 1).indicated = none
      ∧ ((dialAt .unknown none 0 locked).dial 1).state = .unknown := by decide +kernel
/-- The evaluations: a driven dial that slipped, one that searches with its charge, and one that waits for it. -/
theorem witness_HomeReport_evaluated :
    (∀ st ∈ [DialState.inStep, .advancing, .waitingFeed, .holding],
        ((waitingHome (some 1) (dialAt st (some 1) 1 locked)).dial 1).state = st
          ∧ (waitingHome (some 1) (dialAt st (some 1) 1 locked)).budget.waiting.count 1 ≤ 1)
      ∧ (let p : Part := { waitingHome (some 1) (dialAt .unknown none 1 locked) with
          budget.charges := [Charge.mk 0 (.dial 1) 200 0 none] }
         p.budget.dialHolds 1 = true ∧ (p.dial 1).indicated = none ∧ (p.dial 1).state = .unknown
          ∧ p.budget.waiting.count 1 = 0)
      ∧ (let p : Part := { waitingHome (some 1) (dialAt .unknown none 0 locked) with budget.waiting := [1] }
         p.budget.dialHolds 1 = false ∧ (p.dial 1).target = some 0 ∧ p.budget.waiting.count 1 = 1
          ∧ 0 < (p.dial 1).positions) := by decide +kernel
theorem witness_SetDialSets :
    cold.hears 62 .service = true ∧ 1439 < (cold.dial 4).positions ∧ (cold.dial 4).positions ≤ 1440
      ∧ cold.time.state = .unset ∧ locked.hears 62 .service = true ∧ locked.time.state ≠ .unset := by decide +kernel

theorem witness_SetDialSets_evaluated :
    (locked.budget.waiting.count 4 = 0 ∧ ({ locked with budget.waiting := [4] } : Part).budget.waiting.count 4 = 1)
      ∧ ({ dialAt .waitingFeed (some 0) 9 locked with budget.waiting := [1] } : Part).hears 62 .service = true
      ∧ ((dialAt .waitingFeed (some 0) 9 locked).dial 1).target = some 9
      ∧ 9 < ((dialAt .waitingFeed (some 0) 9 locked).dial 1).positions := by decide +kernel

/-! ## Witnesses: bells -/

/-- Bell 16 ready, at tick t, changed further. -/
def bell16 (t : Nat) (f : Bell → Bell) : Part := withBell 16 (fun x => f (ready x)) { locked with osc := t }
theorem witness_BellReport :
    ((bell16 0 id).bell 16).config.cls = .swing ∧ ((bell16 0 id).bell 16).config.sensorNode = some 21
      ∧ ((bell16 0 id).bell 16).position = .down ∧ (cold.bell 16).position ≠ .down
      ∧ (cold.bell 16).config.sensorNode ≠ some 21
      ∧ ((bell16 0 (fun x => { x with claims.ringers := true })).bell 16).claims.ringers = true
      ∧ ((bell16 0 (fun x => { x with intruded := true, hammer := .withdrawing })).bell 16).intruded = true
      ∧ ((bell16 0 (fun x => { x with intruded := true })).bell 16).claims.ringers = false
      ∧ ((bell16 0 (fun x => { x with intruded := true })).bell 16).config.hammerNode ≠ none
      ∧ ((bell16 0 id).bell 16).intruded = false ∧ ((bell16 0 id).bell 16).hammer = .engaged := by decide +kernel
/-- A bell that has been DOWN since tick 0, its settle interval of 60 s just over. -/
def settling (x : Bell) : Bell := { x with settled := false, hammer := .withdrawn }
/-- A session that closes, bell 16 still held. -/
def closing (p : Part) : Part :=
  { p with session := { p.session with
      state := .closing, bells := [SessionBell.mk 16 .held false], requester := some 62 } }
theorem witness_BellTimers :
    msTicks 60000 = 61440
      ∧ (∀ t ∈ [61439, 61440],
          ((bell16 t settling).bell 16).config.cls = .swing ∧ ((bell16 t settling).bell 16).position = .down
            ∧ ((bell16 t settling).bell 16).settled = false ∧ ((bell16 t settling).bell 16).downBegan = some 0
            ∧ ((bell16 t settling).bell 16).config.settle * 1024 = 61440
            ∧ ((bell16 t settling).bell 16).hammer = .withdrawn ∧ ((bell16 t settling).bell 16).wanted = none
            ∧ (bell16 t settling).mgmt.partState = .running ∧ (bell16 t settling).session.state ≠ .closing
            ∧ ((bell16 t settling).bell 16).claims.ringers = false)
      ∧ (closing (bell16 61440 settling)).session.state = .closing
      ∧ (∃ y ∈ (closing (bell16 61440 settling)).session.bells, y.bell = 16 ∧ y.stage = .held)
      ∧ (∀ y ∈ (closing (bell16 61440 settling)).session.bells, y.bell = 16 ∨ y.stage = .left)
      ∧ ¬ (∃ y ∈ (closing (bell16 61440 settling)).session.bells, y.bell = 1 ∧ y.stage = .held)
      ∧ (∃ y ∈ (ringing .closing .held .withdrawn).session.bells, y.bell ≠ 16 ∧ y.stage ≠ .left)
      ∧ (cold.bell 1).sensorFrom = none
      ∧ (∀ t ∈ [30719, 30720], ((bell16 t (fun x => { x with sensorFrom := some 0 })).bell 16).sensorFrom = some 0)
      ∧ (bell16 30720 id).bellGuard.sensorTimeout * 1024 = 30720
      ∧ (bell16 30720 id).line.upQ.length < 14 := by decide +kernel
theorem witness_HammerReport :
    (∀ b, 1 ≤ b → b ≤ 16 →
        ¬ ((cold.bell b).config.hammerNode = some 20 ∧ (cold.bell b).config.hammerChannel = 16))
      ∧ ((bell16 0 id).bell 16).config.hammerNode = some 20 ∧ ((bell16 0 id).bell 16).config.hammerChannel = 16
      ∧ (∀ c : Fin 17, 1 ≤ c.val → c.val < 16 → ((bell16 0 id).bell c.val).config.hammerNode = none)
      ∧ ((bell16 0 id).bell 16).claims.ringers = false ∧ ((bell16 0 id).bell 16).wanted = none
      ∧ ((bell16 0 id).bell 16).settled = true ∧ (bell16 0 id).mgmt.partState = .running
      ∧ (safe (bell16 0 id)).mgmt.partState = .safe
      ∧ ((bell16 0 (fun x => { x with claims.ringers := true, hammer := .withdrawn })).bell 16).hammer = .withdrawn
      ∧ (bell16 0 id).session.state = .idle
      ∧ (ringing .preparing .withdrawing .withdrawing).session.state = .preparing
      ∧ ((ringing .preparing .withdrawing .withdrawing).bell 16).hammer ≠ .withdrawn
      ∧ (∃ k ∈ (ringing .preparing .withdrawing .withdrawing).session.bells.map
          (fun (k : SessionBell) => if k.bell = 16 then { k with stage := .held } else k), k.stage ≠ .held)
      ∧ (∀ k ∈ (ringing .preparing .held .withdrawing).session.bells.map
          (fun (k : SessionBell) => if k.bell = 1 then { k with stage := .held } else k), k.stage = .held)
      ∧ (ringing .opened .held .withdrawn).session.state = .opened := by
  refine ⟨each16 (by decide +kernel), ?_⟩
  decide +kernel
theorem witness_HammerJams :
    (∀ t ∈ [5119, 5120],
        ((bell16 t (fun x => { x with hammerTimer := some 5120 })).bell 16).hammerTimer = some 5120)
      ∧ ((bell16 0 id).bell 16).config.hammerNode = some 20 ∧ ((bell16 0 id).bell 16).hammerTimer = none
      ∧ 16 ∉ (bell16 0 id).session.set ∧ 16 ∈ (ringing .preparing .withdrawing .withdrawing).session.set
      ∧ 16 ∈ (ringing .opened .held .withdrawn).session.set
      ∧ (ringing .preparing .withdrawing .withdrawing).line.upQ.length < 12
      ∧ (∀ a : Fin 17, 1 ≤ a.val → a.val < 16 → ((bell16 0 id).bell a.val).config.hammerNode ≠ some 20) := by
  decide +kernel
theorem witness_ConsoleClaims :
    (withClass 1 .console cold).hears 1 .console = true ∧ SourceClass.console.rank ≠ 0
      ∧ (∃ b ∈ [17], b = 0 ∨ 16 < b) ∧ (∀ b ∈ [1, 16], 1 ≤ b ∧ b ≤ 16)
      ∧ (safe (withClass 1 .console cold)).hears 1 .console = true
      ∧ (∀ t ∈ [122879, 122880],
          ((bell16 t (fun x => { x with claims.console := some 1, consoleIdle := some 122880 })).bell 16).consoleIdle
            = some 122880) := by decide +kernel
/-- Bell 16 ready, RUNNING, with a CLOCK claim. -/
def owned (t : Nat) : Part := bell16 t (fun x => { x with claims.clock := true, lastTake := some 0 })
theorem witness_AdmissionAnswers :
    (owned 0).claimActive 16 .clock = true ∧ cold.claimActive 1 .clock = false
      ∧ (bell16 0 (fun x => { x with claims := Claims.mk true none true true, hammer := .withdrawn })).claimActive 16
          .ringers = true
      ∧ (owned 1229).mgmt.partState = .running ∧ (owned 1229).owner 16 = some Origin.clock.claim
      ∧ ((owned 1229).bell 16).config.permits.allows .clock = true ∧ ((owned 1229).bell 16).position = .down
      ∧ ((owned 1229).bell 16).hammer = .engaged ∧ 0 + msTicks ((owned 1229).bell 16).config.recovery = 1229
      ∧ (owned 1228).admission 16 .clock = .recovery ∧ (owned 1229).admission 16 .clock = .admitted
      ∧ (owned 1229).budget.decide 50 = .grant
      ∧ ({ (owned 1229).budget with stage := .low, limits := { LimitTable.cold with low := 0 } } : FeedBudget).decide 50
          = .refuse := by decide +kernel

/-! ## Witnesses: the tower line -/

/-- A frame with every field at the end of its range. -/
def longFrame : Frame := Frame.mk 62 62 255 (List.replicate 32 0xAA)
/-- The receivers are past their idle gaps. -/
def listening : Part := { locked with line.consoleWaits := false, line.fieldWaits := false }
theorem witness_ReceptionsJudged :
    judge longFrame.bytes = .frame longFrame ∧ longFrame.bytes.length = 38
      ∧ judge (Frame.mk 63 62 255 []).bytes = .address ∧ judge (Frame.mk 62 0 255 []).bytes = .address
      ∧ judge (longFrame.bytes ++ [0]) = .long ∧ judge (longFrame.bytes.take 37) = .short
      ∧ cold.portWaits .console = true ∧ listening.portWaits .console = false ∧ listening.portWaits .field = false
      ∧ ([1, 2, 3] : List Byte).length < 4 ∧ 32 < (33 : Byte).toNat ∧ (32 : Byte).toNat ≤ 32
      ∧ ([1, 2, 3, 0, 9] : List Byte).length < 0 + 6 ∧ 0 + 6 < ([1, 2, 3, 0, 9, 9, 9] : List Byte).length
      ∧ ([9, 9] : List Byte) ≠ checkBytes (crc16 [1, 2, 3, 0])
      ∧ (Frame.mk 63 62 1 []).bytes.length = 0 + 6
      ∧ (Frame.mk 63 62 1 []).bytes.drop 4 = checkBytes (crc16 ((Frame.mk 63 62 1 []).bytes.take 4)) := by
  decide +kernel
/-- The route table with its last entry given. -/
def routed (m : RouteEntry) : Part :=
  { listening with line.routes := bankPut listening.line.routes 31 (stored routeBytes m) }
/-- A BELL_STATE frame of node 21. -/
def bellFrame : Frame := Frame.mk 0 21 41 [16, 1]
theorem witness_FramesRouted :
    (∀ n, n < 32 → checkHolds routeBytes (listening.route n) = true)
      ∧ bellFrame.sound ∧ longFrame.sound ∧ bellFrame.spells (.bellState 21 16 .down)
      ∧ (Frame.mk 0 10 61 [0, 1, 1, 0, 0, 0, 2]).spells (.timeMark 10 0 1 1 0 2)
      ∧ (Frame.mk 0 21 41 [16, 1, 1]).hasConsumer ∧ (∀ i, ¬ (Frame.mk 0 21 41 [16, 1, 1]).spells i)
      ∧ ¬ longFrame.hasConsumer
      ∧ listening.line.failedRoutes = [] ∧ listening.retention.supply = true
      ∧ listening.portWaits .console = false ∧ listening.portWaits .field = false
      ∧ listening.classIs 10 .noClass = true
      ∧ listening.routeOf .field bellFrame = .tap ∧ bellFrame.kind ≠ 70
      ∧ listening.routeOf .field (Frame.mk 5 21 99 []) = .forward
      ∧ listening.routeOf .console (Frame.mk 5 21 99 []) = .forward
      ∧ listening.routeOf .console (Frame.mk 0 10 61 [0, 1, 1, 0, 0, 0, 2]) = .toPart
      ∧ listening.routeOf .console (Frame.mk 20 10 22 [1, 1]) = .bellCheck
      ∧ listening.routeOf .console (strikeFrame 1) = .bellCheck
      ∧ (routed (coldRoute .console 99 .drop)).routeOf .console (Frame.mk 5 21 99 []) = .drop
      ∧ (routed (coldRoute .field 99 .drop)).routeOf .field (Frame.mk 5 21 99 []) = .drop := by
  refine ⟨each32 (by decide +kernel), by unfold Frame.sound; decide +kernel, by unfold Frame.sound; decide +kernel,
    .inl ⟨16, .down, rfl, rfl, rfl⟩, .inr (.inr (.inr (.inr (.inr ⟨0, 1, 1, 0, 0, 0, 2, rfl, rfl, rfl⟩)))),
    by unfold Frame.hasConsumer; decide, fun i h => ?_, by unfold Frame.hasConsumer; decide, ?_⟩
  · simp [Frame.spells] at h
  · decide +kernel
/-- An MGMT_REQUEST of node 62 to the part. -/
def asking (bs : List Byte) : Frame := Frame.mk 1 62 70 bs
theorem witness_RequestsDelivered :
    (asking [31]).sound ∧ (asking [31]).asks (.stopTune 62) ∧ (∀ i, ¬ (asking [31, 0]).asks i)
      ∧ listening.retention.supply = true ∧ listening.portWaits .console = false
      ∧ listening.portWaits .field = false ∧ (asking [31]).dest = listening.mgmt.address
      ∧ listening.hears 62 .service = true ∧ listening.hears 5 .noClass = true
      ∧ ({ listening with mgmt.inHand := heldPart.mgmt.inHand } : Part).busy = true
      ∧ (Frame.mk 2 62 70 [31]).dest ≠ listening.mgmt.address
      ∧ listening.routeOf .console (Frame.mk 2 62 70 [31]) = .forward
      ∧ (routed (coldRoute .console 70 .drop)).routeOf .console (Frame.mk 2 62 70 [31]) = .drop
      ∧ (routed (coldRoute .console 70 .toPart)).routeOf .console (Frame.mk 2 62 70 [31]) = .toPart
      ∧ (∀ n, n < 32 → checkHolds routeBytes ((routed (coldRoute .console 70 .drop)).route n) = true) := by
  refine ⟨by unfold Frame.sound; decide +kernel, ?_, fun i h => ?_, ?_⟩
  · simp [Frame.asks, asking]
  · simp [Frame.asks, asking] at h
  · iterate 11 refine ⟨by decide +kernel, ?_⟩
    exact each32 (by decide +kernel)
/-- A setting of bell 16 at the front of SAFETY. -/
def settingFor (a : HammerAction) : Setting := Setting.mk 16 a (Frame.mk 20 1 22 [16, byte a.code])
def withSafety (a : HammerAction) (p : Part) : Part := { p with line.safetyQ := [settingFor a] }
def levelFrame : Frame := Frame.mk 30 1 24 [1, 1, 244]
theorem witness_ArbiterOrder :
    cold.line.fieldFlight = none ∧ cold.line.safetyQ = [] ∧ cold.line.localQ = [] ∧ cold.line.passQ = []
      ∧ (withSafety .engage (bell16 0 id)).line.safetyQ = [settingFor .engage]
      ∧ (withSafety .engage (bell16 0 id)).engageable 16 = true
      ∧ (withSafety .engage (safe (bell16 0 id))).engageable 16 = false
      ∧ (∀ b : Fin 17, 1 ≤ b.val → b.val ≠ 16 → ((withSafety .engage (safe (bell16 0 id))).bell b.val).wanted = none)
      ∧ ((safe (bell16 0 id)).bell 16).claims.ringers = false
      ∧ striker.line.localQ = [.strike (strikeFor 1)] ∧ striker.strikable 1 = true
      ∧ (striker.bell 1).lastTake = some 0 ∧ 0 + msTicks (striker.bell 1).config.recovery = 1229 ∧ striker.osc = 1229
      ∧ (∀ g : Fin 13, 1 ≤ g.val → (striker.group g.val).deferred = false)
      ∧ striker.clock.voice.held = [] ∧ striker.tune.voice.held = [] ∧ striker.line.localRun ≠ 4
      ∧ ({ striker with line.passQ := [.plain levelFrame], line.localRun := 4 } : Part).line.localRun = 4
      ∧ ({ cold with clock.voice.held := [HeldStrike.mk (strikeFor 1) 9] } : Part).clock.voice.held
          = [HeldStrike.mk (strikeFor 1) 9]
      ∧ ({ striker with osc := 1228 } : Part).osc < 0 + msTicks (striker.bell 1).config.recovery
      ∧ (safe striker).strikable 1 = false ∧ striker.budget.waiting = [] ∧ striker.line.passQ = []
      ∧ (let p : Part := { striker with line.localQ := [], line.passQ := [.strike (strikeFor 1), .plain levelFrame] }
         p.line.localQ = [] ∧ p.line.passQ = .strike (strikeFor 1) :: [.plain levelFrame] ∧ p.strikable 1 = true)
      := by decide +kernel
theorem witness_FieldCompletions :
    cold.line.fieldFlight = none
      ∧ ({ bell16 0 (fun x => { x with hammer := .engaging }) with
            line.fieldFlight := some (.setting (settingFor .engage)) } : Part).line.fieldFlight
          = some (.setting (settingFor .engage))
      ∧ (after .fieldArbiterTake { cold with line.passQ := [.plain bellFrame] }).line.fieldFlight
          = some (.plain bellFrame)
      ∧ (after .fieldArbiterTake { cold with line.localQ := [.lampLevel (some 12) 500 levelFrame] }).line.fieldFlight
          = some (.lampLevel (some 12) 500 levelFrame)
      ∧ (after .fieldArbiterTake { cold with line.localQ := [.lampLevel none 0 levelFrame] }).line.fieldFlight
          = some (.lampLevel none 0 levelFrame)
      ∧ (settingFor .engage).bell = 16
      ∧ ((bell16 0 (fun x => { x with hammer := .engaging })).bell 16).hammer = .engaging := by decide +kernel
theorem witness_ConsolePort :
    cold.line.consoleFlight = none ∧ cold.line.upQ = [] ∧ cold.mgmt.replyWaiting = none
      ∧ ((after .oscillatorTick (cold.answered 62 4 .ok [])).line.upQ = [replyTo 1 62 4 .ok []])
      ∧ ({ cold with mgmt.replyWaiting := some (replyTo 1 62 4 .ok []) } : Part).mgmt.replyWaiting
          = some (replyTo 1 62 4 .ok [])
      ∧ (after .consoleTransmitTake (cold.answered 62 4 .ok [])).line.consoleFlight
          = some (.reply { dest := 62, src := 1, kind := 71, payload := [4, 0] }) := by decide +kernel
/-- The part with its fault record RAISED. -/
def faulted (p : Part) : Part := { p with mgmt.faults := some (FaultRecord.mk .intrusion [1, 2] none 0) }
/-- SAFETY filled by the settings of bells 1 to 8. -/
def crowded (p : Part) : Part :=
  { p with line.safetyQ := (List.range' 1 8).map (fun b => Setting.mk b .engage (Frame.mk 20 1 22 [byte b, 1])) }
theorem witness_settings_decided :
    (let p := bell16 0 (fun x => { x with intruded := true })
     p.safetyAfter [(16, .withdraw)] = [settingFor .withdraw] ∧ p.drawnAtFault 16 = []
      ∧ (withSafety .engage p).safetyAfter [(16, .withdraw)] = [settingFor .withdraw]
      ∧ (crowded p).line.safetyQ.length = 8 ∧ (crowded p).safetyAfter [(16, .withdraw)] = (crowded p).line.safetyQ
      ∧ (faulted p).drawnAtFault 16 = [(16, .withdraw)]
      ∧ (faulted p).mgmt.partState = .running ∧ (safe (faulted p)).drawnAtFault 16 = [])
      ∧ (let p := bell16 61440 (fun x => { settling x with settled := true })
         p.engagedOf [1, 16] = [(16, .engage)] ∧ p.safetyAfter (p.engagedOf [1, 16]) = [settingFor .engage])
      ∧ (after (.settleTimeReached 16) (bell16 61440 settling)).line.safetyQ = [settingFor .engage]
      ∧ ((bell16 0 (fun x => { x with claims.ringers := true })).bell 16).hammer ≠ .withdrawn
      ∧ (bell16 0 (fun x => { x with claims.ringers := true })).session.state = .idle
      ∧ (ringing .preparing .held .withdrawn).session.state = .preparing
      ∧ (ringing .preparing .held .withdrawn).mgmt.faults = none
      ∧ (ringing .preparing .held .withdrawn).mgmt.partState = .running
      ∧ 16 ∉ (bell16 0 id).session.set := by decide +kernel
/-- Both voices sound, each with a strike held and charged. -/
def sounding (p : Part) : Part :=
  { p with
    clock := { p.clock with
      state := .striking, quarter := some (4, 3), blows := some 2, nextBlow := some 100
      voice := { p.clock.voice with claimed := [1], held := [HeldStrike.mk (strikeFor 1) 9] } }
    tune := { p.tune with
      state := .playing, inHand := some (5, 1)
      voice := { p.tune.voice with claimed := [2], held := [HeldStrike.mk (Strike.mk 2 8 (strikeFrame 2)) 9] } }
    budget := { p.budget with
      charges := [Charge.mk 0 (.strike 1 .clock) 50 0 none, Charge.mk 8 (.strike 2 .tune) 50 0 none], nextId := 9 } }
/-- A MAJOR fault enters SAFE, or does not, while the voices sound or are IDLE, at an intrusion, an unexpected hammer and
a jam. -/
theorem witness_faults_raised :
    (∀ p ∈ [faulted (bell16 0 id), sounding (faulted (bell16 0 id))], p.entering = true ∧ p.budget.waiting = [])
      ∧ (∀ p ∈ [bell16 0 id, sounding (bell16 0 id), safe (sounding (faulted (bell16 0 id)))], p.entering = false)
      ∧ (sounding (bell16 0 id)).tune.state ≠ .idle ∧ (sounding (bell16 0 id)).clock.state ≠ .idle
      ∧ (after (.bellState 21 16 .moving) (sounding (faulted (bell16 0 id)))).tune.state = .idle
      ∧ (after (.bellState 21 16 .moving) (sounding (faulted (bell16 0 id)))).budget.charges = []
      ∧ (after (.bellState 21 16 .moving) (sounding (faulted (bell16 0 id)))).cal.events
          = [.tuneEnd 5 .safe, .faultMajor]
      ∧ (after (.hammerReport 20 16 .jammed) (bell16 0 id)).cal.events = [.faultMajor]
      ∧ (after (.hammerReport 20 16 .engaged)
          (faulted (bell16 0 (fun x => { x with claims.ringers := true, hammer := .withdrawn })))).mgmt.partState = .safe
      := by decide +kernel
theorem witness_ConsoleClaims_busy :
    (let p := { bell16 122880 (fun x => { x with claims.console := some 1, consoleIdle := some 122880 }) with
       mgmt := heldPart.mgmt }
     p.retention.supply = true ∧ p.free = false ∧ (p.bell 16).consoleIdle = some 122880 ∧ 122880 ≤ p.osc)
      ∧ (cold.bell 1).consoleIdle = none := by decide +kernel
/-- No room at all in the Feed Budget. -/
def starved (p : Part) : Part :=
  { p with budget := { p.budget with limits := { p.budget.limits with normal := 0, reduced := 0, low := 0 } } }
/-- Bell 16 ready under the claim of console node 10, the receivers past their gaps, m plain frames in PASS. -/
def played (m : Nat) : Part :=
  { bell16 0 (fun x => { x with claims.console := some 10, config.permits.console := true }) with
    line := { listening.line with passQ := List.replicate m (.plain levelFrame) } }
def consoleStrike (channel force origin : Nat) : Frame := Frame.mk 20 10 21 [byte channel, byte force, byte origin]
theorem witness_FramesRouted_strikes :
    (∀ f ∈ [(1 : Nat), 7], (consoleStrike 16 f 3).kind = 21 ∧ 1 ≤ f ∧ f ≤ 7)
      ∧ (played 0).routeOf .console (consoleStrike 16 7 3) = .bellCheck
      ∧ (played 0).portWaits .console = false ∧ (played 0).retention.supply = true
      ∧ ((played 0).bell 16).config.hammerNode = some (consoleStrike 16 7 3).dest
      ∧ ((played 0).bell 16).config.hammerChannel = 16
      ∧ (∀ a : Fin 17, 1 ≤ a.val → a.val < 16 → ((played 0).bell a.val).config.hammerNode = none)
      ∧ (played 0).admission 16 .console = .admitted ∧ (safe (played 0)).admission 16 .console ≠ .admitted
      ∧ (played 0).budget.decide ((played 0).bell 16).config.charge = .grant
      ∧ (starved (played 0)).budget.decide ((played 0).bell 16).config.charge = .refuse
      ∧ (starved (played 0)).admission 16 .console = .admitted
      ∧ (played 15).line.passQ.length < 16 ∧ 16 ≤ (played 16).line.passQ.length
      ∧ (after (.frameReceived .console (consoleStrike 16 7 3).bytes) (played 0)).line.passQ
          = [.strike { bell := 16, charge := (played 0).budget.nextId, frame := consoleStrike 16 7 3 }]
      ∧ (∀ x ∈ [(0 : Nat), 8], x = 0 ∨ 7 < x) ∧ (2 : Nat) ≠ 3
      ∧ ¬ (((played 0).bell 16).config.hammerNode = some 20 ∧ ((played 0).bell 16).config.hammerChannel = 15) := by
  decide +kernel
/-- A dial's step at the front of LOCAL, group 12 deferred behind it. -/
def behind (more : List LocalItem) : Part :=
  withGroup 12 (fun x => { x with config := { x.config with node := some 30 }, commanded := 500, deferred := true })
    { locked with line.localQ := .dialStep 1 stepFrame :: more }
theorem witness_ArbiterOrder_deferred :
    (behind []).line.fieldFlight = none ∧ (behind []).line.safetyQ = [] ∧ (behind []).line.passQ = []
      ∧ (behind []).line.localQ = [.dialStep 1 stepFrame] ∧ (behind []).clock.voice.held = []
      ∧ (behind []).tune.voice.held = [] ∧ ((behind []).group 12).deferred = true
      ∧ (∀ a : Fin 13, 1 ≤ a.val → a.val < 12 → ((behind []).group a.val).deferred = false)
      ∧ (let q := after .fieldArbiterTake (behind (List.replicate 23 (.dialStep 1 stepFrame)))
         q.line.localQ.length = 24 ∧ (q.group 12).queued = some 500 ∧ (q.group 12).deferred = false) := by
  decide +kernel

/-! ## Witnesses: sessions and voices -/

/-- Node 1 is a CONSOLE source, bells 1 and 16 ready. -/
def console (p : Part) : Part := withClass 1 .console p
def pair (f : Bell → Bell) : Part := console (withBell 1 (fun x => f (ready x)) (bell16 0 f))
theorem witness_RingRequest :
    (pair id).hears 1 .console = true ∧ SourceClass.console.rank ≠ 0 ∧ (safe (pair id)).hears 1 .console = true
      ∧ (closing (pair id)).session.state ≠ .idle ∧ (closing (pair id)).hears 1 .console = true
      ∧ (pair id).mgmt.partState = .running ∧ (pair id).session.state = .idle ∧ (∃ b ∈ [1, 17], b = 0 ∨ 16 < b)
      ∧ (∀ b ∈ [1, 16], (1 ≤ b ∧ b ≤ 16) ∧ ((pair id).bell b).config.cls = .swing
          ∧ ((pair id).bell b).config.sensorNode ≠ none ∧ ((pair id).bell b).hammer ≠ .jammed
          ∧ ((pair id).bell b).hammer ≠ .withdrawn
          ∧ ((pair (fun x => { x with hammer := .withdrawn })).bell b).hammer = .withdrawn)
      ∧ ((pair id).bell 2).config.sensorNode = none
      ∧ ((pair (fun x => { x with hammer := .jammed })).bell 16).hammer = .jammed
      ∧ (pair id).line.upQ.length < 13 := by decide +kernel
/-- An OPEN session of bells 1 and 16, node 1 its requester. -/
def opened (f : Bell → Bell) : Part :=
  { pair f with session := { (pair f).session with
      state := .opened, bells := [SessionBell.mk 1 .held false, SessionBell.mk 16 .held false]
      requester := some 1, opened := 1 } }
theorem witness_RingRelease :
    (pair id).hears 1 .console = true ∧ (pair id).session.state = .idle ∧ (opened id).hears 1 .console = true
      ∧ (opened id).session.state = .opened
      ∧ (∀ b ∈ (opened id).session.set, ((opened id).bell b).settled = true)
      ∧ (∃ b ∈ (opened settling).session.set, ((opened settling).bell b).settled = false)
      ∧ (opened id).time.state ≠ .unset := by decide +kernel

/-- Group 12 lit for the whole of a limit of 1000 W, REDUCED. -/
def lampLit (p : Part) : Part :=
  { withGroup 12 (fun x => { x with
      config := { x.config with node := some 30, rated := 1000 }, target := 1000, commanded := 1000 }) p with
    budget := { p.budget with
      limits := { p.budget.limits with normal := 1000, reduced := 1000, low := 0 }
      charges := [Charge.mk 0 (.group 12) 1000 0 none], nextId := 1 } }
/-- The charge list of `lampLit` is sound where no dial waits or drives. -/
theorem lampLit_sound {p : Part} (h1 : ∀ g, 1 ≤ g → g ≤ 12 → (lampLit p).budget.groupCharge g
      = (((lampLit p).group g).config.rated * ((lampLit p).group g).commanded + 999) / 1000)
    (h2 : ∀ g, 1 ≤ g → g ≤ 12 → ((lampLit p).group g).config.node = none →
      ((lampLit p).group g).commanded = 0 ∧ ((lampLit p).group g).clamp = none)
    (h3 : ∀ g, 1 ≤ g → g ≤ 12 → ((lampLit p).group g).config.priority ≤ 3) (h4 : p.budget.waiting = [])
    (h5 : p.time.state ≠ .unset) : (lampLit p).BudgetSound := by
  refine ⟨by simp [lampLit], by simp [lampLit], h1, h2, ?_, ?_, h3, by simp [lampLit, h4], ?_, fun h => absurd h h5⟩
  · intro c h g e
    obtain rfl : c = Charge.mk 0 (.group 12) 1000 0 none := by simpa [lampLit] using h
    simp at e
    omega
  · intro c h g e
    obtain rfl : c = Charge.mk 0 (.group 12) 1000 0 none := by simpa [lampLit] using h
    decide
  · intro d _ _ h
    simp [lampLit, FeedBudget.dialHolds] at h
/-- The step at place 0 of the store. -/
def withStep (c : TuneStep) (p : Part) : Part :=
  { p with store.steps := bankPut p.store.steps 0 (stored stepContents c) }
/-- The tune voice plays tune 0 of one step, pulse 357143 µs, begun at tick 0; the present is tick t. -/
def frame0 : PhraseFrame := PhraseFrame.mk 0 0 1 0 1
def playingAt (t pulses : Nat) (c : TuneStep) : Part :=
  let p := withStep c (bell16 t (fun x => { x with claims.tune := true }))
  { p with tune := { p.tune with
      state := .playing, inHand := some (0, 1)
      voice := { p.tune.voice with
        start := some 0, tempo := some 84, pulse := some 357143, pulses := pulses, declared := some [16]
        stack := [frame0], claimed := [16] } } }
theorem witness_VoiceTakesStep :
    (2 * 357143 * 1024 + 999999) / 1000000 = 732
      ∧ (∀ c ∈ [TuneStep.rest 1, .note [16] 5 1, .note [15] 5 64],
          (playingAt 731 2 c).tune.voice.start = some 0 ∧ (playingAt 731 2 c).tune.voice.pulse = some 357143
            ∧ (playingAt 731 2 c).voiceDue .tune = false ∧ (playingAt 732 2 c).voiceDue .tune = true
            ∧ (playingAt 732 2 c).tune.state = .playing ∧ (playingAt 732 2 c).tune.voice.stack = [frame0]
            ∧ frame0.cursor < frame0.length
            ∧ bankGet (playingAt 732 2 c).store.steps (frame0.start + frame0.cursor)
                (stored stepContents TuneStep.endStep) = stored stepContents c)
      ∧ (playingAt 732 2 (.note [16] 5 1)).admission 16 (originOf .tune) = .admitted
      ∧ (withBell 16 (fun x => { x with position := .moving }) (playingAt 732 2 (.note [16] 5 1))).admission 16
          (originOf .tune) = .position
      ∧ (playingAt 732 2 (.note [16] 5 1)).budget.decide 50 = .grant
      ∧ (playingAt 732 2 (.note [16] 5 1)).tune.voice.held = []
      ∧ (playingAt 732 2 (.note [16] 5 1)).line.localQ.length < 24
      ∧ (playingAt 732 2 (.note [15, 16] 5 1)).stepIs 0 (.note [15, 16] 5 1)
      ∧ (playingAt 732 2 (.note [15, 16] 5 1)).budget.committed + 50
          ≤ (playingAt 732 2 (.note [15, 16] 5 1)).budget.limit
      ∧ (List.replicate 4 (HeldStrike.mk (strikeFor 1) 9)).length = 3 + 1 := by
  iterate 7 refine ⟨by decide +kernel, ?_⟩
  refine ⟨?_, by decide +kernel, by decide +kernel⟩
  unfold Part.stepIs
  decide +kernel
theorem witness_VoiceTakesStep_budget :
    (let p := lampLit (playingAt 732 2 (.note [16] 5 1))
     p.BudgetSound ∧ p.budget.waiting = [] ∧ p.admission 16 (originOf .tune) = .admitted
      ∧ p.budget.decide (p.bell 16).config.charge = .reclaim 50 ∧ p.tune.voice.held = [] ∧ p.line.localQ.length < 12
      ∧ p.stepIs 0 (.note [16] 5 1) ∧ 16 ∈ p.tune.voice.declared.getD [])
      ∧ (let p := starved (playingAt 732 2 (.note [16] 5 1))
         p.admission 16 (originOf .tune) = .admitted ∧ p.budget.decide (p.bell 16).config.charge = .refuse
          ∧ p.stepIs 0 (.note [16] 5 1)) := by
  refine ⟨⟨lampLit_sound (each12 (by decide +kernel)) (each12 (by decide +kernel)) (each12 (by decide +kernel)) rfl
    (by decide +kernel), by decide +kernel, by decide +kernel, by decide +kernel, by decide +kernel, by decide +kernel,
    ?_, by decide +kernel⟩, by decide +kernel, by decide +kernel, ?_⟩ <;> unfold Part.stepIs <;> decide +kernel
/-- The tune voice at its due instant in a phrase stack, the step at place 1 a REST. -/
def stacked (stack : List PhraseFrame) (c : TuneStep) : Part :=
  let p := playingAt 732 2 c
  { p with
    tune := { p.tune with voice := { p.tune.voice with stack := stack } }
    store := { p.store with
      steps := bankPut p.store.steps 1 (stored stepContents (.rest 64))
      directory := bankPut p.store.directory 95 (stored dirBytes (.valid
        { kind := .phrase, start := 1, length := 1, tempo := 240, bells := [16] })) } }
theorem witness_TuneStructure :
    (∀ n ∈ [95, 0], (stacked [PhraseFrame.mk 0 0 2 0 1] (.call n 8)).stepIs 0 (.call n 8))
      ∧ readDirectory 0 (stacked [PhraseFrame.mk 0 0 2 0 1] (.call 0 8))
          = (stacked [PhraseFrame.mk 0 0 2 0 1] (.call 0 8), some .empty)
      ∧ readDirectory 95 (stacked [PhraseFrame.mk 0 0 2 0 1] (.call 95 8))
          = (stacked [PhraseFrame.mk 0 0 2 0 1] (.call 95 8), some (.valid
              { kind := .phrase, start := 1, length := 1, tempo := 240, bells := [16] }))
      ∧ (stacked [PhraseFrame.mk 0 0 2 0 1] .endStep).frameOver (PhraseFrame.mk 0 0 2 0 1)
      ∧ (stacked [PhraseFrame.mk 0 0 1 1 1] .endStep).frameOver (PhraseFrame.mk 0 0 1 1 1)
      ∧ (stacked [] .endStep).stepIs 1 (.rest 64)
      ∧ (List.replicate 3 frame0).length = 3 ∧ (stacked [frame0] .endStep).tune.state = .playing
      ∧ (stacked [frame0] .endStep).tune.voice.start = some 0
      ∧ (stacked [frame0] .endStep).tune.voice.pulse = some 357143
      ∧ 0 + (2 * 357143 * 1024 + 999999) / 1000000 ≤ (stacked [frame0] .endStep).osc
      ∧ checkHolds stepContents (Checked.mk TuneStep.endStep 0) = false := by
  refine ⟨by unfold Part.stepIs; decide +kernel, readDirectory_empty (by decide +kernel),
    readDirectory_valid (by decide +kernel), .inr ⟨by decide, by unfold Part.stepIs; decide +kernel⟩, .inl (by decide),
    by unfold Part.stepIs; decide +kernel, ?_⟩
  decide +kernel
/-- The clock voice in a state at tick t, its next blow due at tick 100, with blows to come on bell 16. -/
def strikingAt (st : ClockState) (t blows : Nat) (p : Part) : Part :=
  { p with
    osc := t
    clock := { p.clock with
      state := st, cachedSet := some (ChimeSet.cold 0), quarter := some (4, blows), blows := some blows
      nextBlow := some 100 } }
theorem witness_HeldStrikesAndBlows :
    (∀ t ∈ [99, 100], ∀ st ∈ [ClockState.pausing, .striking], ∀ n ∈ [0, 1, 12],
        (strikingAt st t n locked).clock.nextBlow = some 100
          ∧ (strikingAt st t n locked).clock.cachedSet = some (ChimeSet.cold 0)
          ∧ (strikingAt st t n locked).clock.state = st)
      ∧ (strikingAt .striking 100 1 locked).owner (ChimeSet.cold 0).hourBell ≠ some .clock
      ∧ (ChimeSet.cold 0).altBell = none
      ∧ (strikingAt .striking 100 1 (owned 0)).owner (ChimeSet.cold 0).hourBell = some .clock
      ∧ (strikingAt .striking 100 1 (owned 0)).admission 16 .clock = .recovery
      ∧ (strikingAt .striking 2000 1 (owned 0)).admission 16 .clock = .admitted
      ∧ (strikingAt .striking 2000 1 (owned 0)).budget.decide 50 = .grant
      ∧ (strikingAt .striking 2000 1 (owned 0)).line.localQ.length < 24
      ∧ ({ cold with clock.voice.held := [HeldStrike.mk (strikeFor 1) 0] } : Part).budget.waiting = []
      ∧ cold.clock.state = .idle := by decide +kernel
/-- A blow that bell 16 does not permit, one that finds LOCAL full, and ones behind one and behind four held strikes. -/
def holding (k : Nat) (p : Part) : Part :=
  { p with clock := { p.clock with voice := { p.clock.voice with
      held := List.replicate k (HeldStrike.mk (strikeFor 16) 5000) } } }
theorem witness_HeldStrikesAndBlows_held :
    (let p := strikingAt .striking 2000 3 (owned 0)
     (∀ q ∈ [localFull p, holding 1 p, holding 3 p, holding 4 p], q.admission 16 .clock = .admitted
        ∧ q.budget.decide (q.bell 16).config.charge = .grant ∧ q.owner 16 = some .clock ∧ q.budget.waiting = [])
      ∧ 24 ≤ (localFull p).line.localQ.length ∧ (localFull p).clock.voice.held = []
      ∧ (holding 1 p).clock.voice.held ≠ [] ∧ (holding 3 p).clock.voice.held.length < 4
      ∧ (holding 4 p).clock.voice.held = HeldStrike.mk (strikeFor 16) 5000
          :: List.replicate 3 (HeldStrike.mk (strikeFor 16) 5000))
      ∧ (let p := strikingAt .striking 2000 3
           (withBell 16 (fun x => { x with config.permits := { x.config.permits with clock := false } }) (owned 0))
         p.admission 16 .clock = .notPermitted ∧ p.owner 16 = some .clock) := by decide +kernel
theorem witness_HeldStrikesAndBlows_budget :
    (let p := lampLit (strikingAt .striking 2000 1 (owned 0))
     p.BudgetSound ∧ p.budget.waiting = [] ∧ p.admission 16 .clock = .admitted
      ∧ p.budget.decide (p.bell 16).config.charge = .reclaim 50 ∧ p.clock.voice.held = [] ∧ p.line.localQ.length < 12)
      ∧ (let p := starved (strikingAt .striking 2000 1 (owned 0))
         p.admission 16 .clock = .admitted ∧ p.budget.decide (p.bell 16).config.charge = .refuse) :=
  ⟨⟨lampLit_sound (each12 (by decide +kernel)) (each12 (by decide +kernel)) (each12 (by decide +kernel)) rfl
    (by decide +kernel), by decide +kernel⟩, by decide +kernel⟩
theorem witness_OmitNextQuarter :
    (∀ c ∈ [SourceClass.console, .operator, .service], (withClass 1 c cold).hears 1 c = true
        ∧ (safe (withClass 1 c cold)).hears 1 c = true)
      ∧ ({ cold with clock.omitNext := true } : Part).clock.omitNext = true
      ∧ cold.clock.omitNext = false ∧ cold.clock.state = .idle
      ∧ (strikingAt .striking 0 1 cold).clock.state ≠ .idle ∧ (safe cold).mgmt.partState = .safe := by decide +kernel
theorem witness_QuartersSound :
    locked.clock.omitNext = false ∧ locked.clock.state = .idle ∧ locked.mgmt.partState = .running
      ∧ (strikingAt .striking 0 1 cold).clock.state ≠ .idle ∧ (safe cold).mgmt.partState = .safe
      ∧ locked.clock.cachedSet = none ∧ checkHolds chimeBytes (Checked.mk (ChimeSet.cold 0) 0) = false
      ∧ bankGet locked.store.chimes locked.cal.config.selector
          (stored chimeBytes (ChimeSet.cold locked.cal.config.selector)) = stored chimeBytes (ChimeSet.cold 0)
      ∧ (ChimeSet.cold 0).fourth = 3 ∧ locked.cal.quietStrike = 0 ∧ locked.cal.quietChimes = 0
      ∧ 0 < ({ locked with cal.quietStrike := 15 } : Part).cal.quietStrike
      ∧ 0 < ({ locked with cal.quietChimes := 1 } : Part).cal.quietChimes
      ∧ readDirectory 3 locked = (locked, some .empty)
      ∧ readDirectory 95 (stacked [] .endStep) = (stacked [] .endStep, some (.valid
          { kind := .phrase, start := 1, length := 1, tempo := 240, bells := [16] }))
      ∧ (stacked [] .endStep).stepIs 1 (.rest 64) := by
  iterate 13 refine ⟨by decide +kernel, ?_⟩
  exact ⟨readDirectory_empty (by decide +kernel), readDirectory_valid (by decide +kernel),
    by unfold Part.stepIs; decide +kernel⟩
/-- The clock voice IDLE with set 1 copied earlier, and the selected set damaged. -/
def setDamaged (p : Part) : Part :=
  { p with
    clock := { p.clock with cachedSet := some (ChimeSet.cold 1) }
    store := { p.store with chimes := bankPut p.store.chimes 0 (Checked.mk (ChimeSet.cold 0) 0) } }
theorem witness_QuartersSound_earlier :
    (setDamaged locked).clock.omitNext = false ∧ (setDamaged locked).clock.state = .idle
      ∧ (setDamaged locked).mgmt.partState = .running ∧ (setDamaged locked).clock.cachedSet = some (ChimeSet.cold 1)
      ∧ checkHolds chimeBytes (bankGet (setDamaged locked).store.chimes (setDamaged locked).cal.config.selector
          (stored chimeBytes (ChimeSet.cold (setDamaged locked).cal.config.selector))) = false
      ∧ (ChimeSet.cold 1).fourth = 7 ∧ (setDamaged locked).cal.quietStrike = 0
      ∧ readDirectory 7 (setDamaged locked) = (setDamaged locked, some .empty)
      ∧ readDirectory 95 (setDamaged (stacked [] .endStep)) = (setDamaged (stacked [] .endStep), some (.valid
          { kind := .phrase, start := 1, length := 1, tempo := 240, bells := [16] }))
      ∧ (setDamaged (stacked [] .endStep)).stepIs 1 (.rest 64) := by
  iterate 7 refine ⟨by decide +kernel, ?_⟩
  exact ⟨readDirectory_empty (by decide +kernel), readDirectory_valid (by decide +kernel),
    by unfold Part.stepIs; decide +kernel⟩
/-- Tune 95: a REST of 64 pulses at tempo 240, for bell 16. -/
def tune95 : TuneEntry := { kind := .tune, start := 0, length := 1, tempo := 240, bells := [16] }
def stocked : Part :=
  let p := withStep (.rest 64) (console locked)
  { p with store.directory := bankPut p.store.directory 95 (stored dirBytes (.valid tune95)) }
theorem witness_TunesStartAndStop :
    stocked.hears 1 .console = true ∧ (safe stocked).hears 1 .console = true
      ∧ (playingAt 0 0 .endStep).tune.state ≠ .idle ∧ 0 < ({ locked with cal.quietTunes := 1 } : Part).cal.quietTunes
      ∧ stocked.tune.state = .idle ∧ stocked.cal.quietTunes = 0 ∧ stocked.mgmt.partState = .running
      ∧ bankGet stocked.store.steps tune95.start (stored stepContents TuneStep.endStep)
          = stored stepContents (.rest 64)
      ∧ (console (playingAt 0 0 .endStep)).hears 1 .console = true
      ∧ ({ playingAt 732 2 .endStep with tune.state := .stopping } : Part).tune.state = .stopping
      ∧ ({ playingAt 732 2 .endStep with tune.state := .stopping } : Part).voiceDue .tune = true := by decide +kernel
theorem witness_tunes_read :
    readDirectory 0 stocked = (stocked, some .empty) ∧ readDirectory 95 stocked = (stocked, some (.valid tune95)) :=
  ⟨readDirectory_empty (by decide +kernel), readDirectory_valid (by decide +kernel)⟩

/-! ## Witnesses: floodlights and the Feed Budget -/

/-- Group 12 fitted at node 30, a fade of k of 3 steps from 0 to 1000, the update due. -/
def fading (k : Nat) : Part :=
  withGroup 12 (fun x => { x with
    config := { x.config with node := some 30, ceiling := 900 }, target := 1000, fadeLength := 3, elapsed := k })
    { console locked with osc := 1024 }
theorem witness_LampUpdateAdvancesFade :
    (fading 0).lamps.nextUpdate = 1024 ∧ ({ fading 0 with osc := 1023 } : Part).osc < (fading 0).lamps.nextUpdate
      ∧ ((fading 0).group 12).config.node ≠ none ∧ ((fading 0).group 12).failure = none
      ∧ ((fading 0).group 12).clamp = none
      ∧ (∀ a : Fin 13, 1 ≤ a.val → a.val ≠ 12 →
          ((fading 0).group a.val).config.node = none ∧ ((fading 0).group a.val).clamp = none)
      ∧ (fading 0).budget.waiting = [] ∧ (fading 0).mgmt.partState = .running
      ∧ (∀ k ∈ [0, 2], ((fading k).group 12).elapsed < ((fading k).group 12).fadeLength)
      ∧ (fading 2).budget.committed + (100 * 900 + 999) / 1000
          ≤ (fading 2).budget.limit + (fading 2).budget.groupCharge 12
      ∧ (fading 2).budget.charges.length < 80 ∧ (fading 2).budget.committed ≤ (fading 2).budget.limit := by
  decide +kernel
/-- The same with a clamp, a level and a limit of the present stage. -/
def clampedAt (k level limit : Nat) (clamp : Option Nat) : Part :=
  let p := withGroup 12 (fun x => { x with commanded := level, clamp := clamp }) (fading k)
  { p with budget := { p.budget with limits := { p.budget.limits with reduced := limit } } }
theorem witness_LampUpdateAdvancesFade_clauses :
    (∀ k ∈ [0, 1, 2], ((fading k).group 12).fadesTo (k + 1) (333 * (k + 1) - 99 * (k / 2)))
      ∧ ((fading 3).group 12).fadesTo 3 900
      ∧ (∀ c ∈ [some 900, some 1000], ∀ x ∈ c, min ((clampedAt 0 0 0 c).group 12).target
          ((clampedAt 0 0 0 c).group 12).config.ceiling ≤ x)
      ∧ (∀ level ∈ [332, 333, 334], ((clampedAt 0 level 0 (some 899)).group 12).clamp = some 899
          ∧ 899 < min ((clampedAt 0 level 0 (some 899)).group 12).target
              ((clampedAt 0 level 0 (some 899)).group 12).config.ceiling)
      ∧ (∀ limit ∈ [0, 1, 33], (clampedAt 0 0 limit none).budget.limit + (clampedAt 0 0 limit none).budget.groupCharge 12
          < (clampedAt 0 0 limit none).budget.committed + (100 * 333 + 999) / 1000)
      ∧ 1 ≤ ((fading 0).group 12).config.rated ∧ ((fading 0).group 12).config.ceiling ≤ 1000
      ∧ 80 ≤ (List.replicate 80 (Charge.mk 0 (.strike 1 .clock) 0 0 none)).length
      ∧ ∀ c ∈ List.replicate 80 (Charge.mk 0 (.strike 1 .clock) 0 0 none), c.holder ≠ .group 12 := by
  unfold LampGroup.fadesTo
  decide +kernel
/-- Group 12 lit at 500, with what waits in LOCAL and the level last sent. -/
def offering (waits : List LocalItem) (sent : Option Nat) : Part :=
  withGroup 12 (fun x => { x with commanded := 500, sent := sent })
    { fading 3 with line := { (fading 3).line with localQ := waits } }
def levelWaits : LocalItem := .lampLevel (some 12) 300 (Frame.mk 30 1 24 [12, 1, 44])
def levelOf12 : LocalItem := .lampLevel (some 12) 500 (Frame.mk 30 1 24 [12, 1, 244])
theorem witness_levelOffered :
    ((offering [] none).group 12).config.node = some 30 ∧ ((offering [] none).group 12).config.channel = 12
      ∧ (((offering [] (some 500)).group 12).queued.or ((offering [] (some 500)).group 12).inFlight).or
          ((offering [] (some 500)).group 12).sent = some 500
      ∧ levelWaits.channel = some (30, some (byte 12))
      ∧ (safe (offering [] none)).mgmt.partState = .safe
      ∧ (after .lampUpdate (safe (offering [] (some 500)))).line.localQ = []
      ∧ (after .lampUpdate (safe (offering [] none))).line.localQ = [levelOf12]
      ∧ (after .lampUpdate (safe (offering [levelWaits] none))).line.localQ = [levelOf12]
      ∧ (let p := safe (offering (List.replicate 24 (.dialStep 1 stepFrame)) none)
         (∀ i ∈ p.line.localQ, i.channel ≠ some (30, some (byte 12))) ∧ 24 ≤ p.line.localQ.length
          ∧ ((after .lampUpdate p).group 12).deferred = true ∧ ((after .lampUpdate p).group 12).deferredOffers = 1)
      ∧ (let p := offering (List.replicate 24 (.dialStep 1 stepFrame)) none
         ((after .lampUpdate p).group 12).commanded = 900
          ∧ ((after .lampUpdate p).group 12).deferredOffers = 2) := by decide +kernel
/-- Groups 11 and 12 fading together within a limit of just their need, 34 W each, and group 10 in FAULT. -/
def fadingTwo : Part :=
  let p := withGroup 11 (fun x => { x with
    config := { x.config with node := some 30 }, target := 1000, fadeLength := 3 }) (fading 0)
  let p := withGroup 10 (fun x => { x with config := { x.config with node := some 30 }, failure := some .lampFail }) p
  { p with budget := { p.budget with limits := { p.budget.limits with reduced := 68 } } }
theorem witness_LampUpdateAdvancesFade_several :
    fadingTwo.BudgetSound ∧ fadingTwo.budget.waiting = [] ∧ fadingTwo.mgmt.partState = .running
      ∧ fadingTwo.lamps.nextUpdate ≤ fadingTwo.osc
      ∧ (∀ g : Fin 13, 1 ≤ g.val → (fadingTwo.group g.val).clamp = none
          ∧ ((fadingTwo.group g.val).config.node ≠ none → (fadingTwo.group g.val).failure = none →
              (fadingTwo.group g.val).fadesTo 1 333
                ∧ ((fadingTwo.group g.val).config.rated * 333 + 999) / 1000
                  ≤ fadingTwo.budget.groupCharge g.val + if 11 ≤ g.val then 34 else 0))
      ∧ fadingTwo.budget.committed + ((List.range 12).map (fun i => if 11 ≤ i + 1 then 34 else 0)).sum
          ≤ fadingTwo.budget.limit
      ∧ fadingTwo.budget.charges.length + 12 ≤ 80 := by
  refine ⟨?_, ?_⟩
  · constructor
    case groups => exact each12 (by decide +kernel)
    case dark => exact each12 (by decide +kernel)
    case priorities => exact each12 (by decide +kernel)
    case dials => exact each4 (by decide +kernel)
    case known => exact fun c h => by simp [show fadingTwo.budget.charges = [] by decide +kernel] at h
    case lit => exact fun c h => by simp [show fadingTwo.budget.charges = [] by decide +kernel] at h
    case stopped => exact fun h => absurd h (by decide +kernel)
    all_goals decide +kernel
  · unfold LampGroup.fadesTo
    decide +kernel
/-- A scene that leaves group 1 and takes every other group to 1000 in 600 s. -/
def scene15 : Scene :=
  { targets := Vector.ofFn (fun i => if i.val = 0 then none else some 1000), fadeTime := 600 }
theorem witness_ApplySceneRestartsFades :
    (console locked).hears 1 .console = true ∧ (safe (console locked)).hears 1 .console = true
      ∧ (console locked).mgmt.partState = .running
      ∧ checkHolds sceneBytes (Checked.mk scene15 0) = false
      ∧ (let p : Part := { locked with lamps.scenes := bankPut locked.lamps.scenes 15 (stored sceneBytes scene15) }
         bankGet p.lamps.scenes 15 (stored sceneBytes (Scene.cold 15)) = stored sceneBytes scene15)
      ∧ bankGet1 scene15.targets 1 none = none ∧ bankGet1 scene15.targets 12 none = some 1000
      ∧ 0 < scene15.fadeTime := by decide +kernel
/-- A scene with fade time 0 that takes group 12 to 500 and leaves the others. -/
def scene14 : Scene := { targets := Vector.ofFn (fun i => if i.val = 11 then some 500 else none), fadeTime := 0 }
/-- Group 12 at a level with a clamp, that scene stored, and a limit of the present stage. -/
def jumping (level limit : Nat) (clamp : Option Nat) : Part :=
  let p := clampedAt 3 level limit clamp
  { p with lamps.scenes := bankPut p.lamps.scenes 14 (stored sceneBytes scene14) }
theorem witness_ApplySceneRestartsFades_jump :
    (jumping 0 100 none).hears 1 .console = true ∧ (jumping 0 100 none).mgmt.partState = .running
      ∧ bankGet (jumping 0 100 none).lamps.scenes 14 (stored sceneBytes (Scene.cold 14)) = stored sceneBytes scene14
      ∧ scene14.fadeTime = 0 ∧ bankGet1 scene14.targets 12 none = some 500
      ∧ ((jumping 0 100 none).group 12).config.node ≠ none ∧ ((jumping 0 100 none).group 12).failure = none
      ∧ ((jumping 0 100 none).group 12).config.ceiling = 900 ∧ (jumping 0 100 none).budget.waiting = []
      ∧ (∀ c ∈ [(500 : Nat), 900], ((jumping 400 100 (some c)).group 12).clamp = some c ∧ 500 ≤ c)
      ∧ ((jumping 400 100 (some 499)).group 12).clamp = some 499
      ∧ (∀ limit ∈ [(49 : Nat), 50], (jumping 0 limit none).budget.limit = limit
          ∧ (jumping 0 limit none).budget.committed = 0 ∧ (jumping 0 limit none).budget.groupCharge 12 = 0)
      ∧ (100 * 500 + 999) / 1000 = 50
      ∧ ((after (.applyScene 1 14) (jumping 0 50 none)).group 12).commanded = 500
      ∧ ((after (.applyScene 1 14) (jumping 0 49 none)).group 12).clamp = some 490
      ∧ ((after (.applyScene 1 14) (jumping 400 100 (some 499))).group 12).commanded = 400
      ∧ ((after (.applyScene 1 14) (jumping 400 100 (some 500))).group 12).commanded = 500 := by
  decide +kernel
theorem witness_jump_leaves_others : ∀ a : Nat, a ≠ 12 → bankGet1 scene14.targets a none = none := by
  intro a h
  by_cases h1 : a < 14
  · have : ∀ b : Fin 14, b.val ≠ 12 → bankGet1 scene14.targets b.val none = none := by decide +kernel
    exact this ⟨a, h1⟩ h
  · rw [bankGet1, if_neg (by omega), bankGet, List.getD, List.getElem?_eq_none (by simp; omega)]; rfl
theorem witness_LampReport :
    (∀ g, 1 ≤ g → g ≤ 12 → ¬ ((cold.group g).config.node = some 30 ∧ (cold.group g).config.channel = 12))
      ∧ ((fading 1).group 12).config.node = some 30 ∧ ((fading 1).group 12).config.channel = 12
      ∧ (∀ a : Fin 13, 1 ≤ a.val → a.val < 12 → ((fading 1).group a.val).config.node = none)
      ∧ ((fading 1).group 12).failure = none
      ∧ ((withGroup 12 (fun x => { x with failure := some .lampFail }) (fading 1)).group 12).failure ≠ none := by
  refine ⟨each12 (by decide +kernel), ?_⟩
  decide +kernel
/-- NORMAL, group 12 lit with a charge of 100 W and a dial's charge of k W. -/
def loaded (k : Nat) : Part :=
  { withGroup 12 (fun x => { x with
      config := { x.config with node := some 30 }, target := 1000, commanded := 1000 }) locked with
    budget := { locked.budget with
      stage := .normal
      charges := [Charge.mk 0 (.dial 1) k 0 none, Charge.mk 1 (.group 12) 100 0 none] } }
/-- A FEED_STATE of node 61, received while node 62 was the monitor, waits to be taken. -/
def waitingFeedState (p : Part) : Part :=
  { p with line.delivered := [Delivery.mk (.feedState 61 .low) 3 .field none 0 (some 62) none] }
theorem witness_feedFrom :
    locked.feedFrom 61 .low none ∧ (waitingFeedState locked).feedFrom 61 .low (some 62)
      ∧ ({ locked with budget.limits.monitor := some 62 } : Part).feedFrom 62 .low (some 62) :=
  ⟨.inl ⟨rfl, rfl⟩, .inr ⟨_, rfl, rfl⟩, .inl ⟨rfl, rfl⟩⟩
theorem witness_FeedStageChanges :
    locked.retention.supply = true ∧ (62 : Nat) ≠ 61 ∧ locked.budget.stage = .reduced ∧ Stage.low ≠ locked.budget.stage
      ∧ (∀ k ∈ [1100, 1101, 1200, 1201],
          (loaded k).budget.waiting = [] ∧ (loaded k).budget.committed = k + 100
            ∧ stageCode (loaded k).budget.stage < stageCode .reduced
            ∧ ((loaded k).group 12).config.priority = 3
            ∧ (loaded k).budget.charges.filter Charge.isLamp = [Charge.mk 1 (.group 12) 100 0 none])
      ∧ (loaded 1100).budget.limits.reduced = 1200 ∧ (loaded 1100).line.upQ.length < 13
      ∧ (loaded 1100).time.state ≠ .unset := by decide +kernel
/-- A load of 1100 W, all of it a dial's, at the limit of 1200 W. -/
def budgeted (lamp : Nat) : FeedBudget :=
  { locked.budget with charges := [Charge.mk 0 (.dial 1) (1100 - lamp) 0 none, Charge.mk 1 (.group 12) lamp 0 none] }
/-- A clamped group whose restore delay of 30 s is over at tick 30720. -/
def clamped (level : Nat) : Part :=
  { withGroup 12 (fun x => { x with
      config := { x.config with node := some 30 }, target := 1000, commanded := level, clamp := some level }) locked with
    osc := 30720, budget := { locked.budget with restore := some { group := 12, start := 0 } } }
theorem witness_ChargesGrantedAndReleased :
    (List.replicate 80 (Charge.mk 0 (.dial 1) 0 0 none)).length = 80
      ∧ (budgeted 0).committed = 1100 ∧ (budgeted 0).limit = 1200 ∧ (budgeted 0).decide 100 = .grant
      ∧ (budgeted 1).decide 101 = .reclaim 1 ∧ (budgeted 0).decide 101 = .refuse
      ∧ ({ budgeted 0 with stage := .low } : FeedBudget).decide 1 = .refuse
      ∧ ({ budgeted 0 with stage := .low } : FeedBudget).decide 0 = .grant
      ∧ (∀ c ∈ [Charge.mk 7 (.strike 1 .clock) 50 0 (some 9)], c.releaseAt = some 9) ∧ locked.budget.waiting = []
      ∧ (clamped 500).budget.restore = some { group := 12, start := 0 }
      ∧ (clamped 500).budget.limits.restoreDelay * 1024 = 30720
      ∧ ((clamped 500).group 12).clamp ≠ none ∧ ((clamped 500).group 12).fadeLevel = 1000
      ∧ ((clamped 1000).group 12).fadeLevel ≤ ((clamped 1000).group 12).commanded
      ∧ (clamped 500).budget.committed + (100 * 1000 + 999) / 1000
          ≤ (clamped 500).budget.limit + (clamped 500).budget.groupCharge 12
      ∧ (let b : FeedBudget := { budgeted 0 with waiting := [1, 2] }
         b.waiting = [1, 2] ∧ b.decide 101 = .refuse ∧ b.decide 30 = .grant
          ∧ b.committed + 30 + 30 ≤ b.limit + 50) := by decide +kernel

/-! ## Witnesses: the Calendar -/

/-- LOCKED at second t with an item of the due list at second 1000 and an entry 127 whose action is given. -/
def dueAt (k : DueKind) (a : Action) (t : Int) : Part :=
  let c : ScheduleConfig := { ScheduleConfig.cold with enabled := true, action := a }
  { lockedAt t 0 with cal := { locked.cal with
      dueList := [DueItem.mk k 1000]
      schedule := bankPut locked.cal.schedule 127 (ScheduleEntry.mk (stored scheduleBytes c) .armed none) } }
theorem witness_ScheduleFires :
    cold.time.state = .unset
      ∧ (∀ t ∈ [(999 : Int), 1000], (dueAt (.entry 127) .omitNext t).cal.dueList = [DueItem.mk (.entry 127) 1000]
          ∧ (dueAt (.entry 127) .omitNext t).time.sec + (dueAt (.entry 127) .omitNext t).time.acc / 1073741824 = t
          ∧ (dueAt (.entry 127) .omitNext t).time.state ≠ .unset)
      ∧ ((dueAt (.entry 127) .omitNext 1000).entry 127).config.val.action = .omitNext
      ∧ ((dueAt (.entry 127) (.quietBegin (QuietKinds.mk true true true)) 1000).entry 127).config.val.action
          = .quietBegin (QuietKinds.mk true true true)
      ∧ (dueAt .sunrise .omitNext 1000).cal.dueList = [DueItem.mk .sunrise 1000]
      ∧ (dueAt .sunset .omitNext 1000).cal.dueList = [DueItem.mk .sunset 1000]
      ∧ (dueAt .sunrise .omitNext 1000).cal.reapply = false
      ∧ (let p := dueAt .sunrise .omitNext 1000
         ({ p with cal.dueList := [DueItem.mk .sunrise 1000, DueItem.mk .sunset 1000] } : Part).cal.dueList
           = [DueItem.mk .sunrise 1000, DueItem.mk .sunset 1000]) := by decide +kernel
/-- Every record of the Calendar's tables passes its check, once the check is made record by record. -/
theorem calSound_of {p : Part} (h1 : p.cal.failed = [])
    (h2 : ∀ n : Fin 64, checkHolds dayClassBytes (p.dayClassRecord n.val) = true)
    (h3 : ∀ n : Fin 73, checkHolds sunBytes (p.sunRecord n.val) = true)
    (h4 : ∀ n : Fin 128, checkHolds scheduleBytes (p.entry n.val).config = true)
    (h5 : ∀ n : Fin 32, checkHolds linkBytes (p.link n.val).config = true) : p.calSound :=
  ⟨h1, fun n h => h2 ⟨n, h⟩, fun n h => h3 ⟨n, h⟩, fun n h => h4 ⟨n, h⟩, fun n h => h5 ⟨n, h⟩⟩
/-- LOCKED at second 60000 and half a second, entry 127 enabled every day at civil minute m, one minute of catch-up;
both ends of the day's sun interpolation are written. -/
def dayAt (m : Int) : Part :=
  let p := lockedAt 60000 536870912
  let c : ScheduleConfig :=
    { ScheduleConfig.cold with enabled := true, minute := m, weekdays := [0, 1, 2, 3, 4, 5, 6], action := .omitNext }
  { p with cal := { p.cal with
      config := { p.cal.config with catchUp := 1 }
      sun := bankPut (bankPut p.cal.sun 0 (stored sunBytes (some (SunTimes.mk 480 960)))) 1
        (stored sunBytes (some (SunTimes.mk 475 965)))
      schedule := bankPut p.cal.schedule 127 (ScheduleEntry.mk (stored scheduleBytes c) .armed none)
      dueList := [DueItem.mk (.entry 127) (60 * m)] } }
theorem witness_CalendarRebuilt :
    (dayAt 1000).calSound ∧ (dayAt 1000).time.civilDate = some (civilDateAt 60000 0)
      ∧ (dayAt 1000).time.state ≠ .unset ∧ cold.time.state = .unset
      ∧ (dayAt 1000).time.civilDate = some (civilDateAt (dayAt 1000).time.sec (dayAt 1000).time.offsetNow)
      ∧ dayOfYear (civilDateAt 60000 0) = 1 ∧ ((dayAt 1000).sunRecord 0).val = some (SunTimes.mk 480 960)
      ∧ ((dayAt 1000).sunRecord 1).val = some (SunTimes.mk 475 965) ∧ ((dayAt 1000).sunRecord 72).val = none
      ∧ (rebuild (dayAt 1001)).cal.dueList = [DueItem.mk (.entry 127) 60060]
      ∧ (60 * (dayAt 999).cal.config.catchUp * 1073741824 : Int)
          < ((dayAt 999).time.sec - 60 * 999) * 1073741824 + (dayAt 999).time.acc
      ∧ ((dayAt 1000).time.sec - 60 * 1000) * 1073741824 + (dayAt 1000).time.acc
          ≤ 60 * (dayAt 1000).cal.config.catchUp * 1073741824
      ∧ (dayAt 1000).cal.dueList = [DueItem.mk (.entry 127) 60000] :=
  ⟨calSound_of (by decide +kernel) (by decide +kernel) (by decide +kernel) (by decide +kernel) (by decide +kernel),
    by decide +kernel⟩
/-- The cue link 31 enabled with a source and an action, and an event handed over. -/
def cued (s : CueSource) (a : Action) (e : CueEvent) : Part :=
  { locked with cal := { locked.cal with
      events := [e]
      links := bankPut locked.cal.links 31 (CueLink.mk (stored linkBytes (LinkConfig.mk true s a)) 0) } }
theorem witness_CueLinkActs :
    (cued (.feedStage .low) (.chimeSet 3) (.feedStage .low)).calSound
      ∧ (CueEvent.feedStage .low).cues (.feedStage .low) ∧ ¬ (CueEvent.feedStage .reduced).cues (.feedStage .low)
      ∧ (CueEvent.quarter 4 0 true).cues (.quarter none) ∧ (CueEvent.quarter 4 23 false).cues (.hour (some 23))
      ∧ (CueEvent.tuneEnd 95 .safe).cues (.tuneEnd (some 95) none)
      ∧ cold.cal.events = []
      ∧ (cued (.feedStage .low) (.chimeSet 3) (.feedStage .low)).cal.events = [.feedStage .low]
      ∧ cold.time.state = .unset
      ∧ (∀ n : Fin 32, n.val ≠ 31 →
          ((cued (.feedStage .low) (.chimeSet 3) (.feedStage .low)).link n.val).config.val.enabled = false)
      ∧ ((cued (.feedStage .low) (.chimeSet 3) (.feedStage .low)).link 31).config.val.enabled = true
      ∧ ((cued (.feedStage .low) (.chimeSet 3) (.feedStage .low)).link 31).config.val.action = .chimeSet 3
      ∧ ((cued .faultMajor (.quietEnd (QuietKinds.mk true true true)) .faultMajor).link 31).config.val.action
          = .quietEnd (QuietKinds.mk true true true)
      ∧ ((cued .faultMajor .stopTune .faultMajor).link 31).config.val.action = .stopTune
      ∧ (cued .faultMajor .stopTune .faultMajor).tune.state = .idle
      ∧ (cued .faultMajor .stopTune .faultMajor).cal.reapply = false :=
  ⟨calSound_of (by decide +kernel) (by decide +kernel) (by decide +kernel) (by decide +kernel) (by decide +kernel),
    rfl, fun h => by simp [CueEvent.cues] at h, ⟨_, _, _, rfl, .inl rfl⟩, ⟨_, _, rfl, .inr rfl⟩,
    ⟨_, _, rfl, .inr rfl, .inl rfl⟩, by decide +kernel⟩
/-! ## Witnesses: management -/

theorem witness_RecordsReadAndWritten :
    (console cold).hears 1 .console = true ∧ cold.hears 62 .service = true ∧ Table.ofCode 27 = none
      ∧ Table.ofCode 26 = some .lineStatus ∧ Table.lineStatus.writeClass = none ∧ Table.ofCode 4 = some .timeConfig
      ∧ Table.timeConfig.writeClass = some .service ∧ SourceClass.console.rank < SourceClass.service.rank
      ∧ Table.timeConfig.holds 0 = true ∧ Table.timeConfig.holds 1 = false ∧ recordSize .timeConfig cold = 5
      ∧ 4 < (recordBytes .timeConfig 0 cold).length ∧ (recordBytes .timeConfig 0 cold).length ≤ 5
      ∧ (254 : Byte).toNat * 256 + (12 : Byte).toNat = 65536 - 500
      ∧ (1 : Byte).toNat * 256 + (244 : Byte).toNat = 500 ∧ (4 : Byte).toNat * 256 + (0 : Byte).toNat = 1024
      ∧ (20 : Byte).toNat ≤ 20 ∧ 20 < (21 : Byte).toNat := by decide +kernel
/-- One record of each checked table damaged, the last of its table. -/
def damaged : Part :=
  let p := cold
  { p with
    store := { p.store with
      directory := bankPut p.store.directory 95 (Checked.mk (.valid tune95) 0)
      steps := bankPut p.store.steps 2047 (Checked.mk .endStep 0)
      chimes := bankPut p.store.chimes 3 (Checked.mk (ChimeSet.cold 3) 0) }
    lamps := { p.lamps with scenes := bankPut p.lamps.scenes 15 (Checked.mk (Scene.cold 15) 0) }
    cal := { p.cal with
      dayClasses := bankPut p.cal.dayClasses 63 (Checked.mk none 0)
      sun := bankPut p.cal.sun 72 (Checked.mk none 0)
      schedule := bankPut p.cal.schedule 127 { p.entry 127 with config := Checked.mk ScheduleConfig.cold 0 }
      links := bankPut p.cal.links 31 { p.link 31 with config := Checked.mk LinkConfig.cold 0 } }
    line := { p.line with routes := bankPut p.line.routes 31 { p.route 31 with check := 0 } }
    mgmt := { p.mgmt with sources := bankPut1 p.mgmt.sources 1 (Checked.mk .service 0) } }
def damagedRecords : List (Table × Nat) :=
  [(.sources, 1), (.directory, 95), (.steps, 2047), (.chimes, 3), (.scenes, 15), (.dayClasses, 63), (.sun, 72),
    (.schedule, 127), (.links, 31), (.routes, 31)]
theorem witness_RecordsReadAndWritten_damaged :
    damaged.hears 62 .service = true
      ∧ (∀ x ∈ damagedRecords, x.1.holds x.2 = true ∧ 0 < (recordBytes x.1 x.2 damaged).length
          ∧ damaged.hasFailed x.2 x.1 = false ∧ damaged.passesCheck x.2 x.1 = false)
      ∧ (after (.readRecord 62 Table.schedule.code 127 0) damaged).hasFailed 127 .schedule = true := by decide +kernel
theorem witness_record_check :
    checkRecord .timeConfig 0 cold = (cold, true)
      ∧ checkRecord .timeConfig 0 { cold with mgmt.cursor := some (Cursor.mk .timeConfig 0 true 1 62) }
        = ({ cold with mgmt.cursor := some (Cursor.mk .timeConfig 0 true 1 62) }, true) := ⟨rfl, rfl⟩
theorem witness_DialsAndBellsWritten :
    cold.hears 62 .service = true
      ∧ parseDialConfig (dialConfigBytes (cold.dial 1).config) = some (cold.dial 1).config
      ∧ parseDialConfig (dialConfigBytes { (cold.dial 1).config with stepPeriod := 30, holdLimit := 720 })
          = some { (cold.dial 1).config with stepPeriod := 30, holdLimit := 720 }
      ∧ parseDialConfig (dialConfigBytes { (cold.dial 1).config with stepPeriod := 60, holdLimit := 361 }) = none
      ∧ (dialConfigBytes (cold.dial 1).config).length = 7 ∧ cold.budget.waiting.Nodup
      ∧ (∃ e, 1 ≤ e ∧ e ≤ 4 ∧ e ≠ 1 ∧ (cold.dial e).config.node = (cold.dial 4).config.node
          ∧ (cold.dial e).config.channel = (cold.dial 4).config.channel)
      ∧ (∀ e : Fin 5, 1 ≤ e.val → e.val ≠ 1 → ¬ ((cold.dial e.val).config.node = (cold.dial 1).config.node
          ∧ (cold.dial e.val).config.channel = (cold.dial 1).config.channel))
      ∧ (cold.dial 1).target = targetOf 60 cold.time
      ∧ parseBellConfig (bellConfigBytes (ready (cold.bell 16)).config) = some (ready (cold.bell 16)).config
      ∧ (bellConfigBytes (ready (cold.bell 16)).config).length = 11
      ∧ parseBellConfig (List.replicate 11 0) = none
      ∧ ((bell16 0 (fun x => { x with claims.ringers := true })).bell 16).claims.ringers = true
      ∧ ((bell16 0 id).bell 16).claims.ringers = false
      ∧ (∀ a : Fin 17, 1 ≤ a.val → a.val ≠ 16 → ((bell16 0 id).bell a.val).config.hammerNode = none)
      ∧ parseGuardConfig [9] = none ∧ parseGuardConfig [10] = some 10 ∧ parseGuardConfig [120] = some 120
      ∧ (List.range' 1 16).filter (fun b =>
          ((bell16 10240 (fun x => { x with sensorFrom := some 0 })).bell b).sensorFrom.any
            (fun i => i + 10 * 1024 ≤ 10240)) = [16] := by
  iterate 6 refine ⟨by decide +kernel, ?_⟩
  exact ⟨⟨4, by decide +kernel⟩, by decide +kernel⟩
/-- A route entry at the end of its ranges. -/
def lastRoute : RouteMatch := { port := .console, kind := some 254, dest := some 62, src := some 62, action := .drop }
theorem witness_StoreAndLineWritten :
    (withClass 9 .operator cold).hears 9 .operator = true ∧ cold.hears 62 .service = true
      ∧ 2 ≤ SourceClass.operator.rank ∧ parseDir (dirBytes (.valid tune95)) = some (.valid tune95)
      ∧ (dirBytes (.valid tune95)).length = 9
      ∧ parseDir (dirBytes (.valid { tune95 with start := 2047, length := 2 })) = none
      ∧ parseStep (stepBytes (.note [16, 1, 8, 3] 7 64)) = some (.note [16, 1, 8, 3] 7 64)
      ∧ (stepBytes (.note [16, 1, 8, 3] 7 64)).length = 7 ∧ parseStep (stepBytes (.call 96 1)) = none
      ∧ (∃ f ∈ (playingAt 0 0 .endStep).clock.voice.stack ++ (playingAt 0 0 .endStep).tune.voice.stack,
          f.start ≤ 0 ∧ 0 < f.start + f.length)
      ∧ (∀ f ∈ (playingAt 0 0 .endStep).clock.voice.stack ++ (playingAt 0 0 .endStep).tune.voice.stack,
          1 < f.start ∨ f.start + f.length ≤ 1)
      ∧ parseChime (chimeBytes (ChimeSet.cold 3)) = some (ChimeSet.cold 3) ∧ (chimeBytes (ChimeSet.cold 3)).length = 11
      ∧ parseRoute (routeBytes (some lastRoute)) = some (some lastRoute)
      ∧ (routeBytes (some lastRoute)).length = 6
      ∧ parseRoute (routeBytes (some { lastRoute with port := .field, kind := some 21, action := .bellCheck })) = none
      ∧ parseRoute [0, 9, 9, 9, 9, 9] = some none ∧ parseDir (0 :: List.replicate 8 9) = some .empty
      ∧ (∃ m, (withClass 9 .operator cold).classIs m .service = true) := by
  iterate 18 refine ⟨by decide +kernel, ?_⟩
  exact ⟨62, by decide +kernel⟩
theorem witness_LampTablesWritten :
    cold.hears 62 .service = true ∧ sound.hears 62 .service = true ∧ (withClass 9 .operator cold).hears 9 .operator = true
      ∧ parseScene (sceneBytes scene15) = some scene15 ∧ (sceneBytes scene15).length = 26
      ∧ parseScene (List.replicate 26 254) = none
      ∧ parseLampConfig (lampConfigBytes (sound.group 12).config) = some (sound.group 12).config
      ∧ (lampConfigBytes (sound.group 12).config).length = 7
      ∧ parseLampConfig (lampConfigBytes { (sound.group 12).config with ceiling := 1001 }) = none
      ∧ (∀ g : Fin 13, 1 ≤ g.val → g.val ≠ 12 → (sound.group g.val).config.node = none)
      ∧ (∃ g m, 1 ≤ g ∧ g ≤ 12 ∧ g ≠ 1 ∧ (sound.group 12).config.node = some m ∧ (sound.group g).config.node = some m
          ∧ (sound.group g).config.channel = (sound.group 12).config.channel)
      ∧ cold.budget.waiting = [] ∧ (sound.group 12).commanded = 1000
      ∧ parseLimits (limitBytes LimitTable.cold) = some LimitTable.cold ∧ (limitBytes LimitTable.cold).length = 9
      ∧ parseLimits (limitBytes { LimitTable.cold with low := 5000 }) = none
      ∧ sound.budget.committed = 130 ∧ sound.budget.lampCharges = 100
      ∧ (29 < sound.budget.committed - sound.budget.lampCharges)
      ∧ (sound.budget.committed - sound.budget.lampCharges ≤ 30)
      ∧ (clamped 500).budget.restore = some { group := 12, start := 0 }
      ∧ 0 + 29 * 1024 ≤ (clamped 500).osc ∧ ((clamped 1000).group 12).clamp ≠ none := by
  iterate 10 refine ⟨by decide +kernel, ?_⟩
  exact ⟨⟨12, 30, by decide +kernel⟩, by decide +kernel⟩
theorem witness_CalendarTablesWritten :
    (withClass 9 .operator cold).hears 9 .operator = true ∧ 2 ≤ SourceClass.operator.rank
      ∧ parseDayClass (dayClassBytes (some (DayClass.mk 2 29 none [7]))) = some (some (DayClass.mk 2 29 none [7]))
      ∧ parseDayClass (dayClassBytes (some (DayClass.mk 2 29 (some 99) [7]))) = none
      ∧ (dayClassBytes (some (DayClass.mk 2 29 none [7]))).length = 5
      ∧ parseSun (sunBytes (some (SunTimes.mk 1439 0))) = some (some (SunTimes.mk 1439 0))
      ∧ parseSun (sunBytes (some (SunTimes.mk 1440 0))) = none ∧ (sunBytes (some (SunTimes.mk 1439 0))).length = 4
      ∧ parseSchedule (scheduleBytes ((dayAt 1439).entry 127).config.val) = some ((dayAt 1439).entry 127).config.val
      ∧ (scheduleBytes ((dayAt 1439).entry 127).config.val).length = 10
      ∧ parseSchedule (scheduleBytes ((dayAt 1440).entry 127).config.val) = none
      ∧ parseLink (linkBytes (LinkConfig.mk true (.hour (some 23)) (.scene 15)))
          = some (LinkConfig.mk true (.hour (some 23)) (.scene 15))
      ∧ (linkBytes (LinkConfig.mk true (.hour (some 23)) (.scene 15))).length = 7
      ∧ parseLink (linkBytes (LinkConfig.mk true (.hour (some 24)) (.scene 15))) = none
      ∧ parseCalendarConfig [60, 3] = some (CalendarConfig.mk 60 3) ∧ parseCalendarConfig [61, 3] = none := by
  decide +kernel
/-- The cursor at the one record of table 4, opened by node 62. -/
def cursored (t : Table) : Part := { cold with mgmt.cursor := some (Cursor.mk t 0 true 1 62) }
theorem witness_CursorTransfers :
    (console cold).hears 1 .console = true ∧ recordSize .partConfig cold ≤ 30 ∧ Table.ofCode 27 = none
      ∧ (∃ t ∈ Table.all, 30 < recordSize t cold ∧ Table.ofCode t.code = some t)
      ∧ Table.ofCode 4 = some .timeConfig ∧ recordSize .timeConfig cold ≤ 30 ∧ Table.timeConfig.holds 1 = false
      ∧ Table.timeConfig.holds 0 = true ∧ cold.mgmt.cursor = none
      ∧ (cursored .timeConfig).hears 62 .service = true
      ∧ (cursored .timeConfig).mgmt.cursor = some (Cursor.mk .timeConfig 0 true 1 62)
      ∧ Table.faults.writeClass = none ∧ Table.faults.holds 0 = true ∧ recordSize .faults cold ≤ 30
      ∧ [1, 2, 3, 4].length % recordSize .timeConfig cold ≠ 0
      ∧ parseTimeConfig [1, 245, 0, 16, 20] = none
      ∧ parseTimeConfig [1, 244, 4, 0, 20] = some (500, 1024, 20) := by decide +kernel
/-- A list of record numbers that the cursor covers, checked place by place. -/
theorem covers_of {c : Cursor} {l : List Nat} (h1 : l.length ≤ c.count)
    (h2 : ∀ j : Fin l.length, c.at j.val = (l[j] : Int) ∧ c.table.holds l[j] = true) : c.covers l := by
  refine ⟨h1, fun j x h => ?_⟩
  obtain ⟨hj, rfl⟩ := List.getElem?_eq_some_iff.1 h
  exact h2 ⟨j, hj⟩
/-- The cursor of node 62 on the step store. -/
def onSteps (index : Nat) (forward : Bool) (count : Nat) : Cursor := Cursor.mk .steps index forward count 62
theorem witness_CursorTransfers_several :
    (onSteps 2044 true 5).covers [2044, 2045, 2046, 2047] ∧ (onSteps 2044 true 5).leaves 4 none
      ∧ (onSteps 3 false 4).covers [3, 2, 1, 0] ∧ (onSteps 3 false 4).leaves 4 none
      ∧ (onSteps 0 true 5).covers [0, 1, 2, 3] ∧ (onSteps 0 true 5).leaves 4 (some ((onSteps 0 true 5).after 4))
      ∧ recordSize .steps cold = 7 ∧ 4 * recordSize .steps cold ≤ 30 ∧ 30 < 5 * recordSize .steps cold
      ∧ (∀ x ∈ [3, 2, 1, 0], checkRecord .steps x cold = (cold, true) ∧ (writtenBytes .steps x cold).length = 7)
      ∧ (onSteps 2047 true 1).covers [] ∧ (onSteps 2047 true 1).at 0 = 2047 ∧ damaged.passesCheck 2047 .steps = false
      ∧ damaged.hasFailed 2047 .steps = false := by
  refine ⟨covers_of (by decide) (by decide), .inr fun x h => ?_, covers_of (by decide) (by decide), .inl rfl,
    covers_of (by decide) (by decide), ⟨rfl, by decide, 4, by decide, by decide⟩, by decide +kernel, by decide +kernel,
    by decide +kernel, fun x h => ⟨?_, ?_⟩, covers_of (by decide) (fun j => j.elim0), by decide, by decide +kernel,
    by decide +kernel⟩
  · obtain rfl : x = 2048 := by simp [Cursor.at, onSteps] at h; omega
    decide
  · have e : readStep x cold = (cold, _) := readStep_holds (by revert h; revert x; decide +kernel)
    simp [checkRecord, e]
  · revert h; revert x; decide +kernel
theorem witness_CursorTransfers_writes :
    (∀ r ∈ [stepBytes (.rest 64), stepBytes .endStep], r.length = 7)
      ∧ [stepBytes (.rest 64), stepBytes .endStep].map parseStep = [TuneStep.rest 64, .endStep].map some
      ∧ parseStep (List.replicate 7 9) = none ∧ Table.steps.writeClass = some .operator
      ∧ (onSteps 1 true 3).covers [1, 2] ∧ (onSteps 2 false 3).covers [2, 1] ∧ (onSteps 2 false 3).at 2 = 0
      ∧ (onSteps 1 false 3).covers [1, 0] ∧ (onSteps 1 false 3).leaves 2 none
      ∧ (∀ x ∈ [1, 2], ∀ f ∈ (playingAt 0 0 .endStep).clock.voice.stack ++ (playingAt 0 0 .endStep).tune.voice.stack,
          x < f.start ∨ f.start + f.length ≤ x)
      ∧ (∃ f ∈ (playingAt 0 0 .endStep).clock.voice.stack ++ (playingAt 0 0 .endStep).tune.voice.stack,
          f.start ≤ 0 ∧ 0 < f.start + f.length) := by
  refine ⟨by decide, by decide, by decide, rfl, covers_of (by decide) (by decide), covers_of (by decide) (by decide),
    by decide, covers_of (by decide) (by decide), .inr fun x h => ?_, by decide +kernel, by decide +kernel⟩
  simp [Cursor.at, onSteps] at h
theorem witness_AcknowledgeAndReset :
    1 < 2 ∧ cold.hears 62 .service = true ∧ (withClass 9 .operator cold).hears 9 .operator = true ∧ cold.mgmt.faults = none
      ∧ cold.mgmt.partState = .running
      ∧ (let p : Part := { cold with mgmt.faults := some (FaultRecord.mk .intrusion [1, 2] none 255) }
         p.mgmt.faults ≠ none ∧ p.hears 62 .service = true ∧ (safe p).hears 62 .service = true
          ∧ (safe p).mgmt.partState = .safe)
      ∧ (safe cold).mgmt.faults = none ∧ (safe cold).line.upQ.length < 14 := by decide +kernel

/-! ## Tests against the manual's tables and worked cases -/

/-- TABLE 1-2: with the mark naming second 1000, the phase that is Δ ticks ahead of it. -/
def marked (delta : Int) : Part :=
  after (.timeMark 10 0 1 1 1000 2)
    (timed (lockedAt (1000 + delta / 1024) (delta % 1024 * 1048576)))
theorem test_nudge_40 : (marked 40).time.acc = 38 * 1048576 ∧ (marked 40).time.stepPending = 0 := by decide +kernel
theorem test_nudge_dead_band : (marked (-15)).time.acc = 1009 * 1048576 := by decide +kernel
theorem test_nudge_back_40 : (marked (-40)).time.acc = 986 * 1048576 ∧ (marked (-40)).time.sec = 999 := by
  decide +kernel
theorem test_nudge_128 : (marked 128).time.acc = 120 * 1048576 := by decide +kernel
/-- R8, R13: the second that a nudge completes elapses ahead of the change to LOCKED, whose notice names it. -/
theorem test_nudge_second :
    (after (.timeMark 10 0 1 1 1000 2) (nudgedOver .holdover)).time.sec = 1000
      ∧ (after (.timeMark 10 0 1 1 1000 2) (nudgedOver .holdover)).time.acc = 0
      ∧ (after (.timeMark 10 0 1 1 1000 2) (nudgedOver .holdover)).line.upQ
        = [.notice (Frame.mk 0 1 72 ([5] ++ be 4 1000 ++ [3, 2]))] := by decide +kernel
theorem test_nudge_past_the_range :
    (after (.timeMark 10 99 12 31 86399 2) (nudgedPast .holdover)).time.state = .unset
      ∧ (after (.timeMark 10 99 12 31 86399 2) (nudgedPast .holdover)).time.window = none := by decide +kernel
theorem test_beyond_129 : (marked 129).time.acc = 129 * 1048576 ∧ (marked 129).time.stepPending = 1 := by
  decide +kernel
theorem test_beyond_second : (marked 1024).time.stepPending = 1 ∧ (marked (-1030)).time.stepPending = 1 := by
  decide +kernel
/-- TABLE 1-3: the mark of a leap second names second 86400 and is refused; the third after it steps the time. -/
theorem test_leap_second_refused :
    (after (.timeMark 10 0 1 1 86400 2) (timed locked)).time.refusedMarks = 1 := by decide +kernel
theorem test_leap_second_step :
    (after (.timeMark 10 0 1 1 1001 2)
        (let p := timed (lockedAt 1002 (2 * 1048576))
         { p with time := { p.time with stepPending := 2 } })).time.sec = 1001 := by decide +kernel
/-- R155, R1: with a catch-up window of 0, an entry due at the midnight whose second boundary changes the date fires,
though that tick leaves 5 phase units in the accumulator. -/
theorem test_midnight_entry_fires :
    ((after .secondBoundary
        (let p := dayAt 0
         { p with time.sec := 86399, time.acc := 1073741829, cal.config := { p.cal.config with catchUp := 0 } })).entry
      127).state = .fired := by decide +kernel
/-- R4: a copy received while d was 7 is taken with 7, here from UNSET 997 ticks later. -/
theorem test_mark_keeps_its_delay :
    (after (.timeMark 10 0 1 1 1000 2) (waitingMark cold)).time.acc = 1004 * 1048576 := by decide +kernel
/-- R133: a report received while another node was the monitor is ignored, though ANY is written since. -/
theorem test_report_keeps_its_monitor :
    (after (.feedState 61 .low) (waitingFeedState locked)).budget.ignoredReports = 1
      ∧ (after (.feedState 61 .low) locked).budget.stage = .low := by decide +kernel
/-- R23: a home report received before a dial took its node and channel matches no record. -/
theorem test_home_report_keeps_its_match :
    (after (.dialHome 40 4) (waitingHome none locked)).dialDriver.unmatched = 1 := by decide +kernel
/-- TABLE 1-4: the first window takes the trim from 0 to −22, the second leaves it. -/
def windowAt (trim : Int) : Part :=
  let p := timed (lockedAt 2024 0)
  { p with time := { p.time with
      state := .acquiring, trim := trim, windowSize := 1024, window := some (Window.mk 1000 1048598) } }
theorem test_trim_first_window :
    (after (.timeMark 10 0 1 1 2024 2) (windowAt 0)).time.trim = -22
      ∧ (after (.timeMark 10 0 1 1 2024 2) (windowAt 0)).time.state = .locked := by decide +kernel
theorem test_trim_second_window : (after (.timeMark 10 0 1 1 2024 2) (windowAt (-22))).time.trim = -22 := by
  decide +kernel
/-- TABLE 1-6: at tower 01:00 of 2031-03-30 the civil time is 03:00 and the next change is in October. -/
def springSeasons : List Season :=
  [Season.mk (namedInstant 31 3 30 3600) 120, Season.mk (namedInstant 31 10 26 3600) 60]
def spring : Part :=
  let p := lockedAt (namedInstant 31 3 30 3599) 1073741824
  { p with time := { p.time with
      seasons := springSeasons, baseOffset := 60, currentOffset := 60
      nextChange := some (namedInstant 31 3 30 3600) } }
theorem test_spring_change :
    (after .secondBoundary spring).time.currentOffset = 120
      ∧ (after .secondBoundary spring).time.nextChange = some (namedInstant 31 10 26 3600)
      ∧ (after .secondBoundary spring).time.seasons = [Season.mk (namedInstant 31 10 26 3600) 60] := by decide +kernel
/-- TABLE 1-8: the quarters that a forward step from 12:14 crosses. -/
def stepTo (second : Nat) : Part :=
  after (.timeMark 10 0 1 1 second 2)
    (let p := timed (lockedAt 43900 0)
     { p with time := { p.time with stepPending := 2, quarterMarker := some 43200 } })
theorem test_step_late_quarter :
    (stepTo 45060).time.skippedQuarters = 1 ∧ (stepTo 45060).time.quarterMarker = some 45000
      ∧ (stepTo 45120).time.skippedQuarters = 2 ∧ (stepTo 45120).time.quarterMarker = some 45000
      ∧ (stepTo 44040).time.skippedQuarters = 0 ∧ (stepTo 44040).time.quarterMarker = some 43200 := by decide +kernel
/-- 9.3: civil 02:30 on the spring date fires at the change, on the autumn date at its first coming. -/
theorem test_civil_fire_spring :
    civilFire { first := 60, changes := [Season.mk (namedInstant 31 3 30 3600) 120] } (namedInstant 31 3 30 9000)
      = namedInstant 31 3 30 3600 := by decide +kernel
theorem test_civil_fire_autumn :
    civilFire { first := 120, changes := [Season.mk (namedInstant 31 10 26 3600) 60] } (namedInstant 31 10 26 9000)
      = namedInstant 31 10 26 1800 := by decide +kernel
/-- TABLE 6-4. -/
theorem test_pulse_lengths :
    [20, 60, 90, 120, 240].map pulseLength = [375000, 125000, 83333, 62500, 31250] := by decide
/-- R96: at 90 bpm 8 pulses fall due at tick 683 and 16 at tick 1366. -/
def at90 (t pulses : Nat) : Part :=
  let p := playingAt t pulses (.rest 8)
  { p with tune := { p.tune with voice := { p.tune.voice with tempo := some 90, pulse := some 83333 } } }
theorem test_due_ticks :
    (at90 682 8).voiceDue .tune = false ∧ (at90 683 8).voiceDue .tune = true
      ∧ (at90 1365 16).voiceDue .tune = false ∧ (at90 1366 16).voiceDue .tune = true := by decide +kernel
/-- TABLE 7-5. -/
def fadeOf (start target length ceiling elapsed : Nat) : Nat :=
  LampGroup.fadeLevel { LampGroup.started (LampConfig.cold 1) with
    config := { LampConfig.cold 1 with ceiling := ceiling }
    fadeStart := start, target := target, fadeLength := length, elapsed := elapsed }
theorem test_fade_up : [1, 2, 3, 4, 5, 6].map (fadeOf 200 1000 6 1000) = [333, 466, 600, 733, 866, 1000] := by decide
theorem test_fade_down : [1, 2, 3].map (fadeOf 1000 0 3 1000) = [667, 334, 0] := by decide
theorem test_fade_ceiling : [1, 2, 3, 4].map (fadeOf 0 1000 4 700) = [250, 500, 700, 700] := by decide
/-- The CRC of Part 10 over the digits 1 to 9: x¹⁶ + x¹² + x⁵ + 1, all ones first, gives 29B1 hexadecimal. -/
theorem test_crc : crc16 [0x31, 0x32, 0x33, 0x34, 0x35, 0x36, 0x37, 0x38, 0x39] = 0x29B1 := by decide +kernel
/-- TABLE 10-7: at 14 places a report is dropped, at 15 a reply is queued, at 16 a request is dropped. -/
def upHolds (n : Nat) : Part :=
  let p := console listening
  { p with line.upQ := List.replicate n (.report bellFrame) }
theorem test_up_report_dropped :
    (after (.frameReceived .field (Frame.mk 5 30 99 []).bytes) (upHolds 14)).line.upOverflow = 1
      ∧ (after (.frameReceived .field (Frame.mk 5 30 99 []).bytes) (upHolds 13)).line.upQ.length = 14 := by
  decide +kernel
/-- R141, R143: a fall of the stage with a committed load above the limit that no lamp holds releases nothing, so the
dial that waits is not offered again. -/
theorem test_no_release_no_offer :
    (let p := { locked with budget := { locked.budget with
        charges := [Charge.mk 0 (.dial 2) 900 0 none], waiting := [1] } }
     (after (.feedState 62 .low) p).budget.dialRefusals) = 0 := by decide +kernel
theorem test_up_reply_queued : (after (.claimBells 1 [1]) (upHolds 15)).line.upQ.length = 16 := by decide +kernel
/-- TABLE 10-8: after a run of 4 LOCAL takes PASS is served, and an emptied PASS returns the run to 0. -/
def fair (run : Nat) : Part :=
  { cold with line := { cold.line with
      localQ := [.dialStep 1 stepFrame, .dialStep 1 stepFrame], passQ := [.plain bellFrame, .plain bellFrame]
      localRun := run } }
theorem test_fairness :
    (after .fieldArbiterTake (fair 0)).line.localRun = 1
      ∧ (after .fieldArbiterTake (fair 3)).line.localRun = 4
      ∧ (after .fieldArbiterTake (fair 4)).line.fieldFlight = some (.plain bellFrame)
      ∧ (after .fieldArbiterTake (fair 4)).line.localRun = 0 := by decide +kernel
/-- R64 by TABLE 11-4: a ring request for a bell without a sensor is answered NOT_SWING, code 12. -/
theorem test_ring_request_answer :
    (after (.ringRequest 62 [1]) cold).line.upQ
      = [.reply { dest := 62, src := 1, kind := 71, payload := [22, 12] }] := by decide +kernel
/-- R173: a node of class NONE is answered NOT_PERMITTED, code 7. -/
theorem test_not_permitted :
    (after (.startTune 5 0 1) cold).line.upQ = [.reply { dest := 5, src := 1, kind := 71, payload := [30, 7] }] := by
  decide +kernel

end Sys2Proof.Tests
end

/-! SUPPORT. The proofs of the family of the dials (Part 2): distances, offers of a step, the completion of a DIAL_STEP,
evaluations, home reports, SET_DIAL, and the writes of a dial, a bell and the guard configuration. The facts about the
model's operations come first in each part, and the theorem that settles a statement last. -/

namespace Sys2Proof.Machine.Dials

/-! ## Distances -/

/-- R26: below a whole revolution the distance forward is the difference, taken round once where it falls below 0. -/
theorem forward_cases {P a b : Nat} (ha : a < P) (hb : b < P) :
    (b + P - a) % P = if a ≤ b then b - a else b + P - a := by
  split
  · rw [show b + P - a = b - a + P by omega, Nat.add_mod_right, Nat.mod_eq_of_lt (by omega)]
  · exact Nat.mod_eq_of_lt (by omega)

/-- R26: the distance forward is the difference of the positions modulo a revolution. -/
theorem forward_emod {P a b : Nat} (ha : a < P) : (((b + P - a) % P : Nat) : Int) = ((b : Int) - a) % P := by
  rw [Int.natCast_emod, show ((b + P - a : Nat) : Int) = (b : Int) - a + P by omega, Int.add_emod_right]

/-- Settles O20: `behind` and `ahead` are the two distances forward, and each is a difference taken round at most once. -/
theorem dialDistances : Obligations.DialDistances := by
  unfold Obligations.DialDistances
  intro x e t he ht heP htP
  have behind := forward_cases heP htP
  have ahead := forward_cases htP heP
  refine ⟨_, _, behind_eq he ht heP, ahead_eq he ht htP, forward_emod heP, forward_emod htP,
    Nat.mod_lt _ (by omega), Nat.mod_lt _ (by omega), ?_, fun hne => ?_⟩
  · rw [behind, ahead]
    split <;> split <;> omega
  · rw [behind, ahead]
    split <;> split <;> omega

/-! ## Offers of a step -/

section Offers

variable {p q : Part} {d : Nat}

/-- R29: LOCAL takes the step while it has room. -/
theorem offerStep_taken {x : Dial} (hx : x = p.dial d) (h : x.outstanding = false)
    (hl : p.line.localQ.length < 24) :
    offerStep d p = ({ p with line.localQ := p.line.localQ ++ [LocalItem.dialStep d
        { dest := x.config.node, src := p.mgmt.address, kind := 23, payload := [byte x.config.channel, 1] }] }).putDial d
      { x with outstanding := true, lastOffer := some p.osc } := by
  subst hx
  simp [offerStep, h, Config.localPlaces, hl, dialFrame, kindDialStep]

/-- R28, R29: a step that finds LOCAL full is deferred and counted. -/
theorem offerStep_deferred {x : Dial} (hx : x = p.dial d) (h : x.outstanding = false)
    (hl : 24 ≤ p.line.localQ.length) :
    offerStep d p = p.putDial d { x with deferred := bump x.deferred, lastOffer := some p.osc } := by
  subst hx
  simp [offerStep, h, Config.localPlaces, Nat.not_lt.mpr hl]

/-- R31, R32, R36: when dial d has a fast instant. -/
theorem fastInstant_iff {x : Dial} (hx : x = p.dial d) :
    p.fastInstant d = true ↔ (x.state = .advancing ∨ (x.state = .unknown ∧ p.budget.dialHolds d = true))
      ∧ x.outstanding = false ∧ ∀ t, x.lastOffer = some t → t + 61440 / x.config.fastRate ≤ p.osc := by
  subst hx
  change _ ↔ _ ∧ _ ∧ ∀ t, (p.dial d).lastOffer = some t → t + fastInterval (p.dial d).config.fastRate ≤ p.osc
  simp [Part.fastInstant, Option.all_eq_true, and_assoc]

theorem exec_dialFastInstant (w : List Instr) (hs : p.retention.supply = true) :
    exec (.dialFastInstant d) ⟨p, w⟩ = .next ⟨if p.fastInstant d then offerStep d p else p, w⟩ := by
  simp [exec, execDialFastInstant, hs, fastPart]

end Offers

/-- Settles O21, by what a fast instant is and what an offer of a step does. -/
theorem fastInstantOffersStep : Obligations.FastInstantOffersStep := by
  unfold Obligations.FastInstantOffersStep
  intro p w d x hs hx
  rw [exec_dialFastInstant w hs]
  refine ⟨fun h => ?_, fun hrun hout hdue => ?_⟩
  · have no : ¬ p.fastInstant d = true := fun k => by
      obtain ⟨hrun, hout, hdue⟩ := (fastInstant_iff hx).mp k
      rcases h with h | h | ⟨t, ht, hlt⟩
      · exact h hrun
      · exact absurd hout (by simp [h])
      · exact absurd (hdue t ht) (Nat.not_le.mpr hlt)
    rw [if_neg no]
  · rw [if_pos ((fastInstant_iff hx).mpr ⟨hrun, hout, hdue⟩)]
    exact ⟨fun hl => by rw [offerStep_taken hx hout hl], fun hl => by rw [offerStep_deferred hx hout hl]⟩

/-! ## A dial record written twice, or as it stands -/

theorem bankPut1_bankPut1 {α : Type} {n : Nat} (v : Vector α n) (i : Nat) (x y : α) :
    bankPut1 (bankPut1 v i x) i y = bankPut1 v i y := by
  unfold bankPut1 bankPut
  split
  · rfl
  · exact Vector.setIfInBounds_setIfInBounds _

theorem bankPut1_bankGet1 {α : Type} {n : Nat} (v : Vector α n) (i : Nat) (d : α) :
    bankPut1 v i (bankGet1 v i d) = v := by
  unfold bankPut1 bankGet1 bankPut bankGet
  split
  · rfl
  · refine Vector.ext fun j hj => ?_
    by_cases h : i - 1 = j
    · subst h
      simp [hj]
    · simp [h]

@[simp] theorem putDial_putDial (p : Part) (d : Nat) (x y : Dial) : (p.putDial d x).putDial d y = p.putDial d y := by
  simp [Part.putDial, bankPut1_bankPut1]

@[simp] theorem putDial_dial (p : Part) (d : Nat) : p.putDial d (p.dial d) = p := by
  simp [Part.putDial, Part.dial, bankPut1_bankGet1]

/-! ## What the driving of a dial leaves of its record -/

/-- A dial record that has at most been driven: all stands but its state, the step offered and the count of the
deferred, and a driven dial is still driven. -/
def Steered (x y : Dial) : Prop :=
  y = { x with
    state := y.state, outstanding := y.outstanding, deferred := y.deferred, lastOffer := y.lastOffer }
  ∧ (x.state.driven → y.state.driven)

/-- Every dial has at most been driven. -/
def Steers (p q : Part) : Prop := ∀ k, Steered (p.dial k) (q.dial k)

section Steering

variable {p q r : Part}

theorem steered_refl (x : Dial) : Steered x x := ⟨rfl, id⟩

theorem steered_trans {x y z : Dial} (h : Steered x y) (k : Steered y z) : Steered x z :=
  ⟨by rw [k.1, h.1], fun hx => k.2 (h.2 hx)⟩

theorem steers_refl (p : Part) : Steers p p := fun _ => steered_refl _

theorem steers_trans (h : Steers p q) (k : Steers q r) : Steers p r := fun e => steered_trans (h e) (k e)

theorem steers_of_eq (h : q.dialDriver = p.dialDriver) : Steers p q := fun e => by
  rw [dial_congr h e]; exact steered_refl _

theorem steers_putDial {e : Nat} {x : Dial} (h : Steered (q.dial e) x) : Steers q (q.putDial e x) := by
  intro k
  by_cases hk : k = e
  · subst hk
    by_cases hr : 1 ≤ k ∧ k ≤ 4
    · rwa [dial_putDial_self _ _ _ hr]
    · simpa [Part.dial, Part.putDial, bankPut1_outside _ _ _ hr] using steered_refl _
  · rw [dial_putDial_ne _ _ _ _ hk]; exact steered_refl _

theorem steers_offerStep (e : Nat) (q : Part) : Steers q (offerStep e q) := by
  unfold offerStep
  dsimp only
  (repeat' split)
  · exact steers_refl q
  · exact steers_trans (steers_of_eq rfl) (steers_putDial ⟨rfl, id⟩)
  · exact steers_putDial ⟨rfl, id⟩

theorem steers_dialGranted (e : Nat) (q : Part) : Steers q (dialGranted e q) := by
  unfold dialGranted
  refine steers_trans ?_ (steers_offerStep _ _)
  split
  · exact steers_refl q
  · exact steers_putDial ⟨rfl, fun _ => .inr (.inl rfl)⟩

theorem steers_reofferOne (acc : Part × Bool) (e : Nat) : Steers acc.1 (reofferOne acc e).1 := by
  unfold reofferOne
  dsimp only
  split
  · rename_i hg
    refine steers_trans ?_ (steers_dialGranted _ _)
    exact steers_of_eq (tryGrant_own hg).1
  · exact steers_of_eq rfl

theorem steers_reoffer (k : Nat) (q : Part) : Steers q (reoffer k q) := by
  have round : ∀ (l : List Nat) (acc : Part × Bool), Steers acc.1 (l.foldl reofferOne acc).1 := by
    intro l
    induction l with
    | nil => exact fun acc => steers_refl _
    | cons e l ih => exact fun acc => steers_trans (steers_reofferOne acc e) (ih _)
  induction k generalizing q with
  | zero => exact steers_refl q
  | succ k ih =>
    unfold reoffer
    dsimp only
    split
    · exact steers_trans (round _ (q, false)) (ih _)
    · exact round _ (q, false)

theorem steers_afterRelease (q : Part) : Steers q (afterRelease q) :=
  steers_trans (steers_reoffer 5 q) (steers_of_eq rfl)

theorem steers_afterGrant (b : Bool) (q : Part) : Steers q (afterGrant b q) := by
  unfold afterGrant
  split
  · exact steers_afterRelease q
  · exact steers_of_eq rfl

theorem steers_releaseDial (e : Nat) (q : Part) : Steers q (releaseDial e q) := by
  unfold releaseDial
  split
  · exact steers_trans (steers_of_eq rfl) (steers_afterRelease _)
  · exact steers_refl q

theorem steers_restDial {e : Nat} {st : DialState} (h : st.driven) (q : Part) : Steers q (restDial e st q) := by
  unfold restDial
  refine steers_trans (q := q.putDial e { q.dial e with state := st }) (steers_putDial ⟨rfl, fun _ => h⟩) ?_
  exact steers_trans (steers_of_eq rfl) (steers_releaseDial e _)

theorem steers_askDrive (e : Nat) (q : Part) : Steers q (askDrive e q) := by
  unfold askDrive
  dsimp only
  split
  · rename_i hg
    refine steers_trans ?_ (steers_afterGrant _ _)
    refine steers_trans ?_ (steers_dialGranted _ _)
    exact steers_of_eq (tryGrant_own hg).1
  · refine steers_trans (steers_of_eq rfl) (steers_putDial ⟨rfl, fun h => ?_⟩)
    have hu : (q.dial e).state ≠ .unknown := by
      rintro hu
      change (q.dial e).state.driven at h
      simp [DialState.driven, hu] at h
    simp [hu, DialState.driven]

/-- R27: an evaluation drives the dials, and does no more to any record. -/
theorem steers_evaluateDial (e : Nat) (q : Part) : Steers q (evaluateDial e q) := by
  have inStep : DialState.driven .inStep := .inl rfl
  have holding : DialState.driven .holding := .inr (.inr (.inr rfl))
  unfold evaluateDial
  dsimp only
  (repeat' split)
  · exact steers_restDial inStep q
  · exact steers_refl q
  · exact steers_trans (steers_restDial inStep q) (steers_offerStep _ _)
  · exact steers_restDial holding q
  · exact steers_refl q
  · exact steers_askDrive e q
  · exact steers_refl q
  · exact steers_refl q

end Steering

/-! ## The completion of a DIAL_STEP -/

/-- R35: the completion that comes is the second of an open home watch, of a dial that does not stand. -/
abbrev MissesHome (x : Dial) : Prop :=
  x.homeWatch.any (fun k => 0 < k) = true ∧ (x.state = .inStep ∨ x.state = .advancing ∨ x.state = .unknown)

/-- R35: the misses of a dial after the completion, counted on without end. -/
def missesAfter (x : Dial) : Nat := if MissesHome x then x.misses + 1 else x.misses

/-- R30, R35: the record of a dial whose DIAL_STEP has completed, short of a third miss. -/
def stepDone (x : Dial) : Dial :=
  { x with
    outstanding := false
    stepsSent := bump x.stepsSent
    misses := missesAfter x
    indicated := x.indicated.map (fun i => (i + 1) % x.positions)
    homeWatch := if x.indicated.map (fun i => (i + 1) % x.positions) = some 0 then some 0
      else if x.homeWatch = some 0 then some 1 else none }

/-- R30: the hands move, with the watch as the completion has left it. -/
theorem moveHands_eq (x : Dial) (m : Nat) :
    moveHands { x with
      outstanding := false, stepsSent := bump x.stepsSent, misses := m
      homeWatch := if x.homeWatch = some 0 then some 1 else none } = { stepDone x with misses := m } := by
  unfold moveHands stepDone
  cases x.indicated with
  | none => simp
  | some i => by_cases h : (i + 1) % positionsOf x.config.stepPeriod = 0 <;> simp [Dial.positions, h]

section Completion

variable {p q r : Part} {d : Nat} {x : Dial}

theorem stands_iff : x.stands = false ↔ x.state = .inStep ∨ x.state = .advancing ∨ x.state = .unknown := by
  unfold Dial.stands
  cases x.state <;> simp

/-- R35: a completion that is no miss counts an open watch on, or closes it. -/
theorem watchStep_noMiss (hx : x = r.dial d) (h : ¬ MissesHome x) :
    watchStep d r = r.putDial d { x with homeWatch := if x.homeWatch = some 0 then some 1 else none } := by
  unfold watchStep
  dsimp only
  rw [← hx]
  split
  next hw =>
    have same : { x with homeWatch := none } = x := by rw [← hw]
    rw [if_neg (by simp [hw]), same, hx, putDial_dial]
  next k hw =>
    by_cases hk : k = 0
    · simp [hw, hk]
    · have hs : x.stands = true := by
        by_contra n
        exact h ⟨by simp [hw]; omega, stands_iff.mp (by simpa using n)⟩
      simp [hw, hk, hs]

/-- R35: a miss closes the watch. -/
theorem watchStep_miss (hx : x = r.dial d) (h : MissesHome x) :
    watchStep d r = missHome d (r.putDial d { x with homeWatch := none }) := by
  obtain ⟨hw, hs⟩ := h
  unfold watchStep
  dsimp only
  rw [← hx]
  split
  next hn => simp [hn] at hw
  next k hk =>
    have : k ≠ 0 := by simp [hk] at hw; omega
    simp [this, stands_iff.mpr hs]

/-- R35, R36: a miss short of the third is counted. -/
theorem missHome_counts (hd : 1 ≤ d ∧ d ≤ 4) (h : x.misses < 2) :
    missHome d (r.putDial d x) = r.putDial d { x with misses := x.misses + 1 } := by
  unfold missHome
  simp only [dial_putDial_self _ _ _ hd, putDial_putDial, if_neg (Nat.not_le.mpr h)]
  rw [Nat.min_eq_left (by omega)]

/-- R35, R36: the third miss in a row takes the dial to FAULT. -/
theorem missHome_third (hd : 1 ≤ d ∧ d ≤ 4) (h : 2 ≤ x.misses) :
    missHome d (r.putDial d x) = faultDial d (r.putDial d { x with misses := 3 }) := by
  unfold missHome
  simp only [dial_putDial_self _ _ _ hd, putDial_putDial, if_pos h]
  rw [Nat.min_eq_right (by omega)]

/-- R30: short of a third miss by the watch, a completed step moves the hands; the dial that searches counts it, and any
other is evaluated. -/
theorem dialStepDone_short (hd : 1 ≤ d ∧ d ≤ 4) (hx : x = r.dial d) (hs : MissesHome x → x.misses < 2) :
    dialStepDone d r = if x.state = .unknown then searchStep d (r.putDial d (stepDone x))
      else evaluateDial d (r.putDial d (stepDone x)) := by
  have watched : watchStep d r =
      r.putDial d { x with misses := missesAfter x, homeWatch := if x.homeWatch = some 0 then some 1 else none } := by
    by_cases h : MissesHome x
    · have hw : x.homeWatch ≠ some 0 := fun hw => by simp [MissesHome, hw] at h
      rw [watchStep_miss hx h, missHome_counts (x := { x with homeWatch := none }) hd (hs h), missesAfter, if_pos h,
        if_neg hw]
    · rw [watchStep_noMiss hx h, missesAfter, if_neg h]
  unfold dialStepDone
  simp only [watched, dial_putDial_self _ _ _ hd, putDial_putDial]
  rw [moveHands_eq]
  rfl

/-- R36: a dial that searches counts the step. -/
theorem searchStep_counts (hd : 1 ≤ d ∧ d ≤ 4) (h : x.searchCount + 1 < x.positions) :
    searchStep d (r.putDial d x) = r.putDial d { x with searchCount := x.searchCount + 1 } := by
  unfold searchStep
  simp only [dial_putDial_self _ _ _ hd, putDial_putDial, if_pos h]

/-- R36: a whole revolution without a report is a miss. -/
theorem searchStep_miss (hd : 1 ≤ d ∧ d ≤ 4) (h : x.positions ≤ x.searchCount + 1) :
    searchStep d (r.putDial d x) = missHome d (r.putDial d { x with searchCount := 0 }) := by
  unfold searchStep
  simp only [dial_putDial_self _ _ _ hd, putDial_putDial, if_neg (Nat.not_lt.mpr h)]

theorem dialStepDone_counts (hd : 1 ≤ d ∧ d ≤ 4) (hx : x = r.dial d)
    (hs : MissesHome x → x.misses < 2) (hu : x.state = .unknown) (h : x.searchCount + 1 < x.positions) :
    dialStepDone d r = r.putDial d { stepDone x with searchCount := x.searchCount + 1 } := by
  rw [dialStepDone_short hd hx hs, if_pos hu, searchStep_counts (x := stepDone x) hd h]
  rfl

theorem dialStepDone_revolution (hd : 1 ≤ d ∧ d ≤ 4) (hx : x = r.dial d)
    (hs : MissesHome x → x.misses < 2) (hu : x.state = .unknown) (h : x.positions ≤ x.searchCount + 1) :
    dialStepDone d r = missHome d (r.putDial d { stepDone x with searchCount := 0 }) := by
  rw [dialStepDone_short hd hx hs, if_pos hu, searchStep_miss (x := stepDone x) hd h]

/-! ## FAULT -/

/-- From `p` to `q` dial d, whose record is otherwise `x`, has gone to FAULT, and DIAL_FAULT is raised (R35, R36). -/
structure Faulted (d : Nat) (x : Dial) (p q : Part) : Prop where
  dial : q.dial d = { x with misses := 3, state := .fault, faultRaised := true }
  uncharged : q.budget.dialHolds d = false
  unasked : d ∉ q.budget.waiting
  tally : q.mgmt.tally.dialFault = bump p.mgmt.tally.dialFault
  same : p.sameBut q [.dialDriver, .lamps, .budget, .locals, .up, .faults]

theorem faultDial_tally (d : Nat) (q : Part) :
    (faultDial d q).mgmt.tally.dialFault = bump q.mgmt.tally.dialFault := by
  have rest : q.sameBut (restDial d .fault q) [.dialDriver, .lamps, .budget, .locals] := by simp
  have faults : (restDial d .fault q).mgmt.tally = q.mgmt.tally := (rest .faults (by decide)).2.1
  have notice : ∀ (k : FaultKind) (l : List Byte) (s : Part), (noticeFault k l s).mgmt = s.mgmt := fun k l s => by
    unfold noticeFault sendNotice offerNotice
    split <;> rfl
  simp [faultDial, raiseMinor, notice, Tally.raise, faults]

/-- R35, R36: the third miss. -/
theorem missHome_faulted (hd : 1 ≤ d ∧ d ≤ 4) (hc : r.budget.waiting.count d ≤ 1) (h : 2 ≤ x.misses) :
    Faulted d x r (missHome d (r.putDial d x)) := by
  rw [missHome_third hd h]
  obtain ⟨dial, unasked, uncharged⟩ := faultDial_own (q := r.putDial d { x with misses := 3 }) hd hc
  exact ⟨by rw [dial, dial_putDial_self _ _ _ hd], uncharged, unasked, faultDial_tally _ _, by simp⟩

/-- A dial in FAULT that is given another record, still in FAULT. -/
theorem faulted_putDial {y : Dial} (hd : 1 ≤ d ∧ d ≤ 4) (h : Faulted d x r q) :
    Faulted d y r (q.putDial d { y with misses := 3, state := .fault, faultRaised := true }) :=
  ⟨dial_putDial_self _ _ _ hd, h.uncharged, h.unasked, h.tally, same_putDial h.same (by decide)⟩

/-- R35: the third miss in a row by the watch takes the dial to FAULT ahead of its evaluation. -/
theorem dialStepDone_third (hd : 1 ≤ d ∧ d ≤ 4) (hx : x = r.dial d) (hc : r.budget.waiting.count d ≤ 1)
    (hw : MissesHome x) (h : 2 ≤ x.misses) : Faulted d (stepDone x) r (dialStepDone d r) := by
  have f := missHome_faulted (x := { x with homeWatch := none }) hd hc h
  have hn : x.homeWatch ≠ some 0 := fun hn => by simp [MissesHome, hn] at hw
  have moved : moveHands { x with
      outstanding := false, stepsSent := bump x.stepsSent, misses := 3, homeWatch := none, state := .fault
      faultRaised := true } = { stepDone x with misses := 3, state := .fault, faultRaised := true } := by
    have k := moveHands_eq { x with state := .fault, faultRaised := true } 3
    rw [if_neg hn] at k
    exact k
  unfold dialStepDone
  simp only [watchStep_miss hx hw, f.dial, if_neg (by decide : DialState.fault ≠ .unknown), moved]
  have k := faulted_putDial (y := stepDone x) hd f
  rw [evaluateDial_undriven (by rw [k.dial]; exact .inr (.inr rfl))]
  exact k

/-- R36: the third miss in a row by a search takes the dial to FAULT. -/
theorem dialStepDone_lost (hd : 1 ≤ d ∧ d ≤ 4) (hx : x = r.dial d)
    (hs : MissesHome x → x.misses < 2) (hu : x.state = .unknown) (h : x.positions ≤ x.searchCount + 1)
    (hc : r.budget.waiting.count d ≤ 1) (h3 : 2 ≤ missesAfter x) :
    Faulted d { stepDone x with searchCount := 0 } r (dialStepDone d r) := by
  rw [dialStepDone_revolution hd hx hs hu h]
  exact missHome_faulted hd hc h3

/-! ## The command -/

theorem exec_dialStepCompletion {f : Frame} (w : List Instr) (hs : p.retention.supply = true)
    (hf : p.line.fieldFlight = some (.dialStep d f)) :
    exec .dialStepCompletion ⟨p, w⟩ = .next ⟨dialStepDone d (fieldCompletes p), w⟩ := by
  simp [exec, execDialStepCompletion, hs, dialCompletionPart, hf]

end Completion

theorem count_le_one {l : List Nat} (h : l.Nodup) (d : Nat) : l.count d ≤ 1 := List.nodup_iff_count_le_one.mp h d

/-- Settles O22: the completion is `dialStepDone` with the transmitter free, taken apart by whether the watch misses and
whether that is the third miss; what is short of a fault is evaluated, which only drives the dial. -/
theorem dialStepCompletes : Obligations.DialStepCompletes := by
  unfold Obligations.DialStepCompletes
  intro p w d m f x z r hs h1 h4 hf hx hm hz hr
  have hd : 1 ≤ d ∧ d ≤ 4 := ⟨h1, h4⟩
  have hxr : x = r.dial d := by rw [hx, hr]; rfl
  have hm : m = missesAfter x := hm
  have hz : z = stepDone x := by rw [hz, hm]; rfl
  have wait : p.budget.waiting.Nodup → r.budget.waiting.count d ≤ 1 := fun h => by rw [hr]; exact count_le_one h d
  have tally : r.mgmt.tally = p.mgmt.tally := by rw [hr]
  rw [exec_dialStepCompletion w hs hf, show fieldCompletes p = r from hr.symm, hz]
  refine ⟨fun hst => ?_, fun hw h2 hn hst => ?_, fun hst hle => ?_, fun hu hsh hcount => ?_, fun hu hlt hrev => ?_,
    fun hu hsh h2 hrev hn => ?_⟩
  · have no : ¬ MissesHome x := fun h => by rcases hst with hst | hst <;> simp [MissesHome, hst] at h
    have und : (x.state).undriven := hst.elim .inl fun h => .inr (.inr h)
    rw [dialStepDone_short hd hxr fun h => absurd h no, if_neg (by rcases hst with hst | hst <;> simp [hst]),
      evaluateDial_undriven (by rw [dial_putDial_self _ _ _ hd]; exact und)]
  · have k := dialStepDone_third hd hxr (wait hn) ⟨hw, hst⟩ h2
    exact ⟨_, rfl, k.dial, k.uncharged, k.unasked, tally ▸ k.tally, k.same⟩
  · have short : MissesHome x → x.misses < 2 := fun h => by rw [missesAfter, if_pos h] at hm; omega
    have hu : x.state ≠ .unknown := by rcases hst with h | h | h | h <;> simp [h]
    rw [dialStepDone_short hd hxr short, if_neg hu]
    obtain ⟨kept, driven⟩ := steers_evaluateDial d (r.putDial d (stepDone x)) d
    rw [dial_putDial_self _ _ _ hd] at kept driven
    refine ⟨_, rfl, by rw [kept, hm]; rfl, by rw [kept], by rw [kept], by rw [kept], fun hf => ?_, by simp⟩
    have := driven hst
    simp [DialState.driven, hf] at this
  · rw [dialStepDone_counts hd hxr (fun h => hsh h.1) hu hcount]
  · have short : MissesHome x → x.misses < 2 := fun h => by rw [missesAfter, if_pos h] at hm; omega
    rw [dialStepDone_revolution hd hxr short hu hrev,
      missHome_counts (x := { stepDone x with searchCount := 0 }) hd
        (show missesAfter x < 2 from hm ▸ hlt), hm]
    rfl
  · have k := dialStepDone_lost hd hxr (fun h => hsh h.1) hu hrev (wait hn) (hm ▸ h2)
    exact ⟨_, rfl, k.dial, k.uncharged, tally ▸ k.tally, k.same⟩

/-! ## Evaluations made exact -/

section Evaluations

variable {p q : Part} {d : Nat} {x : Dial}

/-- R27, R140: a dial without a charge comes to stand: its state is changed and it leaves the waiting list. -/
theorem restDial_uncharged {st : DialState} (hd : 1 ≤ d ∧ d ≤ 4) (hh : p.budget.dialHolds d = false) :
    restDial d st (p.putDial d x)
      = ({ p with budget.waiting := p.budget.waiting.erase d }).putDial d { x with state := st } := by
  unfold restDial releaseDial
  rw [if_neg (by simpa [stopWaiting, FeedBudget.dialHolds] using hh), dial_putDial_self _ _ _ hd, putDial_putDial]
  rfl

/-- R27: one behind, a dial that neither runs fast nor holds a charge comes to stand and offers a step. -/
theorem evaluateDial_oneBehind (hd : 1 ≤ d ∧ d ≤ 4) (hs : x.state.driven) (ha : x.state ≠ .advancing)
    (hb : x.behind = some 1) (hh : p.budget.dialHolds d = false) :
    evaluateDial d (p.putDial d x)
      = offerStep d (({ p with budget.waiting := p.budget.waiting.erase d }).putDial d { x with state := .inStep }) := by
  have targeted : x.ahead.isSome = true := by
    revert hb
    unfold Dial.behind Dial.ahead
    split <;> simp
  obtain ⟨a, hahead⟩ := Option.isSome_iff_exists.mp targeted
  unfold evaluateDial
  dsimp only
  rw [dial_putDial_self _ _ _ hd,
    if_pos (show x.state = .inStep ∨ x.state = .advancing ∨ x.state = .waitingFeed ∨ x.state = .holding from hs), hb,
    hahead]
  simp only [Nat.one_ne_zero, if_false, if_true, if_neg ha]
  rw [restDial_uncharged hd hh]

/-- A dial whose record has just been put offers a step that LOCAL takes. -/
theorem offerStep_putDial_taken (hd : 1 ≤ d ∧ d ≤ 4) (h : x.outstanding = false) (hl : p.line.localQ.length < 24) :
    offerStep d (p.putDial d x) = ({ p with line.localQ := p.line.localQ ++ [LocalItem.dialStep d
        { dest := x.config.node, src := p.mgmt.address, kind := 23, payload := [byte x.config.channel, 1] }] }).putDial d
      { x with outstanding := true, lastOffer := some p.osc } :=
  (offerStep_taken (dial_putDial_self p d x hd).symm h hl).trans
    (putDial_putDial { p with line.localQ := p.line.localQ ++ [_] } d x _)

/-- A dial whose record has just been put has its step deferred. -/
theorem offerStep_putDial_deferred (hd : 1 ≤ d ∧ d ≤ 4) (h : x.outstanding = false)
    (hl : 24 ≤ p.line.localQ.length) :
    offerStep d (p.putDial d x) = p.putDial d { x with deferred := bump x.deferred, lastOffer := some p.osc } :=
  (offerStep_deferred (dial_putDial_self p d x hd).symm h hl).trans (putDial_putDial p d x _)

/-- R33, R140: a dial that is refused its charge waits for it at the back of the list. -/
theorem askDrive_putDial_refused (hd : 1 ≤ d ∧ d ≤ 4) (hr : p.budget.decide x.config.driveCharge = .refuse)
    (hw : d ∉ p.budget.waiting) (hu : x.state ≠ .unknown) :
    askDrive d (p.putDial d x) = ({ p with
      budget.waiting := p.budget.waiting ++ [d]
      budget.dialRefusals := bump p.budget.dialRefusals }).putDial d { x with state := .waitingFeed } := by
  have none : tryGrant (.dial d) x.config.driveCharge (p.putDial d x) = none := by simp [tryGrant, hr]
  unfold askDrive
  dsimp only
  rw [dial_putDial_self _ _ _ hd, none]
  simp only [putDial_budget, List.contains_iff_mem, hw, hu, if_false]
  exact putDial_putDial { p with
      budget.waiting := p.budget.waiting ++ [d], budget.dialRefusals := bump p.budget.dialRefusals } d x _

/-- R137: what is not refused is granted. -/
theorem tryGrant_granted {h : Holder} {a : Nat} (hr : p.budget.decide a ≠ .refuse) :
    ∃ r, tryGrant h a p = some r := by
  unfold tryGrant
  split
  next k => exact absurd k hr
  · exact ⟨_, rfl⟩
  · exact ⟨_, rfl⟩

/-- R140: a dial that is granted its charge waits no more. -/
theorem askDrive_granted (hd : 1 ≤ d ∧ d ≤ 4) (hc : p.budget.waiting.count d ≤ 1)
    (hr : p.budget.decide (p.dial d).config.driveCharge ≠ .refuse) : d ∉ (askDrive d p).budget.waiting := by
  obtain ⟨r, hg⟩ := tryGrant_granted (h := .dial d) hr
  obtain ⟨_, waiting, _⟩ := tryGrant_own hg
  unfold askDrive
  dsimp only
  rw [hg]
  refine (keeps_afterGrant (Keeps.refl d _) hd ?_).calm ?_ |>.2.1
  all_goals
    have out : (r.1.budget.waiting.erase d).count d = 0 := by rw [List.count_erase_self, waiting]; omega
    rw [(dialGranted_own hd).2.1]
  · exact Nat.le_of_eq (out.trans rfl) |>.trans (Nat.zero_le 1)
  · exact List.count_eq_zero.mp out

/-- A dial that has been offered a step is in the state it was left in. -/
theorem state_of_stepOffered (h : p.stepOffered q d x) : (q.dial d).state = x.state := by
  obtain ⟨out, free⟩ := h
  cases ho : x.outstanding with
  | true => rw [out ho]
  | false =>
    rcases free ho with ⟨_, k, _⟩ | ⟨_, k⟩ <;> rw [k]

/-- R32: a dial that is granted the charge it asks for runs fast with it. -/
theorem askDrive_runs (hd : 1 ≤ d ∧ d ≤ 4) (hc : p.budget.waiting.count d ≤ 1)
    (hr : p.budget.decide (p.dial d).config.driveCharge ≠ .refuse) (hu : (p.dial d).state ≠ .unknown) :
    ((askDrive d p).dial d).state = .advancing ∧ (askDrive d p).budget.dialHolds d = true := by
  rcases (askDrive_own (q := p) hd hc).2 with ⟨_, holds, offered⟩ | ⟨waits, _⟩
  · exact ⟨by rw [state_of_stepOffered offered]; simp [DialState.onGrant, hu], holds⟩
  · exact absurd (List.one_le_count_iff.mp (by omega)) (askDrive_granted hd hc hr)

end Evaluations

/-- Settles O23: a completion short of a third miss evaluates the dial with its hands moved, and each case is a branch of
the evaluation. -/
theorem dialEvaluation : Obligations.DialEvaluation := by
  unfold Obligations.DialEvaluation
  intro p w d i t j m bh ah f x z r hs h1 h4 hf hx hm hle hi ht htP hn hj hbh hah hz hr
  have hd : 1 ≤ d ∧ d ≤ 4 := ⟨h1, h4⟩
  have hjP : j < x.positions := by rw [hj]; exact Nat.mod_lt _ (by omega)
  have hc : (r.putDial d z).budget.waiting.count d ≤ 1 := by
    rw [hr]; exact count_le_one hn d
  have own : (r.putDial d z).dial d = z := dial_putDial_self _ _ _ hd
  have evaluated : x.state.driven → exec .dialStepCompletion ⟨p, w⟩ = .next ⟨evaluateDial d (r.putDial d z), w⟩ := by
    intro driven
    have hu : x.state ≠ .unknown := fun hu => by simp [DialState.driven, hu] at driven
    have hm : m = missesAfter x := by
      rw [hm]
      refine if_congr ?_ rfl rfl
      simp [MissesHome, hu]
    have done : z = stepDone x := by
      rw [hz]
      simp only [stepDone, hi, Option.map_some, ← hj, Option.some.injEq, hm]
    have short : MissesHome x → x.misses < 2 := fun h => by rw [missesAfter, if_pos h] at hm; omega
    have hxr : x = r.dial d := by rw [hx, hr]; rfl
    rw [exec_dialStepCompletion w hs hf, show fieldCompletes p = r from hr.symm,
      dialStepDone_short hd hxr short, if_neg hu, ← done]
  have zs : z.state = x.state := by rw [hz]
  have ze : z.effective = some j := by rw [hz]; rfl
  have zt : z.target = some t := by rw [hz]; exact ht
  have zP : z.positions = x.positions := by rw [hz]; rfl
  have zc : z.config = x.config := by rw [hz]
  have cases (driven : x.state.driven) := evaluateDial_own (bh := bh) (ah := ah) hd hc own.symm (zs ▸ driven) ze zt
    (zP ▸ hjP) (zP ▸ htP) (zP ▸ hbh) (zP ▸ hah)
  have same : r.sameBut (evaluateDial d (r.putDial d z)) [.dialDriver, .lamps, .budget, .locals] := by simp
  refine ⟨fun hst hb => ?_, fun hb => ?_, fun hst hh hb => ?_, fun hst hh hw h2 hl => ?_⟩
  · obtain ⟨_, rest, _⟩ := cases hst
    obtain ⟨dial, uncharged, unasked⟩ := rest (zc ▸ hb)
    exact ⟨_, evaluated hst, dial, uncharged, unasked, same⟩
  · rcases hb with ⟨ha, hb⟩ | ⟨hwf, h2, hl⟩
    · have driven : x.state.driven := .inr (.inl ha)
      obtain ⟨_, _, _, runs, _⟩ := cases driven
      rw [evaluated driven, runs (zs.trans ha) (zc ▸ hb)]
    · have driven : x.state.driven := .inr (.inr (.inl hwf))
      obtain ⟨_, _, _, _, waits, _⟩ := cases driven
      rw [evaluated driven, waits (zs.trans hwf) h2 (zc ▸ hl)]
  · have driven : x.state.driven := by rcases hst with h | h | h <;> simp [DialState.driven, h]
    have ha : z.state ≠ .advancing := by rw [zs]; rcases hst with h | h | h <;> simp [h]
    have behind : z.behind = some 1 := by rw [behind_eq ze zt (zP ▸ hjP), zP, ← hbh, hb]
    have free : ({ z with state := DialState.inStep } : Dial).outstanding = false := by rw [hz]
    rw [evaluated driven, evaluateDial_oneBehind hd (zs ▸ driven) ha behind (by rw [hr]; exact hh)]
    refine ⟨fun hl => ?_, fun hl => ?_⟩
    · rw [offerStep_putDial_taken hd free (by rw [hr]; exact hl)]
      subst hr hz
      rfl
    · rw [offerStep_putDial_deferred hd free (by rw [hr]; exact hl)]
      subst hr hz
      rfl
  · have driven : x.state.driven := by rcases hst with h | h <;> simp [DialState.driven, h]
    have hu : z.state ≠ .unknown := by rw [zs]; rcases hst with h | h <;> simp [h]
    obtain ⟨_, _, _, _, _, asks⟩ := cases driven
    have asked := asks (zs ▸ hst) h2 (zc ▸ hl)
    rw [evaluated driven, asked]
    rw [asked] at same
    refine ⟨fun hrefuse => ?_, fun hgrant => ?_⟩
    · rw [askDrive_putDial_refused hd (by rw [zc, hr]; exact hrefuse) (by rw [hr]; exact hw) hu]
      subst hr
      rfl
    · obtain ⟨runs, charged⟩ := askDrive_runs hd hc (by rw [own, zc, hr]; exact hgrant) (own.symm ▸ hu)
      have kept := (steers_askDrive d (r.putDial d z) d).1
      refine ⟨_, rfl, runs, ?_, charged, same⟩
      rw [kept, own, hz]

/-! ## Home reports -/

section Home

variable {p q r : Part} {d : Nat} {x : Dial}

theorem exec_dialHome {src channel : Nat} {m : Option Nat} (w : List Instr) (hs : p.retention.supply = true)
    (hm : p.homeFrom src channel m) :
    exec (.dialHome src channel) ⟨p, w⟩ = .next ⟨dialHomePart m (takeCopy (.dialHome src channel) p), w⟩ := by
  simp [exec, execDialHome, hs, homeDialOf_eq_iff.mpr hm]

/-- A dial whose record has just been put and which is then evaluated has been driven from that record. -/
theorem steered_evaluateDial (hx : q.dial d = x) : Steered x ((evaluateDial d q).dial d) :=
  hx ▸ steers_evaluateDial d q d

/-- R34: a home report at position 0 confirms it. -/
theorem homeReported_confirms (hx : x = r.dial d) (hi : x.indicated = some 0) :
    homeReported d r = r.putDial d { x with
      homeWatch := none, misses := 0, faultRaised := false, indicated := some 0
      confirmations := bump x.confirmations } := by
  unfold homeReported
  simp only [← hx, hi]

/-- R34: a home report at another position is a slip, and the dial is evaluated with its hands at 0. -/
theorem homeReported_slips {i : Nat} (hx : x = r.dial d) (hi : x.indicated = some i) (h0 : 0 < i) :
    homeReported d r = evaluateDial d (r.putDial d { x with
      homeWatch := none, misses := 0, faultRaised := false, indicated := some 0, slips := bump x.slips
      lastSlip := if i ≤ x.positions / 2 then (i : Int) else (i : Int) - x.positions }) := by
  obtain ⟨k, rfl⟩ := Nat.exists_eq_succ_of_ne_zero (Nat.ne_of_gt h0)
  unfold homeReported
  simp only [← hx, hi]
  rfl

/-- R34: without a position, a dial that neither searches nor is driven takes position 0. -/
theorem homeReported_placed (hx : x = r.dial d) (hi : x.indicated = none) (hs : x.state ≠ .unknown) :
    homeReported d r = r.putDial d { x with
      homeWatch := none, misses := 0, faultRaised := false, indicated := some 0, searchCount := 0 } := by
  unfold homeReported
  simp only [← hx, hi, if_neg hs]

/-- R36: the report that ends a search places the dial at 0, and drives it from there. -/
theorem homeReported_steered (hd : 1 ≤ d ∧ d ≤ 4) (hx : x = r.dial d) (hi : x.indicated = none)
    (hs : x.state = .unknown) :
    Steered { x with
      homeWatch := none, misses := 0, faultRaised := false, indicated := some 0, searchCount := 0
      state := if r.budget.dialHolds d then .advancing else .inStep } ((homeReported d r).dial d) := by
  unfold homeReported
  simp only [← hx, hi, if_pos hs]
  split
  · exact steered_evaluateDial (dial_putDial_self _ _ _ hd)
  · exact steered_evaluateDial (dial_putDial_self _ _ _ hd)

end Home

/-- Settles O24, by what the report does to the dial it belongs to; the evaluations are those of `homeReported_slip` and
`homeReported_found`, and what they leave of the record is that the dial has only been driven. -/
theorem homeReport : Obligations.HomeReport := by
  unfold Obligations.HomeReport
  intro p r w src channel hs hr
  refine ⟨fun hnone => ?_, fun d x z hsome h1 h4 hx hz => ?_⟩
  · rw [exec_dialHome w hs hnone, hr]
    rfl
  have hd : 1 ≤ d ∧ d ≤ 4 := ⟨h1, h4⟩
  have hxr : x = r.dial d := by rw [hx, hr]; rfl
  have budget : r.budget = p.budget := by rw [hr]; rfl
  have same : r.sameBut (homeReported d r) [.dialDriver, .lamps, .budget, .locals] := by simp
  have slip {i : Nat} {y : Dial} (hi : x.indicated = some i) (h0 : 0 < i) (hy : y = { z with
      slips := bump x.slips
      lastSlip := if i ≤ x.positions / 2 then (i : Int) else (i : Int) - x.positions }) :
      homeReported d r = evaluateDial d (r.putDial d y) := by rw [homeReported_slips hxr hi h0, hy, hz]
  rw [exec_dialHome w hs hsome, ← hr, show dialHomePart (some d) r = homeReported d r from rfl]
  refine ⟨fun hi => ?_, fun i y hi h0 hy => ⟨fun hst => ?_, _, rfl, ?_⟩, fun hi hst => ?_, fun hi hst => ⟨_, rfl, ?_⟩⟩
  · rw [homeReported_confirms hxr hi, hz]
  · have undriven : y.state.undriven := by
      rw [hy, hz]
      rcases hst with h | h | h
      · exact .inr (.inl h)
      · exact .inl h
      · exact .inr (.inr h)
    rw [slip hi h0 hy, evaluateDial_undriven (by rwa [dial_putDial_self _ _ _ hd])]
  · have kept : Steered y ((homeReported d r).dial d) := by
      rw [slip hi h0 hy]
      exact steered_evaluateDial (dial_putDial_self _ _ _ hd)
    have ys : y.state = x.state := by rw [hy, hz]
    refine ⟨by rw [kept.1, hy, hz], by rw [kept.1, hy, hz], by rw [kept.1, hy, hz], by rw [kept.1], by rw [kept.1],
      fun hst hc => ?_, same⟩
    refine (homeReported_slip hd (by rw [budget]; exact hc) (hxr ▸ hi) h0 (by rw [hy, hz, ← hxr])).2 ?_
    rw [ys]
    exact hst
  · rw [homeReported_placed hxr hi (by rcases hst with h | h <;> simp [h]), hz]
  · have found := homeReported_steered hd hxr hi hst
    rw [budget] at found
    obtain ⟨kept, driven⟩ := found
    refine ⟨by rw [kept], by rw [kept], by rw [kept], by rw [kept], by rw [kept], fun hu => ?_, fun hc => ?_, same⟩
    · have := driven (by dsimp only; split <;> simp [DialState.driven])
      simp [DialState.driven, hu] at this
    · refine homeReported_found hd (by rw [budget]; exact hc) (hxr ▸ hi) (hxr ▸ hst) ?_
      rw [hz, ← hxr, budget]

/-! ## Requests answered -/

section Answers

variable {p q r : Part} {d : Nat} {x : Dial}

/-- A reply leaves the dials, the Budget and LOCAL as they are. -/
theorem reply_leaves (src o : Nat) (code : Code) (data : List Byte) (q : Part) :
    (reply src o code data q).dialDriver = q.dialDriver ∧ (reply src o code data q).budget = q.budget
      ∧ (reply src o code data q).line.localQ = q.line.localQ := by
  have h : q.sameBut (reply src o code data q) [.up, .requests] := by simp
  exact ⟨h .dialDriver (by decide), h .budget (by decide), h .locals (by decide)⟩

/-- What is claimed of an evaluation asks nothing but the dials, the Budget and LOCAL. -/
theorem evaluated_of_same (h : p.evaluated q d x) (h1 : r.dialDriver = q.dialDriver) (h2 : r.budget = q.budget)
    (h3 : r.line.localQ = q.line.localQ) : p.evaluated r d x := by
  simpa only [Part.evaluated, Part.stepOffered, Part.driveAsked, dial_congr h1, h2, h3] using h

end Answers

/-! ## SET_DIAL -/

section SetDial

variable {p q r : Part} {d pos : Nat} {x : Dial}

theorem dial_stopWaiting (e : Nat) (q : Part) : (stopWaiting e q).dial d = q.dial d := rfl

/-- R37: the record of a dial whose position is set. -/
def setTo (x : Dial) (pos : Nat) (st : DialState) : Dial :=
  { x with indicated := some pos, misses := 0, searchCount := 0, homeWatch := none, faultRaised := false, state := st }

/-- R37: while UNSET the dial is STOPPED. -/
theorem setDialTaken_unset (hd : 1 ≤ d ∧ d ≤ 4) (hu : p.time.state = .unset) :
    setDialTaken d pos p = p.putDial d (setTo (p.dial d) pos .stopped) := by
  unfold setDialTaken
  dsimp only
  rw [if_pos (by simp [Part.unset, hu]), dial_putDial_self _ _ _ hd, putDial_putDial]
  rfl

/-- R37: with tower time set the dial has its position and is driven from IN_STEP. -/
theorem setDialTaken_steered (hd : 1 ≤ d ∧ d ≤ 4) (hu : p.time.state ≠ .unset) :
    Steered (setTo (p.dial d) pos .inStep) ((setDialTaken d pos p).dial d) := by
  have rest : ∀ q : Part, Steered { q.dial d with state := .inStep } ((restDial d .inStep q).dial d) := fun q => by
    have k := steers_releaseDial d (stopWaiting d (q.putDial d { q.dial d with state := .inStep })) d
    rwa [dial_stopWaiting, dial_putDial_self _ _ _ hd] at k
  unfold setDialTaken
  dsimp only
  rw [if_neg (by simp [Part.unset, hu])]
  refine steered_trans ?_ (steers_evaluateDial d _ d)
  have k := rest (p.putDial d { p.dial d with
    indicated := some pos, misses := 0, searchCount := 0, homeWatch := none, faultRaised := false })
  rwa [dial_putDial_self _ _ _ hd] at k

theorem exec_setDial {src : Nat} (w : List Instr) :
    exec (.setDial src d pos) ⟨p, w⟩
      = .next ⟨serveSimple (.setDial src d pos) src .service (setDialPart d pos) p, w⟩ := rfl

theorem setDialPart_badIndex (h : d = 0 ∨ 4 < d) : setDialPart d pos p = (p, .badIndex) := by
  unfold setDialPart
  rw [if_pos (by simp [within]; omega)]

theorem setDialPart_badValue (hd : 1 ≤ d ∧ d ≤ 4) (h : (p.dial d).positions ≤ pos) :
    setDialPart d pos p = (p, .badValue) := by
  unfold setDialPart
  rw [if_neg (by simp [within, hd]), if_pos h]

theorem setDialPart_ok (hd : 1 ≤ d ∧ d ≤ 4) (h : pos < (p.dial d).positions) :
    setDialPart d pos p = (setDialTaken d pos p, .ok) := by
  unfold setDialPart
  rw [if_neg (by simp [within, hd]), if_neg (Nat.not_le.mpr h)]

end SetDial

/-- Settles O25: the checks refuse in their order; what is accepted is `setDialTaken` on the part with the request in
hand, then the reply. -/
theorem setDialSets : Obligations.SetDialSets := by
  unfold Obligations.SetDialSets
  intro p w src d pos hh
  rw [exec_setDial]
  refine ⟨fun h => ?_, fun h1 h4 h => ?_, fun h1 h4 h => ?_⟩
  · rw [serveSimple_refused hh (by decide) (Nat.le_refl _) (setDialPart_badIndex h)]
    rfl
  · rw [serveSimple_refused hh (by decide) (Nat.le_refl _) (setDialPart_badValue ⟨h1, h4⟩ h)]
    rfl
  have hd : 1 ≤ d ∧ d ≤ 4 := ⟨h1, h4⟩
  obtain ⟨t, ht⟩ : ∃ t, t = p.taken (.setDial src d pos) .service := ⟨_, rfl⟩
  have served : serveSimple (.setDial src d pos) src .service (setDialPart d pos) p
      = reply src 14 .ok [] (setDialTaken d pos t) := by
    rw [serveSimple_heard hh (by decide) (Nat.le_refl _), ← ht, setDialPart_ok hd (by rw [ht]; exact h)]
    rfl
  rw [served]
  refine ⟨fun hu => ?_, fun hu => ⟨_, rfl, ?_⟩⟩
  · rw [setDialTaken_unset hd (by rw [ht]; exact hu), ht]
    exact congrArg (fun q => Host.Outcome.next (State.mk q w))
      (reply_taken (p := p.putDial d (setTo (p.dial d) pos .stopped)) hh)
  · have hut : t.time.state ≠ .unset := by rw [ht]; exact hu
    obtain ⟨s, hs⟩ : ∃ s, s = setDialTaken d pos t := ⟨_, rfl⟩
    have address : s.mgmt.address = p.mgmt.address := by
      have k : t.sameBut s [.dialDriver, .lamps, .budget, .locals] := by rw [hs]; simp
      rw [(k .requests (by decide)).2.2.2.1, ht]
      rfl
    obtain ⟨kept, driven⟩ := setDialTaken_steered (pos := pos) hd hut
    rw [ht, taken_dial, ← ht, ← hs] at kept driven
    have evaluated (hc : p.budget.waiting.count d ≤ 1) : p.evaluated s d (setTo (p.dial d) pos .inStep) := by
      have k := setDialTaken_evaluated (pos := pos) hd hut (by rw [ht]; exact hc)
      rw [← hs, ht] at k
      exact k
    rw [← hs]
    obtain ⟨dials, budget, locals⟩ := reply_leaves src 14 .ok [] s
    have dial : (reply src 14 .ok [] s).dial d = s.dial d := dial_congr dials d
    rw [dial]
    refine ⟨address ▸ gave_reply, by rw [kept]; rfl, by rw [kept]; rfl, by rw [kept]; rfl, by rw [kept]; rfl,
      driven (.inl rfl), fun hc => evaluated_of_same (evaluated hc) dials budget locals, ?_⟩
    have taken : p.sameBut t [.dialDriver, .lamps, .budget, .locals, .up, .requests] := by rw [ht]; simp
    rw [hs]
    exact same_reply (by simp [taken]) (by decide) (by decide)

/-! ## Writes heard -/

section Writes

variable {p q s : Part} {src n table : Nat} {cls least : SourceClass} {record : List Byte} {t : Table} {code : Code}
  {T : List Block}

/-- The part with the request in hand let go. -/
def released (s : Part) : Part := { s with mgmt.inHand := none }

@[simp] theorem released_dial (d : Nat) : (released s).dial d = s.dial d := rfl

/-- R172: a reply enters UP while it has a place, and the request leaves hand. -/
theorem reply_enters {o : Nat} {data : List Byte} (hw : s.mgmt.replyWaiting = none) (hn : s.mgmt.nextAddress = none)
    (hup : s.line.upQ.length < 16) : reply n o code data s = (released s).answered n o code data := by
  unfold reply offerReply
  rw [if_pos (show s.line.upQ.length < Config.upPlaces from hup)]
  obtain ⟨osc, time, dd, bg, se, st, cl, tu, la, bu, ca, li, mg, re⟩ := s
  obtain ⟨m1, m2, m3, m4, m5, m6, m7, m8, m9, m10, m11, m12⟩ := mg
  simp only at hw hn
  subst hw hn
  rfl

/-- R172: what is done to a part with a request in hand, and touches no request, is answered at once while UP has a
place, and but for the reply it is done to the part itself. -/
theorem reply_done {i : Instr} {o : Nat} {data : List Byte} (h : p.hears src cls = true)
    (same : (p.taken i cls).sameBut s T) (hT : Block.requests ∉ T) (hup : s.line.upQ.length < 16) :
    reply n o code data s = (released s).answered n o code data ∧ p.sameBut (released s) T := by
  obtain ⟨_, inHand, waiting, _, next, _⟩ := hears_free h
  obtain ⟨_, replyWaiting, resetting, address, nextAddress⟩ := same .requests hT
  have noReply : s.mgmt.replyWaiting = none := replyWaiting.trans waiting
  have noAddress : s.mgmt.nextAddress = none := nextAddress.trans next
  refine ⟨reply_enters noReply noAddress hup, fun b hb => ?_⟩
  cases b with
  | requests => exact ⟨inHand.symm, replyWaiting, resetting, address, nextAddress⟩
  | _ => exact same _ hb

/-- The part with a WRITE_RECORD from a SERVICE source in hand. -/
abbrev writing (p : Part) (src table n : Nat) (record : List Byte) : Part :=
  p.taken (.writeRecord src table n record) .service

/-- R172, R175: a WRITE_RECORD whose record has the table's size, from a SERVICE source, is handed to the block that owns
the table. -/
theorem exec_writeRecord (w : List Instr) (h : p.hears src .service = true) (ht : Table.ofCode table = some t)
    (hw : t.writeClass = some least) (hlen : record.length = recordSize t p) :
    exec (.writeRecord src table n record) ⟨p, w⟩
      = .next ⟨reply src 2 (writeTable t n record (writing p src table n record)).2 []
          (writeTable t n record (writing p src table n record)).1, w⟩ := by
  have hsize : recordSize t (writing p src table n record) = recordSize t p := by
    cases t <;> rfl
  have may : SourceClass.service.atLeast least = true := by cases least <;> rfl
  simp only [exec, execWriteRecord, act_eq, serve_heard h (by decide)]
  unfold writeWork
  simp [ht, hw, hsize, hlen, may]

/-- A write that is refused leaves the part as it is. -/
theorem writes_refused (h : p.hears src .service = true) (ht : Table.ofCode table = some t)
    (hw : t.writeClass = some least) (hlen : record.length = recordSize t p)
    (ho : writeTable t n record (writing p src table n record) = (writing p src table n record, code)) :
    p.writes src table n record p code := by
  intro w
  rw [exec_writeRecord w h ht hw hlen, ho, reply_taken h]

/-- A write that is done leaves what the block has made of the part. -/
theorem writes_done (h : p.hears src .service = true) (ht : Table.ofCode table = some t)
    (hw : t.writeClass = some least) (hlen : record.length = recordSize t p)
    (ho : writeTable t n record (writing p src table n record) = (s, code))
    (same : (writing p src table n record).sameBut s T) (hT : Block.requests ∉ T) (hup : s.line.upQ.length < 16) :
    p.writes src table n record (released s) code ∧ p.sameBut (released s) T := by
  refine ⟨fun w => ?_, (reply_done (n := src) (o := 2) (code := code) (data := []) h same hT hup).2⟩
  rw [exec_writeRecord w h ht hw hlen, ho, (reply_done h same hT hup).1]

end Writes

/-! ## Bytes of a record -/

section Bytes

theorem be_one (n : Nat) : be 1 n = [byte n] := by simp [be]

theorem be_two (n : Nat) : be 2 n = [byte (n / 256), byte n] := by simp [be]

@[simp] theorem byte_toNat (b : Byte) : byte b.toNat = b := by simp [byte]

theorem toNat_byte {n : Nat} (h : n < 256) : (byte n).toNat = n := by simp [byte, Nat.mod_eq_of_lt h]

theorem byte_mod (n : Nat) : byte (n % 256) = byte n := by
  apply BitVec.eq_of_toNat_eq
  simp [byte]

/-- A number in two bytes reads back. -/
theorem toNat_two {n : Nat} (h : n < 65536) : (byte (n / 256)).toNat * 256 + (byte n).toNat = n := by
  have low : (byte n).toNat = n % 256 := by simp [byte]
  rw [toNat_byte (by omega), low]
  omega

/-- Two bytes are the ones of the number they spell. -/
theorem byte_two (a b : Byte) : byte ((a.toNat * 256 + b.toNat) / 256) = a ∧ byte (a.toNat * 256 + b.toNat) = b := by
  have hb : b.toNat < 256 := b.isLt
  constructor
  · rw [show (a.toNat * 256 + b.toNat) / 256 = a.toNat by omega, byte_toNat]
  · rw [← byte_mod, show (a.toNat * 256 + b.toNat) % 256 = b.toNat by omega, byte_toNat]

/-- A field of one byte that may be absent. -/
theorem beOpt_one (x : Option Nat) : beOpt 1 x = [(x.map byte).getD 0xFF#8] := by
  cases x with
  | none => rfl
  | some v => exact be_one v

/-- An optional field of one byte reads back. -/
theorem natOpt_optional {x : Option Nat} (h : absentOr 62 x) : natOpt [(x.map byte).getD 0xFF#8] = x := by
  cases x with
  | none => rfl
  | some v =>
    have hv := h v rfl
    have ne : byte v ≠ 0xFF#8 := fun e => by
      have k := congrArg BitVec.toNat e
      rw [toNat_byte (by omega)] at k
      simp at k
      omega
    simp [natOpt, absentBytes, ne, natOf, toNat_byte (show v < 256 by omega)]

theorem absentOr_iff {x : Option Nat} : absentOr 62 x ↔ optWithin 1 x 62 = true := by
  cases x <;> simp [absentOr, optWithin, within]

theorem mem_dialNumbers {e : Nat} : e ∈ dialNumbers ↔ 1 ≤ e ∧ e ≤ 4 := by
  simp only [dialNumbers, oneTo, List.mem_map, List.mem_range]
  exact ⟨by omega, fun h => ⟨e - 1, by omega, by omega⟩⟩

theorem mem_bellNumbers {e : Nat} : e ∈ bellNumbers ↔ 1 ≤ e ∧ e ≤ 16 := by
  simp only [bellNumbers, oneTo, List.mem_map, List.mem_range]
  exact ⟨by omega, fun h => ⟨e - 1, by omega, by omega⟩⟩

end Bytes

/-! ## Dial records written -/

theorem dialConfigBytes_eq (c : DialConfig) : dialConfigBytes c =
    [byte c.node, byte c.channel, byte c.stepPeriod, byte c.fastRate, byte (c.holdLimit / 256), byte c.holdLimit,
      byte c.driveCharge] := by
  simp [dialConfigBytes, be_one, be_two]

/-- TABLE 2-1: the fields that the seven bytes of a dial record spell. -/
theorem parseDialConfig_seven (a b c d e f g : Byte) (k : DialConfig) :
    parseDialConfig [a, b, c, d, e, f, g] = some k ↔
      k = { node := a.toNat, channel := b.toNat, stepPeriod := c.toNat, fastRate := d.toNat
            holdLimit := e.toNat * 256 + f.toNat, driveCharge := g.toNat } ∧ k.Legal := by
  have hold : ∀ s n, ((s = 30 ∨ s = 60) ∧ n ≤ positionsOf s / 2) ↔ (s = 30 ∧ n ≤ 720 ∨ s = 60 ∧ n ≤ 360) := by
    intro s n
    rw [or_and_right]
    refine or_congr (and_congr_right fun h => ?_) (and_congr_right fun h => ?_) <;> simp [h, positionsOf]
  unfold parseDialConfig
  simp only [numAt, natOf, List.drop, List.take, List.foldl, Nat.zero_mul, Nat.zero_add, List.length, within,
    Bool.and_eq_true, decide_eq_true_eq, true_and, Option.ite_none_right_eq_some, Option.some.injEq]
  constructor
  · rintro ⟨⟨hn, hc, hs, hf, hd, hh⟩, rfl⟩
    exact ⟨rfl, hn.1, hn.2, hc.1, hc.2, hf.1, hf.2, hd, (hold _ _).mp ⟨hs, hh⟩⟩
  · rintro ⟨rfl, hn1, hn2, hc1, hc2, hf1, hf2, hd, hh⟩
    obtain ⟨hs, hh⟩ := (hold _ _).mpr hh
    exact ⟨⟨⟨hn1, hn2⟩, ⟨hc1, hc2⟩, hs, ⟨hf1, hf2⟩, hd, hh⟩, rfl⟩

/-- TABLE 2-1: a dial record is read exactly from the bytes of a configuration in range. -/
theorem parseDialConfig_iff (record : List Byte) (c : DialConfig) :
    parseDialConfig record = some c ↔ record = dialConfigBytes c ∧ c.Legal := by
  constructor
  · intro h
    have size : record.length = 7 := by
      unfold parseDialConfig at h
      simp only [Option.ite_none_right_eq_some] at h
      exact h.1.1
    match record, size with
    | [a, b, s, r, e, f, g], _ =>
      obtain ⟨rfl, legal⟩ := (parseDialConfig_seven _ _ _ _ _ _ _ _).mp h
      refine ⟨?_, legal⟩
      rw [dialConfigBytes_eq]
      simp [byte_two]
  · rintro ⟨rfl, legal⟩
    rw [dialConfigBytes_eq, parseDialConfig_seven]
    refine ⟨?_, legal⟩
    obtain ⟨_, hn, _, hc, _, hf, hd, hh⟩ := legal
    rw [toNat_two (by omega), toNat_byte (by omega), toNat_byte (by omega), toNat_byte (by omega),
      toNat_byte (by omega), toNat_byte (by omega)]

section DialWrites

variable {p q r : Part} {d : Nat} {c : DialConfig} {x : Dial} {record : List Byte}

theorem writeDial_badIndex (h : d = 0 ∨ 4 < d) : writeDial d record p = (p, .badIndex) := by
  unfold writeDial
  rw [if_pos (by simp [within]; omega)]

theorem writeDial_badValue (hd : 1 ≤ d ∧ d ≤ 4) (h : parseDialConfig record = none) :
    writeDial d record p = (p, .badValue) := by
  unfold writeDial
  rw [if_neg (by simp [within, hd]), h]

/-- R23: another dial has the node and channel. -/
theorem dialTaken_iff : dialNumbers.any (fun e => e ≠ d && (p.dial e).config.node = c.node
      && (p.dial e).config.channel = c.channel) = true
    ↔ ∃ e, 1 ≤ e ∧ e ≤ 4 ∧ e ≠ d ∧ (p.dial e).config.node = c.node ∧ (p.dial e).config.channel = c.channel := by
  simp only [List.any_eq_true, mem_dialNumbers, Bool.and_eq_true, decide_eq_true_eq, and_assoc]

theorem writeDial_duplicate (hd : 1 ≤ d ∧ d ≤ 4) (h : parseDialConfig record = some c)
    (hu : ∃ e, 1 ≤ e ∧ e ≤ 4 ∧ e ≠ d ∧ (p.dial e).config.node = c.node ∧ (p.dial e).config.channel = c.channel) :
    writeDial d record p = (p, .duplicate) := by
  unfold writeDial
  rw [if_neg (by simp [within, hd]), h]
  exact if_pos (dialTaken_iff.mpr hu)

theorem writeDial_ok (hd : 1 ≤ d ∧ d ≤ 4) (h : parseDialConfig record = some c)
    (hu : ∀ e, 1 ≤ e → e ≤ 4 → e ≠ d →
      ¬ ((p.dial e).config.node = c.node ∧ (p.dial e).config.channel = c.channel)) :
    writeDial d record p = (dialWritten d c p, .ok) := by
  unfold writeDial
  rw [if_neg (by simp [within, hd]), h]
  exact if_neg fun k => by
    obtain ⟨e, h1, h4, he, hc⟩ := dialTaken_iff.mp k
    exact hu e h1 h4 he hc

/-- R23, R25: a write that keeps the step period has the target re-formed under the new configuration. -/
theorem dialWritten_kept (hs : c.stepPeriod = (p.dial d).config.stepPeriod) :
    dialWritten d c p
      = reformTarget (decide (c.fastRate ≠ (p.dial d).config.fastRate ∨ c.holdLimit ≠ (p.dial d).config.holdLimit)) d
          (p.putDial d { p.dial d with config := c }) := by
  unfold dialWritten
  dsimp only
  rw [if_neg (by simp [hs])]

/-- R23: where neither the decisions nor the target depend on what changes, the configuration alone is written. -/
theorem dialWritten_still (hd : 1 ≤ d ∧ d ≤ 4) (hx : x = p.dial d) (hs : c.stepPeriod = x.config.stepPeriod)
    (hf : c.fastRate = x.config.fastRate) (hh : c.holdLimit = x.config.holdLimit)
    (ht : x.target = targetOf c.stepPeriod p.time) : dialWritten d c p = p.putDial d { x with config := c } := by
  subst hx
  rw [dialWritten_kept hs]
  unfold reformTarget
  simp only [dial_putDial_self _ _ _ hd, putDial_time, putDial_putDial, ← ht, hf, hh]
  simp

/-- R23, R25: a write that keeps the step period at most drives the dial under its new configuration and target. -/
theorem dialWritten_steered (hd : 1 ≤ d ∧ d ≤ 4) (hx : x = p.dial d) (hs : c.stepPeriod = x.config.stepPeriod) :
    Steered { x with config := c, target := targetOf c.stepPeriod p.time } ((dialWritten d c p).dial d) := by
  subst hx
  rw [dialWritten_kept hs]
  unfold reformTarget
  simp only [dial_putDial_self _ _ _ hd, putDial_time, putDial_putDial]
  split
  · exact steered_evaluateDial (dial_putDial_self _ _ _ hd)
  · rw [dial_putDial_self _ _ _ hd]
    exact steered_refl _

/-- R23: the record of a dial whose step period changes, before its search. -/
def respaced (x : Dial) (c : DialConfig) (t : Option Nat) : Dial :=
  { x with
    config := c, indicated := none, searchCount := 0, misses := 0, faultRaised := false, target := t, state := .stopped }

/-- R23, R36: a write that changes the step period has the dial come to stand, and begin its search once tower time is
set. -/
theorem dialWritten_changed (hd : 1 ≤ d ∧ d ≤ 4) (hx : x = p.dial d) (hs : c.stepPeriod ≠ x.config.stepPeriod)
    (hr : r = restDial d .stopped (p.putDial d (respaced x c (targetOf c.stepPeriod p.time)))) :
    dialWritten d c p = if p.unset then r else beginSearch d r := by
  subst hx
  have rest : r = releaseDial d (stopWaiting d
      (p.putDial d (respaced (p.dial d) c (targetOf c.stepPeriod p.time)))) := by
    rw [hr]
    unfold restDial
    rw [dial_putDial_self _ _ _ hd, putDial_putDial]
    rfl
  have unset : r.unset = p.unset := by
    have k : p.sameBut r [.dialDriver, .lamps, .budget, .locals] := by rw [hr]; simp
    simp only [Part.unset, show r.time = p.time from k .time (by decide)]
  unfold dialWritten
  dsimp only
  rw [if_pos hs, ← unset, rest]
  rfl

/-- A dial that has asked for its drive charge to search: it is UNKNOWN, keeps a step that was outstanding, and holds the
charge or waits for it. -/
theorem driveAsked_searching (h : p.driveAsked q d x .unknown .unknown) :
    (q.dial d).state = .unknown ∧ (x.outstanding = true → (q.dial d).outstanding = true)
      ∧ (q.budget.dialHolds d = true ∨ d ∈ q.budget.waiting) := by
  rcases h with ⟨holds, offered⟩ | ⟨waits, dial⟩
  · exact ⟨state_of_stepOffered offered, fun ho => by rw [offered.1 ho]; exact ho, .inl holds⟩
  · exact ⟨by rw [dial], fun ho => by rw [dial]; exact ho, .inr waits⟩

/-- R36: a search begins with the record as it stands. -/
theorem beginSearch_steered (hd : 1 ≤ d ∧ d ≤ 4) (hx : r.dial d = x) :
    Steered { x with state := .unknown, searchCount := 0 } ((beginSearch d r).dial d) := by
  subst hx
  have k := steers_askDrive d (r.putDial d { r.dial d with state := .unknown, searchCount := 0 }) d
  rw [dial_putDial_self _ _ _ hd] at k
  exact k

/-- R23, R36: what becomes of a dial whose step period changes: its position, misses and search count go, an open watch
and a step outstanding stay, and it stands STOPPED while UNSET, or searches. -/
theorem dialWritten_searches (hd : 1 ≤ d ∧ d ≤ 4) (hx : x = p.dial d) (hs : c.stepPeriod ≠ x.config.stepPeriod)
    (hc : p.budget.waiting.count d ≤ 1) (hq : q = dialWritten d c p) :
    ((q.dial d).config = c ∧ (q.dial d).indicated = none ∧ (q.dial d).searchCount = 0 ∧ (q.dial d).misses = 0
        ∧ (q.dial d).homeWatch = x.homeWatch)
    ∧ (x.outstanding = true → (q.dial d).outstanding = true)
    ∧ (p.time.state = .unset → (q.dial d).state = .stopped ∧ (q.dial d).outstanding = x.outstanding
        ∧ q.budget.dialHolds d = false ∧ d ∉ q.budget.waiting)
    ∧ (p.time.state ≠ .unset → (q.dial d).state = .unknown
        ∧ (q.budget.dialHolds d = true ∨ d ∈ q.budget.waiting)) := by
  obtain ⟨y, hy⟩ : ∃ y, y = respaced x c (targetOf c.stepPeriod p.time) := ⟨_, rfl⟩
  obtain ⟨r, hr⟩ : ∃ r, r = restDial d .stopped (p.putDial d y) := ⟨_, rfl⟩
  obtain ⟨_, dial, unasked, uncharged⟩ := restDial_own (q := p.putDial d y) (st := .stopped) hd hc
  rw [← hr] at dial unasked uncharged
  have dial : r.dial d = y := by rw [dial, dial_putDial_self _ _ _ hd, hy]; rfl
  have turn := dialWritten_changed hd hx hs (hy ▸ hr)
  by_cases hu : p.time.state = .unset
  · rw [if_pos (by simp [Part.unset, hu]), ← hq] at turn
    subst turn
    rw [dial, hy]
    exact ⟨⟨rfl, rfl, rfl, rfl, rfl⟩, id, fun _ => ⟨rfl, rfl, uncharged, unasked⟩, fun n => absurd hu n⟩
  · rw [if_neg (by simp [Part.unset, hu]), ← hq] at turn
    have none : r.budget.waiting.count d ≤ 1 := by rw [List.count_eq_zero.mpr unasked]; exact Nat.zero_le 1
    have searches : r.driveAsked q d y .unknown .unknown := by
      rw [turn]
      exact beginSearch_own hd none (by rw [dial, hy]; rfl) (Still.refl r) (Kept.refl d _)
    obtain ⟨state, out, charge⟩ := driveAsked_searching searches
    have kept : Steered { y with state := .unknown, searchCount := 0 } (q.dial d) :=
      turn ▸ beginSearch_steered hd dial
    refine ⟨?_, fun ho => out (by rw [hy]; exact ho), fun h => absurd h hu, fun _ => ⟨state, charge⟩⟩
    rw [kept.1, hy]
    exact ⟨rfl, rfl, rfl, rfl, rfl⟩

end DialWrites

/-! ## Bell records written -/

theorem bellConfigBytes_eq (c : BellConfig) : bellConfigBytes c =
    [byte c.cls.code, (c.hammerNode.map byte).getD 0xFF#8, byte c.hammerChannel, (c.sensorNode.map byte).getD 0xFF#8,
      byte (c.recovery / 256), byte c.recovery, byte (c.settle / 256), byte c.settle, byte (c.charge / 256),
      byte c.charge, byte c.permits.bits] := by
  simp [bellConfigBytes, be_one, be_two, beOpt_one]

/-- TABLE 3-1: the permit set reads back from its bits. -/
theorem permits_bits (m : Permits) : m.bits ≤ 7 ∧
    ({ clock := m.bits.testBit 0, tune := m.bits.testBit 1, console := m.bits.testBit 2 } : Permits) = m := by
  obtain ⟨clock, tune, console⟩ := m
  cases clock <;> cases tune <;> cases console <;> decide

/-- TABLE 3-1: a bell configuration in range reads back from its bytes. -/
theorem parseBellConfig_bytes {c : BellConfig} (h : c.Legal) : parseBellConfig (bellConfigBytes c) = some c := by
  obtain ⟨hn, hc1, hc2, sn, hfix, hr1, hr2, hs1, hs2, hch⟩ := h
  obtain ⟨small, permits⟩ := permits_bits c.permits
  have hcode : c.cls.code ≤ 1 := by cases c.cls <;> decide
  have cls : (if c.cls.code = 0 then BellClass.swing else .fixed) = c.cls := by cases c.cls <;> rfl
  have sensor : (if c.cls.code = 0 then c.sensorNode else none) = c.sensorNode := by
    cases hk : c.cls with
    | swing => rfl
    | fixed => rw [hfix hk]; rfl
  rw [bellConfigBytes_eq]
  unfold parseBellConfig
  simp only [numAt, optAt, natOf, List.drop, List.take, List.foldl, Nat.zero_mul, Nat.zero_add, List.length,
    natOpt_optional hn, natOpt_optional sn, toNat_two (show c.recovery < 65536 by omega),
    toNat_two (show c.settle < 65536 by omega), toNat_two (show c.charge < 65536 by omega),
    toNat_byte (show c.cls.code < 256 by omega), toNat_byte (show c.hammerChannel < 256 by omega),
    toNat_byte (show c.permits.bits < 256 by omega), cls, sensor, permits]
  exact if_pos ⟨trivial, hcode, absentOr_iff.mp hn, by simp [within, hc1, hc2], absentOr_iff.mp sn,
    by simp [within, hr1, hr2], by simp [within, hs1, hs2], hch, small⟩

/-- TABLE 3-1: what a bell record is read as is in range. -/
theorem parseBellConfig_legal {record : List Byte} {c : BellConfig} (h : parseBellConfig record = some c) : c.Legal := by
  unfold parseBellConfig at h
  simp only [Option.ite_none_right_eq_some, Option.some.injEq, within, Bool.and_eq_true, decide_eq_true_eq] at h
  obtain ⟨⟨_, _, hn, ⟨hc1, hc2⟩, sn, ⟨hr1, hr2⟩, ⟨hs1, hs2⟩, hch, _⟩, rfl⟩ := h
  refine ⟨absentOr_iff.mpr hn, hc1, hc2, ?_, fun hf => ?_, hr1, hr2, hs1, hs2, hch⟩
  · dsimp only
    split
    · exact absentOr_iff.mpr sn
    · simp [absentOr]
  · dsimp only at hf ⊢
    split at hf
    · cases hf
    · rename_i hk
      rw [if_neg hk]

section BellWrites

variable {p q r : Part} {b n : Nat} {c : BellConfig} {x : Bell} {a : HammerAction} {record : List Byte}

theorem writeBell_badIndex (h : b = 0 ∨ 16 < b) : writeBell b record p = (p, .badIndex) := by
  unfold writeBell
  rw [if_pos (by simp [within]; omega)]

theorem writeBell_badValue (hb : 1 ≤ b ∧ b ≤ 16) (h : parseBellConfig record = none) :
    writeBell b record p = (p, .badValue) := by
  unfold writeBell
  rw [if_neg (by simp [within, hb]), h]

/-- R42: another bell has the hammer node and channel. -/
def HammerTaken (p : Part) (b : Nat) (c : BellConfig) : Prop :=
  ∃ a m, 1 ≤ a ∧ a ≤ 16 ∧ a ≠ b ∧ c.hammerNode = some m ∧ (p.bell a).config.hammerNode = some m
    ∧ (p.bell a).config.hammerChannel = c.hammerChannel

theorem hammerTaken_iff : HammerTaken p b c ↔ c.hammerNode.isSome = true
    ∧ bellNumbers.any (fun a => a ≠ b && (p.bell a).config.hammerNode = c.hammerNode
      && (p.bell a).config.hammerChannel = c.hammerChannel) = true := by
  simp only [HammerTaken, List.any_eq_true, mem_bellNumbers, Bool.and_eq_true, decide_eq_true_eq,
    Option.isSome_iff_exists]
  constructor
  · rintro ⟨a, m, h1, h16, ha, hc, hn, hch⟩
    exact ⟨⟨m, hc⟩, a, ⟨h1, h16⟩, ⟨ha, hn.trans hc.symm⟩, hch⟩
  · rintro ⟨⟨m, hc⟩, a, ⟨h1, h16⟩, ⟨ha, hn⟩, hch⟩
    exact ⟨a, m, h1, h16, ha, hc, hn.trans hc, hch⟩

theorem writeBell_duplicate (hb : 1 ≤ b ∧ b ≤ 16) (h : parseBellConfig record = some c) (hu : HammerTaken p b c) :
    writeBell b record p = (p, .duplicate) := by
  unfold writeBell
  rw [if_neg (by simp [within, hb]), h]
  exact if_pos (hammerTaken_iff.mp hu)

theorem writeBell_inUse (hb : 1 ≤ b ∧ b ≤ 16) (h : parseBellConfig record = some c) (hu : ¬ HammerTaken p b c)
    (hr : (p.bell b).claims.ringers = true) : writeBell b record p = (p, .inUse) := by
  unfold writeBell
  rw [if_neg (by simp [within, hb]), h]
  exact (if_neg fun k => hu (hammerTaken_iff.mpr k)).trans (if_pos hr)

theorem writeBell_ok (hb : 1 ≤ b ∧ b ≤ 16) (h : parseBellConfig record = some c) (hu : ¬ HammerTaken p b c)
    (hr : (p.bell b).claims.ringers = false) : writeBell b record p = (bellWritten b c p, .ok) := by
  unfold writeBell
  rw [if_neg (by simp [within, hb]), h]
  exact (if_neg fun k => hu (hammerTaken_iff.mpr k)).trans (if_neg (by simp [hr]))

/-! ## Settings placed -/

/-- From `p` to `q` settings have been placed behind those that wait in SAFETY, none of them for bell b. -/
structure PlacedOthers (b : Nat) (p q : Part) : Prop where
  same : p.sameBut q [.safety]
  kept : ∀ s ∈ p.line.safetyQ, s ∈ q.line.safetyQ
  own : ∀ s ∈ q.line.safetyQ, s.bell = b → s ∈ p.line.safetyQ

theorem placedOthers_refl (b : Nat) (p : Part) : PlacedOthers b p p := ⟨same_refl _ _, fun _ h => h, fun _ h _ => h⟩

theorem placedOthers_trans (h : PlacedOthers b p q) (k : PlacedOthers b q r) : PlacedOthers b p r :=
  ⟨sameBut_trans h.same k.same, fun s m => k.kept s (h.kept s m), fun s m e => h.own s (k.own s m e) e⟩

/-- R48, R164: a setting placed for a bell that has none in SAFETY stands at the back of it, or stays wanted. -/
theorem placeSetting_new (hq : ¬ p.line.safetyQ.any (fun t => t.bell = b) = true) :
    (placeSetting b p = p
        ∧ ((p.bell b).config.hammerNode = none ∨ (p.bell b).wanted = none ∨ 8 ≤ p.line.safetyQ.length))
    ∨ ∃ m a, (p.bell b).config.hammerNode = some m ∧ (p.bell b).wanted = some a
        ∧ placeSetting b p
          = { p with line.safetyQ := p.line.safetyQ ++ [settingOf b m (p.bell b).config a p.mgmt.address] } := by
  unfold placeSetting
  dsimp only
  split
  next m a hm ha =>
    rw [if_neg hq]
    by_cases hl : p.line.safetyQ.length < 8
    · exact .inr ⟨m, a, hm, ha, if_pos hl⟩
    · exact .inl ⟨if_neg hl, .inr (.inr (Nat.not_lt.mp hl))⟩
  next h =>
    refine .inl ⟨rfl, ?_⟩
    cases hm : (p.bell b).config.hammerNode with
    | none => exact .inl rfl
    | some m =>
      cases ha : (p.bell b).wanted with
      | none => exact .inr (.inl rfl)
      | some a => exact (h m a hm ha).elim

/-- R164: the settings that the Guard places while bell b wants none are those of other bells. -/
theorem placeWanted_others (hw : (p.bell b).wanted = none) : PlacedOthers b p (placeWanted p) := by
  unfold placeWanted
  generalize bellNumbers = l
  induction l generalizing p with
  | nil => exact placedOthers_refl _ _
  | cons e l ih =>
    rw [List.foldl_cons]
    have step : PlacedOthers b p (if p.line.safetyQ.any (fun t => t.bell = e) then p else placeSetting e p) := by
      split
      · exact placedOthers_refl _ _
      · rename_i hq
        rcases placeSetting_new hq with ⟨stays, _⟩ | ⟨m, a, _, ha, enters⟩
        · rw [stays]
          exact placedOthers_refl _ _
        · have he : e ≠ b := fun he => by rw [he, hw] at ha; cases ha
          refine ⟨by simp, fun s hs => ?_, fun s hs hb => ?_⟩
          · rw [enters]
            exact List.mem_append_left _ hs
          · rw [enters] at hs
            rcases List.mem_append.mp hs with hs | hs
            · exact hs
            · rw [List.mem_singleton.mp hs] at hb
              exact absurd hb he
    have bells := step.same .bellGuard (by decide)
    exact placedOthers_trans step (ih (by rw [bell_congr bells]; exact hw))

/-- R42, R164: the bell's own setting leaves SAFETY, the others stay, and none is placed for a bell that wants none. -/
theorem withdrawSetting_others (hw : (p.bell b).wanted = none) :
    p.sameBut (withdrawSetting b p) [.safety]
      ∧ (∀ s ∈ p.line.safetyQ, s.bell ≠ b → s ∈ (withdrawSetting b p).line.safetyQ)
      ∧ ∀ s ∈ (withdrawSetting b p).line.safetyQ, s.bell ≠ b := by
  unfold withdrawSetting
  split
  · generalize hf : ({ p with line.safetyQ := p.line.safetyQ.filter (fun s => s.bell ≠ b) } : Part) = f
    have mem : ∀ s, s ∈ f.line.safetyQ ↔ s ∈ p.line.safetyQ ∧ s.bell ≠ b := fun s => by
      rw [← hf]
      simp
    have wants : (f.bell b).wanted = none := by rw [← hf]; exact hw
    have filtered : p.sameBut f [.safety] := by rw [← hf]; simp
    obtain ⟨same, kept, own⟩ := placeWanted_others wants
    exact ⟨sameBut_trans filtered same, fun s hs hb => kept s ((mem s).mpr ⟨hs, hb⟩),
      fun s hs hb => ((mem s).mp (own s hs hb)).2 hb⟩
  · rename_i h
    refine ⟨same_refl _ _, fun s hs _ => hs, fun s hs hb => h ?_⟩
    simp only [List.any_eq_true, decide_eq_true_eq]
    exact ⟨s, hs, hb⟩

/-! ## The start-up setting of a bell written -/

/-- R53: a hammer whose bell has no RINGERS claim changes without a word to the Session Controller. -/
theorem changeHammer_unclaimed {st : HammerState} (hb : 1 ≤ b ∧ b ≤ 16) (h : (p.bell b).claims.ringers = false) :
    changeHammer b st p = p.putBell b { p.bell b with hammer := st } := by
  unfold changeHammer
  simp [Part.ringersActive, bell_putBell_self _ _ _ hb, h]

theorem putBell_putBell (p : Part) (b : Nat) (x y : Bell) : (p.putBell b x).putBell b y = p.putBell b y := by
  simp [Part.putBell, bankPut1_bankPut1]

/-- R48: the record of a bell for which a setting has been decided. -/
def decided (x : Bell) (a : HammerAction) : Bell :=
  { x with wanted := some a, stateBefore := x.hammer, hammerTimer := none, hammer := a.underWay }

/-- R48: a setting decided for a fitted bell without a RINGERS claim is wanted, under way, and placed. -/
theorem decideSetting_unclaimed (hb : 1 ≤ b ∧ b ≤ 16) (hx : x = p.bell b) (hf : x.fitted = true)
    (h : x.claims.ringers = false) : decideSetting b a p = placeSetting b (p.putBell b (decided x a)) := by
  subst hx
  unfold decideSetting
  dsimp only
  rw [if_pos hf, changeHammer_unclaimed hb (by rw [bell_putBell_self _ _ _ hb]; exact h), bell_putBell_self _ _ _ hb,
    putBell_putBell]
  rfl

theorem decideSetting_unfitted (h : (p.bell b).fitted = false) : decideSetting b a p = p := by
  simp [decideSetting, h]

/-- R42, R62: the record of a bell after a write of its configuration, given its start-up setting. -/
def started (x : Bell) (c : BellConfig) (osc : Nat) (act : HammerAction) : Bell :=
  { x with
    config := c
    position := if c.cls = .fixed then .down else .unknown
    lastReport := none, downBegan := none, settled := false, intruded := false
    sensorFrom := if c.cls = .swing ∧ c.sensorNode ≠ none then some osc else none
    hammerTimer := none
    hammer := if c.hammerNode = none then .withdrawn else if act = .engage then .engaging else .withdrawing
    wanted := if c.hammerNode = none then none else some act
    stateBefore := if c.hammerNode = none then .withdrawn else .unknown }

theorem rewritten_unfitted (act : HammerAction) (osc : Nat) (h : c.hammerNode = none) :
    x.rewritten c osc = started x c osc act := by
  simp [Bell.rewritten, Bell.started, started, h, Option.isSome_iff_ne_none]

theorem rewritten_decided (act : HammerAction) (osc : Nat) (h : c.hammerNode ≠ none) :
    decided (x.rewritten c osc) act = started x c osc act := by
  cases act <;>
    simp [decided, Bell.rewritten, Bell.started, started, h, Option.isSome_iff_ne_none, HammerAction.underWay]

/-- R48, R164: a setting decided for a fitted bell that has none in SAFETY, and no RINGERS claim. -/
theorem decideSetting_new {m : Nat} (hb : 1 ≤ b ∧ b ≤ 16) (hx : x = p.bell b) (hm : x.config.hammerNode = some m)
    (h : x.claims.ringers = false) (hn : ∀ s ∈ p.line.safetyQ, s.bell ≠ b) (hq : q = decideSetting b a p) :
    q.bell b = decided x a ∧ (∀ e, e ≠ b → q.bell e = p.bell e) ∧ p.sameBut q [.bellGuard, .safety]
      ∧ (q.line.safetyQ = p.line.safetyQ ∧ 8 ≤ p.line.safetyQ.length
        ∨ q.line.safetyQ = p.line.safetyQ ++ [settingOf b m x.config a p.mgmt.address]) := by
  obtain ⟨v, hv⟩ : ∃ v, v = p.putBell b (decided x a) := ⟨_, rfl⟩
  have own : v.bell b = decided x a := by rw [hv]; exact bell_putBell_self _ _ _ hb
  have others : ∀ e, e ≠ b → v.bell e = p.bell e := fun e he => by rw [hv, bell_putBell_ne _ _ _ _ he]
  have queue : v.line.safetyQ = p.line.safetyQ := by rw [hv]; rfl
  have same : p.sameBut v [.bellGuard, .safety] := by rw [hv]; simp
  have noOwn : ¬ v.line.safetyQ.any (fun t => t.bell = b) = true := fun k => by
    simp only [List.any_eq_true, decide_eq_true_eq, queue] at k
    obtain ⟨s, hs, e⟩ := k
    exact hn s hs e
  rw [decideSetting_unclaimed hb hx (by rw [Bell.fitted, hm]; rfl) h, ← hv] at hq
  rcases placeSetting_new noOwn with ⟨stays, why⟩ | ⟨m', a', hm', ha', enters⟩
  · rw [stays] at hq
    subst hq
    rw [own, queue] at why
    simp only [decided, hm, reduceCtorEq, false_or] at why
    exact ⟨own, others, same, .inl ⟨queue, why⟩⟩
  · rw [own] at hm' ha' enters
    obtain rfl : m = m' := Option.some.inj (hm.symm.trans hm')
    obtain rfl : a = a' := Option.some.inj ha'
    rw [enters] at hq
    have bells : q.bellGuard = v.bellGuard := by rw [hq]
    refine ⟨(bell_congr bells b).trans own, fun e he => (bell_congr bells e).trans (others e he),
      sameBut_trans same (by rw [hq]; simp), .inr ?_⟩
    rw [hq, hv]
    rfl

/-- R42: what an accepted write of bell record b does: its record, and where the setting stands that it decides. -/
theorem bellWritten_started {act : HammerAction} (hb : 1 ≤ b ∧ b ≤ 16) (hx : x = p.bell b)
    (hr : x.claims.ringers = false) (hq : q = bellWritten b c p)
    (ha : act = if c.cls = .fixed ∧ p.mgmt.partState = .running then .engage else .withdraw) :
    q.bell b = started x c p.osc act
      ∧ (∀ e, e ≠ b → q.bell e = p.bell e)
      ∧ (∀ s ∈ p.line.safetyQ, s.bell ≠ b → s ∈ q.line.safetyQ)
      ∧ (c.hammerNode = none ∨ (∃ s ∈ q.line.safetyQ, s.bell = b) ∨ 8 ≤ q.line.safetyQ.length)
      ∧ (∀ s ∈ q.line.safetyQ, s.bell = b → ∃ m, c.hammerNode = some m ∧ s = settingOf b m c act p.mgmt.address)
      ∧ p.sameBut q [.bellGuard, .safety] := by
  obtain ⟨y, hy⟩ : ∃ y, y = x.rewritten c p.osc := ⟨_, rfl⟩
  obtain ⟨r, hr'⟩ : ∃ r, r = withdrawSetting b (p.putBell b y) := ⟨_, rfl⟩
  have own : (p.putBell b y).bell b = y := bell_putBell_self _ _ _ hb
  have wanted : y.wanted = none := by rw [hy]; rfl
  have conf : y.config = c := by rw [hy]; rfl
  obtain ⟨same, kept, noOwn⟩ := withdrawSetting_others (b := b) (p := p.putBell b y) (by rw [own]; exact wanted)
  rw [← hr'] at same kept noOwn
  have bells := same .bellGuard (by decide)
  have partState : r.mgmt.partState = p.mgmt.partState := (same .faults (by decide)).2.2
  have address : r.mgmt.address = p.mgmt.address := (same .requests (by decide)).2.2.2.1
  have rb : r.bell b = y := (bell_congr bells b).trans own
  have others : ∀ e, e ≠ b → r.bell e = p.bell e := fun e he =>
    (bell_congr bells e).trans (bell_putBell_ne _ _ _ _ he)
  have frame : p.sameBut r [.bellGuard, .safety] :=
    sameBut_trans (by simp : p.sameBut (p.putBell b y) _) (sameBut_mono same (by simp))
  have turn : q = decideSetting b act r := by
    rw [hq, ha]
    unfold bellWritten startSetting
    rw [← hx, ← hy, ← hr', rb, conf, partState]
  by_cases hn : c.hammerNode = none
  · rw [decideSetting_unfitted (by rw [rb, Bell.fitted, conf, hn]; rfl)] at turn
    subst turn
    exact ⟨by rw [rb, hy, rewritten_unfitted act _ hn], others, kept, .inl hn,
      fun s hs e => absurd e (noOwn s hs), frame⟩
  · obtain ⟨m, hm⟩ := Option.ne_none_iff_exists'.mp hn
    obtain ⟨record, others', frame', queue⟩ :=
      decideSetting_new hb rb.symm (conf ▸ hm) (by rw [hy]; exact hr) noOwn turn
    rw [conf, address] at queue
    refine ⟨by rw [record, hy, rewritten_decided act _ hn], fun e he => (others' e he).trans (others e he), ?_⟩
    rcases queue with ⟨queue, full⟩ | queue <;> rw [queue]
    · exact ⟨kept, .inr (.inr full), fun s hs e => absurd e (noOwn s hs), sameBut_trans frame frame'⟩
    · refine ⟨fun s hs e => List.mem_append_left _ (kept s hs e),
        .inr (.inl ⟨_, List.mem_append_right _ List.mem_cons_self, rfl⟩), fun s hs e => ⟨m, hm, ?_⟩,
        sameBut_trans frame frame'⟩
      rcases List.mem_append.mp hs with hs | hs
      · exact absurd e (noOwn s hs)
      · exact List.mem_singleton.mp hs

end BellWrites

/-! ## The guard configuration written -/

/-- R43: the guard configuration is one byte, 10 to 120 s. -/
theorem parseGuardConfig_iff (record : List Byte) (t : Nat) :
    parseGuardConfig record = some t ↔ record = [byte t] ∧ 10 ≤ t ∧ t ≤ 120 := by
  unfold parseGuardConfig
  simp only [Option.ite_none_right_eq_some, Option.some.injEq, within, Bool.and_eq_true, decide_eq_true_eq]
  constructor
  · rintro ⟨⟨size, lo, hi⟩, rfl⟩
    obtain ⟨b, rfl⟩ := List.length_eq_one_iff.mp size
    exact ⟨by simp [numAt, natOf], lo, hi⟩
  · rintro ⟨rfl, lo, hi⟩
    have value : numAt [byte t] 0 1 = t := by simp [numAt, natOf, toNat_byte (show t < 256 by omega)]
    rw [value]
    exact ⟨⟨rfl, lo, hi⟩, rfl⟩

section SensorTimers

variable {p q : Part} {b n t : Nat} {record : List Byte}

/-- R47: the record of a bell whose sensor timer has expired. -/
def silent (x : Bell) : Bell := { x with position := .unknown, downBegan := none, settled := false, sensorFrom := none }

/-- R47, R178: the notice that bell b's sensor is silent. -/
def silence (p : Part) (b : Nat) : UpItem := p.noticeOf .faultRaised p.towerTime [4, 0, byte b]

/-- R47, R178: what the expiry of one sensor timer does. -/
theorem sensorExpires_own (hb : 1 ≤ b ∧ b ≤ 16) (hq : q = sensorExpires b p) :
    q.bell b = silent (p.bell b) ∧ (∀ e, e ≠ b → q.bell e = p.bell e)
      ∧ q.mgmt.tally = { p.mgmt.tally with sensorSilent := bump p.mgmt.tally.sensorSilent }
      ∧ q.line.upQ = (if p.line.upQ.length < 14 then
          p.line.upQ ++ [silence p b] else p.line.upQ)
      ∧ q.mgmt.faults = p.mgmt.faults ∧ q.mgmt.partState = p.mgmt.partState
      ∧ q.bellGuard.sensorTimeout = p.bellGuard.sensorTimeout ∧ p.sameBut q [.bellGuard, .up, .faults] := by
  subst hq
  have bells : (sensorExpires b p).bellGuard = (p.putBell b (silent (p.bell b))).bellGuard := by
    unfold sensorExpires raiseMinor noticeFault sendNotice offerNotice
    dsimp only
    split <;> rfl
  have mgmt : (sensorExpires b p).mgmt
      = { p.mgmt with tally := { p.mgmt.tally with sensorSilent := bump p.mgmt.tally.sensorSilent } } := by
    unfold sensorExpires raiseMinor noticeFault sendNotice offerNotice
    dsimp only
    split <;> rfl
  refine ⟨(bell_congr bells b).trans (bell_putBell_self _ _ _ hb),
    fun e he => (bell_congr bells e).trans (bell_putBell_ne _ _ _ _ he), by rw [mgmt], ?_, by rw [mgmt], by rw [mgmt],
    by rw [bells]; rfl, by simp⟩
  unfold sensorExpires raiseMinor noticeFault sendNotice offerNotice
  by_cases h : p.line.upQ.length < 14
  · rw [if_pos h]
    dsimp only
    rw [if_pos (by exact h)]
    rfl
  · rw [if_neg h]
    dsimp only
    rw [if_neg (by exact h)]
    rfl

theorem silence_of_same (h : p.sameBut q [.bellGuard, .up, .faults]) (b : Nat) : silence q b = silence p b := by
  have time : q.time = p.time := h .time (by decide)
  have node : q.mgmt.noticeNode = p.mgmt.noticeNode := (h .mgmt (by decide)).2.2.1
  have address : q.mgmt.address = p.mgmt.address := (h .requests (by decide)).2.2.2.1
  have tower : q.towerTime = p.towerTime := by unfold Part.towerTime Part.unset; rw [time]
  unfold silence Part.noticeOf
  rw [tower, node, address]

/-- R47: from `p` to `q` the sensor timers of the bells of a list, each named once, have expired in its order. -/
structure Silenced (due : List Nat) (p q : Part) : Prop where
  bell : ∀ b, q.bell b = if b ∈ due then silent (p.bell b) else p.bell b
  tally : p.mgmt.tally.sensorSilent + due.length ≤ 65535 →
    q.mgmt.tally = { p.mgmt.tally with sensorSilent := p.mgmt.tally.sensorSilent + due.length }
  notices : p.line.upQ.length + due.length ≤ 14 → q.line.upQ = p.line.upQ ++ due.map (silence p)
  room : p.line.upQ.length < 16 → q.line.upQ.length < 16
  faults : q.mgmt.faults = p.mgmt.faults
  partState : q.mgmt.partState = p.mgmt.partState
  timeout : q.bellGuard.sensorTimeout = p.bellGuard.sensorTimeout
  same : p.sameBut q [.bellGuard, .up, .faults]

theorem silenced_nil (p : Part) : Silenced [] p p :=
  ⟨fun _ => by simp, fun _ => rfl, fun _ => by simp, id, rfl, rfl, rfl, same_refl _ _⟩

/-- One timer expires ahead of the others. -/
theorem silenced_cons {due : List Nat} (hb : 1 ≤ b ∧ b ≤ 16) (hn : b ∉ due) (h : Silenced due (sensorExpires b p) q) :
    Silenced (b :: due) p q := by
  obtain ⟨own, others, tally, up, faults, partState, timeout, same⟩ := sensorExpires_own (p := p) hb rfl
  generalize sensorExpires b p = r at h own others tally up faults partState timeout same
  refine ⟨fun k => ?_, fun hle => ?_, fun hle => ?_, fun hlt => h.room ?_, h.faults.trans faults,
    h.partState.trans partState, h.timeout.trans timeout, sameBut_trans same h.same⟩
  · rw [h.bell]
    by_cases hk : k = b
    · subst hk
      simp [hn, own]
    · simp [hk, others k hk]
  · rw [List.length_cons] at hle
    have counted : bump p.mgmt.tally.sensorSilent = p.mgmt.tally.sensorSilent + 1 := if_pos (by
      show _ < 65535
      omega)
    rw [counted] at tally
    rw [h.tally (by rw [tally]; simp only; omega), tally, List.length_cons]
    simp only [Nat.add_assoc, Nat.add_comm 1]
  · rw [List.length_cons] at hle
    rw [if_pos (by omega)] at up
    rw [h.notices (by rw [up, List.length_append, List.length_singleton]; omega), up, List.map_cons,
      List.append_assoc, List.singleton_append, List.map_congr_left fun k _ => silence_of_same same k]
  · rw [up]
    split
    · rw [List.length_append, List.length_singleton]
      omega
    · exact hlt

/-- R43, R47: the timers of a list that are due expire, in the list's order. -/
theorem silenced_foldl {l : List Nat} (hl : ∀ b ∈ l, 1 ≤ b ∧ b ≤ 16) (hn : l.Nodup) (p : Part) :
    Silenced (l.filter (fun b => p.sensorDue b)) p
      (l.foldl (fun p b => if p.sensorDue b then sensorExpires b p else p) p) := by
  induction l generalizing p with
  | nil => exact silenced_nil p
  | cons b l ih =>
    obtain ⟨hb, hn⟩ := List.nodup_cons.mp hn
    have hl' := fun k hk => hl k (List.mem_cons_of_mem _ hk)
    rw [List.foldl_cons]
    by_cases due : p.sensorDue b = true
    · obtain ⟨_, others, _, _, _, _, timeout, same⟩ := sensorExpires_own (p := p) (hl b List.mem_cons_self) rfl
      have later : l.filter (fun k => (sensorExpires b p).sensorDue k) = l.filter (fun k => p.sensorDue k) := by
        refine List.filter_congr fun k hk => ?_
        have hkb : k ≠ b := fun e => hb (e ▸ hk)
        have osc : (sensorExpires b p).osc = p.osc := same .osc (by decide)
        simp only [Part.sensorDue, others k hkb, timeout, osc]
      rw [if_pos due, List.filter_cons_of_pos due]
      refine silenced_cons (hl b List.mem_cons_self) (fun m => hb (List.mem_filter.mp m).1) ?_
      rw [← later]
      exact ih hl' hn _
    · rw [if_neg due, List.filter_cons_of_neg due]
      exact ih hl' hn p

theorem writeGuardConfig_badIndex (h : n ≠ 0) : writeGuardConfig n record p = (p, .badIndex) := by
  unfold writeGuardConfig
  rw [if_pos h]

theorem writeGuardConfig_badValue (h : parseGuardConfig record = none) :
    writeGuardConfig 0 record p = (p, .badValue) := by
  unfold writeGuardConfig
  rw [if_neg (by simp), h]

/-- R43: an accepted write of the guard configuration has the timers expire that the new timeout has run out. -/
theorem writeGuardConfig_ok (h : parseGuardConfig record = some t) :
    ∃ q, writeGuardConfig 0 record p = (q, .ok)
      ∧ Silenced ((List.range' 1 16).filter (fun b => (p.bell b).sensorFrom.any (fun i => i + t * 1024 ≤ p.osc)))
          { p with bellGuard.sensorTimeout := t } q
      ∧ p.sameBut q [.bellGuard, .up, .faults] := by
  have expired := silenced_foldl (l := bellNumbers) (fun b hb => mem_bellNumbers.mp hb) (by decide)
    { p with bellGuard.sensorTimeout := t }
  unfold writeGuardConfig
  rw [if_neg (by simp), h]
  exact ⟨_, rfl, expired, sameBut_trans (by simp) expired.same⟩

end SensorTimers

/-! ## The three tables written -/

section Tables

variable {p q s : Part} {src n : Nat} {record : List Byte} {code : Code}

/-- A request taken in hand and let go. -/
theorem released_taken {i : Instr} {cls : SourceClass} (h : p.hears src cls = true) : released (p.taken i cls) = p := by
  obtain ⟨_, inHand, _⟩ := hears_free h
  show { p with mgmt := { p.mgmt with inHand := none } } = p
  rw [← inHand]

theorem recordSize_dials (p : Part) : recordSize .dials p = 7 := by
  simp [recordSize, writtenBytes, dialConfigBytes_eq]

theorem recordSize_bells (p : Part) : recordSize .bells p = 11 := by
  simp [recordSize, writtenBytes, bellConfigBytes_eq]

theorem recordSize_guardConfig (p : Part) : recordSize .guardConfig p = 1 := by
  simp [recordSize, writtenBytes, be_one]

/-- R23: a dial record that the checks accept. -/
theorem writes_dial {c : DialConfig} (hh : p.hears src .service = true) (h7 : record.length = 7)
    (hd : 1 ≤ n ∧ n ≤ 4) (hp : parseDialConfig record = some c)
    (hu : ∀ e, 1 ≤ e → e ≤ 4 → e ≠ n →
      ¬ ((p.dial e).config.node = c.node ∧ (p.dial e).config.channel = c.channel))
    (hs : s = dialWritten n c (writing p src 7 n record)) :
    p.writes src 7 n record (released s) .ok ∧ p.sameBut (released s) [.dialDriver, .lamps, .budget, .locals] := by
  have same : (writing p src 7 n record).sameBut s [.dialDriver, .lamps, .budget, .locals] := by rw [hs]; simp
  have up : s.line.upQ = p.line.upQ := (same .up (by decide)).1
  obtain ⟨_, _, _, _, _, room⟩ := hears_free hh
  exact writes_done hh (t := .dials) rfl rfl (h7.trans (recordSize_dials p).symm)
    (by rw [hs]; exact writeDial_ok hd hp hu) same (by decide) (up ▸ room)

/-- TABLE 10-2: the HAMMER_SET frame of a setting. -/
theorem settingOf_frame {b m src : Nat} {c : BellConfig} {a : HammerAction} :
    (settingOf b m c a src).frame = { dest := m, src := src, kind := 22
                                      payload := [byte c.hammerChannel, byte (if a = .engage then 1 else 2)] } := by
  cases a <;> rfl

/-- R43: a guard configuration that the checks accept, from a part whose timeout is taken as written. -/
theorem writes_guardConfig {t : Nat} {due : List Nat} (hh : p.hears src .service = true) (h1 : record.length = 1)
    (ht : parseGuardConfig record = some t)
    (hdue : due = (List.range' 1 16).filter (fun b => (p.bell b).sensorFrom.any (fun i => i + t * 1024 ≤ p.osc))) :
    ∃ s, p.writes src 9 0 record (released s) .ok ∧ s.bellGuard.sensorTimeout = t
      ∧ Silenced due { writing p src 9 0 record with bellGuard.sensorTimeout := t } s
      ∧ p.sameBut (released s) [.bellGuard, .up, .faults] := by
  obtain ⟨_, _, _, _, _, room⟩ := hears_free hh
  obtain ⟨s, hs, expired, frame⟩ := writeGuardConfig_ok (p := writing p src 9 0 record) ht
  obtain ⟨writes, same⟩ := writes_done hh (t := .guardConfig) rfl rfl (h1.trans (recordSize_guardConfig p).symm) hs
    frame (by decide) (expired.room room)
  exact ⟨s, writes, expired.timeout, hdue ▸ expired, same⟩

end Tables

/-- Settles O55. The bytes of each table read back as the configurations in range; a refusal leaves the part, and what an
accepted write does is said of its block's operation on the part with the request in hand. -/
theorem dialsAndBellsWritten : Obligations.DialsAndBellsWritten := by
  unfold Obligations.DialsAndBellsWritten
  intro p src n record hh
  obtain ⟨_, _, _, _, _, room⟩ := hears_free hh
  refine ⟨parseDialConfig_iff record, fun h7 => ?_, fun c => ⟨parseBellConfig_bytes, parseBellConfig_legal⟩,
    fun h11 => ?_, parseGuardConfig_iff record, fun h1 => ?_⟩
  · have refused {code : Code}
        (ho : writeDial n record (writing p src 7 n record) = (writing p src 7 n record, code)) :
        p.writes src 7 n record p code :=
      writes_refused hh (t := .dials) rfl rfl (h7.trans (recordSize_dials p).symm) ho
    refine ⟨fun h => refused (writeDial_badIndex h), fun h1 h4 => ⟨fun h => refused (writeDial_badValue ⟨h1, h4⟩ h),
      fun c x hc hx => ⟨fun hu => refused (writeDial_duplicate ⟨h1, h4⟩ hc hu), fun hu =>
        ⟨fun hs hf hl ht => ?_, fun hs => ?_, fun hs hn => ?_⟩⟩⟩⟩
    all_goals
      have hd : 1 ≤ n ∧ n ≤ 4 := ⟨h1, h4⟩
      obtain ⟨s, hw⟩ : ∃ s, s = dialWritten n c (writing p src 7 n record) := ⟨_, rfl⟩
      obtain ⟨writes, same⟩ := writes_dial hh h7 hd hc hu hw
    · have still : released s = p.putDial n { x with config := c } := by
        rw [hw, dialWritten_still (p := writing p src 7 n record) (x := x) hd hx hs hf hl ht]
        exact congrArg (Part.putDial · n { x with config := c }) (released_taken hh)
      exact still ▸ writes
    · have kept : Steered _ (s.dial n) :=
        hw ▸ dialWritten_steered (p := writing p src 7 n record) (x := x) hd hx hs
      refine ⟨_, writes, ?_, ?_, ?_, ?_, same⟩ <;> rw [released_dial, kept.1]
    · obtain ⟨⟨config, indicated, search, misses, watch⟩, out, unset, set⟩ :=
        dialWritten_searches (p := writing p src 7 n record) (x := x) hd hx hs (count_le_one hn n) hw
      exact ⟨_, writes, config, indicated, search, misses, watch, out, unset, set, same⟩
  · have refused {code : Code}
        (ho : writeBell n record (writing p src 8 n record) = (writing p src 8 n record, code)) :
        p.writes src 8 n record p code :=
      writes_refused hh (t := .bells) rfl rfl (h11.trans (recordSize_bells p).symm) ho
    refine ⟨fun h => refused (writeBell_badIndex h), fun h1 h16 => ⟨fun h => refused (writeBell_badValue ⟨h1, h16⟩ h),
      fun c x same hc hx hsame => ⟨fun hu => refused (writeBell_duplicate ⟨h1, h16⟩ hc (hsame.mp hu)),
        fun hu hr => refused (writeBell_inUse ⟨h1, h16⟩ hc (fun k => hu (hsame.mpr k)) (hx ▸ hr)),
        fun hu hr => ?_⟩⟩⟩
    have hb : 1 ≤ n ∧ n ≤ 16 := ⟨h1, h16⟩
    obtain ⟨s, hs⟩ : ∃ s, s = bellWritten n c (writing p src 8 n record) := ⟨_, rfl⟩
    obtain ⟨own, others, kept, place, settings, frame⟩ :=
      bellWritten_started (p := writing p src 8 n record) hb hx hr hs rfl
    have up : s.line.upQ = p.line.upQ := (frame .up (by decide)).1
    obtain ⟨writes, same⟩ := writes_done hh (t := .bells) rfl rfl (h11.trans (recordSize_bells p).symm)
      (by rw [hs]; exact writeBell_ok hb hc (fun k => hu (hsame.mpr k)) (hx ▸ hr)) frame (by decide) (up ▸ room)
    refine ⟨_, _, writes, rfl, own, others, kept, place, fun s hs hsn => ?_, same⟩
    obtain ⟨m, hm, rfl⟩ := settings s hs hsn
    refine ⟨rfl, m, hm, ?_⟩
    rw [settingOf_frame]
    rfl
  · have refused {code : Code}
        (ho : writeGuardConfig n record (writing p src 9 n record) = (writing p src 9 n record, code)) :
        p.writes src 9 n record p code :=
      writes_refused hh (t := .guardConfig) rfl rfl (h1.trans (recordSize_guardConfig p).symm) ho
    refine ⟨fun hn => refused (writeGuardConfig_badIndex hn), fun hn h => ?_, fun t due hn ht hdue => ?_⟩
    · subst hn
      exact refused (writeGuardConfig_badValue h)
    · subst hn
      obtain ⟨s, writes, timeout, expired, same⟩ := writes_guardConfig hh h1 ht hdue
      exact ⟨_, writes, timeout, fun b _ _ => expired.bell b, expired.tally, expired.notices, expired.faults,
        expired.partState, same⟩

end Sys2Proof.Machine.Dials


/-! SUPPORT. The proofs of the family of the bells and the Bell Guard (Part 3). First what a command may put in PASS and in
flight on the field port: every command but the arbiter's take launches nothing, and the arbiter what its checks let
pass. -/

namespace Sys2Proof.Machine.Bells

/-! ## Flights -/

section Flights

variable {p q r : Part} {T : List Block}

/-- R49, R60, R162: what one step may put in PASS and in flight on the field port. -/
def FlyGuarded (p q : Part) : Prop :=
  (∀ k : Strike, q.line.fieldFlight = some (.strike k) → p.line.fieldFlight ≠ some (.strike k) →
      q.strikable k.bell = true ∧ (q.bell k.bell).lastTake = some q.osc
        ∧ ∀ i, (p.bell k.bell).lastTake = some i → i + msTicks (q.bell k.bell).config.recovery ≤ q.osc)
    ∧ (∀ g : Setting, q.line.fieldFlight = some (.setting g) → p.line.fieldFlight ≠ some (.setting g) →
        g.action = .engage → q.engageable g.bell = true)
    ∧ (p.line.guarded → q.line.guarded)

/-- Any frame but a LAMP_LEVEL, whose lamp group a write may alter in flight (R118). -/
def notLevel : FieldFlight → Prop
  | .lampLevel .. => False
  | _ => True

/-- From `p` to `q` no frame has come into flight, and no frame into PASS that the Guard has to pass. -/
structure LaunchesNone (p q : Part) : Prop where
  flight : ∀ x : FieldFlight, notLevel x → q.line.fieldFlight = some x → p.line.fieldFlight = some x
  pass : ∀ f, .plain f ∈ q.line.passQ → .plain f ∈ p.line.passQ ∨ f.kind ≠ 21 ∧ f.kind ≠ 22

theorem LaunchesNone.refl (p : Part) : LaunchesNone p p := ⟨fun _ _ h => h, fun _ h => .inl h⟩

theorem LaunchesNone.trans (h : LaunchesNone p q) (k : LaunchesNone q r) : LaunchesNone p r :=
  ⟨fun x hx e => h.flight x hx (k.flight x hx e), fun f hf => (k.pass f hf).elim (h.pass f) .inr⟩

theorem LaunchesNone.of_eq (h1 : q.line.fieldFlight = p.line.fieldFlight) (h2 : q.line.passQ = p.line.passQ) :
    LaunchesNone p q := ⟨fun _ _ h => h1 ▸ h, fun _ h => .inl (h2 ▸ h)⟩

theorem LaunchesNone.of_same (h : p.sameBut q T) (h1 : Block.pass ∉ T) (h2 : Block.flights ∉ T) : LaunchesNone p q :=
  .of_eq (h .flights h2).1 (h .pass h1)

/-- Where nothing is in flight afterwards, and PASS is as it was or empty. -/
theorem LaunchesNone.of_none (h1 : q.line.fieldFlight = none) (h2 : q.line.passQ = p.line.passQ ∨ q.line.passQ = []) :
    LaunchesNone p q := by
  refine ⟨fun x _ e => absurd e (by simp [h1]), fun f hf => ?_⟩
  rcases h2 with h2 | h2
  · exact .inl (h2 ▸ hf)
  · simp [h2] at hf

/-- A drift alters what is in flight at most in the lamp group of a LAMP_LEVEL. -/
theorem LaunchesNone.of_drift (h : Drift p q) (k : p.sameBut q T) (h1 : Block.pass ∉ T) : LaunchesNone p q := by
  refine ⟨fun x hx e => ?_, fun f hf => .inl ((k .pass h1 : q.line.passQ = p.line.passQ) ▸ hf)⟩
  have bare := h.field
  rw [e] at bare
  cases hp : p.line.fieldFlight with
  | none => rw [hp] at bare; cases bare
  | some y =>
    rw [hp] at bare
    cases x <;> cases y <;> simp_all [FieldFlight.bare, notLevel]

theorem LaunchesNone.guarded (h : LaunchesNone p q) (hp : p.line.guarded) : q.line.guarded :=
  ⟨fun f hf => (h.pass f hf).elim (hp.1 f) id, fun f hf => hp.2 f (h.flight (.plain f) trivial hf)⟩

theorem LaunchesNone.flyGuarded (h : LaunchesNone p q) : FlyGuarded p q :=
  ⟨fun k e n => absurd (h.flight (.strike k) trivial e) n, fun g e n => absurd (h.flight (.setting g) trivial e) n,
    h.guarded⟩

/-- What is launched after steps that launch nothing and take no strike is launched from before them. -/
theorem FlyGuarded.after (h : LaunchesNone p q) (takes : ∀ b, (q.bell b).lastTake = (p.bell b).lastTake)
    (k : FlyGuarded q r) : FlyGuarded p r := by
  obtain ⟨strikes, settings, pass⟩ := k
  refine ⟨fun s e n => ?_, fun g e n => settings g e fun m => n (h.flight (.setting g) trivial m),
    fun hp => pass (h.guarded hp)⟩
  rw [← takes]
  exact strikes s e fun m => n (h.flight (.strike s) trivial m)

/-! ## The arbiter -/

/-- A bell whose strike passes its take check is one of the sixteen. -/
theorem strikePasses_bell {b : Nat} (h : p.strikePasses b = true) : 1 ≤ b ∧ b ≤ 16 := by
  by_contra hb
  have start : p.bell b = Bell.started (BellConfig.cold b) 0 := bankGet1_outside _ _ _ hb
  simp [Part.strikePasses, start, Bell.started, BellConfig.cold] at h

/-- R60: a strike that passes its take check and is put in flight. -/
theorem strikeTaken_flyGuarded {s : Strike} (h : p.strikePasses s.bell = true) : FlyGuarded p (strikeTaken s p) := by
  have hb := strikePasses_bell h
  have own : (strikeTaken s p).bell s.bell
      = { p.bell s.bell with lastTake := some p.osc, strikesSent := bump (p.bell s.bell).strikesSent } :=
    bell_putBell_self _ _ _ hb
  simp only [Part.strikePasses, Bool.and_eq_true, decide_eq_true_eq] at h
  obtain ⟨⟨⟨still, engaged⟩, recovered⟩, running⟩ := h
  refine ⟨fun k e _ => ?_, fun g e _ _ => ?_, fun hp => ⟨hp.1, fun f e => ?_⟩⟩
  case refine_2 | refine_3 => cases e
  obtain rfl : s = k := by cases e; rfl
  rw [Part.strikable, own]
  refine ⟨?_, rfl, fun i hi => ?_⟩
  · simp only [Bool.and_eq_true, decide_eq_true_eq]
    exact ⟨⟨running, still⟩, engaged⟩
  · show i + msTicks (p.bell s.bell).config.recovery ≤ p.osc
    simpa [Bell.recovered, hi] using recovered

/-- What is put in flight or discarded counts as before once the LOCAL run or the PASS queue is looked at. -/
theorem FlyGuarded.counted (h : FlyGuarded p q) (k : q.sameBut r [.routes]) : FlyGuarded p r := by
  have line := (k .flights (by decide)).1
  have mgmt : r.mgmt.partState = q.mgmt.partState := (k .faults (by decide)).2.2
  have bell := bell_congr (k .bellGuard (by decide))
  have osc : r.osc = q.osc := k .osc (by decide)
  have pass : r.line.passQ = q.line.passQ := k .pass (by decide)
  simpa only [FlyGuarded, Part.strikable, Part.engageable, LineSwitch.guarded, line, mgmt, bell, osc, pass] using h

theorem same_passTaken_routes (b : Bool) (q : Part) : q.sameBut (passTaken b q) [.routes] := by simp

theorem same_localTaken_routes (q : Part) : q.sameBut (localTaken q) [.routes] := by simp

/-- R60: a strike that fails its take check leaves what is in flight, PASS and the last takes alone. -/
theorem strikeDiscarded_launchesNone (s : Strike) (q : Part) :
    LaunchesNone q (strikeDiscarded s q) ∧ ∀ b, ((strikeDiscarded s q).bell b).lastTake = (q.bell b).lastTake :=
  ⟨.of_same (T := [.dialDriver, .bellGuard, .lamps, .budget, .routes, .locals]) (by simp) (by decide) (by decide),
    (calm_strikeDiscarded (Calm.refl q)).takes⟩

/-- A frame that needs no check is put in flight (R168). -/
theorem FlyGuarded.of_launch {x : FieldFlight} (hx : q.line.fieldFlight = some x) (pass : q.line.passQ = p.line.passQ)
    (strike : ∀ k, x ≠ .strike k) (setting : ∀ g, x = .setting g → g.action = .engage → q.engageable g.bell = true)
    (plain : ∀ f, x ≠ .plain f) : FlyGuarded p q := by
  refine ⟨fun k e => absurd (Option.some.inj (hx.symm.trans e)) (strike k),
    fun g e _ => setting g (Option.some.inj (hx.symm.trans e)), fun hp => ⟨pass ▸ hp.1, fun f e => ?_⟩⟩
  exact absurd (Option.some.inj (hx.symm.trans e)) (plain f)

/-- What a take comes to: nothing is launched, or a frame is transmitted as R49, R60 and R162 have it. -/
def Takes (p : Part) (r : Part × Bool) : Prop :=
  (LaunchesNone p r.1 ∧ ∀ b, (r.1.bell b).lastTake = (p.bell b).lastTake) ∨ r.2 = true ∧ FlyGuarded p r.1

theorem Takes.after (h : p.sameBut q T) (h1 : Block.pass ∉ T) (h2 : Block.flights ∉ T) (h3 : Block.bellGuard ∉ T)
    {r : Part × Bool} (k : Takes q r) : Takes p r := by
  have quiet := LaunchesNone.of_same h h1 h2
  have takes := fun b => congrArg Bell.lastTake (bell_congr (h .bellGuard h3) b)
  rcases k with ⟨none, same⟩ | ⟨done, flies⟩
  · exact .inl ⟨quiet.trans none, fun b => (same b).trans (takes b)⟩
  · exact .inr ⟨done, flies.after quiet takes⟩

/-- R60: a strike taken from LOCAL or PASS. -/
theorem takes_strike (s : Strike) {p q : Part} (hq : q = strikeDiscarded s p) {f g : Part → Part}
    (hf : ∀ r : Part, r.sameBut (f r) [.routes]) (hg : ∀ r : Part, r.sameBut (g r) [.routes]) :
    Takes p (if p.strikePasses s.bell then (f (strikeTaken s p), true) else (g q, false)) := by
  subst hq
  split
  · rename_i h
    exact .inr ⟨rfl, (strikeTaken_flyGuarded h).counted (hf _)⟩
  · obtain ⟨none, takes⟩ := strikeDiscarded_launchesNone s p
    have quiet := hg (strikeDiscarded s p)
    exact .inl ⟨none.trans (.of_same quiet (by decide) (by decide)), fun b =>
      (congrArg Bell.lastTake (bell_congr (quiet .bellGuard (by decide)) b)).trans (takes b)⟩

/-- R49: a setting taken from SAFETY. -/
theorem takes_setting (s : Setting) (p : Part) : Takes p (takeSetting s p) := by
  have same : p.sameBut (takeSetting s p).1 [.bellGuard, .session, .events, .routes, .safety, .up, .flights] := by simp
  have pass : (takeSetting s p).1.line.passQ = p.line.passQ := same .pass (by decide)
  rcases takeSetting_cases s p with ⟨q, _, passes, e⟩ | ⟨q, calm, e⟩
  · rw [e] at pass ⊢
    refine .inr ⟨rfl, .of_launch rfl pass (fun _ => nofun) (fun g hg ha => ?_) fun _ => nofun⟩
    cases hg
    rw [Part.settingPasses, ha] at passes
    exact passes
  · rw [e] at same ⊢
    exact .inl ⟨.of_drift calm.toDrift same (by decide), calm.takes⟩

/-- R168: a frame taken from LOCAL. -/
theorem takes_local (i : LocalItem) (p : Part) : Takes p (takeLocal i p) := by
  cases i with
  | strike s => exact takes_strike s rfl same_localTaken_routes (g := id) fun r => same_refl r _
  | dialStep d f =>
    exact .inr ⟨rfl, .counted (.of_launch (q := { p with line.fieldFlight := some (.dialStep d f) }) rfl rfl
      (fun _ => nofun) (fun _ => nofun) fun _ => nofun) (same_localTaken_routes _)⟩
  | lampLevel g l f =>
    exact .inr ⟨rfl, .counted (.of_launch (q := { p with line.fieldFlight := some (.lampLevel g l f) }) rfl rfl
      (fun _ => nofun) (fun _ => nofun) fun _ => nofun) (same_localTaken_routes _)⟩

/-- R168, R162: the frame at the front of PASS is taken. -/
theorem takes_pass {i : PassItem} {rest : List PassItem} (hi : p.line.passQ = i :: rest) :
    Takes p (takePass i { p with line.passQ := rest }) := by
  have popped : LaunchesNone p { p with line.passQ := rest } :=
    ⟨fun _ _ h => h, fun f hf => .inl (hi ▸ List.mem_cons_of_mem _ hf)⟩
  cases i with
  | plain f =>
    refine .inr ⟨rfl, .counted (q := { p with line.passQ := rest, line.fieldFlight := some (.plain f) }) ?_
      (same_passTaken_routes _ _)⟩
    refine ⟨fun _ => nofun, fun _ => nofun, fun hp => ⟨fun g hg => hp.1 g (hi ▸ List.mem_cons_of_mem _ hg), ?_⟩⟩
    rintro g ⟨⟩
    exact hp.1 f (hi ▸ List.mem_cons_self)
  | strike s =>
    rcases takes_strike s (p := { p with line.passQ := rest }) rfl (same_passTaken_routes true)
      (same_passTaken_routes false) with ⟨none, takes⟩ | ⟨done, flies⟩
    · exact .inl ⟨popped.trans none, takes⟩
    · exact .inr ⟨done, flies.after popped fun _ => rfl⟩

theorem takes_turn (p : Part) : Takes p (turn p) := by
  rcases choose_cases p.line with ⟨none, _⟩ | ⟨s, rest, safety, _⟩ | ⟨i, rest, locals, _⟩ | ⟨i, rest, pass, _, hq, _⟩
  · rw [turn_nothing none]
    exact .inl ⟨.refl p, fun _ => rfl⟩
  · rw [turn_safety safety]
    exact .after (T := [.safety]) (by simp) (by decide) (by decide) (by decide) (takes_setting s _)
  · rw [turn_local locals]
    exact .after (T := [.clock, .tune, .lamps, .locals]) (by simp (maxDischargeDepth := 40)) (by decide)
      (by decide) (by decide) (takes_local i _)
  · rw [turn_pass pass]
    exact takes_pass hq

theorem arbitrate_flyGuarded (k : Nat) (p : Part) : FlyGuarded p (arbitrate k p) := by
  induction k generalizing p with
  | zero => exact (LaunchesNone.refl p).flyGuarded
  | succ k ih =>
    rw [arbitrate_succ]
    rcases takes_turn p with ⟨none, takes⟩ | ⟨done, flies⟩
    · split
      · exact none.flyGuarded
      · exact .after none takes (ih _)
    · rw [if_pos done]
      exact flies

theorem arbiterTakes_flyGuarded (p : Part) : FlyGuarded p (arbiterTakes p) := by
  unfold arbiterTakes
  split
  · exact (LaunchesNone.refl p).flyGuarded
  · exact arbitrate_flyGuarded _ p

/-! ## Receptions -/

/-- The pieces that a frame received may touch before it is forwarded. -/
abbrev received : List Block :=
  [.dialDriver, .bellGuard, .session, .clock, .tune, .lamps, .budget, .events, .routes, .ports, .copies, .safety,
    .locals, .up, .faults, .requests, .mgmt]

theorem LaunchesNone.of_received (h : p.sameBut q received) : LaunchesNone p q := .of_same h (by decide) (by decide)

/-- R163, R166: a frame forwarded to PASS is not of a guarded kind. -/
theorem forwardFrame_launchesNone {t : Port} {f : Frame} (h : t = .console → f.kind ≠ 21 ∧ f.kind ≠ 22) (p : Part) :
    LaunchesNone p (forwardFrame t f p) := by
  cases t with
  | field => exact .of_received (by simp [forwardFrame])
  | console =>
    unfold forwardFrame offerPass
    dsimp only
    split
    · refine ⟨fun _ _ h => h, fun g hg => ?_⟩
      rcases List.mem_append.mp hg with hg | hg
      · exact .inl hg
      · cases List.mem_singleton.mp hg
        exact .inr (h rfl)
    · exact .of_eq rfl rfl

/-- R58: an admitted console strike enters PASS as a strike. -/
theorem offerPass_strike_launchesNone (s : Strike) (p : Part) : LaunchesNone p (offerPass (.strike s) p) := by
  unfold offerPass
  split
  · refine ⟨fun _ _ h => h, fun g hg => .inl ?_⟩
    rcases List.mem_append.mp hg with hg | hg
    · exact hg
    · cases List.mem_singleton.mp hg
  · exact .of_eq rfl rfl

theorem queueConsoleStrike_launchesNone (b id : Nat) (f : Frame) (p : Part) :
    LaunchesNone p (queueConsoleStrike b id f p) := by
  have offered := offerPass_strike_launchesNone { bell := b, charge := id, frame := f } p
  unfold queueConsoleStrike
  split
  · exact offered
  · exact offered.trans (.of_received (by simp))

theorem consoleStrike_launchesNone (f : Frame) (p : Part) : LaunchesNone p (consoleStrike f p) := by
  unfold consoleStrike
  split
  · exact .of_received (by simp)
  · split
    · exact .of_received (by simp)
    · dsimp only
      split
      · exact .trans (.of_received (by simp)) (queueConsoleStrike_launchesNone _ _ _ _)
      · exact .of_received (by simp)

theorem guardFrame_launchesNone (f : Frame) (p : Part) : LaunchesNone p (guardFrame f p) := by
  unfold guardFrame
  split
  · exact consoleStrike_launchesNone f p
  · exact .of_received (by simp)

theorem routeFrame_launchesNone {t : Port} {f : Frame} {a : RouteAction}
    (h : t = .console → a = .forward ∨ a = .tap → f.kind ≠ 21 ∧ f.kind ≠ 22) (p : Part) :
    LaunchesNone p (routeFrame t f a p) := by
  cases a with
  | forward => exact forwardFrame_launchesNone (fun ht => h ht (.inl rfl)) p
  | drop => exact .of_received (by simp [routeFrame])
  | bellCheck => exact guardFrame_launchesNone f p
  | tap =>
    exact .trans (.of_received (by simp)) (forwardFrame_launchesNone (fun ht => h ht (.inr rfl)) _)
  | toPart => exact .of_received (by simp [routeFrame])

/-- R162, case 4: a frame that is forwarded from the console port after classification is not of a guarded kind. -/
theorem guardedAction_forwards {f : Frame} {a : RouteAction}
    (h : guardedAction .console f a = .forward ∨ guardedAction .console f a = .tap) : f.kind ≠ 21 ∧ f.kind ≠ 22 := by
  by_contra hk
  have kind : f.kind = kindStrike ∨ f.kind = kindHammerSet := by
    simp only [kindStrike, kindHammerSet]
    omega
  by_cases ha : a = .drop <;> simp [guardedAction, kind, ha] at h

theorem classify_launchesNone (t : Port) (f : Frame) (p : Part) : LaunchesNone p (classify t f p) := by
  have matched : LaunchesNone p (matchRoute t f (List.range 32) p).1 := .of_received (by simp)
  unfold classify
  split
  · split
    · exact .of_received (by simp)
    · exact .of_eq rfl rfl
  · dsimp only
    split
    · rename_i request
      have kind : f.kind ≠ 21 ∧ f.kind ≠ 22 := by
        rw [request]
        decide
      split
      · exact matched.trans (forwardFrame_launchesNone (fun _ => kind) _)
      · exact matched
      · exact matched.trans (routeFrame_launchesNone (fun _ _ => kind) _)
    · refine matched.trans (routeFrame_launchesNone (fun ht h => ?_) _)
      subst ht
      exact guardedAction_forwards h

theorem receptionPart_launchesNone (t : Port) (bytes : List Byte) (p : Part) :
    LaunchesNone p (receptionPart t bytes p) := by
  unfold receptionPart receive
  split
  · exact .refl p
  · dsimp only
    split
    · exact .trans (.of_received (by simp)) (classify_launchesNone _ _ _)
    · exact .of_received (by simp)

/-! ## Commands -/

/-- The pieces that a command may touch that neither takes a frame, nor completes one, nor receives one. -/
abbrev grounded : List Block :=
  [.time, .dialDriver, .bellGuard, .session, .store, .clock, .tune, .lamps, .budget, .cal, .events, .routes, .ports,
    .copies, .safety, .locals, .up, .faults, .requests, .mgmt]

theorem LaunchesNone.of_grounded (h : p.sameBut q grounded) : LaunchesNone p q := .of_same h (by decide) (by decide)

/-- A request is heard and worked on. -/
theorem serve_launchesNone {i : Instr} {src : Nat} {work : SourceClass → Part → Part}
    (hw : ∀ c r, LaunchesNone r (work c r)) (p : Part) : LaunchesNone p (serve i src work p) := by
  have start : LaunchesNone p (if p.mgmt.inHand.any (fun h => h.request = i) ∧ p.mgmt.replyWaiting.isNone then p
      else deliverRequest i src p) := .of_grounded (by simp)
  unfold serve
  dsimp only
  revert start
  generalize (if p.mgmt.inHand.any (fun h => h.request = i) = true ∧ p.mgmt.replyWaiting.isNone = true then p
      else deliverRequest i src p) = q
  intro start
  (repeat' split)
  · exact .refl p
  · exact start.trans (.of_grounded (by simp))
  · exact start.trans (hw _ _)
  · exact start
  · exact start

theorem serveSimple_launchesNone {i : Instr} {src : Nat} {least : SourceClass} {op : Part → Part × Code}
    (ho : ∀ r : Part, r.sameBut (op r).1 grounded) (p : Part) : LaunchesNone p (serveSimple i src least op p) := by
  refine serve_launchesNone (fun c r => .of_grounded ?_) p
  dsimp only
  split
  · exact same_reply (ho r) (by decide) (by decide)
  · simp

theorem powered_launchesNone {f : Part → Part} (h : LaunchesNone p (f p)) : LaunchesNone p (powered f p) := by
  unfold powered
  split
  · exact h
  · exact .refl p

/-- A start clears the line (R171). -/
theorem warmStart_launchesNone (p : Part) : LaunchesNone p (warmStart p) := by
  have started : p.restarted.sameBut (warmStart p) grounded := by
    have starts : p.restarted.sameBut (guardStarts p.restarted) grounded := by
      unfold guardStarts
      exact same_foldl (fun q a => by simp) _ (same_refl _ _)
    unfold warmStart timeStarts
    split
    · exact starts
    · simp (maxDischargeDepth := 40) [starts]
  exact .of_none ((started .flights (by decide)).1) (.inr (started .pass (by decide)))

theorem cold_launchesNone (p : Part) : LaunchesNone p Part.cold := .of_none rfl (.inr rfl)

theorem fieldCompletes_launchesNone (p : Part) : LaunchesNone p (fieldCompletes p) := .of_none rfl (.inl rfl)

/-- A completion on the field port, with what its sender does at it. -/
theorem completion_launchesNone {f : Part → Part} (h : ∀ r : Part, r.sameBut (f r) grounded) (p : Part) :
    LaunchesNone p (f (fieldCompletes p)) := (fieldCompletes_launchesNone p).trans (.of_grounded (h _))

/-- Every command but the arbiter's take launches nothing. -/
theorem exec_launchesNone {c : Instr} {w v : List Instr} (hc : c ≠ .fieldArbiterTake)
    (he : exec c ⟨p, w⟩ = .next ⟨q, v⟩) : LaunchesNone p q := by
  have done : ∀ {f : Part → Part}, LaunchesNone p (f p) → act f ⟨p, w⟩ = .next ⟨q, v⟩ → LaunchesNone p q :=
    fun {f} k e => by
      have : f p = q ∧ w = v := by simpa using e
      exact this.1 ▸ k
  have ground : ∀ {f : Part → Part}, p.sameBut (f p) grounded → act (powered f) ⟨p, w⟩ = .next ⟨q, v⟩ →
      LaunchesNone p q := fun k e => done (powered_launchesNone (.of_grounded k)) e
  cases c <;> revert he
  case fieldArbiterTake => exact absurd rfl hc
  case oscillatorTick => exact done (f := tickPart) (.of_eq rfl rfl)
  case secondBoundary => exact ground (by simp)
  case silenceTimeout => exact ground (by simp)
  case timeMark => exact ground (by simp)
  case setTime => exact done (serveSimple_launchesNone (fun r => by simp) p)
  case seasonAdd => exact done (serveSimple_launchesNone (fun r => by simp) p)
  case seasonRemove => exact done (serveSimple_launchesNone (fun r => by simp) p)
  case seasonBase => exact done (serveSimple_launchesNone (fun r => by simp) p)
  case readRecord => exact done (serve_launchesNone (fun c r => .of_grounded (by simp)) p)
  case writeRecord =>
    exact done (serve_launchesNone (fun c r => .of_drift (T := .flights :: grounded) (drift_writeWork (Drift.refl r))
      (by simp) (by decide)) p)
  case openCursor => exact done (serve_launchesNone (fun c r => .of_grounded (by simp)) p)
  case readNext => exact done (serve_launchesNone (fun c r => .of_grounded (by simp)) p)
  case writeNext =>
    exact done (serve_launchesNone (fun c r => .of_drift (T := .flights :: grounded)
      (drift_writeNextWork (Drift.refl r)) (by simp) (by decide)) p)
  case dialFastInstant => exact ground (by simp [fastPart])
  case dialStepCompletion =>
    refine done (powered_launchesNone ?_)
    unfold dialCompletionPart
    split
    · exact completion_launchesNone (fun r => by simp) p
    · exact .refl p
  case dialHome => exact ground (by unfold dialHomePart; split <;> simp)
  case setDial => exact done (serveSimple_launchesNone (fun r => by simp) p)
  case bellState => exact ground (by simp (maxDischargeDepth := 40))
  case settleTimeReached => exact ground (by simp)
  case sensorTimeout => exact ground (by simp)
  case hammerReport => exact ground (by simp (maxDischargeDepth := 40))
  case hammerTimeout => exact ground (by simp)
  case claimBells => exact done (serveSimple_launchesNone (fun r => by simp) p)
  case releaseBells => exact done (serveSimple_launchesNone (fun r => by simp) p)
  case consoleIdleTimeout => exact ground (by simp)
  case hammerSetCompletion =>
    refine done (powered_launchesNone ?_)
    unfold settingCompletionPart
    split
    · exact completion_launchesNone (fun r => by simp) p
    · exact .refl p
  case lampLevelCompletion =>
    refine done (powered_launchesNone ?_)
    unfold levelCompletionPart
    split
    · exact completion_launchesNone (fun r => by simp) p
    · exact .refl p
  case ringRequest => exact done (serve_launchesNone (fun c r => .of_grounded (by simp)) p)
  case ringRelease => exact done (serve_launchesNone (fun c r => .of_grounded (by simp)) p)
  case voiceDueInstant => exact ground (by unfold duePart; (repeat' split) <;> simp)
  case heldStrikeDeadline => exact ground (by simp)
  case hourBlow => exact ground (by unfold hourBlowPart; (repeat' split) <;> simp)
  case omitNext => exact done (serveSimple_launchesNone (fun r => by simp) p)
  case startTune => exact done (serveSimple_launchesNone (fun r => by simp) p)
  case stopTune => exact done (serveSimple_launchesNone (fun r => by simp) p)
  case lampUpdate => exact ground (by simp)
  case applyScene => exact done (serveSimple_launchesNone (fun r => by simp) p)
  case lampReport => exact ground (by unfold lampReportPart; split <;> simp)
  case feedState => exact ground (by simp (maxDischargeDepth := 40))
  case strikeChargeRelease => exact ground (by simp)
  case restoreTimerExpiry => exact ground (by simp)
  case scheduleFire => exact ground (by simp)
  case cueSourceEvent => exact ground (by simp)
  case frameReceived => exact done (powered_launchesNone (receptionPart_launchesNone _ _ p))
  case consoleTransmitTake =>
    refine done (powered_launchesNone ?_)
    unfold consoleTakes
    (repeat' split)
    · exact .refl p
    · exact .refl p
    · rename_i i rest _
      exact .trans (q := { p with line.upQ := rest, line.consoleFlight := some i }) (.of_eq rfl rfl)
        (.of_grounded (by simp))
  case resetPartReplyCompletion =>
    refine done (powered_launchesNone ?_)
    unfold resetCompletionPart
    split
    · exact warmStart_launchesNone p
    · exact .refl p
  case ackFault => exact done (serve_launchesNone (fun c r => .of_grounded (by simp)) p)
  case resetPart => exact done (serve_launchesNone (fun c r => .of_grounded (by simp)) p)
  case supplyFail => exact done (f := fun p => { p with retention.supply := false }) (.of_eq rfl rfl)
  case coldPowerOn => exact done (f := fun _ => Part.cold) (cold_launchesNone p)
  case warmPowerOn =>
    refine done (f := powerOn) ?_
    unfold powerOn
    split
    · exact warmStart_launchesNone p
    · exact cold_launchesNone p
  case fieldFrameCompletion =>
    refine done (powered_launchesNone ?_)
    unfold fieldCompletionPart
    split
    · exact fieldCompletes_launchesNone p
    · exact fieldCompletes_launchesNone p
    · exact .refl p
  case consoleFrameCompletion =>
    refine done (powered_launchesNone ?_)
    unfold consoleCompletionPart
    split <;> exact .of_eq rfl rfl
  case receiverIdleGap =>
    refine done (powered_launchesNone ?_)
    unfold gapPart
    split <;> exact .of_eq rfl rfl
  case backupCellLow =>
    refine done (f := fun p => if p.retention.supply then p else { p with retention.cellHeld := false }) ?_
    dsimp only
    split
    · exact .refl p
    · exact .of_eq rfl rfl

end Flights

/-- Settles O17: every command but the arbiter's take launches nothing, and the arbiter launches what its checks let
pass. -/
theorem onlyGuardedFramesFly : Obligations.OnlyGuardedFramesFly := by
  unfold Obligations.OnlyGuardedFramesFly
  rintro ⟨p, pending⟩ ⟨q, v⟩ h
  show FlyGuarded p q
  cases pending with
  | nil =>
    obtain rfl : p = q := by cases h; rfl
    exact (LaunchesNone.refl p).flyGuarded
  | cons c w =>
    have he : exec c ⟨p, w⟩ = .next ⟨q, v⟩ := h
    by_cases hc : c = .fieldArbiterTake
    · subst hc
      obtain rfl : powered arbiterTakes p = q := by cases he; rfl
      unfold powered
      split
      · exact arbiterTakes_flyGuarded p
      · exact (LaunchesNone.refl p).flyGuarded
    · exact (exec_launchesNone hc he).flyGuarded

end Sys2Proof.Machine.Bells


/-! SUPPORT. The Bell Guard's settings (R48, R164): what a setting decided leaves of the bells, the session and the SAFETY
queue, as the statements' `safetyAfter` counts it. -/

namespace Sys2Proof.Machine.Bells

open Dials

/-! ## The SAFETY queue -/

section Safety

variable {p q r : Part} {b : Nat} {a : HammerAction} {st : HammerState} {x : Bell} {T : List Block}
  {l m : List (Nat × HammerAction)}

theorem settingFor_eq (p : Part) (b : Nat) (a : HammerAction) : p.settingFor b a
    = (p.bell b).config.hammerNode.map (fun m => settingOf b m (p.bell b).config a p.mgmt.address) := by
  cases a <;> rfl

theorem settingFor_bell {s : Setting} (h : p.settingFor b a = some s) : s.bell = b := by
  rw [settingFor_eq] at h
  obtain ⟨m, _, rfl⟩ := Option.map_eq_some_iff.mp h
  rfl

/-- R164: a setting enters SAFETY: in the place of its bell's own, or at the back while a place is free. -/
def enterSafety (v : List Setting) : Option Setting → List Setting
  | none => v
  | some s =>
    if v.any (fun t => t.bell = s.bell) then v.map (fun t => if t.bell = s.bell then s else t)
    else if v.length < 8 then v ++ [s] else v

theorem safetyAfter_eq (p : Part) (l : List (Nat × HammerAction)) :
    p.safetyAfter l = l.foldl (fun v d => enterSafety v (p.settingFor d.1 d.2)) p.line.safetyQ := by
  unfold Part.safetyAfter
  congr 1
  funext v d
  cases h : p.settingFor d.1 d.2 with
  | none => rfl
  | some s => simp only [enterSafety, settingFor_bell h]

/-- From `p` to `q` the settings of a list have been decided one after the other, and no configuration has changed. -/
structure Decides (p q : Part) (l : List (Nat × HammerAction)) : Prop where
  queue : q.line.safetyQ = p.safetyAfter l
  settings : ∀ b a, q.settingFor b a = p.settingFor b a

theorem Decides.refl (p : Part) : Decides p p [] := ⟨rfl, fun _ _ => rfl⟩

theorem Decides.trans (h : Decides p q l) (k : Decides q r m) : Decides p r (l ++ m) := by
  refine ⟨?_, fun b a => (k.settings b a).trans (h.settings b a)⟩
  rw [k.queue, safetyAfter_eq q, h.queue, safetyAfter_eq, safetyAfter_eq, List.foldl_append]
  simp only [h.settings]

/-- What alters no bell, no address and no place of SAFETY decides nothing. -/
theorem Decides.of_eq (h1 : q.line.safetyQ = p.line.safetyQ) (h2 : ∀ b, (q.bell b).config = (p.bell b).config)
    (h3 : q.mgmt.address = p.mgmt.address) : Decides p q [] :=
  ⟨h1, fun b a => by rw [settingFor_eq, settingFor_eq, h2, h3]⟩

theorem Decides.of_same (h : p.sameBut q T) (h1 : Block.bellGuard ∉ T) (h2 : Block.safety ∉ T)
    (h3 : Block.requests ∉ T) : Decides p q [] :=
  .of_eq (h .safety h2) (fun b => congrArg Bell.config (bell_congr (h .bellGuard h1) b)) (h .requests h3).2.2.2.1

/-- A record of a bell as it is put: outside the sixteen nothing is written. -/
theorem bell_putBell_cases (p : Part) (b c : Nat) (x : Bell) :
    (p.putBell b x).bell c = x ∧ c = b ∨ (p.putBell b x).bell c = p.bell c ∧ (c ≠ b ∨ ¬ (1 ≤ b ∧ b ≤ 16)) := by
  by_cases hb : 1 ≤ b ∧ b ≤ 16
  · by_cases hc : c = b
    · subst hc
      exact .inl ⟨bell_putBell_self _ _ _ hb, rfl⟩
    · exact .inr ⟨bell_putBell_ne _ _ _ _ hc, .inl hc⟩
  · refine .inr ⟨?_, .inr hb⟩
    rw [Part.bell, Part.putBell, bankPut1_outside _ _ _ hb]
    rfl

theorem Decides.putBell (h : x.config = (p.bell b).config) : Decides p (p.putBell b x) [] := by
  refine .of_eq rfl (fun c => ?_) rfl
  rcases bell_putBell_cases p b c x with ⟨e, rfl⟩ | ⟨e, _⟩
  · rw [e, h]
  · rw [e]

/-- R48: what is wanted of a bell is placed. -/
theorem placeSetting_decides (h : (p.bell b).wanted = some a) : Decides p (placeSetting b p) [(b, a)] := by
  have same : p.sameBut (placeSetting b p) [.safety] := by simp
  refine ⟨?_, fun c a => ?_⟩
  · rw [safetyAfter_eq, List.foldl_cons, List.foldl_nil, settingFor_eq]
    unfold placeSetting
    dsimp only
    rw [h]
    cases (p.bell b).config.hammerNode with
    | none => rfl
    | some m =>
      dsimp only [Option.map_some, enterSafety, settingOf]
      (repeat' split) <;> first | rfl | contradiction
  · rw [settingFor_eq, settingFor_eq, bell_congr (same .bellGuard (by decide)),
      (same .requests (by decide)).2.2.2.1]

end Safety

/-! ## Changes of a hammer's state -/

section Hammers

variable {p q r : Part} {b c : Nat} {a : HammerAction} {st : HammerState} {x : Bell}

theorem fitted_iff : x.fitted = true ↔ x.config.hammerNode ≠ none := by
  rw [Bell.fitted, Option.isSome_iff_ne_none]

/-- A fitted bell is one of the sixteen. -/
theorem fitted_bell (h : (p.bell b).fitted = true) : 1 ≤ b ∧ b ≤ 16 := by
  by_contra hb
  have start : p.bell b = Bell.started (BellConfig.cold b) 0 := bankGet1_outside _ _ _ hb
  simp [Bell.fitted, start, Bell.started, BellConfig.cold] at h

/-- R53: a change of a hammer's state is written in its bell's record; the Session Controller is told in its own. -/
theorem changeHammer_bell (hb : 1 ≤ b ∧ b ≤ 16) (p : Part) (st : HammerState) :
    (changeHammer b st p).bell b = { p.bell b with hammer := st }
      ∧ ∀ c, c ≠ b → (changeHammer b st p).bell c = p.bell c := by
  have guard : (changeHammer b st p).bellGuard = (p.putBell b { p.bell b with hammer := st }).bellGuard := by
    have told : ∀ r : Part, (toldActive b r).bellGuard = r.bellGuard ∧ (toldInactive b r).bellGuard = r.bellGuard :=
      fun r => ⟨(by simp : r.sameBut (toldActive b r) [.session, .events, .up]) .bellGuard (by decide),
        (by simp : r.sameBut (toldInactive b r) [.session]) .bellGuard (by decide)⟩
    unfold changeHammer
    dsimp only
    (repeat' split)
    · rfl
    · exact (told _).1
    · exact (told _).2
  exact ⟨(bell_congr guard b).trans (bell_putBell_self _ _ _ hb),
    fun c hc => (bell_congr guard c).trans (bell_putBell_ne _ _ _ _ hc)⟩

/-- R66: the session after the hammer of bell b has left WITHDRAWN. -/
def withdrawnLeft (b : Nat) (p : Part) : Session :=
  if p.session.state = .preparing ∧ (p.bell b).claims.ringers = true ∧ (p.bell b).hammer = .withdrawn then
    p.session.update b (fun x => { x with stage := .withdrawing })
  else p.session

theorem ringersActive_iff : p.ringersActive b = true ↔ (p.bell b).claims.ringers = true
    ∧ ((p.bell b).hammer = .withdrawn ∨ p.session.state = .opened ∨ p.session.state = .closing) := by
  simp [Part.ringersActive, or_assoc]

/-- R53, R66: a change to a state other than WITHDRAWN can only make a RINGERS claim inactive. -/
theorem changeHammer_left (hb : 1 ≤ b ∧ b ≤ 16) (hst : st ≠ .withdrawn) (p : Part) :
    changeHammer b st p = { p.putBell b { p.bell b with hammer := st } with session := withdrawnLeft b p } := by
  unfold changeHammer withdrawnLeft
  dsimp only
  generalize hq : p.putBell b { p.bell b with hammer := st } = q
  have session : q.session = p.session := by rw [← hq]; rfl
  have after : q.ringersActive b = true ↔ (p.bell b).claims.ringers = true
      ∧ (p.session.state = .opened ∨ p.session.state = .closing) := by
    rw [ringersActive_iff, session, ← hq, bell_putBell_self _ _ _ hb]
    simp [hst]
  by_cases told : p.ringersActive b = q.ringersActive b
  · rw [if_pos told, if_neg, ← session]
    rintro ⟨preparing, ringers, hammer⟩
    rw [← told, ringersActive_iff] at after
    simp [preparing, ringers, hammer] at after
  · have inactive : ¬ q.ringersActive b = true := fun k => by
      have before := ringersActive_iff.mpr ⟨(after.mp k).1, .inr (after.mp k).2⟩
      exact told (before.trans k.symm)
    have active : p.ringersActive b = true := by
      rw [Bool.not_eq_true] at inactive
      simpa [inactive] using told
    obtain ⟨ringers, why⟩ := ringersActive_iff.mp active
    have hammer : (p.bell b).hammer = .withdrawn :=
      why.resolve_right fun k => inactive (after.mpr ⟨ringers, k⟩)
    rw [if_neg told, if_neg inactive, toldInactive, session]
    by_cases preparing : p.session.state = .preparing
    · rw [if_pos preparing, if_pos ⟨preparing, ringers, hammer⟩]
    · rw [if_neg preparing, if_neg fun k => preparing k.1, ← session]

theorem withdrawnLeft_eq (h : (p.bell b).hammer ≠ .withdrawn ∨ (p.bell b).claims.ringers = false
    ∨ p.session.state ≠ .preparing) : withdrawnLeft b p = p.session := by
  unfold withdrawnLeft
  refine if_neg ?_
  rintro ⟨preparing, ringers, hammer⟩
  rcases h with h | h | h
  · exact h hammer
  · simp [ringers] at h
  · exact h preparing

/-! ## Settings decided -/

theorem decideSetting_fitted (h : (p.bell b).fitted = true) (a : HammerAction) :
    decideSetting b a p
      = placeSetting b { p.putBell b (decided (p.bell b) a) with session := withdrawnLeft b p } := by
  have hb := fitted_bell h
  unfold decideSetting
  dsimp only
  rw [if_pos h, changeHammer_left hb (by cases a <;> decide), bell_putBell_self _ _ _ hb, putBell_putBell]
  unfold withdrawnLeft
  rw [bell_putBell_self _ _ _ hb]
  rfl

/-- R48: the record of a bell for which a setting is decided, if it is fitted. -/
theorem decideSetting_bell (p : Part) (b : Nat) (a : HammerAction) :
    (decideSetting b a p).bell b = (if (p.bell b).fitted then decided (p.bell b) a else p.bell b)
      ∧ ∀ c, c ≠ b → (decideSetting b a p).bell c = p.bell c := by
  by_cases h : (p.bell b).fitted = true
  · rw [decideSetting_fitted h, if_pos h]
    generalize hr : ({ p.putBell b (decided (p.bell b) a) with session := withdrawnLeft b p } : Part) = r
    have guard : (placeSetting b r).bellGuard = r.bellGuard :=
      (by simp : r.sameBut (placeSetting b r) [.safety]) .bellGuard (by decide)
    have bells : ∀ c, (placeSetting b r).bell c = (p.putBell b (decided (p.bell b) a)).bell c := fun c => by
      rw [bell_congr guard, ← hr]
      rfl
    exact ⟨(bells b).trans (bell_putBell_self _ _ _ (fitted_bell h)),
      fun c hc => (bells c).trans (bell_putBell_ne _ _ _ _ hc)⟩
  · rw [decideSetting_unfitted (by simpa using h), if_neg h]
    exact ⟨rfl, fun _ _ => rfl⟩

/-- R48, R164: the setting decided stands in SAFETY as `safetyAfter` has it. -/
theorem decideSetting_decides (p : Part) (b : Nat) (a : HammerAction) : Decides p (decideSetting b a p) [(b, a)] := by
  by_cases h : (p.bell b).fitted = true
  · rw [decideSetting_fitted h]
    have put : Decides p (p.putBell b (decided (p.bell b) a)) [] := .putBell rfl
    have told : Decides (p.putBell b (decided (p.bell b) a))
        { p.putBell b (decided (p.bell b) a) with session := withdrawnLeft b p } [] := .of_eq rfl (fun _ => rfl) rfl
    refine (put.trans told).trans (placeSetting_decides ?_)
    show ((p.putBell b (decided (p.bell b) a)).bell b).wanted = some a
    rw [bell_putBell_self _ _ _ (fitted_bell h)]
    rfl
  · rw [decideSetting_unfitted (by simpa using h)]
    refine ⟨?_, fun _ _ => rfl⟩
    have none : (p.bell b).config.hammerNode = none := by simpa [Bell.fitted] using h
    rw [safetyAfter_eq, List.foldl_cons, List.foldl_nil, settingFor_eq, none]
    rfl

/-- R48, R66: a setting decided alters bells, SAFETY, and of the session what leaving WITHDRAWN does. -/
theorem decideSetting_frame (p : Part) (b : Nat) (a : HammerAction) :
    p.sameBut (decideSetting b a p) [.bellGuard, .session, .safety]
      ∧ ((p.bell b).hammer ≠ .withdrawn ∨ (p.bell b).claims.ringers = false ∨ p.session.state ≠ .preparing →
          p.sameBut (decideSetting b a p) [.bellGuard, .safety]) := by
  by_cases h : (p.bell b).fitted = true
  · rw [decideSetting_fitted h]
    refine ⟨by simp, fun hs => ?_⟩
    rw [withdrawnLeft_eq hs]
    simp
  · rw [decideSetting_unfitted (by simpa using h)]
    exact ⟨same_refl _ _, fun _ => same_refl _ _⟩

/-! ## Re-engagement -/

theorem mayEngage_iff : p.mayEngage b = true ↔ (p.bell b).config.hammerNode ≠ none ∧ (p.bell b).hammer = .withdrawn
    ∧ (p.bell b).wanted = none ∧ p.mgmt.partState = .running
    ∧ ((p.bell b).config.cls = .fixed ∨ (p.bell b).claims.ringers = false ∧ (p.bell b).settled = true) := by
  simp [Part.mayEngage, Bell.fitted, Option.isSome_iff_ne_none, and_assoc]

theorem reengage_not (h : p.mayEngage b = false) : reengage b p = p := by
  simp [reengage, h]

/-- R51: the record of a bell that is engaged again. -/
def engaged (x : Bell) : Bell := decided { x with intruded := false } .engage

/-- R51: what the re-engagement of bell b does. -/
theorem reengage_engages (h : p.mayEngage b = true) :
    (reengage b p).bell b = engaged (p.bell b) ∧ (∀ c, c ≠ b → (reengage b p).bell c = p.bell c)
      ∧ Decides p (reengage b p) [(b, .engage)] ∧ p.sameBut (reengage b p) [.bellGuard, .session, .safety]
      ∧ ((p.bell b).claims.ringers = false → p.sameBut (reengage b p) [.bellGuard, .safety]) := by
  have fit : (p.bell b).fitted = true := fitted_iff.mpr (mayEngage_iff.mp h).1
  have hb := fitted_bell fit
  have e : reengage b p = decideSetting b .engage (p.putBell b { p.bell b with intruded := false }) := if_pos h
  rw [e]
  generalize hr : p.putBell b { p.bell b with intruded := false } = r
  have own : r.bell b = { p.bell b with intruded := false } := hr ▸ bell_putBell_self _ _ _ hb
  have put : Decides p r [] := hr ▸ .putBell rfl
  obtain ⟨decidedOwn, others⟩ := decideSetting_bell r b .engage
  obtain ⟨same, same'⟩ := decideSetting_frame r b .engage
  rw [own] at decidedOwn same'
  refine ⟨decidedOwn.trans (if_pos fit), fun c hc => (others c hc).trans (by rw [← hr, bell_putBell_ne _ _ _ _ hc]),
    put.trans (decideSetting_decides r b .engage), ?_, fun hc => ?_⟩
  · exact sameBut_trans (by rw [← hr]; simp) same
  · exact sameBut_trans (by rw [← hr]; simp) (same' (.inr (.inl hc)))

end Hammers

end Sys2Proof.Machine.Bells


/-! SUPPORT. The settings that the Guard places at a freed place of SAFETY (R164), and the completions on the field port other
than a dial step's (R49, R128, R169). -/

namespace Sys2Proof.Machine.Bells

open Dials

section Placing

variable {p q r : Part} {b : Nat} {a : HammerAction} {s : Setting} {v : List Setting}

/-- R164: settings of bells that have none in SAFETY enter at its back while places remain. -/
theorem enterSafety_new (l : List Setting) (hn : (l.map Setting.bell).Nodup)
    (hv : ∀ s ∈ l, ∀ t ∈ v, t.bell ≠ s.bell) :
    l.foldl (fun v s => enterSafety v (some s)) v = v ++ l.take (8 - v.length) := by
  induction l generalizing v with
  | nil => simp
  | cons s l ih =>
    obtain ⟨hs, hn⟩ := List.nodup_cons.mp hn
    have new : ¬ v.any (fun t => t.bell = s.bell) = true := by
      simpa using hv s List.mem_cons_self
    rw [List.foldl_cons, enterSafety, if_neg new]
    by_cases room : v.length < 8
    · rw [if_pos room, ih hn]
      · rw [List.append_assoc, List.length_append, List.length_singleton,
          show 8 - v.length = 8 - (v.length + 1) + 1 by omega, List.take_succ_cons, List.singleton_append]
      · intro t ht u hu
        rcases List.mem_append.mp hu with hu | hu
        · exact hv t (List.mem_cons_of_mem _ ht) u hu
        · rw [List.mem_singleton.mp hu]
          exact fun e => hs (e ▸ List.mem_map_of_mem ht)
    · rw [if_neg room, ih hn fun t ht => hv t (List.mem_cons_of_mem _ ht),
        show 8 - v.length = 0 by omega, List.take_zero, List.take_zero]

/-- R164: the settings that the Guard wants placed: of the bells of a list that have none in SAFETY. -/
def wantedOf (p : Part) (l : List Nat) : List (Nat × HammerAction) :=
  l.filterMap (fun b =>
    if p.line.safetyQ.any (fun y => y.bell = b) then none else (p.bell b).wanted.map (fun a => (b, a)))

theorem mem_wantedOf {d : Nat × HammerAction} {l : List Nat} : d ∈ wantedOf p l ↔ d.1 ∈ l
    ∧ (∀ y ∈ p.line.safetyQ, y.bell ≠ d.1) ∧ (p.bell d.1).wanted = some d.2 := by
  simp only [wantedOf, List.mem_filterMap, Option.ite_none_left_eq_some, List.any_eq_true, decide_eq_true_eq,
    Option.map_eq_some_iff, not_exists, not_and]
  constructor
  · rintro ⟨b, hb, hq, a, ha, rfl⟩
    exact ⟨hb, hq, ha⟩
  · rintro ⟨hb, hq, ha⟩
    exact ⟨d.1, hb, hq, d.2, ha, rfl⟩

/-- The frames of the settings wanted, of the bells that are fitted. -/
def framesOf (p : Part) (l : List Nat) : List Setting := (wantedOf p l).filterMap (fun d => p.settingFor d.1 d.2)

theorem mem_framesOf {l : List Nat} : s ∈ framesOf p l ↔ s.bell ∈ l ∧ (∀ y ∈ p.line.safetyQ, y.bell ≠ s.bell)
    ∧ ∃ a, (p.bell s.bell).wanted = some a ∧ p.settingFor s.bell a = some s := by
  simp only [framesOf, List.mem_filterMap]
  constructor
  · rintro ⟨d, hd, hs⟩
    obtain ⟨hl, hq, ha⟩ := mem_wantedOf.mp hd
    rw [settingFor_bell hs]
    exact ⟨hl, hq, d.2, ha, hs⟩
  · rintro ⟨hl, hq, a, ha, hs⟩
    exact ⟨(s.bell, a), mem_wantedOf.mpr ⟨hl, hq, ha⟩, hs⟩

/-- The settings stand in the order of their bells. -/
theorem framesOf_sorted {l : List Nat} (hl : l.Pairwise (· < ·)) :
    (framesOf p l).Pairwise (fun s t => s.bell < t.bell) := by
  unfold framesOf wantedOf
  rw [List.filterMap_filterMap]
  refine List.Pairwise.filterMap _ (fun b c hbc s hs t ht => ?_) hl
  have bell : ∀ {b : Nat} {s : Setting}, ((if p.line.safetyQ.any (fun y => y.bell = b) then none
      else (p.bell b).wanted.map (fun a => (b, a))).bind fun d => p.settingFor d.1 d.2) = some s → s.bell = b := by
    intro b s hs
    obtain ⟨d, hd, hs⟩ := Option.bind_eq_some_iff.mp hs
    obtain ⟨_, hd⟩ := Option.ite_none_left_eq_some.mp hd
    obtain ⟨a, _, rfl⟩ := Option.map_eq_some_iff.mp hd
    exact settingFor_bell hs
  rw [bell hs, bell ht]
  exact hbc

/-- R164: SAFETY after the Guard has placed the settings it wants. -/
theorem safetyAfter_wanted {l : List Nat} (hl : l.Pairwise (· < ·)) :
    p.safetyAfter (wantedOf p l) = p.line.safetyQ ++ (framesOf p l).take (8 - p.line.safetyQ.length) := by
  have fold : p.safetyAfter (wantedOf p l)
      = (framesOf p l).foldl (fun v s => enterSafety v (some s)) p.line.safetyQ := by
    rw [safetyAfter_eq, framesOf, List.foldl_filterMap]
    congr 1
    funext v d
    cases p.settingFor d.1 d.2 <;> rfl
  rw [fold]
  refine enterSafety_new _ ?_ fun s hs => (mem_framesOf.mp hs).2.1
  exact List.Pairwise.map _ (fun _ _ h => Nat.ne_of_lt h) (framesOf_sorted hl)

/-- R164: the Guard places its wanted settings in the order of a list of bells, each named once. -/
theorem placeWanted_fold {l : List Nat} (hl : l.Nodup) (p : Part) :
    Decides p (l.foldl (fun p b => if p.line.safetyQ.any (fun t => t.bell = b) then p else placeSetting b p) p)
      (wantedOf p l) := by
  induction l generalizing p with
  | nil => exact .refl p
  | cons b l ih =>
    obtain ⟨hb, hl⟩ := List.nodup_cons.mp hl
    rw [List.foldl_cons]
    by_cases hq : p.line.safetyQ.any (fun t => t.bell = b) = true
    · rw [if_pos hq, show wantedOf p (b :: l) = wantedOf p l by simp only [wantedOf, List.filterMap_cons, if_pos hq]]
      exact ih hl p
    · rw [if_neg hq]
      generalize hr : placeSetting b p = r
      have guard : r.bellGuard = p.bellGuard :=
        hr ▸ (by simp : p.sameBut (placeSetting b p) [.safety]) .bellGuard (by decide)
      have others : ∀ c ∈ l, r.line.safetyQ.any (fun t => t.bell = c) = p.line.safetyQ.any (fun t => t.bell = c) := by
        intro c hc
        have ne : b ≠ c := fun e => hb (e ▸ hc)
        rcases placeSetting_new hq with ⟨stays, _⟩ | ⟨m, a, _, _, enters⟩
        · rw [← hr, stays]
        · rw [← hr, enters]
          simp [settingOf, ne]
      have later : wantedOf r l = wantedOf p l := by
        refine List.filterMap_congr fun c hc => ?_
        rw [others c hc, bell_congr guard]
      have rest := later ▸ ih hl r
      cases ha : (p.bell b).wanted with
      | none =>
        have stays : r = p := by rw [← hr, placeSetting, ha]; split <;> simp_all
        rw [show wantedOf p (b :: l) = wantedOf p l by
          simp only [wantedOf, List.filterMap_cons, if_neg hq, ha, Option.map_none]]
        rw [stays] at rest ⊢
        exact rest
      | some a =>
        rw [show wantedOf p (b :: l) = (b, a) :: wantedOf p l by
          simp only [wantedOf, List.filterMap_cons, if_neg hq, ha, Option.map_some]]
        exact (hr ▸ placeSetting_decides ha : Decides p r [(b, a)]).trans rest

theorem placeWanted_decides (p : Part) : Decides p (placeWanted p) (wantedOf p (List.range' 1 16)) :=
  placeWanted_fold (l := bellNumbers) (by decide) p

end Placing

/-! ## Completions -/

section Completions

variable {p q r : Part} {b : Nat} {s : Setting}

@[simp] theorem putBell_bell (p : Part) (b : Nat) : p.putBell b (p.bell b) = p := by
  simp [Part.putBell, Part.bell, bankPut1_bankGet1]

/-- R49: the record of a bell whose HAMMER_SET has completed. -/
def timed (x : Bell) (act : HammerAction) (osc : Nat) : Bell :=
  { x with
    hammerTimer := if x.hammer = (if act = .engage then .engaging else .withdrawing) then some (osc + 5120)
      else x.hammerTimer }

theorem settingCompletes_eq (s : Setting) (p : Part) :
    settingCompletes s p = placeWanted (p.putBell s.bell (timed (p.bell s.bell) s.action p.osc)) := by
  have underWay : s.action.underWay = if s.action = .engage then .engaging else .withdrawing := by
    cases s.action <;> rfl
  unfold settingCompletes timed
  dsimp only
  rw [underWay]
  by_cases h : (p.bell s.bell).hammer = if s.action = .engage then .engaging else .withdrawing
  · rw [if_pos h, if_pos h]
    rfl
  · rw [if_neg h, if_neg h, putBell_bell]

/-- R49, R164: what the completion of a HAMMER_SET does: the record of its bell, and the settings placed. -/
theorem settingCompletes_places (hb : 1 ≤ s.bell ∧ s.bell ≤ 16) (hr : p.sameBut r [.ports, .flights])
    (hq : q = settingCompletes s r) :
    q.bell s.bell = timed (p.bell s.bell) s.action p.osc ∧ (∀ b, b ≠ s.bell → q.bell b = p.bell b)
      ∧ q.line.safetyQ = p.line.safetyQ
          ++ (framesOf p (List.range' 1 16)).take (8 - p.line.safetyQ.length)
      ∧ q.line.safetyQ = p.safetyAfter (wantedOf p (List.range' 1 16)) ∧ r.sameBut q [.bellGuard, .safety] := by
  have start := bell_congr (hr .bellGuard (by decide))
  have osc : r.osc = p.osc := hr .osc (by decide)
  rw [settingCompletes_eq, start, osc] at hq
  generalize ht : r.putBell s.bell (timed (p.bell s.bell) s.action p.osc) = t at hq
  have own : t.bell s.bell = timed (p.bell s.bell) s.action p.osc := ht ▸ bell_putBell_self _ _ _ hb
  have others : ∀ b, b ≠ s.bell → t.bell b = p.bell b := fun b h => by rw [← ht, bell_putBell_ne _ _ _ _ h, start]
  have queue : t.line.safetyQ = p.line.safetyQ := by
    rw [← ht]
    exact hr .safety (by decide)
  have put : Decides p t [] :=
    (Decides.of_same hr (by decide) (by decide) (by decide)).trans (ht ▸ .putBell (by rw [start]; rfl))
  have wanted : ∀ l, wantedOf t l = wantedOf p l := fun l => by
    refine List.filterMap_congr fun c _ => ?_
    have wants : (t.bell c).wanted = (p.bell c).wanted := by
      by_cases hc : c = s.bell
      · rw [hc, own]
        rfl
      · rw [others c hc]
    rw [queue, wants]
  have placed := put.trans (placeWanted_decides t)
  rw [← hq, wanted] at placed
  have same : t.sameBut q [.safety] := by rw [hq]; simp
  have bells := bell_congr (same .bellGuard (by decide))
  exact ⟨(bells _).trans own, fun b h => (bells b).trans (others b h),
    placed.queue.trans (safetyAfter_wanted (by decide)), placed.queue,
    sameBut_trans (by rw [← ht]; simp) (sameBut_mono same (by simp))⟩

/-- R164: of the bells that want a setting placed, every one has one in SAFETY, or SAFETY is full; and none has one ahead
of a bell of a lower number. -/
theorem placed_lowest {v : List Setting}
    (hv : v = p.line.safetyQ ++ (framesOf p (List.range' 1 16)).take (8 - p.line.safetyQ.length)) :
    (∀ b, 1 ≤ b → b ≤ 16 → (p.bell b).config.hammerNode ≠ none → (p.bell b).wanted ≠ none →
        (∃ y ∈ v, y.bell = b) ∨ 8 ≤ v.length)
      ∧ ∀ a b, 1 ≤ a → a < b → (p.bell a).config.hammerNode ≠ none → (p.bell a).wanted ≠ none →
        (∃ y ∈ v, y.bell = b) → (∀ y ∈ p.line.safetyQ, y.bell ≠ b) → ∃ y ∈ v, y.bell = a := by
  subst hv
  generalize hl : framesOf p (List.range' 1 16) = l
  have sorted : l.Pairwise (fun s t => s.bell < t.bell) := hl ▸ framesOf_sorted (by decide)
  have known : ∀ b, 1 ≤ b → b ≤ 16 → (p.bell b).config.hammerNode ≠ none → (p.bell b).wanted ≠ none →
      (∃ y ∈ p.line.safetyQ, y.bell = b) ∨ ∃ y ∈ l, y.bell = b := by
    intro b h1 h16 hf hw
    by_cases hq : ∃ y ∈ p.line.safetyQ, y.bell = b
    · exact .inl hq
    obtain ⟨m, hm⟩ := Option.ne_none_iff_exists'.mp hf
    obtain ⟨a, ha⟩ := Option.ne_none_iff_exists'.mp hw
    refine .inr ⟨settingOf b m (p.bell b).config a p.mgmt.address, ?_, rfl⟩
    rw [← hl, mem_framesOf]
    refine ⟨List.mem_range'_1.mpr ⟨h1, show b < 1 + 16 by omega⟩, fun y hy e => hq ⟨y, hy, e⟩, a, ha, ?_⟩
    rw [settingFor_eq, show (settingOf b m (p.bell b).config a p.mgmt.address).bell = b from rfl, hm]
    rfl
  refine ⟨fun b h1 h16 hf hw => ?_, fun a b h1 hab hf hw hb hn => ?_⟩
  · rcases known b h1 h16 hf hw with ⟨y, hy, e⟩ | ⟨y, hy, e⟩
    · exact .inl ⟨y, List.mem_append_left _ hy, e⟩
    · by_cases room : l.length ≤ 8 - p.line.safetyQ.length
      · exact .inl ⟨y, List.mem_append_right _ (by rwa [List.take_of_length_le room]), e⟩
      · refine .inr ?_
        rw [List.length_append, List.length_take]
        omega
  · obtain ⟨y, hy, hyb⟩ := hb
    have placed := (List.mem_append.mp hy).resolve_left fun k => hn y k hyb
    have low : a ≤ 16 := by
      have k := (mem_framesOf.mp (hl ▸ List.mem_of_mem_take placed)).1
      rw [hyb, List.mem_range'_1] at k
      omega
    rcases known a h1 low hf hw with ⟨z, hz, e⟩ | ⟨z, hz, e⟩
    · exact ⟨z, List.mem_append_left _ hz, e⟩
    · refine ⟨z, List.mem_append_right _ ?_, e⟩
      rw [← List.take_append_drop (8 - p.line.safetyQ.length) l] at sorted hz
      refine (List.mem_append.mp hz).resolve_right fun k => ?_
      have := (List.pairwise_append.mp sorted).2.2 y placed z k
      omega

end Completions

/-- Settles O36: each completion is the model's own on the part whose transmitter is free, and of a HAMMER_SET's what is
placed is the lowest bells' settings. -/
theorem fieldCompletions : Obligations.FieldCompletions := by
  unfold Obligations.FieldCompletions
  intro p r w hs hr
  have run {f : Part → Part} {t : Part} (h : f p = t) : act (powered f) ⟨p, w⟩ = .next ⟨t, w⟩ := by simp [hs, h]
  have free : fieldCompletes p = r := hr.symm
  refine ⟨fun hn hf => run ?_, fun h => run ?_, fun h => run ?_, fun l f h => run ?_, fun g l f h => run ?_,
    fun h => run ?_, fun s x h h1 h16 hx => ?_⟩
  · unfold fieldCompletionPart
    split
    · exact absurd ‹_› (hn _)
    · exact absurd ‹_› (hf _)
    · rfl
  · unfold fieldCompletionPart
    rcases h with ⟨s, h⟩ | ⟨f, h⟩ <;> rw [h] <;> exact free
  · unfold levelCompletionPart
    split
    · exact absurd ‹_› (h _ _ _)
    · rfl
  · unfold levelCompletionPart
    rw [h, free]
    rfl
  · unfold levelCompletionPart
    rw [h, free, hr]
    rfl
  · unfold settingCompletionPart
    split
    · exact absurd ‹_› (h _)
    · rfl
  · have done : settingCompletionPart p = settingCompletes s r := by
      unfold settingCompletionPart
      rw [h, free]
    obtain ⟨own, others, queue, after, same⟩ :=
      settingCompletes_places (p := p) (r := r) ⟨h1, h16⟩ (by rw [hr]; simp) rfl
    obtain ⟨known, lowest⟩ := placed_lowest queue
    refine ⟨_, run done, ?_, others, ⟨_, queue.symm⟩, after, known, lowest, same⟩
    rw [own, hx]
    rfl

end Sys2Proof.Machine.Bells


/-! SUPPORT. The owner of a bell and the guard check at admission (R53, R57), with the charges of strikes, which no exchange
of the Feed Budget with lamps and dials touches (R137, R138, R141). -/

namespace Sys2Proof.Machine.Bells

open Dials

/-! ## The charges of strikes -/

section StrikeCharges

variable {p q r : Part} {b : Nat} {o : Origin}

/-- A charge that a strike holds (TABLE 8-2). -/
def ofSomeStrike (c : Charge) : Bool :=
  match c.holder with
  | .strike _ _ => true
  | _ => false

/-- The charges of strikes in the list, in its order. -/
def strikeCharges (p : Part) : List Charge := p.budget.charges.filter ofSomeStrike

theorem mem_strikeCharges {c : Charge} : c ∈ strikeCharges p ↔ c ∈ p.budget.charges ∧ ofSomeStrike c = true :=
  List.mem_filter

theorem strikeCharges_congr (h : q.budget.charges = p.budget.charges) : strikeCharges q = strikeCharges p := by
  rw [strikeCharges, h, strikeCharges]

theorem addCharge_strikeCharges (holder : Holder) (amount : Nat) (p : Part) :
    strikeCharges (addCharge holder amount p) = strikeCharges p
      ++ match holder with
        | .strike _ _ =>
          [{ id := p.budget.nextId, holder := holder, amount := amount, grantedAt := p.osc, releaseAt := none }]
        | _ => [] := by
  cases holder <;> simp [strikeCharges, addCharge, ofSomeStrike]

theorem setGroupCharge_strikeCharges (g amount : Nat) (p : Part) :
    strikeCharges (setGroupCharge g amount p) = strikeCharges p := by
  have group : ∀ c : Charge, ofSomeStrike c = true → c.ofGroup g = false := fun c h => by
    cases hc : c.holder <;> simp [ofSomeStrike, Charge.ofGroup, hc] at h ⊢
  unfold setGroupCharge
  split
  · unfold strikeCharges
    rw [List.filter_filter]
    exact List.filter_congr fun c _ => by cases h : ofSomeStrike c <;> simp [group c, h]
  · split
    · unfold strikeCharges
      rw [List.filter_map]
      have same : ofSomeStrike ∘ (fun c : Charge => if c.ofGroup g then { c with amount := amount } else c)
          = ofSomeStrike := by
        funext c
        dsimp only [Function.comp]
        split <;> rfl
      rw [same]
      refine (List.map_congr_left fun c hc => ?_).trans (List.map_id _)
      rw [if_neg (by simp [group c (List.mem_filter.mp hc).2]), id]
    · rw [addCharge_strikeCharges, List.append_nil]

theorem offerLevel_strikeCharges (g : Nat) (p : Part) : strikeCharges (offerLevel g p) = strikeCharges p :=
  strikeCharges_congr (congrArg FeedBudget.charges
    ((by simp : p.sameBut (offerLevel g p) [.lamps, .locals]) .budget (by decide)))

theorem lowerGroup_strikeCharges (g level : Nat) (p : Part) : strikeCharges (lowerGroup g level p) = strikeCharges p := by
  unfold lowerGroup
  dsimp only
  rw [offerLevel_strikeCharges]
  exact setGroupCharge_strikeCharges _ _ (p.putGroup g _)

theorem reclaim_strikeCharges (x : Nat) (p : Part) : strikeCharges (reclaim x p) = strikeCharges p := by
  unfold reclaim
  generalize reclaimOrder p = l
  induction l generalizing x p with
  | nil => rfl
  | cons g l ih =>
    unfold reclaimWalk
    dsimp only
    (repeat' split)
    · rfl
    · exact lowerGroup_strikeCharges _ _ _
    · rw [ih, lowerGroup_strikeCharges]

theorem tryGrant_dial_strikeCharges {d a : Nat} {t : Part × Bool} (h : tryGrant (.dial d) a p = some t) :
    strikeCharges t.1 = strikeCharges p := by
  unfold tryGrant at h
  split at h
  · cases h
  · cases h
    rw [addCharge_strikeCharges, List.append_nil]
  · cases h
    rw [addCharge_strikeCharges, List.append_nil, reclaim_strikeCharges]

theorem dialGranted_budget (d : Nat) (p : Part) : (dialGranted d p).budget = p.budget := by
  unfold dialGranted
  dsimp only
  rw [offerStep_budget]
  split <;> rfl

theorem reofferOne_strikeCharges (acc : Part × Bool) (d : Nat) :
    strikeCharges (reofferOne acc d).1 = strikeCharges acc.1 := by
  unfold reofferOne
  dsimp only
  split
  · rename_i h
    rw [strikeCharges_congr (congrArg FeedBudget.charges (dialGranted_budget _ _))]
    exact tryGrant_dial_strikeCharges h
  · rfl

theorem reoffer_strikeCharges (k : Nat) (p : Part) : strikeCharges (reoffer k p) = strikeCharges p := by
  have round : ∀ (l : List Nat) (acc : Part × Bool), strikeCharges (l.foldl reofferOne acc).1 = strikeCharges acc.1 := by
    intro l
    induction l with
    | nil => exact fun _ => rfl
    | cons d l ih => exact fun acc => (ih _).trans (reofferOne_strikeCharges acc d)
  induction k generalizing p with
  | zero => rfl
  | succ k ih =>
    unfold reoffer
    dsimp only
    split
    · rw [ih, round]
    · exact round _ _

theorem afterRelease_strikeCharges (p : Part) : strikeCharges (afterRelease p) = strikeCharges p :=
  reoffer_strikeCharges 5 p

theorem afterGrant_strikeCharges (lowered : Bool) (p : Part) : strikeCharges (afterGrant lowered p) = strikeCharges p := by
  unfold afterGrant
  split
  · exact afterRelease_strikeCharges p
  · rfl

/-! ## Strikes admitted -/

/-- R136, R137: a strike's charge is asked for: refused, or entered under the identity that is handed back. -/
theorem askStrike_cases (b : Nat) (o : Origin) (a : Nat) (p : Part) :
    (p.budget.decide a = .refuse
        ∧ askStrike b o a p = ({ p with budget.strikeRefusals := bump p.budget.strikeRefusals }, none))
    ∨ p.budget.decide a ≠ .refuse ∧ ∃ id, (askStrike b o a p).2 = some id
        ∧ ∃ c ∈ (askStrike b o a p).1.budget.charges, c.id = id ∧ c.holder = .strike b o ∧ c.amount = a
          ∧ c.releaseAt = none := by
  have entered : ∀ (r : Part) (lowered : Bool), ∃ c ∈ (afterGrant lowered
      { addCharge (.strike b o) a r with
        budget.strikeGrants := bump (addCharge (.strike b o) a r).budget.strikeGrants }).budget.charges,
      c.id = (addCharge (.strike b o) a r).budget.nextId - 1 ∧ c.holder = .strike b o ∧ c.amount = a
        ∧ c.releaseAt = none := by
    intro r lowered
    have mem := addCharge_strikeCharges (.strike b o) a r
    rw [← strikeCharges_congr (p := addCharge (.strike b o) a r) (q := { addCharge (.strike b o) a r with
        budget.strikeGrants := bump (addCharge (.strike b o) a r).budget.strikeGrants }) rfl,
      ← afterGrant_strikeCharges lowered] at mem
    exact ⟨_, (mem_strikeCharges.mp (mem ▸ List.mem_append_right _ List.mem_cons_self)).1, rfl, rfl, rfl, rfl⟩
  unfold askStrike tryGrant
  cases h : p.budget.decide a with
  | refuse => exact .inl ⟨rfl, rfl⟩
  | grant => exact .inr ⟨nofun, _, rfl, entered p false⟩
  | reclaim x => exact .inr ⟨nofun, _, rfl, entered (reclaim x p) true⟩

theorem admitStrike_refused (h : p.admission b o ≠ .admitted) :
    admitStrike b o p = (refuseStrike b p, p.admission b o, 0) := by
  unfold admitStrike
  split
  · exact absurd ‹_› h
  · rfl

theorem admitStrike_skipped (h : p.admission b o = .admitted)
    (ha : askStrike b o (p.bell b).config.charge p = (q, none)) :
    admitStrike b o p = (refuseStrike b q, .budgetSkip, 0) := by
  simp only [admitStrike, h, ha]

theorem admitStrike_granted {id : Nat} (h : p.admission b o = .admitted)
    (ha : (askStrike b o (p.bell b).config.charge p).2 = some id) :
    admitStrike b o p = ((askStrike b o (p.bell b).config.charge p).1, .admitted, id) := by
  simp only [admitStrike, h, ha]

end StrikeCharges

/-! ## Owners -/

section Owners

variable {p : Part} {b : Nat}

theorem forall_claimClass {P : ClaimClass → Prop} :
    (∀ c, P c) ↔ P .ringers ∧ P .console ∧ P .clock ∧ P .tune :=
  ⟨fun h => ⟨h _, h _, h _, h _⟩, fun ⟨h1, h2, h3, h4⟩ c => by cases c <;> assumption⟩

theorem owner_eq (p : Part) (b : Nat) : p.owner b
    = if p.claimActive b .ringers then some .ringers
      else if p.claimActive b .console then some .console
      else if p.claimActive b .clock then some .clock
      else if p.claimActive b .tune then some .tune
      else none := rfl

/-- R53: the owner is the highest-ranked active claim. -/
theorem owner_eq_some_iff {c : ClaimClass} : p.owner b = some c ↔
    p.claimActive b c = true ∧ ∀ a, p.claimActive b a = true → a.rank ≤ c.rank := by
  rw [owner_eq, forall_claimClass]
  split_ifs <;> cases c <;> simp_all [ClaimClass.rank]

theorem owner_eq_none_iff : p.owner b = none ↔ ∀ c, p.claimActive b c = false := by
  rw [owner_eq, forall_claimClass]
  split_ifs <;> simp_all

end Owners

theorem still_iff {x : Bell} : x.still = true ↔ x.config.cls = .fixed ∨ x.position = .down := by simp [Bell.still]

theorem recovered_iff {x : Bell} {now : Nat} :
    x.recovered now = true ↔ ∀ t, x.lastTake = some t → t + msTicks x.config.recovery ≤ now := by
  unfold Bell.recovered
  cases x.lastTake <;> simp

/-- Settles O31: the owner by rank, and the guard check by the first of its conditions that fails. -/
theorem admissionAnswers : Obligations.AdmissionAnswers := by
  unfold Obligations.AdmissionAnswers
  refine ⟨fun p b => ⟨fun c => owner_eq_some_iff, owner_eq_none_iff, ringersActive_iff⟩, ?_⟩
  intro p b o x h1 h16 hx still ready r refused
  have hstill : x.still = true ↔ still := still_iff
  have hready : x.recovered p.osc = true ↔ ready := recovered_iff
  have answer {a : Answer} (ha : a ≠ .admitted) (h : p.admission b o = a) : r.1 = refused ∧ r.2.1 = a := by
    have e : r = (refuseStrike b p, a, 0) := h ▸ admitStrike_refused (h ▸ ha)
    rw [e]
    exact ⟨by rw [refuseStrike, ← hx], rfl⟩
  have check : p.admission b o = if p.mgmt.partState = .safe then .safe
      else if p.owner b ≠ some o.claim then .notOwner
      else if !x.config.permits.allows o then .notPermitted
      else if !x.still then .position
      else if x.hammer ≠ .engaged then .hammer
      else if !x.recovered p.osc then .recovery
      else .admitted := by rw [hx]; rfl
  refine ⟨fun safe => answer nofun ?_, fun running => ⟨fun other => answer nofun ?_, fun owner =>
    ⟨fun barred => answer nofun ?_, fun allowed => ⟨fun swings => answer nofun ?_,
      fun rests lifted => answer nofun ?_, fun rests engaged soon => answer nofun ?_,
      fun rests engaged due => ?_⟩⟩⟩⟩
  · simp [check, safe]
  · simp [check, running, other]
  · simp [check, running, owner, barred]
  · simp [check, running, owner, allowed, mt hstill.mp swings]
  · simp [check, running, owner, allowed, hstill.mpr rests, lifted]
  · simp [check, running, owner, allowed, hstill.mpr rests, engaged, mt hready.mp soon]
  · have admitted : p.admission b o = .admitted := by
      simp [check, running, owner, allowed, hstill.mpr rests, engaged, hready.mpr due]
    rcases askStrike_cases b o (p.bell b).config.charge p with ⟨refuse, ask⟩ | ⟨grant, id, ask, entered⟩
    · refine ⟨fun _ => ?_, fun k => absurd (hx ▸ refuse) k⟩
      have e : r = _ := admitStrike_skipped admitted ask
      have counted : refuseStrike b p = refused := by rw [refuseStrike, ← hx]
      rw [e, ← counted]
      exact ⟨rfl, rfl⟩
    · refine ⟨fun k => absurd (hx ▸ k) grant, fun _ => ?_⟩
      have e : r = _ := admitStrike_granted admitted ask
      rw [e, hx]
      exact ⟨rfl, entered, by simp⟩

end Sys2Proof.Machine.Bells


/-! SUPPORT. The claims of the CONSOLE (R55, R56). -/

namespace Sys2Proof.Machine.Bells

open Dials

section ConsoleClaims

variable {p q r : Part} {b src n : Nat} {cls : SourceClass} {bells l : List Nat}

theorem mem_canonical {b : Nat} : b ∈ canonical 1 16 bells ↔ (1 ≤ b ∧ b ≤ 16) ∧ b ∈ bells := by
  rw [canonical, List.mem_filter, List.contains_iff_mem]
  exact and_congr_left fun _ => mem_bellNumbers

theorem canonical_nodup (bells : List Nat) : (canonical 1 16 bells).Nodup :=
  List.Nodup.filter _ (by decide : ((List.range 16).map (· + 1)).Nodup)

/-- The records of the bells of a list, each named once, are rewritten in turn. -/
theorem bell_foldl_putBell {f : Part → Nat → Part} {g : Bell → Bell}
    (hf : ∀ (r : Part) (b : Nat), r.osc = n → f r b = r.putBell b (g (r.bell b))) (hl : ∀ b ∈ l, 1 ≤ b ∧ b ≤ 16)
    (hn : l.Nodup) (hp : p.osc = n) (c : Nat) :
    (l.foldl f p).bell c = if c ∈ l then g (p.bell c) else p.bell c := by
  induction l generalizing p with
  | nil => simp
  | cons b l ih =>
    obtain ⟨hb, hn⟩ := List.nodup_cons.mp hn
    rw [List.foldl_cons, hf p b hp,
      ih (p := p.putBell b (g (p.bell b))) (fun k hk => hl k (List.mem_cons_of_mem _ hk)) hn hp]
    by_cases hc : c = b
    · subst hc
      simp [hb, bell_putBell_self _ _ _ (hl c List.mem_cons_self)]
    · simp [hc]

/-- R55: the record of a bell claimed from the console at the instant `osc`. -/
def claimed (src osc : Nat) (x : Bell) : Bell :=
  { x with claims := { x.claims with console := some src }, consoleIdle := some (osc + 122880) }

/-- R55, R56: the record of a bell that the console has let go. -/
def unclaimed (x : Bell) : Bell := { x with claims := { x.claims with console := none }, consoleIdle := none }

theorem claimRefusal_range (h : ∃ b ∈ bells, b = 0 ∨ 16 < b) : claimRefusal bells = some .badIndex := by
  obtain ⟨b, hb, hr⟩ := h
  unfold claimRefusal
  rw [if_neg (List.ne_nil_of_mem hb), if_pos]
  simp only [List.any_eq_true, within, Bool.not_eq_true', Bool.and_eq_false_iff, decide_eq_false_iff_not]
  exact ⟨b, hb, by omega⟩

theorem claimRefusal_none (hn : bells ≠ []) (h : ∀ b ∈ bells, 1 ≤ b ∧ b ≤ 16) : claimRefusal bells = none := by
  unfold claimRefusal
  rw [if_neg hn, if_neg]
  simpa [within, Nat.one_le_iff_ne_zero] using h

/-- R55: what the two requests answer that the checks refuse. -/
theorem console_refused {code : Code} (h : claimRefusal bells = some code) :
    claimBells src bells p = (p, code) ∧ releaseBells bells p = (p, code) := by
  simp only [claimBells, releaseBells, h, and_self]

theorem claimBells_safe (h : claimRefusal bells = none) (hs : p.mgmt.partState = .safe) :
    claimBells src bells p = (p, .safeState) := by
  simp only [claimBells, h, if_pos hs]

theorem claimBells_ok (h : claimRefusal bells = none) (hs : p.mgmt.partState = .running)
    (hr : ∀ b ∈ bells, 1 ≤ b ∧ b ≤ 16) :
    (claimBells src bells p).2 = .ok
      ∧ ∀ b, (claimBells src bells p).1.bell b = if b ∈ bells then claimed src p.osc (p.bell b) else p.bell b := by
  simp only [claimBells, h, hs, reduceCtorEq, if_false]
  refine ⟨trivial, fun b => ?_⟩
  rw [bell_foldl_putBell (n := p.osc) (g := claimed src p.osc) ?_ (fun b hb => (mem_canonical.mp hb).1)
    (canonical_nodup bells) rfl]
  · simp only [mem_canonical, and_iff_right_of_imp (hr b)]
  · rintro r b hr
    rw [← hr]
    rfl

theorem releaseBells_ok (h : claimRefusal bells = none) (hr : ∀ b ∈ bells, 1 ≤ b ∧ b ≤ 16) :
    (releaseBells bells p).2 = .ok ∧ ∀ b, (releaseBells bells p).1.bell b
      = if b ∈ bells ∧ (p.bell b).claims.console ≠ none then unclaimed (p.bell b) else p.bell b := by
  simp only [releaseBells, h]
  refine ⟨trivial, fun b => ?_⟩
  rw [bell_foldl_putBell (n := p.osc) (g := fun x => if x.claims.console.isSome then unclaimed x else x) ?_
    (fun b hb => (mem_canonical.mp hb).1) (canonical_nodup bells) rfl]
  · simp only [mem_canonical, and_iff_right_of_imp (hr b), Option.isSome_iff_ne_none, ite_and]
  · intro r b _
    unfold releaseNamed
    split
    · rfl
    · rw [putBell_bell]

theorem exec_claimBells (w : List Instr) :
    exec (.claimBells src bells) ⟨p, w⟩
      = .next ⟨serveSimple (.claimBells src bells) src .console (claimBells src bells) p, w⟩ := rfl

theorem exec_releaseBells (w : List Instr) :
    exec (.releaseBells src bells) ⟨p, w⟩
      = .next ⟨serveSimple (.releaseBells src bells) src .console (releaseBells bells) p, w⟩ := rfl

/-- R172: a console request that its operation accepts, which alters bells only. -/
theorem serveSimple_bells {i : Instr} {op : Part → Part × Code} (h : p.hears src cls = true) (hc : cls.rank ≠ 0)
    (ho : (op (p.taken i cls)).2 = .ok) (same : (p.taken i cls).sameBut (op (p.taken i cls)).1 [.bellGuard]) :
    ∃ q, serveSimple i src .console op p = q.answered src (operationOf i) .ok [] ∧ p.sameBut q [.bellGuard]
      ∧ ∀ b, q.bell b = (op (p.taken i cls)).1.bell b := by
  obtain ⟨_, _, _, _, _, room⟩ := hears_free h
  have up : (op (p.taken i cls)).1.line.upQ = p.line.upQ := (same .up (by decide)).1
  obtain ⟨answered, frame⟩ := reply_done (n := src) (o := operationOf i) (code := .ok) (data := []) h same (by decide)
    (up ▸ room)
  refine ⟨_, ?_, frame, fun _ => rfl⟩
  have least : SourceClass.console.rank ≤ cls.rank := Nat.one_le_iff_ne_zero.mpr hc
  rw [serveSimple_heard h hc least, ho, answered]

end ConsoleClaims

/-- Settles O30: the checks refuse in their order; what is accepted rewrites the records of the bells named. -/
theorem consoleClaims : Obligations.ConsoleClaims := by
  unfold Obligations.ConsoleClaims
  refine fun p w => ⟨fun hs b _ _ => ?_, fun src cls bells hh hc => ?_⟩
  · have due_iff : p.consoleIdleDue b = true ↔ ∃ t, (p.bell b).consoleIdle = some t ∧ t ≤ p.osc := by
      simp [Part.consoleIdleDue, Option.any_eq_true]
    have run : exec (.consoleIdleTimeout b) ⟨p, w⟩
        = .next ⟨if p.consoleIdleDue b then releaseConsole p b else p, w⟩ := by
      simp [exec, execConsoleIdleTimeout, hs]
    rw [run]
    refine ⟨fun h => ?_, fun t ht due => ?_⟩
    · rw [if_neg]
      rintro k
      obtain ⟨t, ht, due⟩ := due_iff.mp k
      rcases h with h | ⟨u, hu, later⟩
      · simp [h] at ht
      · rw [ht, Option.some.injEq] at hu
        omega
    · rw [if_pos (due_iff.mpr ⟨t, ht, due⟩)]
      rfl
  · have least : SourceClass.console.rank ≤ cls.rank := Nat.one_le_iff_ne_zero.mpr hc
    rw [exec_claimBells, exec_releaseBells]
    have refused {code : Code} (h : claimRefusal bells = some code) :=
      And.intro (serveSimple_refused (i := .claimBells src bells) hh hc least (console_refused (src := src) h).1)
        (serveSimple_refused (i := .releaseBells src bells) hh hc least (console_refused (src := src) h).2)
    refine ⟨fun hn => ?_, fun hr => ?_, fun hn hr => ⟨fun safe => ?_, fun running => ?_, ?_⟩⟩
    · obtain ⟨claim, release⟩ := refused (if_pos hn)
      rw [claim, release]
      exact ⟨rfl, rfl⟩
    · obtain ⟨claim, release⟩ := refused (claimRefusal_range hr)
      rw [claim, release]
      exact ⟨rfl, rfl⟩
    · rw [serveSimple_refused hh hc least (claimBells_safe (claimRefusal_none hn hr) safe)]
      rfl
    · obtain ⟨ok, bell⟩ := claimBells_ok (src := src) (p := p.taken (.claimBells src bells) cls)
        (claimRefusal_none hn hr) running hr
      obtain ⟨q, served, same, own⟩ := serveSimple_bells hh hc ok (by simp)
      rw [served]
      exact ⟨q, rfl, fun b _ _ => (own b).trans (bell b), same⟩
    · obtain ⟨ok, bell⟩ := releaseBells_ok (p := p.taken (.releaseBells src bells) cls)
        (claimRefusal_none hn hr) hr
      obtain ⟨q, served, same, own⟩ := serveSimple_bells hh hc ok (by simp)
      rw [served]
      exact ⟨q, rfl, fun b _ _ => (own b).trans (bell b), same⟩

end Sys2Proof.Machine.Bells


/-! SUPPORT. A bell that settles and a sensor that falls silent (R45, R47), with the end of a session that closes (R73,
R74). -/

namespace Sys2Proof.Machine.Bells

open Dials

/-! ## The end of a session that closes -/

section Closing

variable {p q r : Part} {b : Nat} {T : List Block}

/-- R74: the session record once it has completed. -/
def completedSession (p : Part) : Session :=
  { p.session with
    state := .idle, bells := [], requester := none, began := p.towerTime, outcome := .closed
    closed := bump p.session.closed }

theorem completeSession_session (p : Part) : (completeSession p).session
    = if p.session.state = .closing ∧ ∀ y ∈ p.session.bells, y.stage = .left then completedSession p
      else p.session := by
  unfold completeSession
  simp only [List.all_eq_true, decide_eq_true_eq]
  split
  · generalize hr : ({ p with
      session.state := .idle
      session.bells := []
      session.requester := none
      session.began := p.towerTime
      session.outcome := SessionOutcome.closed
      session.closed := bump p.session.closed } : Part) = r
    have same : r.sameBut (emitCue .sessionClosed
        (sessionNotice .closing .idle p.session.set p.session.requester .settled r)) [.events, .up] := by simp
    rw [same .session (by decide), ← hr]
    rfl
  · rfl

/-- R51: whether a bell may be engaged is a matter of the bells and of the part's state. -/
theorem mayEngage_of_same (h : p.sameBut q T) (h1 : Block.bellGuard ∉ T) (h2 : Block.faults ∉ T) :
    q.mayEngage b = p.mayEngage b := by
  simp only [Part.mayEngage, bell_congr (h .bellGuard h1), (h .faults h2).2.2]

/-- R51: a bell that has been examined is not engaged when it is examined again. -/
theorem mayEngage_reengage (p : Part) (b : Nat) : (reengage b p).mayEngage b = false := by
  by_cases h : p.mayEngage b = true
  · have own := (reengage_engages h).1
    refine Bool.not_eq_true _ ▸ fun k => ?_
    obtain ⟨_, hammer, _⟩ := mayEngage_iff.mp k
    rw [own] at hammer
    cases hammer
  · rw [Bool.not_eq_true] at h
    rw [reengage_not h, h]

/-- What the examination of bell b by R51 does to a bell that has no RINGERS claim: its record, and the setting. -/
theorem reengage_cases (p : Part) (b : Nat) (hr : (p.bell b).claims.ringers = false) :
    (reengage b p).bell b = (if p.mayEngage b then engaged (p.bell b) else p.bell b)
      ∧ (∀ c, c ≠ b → (reengage b p).bell c = p.bell c)
      ∧ Decides p (reengage b p) (if p.mayEngage b then [(b, .engage)] else [])
      ∧ p.sameBut (reengage b p) [.bellGuard, .safety] := by
  by_cases h : p.mayEngage b = true
  · obtain ⟨own, others, decides, _, same⟩ := reengage_engages h
    rw [if_pos h, if_pos h]
    exact ⟨own, others, decides, same hr⟩
  · rw [if_neg h, if_neg h, reengage_not (by simpa using h)]
    exact ⟨rfl, fun _ _ => rfl, .refl p, same_refl _ _⟩

end Closing

/-! ## Settling -/

section Settling

variable {p q r : Part} {b : Nat} {x : Bell}

theorem settleDue_iff (hx : x = p.bell b) : p.settleDue b = true ↔ x.config.cls = .swing ∧ x.position = .down
    ∧ x.settled = false ∧ ∃ t, x.downBegan = some t ∧ t + x.config.settle * 1024 ≤ p.osc := by
  subst hx
  have due : p.settleDue b = true ↔ (p.bell b).config.cls = .swing ∧ (p.bell b).position = .down
      ∧ (p.bell b).settled = false
      ∧ ∃ t, (p.bell b).downBegan = some t ∧ t + secTicks (p.bell b).config.settle ≤ p.osc := by
    simp [Part.settleDue, Option.any_eq_true, and_assoc]
  exact due

theorem exec_settleTimeReached (w : List Instr) (hs : p.retention.supply = true) :
    exec (.settleTimeReached b) ⟨p, w⟩ = .next ⟨if p.settleDue b then bellSettles b p else p, w⟩ := by
  simp [exec, execSettleTimeReached, hs]

/-- R45: a bell whose session, if any, does not wait for it is examined at once. -/
theorem bellSettles_alone
    (h : p.session.state ≠ .closing ∨ ¬ ∃ y ∈ p.session.bells, y.bell = b ∧ y.stage = .held) :
    bellSettles b p = reengage b (p.putBell b { p.bell b with settled := true }) := by
  unfold bellSettles sessionSettled
  rw [if_neg]
  rintro ⟨closing, held⟩
  simp only [List.any_eq_true, Bool.and_eq_true, decide_eq_true_eq] at held
  exact h.elim (fun k => k closing) (fun k => k held)

/-- R73: the part with bell b settled, its RINGERS claim gone and its stage LEFT. -/
def leftBell (b : Nat) (p : Part) : Part :=
  { p with session := p.session.update b (fun y => { y with stage := .left }) }.putBell b
    { p.bell b with settled := true, claims.ringers := false }

/-- R45, R73, R74: a HELD bell of a session that closes. -/
theorem bellSettles_leaves (hb : 1 ≤ b ∧ b ≤ 16) (hc : p.session.state = .closing)
    (hh : ∃ y ∈ p.session.bells, y.bell = b ∧ y.stage = .held) :
    bellSettles b p = completeSession (reengage b (leftBell b p)) := by
  have leaves : leaveBell (p.putBell b { p.bell b with settled := true }) b = reengage b (leftBell b p) := by
    unfold leaveBell removeRingers leftBell
    rw [show ({ p.putBell b { p.bell b with settled := true } with
        session := (p.putBell b { p.bell b with settled := true }).session.update b
          (fun y => { y with stage := .left }) } : Part)
        = ({ p with session := p.session.update b (fun y => { y with stage := .left }) }).putBell b
          { p.bell b with settled := true } from rfl, putBell_putBell, bell_putBell_self _ _ _ hb]
  have again : (completeSession (reengage b (leftBell b p))).mayEngage b = false := by
    rw [mayEngage_of_same (p := reengage b (leftBell b p)) (T := [.session, .events, .up]) (by simp) (by decide)
      (by decide), mayEngage_reengage]
  unfold bellSettles sessionSettled
  rw [if_pos ⟨hc, by simpa using hh⟩, leaves, reengage_not again]

theorem allLeft_iff {l : List SessionBell} :
    (∀ y ∈ l.map (fun y => if y.bell = b then { y with stage := .left } else y), y.stage = .left)
      ↔ ∀ y ∈ l, y.bell = b ∨ y.stage = .left := by
  simp only [List.mem_map, forall_exists_index, and_imp, forall_apply_eq_imp_iff₂]
  refine forall₂_congr fun y _ => ?_
  by_cases h : y.bell = b <;> simp [h]

/-- R73, R74: the session after bell b has left it. -/
theorem completeSession_left (hs : q.session = p.session.update b (fun y => { y with stage := .left }))
    (hc : p.session.state = .closing) (ht : q.time = p.time) :
    ((∃ y ∈ p.session.bells, y.bell ≠ b ∧ y.stage ≠ .left) →
        (completeSession q).session = p.session.update b (fun y => { y with stage := .left }))
      ∧ ((∀ y ∈ p.session.bells, y.bell = b ∨ y.stage = .left) →
        (completeSession q).session = { p.session with
          state := .idle, bells := [], requester := none, began := p.towerTime, outcome := .closed
          closed := bump p.session.closed }) := by
  have tower : q.towerTime = p.towerTime := by
    unfold Part.towerTime Part.unset
    rw [ht]
  have all : (q.session.state = .closing ∧ ∀ y ∈ q.session.bells, y.stage = .left)
      ↔ ∀ y ∈ p.session.bells, y.bell = b ∨ y.stage = .left := by
    rw [hs]
    exact (and_iff_right hc).trans allLeft_iff
  rw [completeSession_session]
  refine ⟨fun ⟨y, hy, other, stays⟩ => ?_, fun gone => ?_⟩
  · rw [if_neg fun k => (all.mp k y hy).elim other stays, hs]
  · rw [if_pos (all.mpr gone), completedSession, tower, hs]
    rfl

/-- R45, R51, R73: what a bell that leaves a closing session as it settles is left with, and what is decided for it. -/
theorem bellSettles_leaving (hb : 1 ≤ b ∧ b ≤ 16) (hx : x = p.bell b) (swing : x.config.cls = .swing)
    (closing : p.session.state = .closing) (held : ∃ y ∈ p.session.bells, y.bell = b ∧ y.stage = .held)
    (hq : q = bellSettles b p) :
    (q.bell b).settled = true ∧ (q.bell b).claims.ringers = false
      ∧ (x.config.hammerNode ≠ none → x.hammer = .withdrawn → x.wanted = none → p.mgmt.partState = .running →
          (q.bell b).hammer = .engaging ∧ (q.bell b).wanted = some .engage
            ∧ q.line.safetyQ = p.safetyAfter [(b, .engage)])
      ∧ (x.config.hammerNode = none ∨ x.hammer ≠ .withdrawn ∨ x.wanted ≠ none ∨ p.mgmt.partState = .safe →
          q.line.safetyQ = p.line.safetyQ)
      ∧ ∃ v, q = completeSession v ∧ v.session = p.session.update b (fun y => { y with stage := .left })
        ∧ p.sameBut v [.bellGuard, .session, .safety] := by
  rw [bellSettles_leaves hb closing held] at hq
  generalize hr : leftBell b p = r at hq
  have own : r.bell b = { x with settled := true, claims.ringers := false } := by
    rw [← hr, hx]
    exact bell_putBell_self _ _ _ hb
  have session : r.session = p.session.update b (fun y => { y with stage := .left }) := by rw [← hr]; rfl
  have state : r.mgmt.partState = p.mgmt.partState := by rw [← hr]; rfl
  have left : p.sameBut r [.bellGuard, .session] := by
    rw [← hr, leftBell]
    simp
  have start : Decides p r [] := by
    rw [← hr, leftBell]
    exact (Decides.of_same (q := { p with session := p.session.update b (fun y => { y with stage := .left }) })
      (T := [.session]) (by simp) (by decide) (by decide) (by decide)).trans (.putBell rfl)
  have may : r.mayEngage b = true ↔ x.config.hammerNode ≠ none ∧ x.hammer = .withdrawn ∧ x.wanted = none
      ∧ p.mgmt.partState = .running := by
    rw [mayEngage_iff, own, state]
    simp [swing]
  obtain ⟨examinedOwn, _, decides, same⟩ := reengage_cases r b (by rw [own])
  generalize hv : reengage b r = v at hq examinedOwn decides same
  have ended : v.sameBut q [.session, .events, .up] := by rw [hq]; simp
  have queue : q.line.safetyQ = p.safetyAfter (if r.mayEngage b then [(b, .engage)] else []) :=
    ((start.trans decides).trans (.of_same ended (by decide) (by decide) (by decide))).queue.trans
      (by rw [List.append_nil, List.nil_append])
  have bell := (bell_congr (ended .bellGuard (by decide)) b).trans examinedOwn
  rw [own] at bell
  refine ⟨?_, ?_, fun fit away idle running => ?_, fun stays => ?_, v, hq,
    (same .session (by decide)).trans session, sameBut_trans (sameBut_mono left (by simp)) (sameBut_mono same (by simp))⟩
  · rw [bell]
    split <;> rfl
  · rw [bell]
    split <;> rfl
  · have engages := may.mpr ⟨fit, away, idle, running⟩
    rw [if_pos engages] at bell queue
    rw [bell]
    exact ⟨rfl, rfl, queue⟩
  · rw [queue, if_neg]
    · rfl
    · intro k
      obtain ⟨fit, away, idle, running⟩ := may.mp k
      rcases stays with h | h | h | h
      · exact fit h
      · exact h away
      · exact h idle
      · simp [running] at h

/-- R45, R51: what a bell that settles outside a closing session is left with, and what is decided for it. -/
theorem bellSettles_outside (hb : 1 ≤ b ∧ b ≤ 16) (hx : x = p.bell b) (swing : x.config.cls = .swing)
    (alone : p.session.state ≠ .closing ∨ ¬ ∃ y ∈ p.session.bells, y.bell = b ∧ y.stage = .held)
    (hq : q = bellSettles b p) :
    (x.config.hammerNode = none ∨ x.hammer ≠ .withdrawn ∨ x.wanted ≠ none ∨ p.mgmt.partState = .safe
        ∨ x.claims.ringers = true → q = p.putBell b { x with settled := true })
      ∧ (x.config.hammerNode ≠ none → x.hammer = .withdrawn → x.wanted = none → p.mgmt.partState = .running →
          x.claims.ringers = false →
          q.bell b = { x with
              settled := true, intruded := false, hammer := .engaging, wanted := some .engage
              stateBefore := .withdrawn, hammerTimer := none }
            ∧ q.line.safetyQ = p.safetyAfter [(b, .engage)]
            ∧ (∀ a, a ≠ b → q.bell a = p.bell a) ∧ p.sameBut q [.bellGuard, .safety]) := by
  rw [bellSettles_alone alone, ← hx] at hq
  generalize hr : p.putBell b { x with settled := true } = r at hq
  have own : r.bell b = { x with settled := true } := hr ▸ bell_putBell_self _ _ _ hb
  have may : r.mayEngage b = true ↔ x.config.hammerNode ≠ none ∧ x.hammer = .withdrawn ∧ x.wanted = none
      ∧ p.mgmt.partState = .running ∧ x.claims.ringers = false := by
    rw [mayEngage_iff, own, ← hr]
    simp [swing]
  refine ⟨fun stays => ?_, fun fit away idle running free => ?_⟩
  · rw [hq, reengage_not]
    refine Bool.not_eq_true _ ▸ fun k => ?_
    obtain ⟨fit, away, idle, running, free⟩ := may.mp k
    rcases stays with h | h | h | h | h
    · exact fit h
    · exact h away
    · exact h idle
    · simp [running] at h
    · simp [free] at h
  · obtain ⟨engagedOwn, others, decides, _, same⟩ := reengage_engages (may.mpr ⟨fit, away, idle, running, free⟩)
    rw [← hq] at engagedOwn others decides same
    rw [own] at engagedOwn same
    refine ⟨engagedOwn.trans ?_, ?_, fun a ha => (others a ha).trans ?_, ?_⟩
    · rw [engaged, decided, away]
      rfl
    · have put : Decides p r [] := hr ▸ .putBell (hx ▸ rfl)
      exact (put.trans decides).queue
    · rw [← hr, bell_putBell_ne _ _ _ _ ha]
    · exact sameBut_trans (by rw [← hr]; simp) (same free)

theorem sensorDue_iff (hx : x = p.bell b) : p.sensorDue b = true
    ↔ ∃ t, x.sensorFrom = some t ∧ t + p.bellGuard.sensorTimeout * 1024 ≤ p.osc := by
  subst hx
  have due : p.sensorDue b = true
      ↔ ∃ t, (p.bell b).sensorFrom = some t ∧ t + secTicks p.bellGuard.sensorTimeout ≤ p.osc := by
    simp [Part.sensorDue, Option.any_eq_true]
  exact due

theorem exec_sensorTimeout (w : List Instr) (hs : p.retention.supply = true) :
    exec (.sensorTimeout b) ⟨p, w⟩ = .next ⟨if p.sensorDue b then sensorExpires b p else p, w⟩ := by
  simp [exec, execSensorTimeout, hs]

end Settling

/-- Settles O27: a bell settles as its session has it and is then examined by R51; the sensor timer is
`sensorExpires_own`. -/
theorem bellTimers : Obligations.BellTimers := by
  unfold Obligations.BellTimers
  intro p w b x hs h1 h16 hx
  have hb : 1 ≤ b ∧ b ≤ 16 := ⟨h1, h16⟩
  rw [exec_settleTimeReached w hs, exec_sensorTimeout w hs]
  refine ⟨fun h => ?_, fun t swing down unsettled began due => ?_, fun h => ?_, fun t ht due => ?_⟩
  · rw [if_neg]
    intro k
    obtain ⟨swing, down, unsettled, t, began, due⟩ := (settleDue_iff hx).mp k
    rcases h with h | h | h | h | ⟨u, hu, later⟩
    · simp [swing] at h
    · exact h down
    · simp [unsettled] at h
    · simp [began] at h
    · rw [began, Option.some.injEq] at hu
      omega
  · rw [if_pos ((settleDue_iff hx).mpr ⟨swing, down, unsettled, t, began, due⟩)]
    refine ⟨fun alone => ?_, fun closing held => ?_⟩
    · obtain ⟨stays, engages⟩ := bellSettles_outside hb hx swing alone rfl
      exact ⟨fun h => by rw [stays h], fun fit away idle running free =>
        ⟨_, rfl, engages fit away idle running free⟩⟩
    · obtain ⟨settled, free, engages, stays, v, hq, session, same⟩ :=
        bellSettles_leaving hb hx swing closing held rfl
      obtain ⟨waits, ends⟩ := completeSession_left session closing (same .time (by decide))
      rw [hq] at settled free engages stays ⊢
      exact ⟨_, rfl, settled, free, engages, stays, waits, ends,
        sameBut_trans (sameBut_mono same (by simp)) (by simp)⟩
  · rw [if_neg]
    intro k
    obtain ⟨t, ht, due⟩ := (sensorDue_iff hx).mp k
    rcases h with h | ⟨u, hu, later⟩
    · simp [h] at ht
    · rw [ht, Option.some.injEq] at hu
      omega
  · rw [if_pos ((sensorDue_iff hx).mpr ⟨t, ht, due⟩)]
    obtain ⟨own, others, tally, up, faults, state, _, same⟩ := sensorExpires_own (p := p) hb rfl
    exact ⟨_, rfl, hx ▸ own, others, tally, faults, state, fun room => up.trans (if_pos room), same⟩

end Sys2Proof.Machine.Bells


/-! SUPPORT. What follows from a MAJOR fault beside the fault record (R178): its notices (R167), the voices that stop (R114)
with the charges of the strikes they held (R104, R135), and the hammers withdrawn (R61). -/

namespace Sys2Proof.Machine.Bells

open Dials

/-! ## Notices -/

section Notices

variable {p q r : Part} {T : List Block} {l m : List UpItem}

/-- From `p` to `q` notices have been offered to UP one after the other, and those to come still read the same. -/
structure Sends (p q : Part) (l : List UpItem) : Prop where
  queue : q.line.upQ = p.upAfter l
  notices : ∀ kind time detail, q.noticeOf kind time detail = p.noticeOf kind time detail
  tower : q.towerTime = p.towerTime

theorem Sends.trans (h : Sends p q l) (k : Sends q r m) : Sends p r (l ++ m) := by
  refine ⟨?_, fun c t d => (k.notices c t d).trans (h.notices c t d), k.tower.trans h.tower⟩
  rw [k.queue, Part.upAfter, h.queue, Part.upAfter, Part.upAfter, List.foldl_append]

theorem Sends.of_eq (hq : q.line.upQ = p.upAfter l) (h : p.sameBut q T) (h1 : Block.time ∉ T) (h2 : Block.mgmt ∉ T)
    (h3 : Block.requests ∉ T) : Sends p q l := by
  have time : q.time = p.time := h .time h1
  have node : q.mgmt.noticeNode = p.mgmt.noticeNode := (h .mgmt h2).2.2.1
  have address : q.mgmt.address = p.mgmt.address := (h .requests h3).2.2.2.1
  refine ⟨hq, fun c t d => ?_, ?_⟩
  · unfold Part.noticeOf
    rw [node, address]
  · unfold Part.towerTime Part.unset
    rw [time]

/-- What leaves UP, the time and the Management Unit alone sends nothing. -/
theorem Sends.of_same (h : p.sameBut q T) (h1 : Block.time ∉ T) (h2 : Block.mgmt ∉ T) (h3 : Block.requests ∉ T)
    (h4 : Block.up ∉ T) : Sends p q [] := .of_eq (h .up h4).1 h h1 h2 h3

theorem sendNotice_sends (kind : NoticeKind) (detail : List Byte) (p : Part) :
    Sends p (sendNotice kind detail p) [p.noticeOf kind p.towerTime detail] := by
  refine .of_eq (T := [.up]) ?_ (by simp) (by decide) (by decide) (by decide)
  show (offerNotice (noticeFrame kind detail p) p).line.upQ
    = if p.line.upQ.length < 14 then p.line.upQ ++ [UpItem.notice (noticeFrame kind detail p)] else p.line.upQ
  unfold offerNotice
  split <;> rename_i h
  · exact (if_pos h).symm
  · exact (if_neg h).symm

theorem noticeFault_sends {kind : FaultKind} (hk : kind.major = true) (detail : List Byte) (p : Part) :
    Sends p (noticeFault kind detail p)
      [p.noticeOf .faultRaised p.towerTime (byte kind.code :: 1 :: detail)] := by
  have severity : severityByte kind = 1 := by rw [severityByte, hk]; rfl
  rw [noticeFault, severity]
  exact sendNotice_sends _ _ _

theorem emitCue_events (e : CueEvent) (p : Part) :
    (emitCue e p).cal.events = p.cal.events ++ if p.time.state = .unset then [] else [e] := by
  unfold emitCue Part.unset
  by_cases h : p.time.state = .unset <;> simp [h]

end Notices

/-! ## Strikes released -/

section Releases

variable {p q r : Part} {b : Nat} {v u : VoiceId} {held more : List HeldStrike} {l : List Nat}

theorem ofStrike_ofSomeStrike {c : Charge} {id : Nat} (h : c.ofStrike id = true) : ofSomeStrike c = true := by
  unfold Charge.ofStrike at h
  cases hc : c.holder <;> simp [hc, ofSomeStrike] at h ⊢

/-- The charges that none of the held strikes has. -/
def unheld (held : List HeldStrike) (c : Charge) : Bool := held.all (fun h => !c.ofStrike h.strike.charge)

theorem unheld_append (c : Charge) : unheld (held ++ more) c = (unheld held c && unheld more c) := List.all_append

/-- A voice's claim on a bell (TABLE 3-2). -/
def claimOf (v : VoiceId) (x : Bell) : Bool :=
  match v with
  | .clock => x.claims.clock
  | .tune => x.claims.tune

/-- A bell's record but for the claims of the voices. -/
def voiceless (x : Bell) : Bell := { x with claims.clock := false, claims.tune := false }

theorem voiceless_config {x y : Bell} (h : voiceless y = voiceless x) : y.config = x.config := by
  have k := congrArg Bell.config h
  exact k

/-- From `p` to `q` the charges of held strikes have been released, and of the bells only claims of voices have gone. -/
structure Releases (held : List HeldStrike) (p q : Part) : Prop where
  bells : ∀ b, voiceless (q.bell b) = voiceless (p.bell b)
  claims : ∀ v b, claimOf v (p.bell b) = false → claimOf v (q.bell b) = false
  strikes : strikeCharges q = (strikeCharges p).filter (unheld held)
  charges : p.budget.waiting = [] →
    q.budget.waiting = [] ∧ q.budget.charges = p.budget.charges.filter (unheld held)

theorem Releases.trans (h : Releases held p q) (k : Releases more q r) : Releases (held ++ more) p r := by
  refine ⟨fun b => (k.bells b).trans (h.bells b), fun v b hv => k.claims v b (h.claims v b hv), ?_, fun hw => ?_⟩
  · rw [k.strikes, h.strikes, List.filter_filter]
    exact List.filter_congr fun c _ => by rw [unheld_append, Bool.and_comm]
  · obtain ⟨waiting, charges⟩ := h.charges hw
    obtain ⟨waiting', charges'⟩ := k.charges waiting
    refine ⟨waiting', ?_⟩
    rw [charges', charges, List.filter_filter]
    exact List.filter_congr fun c _ => by rw [unheld_append, Bool.and_comm]

/-- What alters neither the charges nor the waiting list releases nothing. -/
theorem Releases.of_budget (h : q.budget = p.budget) (hb : ∀ b, voiceless (q.bell b) = voiceless (p.bell b))
    (hc : ∀ v b, claimOf v (p.bell b) = false → claimOf v (q.bell b) = false) : Releases [] p q := by
  have all : ∀ w : List Charge, w.filter (unheld []) = w := fun w => List.filter_eq_self.mpr fun _ _ => rfl
  exact ⟨hb, hc, by rw [all, strikeCharges_congr (congrArg FeedBudget.charges h)],
    fun hw => by rw [all, h]; exact ⟨hw, rfl⟩⟩

theorem Releases.of_bells (h : q.budget = p.budget) (hb : q.bellGuard = p.bellGuard) : Releases [] p q :=
  .of_budget h (fun b => by rw [bell_congr hb]) fun v b hv => by rwa [bell_congr hb]

/-- R141: with no dial waiting a release is followed by no grant. -/
theorem afterRelease_charges (h : p.budget.waiting = []) :
    (afterRelease p).budget.waiting = [] ∧ (afterRelease p).budget.charges = p.budget.charges := by
  have none : reoffer 5 p = p := by simp [reoffer, h]
  rw [afterRelease, none]
  exact ⟨h, rfl⟩

theorem releaseCharge_releases (s : HeldStrike) (p : Part) : Releases [s] p (releaseCharge s.strike.charge p) := by
  have one : unheld [s] = fun c => !c.ofStrike s.strike.charge := by
    funext c
    simp [unheld]
  have guard : p.sameBut (releaseCharge s.strike.charge p) [.dialDriver, .lamps, .budget, .locals] := by simp
  have bells := bell_congr (guard .bellGuard (by decide))
  refine ⟨fun b => by rw [bells], fun v b hv => by rwa [bells], ?_, fun hw => ?_⟩
  all_goals
    rw [one]
    unfold releaseCharge
    split <;> rename_i h
  · rw [afterRelease_strikeCharges]
    simp only [strikeCharges, List.filter_filter, Bool.and_comm]
  · refine (List.filter_eq_self.mpr fun c hc => ?_).symm
    simp only [List.any_eq_true, not_exists, not_and] at h
    simpa using h c (mem_strikeCharges.mp hc).1
  · exact afterRelease_charges (p := { p with
      budget.charges := p.budget.charges.filter (fun c => !c.ofStrike s.strike.charge) }) hw
  · refine ⟨hw, (List.filter_eq_self.mpr fun c hc => ?_).symm⟩
    simp only [List.any_eq_true, not_exists, not_and] at h
    simpa using h c hc

theorem releaseStrikes_releases (l : List HeldStrike) (p : Part) : Releases l p (releaseStrikes l p) := by
  induction l generalizing p with
  | nil => exact .of_bells rfl rfl
  | cons s l ih => exact (releaseCharge_releases s p).trans (ih _)

/-- R54: a claim of a voice removed from one bell. -/
theorem setVoiceClaim_bell (v : VoiceId) (p : Part) (b c : Nat) :
    voiceless ((setVoiceClaim v false p b).bell c) = voiceless (p.bell c)
      ∧ (∀ u, claimOf u (p.bell c) = false → claimOf u ((setVoiceClaim v false p b).bell c) = false)
      ∧ claimOf v ((setVoiceClaim v false p b).bell b) = false := by
  have start : ¬ (1 ≤ b ∧ b ≤ 16) → claimOf v (p.bell b) = false := fun hb => by
    have start : p.bell b = Bell.started (BellConfig.cold b) 0 := bankGet1_outside _ _ _ hb
    rw [start]
    cases v <;> rfl
  generalize hx : (match v with
    | .clock => { p.bell b with claims.clock := false }
    | .tune => { p.bell b with claims.tune := false } : Bell) = x
  have put : setVoiceClaim v false p b = p.putBell b x := by rw [← hx]; cases v <;> rfl
  have less : voiceless x = voiceless (p.bell b) := by rw [← hx]; cases v <;> rfl
  have fewer : ∀ u, claimOf u (p.bell b) = false → claimOf u x = false := fun u hu => by
    rw [← hx]
    cases v <;> cases u <;> first | rfl | exact hu
  have gone : claimOf v x = false := by rw [← hx]; cases v <;> rfl
  rw [put]
  refine ⟨?_, fun u hu => ?_, ?_⟩
  · rcases bell_putBell_cases p b c x with ⟨e, rfl⟩ | ⟨e, _⟩
    · rw [e, less]
    · rw [e]
  · rcases bell_putBell_cases p b c x with ⟨e, rfl⟩ | ⟨e, _⟩
    · rw [e]
      exact fewer u hu
    · rwa [e]
  · rcases bell_putBell_cases p b b x with ⟨e, _⟩ | ⟨e, h⟩
    · rw [e, gone]
    · rw [e, start (h.resolve_left fun k => k rfl)]

theorem removeClaims_releases (v : VoiceId) (l : List Nat) (p : Part) :
    Releases [] p (removeClaims v l p) ∧ ∀ b ∈ l, claimOf v ((removeClaims v l p).bell b) = false := by
  induction l generalizing p with
  | nil => exact ⟨.of_bells rfl rfl, fun _ h => nomatch h⟩
  | cons a l ih =>
    obtain ⟨rest, gone⟩ := ih (setVoiceClaim v false p a)
    have budget : (setVoiceClaim v false p a).budget = p.budget := by cases v <;> rfl
    have first : Releases [] p (setVoiceClaim v false p a) :=
      .of_budget budget (fun b => (setVoiceClaim_bell v p a b).1) fun u b => (setVoiceClaim_bell v p a b).2.1 u
    refine ⟨first.trans rest, fun b hb => ?_⟩
    rcases List.mem_cons.mp hb with rfl | hb
    · exact rest.claims v b (setVoiceClaim_bell v p b b).2.2
    · exact gone b hb

end Releases

/-! ## Voices stopped -/

section Voices

variable {p q r : Part} {b : Nat} {v : VoiceId}

/-- R104: a voice's record once its held strikes have been dropped. -/
def dropped (x : Voice) : Voice :=
  { x with held := [], counts := { x.counts with late := bumpBy x.held.length x.counts.late } }

theorem dropHeld_voices (v : VoiceId) (p : Part) :
    (dropHeld v p).clock = (p.putVoice v (dropped (p.voice v))).clock
      ∧ (dropHeld v p).tune = (p.putVoice v (dropped (p.voice v))).tune := by
  have same : (p.putVoice v (dropped (p.voice v))).sameBut
      (releaseStrikes (p.voice v).held (p.putVoice v (dropped (p.voice v)))) [.dialDriver, .lamps, .budget, .locals] := by
    simp
  exact ⟨same .clock (by decide), same .tune (by decide)⟩

theorem dropHeld_releases (v : VoiceId) (p : Part) : Releases (p.voice v).held p (dropHeld v p) := by
  have put : Releases [] p (p.putVoice v (dropped (p.voice v))) := by cases v <;> exact .of_bells rfl rfl
  exact put.trans (releaseStrikes_releases _ _)

/-- R109, R113: a voice sounds no more: its stack is emptied, its held strikes are dropped and its claims removed. -/
def hushed (v : VoiceId) (p : Part) : Part :=
  let q := dropHeld v (p.putVoice v { p.voice v with stack := [] })
  removeClaims v (q.voice v).claimed q

theorem hushed_releases (v : VoiceId) (p : Part) : Releases (p.voice v).held p (hushed v p)
    ∧ ∀ b ∈ (p.voice v).claimed, claimOf v ((hushed v p).bell b) = false := by
  unfold hushed
  dsimp only
  generalize hr : p.putVoice v { p.voice v with stack := [] } = r
  have put : Releases [] p r := by rw [← hr]; cases v <;> exact .of_bells rfl rfl
  have held : (r.voice v).held = (p.voice v).held := by rw [← hr]; cases v <;> rfl
  have claimed : ((dropHeld v r).voice v).claimed = (p.voice v).claimed := by
    obtain ⟨clock, tune⟩ := dropHeld_voices v r
    cases v
    · rw [Part.voice, clock, ← hr]
      rfl
    · rw [Part.voice, tune, ← hr]
      rfl
  have drops := put.trans (dropHeld_releases v r)
  obtain ⟨removes, gone⟩ := removeClaims_releases v ((dropHeld v r).voice v).claimed (dropHeld v r)
  have both := drops.trans removes
  rw [List.nil_append, List.append_nil, held] at both
  exact ⟨both, fun b hb => gone b (claimed ▸ hb)⟩

theorem hushed_voices (v : VoiceId) (p : Part) :
    (hushed v p).clock = (p.putVoice v (dropped { p.voice v with stack := [] })).clock
      ∧ (hushed v p).tune = (p.putVoice v (dropped { p.voice v with stack := [] })).tune := by
  unfold hushed
  dsimp only
  generalize hr : p.putVoice v { p.voice v with stack := [] } = r
  have same : (dropHeld v r).sameBut (removeClaims v ((dropHeld v r).voice v).claimed (dropHeld v r)) [.bellGuard] := by
    simp
  obtain ⟨clock, tune⟩ := dropHeld_voices v r
  rw [same .clock (by decide), same .tune (by decide), clock, tune, ← hr]
  cases v <;> exact ⟨rfl, rfl⟩

/-- R109: what the end of the quarter in hand leaves. -/
theorem endQuarter_stops (p : Part) :
    (endQuarter p).clock = { p.clock with
        state := .idle, quarter := none, strikeFollows := false, blows := none, nextBlow := none
        voice := p.clock.voice.stopped }
      ∧ (endQuarter p).tune = p.tune ∧ Releases p.clock.voice.held p (endQuarter p)
      ∧ ∀ b ∈ p.clock.voice.claimed, ((endQuarter p).bell b).claims.clock = false := by
  obtain ⟨releases, gone⟩ := hushed_releases .clock p
  obtain ⟨clock, tune⟩ := hushed_voices .clock p
  have ends : endQuarter p = { hushed .clock p with
      clock.state := .idle
      clock.voice := (hushed .clock p).clock.voice.idle
      clock.quarter := none
      clock.strikeFollows := false
      clock.blows := none
      clock.nextBlow := none } := rfl
  generalize hushed .clock p = r at releases gone clock tune ends
  have bells : (endQuarter p).bellGuard = r.bellGuard := by rw [ends]
  refine ⟨?_, ?_, ?_, fun b hb => ?_⟩
  · rw [ends]
    dsimp only
    rw [clock]
    rfl
  · rw [ends]
    exact tune
  · have last := releases.trans (.of_bells (by rw [ends]) bells)
    rwa [List.append_nil] at last
  · rw [bell_congr bells]
    exact gone b hb

/-- R113: what the end of the tune leaves. -/
theorem endTune_stops (reason : EndReason) (p : Part) :
    (endTune reason p).tune = { p.tune with state := .idle, inHand := none, voice := p.tune.voice.stopped }
      ∧ (endTune reason p).clock = p.clock ∧ Releases p.tune.voice.held p (endTune reason p)
      ∧ (∀ b ∈ p.tune.voice.claimed, ((endTune reason p).bell b).claims.tune = false)
      ∧ (endTune reason p).cal.events = p.cal.events
          ++ if p.time.state = .unset then [] else [.tuneEnd ((p.tune.inHand.map Prod.fst).getD 0) reason] := by
  obtain ⟨releases, gone⟩ := hushed_releases .tune p
  obtain ⟨clock, tune⟩ := hushed_voices .tune p
  have hush : p.sameBut (hushed .tune p) [.dialDriver, .bellGuard, .clock, .tune, .lamps, .budget, .locals] := by
    unfold hushed
    simp (maxDischargeDepth := 40)
  have number : (match (hushed .tune p).tune.inHand with
      | some (t, _) => t
      | none => 0) = (p.tune.inHand.map Prod.fst).getD 0 := by
    rw [tune]
    show (match p.tune.inHand with
      | some (t, _) => t
      | none => 0) = _
    cases p.tune.inHand <;> rfl
  have ends : endTune reason p = emitCue (.tuneEnd (match (hushed .tune p).tune.inHand with
        | some (t, _) => t
        | none => 0) reason) { hushed .tune p with
      tune.state := .idle
      tune.voice := (hushed .tune p).tune.voice.idle
      tune.inHand := none } := rfl
  rw [number] at ends
  generalize hushed .tune p = r at releases gone clock tune ends hush
  generalize hs : ({ r with
      tune.state := .idle
      tune.voice := r.tune.voice.idle
      tune.inHand := none } : Part) = s at ends
  have emits : s.sameBut (endTune reason p) [.events] := by rw [ends]; simp
  have bells : (endTune reason p).bellGuard = r.bellGuard := (emits .bellGuard (by decide)).trans (by rw [← hs])
  refine ⟨?_, ?_, ?_, fun b hb => ?_, ?_⟩
  · rw [emits .tune (by decide), ← hs]
    dsimp only
    rw [tune]
    rfl
  · rw [emits .clock (by decide), ← hs]
    exact clock
  · have last := releases.trans (.of_bells ((emits .budget (by decide)).trans (by rw [← hs])) bells)
    rwa [List.append_nil] at last
  · rw [bell_congr bells]
    exact gone b hb
  · rw [ends, emitCue_events, ← hs]
    dsimp only
    rw [hush .events (by decide), hush .time (by decide)]

/-- R114: both voices stop, each that sounds something. -/
theorem voicesSafe_stops (p : Part) : p.voicesStopped (voicesSafe p)
    ∧ (∀ b, voiceless ((voicesSafe p).bell b) = voiceless (p.bell b))
    ∧ (voicesSafe p).cal.events = p.cal.events ++ if p.time.state = .unset ∨ p.tune.state = .idle then [] else
        [.tuneEnd ((p.tune.inHand.map Prod.fst).getD 0) .safe] := by
  generalize hr : (if p.clock.state = .idle then p else endQuarter p) = r
  have clockStops : r.clock = (if p.clock.state = .idle then p.clock else { p.clock with
        state := .idle, quarter := none, strikeFollows := false, blows := none, nextBlow := none
        voice := p.clock.voice.stopped })
      ∧ r.tune = p.tune ∧ Releases (if p.clock.state = .idle then [] else p.clock.voice.held) p r
      ∧ (p.clock.state ≠ .idle → ∀ b ∈ p.clock.voice.claimed, claimOf .clock (r.bell b) = false)
      ∧ r.cal.events = p.cal.events ∧ r.time = p.time := by
    rw [← hr]
    by_cases idle : p.clock.state = .idle
    · simp only [if_pos idle]
      exact ⟨trivial, trivial, .of_bells rfl rfl, fun k => absurd idle k, trivial, trivial⟩
    · simp only [if_neg idle]
      obtain ⟨clock, tune, releases, gone⟩ := endQuarter_stops p
      have same : p.sameBut (endQuarter p)
        [.dialDriver, .bellGuard, .clock, .tune, .lamps, .budget, .locals] := by simp
      exact ⟨clock, tune, releases, fun _ => gone, same .events (by decide), same .time (by decide)⟩
  obtain ⟨clock, tune, releases, gone, events, time⟩ := clockStops
  have safe : voicesSafe p = if r.tune.state = .idle then r else endTune .safe r := by rw [← hr]; rfl
  have tuneStops : (voicesSafe p).tune = (if p.tune.state = .idle then p.tune else
        { p.tune with state := .idle, inHand := none, voice := p.tune.voice.stopped })
      ∧ (voicesSafe p).clock = r.clock
      ∧ Releases (if p.tune.state = .idle then [] else p.tune.voice.held) r (voicesSafe p)
      ∧ (p.tune.state ≠ .idle → ∀ b ∈ p.tune.voice.claimed, claimOf .tune ((voicesSafe p).bell b) = false)
      ∧ (voicesSafe p).cal.events = r.cal.events ++ if p.time.state = .unset ∨ p.tune.state = .idle then [] else
          [.tuneEnd ((p.tune.inHand.map Prod.fst).getD 0) .safe] := by
    rw [safe, tune]
    by_cases idle : p.tune.state = .idle
    · simp only [idle, or_true, if_true, List.append_nil]
      exact ⟨tune, trivial, .of_bells rfl rfl, fun k => absurd rfl k, trivial⟩
    · simp only [idle, or_false]
      obtain ⟨tune', clock', releases', gone', events'⟩ := endTune_stops .safe r
      rw [tune] at tune' releases' gone' events'
      rw [time] at events'
      exact ⟨tune', clock', releases', fun _ => gone', events'⟩
  obtain ⟨tune', clock', releases', gone', events'⟩ := tuneStops
  have both := releases.trans releases'
  refine ⟨⟨clock'.trans clock, tune', fun k b hb => releases'.claims .clock b (gone k b hb), gone', fun c hc h hh => ?_,
    fun hw => (both.charges hw).2⟩, both.bells, by rw [events', events]⟩
  by_contra taken
  rw [Bool.not_eq_false] at taken
  have stays : c ∈ strikeCharges (voicesSafe p) := mem_strikeCharges.mpr ⟨hc, ofStrike_ofSomeStrike taken⟩
  rw [both.strikes] at stays
  have free := List.all_eq_true.mp (List.mem_filter.mp stays).2 h hh
  simp [taken] at free

end Voices

/-! ## Hammers withdrawn -/

section Withdrawals

variable {p q r : Part} {b : Nat} {l : List Nat}

/-- R61: the record of a bell at the entry into SAFE. -/
def drawn (x : Bell) : Bell := if x.fitted = true ∧ x.hammer ≠ .withdrawn then decided x .withdraw else x

/-- R61: the settings decided at the entry into SAFE. -/
def drawnOf (p : Part) (l : List Nat) : List (Nat × HammerAction) :=
  (l.filter (fun b => (p.bell b).hammer ≠ .withdrawn)).map (fun b => (b, .withdraw))

theorem guardSafe_foldl (hl : l.Nodup) (hq : q = l.foldl (fun p b =>
      if (p.bell b).hammer = .withdrawn then p else decideSetting b .withdraw p) p) :
    (∀ b, q.bell b = if b ∈ l then drawn (p.bell b) else p.bell b)
      ∧ Decides p q (drawnOf p l) ∧ p.sameBut q [.bellGuard, .safety] := by
  induction l generalizing p with
  | nil =>
    rw [hq]
    exact ⟨fun b => by simp, .refl p, same_refl _ _⟩
  | cons a l ih =>
    obtain ⟨ha, hl⟩ := List.nodup_cons.mp hl
    rw [List.foldl_cons] at hq
    generalize hr : (if (p.bell a).hammer = .withdrawn then p else decideSetting a .withdraw p) = r at hq
    obtain ⟨bells, decides, same⟩ := ih hl hq
    have first : r.bell a = drawn (p.bell a) ∧ (∀ b, b ≠ a → r.bell b = p.bell b)
        ∧ Decides p r (drawnOf p [a]) ∧ p.sameBut r [.bellGuard, .safety] := by
      rw [← hr]
      by_cases hw : (p.bell a).hammer = .withdrawn
      · simp only [hw, drawn, drawnOf, if_true, ne_eq, not_true_eq_false, and_false, if_false, decide_false,
          List.filter_cons, List.filter_nil, Bool.false_eq_true, List.map_nil]
        exact ⟨trivial, fun _ _ => trivial, .refl p, same_refl _ _⟩
      · obtain ⟨own, others⟩ := decideSetting_bell p a .withdraw
        rw [if_neg hw]
        refine ⟨own.trans ?_, others, ?_, (decideSetting_frame p a .withdraw).2 (.inl hw)⟩
        · simp [drawn, hw]
        · simpa [drawnOf, hw] using decideSetting_decides p a .withdraw
    obtain ⟨own, others, one, same'⟩ := first
    have later : drawnOf r l = drawnOf p l := by
      unfold drawnOf
      rw [List.filter_congr fun b hb => ?_]
      rw [others b fun e => ha (e ▸ hb)]
    refine ⟨fun b => ?_, ?_, sameBut_trans same' same⟩
    · rw [bells]
      by_cases hb : b = a
      · rw [hb, if_neg ha, own, if_pos List.mem_cons_self]
      · rw [others b hb]
        simp [hb]
    · have whole := one.trans (later ▸ decides)
      rwa [drawnOf, drawnOf, ← List.map_append, ← List.filter_append, List.singleton_append] at whole

/-- R61: the entry into SAFE withdraws every fitted hammer that is not WITHDRAWN. -/
theorem guardSafe_draws (p : Part) : (∀ b, (guardSafe p).bell b = drawn (p.bell b))
    ∧ Decides p (guardSafe p) (drawnOf p (List.range' 1 16)) ∧ p.sameBut (guardSafe p) [.bellGuard, .safety] := by
  have numbers : bellNumbers = List.range' 1 16 := by decide
  obtain ⟨bells, decides, same⟩ := guardSafe_foldl (p := p) (q := guardSafe p) (l := List.range' 1 16) (by decide)
    (by rw [guardSafe, numbers])
  refine ⟨fun b => (bells b).trans ?_, decides, same⟩
  split
  · rfl
  · rename_i h
    refine (if_neg fun k => h ?_).symm
    rw [List.mem_range'_1]
    have hb := fitted_bell k.1
    omega

end Withdrawals

end Sys2Proof.Machine.Bells


/-! SUPPORT. What raising a MAJOR fault does (R178): the fault record, the part's state, the notices, the event, the voices
and the hammers; and that what only a hammer's change came before, or a session's end after, alters nothing of it. -/

namespace Sys2Proof.Machine.Bells

open Dials

/-! ## The settings of a list -/

section Settings

variable {p q r : Part} {b : Nat} {f g : Nat → Bool} {l : List Nat} {k : HammerAction}

/-- R48: a bell that is not fitted, or whose examination is told otherwise, adds nothing to SAFETY. -/
theorem safetyAfter_filter (h : ∀ b ∈ l, (p.bell b).config.hammerNode ≠ none → f b = g b)
    (m : List (Nat × HammerAction)) :
    p.safetyAfter (m ++ (l.filter f).map (fun b => (b, k)))
      = p.safetyAfter (m ++ (l.filter g).map (fun b => (b, k))) := by
  simp only [safetyAfter_eq, List.foldl_append, List.foldl_map, List.foldl_filter]
  refine List.foldl_ext _ _ _ fun v b hb => ?_
  by_cases hf : (p.bell b).config.hammerNode = none
  · simp [settingFor_eq, hf, enterSafety]
  · rw [h b hb hf]

end Settings

/-! ## The fault raised -/

section Faults

variable {p q r : Part} {b : Nat} {k : FaultKind} {d : List Byte} {T : List Block}

/-- R178: what a MAJOR fault leaves beside the notices and the hammers. -/
structure Raised (p : Part) (k : FaultKind) (d : List Byte) (q : Part) : Prop where
  record : q.mgmt.faults = some (p.recordedFault k d)
  state : q.mgmt.partState = if p.mgmt.faults = none then p.mgmt.partState else .safe
  rest : p.majorRaised q

/-- The pieces that a MAJOR fault may touch, but for the session. -/
def major : List Block :=
  [.dialDriver, .bellGuard, .clock, .tune, .lamps, .budget, .events, .safety, .locals, .up, .faults]

theorem entering_iff : p.entering = true ↔ p.mgmt.faults ≠ none ∧ p.mgmt.partState = .running := by
  simp [Part.entering, Option.isSome_iff_ne_none]

theorem entering_state (p : Part) :
    (if p.entering = true then .safe else p.mgmt.partState)
      = if p.mgmt.faults = none then p.mgmt.partState else PartState.safe := by
  by_cases hf : p.mgmt.faults = none
  · rw [if_pos hf, if_neg fun k => (entering_iff.mp k).1 hf]
  · rw [if_neg hf]
    split
    · rfl
    · rename_i h
      cases hs : p.mgmt.partState with
      | safe => rfl
      | running => exact absurd (entering_iff.mpr ⟨hf, hs⟩) h

/-- R61, R178: the entry into SAFE, up to the notices. -/
def safeEntry (k : FaultKind) (d : List Byte) (p : Part) : Part :=
  voicesSafe (guardSafe { p with mgmt.faults := some (faultRecorded k d p), mgmt.partState := .safe })

theorem raiseMajor_eq (k : FaultKind) (d : List Byte) (p : Part) : raiseMajor k d p
    = emitCue .faultMajor (if p.entering then sendNotice .safeEntered [] (noticeFault k d (safeEntry k d p))
        else noticeFault k d { p with mgmt.faults := some (faultRecorded k d p) }) := rfl

theorem voicesStopped_before (h : p.sameBut r T) (h1 : Block.clock ∉ T) (h2 : Block.tune ∉ T) (h3 : Block.budget ∉ T)
    (hr : r.voicesStopped q) : p.voicesStopped q := by
  have clock : r.clock = p.clock := h .clock h1
  have tune : r.tune = p.tune := h .tune h2
  have budget : r.budget = p.budget := h .budget h3
  unfold Part.voicesStopped Part.heldStrikes at hr ⊢
  rwa [clock, tune, budget] at hr

theorem voicesStopped_after (h : q.sameBut r T) (h1 : Block.clock ∉ T) (h2 : Block.tune ∉ T) (h3 : Block.budget ∉ T)
    (hc : ∀ v b, claimOf v (q.bell b) = false → claimOf v (r.bell b) = false) (hq : p.voicesStopped q) :
    p.voicesStopped r := by
  have clock : r.clock = q.clock := h .clock h1
  have tune : r.tune = q.tune := h .tune h2
  have budget : r.budget = q.budget := h .budget h3
  obtain ⟨clock', tune', noClock, noTune, free, charges⟩ := hq
  exact ⟨clock.trans clock', tune.trans tune', fun k b hb => hc .clock b (noClock k b hb),
    fun k b hb => hc .tune b (noTune k b hb), by rwa [budget], by rwa [budget]⟩

theorem entering_before (h : p.sameBut r T) (h1 : Block.faults ∉ T) : r.entering = p.entering := by
  obtain ⟨faults, _, state⟩ := h .faults h1
  unfold Part.entering
  rw [faults, state]

/-- The fault is raised from `p` if it is raised from a part that has since changed a hammer alone. -/
theorem Raised.before (h : p.sameBut r [.bellGuard, .session, .copies, .safety]) (hr : Raised r k d q) :
    Raised p k d q := by
  have enters : r.entering = p.entering := entering_before h (by decide)
  obtain ⟨faults, _, state⟩ := h .faults (by decide)
  have time : r.time = p.time := h .time (by decide)
  obtain ⟨record, state', events, safe, running⟩ := hr
  have recorded : r.recordedFault k d = p.recordedFault k d := by
    unfold Part.recordedFault Part.towerTime Part.unset
    rw [faults, time]
  refine ⟨recorded ▸ record, by rw [state', faults, state], ?_, fun k => ?_, fun k => ?_⟩
  · rw [h .events (by decide), enters, time, h .tune (by decide)] at events
    exact events
  · exact voicesStopped_before h (by decide) (by decide) (by decide) (safe (enters.trans k))
  · rw [← h .clock (by decide), ← h .tune (by decide), ← h .dialDriver (by decide), ← h .lamps (by decide),
      ← h .budget (by decide), ← h .locals (by decide)]
    exact running (enters.trans k)

/-- The fault stays raised when bells without a claim of a voice more, the session, SAFETY and UP alone change. -/
theorem Raised.after (h : q.sameBut r [.bellGuard, .session, .safety, .up])
    (hc : ∀ v b, claimOf v (q.bell b) = false → claimOf v (r.bell b) = false) (hq : Raised p k d q) :
    Raised p k d r := by
  obtain ⟨faults, _, state⟩ := h .faults (by decide)
  obtain ⟨record, state', events, safe, running⟩ := hq
  refine ⟨faults.trans record, state.trans state', (h .events (by decide)).trans events, fun k => ?_, fun k => ?_⟩
  · exact voicesStopped_after h (by decide) (by decide) (by decide) hc (safe k)
  · rw [h .clock (by decide), h .tune (by decide), h .dialDriver (by decide), h .lamps (by decide),
      h .budget (by decide), h .locals (by decide)]
    exact running k

/-- R61, R114: the entry into SAFE, up to the notices. -/
theorem safeEntry_enters (hs : r = safeEntry k d p) :
    p.voicesStopped r ∧ (∀ b, voiceless (r.bell b) = voiceless (drawn (p.bell b)))
      ∧ Decides p r (drawnOf p (List.range' 1 16))
      ∧ r.cal.events = p.cal.events ++ (if p.time.state = .unset ∨ p.tune.state = .idle then [] else
          [.tuneEnd ((p.tune.inHand.map Prod.fst).getD 0) .safe])
      ∧ r.mgmt.faults = some (p.recordedFault k d) ∧ r.mgmt.partState = .safe
      ∧ p.sameBut r
          [.dialDriver, .bellGuard, .clock, .tune, .lamps, .budget, .events, .safety, .locals, .faults] := by
  unfold safeEntry at hs
  generalize hu : ({ p with mgmt.faults := some (faultRecorded k d p), mgmt.partState := .safe } : Part) = u at hs
  have first : p.sameBut u [.faults] := by rw [← hu]; simp
  obtain ⟨draws, decides, guards⟩ := guardSafe_draws u
  obtain ⟨stops, bells, events⟩ := voicesSafe_stops (guardSafe u)
  have both : p.sameBut (guardSafe u) [.bellGuard, .safety, .faults] :=
    sameBut_trans (sameBut_mono first (by simp)) (sameBut_mono guards (by simp))
  have voices : (guardSafe u).sameBut (voicesSafe (guardSafe u))
    [.dialDriver, .bellGuard, .clock, .tune, .lamps, .budget, .events, .locals] := by simp
  generalize guardSafe u = g at hs draws decides guards stops bells events both voices
  rw [← hs] at stops bells events voices
  have same : p.sameBut r
      [.dialDriver, .bellGuard, .clock, .tune, .lamps, .budget, .events, .safety, .locals, .faults] :=
    sameBut_trans (sameBut_mono both (by simp)) (sameBut_mono voices (by simp))
  have start : ∀ b, u.bell b = p.bell b := bell_congr (first .bellGuard (by decide))
  have faults : r.mgmt.faults = u.mgmt.faults ∧ r.mgmt.partState = u.mgmt.partState := by
    obtain ⟨f, _, s⟩ := guards .faults (by decide)
    obtain ⟨f', _, s'⟩ := voices .faults (by decide)
    exact ⟨f'.trans f, s'.trans s⟩
  refine ⟨voicesStopped_before both (by decide) (by decide) (by decide) stops,
    fun b => by rw [bells, draws, start], ?_, ?_, ?_, ?_, same⟩
  · have list : drawnOf u (List.range' 1 16) = drawnOf p (List.range' 1 16) := by
      unfold drawnOf
      simp only [start]
    have configs : ∀ b, (r.bell b).config = (g.bell b).config := fun b => voiceless_config (bells b)
    have last : Decides g r [] := .of_eq (voices .safety (by decide)) configs (voices .requests (by decide)).2.2.2.1
    have whole := ((Decides.of_same first (by decide) (by decide) (by decide)).trans decides).trans last
    rwa [list, List.append_nil, List.nil_append] at whole
  · rw [events, both .events (by decide), both .time (by decide), both .tune (by decide)]
  · rw [faults.1, ← hu]
    rfl
  · rw [faults.2, ← hu]

/-- R178: what raising a MAJOR fault does. -/
theorem raiseMajor_raises (hk : k.major = true) (hq : q = raiseMajor k d p) :
    Raised p k d q ∧ Sends p q (p.faultNotices k.code d)
      ∧ (∀ b, voiceless (q.bell b) = voiceless (if p.entering then drawn (p.bell b) else p.bell b))
      ∧ Decides p q (if p.entering then drawnOf p (List.range' 1 16) else []) ∧ p.sameBut q major := by
  rw [raiseMajor_eq] at hq
  by_cases enters : p.entering = true
  · simp only [if_pos enters] at hq ⊢
    generalize hr : safeEntry k d p = r at hq
    obtain ⟨stops, bells, decides, events, faults, state, same⟩ := safeEntry_enters hr.symm
    have silent : Sends p r [] := .of_same same (by decide) (by decide) (by decide) (by decide)
    have fault := noticeFault_sends hk d r
    have fault' : r.sameBut (noticeFault k d r) [.up] := by simp
    generalize noticeFault k d r = t at hq fault fault'
    have entered := sendNotice_sends .safeEntered [] t
    have entered' : t.sameBut (sendNotice .safeEntered [] t) [.up] := by simp
    generalize sendNotice .safeEntered [] t = s at hq entered entered'
    have cue : s.sameBut q [.events] := by rw [hq]; simp
    have told : r.sameBut s [.up] := sameBut_trans fault' entered'
    have rest : r.sameBut q [.up, .events] :=
      sameBut_trans (sameBut_mono told (by simp)) (sameBut_mono cue (by simp))
    have bells' := bell_congr (rest .bellGuard (by decide))
    obtain ⟨f, _, st⟩ := rest .faults (by decide)
    refine ⟨⟨f.trans faults, ?_, ?_, fun _ => ?_, fun k => absurd enters (by simp [k])⟩, ?_,
      fun b => by rw [bells', bells], ?_, ?_⟩
    · rw [st, state, ← entering_state, if_pos enters]
    · rw [hq, emitCue_events, told .events (by decide), events, told .time (by decide), same .time (by decide)]
      by_cases unset : p.time.state = .unset
      · simp [unset]
      · by_cases idle : p.tune.state = .idle <;> simp [unset, idle, enters]
    · exact voicesStopped_after rest (by decide) (by decide) (by decide) (fun v b h => by rwa [bells']) stops
    · have whole := ((silent.trans fault).trans entered).trans
        (.of_same cue (by decide) (by decide) (by decide) (by decide))
      rw [fault.notices, fault.tower, silent.notices, silent.notices, silent.tower] at whole
      rw [Part.faultNotices, if_pos enters]
      exact whole
    · have whole := decides.trans (.of_same rest (by decide) (by decide) (by decide))
      rwa [List.append_nil] at whole
    · exact sameBut_trans (sameBut_mono same (by decide)) (sameBut_mono rest (by decide))
  · simp only [if_neg enters] at hq ⊢
    generalize hr : ({ p with mgmt.faults := some (faultRecorded k d p) } : Part) = r at hq
    have same : p.sameBut r [.faults] := by rw [← hr]; simp
    have silent : Sends p r [] := .of_same same (by decide) (by decide) (by decide) (by decide)
    have fault := noticeFault_sends hk d r
    have fault' : r.sameBut (noticeFault k d r) [.up] := by simp
    generalize noticeFault k d r = t at hq fault fault'
    have cue : t.sameBut q [.events] := by rw [hq]; simp
    have rest : r.sameBut q [.up, .events] :=
      sameBut_trans (sameBut_mono fault' (by simp)) (sameBut_mono cue (by simp))
    have whole : p.sameBut q [.up, .events, .faults] :=
      sameBut_trans (sameBut_mono same (by simp)) (sameBut_mono rest (by simp))
    obtain ⟨f, _, st⟩ := rest .faults (by decide)
    refine ⟨⟨?_, ?_, ?_, fun k => absurd k enters, fun _ => ?_⟩, ?_, fun b => ?_, ?_, sameBut_mono whole (by decide)⟩
    · rw [f, ← hr]
      rfl
    · rw [st, ← entering_state, if_neg enters, ← hr]
    · rw [hq, emitCue_events, fault' .events (by decide), fault' .time (by decide), same .events (by decide),
        same .time (by decide)]
      simp [enters]
    · exact ⟨whole .clock (by decide), whole .tune (by decide), whole .dialDriver (by decide),
        whole .lamps (by decide), whole .budget (by decide), whole .locals (by decide)⟩
    · have sends := (silent.trans fault).trans (.of_same cue (by decide) (by decide) (by decide) (by decide))
      rw [silent.notices, silent.tower] at sends
      rw [Part.faultNotices, if_neg enters]
      exact sends
    · rw [bell_congr (whole .bellGuard (by decide))]
    · exact .of_same whole (by decide) (by decide) (by decide)

end Faults

end Sys2Proof.Machine.Bells


/-! SUPPORT. Reports of positions and intrusion (R44, R46): a hammer withdrawn for the bell that a MAJOR fault concerns. -/

namespace Sys2Proof.Machine.Bells

open Dials

/-! ## The hammer withdrawn, and the fault -/

section Withdrawn

variable {p q r s : Part} {b : Nat} {k : FaultKind} {d : List Byte} {m : List (Nat × HammerAction)} {y : Bell}

/-- R61, R178: the settings of the entry into SAFE, of bells that differ from those of `p` in the bell the fault concerns,
whose hammer is not WITHDRAWN. -/
theorem safetyAfter_drawnAtFault (ho : ∀ a, a ≠ b → r.bell a = p.bell a)
    (hb : (p.bell b).config.hammerNode ≠ none → (r.bell b).hammer ≠ .withdrawn) :
    p.safetyAfter (m ++ if p.entering then drawnOf r (List.range' 1 16) else [])
      = p.safetyAfter (m ++ p.drawnAtFault b) := by
  unfold Part.drawnAtFault drawnOf
  by_cases h : p.entering = true
  · rw [if_pos h, if_pos (entering_iff.mp h)]
    refine safetyAfter_filter (fun a _ fit => ?_) m
    by_cases ha : a = b
    · rw [ha] at fit ⊢
      simp [hb fit]
    · simp [ho a ha, ha]
  · rw [if_neg h, if_neg fun e => h (entering_iff.mpr e)]

/-- What an entry into SAFE alters of a bell: its hammer. -/
theorem drawn_same (x : Bell) : (drawn x).position = x.position ∧ (drawn x).settled = x.settled
    ∧ (drawn x).intruded = x.intruded ∧ (drawn x).claims = x.claims ∧ (drawn x).config = x.config := by
  unfold drawn
  split <;> exact ⟨rfl, rfl, rfl, rfl, rfl⟩

/-- A hammer that has been withdrawn is withdrawn again at the entry into SAFE. -/
theorem drawn_decided (hf : y.fitted = true) : (drawn (decided y .withdraw)).hammer = .withdrawing
    ∧ (drawn (decided y .withdraw)).wanted = some .withdraw ∧ (drawn (decided y .withdraw)).hammerTimer = none := by
  unfold drawn
  rw [if_pos ⟨hf, nofun⟩]
  exact ⟨rfl, rfl, rfl⟩

/-- R46, R52: the fields of a bell whose hammer has been withdrawn ahead of the fault that it is cause of. -/
structure Drawn (y x : Bell) : Prop where
  position : x.position = y.position
  settled : x.settled = y.settled
  intruded : x.intruded = y.intruded
  ringers : x.claims.ringers = y.claims.ringers
  hammer : y.fitted = true → x.hammer = .withdrawing ∧ x.wanted = some .withdraw ∧ x.hammerTimer = none

theorem Drawn.of_voiceless {x z : Bell} (h : Drawn y x) (e : voiceless z = voiceless x) : Drawn y z := by
  have position := congrArg Bell.position e
  have settled := congrArg Bell.settled e
  have intruded := congrArg Bell.intruded e
  have ringers := congrArg (fun v : Bell => v.claims.ringers) e
  have hammer := congrArg Bell.hammer e
  have wanted := congrArg Bell.wanted e
  have timer := congrArg Bell.hammerTimer e
  refine ⟨position.trans h.position, settled.trans h.settled, intruded.trans h.intruded, ringers.trans h.ringers,
    fun hf => ?_⟩
  obtain ⟨hammer', wanted', timer'⟩ := h.hammer hf
  exact ⟨hammer.trans hammer', wanted.trans wanted', timer.trans timer'⟩

theorem Drawn.decided (y : Bell) : Drawn y (if y.fitted then decided y .withdraw else y) := by
  cases hf : y.fitted with
  | true => exact ⟨rfl, rfl, rfl, rfl, fun _ => ⟨rfl, rfl, rfl⟩⟩
  | false => exact ⟨rfl, rfl, rfl, rfl, fun k => by rw [hf] at k; cases k⟩

theorem Drawn.drawn (y : Bell) : Drawn y (drawn (if y.fitted then Dials.decided y .withdraw else y)) := by
  obtain ⟨position, settled, intruded, claims, _⟩ := drawn_same (if y.fitted then Dials.decided y .withdraw else y)
  have before := Drawn.decided y
  refine ⟨position.trans before.position, settled.trans before.settled, intruded.trans before.intruded,
    (congrArg Claims.ringers claims).trans before.ringers, fun hf => ?_⟩
  rw [if_pos hf]
  exact drawn_decided hf

/-- A change of one bell's record that leaves its configuration decides nothing. -/
theorem Decides.of_bell {T : List Block} (hp : p.sameBut r T) (h1 : Block.safety ∉ T) (h2 : Block.requests ∉ T)
    (ho : ∀ a, a ≠ b → r.bell a = p.bell a) (hc : (r.bell b).config = (p.bell b).config) : Decides p r [] := by
  refine .of_eq (hp .safety h1) (fun a => ?_) (hp .requests h2).2.2.2.1
  by_cases ha : a = b
  · rw [ha, hc]
  · rw [ho a ha]

/-- R46, R52, R61: a hammer is withdrawn, and the fault is raised. -/
theorem withdrawn_raises (hk : k.major = true) (hp : p.sameBut r [.bellGuard, .session, .copies])
    (ho : ∀ a, a ≠ b → r.bell a = p.bell a) (hy : r.bell b = y) (hc : y.config = (p.bell b).config)
    (hq : q = raiseMajor k d (decideSetting b .withdraw r)) :
    Drawn y (q.bell b) ∧ q.line.safetyQ = p.safetyAfter ((b, .withdraw) :: p.drawnAtFault b)
      ∧ Raised p k d q ∧ q.line.upQ = p.upAfter (p.faultNotices k.code d) ∧ r.sameBut q (.session :: major) := by
  obtain ⟨own, others⟩ := decideSetting_bell r b .withdraw
  have decides := decideSetting_decides r b .withdraw
  have frame := (decideSetting_frame r b .withdraw).1
  generalize decideSetting b .withdraw r = s at hq own others decides frame
  obtain ⟨raised, sends, bells, draws, same⟩ := raiseMajor_raises hk hq
  have before : p.sameBut s [.bellGuard, .session, .copies, .safety] :=
    sameBut_trans (sameBut_mono hp (by simp)) (sameBut_mono frame (by simp))
  have enters : s.entering = p.entering := entering_before before (by decide)
  rw [hy] at own
  have start : Decides p r [] := .of_bell hp (by decide) (by decide) ho (by rw [hy, hc])
  refine ⟨?_, ?_, raised.before before, ?_, sameBut_trans (sameBut_mono frame (by decide)) (sameBut_mono same (by decide))⟩
  · have k := bells b
    rw [own] at k
    split at k
    · exact (Drawn.drawn y).of_voiceless k
    · exact (Drawn.decided y).of_voiceless k
  · rw [((start.trans decides).trans draws).queue, enters]
    refine safetyAfter_drawnAtFault (fun a ha => (others a ha).trans (ho a ha)) fun fit => ?_
    have hf : y.fitted = true := fitted_iff.mpr (by rwa [hc])
    rw [own, if_pos hf]
    nofun
  · have silent : Sends p s [] := .of_same before (by decide) (by decide) (by decide) (by decide)
    have whole := silent.trans sends
    rw [whole.queue, List.nil_append, Part.faultNotices, Part.faultNotices, silent.notices, silent.notices,
      silent.tower, enters]

end Withdrawn

/-! ## Position reports -/

section Positions

variable {p q r : Part} {src b n : Nat} {pos : ReportedPosition} {x y z : Bell}

theorem exec_bellState (w : List Instr) (hs : p.retention.supply = true) : exec (.bellState src b pos) ⟨p, w⟩
    = .next ⟨takeBellState src b pos (p.arrivalOf (.bellState src b pos)) (takeCopy (.bellState src b pos) p), w⟩ := by
  simp [exec, execBellState, hs]

theorem acceptsReport_iff : p.acceptsReport src b = true
    ↔ (1 ≤ b ∧ b ≤ 16) ∧ (p.bell b).config.cls = .swing ∧ (p.bell b).config.sensorNode = some src := by
  simp [Part.acceptsReport, within, and_assoc]

/-- R44, R46: an accepted report of MOVING or UP is written, and examined. -/
theorem bellReported_moves (hp : pos ≠ .down) (b n : Nat) (r : Part) : bellReported b pos n r
    = examineIntrusion b pos (r.putBell b { r.bell b with
        lastReport := some n, sensorFrom := some n
        position := if pos = .moving then .moving else .up, downBegan := none, settled := false }) := by
  cases pos with
  | down => exact absurd rfl hp
  | moving => rfl
  | up => rfl

/-- R46: no intrusion, or one that is known and whose hammer needs nothing more. -/
theorem examineIntrusion_known (h : (r.bell b).claims.ringers = true ∨ ((r.bell b).intruded = true
      ∧ ((r.bell b).config.hammerNode = none ∨ (r.bell b).hammer = .withdrawn ∨ (r.bell b).hammer = .withdrawing))) :
    examineIntrusion b pos r = r := by
  unfold examineIntrusion
  dsimp only
  split
  · rfl
  · rename_i free
    obtain ⟨known, rests⟩ := h.resolve_left free
    rw [if_neg (by simp [known])]
    split
    · rfl
    · rename_i stands
      have unfitted : (r.bell b).fitted = false := by simp [Bell.fitted, rests.resolve_right stands]
      exact decideSetting_unfitted unfitted

theorem examineIntrusion_again (h1 : (r.bell b).claims.ringers = false) (h2 : (r.bell b).intruded = true)
    (h3 : (r.bell b).hammer ≠ .withdrawn) (h4 : (r.bell b).hammer ≠ .withdrawing) :
    examineIntrusion b pos r = decideSetting b .withdraw r := by
  simp [examineIntrusion, h1, h2, h3, h4]

theorem examineIntrusion_first (h1 : (r.bell b).claims.ringers = false) (h2 : (r.bell b).intruded = false) :
    examineIntrusion b pos r = raiseMajor .intrusion [byte b, byte (reportCode pos)]
      (decideSetting b .withdraw (r.putBell b { r.bell b with intruded := true })) := by
  simp [examineIntrusion, h1, h2]

end Positions

/-- Settles O26: a report of MOVING or UP is examined on the bell's record as it has been written; the first intrusion is
`withdrawn_raises`. -/
theorem bellReport : Obligations.BellReport := by
  unfold Obligations.BellReport
  intro p r w src b n pos x y hs hr hn hx hy
  rw [exec_bellState w hs, ← hr, ← hn]
  have copies : p.sameBut r [.copies] := by rw [hr]; simp
  have bells := bell_congr (copies .bellGuard (by decide))
  have accepts : r.acceptsReport src b = true
      ↔ (1 ≤ b ∧ b ≤ 16) ∧ x.config.cls = .swing ∧ x.config.sensorNode = some src := by
    rw [acceptsReport_iff, bells, hx]
  refine ⟨fun h => ?_, fun h1 h16 swing sensor => ?_⟩
  · have ignored : ¬ r.acceptsReport src b = true := by
      rw [accepts]
      rintro ⟨⟨h1, h16⟩, swing, sensor⟩
      rcases h with h | h | h | h
      · omega
      · omega
      · simp [swing] at h
      · exact h sensor
    rw [takeBellState, if_neg ignored, copies .bellGuard (by decide)]
  have hb : 1 ≤ b ∧ b ≤ 16 := ⟨h1, h16⟩
  have taken : takeBellState src b pos n r = bellReported b pos n r := if_pos (accepts.mpr ⟨hb, swing, sensor⟩)
  rw [taken]
  refine ⟨fun down was => ?_, fun down was => ?_, fun z hz moves => ?_⟩
  · simp [down, bellReported, bells, ← hx, hy, was]
  · simp [down, bellReported, bells, ← hx, hy, was]
  have written : bellReported b pos n r = examineIntrusion b pos (r.putBell b z) := by
    rw [bellReported_moves moves, bells, ← hx, hz, hy]
  rw [written]
  generalize ht : r.putBell b z = t
  have own : t.bell b = z := ht ▸ bell_putBell_self _ _ _ hb
  have others : ∀ a, a ≠ b → t.bell a = p.bell a := fun a ha => by rw [← ht, bell_putBell_ne _ _ _ _ ha, bells]
  obtain ⟨config, hammer, ringers, intruded, unsettled⟩ : z.config = x.config ∧ z.hammer = x.hammer
      ∧ z.claims.ringers = x.claims.ringers ∧ z.intruded = x.intruded ∧ z.settled = false := by
    rw [hz, hy]
    exact ⟨rfl, rfl, rfl, rfl, rfl⟩
  refine ⟨fun known => ?_, fun free known fit out away => ?_, fun free new => ?_⟩
  · rw [examineIntrusion_known (by rw [own, ringers, intruded, config, hammer]; exact known)]
  · rw [examineIntrusion_again (by rw [own, ringers, free]) (by rw [own, intruded, known])
      (by rw [own, hammer]; exact out) (by rw [own, hammer]; exact away)]
    have start : Decides p t [] := (Decides.of_same copies (by decide) (by decide) (by decide)).trans
      (ht ▸ .putBell (by rw [bells, config, hx]))
    obtain ⟨decidedOwn, rest⟩ := decideSetting_bell t b .withdraw
    refine ⟨_, rfl, ?_, (start.trans (decideSetting_decides t b .withdraw)).queue,
      fun a ha => (rest a ha).trans (others a ha),
      sameBut_trans (by rw [← ht]; simp) ((decideSetting_frame t b .withdraw).2 (.inl (by rw [own, hammer]; exact out)))⟩
    rw [decidedOwn, own, if_pos (fitted_iff.mpr (config ▸ fit)), decided, hammer]
    rfl
  · rw [examineIntrusion_first (by rw [own, ringers, free]) (by rw [own, intruded, new]), own]
    have code : byte (reportCode pos) = if pos = .moving then 2 else 3 := by
      cases pos with
      | down => exact absurd rfl moves
      | moving => rfl
      | up => rfl
    rw [code]
    have again : t.putBell b { z with intruded := true } = r.putBell b { z with intruded := true } := by
      rw [← ht, putBell_putBell]
    rw [again]
    generalize hv : r.putBell b { z with intruded := true } = v
    have put : r.sameBut v [.bellGuard] := by rw [← hv]; simp
    obtain ⟨drawn, queue, raised, up, same⟩ := withdrawn_raises (p := p) (r := v) (b := b) (k := .intrusion)
      (d := [byte b, if pos = .moving then 2 else 3]) (y := { z with intruded := true }) rfl
      (sameBut_trans (sameBut_mono copies (by simp)) (sameBut_mono put (by simp)))
      (fun a ha => by rw [← hv, bell_putBell_ne _ _ _ _ ha, bells]) (hv ▸ bell_putBell_self _ _ _ hb)
      (config.trans (congrArg Bell.config hx)) rfl
    refine ⟨_, rfl, drawn.position, drawn.settled.trans unsettled, drawn.intruded,
      fun fit => (drawn.hammer (fitted_iff.mpr (config ▸ fit))).1, queue, raised.record, raised.state, up, raised.rest,
      sameBut_trans (sameBut_mono put (by decide)) (sameBut_mono same (by decide))⟩

end Sys2Proof.Machine.Bells


/-! SUPPORT. Reports of hammers (R50, R51, R52), and the session that they bring forward (R66, R68). -/

namespace Sys2Proof.Machine.Bells

open Dials

/-! ## The bell of a report -/

section Matches

variable {p r : Part} {src channel b : Nat} {a : HammerAnswer}

theorem exec_hammerReport (w : List Instr) (hs : p.retention.supply = true) :
    exec (.hammerReport src channel a) ⟨p, w⟩
      = .next ⟨takeHammerReport src channel a (takeCopy (.hammerReport src channel a) p), w⟩ := by
  simp [exec, execHammerReport, hs]

/-- R50: the hammer of a bell is that of a node and channel. -/
def drives (src channel : Nat) (x : Bell) : Prop := x.config.hammerNode = some src ∧ x.config.hammerChannel = channel

theorem mem_bellNumbers {b : Nat} : b ∈ bellNumbers ↔ 1 ≤ b ∧ b ≤ 16 := by
  rw [show bellNumbers = List.range' 1 16 from by decide, List.mem_range'_1]
  omega

theorem takeHammerReport_unmatched (h : ∀ b, 1 ≤ b → b ≤ 16 → ¬ drives src channel (r.bell b)) :
    takeHammerReport src channel a r
      = { r with bellGuard.unmatchedReports := bump r.bellGuard.unmatchedReports } := by
  have none : bellAt src channel r = none := by
    rw [bellAt, List.find?_eq_none]
    intro b hb k
    obtain ⟨h1, h16⟩ := mem_bellNumbers.mp hb
    exact h b h1 h16 (by simpa [drives] using k)
  rw [takeHammerReport, none]

/-- R50: the report is for the first bell whose hammer it names. -/
theorem takeHammerReport_matched (hb : 1 ≤ b ∧ b ≤ 16) (h : drives src channel (r.bell b))
    (hl : ∀ c, 1 ≤ c → c < b → ¬ drives src channel (r.bell c)) :
    takeHammerReport src channel a r = hammerReported b a r := by
  have found : bellAt src channel r = some b := by
    cases hf : bellAt src channel r with
    | none =>
      rw [bellAt, List.find?_eq_none] at hf
      exact absurd (by simpa [drives] using h) (hf b (mem_bellNumbers.mpr hb))
    | some c =>
      obtain ⟨matched, l, m, split, first⟩ := List.find?_eq_some_iff_append.mp hf
      have low : 1 ≤ c := (mem_bellNumbers.mp (split ▸ List.mem_append_right _ List.mem_cons_self)).1
      rcases lt_trichotomy c b with k | rfl | k
      · exact absurd (by simpa [drives] using matched) (hl c low k)
      · rfl
      · have sorted : (l ++ c :: m).Pairwise (· < ·) := split ▸ (by decide : bellNumbers.Pairwise (· < ·))
        have mem : b ∈ l ++ c :: m := split ▸ mem_bellNumbers.mpr hb
        rcases List.mem_append.mp mem with e | e
        · exact absurd h (by simpa [drives, imp_iff_not_or] using first b e)
        · rcases List.mem_cons.mp e with rfl | e
          · rfl
          · have := List.rel_of_pairwise_cons (List.pairwise_append.mp sorted).2.1 e
            omega
  rw [takeHammerReport, found]

end Matches

/-! ## Reports of WITHDRAWN -/

section WithdrawnReports

variable {p q r : Part} {b : Nat} {x : Bell}

/-- R53, R66: a hammer that is WITHDRAWN makes a RINGERS claim active, and tells a session that prepares. -/
theorem changeHammer_withdrawn (hb : 1 ≤ b ∧ b ≤ 16) (p : Part) : changeHammer b .withdrawn p
    = if (p.bell b).claims.ringers = true ∧ (p.bell b).hammer ≠ .withdrawn ∧ p.session.state = .preparing then
        lookForOpen { p.putBell b { p.bell b with hammer := .withdrawn } with
          session := p.session.update b (fun x => { x with stage := .held }) }
      else p.putBell b { p.bell b with hammer := .withdrawn } := by
  unfold changeHammer
  dsimp only
  generalize hq : p.putBell b { p.bell b with hammer := .withdrawn } = q
  have session : q.session = p.session := by rw [← hq]; rfl
  have after : q.ringersActive b = true ↔ (p.bell b).claims.ringers = true := by
    rw [ringersActive_iff, ← hq, bell_putBell_self _ _ _ hb]
    simp
  have before := ringersActive_iff (p := p) (b := b)
  by_cases told : (p.bell b).claims.ringers = true ∧ (p.bell b).hammer ≠ .withdrawn ∧ p.session.state = .preparing
  · obtain ⟨ringers, hammer, preparing⟩ := told
    have active : q.ringersActive b = true := after.mpr ringers
    have inactive : ¬ p.ringersActive b = true := by simp [before, hammer, preparing]
    rw [if_neg (by rw [active]; exact inactive), if_pos active, if_pos ⟨ringers, hammer, preparing⟩, toldActive,
      session, if_pos preparing]
  · rw [if_neg told]
    split
    · rfl
    · rename_i differs
      have quiet : p.session.state ≠ .preparing := by
        intro preparing
        refine differs (Bool.eq_iff_iff.mpr (before.trans (Iff.trans ?_ after.symm)))
        refine ⟨fun k => k.1, fun ringers => ⟨ringers, .inl ?_⟩⟩
        by_contra hammer
        exact told ⟨ringers, hammer, preparing⟩
      rw [toldActive, toldInactive, session, if_neg quiet, if_neg quiet, ite_self]

theorem set_update {f : SessionBell → SessionBell} (hf : ∀ k, (f k).bell = k.bell) (s : Session) (b : Nat) :
    (s.update b f).set = s.set := by
  unfold Session.update Session.set
  rw [List.map_map]
  refine List.map_congr_left fun k _ => ?_
  dsimp only [Function.comp]
  split
  · exact hf k
  · rfl

/-- R68: the session stays as it is while a bell of it is not HELD. -/
theorem lookForOpen_waits (h : ∃ k ∈ p.session.bells, k.stage ≠ .held) : lookForOpen p = p := by
  obtain ⟨k, hk, stage⟩ := h
  unfold lookForOpen
  rw [if_neg]
  rintro ⟨_, all⟩
  exact stage (by simpa using List.all_eq_true.mp all k hk)

/-- R68, R75: the session opens. -/
theorem lookForOpen_opens (hp : p.session.state = .preparing) (h : ∀ k ∈ p.session.bells, k.stage = .held)
    (hq : q = lookForOpen p) :
    q.session = { p.session with state := .opened, began := p.towerTime, opened := bump p.session.opened }
      ∧ q.cal.events = p.cal.events ++ (if p.time.state = .unset then [] else [.sessionOpen])
      ∧ Sends p q [p.noticeOf .sessionState p.towerTime
          ([1, 2] ++ bellSetBytes p.session.set ++ beOpt 1 p.session.requester ++ [1, 0])]
      ∧ p.sameBut q [.session, .events, .up] := by
  unfold lookForOpen at hq
  rw [if_pos ⟨hp, by simpa using h⟩] at hq
  generalize hr : ({ p with
    session.state := .opened
    session.began := p.towerTime
    session.opened := bump p.session.opened } : Part) = r at hq
  have same : p.sameBut r [.session] := by rw [← hr]; simp
  have silent : Sends p r [] := .of_same same (by decide) (by decide) (by decide) (by decide)
  have sends := sendNotice_sends .sessionState
    ([1, 2] ++ bellSetBytes p.session.set ++ beOpt 1 p.session.requester ++ [1, 0]) r
  have told : sessionNotice .preparing .opened p.session.set p.session.requester .withdrawn r
    = sendNotice .sessionState
      ([1, 2] ++ bellSetBytes p.session.set ++ beOpt 1 p.session.requester ++ [1, 0]) r := rfl
  rw [told] at hq
  generalize ht : sendNotice .sessionState
      ([1, 2] ++ bellSetBytes p.session.set ++ beOpt 1 p.session.requester ++ [1, 0]) r = t at hq sends
  have up : r.sameBut t [.up] := by rw [← ht]; simp
  have cue : t.sameBut q [.events] := by rw [hq]; simp
  have whole : p.sameBut t [.session, .up] := sameBut_trans (sameBut_mono same (by simp)) (sameBut_mono up (by simp))
  refine ⟨?_, ?_, ?_, sameBut_trans (sameBut_mono whole (by simp)) (sameBut_mono cue (by simp))⟩
  · rw [cue .session (by decide), up .session (by decide), ← hr]
  · rw [hq, emitCue_events, whole .events (by decide), whole .time (by decide)]
  · have all := (silent.trans sends).trans (.of_same cue (by decide) (by decide) (by decide) (by decide))
    rwa [silent.notices, silent.tower] at all

/-- R51: a SWING bell with a RINGERS claim is not engaged. -/
theorem reengage_claimed (swing : (p.bell b).config.cls = .swing) (ringers : (p.bell b).claims.ringers = true) :
    reengage b p = p := by
  refine reengage_not (Bool.not_eq_true _ ▸ fun k => ?_)
  obtain ⟨_, _, _, _, h⟩ := mayEngage_iff.mp k
  simp [swing, ringers] at h

/-- R50: the part once a report has been written in its bell's record. -/
theorem hammerReported_withdrawn (hx : x = p.bell b) : hammerReported b .withdrawn p
    = reengage b (changeHammer b .withdrawn (p.putBell b { x with hammerTimer := none })) := by
  rw [hx]
  rfl

/-- R51: the report of WITHDRAWN for a bell without a RINGERS claim. -/
theorem hammerReported_withdrawn_free (hb : 1 ≤ b ∧ b ≤ 16) (hx : x = p.bell b) (free : x.claims.ringers = false)
    (fit : x.config.hammerNode ≠ none) (hq : q = hammerReported b .withdrawn p) :
    (x.wanted ≠ none ∨ p.mgmt.partState = .safe ∨ (x.config.cls = .swing ∧ x.settled = false) →
        q = p.putBell b { x with hammerTimer := none, hammer := .withdrawn })
      ∧ (x.wanted = none → p.mgmt.partState = .running → x.config.cls = .fixed ∨ x.settled = true →
        q.bell b = { x with
            intruded := false, hammer := .engaging, wanted := some .engage, stateBefore := .withdrawn
            hammerTimer := none }
          ∧ Decides p q [(b, .engage)] ∧ (∀ c, c ≠ b → q.bell c = p.bell c)
          ∧ p.sameBut q [.bellGuard, .safety]) := by
  rw [hammerReported_withdrawn hx, changeHammer_withdrawn hb, bell_putBell_self _ _ _ hb, putBell_putBell,
    if_neg fun k => by simp [free] at k] at hq
  generalize hr : p.putBell b { x with hammerTimer := none, hammer := .withdrawn } = r at hq
  have own : r.bell b = { x with hammerTimer := none, hammer := .withdrawn } := hr ▸ bell_putBell_self _ _ _ hb
  have may : r.mayEngage b = true ↔ x.wanted = none ∧ p.mgmt.partState = .running
      ∧ (x.config.cls = .fixed ∨ x.settled = true) := by
    rw [mayEngage_iff, own, ← hr]
    simp [fit, free]
  refine ⟨fun stays => ?_, fun idle running rests => ?_⟩
  · rw [hq, reengage_not]
    refine Bool.not_eq_true _ ▸ fun k => ?_
    obtain ⟨idle, running, rests⟩ := may.mp k
    rcases stays with h | h | ⟨swing, swings⟩
    · exact h idle
    · simp [running] at h
    · simp [swing, swings] at rests
  · obtain ⟨engagedOwn, others, decides, _, same⟩ := reengage_engages (may.mpr ⟨idle, running, rests⟩)
    rw [← hq, own] at engagedOwn
    rw [← hq] at others decides same
    have put : Decides p r [] := hr ▸ .putBell (hx ▸ rfl)
    exact ⟨engagedOwn, put.trans decides,
      fun c hc => (others c hc).trans (by rw [← hr, bell_putBell_ne _ _ _ _ hc]),
      sameBut_trans (by rw [← hr]; simp) (same (by rw [own]; exact free))⟩

/-- R66, R68: the report of WITHDRAWN for a bell with a RINGERS claim. -/
theorem hammerReported_withdrawn_claimed (hb : 1 ≤ b ∧ b ≤ 16) (hx : x = p.bell b) (ringers : x.claims.ringers = true)
    (swing : x.config.cls = .swing) : hammerReported b .withdrawn p
      = if p.session.state = .preparing ∧ x.hammer ≠ .withdrawn then
          lookForOpen { p.putBell b { x with hammerTimer := none, hammer := .withdrawn } with
            session := p.session.update b (fun k => { k with stage := .held }) }
        else p.putBell b { x with hammerTimer := none, hammer := .withdrawn } := by
  rw [hammerReported_withdrawn hx, changeHammer_withdrawn hb, bell_putBell_self _ _ _ hb, putBell_putBell]
  have own : ∀ v : Part, v.bellGuard = (p.putBell b { x with hammerTimer := none, hammer := .withdrawn }).bellGuard →
      reengage b v = v := fun v hv => by
    have bell := (bell_congr hv b).trans (bell_putBell_self _ _ _ hb)
    exact reengage_claimed (by rw [bell, swing]) (by rw [bell, ringers])
  by_cases told : p.session.state = .preparing ∧ x.hammer ≠ .withdrawn
  · rw [if_pos told, if_pos ⟨ringers, told.2, told.1⟩]
    have looks : ∀ v : Part, (lookForOpen v).bellGuard = v.bellGuard := fun v =>
      (by simp : v.sameBut (lookForOpen v) [.session, .events, .up]) .bellGuard (by decide)
    exact own _ ((looks _).trans rfl)
  · rw [if_neg told, if_neg fun ⟨_, hammer, preparing⟩ => told ⟨preparing, hammer⟩]
    exact own _ rfl

end WithdrawnReports

/-! ## Reports of ENGAGED -/

section EngagedReports

variable {p q r : Part} {b : Nat} {x : Bell}

theorem hammerReported_engaged_free (hb : 1 ≤ b ∧ b ≤ 16) (hx : x = p.bell b) (free : x.claims.ringers = false) :
    hammerReported b .engaged p = p.putBell b { x with hammerTimer := none, hammer := .engaged } := by
  have written : hammerReported b .engaged p
      = changeHammer b .engaged (p.putBell b { x with hammerTimer := none }) := by
    unfold hammerReported
    dsimp only
    rw [← hx, if_neg (by simp [free])]
  rw [written, changeHammer_left (st := .engaged) hb (by decide),
    withdrawnLeft_eq (.inr (.inl (by rw [bell_putBell_self _ _ _ hb]; exact free))), bell_putBell_self _ _ _ hb, putBell_putBell]
  rfl

/-- What leaves its three pieces leaves the Management Unit. -/
theorem mgmt_of_same {T : List Block} (h : p.sameBut q T) (h1 : Block.faults ∉ T) (h2 : Block.requests ∉ T)
    (h3 : Block.mgmt ∉ T) : q.mgmt = p.mgmt := by
  have faults := h .faults h1
  have requests := h .requests h2
  have rest := h .mgmt h3
  simp only [Part.sameIn] at faults requests rest
  generalize q.mgmt = x at *
  generalize p.mgmt = y at *
  cases x
  cases y
  simp_all

/-- R52: a hammer that is ENGAGED under a RINGERS claim is withdrawn at once, and its report is a fault if the claim was
active. -/
theorem hammerReported_engaged_claimed (hb : 1 ≤ b ∧ b ≤ 16) (hx : x = p.bell b) (ringers : x.claims.ringers = true) :
    ∃ (r : Part) (y : Bell), p.sameBut r [.bellGuard, .session] ∧ r.bell b = y
      ∧ (y.config = x.config ∧ y.claims = x.claims) ∧ (∀ a, a ≠ b → r.bell a = p.bell a)
      ∧ hammerReported b .engaged p = if p.ringersActive b then
            raiseMajor .hammerUnexpected [byte b] (decideSetting b .withdraw r)
          else decideSetting b .withdraw r := by
  refine ⟨changeHammer b .engaged (p.putBell b { x with hammerTimer := none }),
    { x with hammerTimer := none, hammer := .engaged }, ?_, ?_, ⟨rfl, rfl⟩, fun a ha => ?_, ?_⟩
  · rw [changeHammer_left (st := .engaged) hb (by decide)]
    simp
  · rw [(changeHammer_bell hb _ _).1, bell_putBell_self _ _ _ hb]
  · rw [(changeHammer_bell hb _ _).2 a ha, bell_putBell_ne _ _ _ _ ha]
  · unfold hammerReported
    dsimp only
    rw [← hx, if_pos ringers]

end EngagedReports

/-- Settles O28: each report is written in the record of the first bell that matches; what follows is R51's examination,
the session's advance, or the withdrawal of `withdrawn_raises`. -/
theorem hammerReport : Obligations.HammerReport := by
  unfold Obligations.HammerReport
  intro p r w src channel a hs hr
  rw [exec_hammerReport w hs, ← hr]
  have copies : p.sameBut r [.copies] := by rw [hr]; simp
  have bells := bell_congr (copies .bellGuard (by decide))
  refine ⟨fun none => ?_, fun b x h1 h16 hx node chan first => ?_⟩
  · rw [takeHammerReport_unmatched fun b h1 h16 => by rw [bells]; exact none b h1 h16, copies .bellGuard (by decide)]
  have hb : 1 ≤ b ∧ b ≤ 16 := ⟨h1, h16⟩
  have hx' : x = r.bell b := hx.trans (bells b).symm
  rw [takeHammerReport_matched hb (hx' ▸ ⟨node, chan⟩) fun c k l => by rw [bells]; exact first c k l]
  have fit : x.config.hammerNode ≠ none := by rw [node]; nofun
  have state : r.mgmt.partState = p.mgmt.partState := (copies .faults (by decide)).2.2
  have session : r.session = p.session := copies .session (by decide)
  have start : Decides p r [] := .of_same copies (by decide) (by decide) (by decide)
  have silent : Sends p r [] := .of_same copies (by decide) (by decide) (by decide) (by decide)
  refine ⟨fun free => ⟨fun ha => ?_, fun ha => ?_, fun ha => ?_⟩, fun y held ringers swing ha hy hheld => ?_,
    fun ringers ha => ?_⟩
  · rw [ha, hammerReported_engaged_free hb hx' free]
  · obtain ⟨stays, _⟩ := hammerReported_withdrawn_free hb hx' free fit rfl
    rw [state] at stays
    rw [ha]
    exact fun h => by rw [stays h]
  · obtain ⟨_, engages⟩ := hammerReported_withdrawn_free hb hx' free fit rfl
    intro idle running rests
    obtain ⟨own, decides, others, same⟩ := engages idle (state.trans running) rests
    rw [ha]
    exact ⟨_, rfl, own, (start.trans decides).queue, fun c hc => (others c hc).trans (bells c), same⟩
  · have set : ({ r.session with bells := held } : Session).set = p.session.set := by
      rw [hheld, session]
      exact set_update (f := fun k => { k with stage := .held }) (fun _ => rfl) _ b
    have looks : hammerReported b .withdrawn r
        = if r.session.state = .preparing ∧ x.hammer ≠ .withdrawn then
            lookForOpen { r.putBell b y with session.bells := held }
          else r.putBell b y := by
      rw [hammerReported_withdrawn_claimed hb hx' ringers swing, hheld, hy, ← session]
      rfl
    rw [ha, looks, ← session]
    generalize hv : ({ r.putBell b y with session.bells := held } : Part) = v
    have put : r.sameBut v [.bellGuard, .session] := by rw [← hv]; simp
    have vSession : v.session = { r.session with bells := held } := by rw [← hv]; rfl
    have vBells : v.bellGuard = (r.putBell b y).bellGuard := by rw [← hv]
    refine ⟨fun h => ?_, fun preparing hammer => ⟨fun waits => ?_, fun all => ?_⟩⟩
    · rw [if_neg fun ⟨preparing, hammer⟩ => h.elim (fun k => k preparing) (fun k => hammer k)]
    · rw [if_pos ⟨preparing, hammer⟩, lookForOpen_waits (by rw [vSession]; exact waits)]
    · rw [if_pos ⟨preparing, hammer⟩]
      obtain ⟨opened, events, told, same⟩ :=
        lookForOpen_opens (p := v) (by rw [vSession]; exact preparing) (by rw [vSession]; exact all) rfl
      have quiet : Sends p v [] := silent.trans (.of_same put (by decide) (by decide) (by decide) (by decide))
      have sent := (quiet.trans told).queue
      have stays : ∀ c, (lookForOpen v).bell c = (r.putBell b y).bell c :=
        bell_congr ((same .bellGuard (by decide)).trans vBells)
      refine ⟨_, rfl, (stays b).trans (bell_putBell_self _ _ _ hb),
        fun c hc => (stays c).trans ((bell_putBell_ne _ _ _ _ hc).trans (bells c)), ?_, fun known => ?_, fun room => ?_,
        sameBut_trans (sameBut_mono put (by simp)) (sameBut_mono same (by simp))⟩
      · rw [opened, quiet.tower, vSession]
      · rw [events, put .events (by decide), put .time (by decide), copies .events (by decide),
          copies .time (by decide), if_neg known]
      · rw [sent, vSession, set, quiet.notices, quiet.tower, session]
        exact if_pos room
  · obtain ⟨t, y, same, own, ⟨config, claims⟩, others, reported⟩ := hammerReported_engaged_claimed hb hx' ringers
    have before : p.sameBut t [.bellGuard, .session, .copies] :=
      sameBut_trans (sameBut_mono copies (by simp)) (sameBut_mono same (by simp))
    have active : r.ringersActive b = true
        ↔ x.hammer = .withdrawn ∨ p.session.state = .opened ∨ p.session.state = .closing := by
      rw [ringersActive_iff, ← hx', session]
      exact and_iff_right ringers
    have fitted : y.fitted = true := fitted_iff.mpr (config ▸ fit)
    have apart : ∀ c, c ≠ b → t.bell c = p.bell c := fun c hc => (others c hc).trans (bells c)
    have config' : y.config = (p.bell b).config := config.trans (congrArg Bell.config hx)
    rw [ha, reported]
    by_cases h : x.hammer = .withdrawn ∨ p.session.state = .opened ∨ p.session.state = .closing
    · rw [if_pos (active.mpr h)]
      obtain ⟨drawn, queue, raised, up, touched⟩ := withdrawn_raises (k := .hammerUnexpected) (d := [byte b]) rfl before
        apart own config' rfl
      obtain ⟨hammer, wanted, timer⟩ := drawn.hammer fitted
      refine ⟨_, rfl, hammer, wanted, timer, by rw [drawn.ringers, claims, ringers],
        fun _ => ⟨raised.record, up, raised.rest, queue⟩, fun out waits => ?_,
        sameBut_trans (sameBut_mono same (by decide)) (sameBut_mono touched (by decide))⟩
      rcases h with h | h | h
      · exact absurd h out
      · simp [h] at waits
      · simp [h] at waits
    · rw [if_neg fun k => h (active.mp k)]
      have decidedOwn := (decideSetting_bell t b .withdraw).1
      rw [own, if_pos fitted] at decidedOwn
      have frame := (decideSetting_frame t b .withdraw).1
      have start : Decides p t [] := .of_bell before (by decide) (by decide) apart (by rw [own, config'])
      refine ⟨_, rfl, by rw [decidedOwn]; rfl, by rw [decidedOwn]; rfl, by rw [decidedOwn]; rfl,
        by rw [decidedOwn, ← ringers, ← claims]; rfl, fun k => absurd k h, fun _ _ => ⟨?_, ?_⟩,
        sameBut_trans (sameBut_mono same (by simp)) (sameBut_mono frame (by simp))⟩
      · exact (mgmt_of_same frame (by decide) (by decide) (by decide)).trans
          (mgmt_of_same before (by decide) (by decide) (by decide))
      · exact (start.trans (decideSetting_decides t b .withdraw)).queue

end Sys2Proof.Machine.Bells


/-! SUPPORT. Hammers that jam (R50), and the session that fails with one (R69). -/

namespace Sys2Proof.Machine.Bells

open Dials

/-! ## Settings decided again -/

section Again

variable {p q r : Part} {a b : Nat} {s t : Setting} {v : List Setting} {l : List Nat} {f g : Nat → Bool}

/-- R164: a setting that enters SAFETY alters nothing: it stands there for its bell already, or there is no place. -/
def entered (v : List Setting) (s : Setting) : Prop :=
  ((∃ t ∈ v, t.bell = s.bell) ∧ ∀ t ∈ v, t.bell = s.bell → t = s)
    ∨ ((∀ t ∈ v, t.bell ≠ s.bell) ∧ 8 ≤ v.length)

theorem enterSafety_of_entered (h : entered v s) : enterSafety v (some s) = v := by
  unfold enterSafety
  dsimp only
  rcases h with ⟨⟨t, ht, e⟩, own⟩ | ⟨none, full⟩
  · rw [if_pos (List.any_eq_true.mpr ⟨t, ht, by simpa using e⟩)]
    refine (List.map_congr_left fun u hu => ?_).trans (List.map_id v)
    split
    · rename_i k
      exact (own u hu (by simpa using k)).symm
    · rfl
  · rw [if_neg (by simpa using none), if_neg (by omega)]

theorem entered_enterSafety (v : List Setting) (s : Setting) : entered (enterSafety v (some s)) s := by
  unfold enterSafety
  dsimp only
  split
  · rename_i h
    obtain ⟨t, ht, e⟩ := List.any_eq_true.mp h
    refine .inl ⟨⟨s, List.mem_map.mpr ⟨t, ht, if_pos (by simpa using e)⟩, rfl⟩, fun u hu k => ?_⟩
    obtain ⟨w, _, rfl⟩ := List.mem_map.mp hu
    split at k
    · rename_i e
      exact if_pos e
    · contradiction
  · rename_i h
    have none : ∀ t ∈ v, t.bell ≠ s.bell := by simpa using h
    split
    · refine .inl ⟨⟨s, List.mem_append_right _ List.mem_cons_self, rfl⟩, fun u hu k => ?_⟩
      rcases List.mem_append.mp hu with hu | hu
      · exact absurd k (none u hu)
      · exact List.mem_singleton.mp hu
    · exact .inr ⟨none, by omega⟩

/-- A setting that is entered stays so when another bell's enters. -/
theorem entered_other (h : entered v s) (ht : t.bell ≠ s.bell) : entered (enterSafety v (some t)) s := by
  have kept : ∀ {u : Setting}, u ∈ enterSafety v (some t) → u.bell = s.bell → u ∈ v := fun {u} hu k => by
    unfold enterSafety at hu
    dsimp only at hu
    (repeat' split at hu)
    · obtain ⟨w, hw, rfl⟩ := List.mem_map.mp hu
      split at k
      · exact absurd k ht
      · rwa [if_neg (by assumption)]
    · rcases List.mem_append.mp hu with hu | hu
      · exact hu
      · rw [List.mem_singleton.mp hu] at k
        exact absurd k ht
    · exact hu
  rcases h with ⟨⟨u, hu, e⟩, own⟩ | ⟨none, full⟩
  · refine .inl ⟨⟨u, ?_, e⟩, fun u hu k => own u (kept hu k) k⟩
    unfold enterSafety
    dsimp only
    (repeat' split)
    · exact List.mem_map.mpr ⟨u, hu, if_neg (by rw [e]; simpa using ht.symm)⟩
    · exact List.mem_append_left _ hu
    · exact hu
  · refine .inr ⟨fun u hu k => none u (kept hu k) k, ?_⟩
    unfold enterSafety
    dsimp only
    (repeat' split)
    · rwa [List.length_map]
    · rw [List.length_append]
      omega
    · exact full

/-- R164: of a bell whose setting is entered, the decisions of a list that say it again add nothing. -/
theorem foldl_entered {e : Nat → Option Setting} (he : ∀ c s, e c = some s → s.bell = c)
    (hv : ∀ s, e a = some s → entered v s) (hg : ∀ c, c ≠ a → f c = g c) (l : List Nat) :
    (l.filter f).foldl (fun v c => enterSafety v (e c)) v = (l.filter g).foldl (fun v c => enterSafety v (e c)) v := by
  rw [List.foldl_filter, List.foldl_filter]
  induction l generalizing v with
  | nil => rfl
  | cons c l ih =>
    rw [List.foldl_cons, List.foldl_cons]
    by_cases hc : c = a
    · have again : enterSafety v (e a) = v := by
        cases h : e a with
        | none => rfl
        | some s => exact enterSafety_of_entered (hv s h)
      rw [hc, again, ite_self, ite_self]
      exact ih hv
    · rw [hg c hc]
      refine ih fun s hs => ?_
      split
      · cases h : e c with
        | none => exact hv s hs
        | some t =>
          refine entered_other (hv s hs) ?_
          rw [he a s hs, he c t h]
          exact hc
      · exact hv s hs

end Again

/-! ## The claims of a session leave -/

section Leaving

variable {p q r : Part} {a b c : Nat} {l : List Nat}

/-- R51: the bells that are engaged once they have no RINGERS claim. -/
def rests (p : Part) (b : Nat) : Bool :=
  (p.bell b).hammer = .withdrawn && (p.bell b).wanted = none && ((p.bell b).config.cls = .fixed || (p.bell b).settled)

theorem engagedOf_eq (p : Part) (l : List Nat) : p.engagedOf l = (l.filter (rests p)).map (fun b => (b, .engage)) := rfl

/-- From `p` to `q` the RINGERS claims of a list of bells have left, and the bells have been examined by R51. -/
structure Leaves (p q : Part) (l : List Nat) : Prop where
  gone : ∀ b ∈ l, (q.bell b).claims.ringers = false
  fewer : ∀ b, (p.bell b).claims.ringers = false → (q.bell b).claims.ringers = false
  voices : ∀ v b, claimOf v (q.bell b) = claimOf v (p.bell b)
  hammers : ∀ b, (p.bell b).hammer ≠ .withdrawn →
    (q.bell b).hammer = (p.bell b).hammer ∧ (q.bell b).hammerTimer = (p.bell b).hammerTimer
  decides : Decides p q (if p.mgmt.partState = .running then p.engagedOf l else [])
  same : p.sameBut q [.bellGuard, .safety]

/-- R51, R54: what the examination finds once the RINGERS claim on bell a has left. -/
theorem mayEngage_left (ha : (q.bell a).claims.ringers = false) :
    q.mayEngage a = true ↔ (q.bell a).fitted = true ∧ rests q a = true ∧ q.mgmt.partState = .running := by
  rw [mayEngage_iff, fitted_iff, rests]
  simp only [ha, true_and, Bool.and_eq_true, Bool.or_eq_true, decide_eq_true_eq]
  tauto

/-- R54: the record of a bell whose RINGERS claim leaves, ahead of the examination. -/
theorem putBell_unclaimed (hq : q = p.putBell a { p.bell a with claims.ringers := false }) :
    q.bell a = { p.bell a with claims.ringers := false } ∧ ∀ c, c ≠ a → q.bell c = p.bell c := by
  rw [hq]
  refine ⟨?_, fun c hc => bell_putBell_ne _ _ _ _ hc⟩
  rcases bell_putBell_cases p a a { p.bell a with claims.ringers := false } with ⟨e, _⟩ | ⟨e, h⟩
  · exact e
  · have start : p.bell a = Bell.started (BellConfig.cold a) 0 :=
      bankGet1_outside _ _ _ (h.resolve_left fun k => k rfl)
    rw [e, start]
    rfl

theorem removeRingers_bell (hq : q = removeRingers p a) :
    (q.bell a).claims = { (p.bell a).claims with ringers := false } ∧ (∀ c, c ≠ a → q.bell c = p.bell c)
      ∧ ((p.bell a).hammer ≠ .withdrawn →
          (q.bell a).hammer = (p.bell a).hammer ∧ (q.bell a).hammerTimer = (p.bell a).hammerTimer)
      ∧ (rests p a = false → rests q a = false)
      ∧ Decides p q (if p.mgmt.partState = .running then p.engagedOf [a] else [])
      ∧ p.sameBut q [.bellGuard, .safety] := by
  unfold removeRingers at hq
  generalize hr : p.putBell a { p.bell a with claims.ringers := false } = r at hq
  obtain ⟨own, others⟩ := putBell_unclaimed hr.symm
  have free : (r.bell a).claims.ringers = false := by rw [own]
  have put : p.sameBut r [.bellGuard] := by rw [← hr]; simp
  have state : r.mgmt.partState = p.mgmt.partState := (put .faults (by decide)).2.2
  have start : Decides p r [] := .of_bell put (by decide) (by decide) others (by rw [own])
  have rest : rests r a = rests p a := by unfold rests; rw [own]
  obtain ⟨examined, others', decides, same⟩ := reengage_cases r a free
  rw [← hq] at examined others' decides same
  have may := mayEngage_left free
  rw [rest, state] at may
  have stays : ¬ r.mayEngage a = true → q.bell a = { p.bell a with claims.ringers := false } := fun k => by
    rw [examined, if_neg k, own]
  refine ⟨?_, fun c hc => (others' c hc).trans (others c hc), fun out => ?_, fun k => ?_, ?_,
    sameBut_trans (sameBut_mono put (by simp)) same⟩
  · rw [examined, own]
    split <;> rfl
  · rw [stays]
    · exact ⟨rfl, rfl⟩
    · intro k
      have := (may.mp k).2.1
      simp [rests, out] at this
  · rw [← k]
    unfold rests
    rw [stays]
    rw [may, k]
    rintro ⟨_, h, _⟩
    cases h
  · have whole := start.trans decides
    refine ⟨whole.queue.trans ?_, whole.settings⟩
    rw [engagedOf_eq, safetyAfter_eq, safetyAfter_eq]
    by_cases fit : (p.bell a).config.hammerNode = none
    · have none : p.settingFor a .engage = none := by rw [settingFor_eq, fit]; rfl
      have unfit : ¬ r.mayEngage a = true := fun k => fitted_iff.mp (may.mp k).1 (by rw [own]; exact fit)
      rw [if_neg unfit]
      split
      · cases h : rests p a <;> simp [h, none, enterSafety]
      · rfl
    · have fitted : (r.bell a).fitted = true := fitted_iff.mpr (by rw [own]; exact fit)
      by_cases running : p.mgmt.partState = .running
      · cases h : rests p a <;> simp [may, fitted, h, running]
      · simp [may, running]

/-- R51, R54, R69: the claims of a list of bells leave; one that stands there twice is examined twice. -/
theorem removeRingers_foldl (hq : q = l.foldl removeRingers p) : Leaves p q l := by
  induction l generalizing p with
  | nil =>
    rw [hq]
    refine ⟨(fun _ h => nomatch h), fun _ => id, fun _ _ => rfl, fun _ _ => ⟨rfl, rfl⟩, ?_, same_refl _ _⟩
    rw [engagedOf_eq, List.filter_nil, List.map_nil, ite_self]
    exact .refl p
  | cons a l ih =>
    rw [List.foldl_cons] at hq
    generalize hr : removeRingers p a = r at hq
    obtain ⟨claims, others, hammers, examined, decides, same⟩ := removeRingers_bell hr.symm
    have rest := ih hq
    have state : r.mgmt.partState = p.mgmt.partState := (same .faults (by decide)).2.2
    have ringers : (r.bell a).claims.ringers = false := by rw [claims]
    refine ⟨fun b hb => ?_, fun b hb => rest.fewer b ?_, fun v b => (rest.voices v b).trans ?_, fun b hb => ?_, ?_,
      sameBut_trans same rest.same⟩
    · rcases List.mem_cons.mp hb with rfl | hb
      · exact rest.fewer b ringers
      · exact rest.gone b hb
    · by_cases h : b = a
      · rw [h, ringers]
      · rw [others b h, hb]
    · by_cases h : b = a
      · rw [h]
        cases v <;> simp only [claimOf, claims]
      · rw [others b h]
    · by_cases h : b = a
      · rw [h] at hb ⊢
        obtain ⟨hammer, timer⟩ := hammers hb
        obtain ⟨hammer', timer'⟩ := rest.hammers a (by rwa [hammer])
        exact ⟨hammer'.trans hammer, timer'.trans timer⟩
      · rw [← others b h] at hb ⊢
        exact rest.hammers b hb
    · have whole := decides.trans rest.decides
      rw [state] at whole
      by_cases running : p.mgmt.partState = .running
      · simp only [if_pos running] at whole decides ⊢
        refine ⟨?_, whole.settings⟩
        rw [rest.decides.queue, state, if_pos running, engagedOf_eq, engagedOf_eq, safetyAfter_eq, safetyAfter_eq,
          List.foldl_map, List.foldl_map]
        simp only [decides.settings, decides.queue]
        have same' : ∀ c, c ≠ a → rests r c = rests p c := fun c hc => by unfold rests; rw [others c hc]
        have first : p.safetyAfter (p.engagedOf [a])
            = if rests p a then enterSafety p.line.safetyQ (p.settingFor a .engage) else p.line.safetyQ := by
          rw [engagedOf_eq, safetyAfter_eq]
          cases h : rests p a <;> simp [h]
        rw [first]
        cases h : rests p a with
        | true =>
          rw [if_pos rfl, List.filter_cons_of_pos h, List.foldl_cons]
          refine foldl_entered (e := fun c => p.settingFor c .engage) (fun _ _ => settingFor_bell) (fun s hs => ?_)
            same' l
          rw [show p.settingFor a .engage = some s from hs]
          exact entered_enterSafety _ _
        | false =>
          rw [if_neg nofun, List.filter_cons_of_neg (by simp [h])]
          refine congrArg (List.foldl _ _) (List.filter_congr fun c _ => ?_)
          by_cases hc : c = a
          · rw [hc, h, examined h]
          · exact same' c hc
      · simp only [if_neg running] at whole ⊢
        exact whole

end Leaving

/-! ## The session that fails -/

section Failing

variable {p q r u : Part} {b : Nat}

/-- R69: a session that does not prepare, or is without the bell, stays but for the mark of the jam. -/
theorem sessionJam_stays (h : b ∉ u.session.set ∨ u.session.state ≠ .preparing) (hq : q = sessionJam b u) :
    u.sameBut q [.session] ∧ (b ∉ u.session.set → q.session = u.session)
      ∧ (b ∈ u.session.set → u.session.state = .opened ∨ u.session.state = .closing →
          q.session = u.session.update b (fun k => { k with jam := true })) := by
  unfold sessionJam at hq
  by_cases hb : b ∈ u.session.set
  · rw [if_neg (by simpa using hb)] at hq
    cases state : u.session.state with
    | preparing => exact absurd state (h.resolve_left fun k => k hb)
    | idle =>
      simp only [state] at hq
      rw [hq]
      exact ⟨same_refl _ _, fun _ => rfl, fun _ k => by simp at k⟩
    | opened =>
      simp only [state] at hq
      rw [hq]
      exact ⟨by simp, fun k => absurd hb k, fun _ _ => rfl⟩
    | closing =>
      simp only [state] at hq
      rw [hq]
      exact ⟨by simp, fun k => absurd hb k, fun _ _ => rfl⟩
  · rw [if_pos (by simpa using hb)] at hq
    rw [hq]
    exact ⟨same_refl _ _, fun _ => rfl, fun k => absurd k hb⟩

/-- R69, R75: a session that prepares fails: its claims leave, and its last notice says so. -/
theorem sessionJam_fails (hb : b ∈ u.session.set) (hs : u.session.state = .preparing) (hq : q = sessionJam b u) :
    q.session = { u.session with
        state := .idle, bells := [], requester := none, began := u.towerTime, outcome := .failed b
        failed := bump u.session.failed }
      ∧ (∀ a ∈ u.session.set, (q.bell a).claims.ringers = false)
      ∧ (∀ v a, claimOf v (q.bell a) = claimOf v (u.bell a))
      ∧ (∀ a, (u.bell a).hammer ≠ .withdrawn →
          (q.bell a).hammer = (u.bell a).hammer ∧ (q.bell a).hammerTimer = (u.bell a).hammerTimer)
      ∧ Decides u q (if u.mgmt.partState = .running then u.engagedOf u.session.set else [])
      ∧ Sends u q [u.noticeOf .sessionState u.towerTime
          ([1, 0] ++ bellSetBytes u.session.set ++ beOpt 1 u.session.requester ++ [4, byte b])]
      ∧ u.sameBut q [.bellGuard, .session, .safety, .up] := by
  unfold sessionJam at hq
  rw [if_neg (by simpa using hb)] at hq
  simp only [hs] at hq
  have set : (u.session.update b (fun x => { x with jam := true })).set = u.session.set :=
    set_update (f := fun x => { x with jam := true }) (fun _ => rfl) _ _
  rw [set] at hq
  generalize ht : ({ u with session := u.session.update b (fun x => { x with jam := true }) } : Part) = t at hq
  have marked : u.sameBut t [.session] := by rw [← ht]; simp
  have leaves := removeRingers_foldl (p := t) (l := u.session.set) rfl
  generalize u.session.set.foldl removeRingers t = v at hq leaves
  have session : v.session = u.session.update b (fun x => { x with jam := true }) :=
    (leaves.same .session (by decide)).trans (by rw [← ht])
  have whole : u.sameBut v [.bellGuard, .session, .safety] :=
    sameBut_trans (sameBut_mono marked (by simp)) (sameBut_mono leaves.same (by simp))
  generalize hw : ({ v with
    session.state := .idle
    session.bells := []
    session.requester := none
    session.began := v.towerTime
    session.outcome := .failed b
    session.failed := bump v.session.failed } : Part) = w at hq
  have ended : v.sameBut w [.session] := by rw [← hw]; simp
  have before : u.sameBut w [.bellGuard, .session, .safety] :=
    sameBut_trans whole (sameBut_mono ended (by simp))
  have quiet : Sends u w [] := .of_same before (by decide) (by decide) (by decide) (by decide)
  have still : Sends u v [] := .of_same whole (by decide) (by decide) (by decide) (by decide)
  have told : q = sendNotice .sessionState
      ([1, 0] ++ bellSetBytes u.session.set ++ beOpt 1 u.session.requester ++ [4, byte b]) w := hq
  have sends := sendNotice_sends .sessionState
    ([1, 0] ++ bellSetBytes u.session.set ++ beOpt 1 u.session.requester ++ [4, byte b]) w
  rw [← told] at sends
  have last : v.sameBut q [.session, .up] := by
    refine sameBut_trans (sameBut_mono ended (by simp)) ?_
    rw [told]
    simp
  have vBells := bell_congr (last .bellGuard (by decide))
  have uBells := bell_congr (marked .bellGuard (by decide))
  have up : w.sameBut q [.up] := by rw [told]; simp
  have engages : t.engagedOf u.session.set = u.engagedOf u.session.set := by
    unfold Part.engagedOf
    simp only [uBells]
  refine ⟨?_, fun a ha => by rw [vBells]; exact leaves.gone a ha, fun v a => by rw [vBells, leaves.voices, uBells],
    fun a ha => ?_, ?_, ?_, sameBut_trans (sameBut_mono whole (by simp)) (sameBut_mono last (by simp))⟩
  · rw [up .session (by decide), ← hw]
    dsimp only
    rw [still.tower, session]
    rfl
  · rw [vBells, ← uBells]
    exact leaves.hammers a (by rwa [uBells])
  · have decides := ((Decides.of_same marked (by decide) (by decide) (by decide)).trans leaves.decides).trans
      (.of_same last (by decide) (by decide) (by decide))
    rwa [List.append_nil, List.nil_append, engages, (marked .faults (by decide)).2.2] at decides
  · have all := quiet.trans sends
    rwa [quiet.notices, quiet.tower] at all

end Failing

/-! ## The hammer that jams -/

section Jams

variable {p q r t u : Part} {b : Nat} {x : Bell}

theorem withdrawnLeft_bells (b : Nat) (p : Part) :
    withdrawnLeft b p = { p.session with bells := (withdrawnLeft b p).bells }
    ∧ (withdrawnLeft b p).set = p.session.set := by
  unfold withdrawnLeft
  split
  · exact ⟨rfl, set_update (f := fun x => { x with stage := .withdrawing }) (fun _ => rfl) _ _⟩
  · exact ⟨rfl, rfl⟩

theorem update_outside {s : Session} (h : b ∉ s.set) (f : SessionBell → SessionBell) : s.update b f = s := by
  have outside : ∀ k ∈ s.bells, (if k.bell = b then f k else k) = id k := fun k hk =>
    if_neg fun e : k.bell = b => h (e ▸ List.mem_map_of_mem (f := SessionBell.bell) hk)
  rw [Session.update, List.map_congr_left outside, List.map_id]

theorem withdrawnLeft_outside (h : b ∉ p.session.set) : withdrawnLeft b p = p.session := by
  unfold withdrawnLeft
  split
  · exact update_outside h _
  · rfl

/-- What a MAJOR fault leaves of a bell, but for the claims of voices, is R51's to examine as it was. -/
theorem rests_of_voiceless {c : Nat} (h : voiceless (q.bell c) = voiceless (p.bell c)) : rests q c = rests p c := by
  have hammer := congrArg Bell.hammer h
  have wanted := congrArg Bell.wanted h
  have config := congrArg Bell.config h
  have settled := congrArg Bell.settled h
  simp only [voiceless] at hammer wanted config settled
  unfold rests
  rw [hammer, wanted, config, settled]

/-- R50, R61, R178: the jam, up to what the session makes of it. -/
theorem jam_raises (hb : 1 ≤ b ∧ b ≤ 16) (hp : p.sameBut t [.bellGuard, .copies])
    (own : t.bell b = { p.bell b with hammerTimer := none }) (others : ∀ a, a ≠ b → t.bell a = p.bell a)
    (fit : (p.bell b).config.hammerNode ≠ none) (hu : u = raiseMajor .hammerJam [byte b] (changeHammer b .jammed t)) :
    Raised p .hammerJam [byte b] u ∧ Sends p u (p.faultNotices 5 [byte b]) ∧ Decides p u (p.drawnAtFault b)
      ∧ (u.bell b).hammer = (if p.entering then .withdrawing else .jammed) ∧ (u.bell b).hammerTimer = none
      ∧ (p.entering = false → ∀ a, a ≠ b → rests u a = rests p a)
      ∧ u.session = withdrawnLeft b t ∧ p.sameBut u (.session :: .copies :: major) := by
  obtain ⟨written, rest⟩ := changeHammer_bell hb t .jammed
  have left := changeHammer_left (st := .jammed) hb (by decide) t
  have change : t.sameBut (changeHammer b .jammed t) [.bellGuard, .session] := by rw [left]; simp
  have session : (changeHammer b .jammed t).session = withdrawnLeft b t := by rw [left]
  generalize changeHammer b .jammed t = v at hu written rest change session
  obtain ⟨raised, sends, bells, draws, same⟩ := raiseMajor_raises rfl hu
  rw [own] at written
  have apart : ∀ a, a ≠ b → v.bell a = p.bell a := fun a ha => (rest a ha).trans (others a ha)
  have before : p.sameBut v [.bellGuard, .session, .copies] :=
    sameBut_trans (sameBut_mono hp (by simp)) (sameBut_mono change (by simp))
  have enters : v.entering = p.entering := entering_before before (by decide)
  have silent : Sends p v [] := .of_same before (by decide) (by decide) (by decide) (by decide)
  have start : Decides p v [] := .of_bell before (by decide) (by decide) apart (by rw [written])
  have told := silent.trans sends
  have drawn := start.trans draws
  rw [enters] at bells drawn
  have k := bells b
  obtain ⟨jammed, untimed, fitted⟩ :
      (v.bell b).hammer = .jammed ∧ (v.bell b).hammerTimer = none ∧ (v.bell b).fitted = true := by
    rw [written]
    exact ⟨rfl, rfl, fitted_iff.mpr fit⟩
  have struck : Bells.drawn (v.bell b) = decided (v.bell b) .withdraw :=
    if_pos ⟨fitted, by rw [jammed]; nofun⟩
  refine ⟨raised.before (sameBut_mono before (by simp)), ⟨?_, told.notices, told.tower⟩, ⟨?_, drawn.settings⟩, ?_, ?_,
    fun running a ha => ?_, (same .session (by decide)).trans session,
    sameBut_trans (sameBut_mono before (by decide)) (sameBut_mono same (by decide))⟩
  · rw [told.queue, List.nil_append, Part.faultNotices, Part.faultNotices, silent.notices, silent.notices,
      silent.tower, enters]
    rfl
  · exact drawn.queue.trans (safetyAfter_drawnAtFault (m := []) apart fun _ => by rw [written]; nofun)
  · have hammer := congrArg Bell.hammer k
    refine Eq.trans hammer ?_
    split
    · rw [struck]
      rfl
    · exact jammed
  · have timer := congrArg Bell.hammerTimer k
    refine Eq.trans timer ?_
    split
    · rw [struck]
      rfl
    · exact untimed
  · refine rests_of_voiceless ?_
    rw [bells a, if_neg (by rw [running]; nofun), apart a ha]

theorem exec_hammerTimeout (w : List Instr) (hs : p.retention.supply = true) :
    exec (.hammerTimeout b) ⟨p, w⟩ = .next ⟨if p.hammerDue b then hammerExpires b p else p, w⟩ := by
  simp [exec, execHammerTimeout, hs]

theorem hammerDue_iff : p.hammerDue b = true ↔ ∃ t, (p.bell b).hammerTimer = some t ∧ t ≤ p.osc := by
  simp [Part.hammerDue, Option.any_eq_true]

/-- R50: the timer that has run out, and the report of JAMMED, jam the hammer with its timer stopped. -/
theorem jam_commands {c : Instr} {node : Nat} (w : List Instr) (hs : p.retention.supply = true) (hb : 1 ≤ b ∧ b ≤ 16)
    (fit : (p.bell b).config.hammerNode = some node)
    (hc : (c = .hammerTimeout b ∧ ∃ t, (p.bell b).hammerTimer = some t ∧ t ≤ p.osc)
      ∨ (c = .hammerReport node (p.bell b).config.hammerChannel .jammed
          ∧ ∀ a, 1 ≤ a → a < b → ¬ drives node (p.bell b).config.hammerChannel (p.bell a))) :
    ∃ t, exec c ⟨p, w⟩ = .next ⟨hammerJams b t, w⟩ ∧ p.sameBut t [.bellGuard, .copies]
      ∧ t.bell b = { p.bell b with hammerTimer := none } ∧ ∀ a, a ≠ b → t.bell a = p.bell a := by
  rcases hc with ⟨rfl, due⟩ | ⟨rfl, first⟩
  · refine ⟨p.putBell b { p.bell b with hammerTimer := none }, ?_, by simp, bell_putBell_self _ _ _ hb,
      fun a ha => bell_putBell_ne _ _ _ _ ha⟩
    rw [exec_hammerTimeout w hs, if_pos (hammerDue_iff.mpr due)]
    rfl
  · rw [exec_hammerReport w hs]
    generalize hr : takeCopy (.hammerReport node (p.bell b).config.hammerChannel .jammed) p = r
    have copies : p.sameBut r [.copies] := by rw [← hr]; simp
    have bells := bell_congr (copies .bellGuard (by decide))
    rw [takeHammerReport_matched hb (by rw [bells]; exact ⟨fit, rfl⟩)
      fun a h1 hl => by rw [bells]; exact first a h1 hl]
    refine ⟨r.putBell b { r.bell b with hammerTimer := none }, rfl,
      sameBut_trans (sameBut_mono copies (by simp)) (by simp), ?_, fun a ha => ?_⟩
    · rw [bell_putBell_self _ _ _ hb, bells]
    · rw [bell_putBell_ne _ _ _ _ ha, bells]

end Jams

/-- Settles O29: the jam raises its fault (`jam_raises`), after which the session stays (`sessionJam_stays`) or fails
(`sessionJam_fails`). -/
theorem hammerJams : Obligations.HammerJams := by
  unfold Obligations.HammerJams
  intro p w b node x hs h1 h16 hx fit
  have hb : 1 ≤ b ∧ b ≤ 16 := ⟨h1, h16⟩
  subst hx
  refine ⟨fun h => ?_, fun c hc => ?_⟩
  · rw [exec_hammerTimeout w hs, if_neg]
    rw [hammerDue_iff]
    rintro ⟨t, ht, due⟩
    rcases h with h | ⟨u, hu, later⟩
    · simp [h] at ht
    · rw [ht, Option.some.injEq] at hu
      omega
  obtain ⟨t, done, before, own, others⟩ := jam_commands w hs hb fit hc
  have fitted : (p.bell b).config.hammerNode ≠ none := by rw [fit]; nofun
  obtain ⟨raised, sends, decides, hammer, timer, rested, session, same⟩ :=
    jam_raises hb before own others fitted rfl
  rw [done, Machine.hammerJams]
  generalize raiseMajor .hammerJam [byte b] (changeHammer b .jammed t) = u at *
  have start : t.session = p.session := before .session (by decide)
  obtain ⟨bellsOnly, set⟩ := withdrawnLeft_bells b t
  rw [← session, start] at bellsOnly set
  have enters : (if p.mgmt.faults ≠ none ∧ p.mgmt.partState = .running then HammerState.withdrawing else .jammed)
      = if p.entering then .withdrawing else .jammed := by simp only [entering_iff]
  have out : (u.bell b).hammer ≠ .withdrawn := by rw [hammer]; split <;> nofun
  have sessionState : u.session.state = p.session.state := by rw [bellsOnly]
  rw [enters]
  by_cases fails : b ∈ p.session.set ∧ p.session.state = .preparing
  · obtain ⟨ended, gone, voices, hammers, engages, told, rest⟩ :=
      sessionJam_fails (set ▸ fails.1) (sessionState.trans fails.2) rfl
    rw [set] at gone engages told
    obtain ⟨kept, kept'⟩ := hammers b out
    have all := sends.trans told
    have settings := decides.trans engages
    have raised' := raised.after rest fun v a h => (voices v a).trans h
    refine ⟨_, rfl, kept.trans hammer, kept'.trans timer, raised'.record, raised'.state, fun h => ?_, raised'.rest,
      fun h => ?_, fun h => absurd fails.1 h, fun _ h => ?_,
      fun _ _ => ⟨?_, fun a ha _ _ => gone a ha, fun free running => ?_, ?_⟩,
      sameBut_trans (sameBut_mono same (by decide)) (sameBut_mono rest (by decide))⟩
    · have safe : u.mgmt.partState ≠ .running := by
        rw [raised.state]
        split
        · rename_i none
          have safe : p.mgmt.partState = .safe := by simpa [fails.1, fails.2, none] using h
          rw [safe]
          nofun
        · nofun
      rw [settings.queue, if_neg safe, List.append_nil]
    · exact absurd fails.2 (h.resolve_left fun k => k fails.1)
    · simp [fails.2] at h
    · rw [ended, sends.tower, bellsOnly]
    · have state : u.mgmt.partState = .running := by rw [raised.state, if_pos free, running]
      have enters : p.entering = false := by rw [Part.entering, free]; rfl
      have drawn : p.drawnAtFault b = [] := if_neg fun k => k.1 free
      have jams : rests u b = false := by unfold rests; simp [out]
      rw [settings.queue, if_pos state, drawn, List.nil_append, engagedOf_eq, engagedOf_eq, List.filter_filter,
        List.filter_congr fun a _ => ?_]
      by_cases ha : a = b
      · simp [ha, jams]
      · simp [ha, rested enters a ha]
    · rw [all.queue, sends.notices, sends.tower, bellsOnly]
  · have stays : b ∉ p.session.set ∨ p.session.state ≠ .preparing := by
      by_contra k
      exact fails (by simpa [not_or] using k)
    obtain ⟨rest, outside, marks⟩ :=
      sessionJam_stays (q := sessionJam b u) (by rw [set, sessionState]; exact stays) rfl
    rw [set] at outside marks
    have bells := bell_congr (rest .bellGuard (by decide))
    have raised' := raised.after (sameBut_mono rest (by simp)) fun v a h => by rwa [bells]
    refine ⟨_, rfl, by rw [bells, hammer], by rw [bells, timer], raised'.record, raised'.state, fun _ => ?_, raised'.rest,
      fun _ => ?_, fun h => ?_, fun hm h => ?_, fun hm h => absurd ⟨hm, h⟩ fails,
      sameBut_trans (sameBut_mono same (by decide)) (sameBut_mono rest (by decide))⟩
    · exact Eq.trans (rest .safety (by decide)) decides.queue
    · exact (rest .up (by decide)).1.trans sends.queue
    · rw [outside h, session, withdrawnLeft_outside (start ▸ h), start]
    · have quiet : t.session.state ≠ .preparing := by
        rw [start]
        rcases h with h | h <;> simp [h]
      rw [marks hm (by rw [sessionState]; exact h), session, withdrawnLeft_eq (.inr (.inr quiet)), start]
      rfl

end Sys2Proof.Machine.Bells


/-! SUPPORT. The session record and the RINGERS claims (R63, R66, R73): what of a part the agreement of the two asks, and the
operations of the Session Controller and the Bell Guard that move either of them. -/

namespace Sys2Proof.Machine.Ringing

open Dials Bells

/-! ## What the agreement asks -/

section Agreement

variable {p q r : Part} {b : Nat} {x : Bell} {st : HammerState} {T : List Block}

/-- The tower time is a matter of the Time Scale. -/
theorem towerTime_of_same (h : p.sameBut q T) (time : Block.time ∉ T) : q.towerTime = p.towerTime := by
  unfold Part.towerTime Part.unset
  rw [h .time time]

/-- A bell of a session that prepares holds its RINGERS claim. -/
theorem preparing_claimed (h : p.SessionSound) (prepares : p.session.state = .preparing) {y : SessionBell}
    (hy : y ∈ p.session.bells) : (p.bell y.bell).claims.ringers = true := by
  obtain ⟨low, high⟩ := h.numbers.2 y hy
  refine (h.claims _ low high).mpr ⟨y, hy, rfl, ?_⟩
  rw [(h.preparing prepares).1 y hy]
  split <;> nofun

/-- The agreement asks the session, the RINGERS claims, and in PREPARING which hammers of claimed bells are WITHDRAWN. -/
theorem sound_of_bells (h : p.SessionSound) (session : q.session = p.session)
    (claims : ∀ b, (q.bell b).claims.ringers = (p.bell b).claims.ringers)
    (hammers : p.session.state = .preparing → ∀ b, (p.bell b).claims.ringers = true →
      ((q.bell b).hammer = .withdrawn ↔ (p.bell b).hammer = .withdrawn)) : q.SessionSound where
  idle := by rw [session]; exact h.idle
  numbers := by rw [session]; exact h.numbers
  claims b low high := by rw [session, claims]; exact h.claims b low high
  preparing prepares := by
    rw [session] at prepares ⊢
    obtain ⟨stages, waits⟩ := h.preparing prepares
    refine ⟨fun y hy => ?_, waits⟩
    simp only [hammers prepares _ (preparing_claimed h prepares hy)]
    exact stages y hy
  opened := by rw [session]; exact h.opened
  closing := by rw [session]; exact h.closing

/-- What leaves the bells and the session alone keeps the agreement. -/
theorem sound_of_eq (h : p.SessionSound) (guard : q.bellGuard.bells = p.bellGuard.bells := by rfl)
    (session : q.session = p.session := by rfl) : q.SessionSound := by
  have bells : ∀ b, q.bell b = p.bell b := fun b => by rw [Part.bell, guard]; rfl
  exact sound_of_bells h session (fun b => by rw [bells]) fun _ b _ => by rw [bells]

/-- A record of a bell that is put with the claim it had, and with a hammer that is WITHDRAWN as before where it is claimed. -/
theorem sound_putBell (h : p.SessionSound) (claim : x.claims.ringers = (p.bell b).claims.ringers)
    (hammer : (p.bell b).claims.ringers = true → (x.hammer = .withdrawn ↔ (p.bell b).hammer = .withdrawn)) :
    (p.putBell b x).SessionSound := by
  refine sound_of_bells h rfl (fun c => ?_) fun _ c hc => ?_
  · rcases bell_putBell_cases p b c x with ⟨e, rfl⟩ | ⟨e, _⟩
    · rw [e, claim]
    · rw [e]
  · rcases bell_putBell_cases p b c x with ⟨e, rfl⟩ | ⟨e, _⟩
    · rw [e]
      exact hammer hc
    · rw [e]

end Agreement

/-! ## A session under way -/

section Runs

variable {p q r : Part} {b : Nat} {x : Bell} {st : HammerState}

/-- R66, R68, R73: the agreement of a session under way, before the Session Controller has looked whether all its bells are
HELD or LEFT. -/
structure Agrees (p : Part) : Prop where
  runs : p.session.state ≠ .idle ∧ p.session.bells ≠ []
  numbers : (p.session.bells.map SessionBell.bell).Nodup ∧ ∀ y ∈ p.session.bells, 1 ≤ y.bell ∧ y.bell ≤ 16
  claims : ∀ b, 1 ≤ b → b ≤ 16 →
    ((p.bell b).claims.ringers = true ↔ ∃ y ∈ p.session.bells, y.bell = b ∧ y.stage ≠ .left)
  preparing : p.session.state = .preparing →
    ∀ y ∈ p.session.bells, y.stage = (if (p.bell y.bell).hammer = .withdrawn then .held else .withdrawing)
  opened : p.session.state = .opened → ∀ y ∈ p.session.bells, y.stage = .held
  closing : p.session.state = .closing → ∀ y ∈ p.session.bells, y.stage = .held ∨ y.stage = .left

theorem agrees_of_sound (h : p.SessionSound) (runs : p.session.state ≠ .idle) : Agrees p where
  runs := ⟨runs, mt h.idle.mpr runs⟩
  numbers := h.numbers
  claims := h.claims
  preparing k := (h.preparing k).1
  opened := h.opened
  closing k := (h.closing k).1

theorem sound_of_agrees (h : Agrees p)
    (waits : p.session.state = .preparing → ∃ y ∈ p.session.bells, y.stage = .withdrawing)
    (stays : p.session.state = .closing → ∃ y ∈ p.session.bells, y.stage = .held) : p.SessionSound where
  idle := ⟨fun k => absurd k h.runs.1, fun k => absurd k h.runs.2⟩
  numbers := h.numbers
  claims := h.claims
  preparing k := ⟨h.preparing k, waits k⟩
  opened := h.opened
  closing k := ⟨h.closing k, stays k⟩

/-- The agreement of a session that has ended asks that no bell holds a RINGERS claim. -/
theorem sound_of_idle (state : p.session.state = .idle) (bells : p.session.bells = [])
    (free : ∀ b, 1 ≤ b → b ≤ 16 → (p.bell b).claims.ringers = false) : p.SessionSound where
  idle := by simp [state, bells]
  numbers := by simp [bells]
  claims b low high := by simp [bells, free b low high]
  preparing k := by simp [state] at k
  opened k := by simp [state] at k
  closing k := by simp [state] at k

/-- A change of stages and of the bells that touches neither the state nor the set. -/
theorem agrees_congr (h : Agrees p) {f : SessionBell → BellStage}
    (session : q.session = { p.session with bells := p.session.bells.map fun y => { y with stage := f y } })
    (claims : ∀ b, 1 ≤ b → b ≤ 16 →
      ((q.bell b).claims.ringers = true ↔ ∃ y ∈ p.session.bells, y.bell = b ∧ f y ≠ .left))
    (preparing : p.session.state = .preparing →
      ∀ y ∈ p.session.bells, f y = (if (q.bell y.bell).hammer = .withdrawn then .held else .withdrawing))
    (opened : p.session.state = .opened → ∀ y ∈ p.session.bells, f y = .held)
    (closing : p.session.state = .closing → ∀ y ∈ p.session.bells, f y = .held ∨ f y = .left) : Agrees q := by
  have set : (q.session.bells.map SessionBell.bell) = p.session.bells.map SessionBell.bell := by
    rw [session]
    simp [Function.comp_def]
  obtain ⟨state, some⟩ := h.runs
  obtain ⟨once, range⟩ := h.numbers
  refine ⟨?_, ⟨set ▸ once, ?_⟩, fun b low high => (claims b low high).trans ?_, ?_, ?_, ?_⟩ <;> rw [session]
  · exact ⟨state, by simpa using some⟩
  · simpa using range
  · simp
  · simpa using preparing
  · simpa using opened
  · simpa using closing

/-- R68: the session opens, or some bell of it is not HELD yet. -/
theorem sound_lookForOpen (h : Agrees p) (prepares : p.session.state = .preparing) : (lookForOpen p).SessionSound := by
  by_cases held : ∀ y ∈ p.session.bells, y.stage = .held
  · obtain ⟨session, _, _, same⟩ := lookForOpen_opens prepares held rfl
    have bells := bell_congr (same .bellGuard (by decide))
    refine sound_of_agrees (p := lookForOpen p) ?_ (fun k => ?_) (fun k => ?_)
    · refine ⟨?_, ?_, fun b low high => ?_, fun k => ?_, fun _ => ?_, fun k => ?_⟩
      · rw [session]
        exact ⟨nofun, h.runs.2⟩
      · rw [session]
        exact h.numbers
      · rw [session, bells]
        exact h.claims b low high
      · simp [session] at k
      · rw [session]
        exact held
      · simp [session] at k
    · simp [session] at k
    · simp [session] at k
  · simp only [not_forall] at held
    obtain ⟨y, hy, stage⟩ := held
    rw [lookForOpen_waits ⟨y, hy, stage⟩]
    refine sound_of_agrees h (fun _ => ⟨y, hy, ?_⟩) fun k => ?_
    · have := h.preparing prepares y hy
      split at this
      · contradiction
      · exact this
    · rw [prepares] at k
      cases k

/-- R74: the session completes, or some bell of it has not LEFT yet. -/
theorem sound_completeSession (h : Agrees p) (closes : p.session.state = .closing) : (completeSession p).SessionSound := by
  have same : p.sameBut (completeSession p) [.session, .events, .up] := by simp
  have bells := bell_congr (same .bellGuard (by decide))
  have session := completeSession_session p
  by_cases left : ∀ y ∈ p.session.bells, y.stage = .left
  · rw [if_pos ⟨closes, left⟩] at session
    refine sound_of_idle (by rw [session]; rfl) (by rw [session]; rfl) fun b low high => ?_
    rw [bells, ← Bool.not_eq_true, h.claims b low high]
    rintro ⟨y, hy, _, stays⟩
    exact stays (left y hy)
  · rw [if_neg fun k => left k.2] at session
    simp only [not_forall] at left
    obtain ⟨y, hy, stage⟩ := left
    have stays := (h.closing closes y hy).resolve_right stage
    have kept : p.SessionSound := sound_of_agrees h (fun k => by rw [closes] at k; cases k) fun _ => ⟨y, hy, stays⟩
    exact sound_of_eq kept (by rw [same .bellGuard (by decide)]) session

end Runs

/-! ## A hammer changes -/

section Hammers

variable {p q r : Part} {b : Nat} {x : Bell} {st : HammerState} {a : HammerAction}

theorem changeHammer_outside (hb : ¬ (1 ≤ b ∧ b ≤ 16)) (p : Part) (st : HammerState) : changeHammer b st p = p := by
  have put : ∀ x, p.putBell b x = p := fun x => by
    rw [Part.putBell, bankPut1_outside _ _ _ hb]
  unfold changeHammer
  simp [put]

theorem update_eq (s : Session) (b : Nat) (stage : BellStage) : s.update b (fun y => { y with stage := stage })
    = { s with bells := s.bells.map fun y => { y with stage := if y.bell = b then stage else y.stage } } := by
  unfold Session.update
  congr 1
  refine List.map_congr_left fun y _ => ?_
  split <;> rfl

/-- R66: the stage of a claimed bell follows its hammer while the session prepares. -/
theorem agrees_told (h : p.SessionSound) (prepares : p.session.state = .preparing)
    (claim : x.claims.ringers = (p.bell b).claims.ringers) (hb : 1 ≤ b ∧ b ≤ 16)
    (hq : q = { p.putBell b x with session := p.session.update b fun y =>
      { y with stage := if x.hammer = .withdrawn then .held else .withdrawing } }) : Agrees q := by
  have own : q.bell b = x := by
    rw [hq]
    exact bell_putBell_self _ _ _ hb
  have others : ∀ c, c ≠ b → q.bell c = p.bell c := fun c hc => by
    rw [hq]
    exact bell_putBell_ne _ _ _ _ hc
  have stages := (h.preparing prepares).1
  refine agrees_congr (agrees_of_sound h (by rw [prepares]; nofun)) (f := fun y => if y.bell = b then
    (if x.hammer = .withdrawn then .held else .withdrawing) else y.stage) (by rw [hq, update_eq]) (fun c low high => ?_)
    (fun _ y hy => ?_) (fun k => ?_) (fun k => ?_)
  · have claimed : (q.bell c).claims.ringers = (p.bell c).claims.ringers := by
      by_cases hc : c = b
      · rw [hc, own, claim]
      · rw [others c hc]
    rw [claimed, h.claims c low high]
    refine exists_congr fun y => and_congr_right fun hy => and_congr_right fun _ => ?_
    rw [stages y hy]
    (repeat' split) <;> simp
  · by_cases hc : y.bell = b
    · rw [if_pos hc, hc, own]
    · rw [if_neg hc, others _ hc, stages y hy]
  · rw [prepares] at k
    cases k
  · rw [prepares] at k
    cases k

/-- R53, R66, R68: a change of a hammer's state, with what the Session Controller is told of it, keeps the agreement. -/
theorem sound_changeHammer (h : p.SessionSound) (b : Nat) (st : HammerState) : (changeHammer b st p).SessionSound := by
  by_cases hb : 1 ≤ b ∧ b ≤ 16
  swap
  · rwa [changeHammer_outside hb]
  by_cases hst : st = .withdrawn
  · rw [hst, changeHammer_withdrawn hb]
    split
    · rename_i told
      obtain ⟨_, _, prepares⟩ := told
      refine sound_lookForOpen ?_ prepares
      exact agrees_told (x := { p.bell b with hammer := .withdrawn }) h prepares rfl hb rfl
    · rename_i quiet
      by_cases prepares : p.session.state = .preparing
      · refine sound_putBell h rfl fun claimed => iff_of_true rfl ?_
        by_contra moved
        exact quiet ⟨claimed, moved, prepares⟩
      · refine sound_of_bells h rfl (fun c => ?_) fun k => absurd k prepares
        rcases bell_putBell_cases p b c { p.bell b with hammer := .withdrawn } with ⟨e, rfl⟩ | ⟨e, _⟩ <;> rw [e]
  · rw [changeHammer_left hb hst, withdrawnLeft]
    split
    · rename_i told
      obtain ⟨prepares, claimed, _⟩ := told
      obtain ⟨y, hy, own, _⟩ := (h.claims b hb.1 hb.2).mp claimed
      have agrees := agrees_told (x := { p.bell b with hammer := st }) h prepares rfl hb rfl
      simp only [if_neg hst] at agrees
      refine sound_of_agrees agrees (fun _ => ?_) fun k => ?_
      · exact ⟨_, List.mem_map_of_mem hy, by rw [if_pos own]⟩
      · simp [Session.update, prepares] at k
    · rename_i quiet
      by_cases prepares : p.session.state = .preparing
      · refine sound_putBell h rfl fun claimed => iff_of_false hst ?_
        exact fun withdrawn => quiet ⟨prepares, claimed, withdrawn⟩
      · refine sound_of_bells h rfl (fun c => ?_) fun k => absurd k prepares
        show (((p.putBell b { p.bell b with hammer := st }).bell c)).claims.ringers = _
        rcases bell_putBell_cases p b c { p.bell b with hammer := st } with ⟨e, rfl⟩ | ⟨e, _⟩ <;> rw [e]

end Hammers

end Sys2Proof.Machine.Ringing


/-! SUPPORT. RINGERS claims that enter and leave (R54, R65, R72): what the Guard makes of the bells of a session, one after the
other, and what the session becomes. -/

namespace Sys2Proof.Machine.Ringing

open Dials Bells

/-! ## Claims that enter -/

section Entering

variable {p q r : Part} {a b c : Nat} {x : Bell} {l : List Nat}

/-- R65: a hammer that is to be withdrawn for a claim that enters. -/
def comesOut (x : Bell) : Bool := x.hammer ≠ .withdrawn && x.hammer ≠ .withdrawing && x.hammer ≠ .jammed

/-- R54, R65: the record of a bell whose RINGERS claim has entered. -/
def summoned (x : Bell) : Bell :=
  if x.fitted && comesOut x then decided { x with claims.ringers := true } .withdraw
  else { x with claims.ringers := true }

theorem summoned_withdrawn (x : Bell) : (summoned x).hammer = .withdrawn ↔ x.hammer = .withdrawn := by
  unfold summoned
  split
  · rename_i h
    simp only [comesOut, Bool.and_eq_true, decide_eq_true_eq] at h
    simp [decided, HammerAction.underWay, h]
  · rfl

theorem summoned_claims (x : Bell) : (summoned x).claims.ringers = true := by
  unfold summoned
  split <;> rfl

/-- R54, R65, R66: a RINGERS claim enters on a bell of a session that prepares. -/
theorem enterRingers_enters (hb : 1 ≤ b ∧ b ≤ 16) (prepares : p.session.state = .preparing)
    (hq : q = enterRingers p b) :
    (q.bell b = summoned (p.bell b) ∧ ∀ c, c ≠ b → q.bell c = p.bell c)
      ∧ Decides p q (if comesOut (p.bell b) then [(b, .withdraw)] else [])
      ∧ ((p.bell b).hammer ≠ .withdrawn → p.sameBut q [.bellGuard, .safety])
      ∧ ((p.bell b).hammer = .withdrawn → ∃ r : Part, p.sameBut r [.bellGuard, .session] ∧ q = lookForOpen r
          ∧ r.session = p.session.update b fun y => { y with stage := .held }) := by
  unfold enterRingers at hq
  dsimp only at hq
  generalize hr : p.putBell b { p.bell b with claims.ringers := true } = r at hq
  have own : r.bell b = { p.bell b with claims.ringers := true } := hr ▸ bell_putBell_self _ _ _ hb
  have others : ∀ c, c ≠ b → r.bell c = p.bell c := fun c hc => by rw [← hr, bell_putBell_ne _ _ _ _ hc]
  have put : p.sameBut r [.bellGuard] := by rw [← hr]; simp
  have start : Decides p r [] := hr ▸ .putBell rfl
  have hammer : (r.bell b).hammer = (p.bell b).hammer := by rw [own]
  have session : r.session = p.session := put .session (by decide)
  rw [hammer] at hq
  by_cases out : comesOut (p.bell b) = true
  · have drawn : q = decideSetting b .withdraw r := by
      unfold comesOut at out
      cases state : (p.bell b).hammer <;> simp_all
    have stays : (p.bell b).hammer ≠ .withdrawn := by
      unfold comesOut at out
      intro k
      simp [k] at out
    obtain ⟨record, rest⟩ := decideSetting_bell r b .withdraw
    have same := (decideSetting_frame r b .withdraw).2 (.inl (hammer ▸ stays))
    rw [drawn, if_pos out]
    refine ⟨⟨record.trans ?_, fun c hc => (rest c hc).trans (others c hc)⟩,
      start.trans (decideSetting_decides r b .withdraw), fun _ => sameBut_trans (sameBut_mono put (by simp)) same,
      fun k => absurd k stays⟩
    rw [own, summoned, out, Bool.and_true]
    rfl
  · have stand : summoned (p.bell b) = { p.bell b with claims.ringers := true } := by simp [summoned, out]
    rw [if_neg out, stand]
    by_cases away : (p.bell b).hammer = .withdrawn
    · rw [away] at hq
      have told : q = lookForOpen { r with session := r.session.update b fun y => { y with stage := .held } } := by
        rw [hq]
        exact if_pos (session ▸ prepares)
      generalize hs : ({ r with session := r.session.update b fun y => { y with stage := .held } } : Part) = s at told
      have moved : r.sameBut s [.session] := by rw [← hs]; simp
      have looks : s.sameBut q [.session, .events, .up] := by rw [told]; simp
      have bells : ∀ c, q.bell c = r.bell c := fun c =>
        (bell_congr (looks .bellGuard (by decide)) c).trans (bell_congr (moved .bellGuard (by decide)) c)
      refine ⟨⟨(bells b).trans own, fun c hc => (bells c).trans (others c hc)⟩, ?_, fun k => absurd away k,
        fun _ => ⟨s, sameBut_trans (sameBut_mono put (by simp)) (sameBut_mono moved (by simp)), told, ?_⟩⟩
      · exact (start.trans (.of_same moved (by decide) (by decide) (by decide))).trans
          (.of_same looks (by decide) (by decide) (by decide))
      · rw [← hs]
        dsimp only
        rw [session]
    · have idle : q = r := by
        unfold comesOut at out
        cases state : (p.bell b).hammer <;> simp_all
      rw [idle]
      exact ⟨⟨own, others⟩, start, fun _ => sameBut_mono put (by simp), fun k => absurd k away⟩

/-- R66: the stages of a session's bells once the claims of the bells of a list have entered. -/
def heldOf (p : Part) (l : List Nat) : List SessionBell :=
  p.session.bells.map fun y =>
    { y with stage := if y.bell ∈ l ∧ (p.bell y.bell).hammer = .withdrawn then .held else y.stage }

/-- R68: the session once the claims of the bells of a list have entered. -/
def enteredSession (p : Part) (l : List Nat) : Session :=
  if l ≠ [] ∧ ∀ y ∈ heldOf p l, y.stage = .held then
    { p.session with
      state := .opened, bells := heldOf p l, began := p.towerTime, opened := bump p.session.opened }
  else { p.session with bells := heldOf p l }

/-- From `p` to `q` the RINGERS claims of a list of bells have entered. -/
structure Enters (p q : Part) (l : List Nat) : Prop where
  bells : ∀ c, q.bell c = if c ∈ l then summoned (p.bell c) else p.bell c
  session : q.session = enteredSession p l
  decides : Decides p q ((l.filter fun b => comesOut (p.bell b)).map fun b => (b, .withdraw))
  up : p.line.upQ <+: q.line.upQ
  same : p.sameBut q [.bellGuard, .session, .events, .safety, .up]

theorem upAfter_prefix (p : Part) (l : List UpItem) : p.line.upQ <+: p.upAfter l := by
  unfold Part.upAfter
  generalize p.line.upQ = v
  induction l generalizing v with
  | nil => exact List.prefix_rfl
  | cons i l ih =>
    refine List.IsPrefix.trans ?_ (ih _)
    dsimp only
    split
    · exact List.prefix_append _ _
    · exact List.prefix_rfl

theorem lookForOpen_up (p : Part) : p.line.upQ <+: (lookForOpen p).line.upQ := by
  by_cases opens : p.session.state = .preparing ∧ ∀ y ∈ p.session.bells, y.stage = .held
  · rw [(lookForOpen_opens opens.1 opens.2 rfl).2.2.1.queue]
    exact upAfter_prefix _ _
  · have stays : lookForOpen p = p := if_neg (by simpa using opens)
    rw [stays]

theorem lookForOpen_session (prepares : p.session.state = .preparing) : (lookForOpen p).session
    = if ∀ y ∈ p.session.bells, y.stage = .held then
        { p.session with state := .opened, began := p.towerTime, opened := bump p.session.opened }
      else p.session := by
  split
  · rename_i held
    exact (lookForOpen_opens prepares held rfl).1
  · rename_i waits
    have stays : lookForOpen p = p := if_neg fun k => waits (by simpa using k.2)
    rw [stays]

/-- R68: a session of which a bell still waits is not opened. -/
theorem enteredSession_waits (h : ∃ y ∈ p.session.bells, y.bell ∉ l ∧ y.stage ≠ .held) :
    enteredSession p l = { p.session with bells := heldOf p l } := by
  obtain ⟨y, hy, outside, stage⟩ := h
  refine if_neg fun k => stage ?_
  have held := k.2 _ (List.mem_map_of_mem hy)
  rwa [if_neg fun e => outside e.1] at held

/-- R66, R68: the session once the claim of one bell has entered. -/
theorem enterRingers_session (hb : 1 ≤ b ∧ b ≤ 16) (prepares : p.session.state = .preparing)
    (waits : ∃ y ∈ p.session.bells, y.bell = b ∧ y.stage ≠ .held) :
    (enterRingers p b).session = enteredSession p [b] := by
  obtain ⟨_, _, quiet, told⟩ := enterRingers_enters hb prepares rfl
  have entered : enteredSession p [b]
      = if ∀ y ∈ heldOf p [b], y.stage = .held then
          { p.session with
            state := .opened, bells := heldOf p [b], began := p.towerTime, opened := bump p.session.opened }
        else { p.session with bells := heldOf p [b] } := by simp [enteredSession]
  by_cases away : (p.bell b).hammer = .withdrawn
  · obtain ⟨v, same, looks, session⟩ := told away
    have marked : v.session = { p.session with bells := heldOf p [b] } := by
      rw [session, update_eq, heldOf]
      congr 1
      refine List.map_congr_left fun y _ => ?_
      by_cases hy : y.bell = b <;> simp [hy, away]
    have tower : v.towerTime = p.towerTime := towerTime_of_same same (by decide)
    rw [looks, lookForOpen_session (by rw [marked]; exact prepares), tower, marked, entered]
  · obtain ⟨y, hy, own, stage⟩ := waits
    have still : heldOf p [b] = p.session.bells := by
      refine (List.map_congr_left fun z _ => ?_).trans (List.map_id _)
      rw [if_neg]
      · rfl
      · rintro ⟨hz, k⟩
        rw [List.mem_singleton.mp hz] at k
        exact away k
    rw [quiet away .session (by decide), entered, still, if_neg fun k => stage (k y hy)]

/-- R65, R66, R68: the claims of a list of bells enter on a session that prepares, and of which they all still wait. -/
theorem enterRingers_foldl (hl : l.Nodup) (range : ∀ b ∈ l, 1 ≤ b ∧ b ≤ 16) (prepares : p.session.state = .preparing)
    (waits : ∀ b ∈ l, ∃ y ∈ p.session.bells, y.bell = b ∧ y.stage ≠ .held) (hq : q = l.foldl enterRingers p) :
    Enters p q l := by
  induction l generalizing p with
  | nil =>
    rw [hq]
    refine ⟨fun c => by simp, ?_, .refl p, List.prefix_rfl, same_refl _ _⟩
    simp [enteredSession, heldOf]
  | cons a l ih =>
    obtain ⟨ha, hl⟩ := List.nodup_cons.mp hl
    have first := range a List.mem_cons_self
    have session := enterRingers_session first prepares (waits a List.mem_cons_self)
    rw [List.foldl_cons] at hq
    generalize hr : enterRingers p a = r at hq session
    obtain ⟨⟨own, others⟩, decides, quiet, told⟩ := enterRingers_enters first prepares hr.symm
    have up : p.line.upQ <+: r.line.upQ := by
      by_cases away : (p.bell a).hammer = .withdrawn
      · obtain ⟨v, same, looks, _⟩ := told away
        rw [looks, ← (same .up (by decide)).1]
        exact lookForOpen_up v
      · rw [(quiet away .up (by decide)).1]
    have same : p.sameBut r [.bellGuard, .session, .events, .safety, .up] := by
      by_cases away : (p.bell a).hammer = .withdrawn
      · obtain ⟨v, same, looks, _⟩ := told away
        rw [looks]
        exact sameBut_trans (sameBut_mono same (by simp)) (by simp)
      · exact sameBut_mono (quiet away) (by simp)
    have tower : r.towerTime = p.towerTime := towerTime_of_same same (by decide)
    have record : ∀ c ∈ l, r.bell c = p.bell c := fun c hc => others c fun e => ha (e ▸ hc)
    by_cases last : l = []
    · rw [last] at hq ⊢
      obtain rfl : q = r := hq
      refine ⟨fun c => ?_, session, ?_, up, same⟩
      · by_cases hc : c = a
        · simp [hc, own]
        · simp [hc, others c hc]
      · cases h : comesOut (p.bell a) <;> simpa [h] using decides
    have going : r.session = { p.session with bells := heldOf p [a] } := by
      obtain ⟨c, hc⟩ := List.exists_mem_of_ne_nil l last
      obtain ⟨y, hy, rfl, stage⟩ := waits c (List.mem_cons_of_mem _ hc)
      rw [session]
      exact enteredSession_waits ⟨y, hy, fun k => ha (List.mem_singleton.mp k ▸ hc), stage⟩
    have marks : heldOf r l = heldOf p (a :: l) := by
      unfold heldOf
      rw [going]
      unfold heldOf
      rw [List.map_map]
      refine List.map_congr_left fun y _ => ?_
      by_cases hy : y.bell = a
      · simp [hy, ha]
      · by_cases hl : y.bell ∈ l
        · simp [hy, hl, record _ hl]
        · simp [hy, hl]
    have rest := ih hl (fun b hb => range b (List.mem_cons_of_mem _ hb)) (by rw [going]; exact prepares)
      (fun b hb => ?_) hq
    · refine ⟨fun c => (rest.bells c).trans ?_, ?_, ?_, up.trans rest.up, sameBut_trans same rest.same⟩
      · by_cases hc : c = a
        · simp [hc, ha, own]
        · simp [hc, others c hc]
      · rw [rest.session, enteredSession, enteredSession, marks, going, tower]
        simp [last]
      · have whole := decides.trans rest.decides
        rw [List.filter_congr fun c hc => by rw [record c hc]] at whole
        cases h : comesOut (p.bell a) <;> simpa [h] using whole
    · obtain ⟨y, hy, rfl, stage⟩ := waits b (List.mem_cons_of_mem _ hb)
      rw [going]
      refine ⟨_, List.mem_map_of_mem hy, rfl, ?_⟩
      have other : ¬ (y.bell ∈ [a] ∧ (p.bell y.bell).hammer = .withdrawn) :=
        fun k => ha (List.mem_singleton.mp k.1 ▸ hb)
      rwa [if_neg other]

end Entering

/-! ## Claims that leave -/

section Departing

variable {p q r : Part} {a b c : Nat} {x : Bell} {l : List Nat} {s : Session}

/-- The part with its session replaced. -/
def withSession (s : Session) (p : Part) : Part := { p with session := s }

theorem placeSetting_withSession (b : Nat) (p : Part) (s : Session) :
    placeSetting b (withSession s p) = withSession s (placeSetting b p) := by
  have own : (withSession s p).bell b = p.bell b := rfl
  unfold placeSetting
  dsimp only
  rw [own]
  cases (p.bell b).config.hammerNode with
  | none => rfl
  | some node =>
    cases (p.bell b).wanted with
    | none => rfl
    | some a =>
      simp only [apply_ite (withSession s)]
      rfl

/-- R51: a bell without a RINGERS claim that may be engaged. -/
theorem reengage_unclaimed (may : p.mayEngage b = true) (free : (p.bell b).claims.ringers = false) :
    reengage b p = placeSetting b (p.putBell b (engaged (p.bell b))) := by
  have fit := fitted_iff.mpr (mayEngage_iff.mp may).1
  have hb := fitted_bell fit
  have own := bell_putBell_self p b { p.bell b with intruded := false } hb
  rw [reengage, if_pos may, decideSetting_unclaimed hb own.symm fit free, putBell_putBell]
  rfl

/-- R54: the removal of a RINGERS claim reads nothing of the session, and writes nothing in it. -/
theorem removeRingers_withSession (b : Nat) (p : Part) (s : Session) :
    removeRingers (withSession s p) b = withSession s (removeRingers p b) := by
  have put : removeRingers (withSession s p) b
      = reengage b (withSession s (p.putBell b { p.bell b with claims.ringers := false })) := rfl
  rw [put, removeRingers]
  generalize hr : p.putBell b { p.bell b with claims.ringers := false } = r
  have free : (r.bell b).claims.ringers = false := by rw [(putBell_unclaimed hr.symm).1]
  by_cases may : r.mayEngage b = true
  · rw [reengage_unclaimed may free, ← placeSetting_withSession]
    exact reengage_unclaimed (p := withSession s r) may free
  · rw [Bool.not_eq_true] at may
    rw [reengage_not may, reengage_not (show (withSession s r).mayEngage b = false from may)]

/-- R72, R73: the session once the bells of a list have LEFT it. -/
def leftSession (s : Session) (l : List Nat) : Session :=
  { s with bells := s.bells.map fun y => { y with stage := if y.bell ∈ l then .left else y.stage } }

theorem leaveBell_foldl_eq (p : Part) (l : List Nat) :
    l.foldl leaveBell p = withSession (leftSession p.session l) (l.foldl removeRingers p) := by
  induction l generalizing p with
  | nil => simp [leftSession, withSession]
  | cons a l ih =>
    have first : leaveBell p a = withSession (leftSession p.session [a]) (removeRingers p a) := by
      rw [← removeRingers_withSession, leaveBell, update_eq]
      simp [leftSession, withSession]
    have session : (removeRingers p a).session = p.session :=
      (removeRingers_bell (p := p) (a := a) rfl).2.2.2.2.2 .session (by decide)
    have both : leftSession (leftSession p.session [a]) l = leftSession p.session (a :: l) := by
      unfold leftSession
      rw [List.map_map]
      congr 1
      refine List.map_congr_left fun y _ => ?_
      by_cases hl : y.bell ∈ l <;> by_cases ha : y.bell = a <;> simp [hl, ha]
    rw [List.foldl_cons, List.foldl_cons, ih, first,
      List.foldl_hom (withSession _) (fun r b => removeRingers_withSession b r _)]
    show withSession (leftSession (leftSession p.session [a]) l) _ = _
    rw [both]
    rfl

/-- From `p` to `q` a list of bells has LEFT the session, which otherwise stands: their RINGERS claims have gone, and they
have been examined by R51. -/
structure Departs (p q : Part) (l : List Nat) : Prop where
  session : q.session = leftSession p.session l
  claims : ∀ b, (q.bell b).claims.ringers = if b ∈ l then false else (p.bell b).claims.ringers
  others : ∀ b, b ∉ l → q.bell b = p.bell b
  decides : Decides p q (if p.mgmt.partState = .running then p.engagedOf l else [])
  same : p.sameBut q [.bellGuard, .session, .safety]

theorem removeRingers_others (p : Part) (hb : b ∉ l) : (l.foldl removeRingers p).bell b = p.bell b := by
  induction l generalizing p with
  | nil => rfl
  | cons a l ih =>
    obtain ⟨ha, hl⟩ := not_or.mp (mt List.mem_cons.mpr hb)
    exact (ih _ hl).trans ((removeRingers_bell rfl).2.1 b ha)

/-- R51, R72, R73: the bells of a list leave the session. -/
theorem leaveBell_foldl (p : Part) (l : List Nat) : Departs p (l.foldl leaveBell p) l := by
  rw [leaveBell_foldl_eq]
  have leaves := removeRingers_foldl (p := p) (l := l) rfl
  have others : ∀ b, b ∉ l → (l.foldl removeRingers p).bell b = p.bell b := fun b => removeRingers_others p
  generalize l.foldl removeRingers p = r at leaves others
  have marked : r.sameBut (withSession (leftSession p.session l) r) [.session] := by simp [withSession]
  refine ⟨rfl, fun b => ?_, others, ?_, sameBut_trans (sameBut_mono leaves.same (by simp)) (sameBut_mono marked (by simp))⟩
  · by_cases hb : b ∈ l
    · rw [if_pos hb]
      exact leaves.gone b hb
    · rw [if_neg hb, ← others b hb]
      rfl
  · simpa using leaves.decides.trans (.of_same marked (by decide) (by decide) (by decide))

/-- R72: the session as it goes to CLOSING, its bells all HELD. -/
def closedUp (p : Part) : Part :=
  withSession
    { p.session with
      state := .closing, began := p.towerTime, bells := p.session.bells.map fun y => { y with stage := .held } } p

/-- R72: the bells that leave as the session goes to CLOSING. -/
def leavers (p : Part) : List Nat := p.session.set.filter fun b => (p.bell b).settled

theorem closeSession_departs (p : Part) : Departs (closedUp p) (closeSession p) (leavers p) := by
  have set : (closedUp p).session.set = p.session.set := by
    simp [closedUp, withSession, Session.set, Function.comp_def]
  have closes : closeSession p
      = ((closedUp p).session.set.filter fun b => ((closedUp p).bell b).settled).foldl leaveBell (closedUp p) := rfl
  rw [closes, set]
  exact leaveBell_foldl (closedUp p) (leavers p)

end Departing

end Sys2Proof.Machine.Ringing


/-! SUPPORT. The agreement of the session record with the RINGERS claims (R63), kept by the Session Controller's own work: a
session requested, released, left bell by bell, or failed. -/

namespace Sys2Proof.Machine.Ringing

open Dials Bells

section SessionWork

variable {p q r : Part} {b src : Nat} {bells l : List Nat}

/-- R64: a session that is begun has the bells asked for, all of them still to be withdrawn. -/
theorem beginSession_bells (bells : List Nat) (src : Nat) (p : Part) : (beginSession bells src p).session.bells
    = (canonical 1 16 bells).map fun b => { bell := b, stage := .withdrawing, jam := false } := rfl

theorem beginSession_set (bells : List Nat) (src : Nat) (p : Part) :
    (beginSession bells src p).session.set = canonical 1 16 bells := by
  simp [Session.set, beginSession_bells, Function.comp_def]

/-- R65, R66: the claims of a session that has just begun enter. -/
theorem enterSessionClaims_enters (begun : p.session = (beginSession bells src r).session)
    (hq : q = enterSessionClaims p) : Enters p q (canonical 1 16 bells) := by
  have set : p.session.set = canonical 1 16 bells := by rw [begun, beginSession_set]
  rw [enterSessionClaims, set] at hq
  refine enterRingers_foldl (canonical_nodup bells) (fun b hb => (mem_canonical.mp hb).1) (by rw [begun]; rfl)
    (fun b hb => ?_) hq
  rw [begun, beginSession_bells]
  exact ⟨_, List.mem_map_of_mem hb, rfl, nofun⟩

/-- R66: the stages of a session that has just begun, its claims entered. -/
theorem heldOf_begun (begun : p.session = (beginSession bells src r).session) :
    heldOf p (canonical 1 16 bells) = (canonical 1 16 bells).map fun b =>
      { bell := b, stage := if (p.bell b).hammer = .withdrawn then .held else .withdrawing, jam := false } := by
  unfold heldOf
  rw [begun, beginSession_bells, List.map_map]
  refine List.map_congr_left fun b hb => ?_
  simp [hb]

/-- R63, R64, R66, R68: a session that begins where none is agrees with its claims. -/
theorem sound_enterSessionClaims (free : ∀ b, 1 ≤ b → b ≤ 16 → (p.bell b).claims.ringers = false)
    (begun : p.session = (beginSession bells src r).session) (some : canonical 1 16 bells ≠ []) :
    (enterSessionClaims p).SessionSound := by
  generalize hq : enterSessionClaims p = q
  have enters := enterSessionClaims_enters begun hq.symm
  have stages := heldOf_begun begun
  generalize hl : canonical 1 16 bells = l at some enters stages
  have member : ∀ b, b ∈ l → 1 ≤ b ∧ b ≤ 16 := fun b hb => (mem_canonical.mp (hl ▸ hb)).1
  have once : l.Nodup := hl ▸ canonical_nodup bells
  have away : ∀ b, (q.bell b).hammer = .withdrawn ↔ (p.bell b).hammer = .withdrawn := fun b => by
    rw [enters.bells]
    split
    · exact summoned_withdrawn _
    · rfl
  have claimed : ∀ b, 1 ≤ b → b ≤ 16 → ((q.bell b).claims.ringers = true ↔ b ∈ l) := fun b low high => by
    rw [enters.bells]
    split
    · rename_i hb
      exact iff_of_true (summoned_claims _) hb
    · rename_i hb
      exact iff_of_false (by simp [free b low high]) hb
  have shape : q.session.bells = heldOf p l ∧ (q.session.state = .opened ∧ (∀ y ∈ heldOf p l, y.stage = .held)
      ∨ q.session.state = .preparing ∧ ∃ y ∈ heldOf p l, y.stage ≠ .held) := by
    rw [enters.session, enteredSession]
    split
    · rename_i k
      exact ⟨rfl, .inl ⟨rfl, k.2⟩⟩
    · rename_i k
      refine ⟨rfl, .inr ⟨by rw [begun]; rfl, ?_⟩⟩
      by_contra all
      exact k ⟨some, by simpa using all⟩
  obtain ⟨shape, state⟩ := shape
  rw [stages] at shape state
  refine sound_of_agrees ⟨⟨?_, ?_⟩, ⟨?_, ?_⟩, fun b low high => (claimed b low high).trans ?_, fun k => ?_, fun k => ?_,
    fun k => ?_⟩ (fun k => ?_) fun k => ?_
  · rcases state with ⟨k, _⟩ | ⟨k, _⟩ <;> simp [k]
  · simpa [shape] using some
  · simpa [shape, Function.comp_def] using once
  · simpa [shape] using member
  · rw [shape]
    constructor
    · intro hb
      refine ⟨_, List.mem_map_of_mem hb, rfl, ?_⟩
      dsimp only
      split <;> nofun
    · rintro ⟨y, hy, rfl, _⟩
      obtain ⟨b, hb, rfl⟩ := List.mem_map.mp hy
      exact hb
  · simp [shape, away]
  · rw [shape]
    exact (state.resolve_right fun j => by simp [j.1] at k).2
  · rcases state with ⟨j, _⟩ | ⟨j, _⟩ <;> simp [j] at k
  · obtain ⟨_, y, hy, stage⟩ := state.resolve_left fun j => by simp [j.1] at k
    rw [shape]
    refine ⟨y, hy, ?_⟩
    obtain ⟨b, _, rfl⟩ := List.mem_map.mp hy
    dsimp only at stage ⊢
    split
    · rename_i j
      exact absurd (if_pos j) stage
    · rfl
  · rcases state with ⟨j, _⟩ | ⟨j, _⟩ <;> simp [j] at k

/-- R72, R73: bells leave a session that closes. -/
theorem agrees_departs (h : Agrees p) (closes : p.session.state = .closing) (departs : Departs p q l) : Agrees q := by
  refine agrees_congr h (f := fun y => if y.bell ∈ l then .left else y.stage) departs.session (fun b low high => ?_)
    (fun k => ?_) (fun k => ?_) fun _ y hy => ?_
  · rw [departs.claims]
    by_cases hb : b ∈ l
    · simp only [if_pos hb, Bool.false_eq_true, false_iff]
      rintro ⟨y, _, rfl, stays⟩
      exact stays (if_pos hb)
    · rw [if_neg hb, h.claims b low high]
      refine exists_congr fun y => and_congr_right fun _ => and_congr_right fun own => ?_
      rw [own, if_neg hb]
  · simp [closes] at k
  · simp [closes] at k
  · split
    · exact .inr rfl
    · exact h.closing closes y hy

/-- R73, R74: a bell that settles leaves a session that closes, which may complete. -/
theorem sound_sessionSettled (h : p.SessionSound) (b : Nat) : (sessionSettled b p).SessionSound := by
  unfold sessionSettled
  split
  · rename_i held
    have departs : Departs p (leaveBell p b) [b] := leaveBell_foldl p [b]
    exact sound_completeSession (agrees_departs (agrees_of_sound h (by rw [held.1]; nofun)) held.1 departs)
      (by rw [departs.session]; exact held.1)
  · exact h

/-- R71, R72: a session that is open or being prepared closes. -/
theorem agrees_closeSession (h : p.SessionSound) (going : p.session.state = .preparing ∨ p.session.state = .opened) :
    Agrees (closeSession p) ∧ (closeSession p).session.state = .closing := by
  have departs := closeSession_departs p
  have held : ∀ y ∈ p.session.bells, y.stage ≠ .left := by
    rcases going with k | k
    · intro y hy
      rw [(h.preparing k).1 y hy]
      split <;> nofun
    · intro y hy
      rw [h.opened k y hy]
      nofun
  have runs : p.session.state ≠ .idle := by rcases going with k | k <;> simp [k]
  have some : p.session.bells ≠ [] := mt h.idle.mpr runs
  refine ⟨agrees_departs ?_ rfl departs, by rw [departs.session]; rfl⟩
  refine ⟨⟨nofun, by simpa [closedUp, withSession] using some⟩, ?_, fun b low high => (h.claims b low high).trans ?_,
    nofun, nofun, fun _ => by simp [closedUp, withSession]⟩
  · simpa [closedUp, withSession, Function.comp_def] using h.numbers
  · simp only [closedUp, withSession, List.mem_map, exists_exists_and_eq_and, ne_eq, reduceCtorEq, not_false_eq_true,
      and_true]
    exact exists_congr fun y => and_congr_right fun hy => and_iff_left (held y hy)

/-- R69: the mark of a jam is no matter of the agreement. -/
theorem sound_of_marks (h : p.SessionSound) {g : SessionBell → SessionBell}
    (marks : ∀ y, (g y).bell = y.bell ∧ (g y).stage = y.stage)
    (session : q.session = { p.session with bells := p.session.bells.map g }) (guard : q.bellGuard = p.bellGuard) :
    q.SessionSound where
  idle := by simpa [session] using h.idle
  numbers := by simpa [session, Function.comp_def, marks] using h.numbers
  claims b low high := by simpa [session, marks, bell_congr guard] using h.claims b low high
  preparing := by simpa [session, marks, bell_congr guard] using h.preparing
  opened := by simpa [session, marks] using h.opened
  closing := by simpa [session, marks] using h.closing

/-- R54, R69: a session that fails as it prepares leaves no RINGERS claim behind. -/
theorem sessionJam_free (h : p.SessionSound) (hb : b ∈ p.session.set) (prepares : p.session.state = .preparing) {c : Nat}
    (hc : 1 ≤ c ∧ c ≤ 16) : ((sessionJam b p).bell c).claims.ringers = false := by
  have set : (p.session.update b fun x => { x with jam := true }).set = p.session.set :=
    set_update (f := fun x => { x with jam := true }) (fun _ => rfl) _ _
  have leaves := removeRingers_foldl (p := withSession (p.session.update b fun x => { x with jam := true }) p)
    (l := p.session.set) rfl
  have fails : sessionJam b p = _ := if_neg (by simpa using hb)
  simp only [prepares, set] at fails
  obtain ⟨record, fails⟩ : ∃ record : Session, sessionJam b p = sessionNotice .preparing .idle p.session.set
      (p.session.update b fun x => { x with jam := true }).requester (.jammed b)
      (withSession record (p.session.set.foldl removeRingers
        (withSession (p.session.update b fun x => { x with jam := true }) p))) := ⟨_, fails⟩
  generalize p.session.set.foldl removeRingers _ = v at fails leaves
  have ended : v.sameBut (sessionJam b p) [.session, .up] := by
    rw [fails]
    simp [withSession]
  have bells : (sessionJam b p).bell c = v.bell c := bell_congr (ended .bellGuard (by decide)) c
  rw [bells]
  by_cases member : c ∈ p.session.set
  · exact leaves.gone c member
  · refine leaves.fewer c (Bool.not_eq_true _ ▸ fun k => member ?_)
    obtain ⟨y, hy, rfl, _⟩ := (h.claims c hc.1 hc.2).mp k
    exact List.mem_map_of_mem hy

/-- R69: a session that prepares fails, and leaves no RINGERS claim behind; one that is open goes on. -/
theorem sound_sessionJam (h : p.SessionSound) (b : Nat) : (sessionJam b p).SessionSound := by
  by_cases fails : b ∈ p.session.set ∧ p.session.state = .preparing
  · obtain ⟨hb, prepares⟩ := fails
    have session := (sessionJam_fails hb prepares rfl).1
    exact sound_of_idle (by rw [session]) (by rw [session]) fun c low high => sessionJam_free h hb prepares ⟨low, high⟩
  · obtain ⟨same, outside, marks⟩ := sessionJam_stays (b := b) (u := p) (by tauto) rfl
    have guard := same .bellGuard (by decide)
    by_cases hb : b ∈ p.session.set
    · have going : p.session.state = .opened ∨ p.session.state = .closing := by
        have bells : p.session.bells ≠ [] := fun k => by simp [Session.set, k] at hb
        have runs := mt h.idle.mp bells
        cases state : p.session.state <;> simp_all
      refine sound_of_marks h (g := fun y => if y.bell = b then { y with jam := true } else y) (fun y => ?_)
        (marks hb going) guard
      split <;> exact ⟨rfl, rfl⟩
    · exact sound_of_eq h (by rw [guard]) (outside hb)

end SessionWork

end Sys2Proof.Machine.Ringing


/-! SUPPORT. Every operation of the blocks keeps the agreement of the session record with the RINGERS claims (R63). The
operations that touch neither the bells nor the session keep it by their frame; the voices and the Calendar alter no
RINGERS claim and no hammer; what changes a hammer goes through `sound_changeHammer`. -/

namespace Sys2Proof.Machine.Ringing

open Dials Bells

variable {p q : Part}

/-! ## Operations without a bell -/

/-- The pieces that the agreement does not ask. -/
abbrev unasked : List Block :=
  [.osc, .time, .dialDriver, .store, .clock, .tune, .lamps, .budget, .cal, .events, .routes, .ports, .copies, .safety,
    .locals, .pass, .up, .flights, .faults, .requests, .mgmt, .retention]

theorem sound_of_same (h : p.SessionSound) (same : p.sameBut q unasked) : q.SessionSound :=
  sound_of_eq h (by rw [same .bellGuard (by decide)]) (same .session (by decide))

@[simp] theorem sound_mk {t : TimeScale} {dd : DialDriver} {bg : BellGuard} {se : Session} {st : TuneStore}
    {cl : ClockVoice} {tu : TuneVoice} {la : LampController} {bu : FeedBudget} {ca : Calendar} {l : LineSwitch}
    {mg : Management} (h : p.SessionSound) (hb : bg.bells = p.bellGuard.bells) (hs : se = p.session) :
    ({ osc := p.osc, time := t, dialDriver := dd, bellGuard := bg, session := se, store := st, clock := cl, tune := tu,
       lamps := la, budget := bu, cal := ca, line := l, mgmt := mg, retention := p.retention } : Part).SessionSound :=
  sound_of_eq h hb hs

/-- A fold of steps that keep the agreement keeps it. -/
theorem sound_foldl {α : Type} {f : Part → α → Part} (hf : ∀ q a, q.SessionSound → (f q a).SessionSound) (l : List α)
    (h : p.SessionSound) : (l.foldl f p).SessionSound := by
  induction l generalizing p with
  | nil => exact h
  | cons a l ih => exact ih (hf p a h)

@[simp] theorem sound_putVoice {v : VoiceId} {x : Voice} (h : p.SessionSound) : (p.putVoice v x).SessionSound :=
  sound_of_eq h (by simp) (by simp)
@[simp] theorem sound_putPort {t : Port} {c : PortCounts} (h : p.SessionSound) : (p.putPort t c).SessionSound :=
  sound_of_eq h (by simp) (by simp)
@[simp] theorem sound_emitCue {e : CueEvent} (h : p.SessionSound) : (emitCue e p).SessionSound :=
  sound_of_same h (by simp)
@[simp] theorem sound_sendNotice {k : NoticeKind} {d : List Byte} (h : p.SessionSound) :
    (sendNotice k d p).SessionSound := sound_of_same h (by simp)
@[simp] theorem sound_noticeFault {k : FaultKind} {d : List Byte} (h : p.SessionSound) :
    (noticeFault k d p).SessionSound := sound_of_same h (by simp)
@[simp] theorem sound_raiseMinor {k : FaultKind} {d : List Byte} (h : p.SessionSound) :
    (raiseMinor k d p).SessionSound := sound_of_same h (by simp)
@[simp] theorem sound_reply {n o : Nat} {c : Code} {d : List Byte} (h : p.SessionSound) :
    (reply n o c d p).SessionSound := sound_of_same h (by simp)
@[simp] theorem sound_takeCopy {i : Instr} (h : p.SessionSound) : (takeCopy i p).SessionSound :=
  sound_of_same h (by simp)
@[simp] theorem sound_placeSetting {b : Nat} (h : p.SessionSound) : (placeSetting b p).SessionSound :=
  sound_of_same h (by simp)
@[simp] theorem sound_placeWanted (h : p.SessionSound) : (placeWanted p).SessionSound := sound_of_same h (by simp)
@[simp] theorem sound_releaseCharge {i : Nat} (h : p.SessionSound) : (releaseCharge i p).SessionSound :=
  sound_of_same h (by simp)
@[simp] theorem sound_dropHeld {v : VoiceId} (h : p.SessionSound) : (dropHeld v p).SessionSound :=
  sound_of_same h (by simp)
@[simp] theorem sound_placeStrike {v : VoiceId} {s : Strike} {d : Nat} (h : p.SessionSound) :
    (placeStrike v s d p).SessionSound := sound_of_same h (by simp)

@[simp] theorem sound_setStack {v : VoiceId} {l : List PhraseFrame} (h : p.SessionSound) :
    (setStack v l p).SessionSound := sound_putVoice h
@[simp] theorem sound_addPulses {v : VoiceId} {n : Nat} (h : p.SessionSound) : (addPulses v n p).SessionSound :=
  sound_putVoice h
@[simp] theorem sound_skipCall {v : VoiceId} (h : p.SessionSound) : (skipCall v p).SessionSound := sound_putVoice h
@[simp] theorem sound_abandonTune {v : VoiceId} (h : p.SessionSound) : (abandonTune v p).SessionSound :=
  sound_of_same h (by simp)
@[simp] theorem sound_readStep {n : Nat} (h : p.SessionSound) : (readStep n p).1.SessionSound :=
  sound_of_same h (by simp)
@[simp] theorem sound_readTune {n : Nat} (h : p.SessionSound) : (readTune n p).1.SessionSound :=
  sound_of_same h (by simp)

/-! ## The voices -/

section Voices

variable {v : VoiceId}

@[simp] theorem sound_setVoiceClaim {held : Bool} {b : Nat} (h : p.SessionSound) :
    (setVoiceClaim v held p b).SessionSound := by
  cases v <;> exact sound_putBell h rfl fun _ => Iff.rfl

@[simp] theorem sound_enterClaims {l : List Nat} (h : p.SessionSound) : (enterClaims v l p).SessionSound :=
  sound_foldl (fun _ _ => sound_setVoiceClaim) l h

@[simp] theorem sound_removeClaims {l : List Nat} (h : p.SessionSound) : (removeClaims v l p).SessionSound :=
  sound_foldl (fun _ _ => sound_setVoiceClaim) l h

@[simp] theorem sound_refuseStrike {b : Nat} (h : p.SessionSound) : (refuseStrike b p).SessionSound :=
  sound_putBell h rfl fun _ => Iff.rfl

@[simp] theorem sound_admitStrike {b : Nat} {o : Origin} (h : p.SessionSound) : (admitStrike b o p).1.SessionSound := by
  unfold admitStrike
  dsimp only
  split
  · split
    · exact sound_of_same h (by simp)
    · exact sound_refuseStrike (sound_of_same h (by simp))
  · exact sound_refuseStrike h

@[simp] theorem sound_endQuarter (h : p.SessionSound) : (endQuarter p).SessionSound := by
  simp (maxDischargeDepth := 40) [endQuarter, h]

@[simp] theorem sound_endTune {r : EndReason} (h : p.SessionSound) : (endTune r p).SessionSound := by
  simp (maxDischargeDepth := 40) [endTune, h]

@[simp] theorem sound_voicesSafe (h : p.SessionSound) : (voicesSafe p).SessionSound := by
  unfold voicesSafe
  dsimp only
  (repeat' split) <;> simp (maxDischargeDepth := 40) [h]

@[simp] theorem sound_voiceStrike {force deadline b : Nat} (h : p.SessionSound) :
    (voiceStrike v force deadline p b).SessionSound := by
  unfold voiceStrike
  dsimp only
  split <;> simp (maxDischargeDepth := 40) [h]

theorem sound_noteBell {force deadline b : Nat} (h : p.SessionSound) : (noteBell v force deadline p b).SessionSound := by
  unfold noteBell
  dsimp only
  split <;> simp (maxDischargeDepth := 40) [h]

@[simp] theorem sound_playNote {l : List Nat} {force : Nat} (h : p.SessionSound) : (playNote v l force p).SessionSound :=
  sound_foldl (fun _ _ => sound_noteBell) l h

@[simp] theorem sound_takeSteps {k : Nat} (h : p.SessionSound) : (takeSteps k v p).1.SessionSound := by
  induction k generalizing p with
  | zero => exact h
  | succ k ih =>
    unfold takeSteps
    dsimp only
    (repeat' split)
    all_goals simp (maxDischargeDepth := 40) [*]

@[simp] theorem sound_chimeEnded (h : p.SessionSound) : (chimeEnded p).SessionSound := by
  unfold chimeEnded enterPausing
  dsimp only
  split <;> simp (maxDischargeDepth := 40) [h]

@[simp] theorem sound_playVoice (h : p.SessionSound) : (playVoice v p).SessionSound := by
  unfold playVoice
  dsimp only
  split <;> simp (maxDischargeDepth := 40) [h]

@[simp] theorem sound_sound {n hour : Nat} {c : ChimeSet} {chime : Option TuneEntry} {strike : Bool}
    (h : p.SessionSound) : (sound n hour c chime strike p).SessionSound := by
  unfold sound enterPausing
  dsimp only
  split <;> simp (maxDischargeDepth := 40) [h]

@[simp] theorem sound_decideQuarter {n hour : Nat} {c : ChimeSet} (h : p.SessionSound) :
    (decideQuarter n hour c p).SessionSound := by
  unfold decideQuarter
  dsimp only
  (repeat' split) <;> simp (maxDischargeDepth := 40) [h]

@[simp] theorem sound_takeQuarter {n hour : Nat} {late : Bool} (h : p.SessionSound) :
    (takeQuarter n hour late p).SessionSound := by
  have copied : (copyChimeSet p).SessionSound := sound_of_same h (by simp)
  unfold takeQuarter
  dsimp only
  (repeat' split) <;> simp (maxDischargeDepth := 40) [h, copied]

@[simp] theorem sound_blow {t : Nat} {c : ChimeSet} (h : p.SessionSound) : (blow t c p).SessionSound := by
  unfold blow
  dsimp only
  (repeat' split) <;> simp (maxDischargeDepth := 40) [h]

@[simp] theorem sound_startTune {n repeats : Nat} (h : p.SessionSound) : (startTune n repeats p).1.SessionSound := by
  unfold startTune
  dsimp only
  (repeat' split) <;> simp (maxDischargeDepth := 40) [h]

@[simp] theorem sound_tuneDue (h : p.SessionSound) : (tuneDue p).SessionSound := by
  unfold tuneDue
  split <;> simp (maxDischargeDepth := 40) [h]

end Voices

/-! ## The Calendar -/

section Calendar

variable {n : Nat}

@[simp] theorem sound_readCal {α : Type} {t : CalTable} {f : α → List Byte} {r : Checked α} (h : p.SessionSound) :
    (readCal t f n r p).1.SessionSound := sound_of_same h (by simp)

theorem sound_doAction {s : ActionSource} {a : Action} (h : p.SessionSound) : (doAction s a p).1.SessionSound := by
  unfold doAction
  dsimp only
  split
  · exact sound_startTune h
  all_goals exact sound_of_same h (by (try split) <;> simp)

@[simp] theorem sound_perform {s : ActionSource} {a : Action} (h : p.SessionSound) : (perform s a p).SessionSound := by
  have first : (reapplyScene s a p).SessionSound := sound_of_same h (by simp)
  have done := sound_doAction (s := s) (a := a) first
  unfold perform
  exact sound_of_same done (by simp)

@[simp] theorem sound_fireItem {late : Bool} {k : DueKind} (h : p.SessionSound) : (fireItem late k p).SessionSound := by
  have decides : (dropDue k (decideItem k true p)).SessionSound := sound_of_same h (by simp)
  unfold fireItem
  dsimp only
  split <;> simp (maxDischargeDepth := 40) [decides]

@[simp] theorem sound_passItems (h : p.SessionSound) : (passItems p).SessionSound := by
  refine sound_foldl (fun q x hq => ?_) _ h
  unfold passItem
  split
  · exact sound_fireItem hq
  · exact sound_of_same hq (by simp)

/-- R151: up to the items passed, a rebuild is the Calendar's own work. -/
theorem sound_rebuildWith {j : OffsetHistory} (h : p.SessionSound) : (rebuildWith j p).SessionSound := by
  have unset : ((List.range 128).foldl rebuildEntryUnset { p with cal.dueList := [] }).SessionSound :=
    sound_of_same h (same_foldl (fun q a => by simp) _ (by simp))
  unfold rebuildWith
  split
  · rename_i d _
    split
    · exact unset
    · dsimp only
      have entries : ∀ (x y : Part) z w, x.sameBut y unasked →
          x.sameBut ((List.range 128).foldl (rebuildEntry z j w) y) unasked := fun x y z w hy =>
        same_foldl (fun q a => by simp (maxDischargeDepth := 40)) _ hy
      exact sound_passItems (sound_of_same h (by simp (maxDischargeDepth := 40) [entries]))
  · exact unset

@[simp] theorem sound_rebuild (h : p.SessionSound) : (rebuild p).SessionSound := sound_rebuildWith h

@[simp] theorem sound_calDateChange (h : p.SessionSound) : (calDateChange p).SessionSound := by
  unfold calDateChange
  exact sound_rebuildWith (sound_of_same h (by simp))

@[simp] theorem sound_scheduleReached (h : p.SessionSound) : (scheduleReached p).SessionSound :=
  sound_foldl (fun _ _ => sound_fireItem) _ h

@[simp] theorem sound_takeCueEvent (h : p.SessionSound) : (takeCueEvent p).SessionSound := by
  unfold takeCueEvent
  dsimp only
  (repeat' split)
  · exact h
  · simp (maxDischargeDepth := 40) [h]
  · refine sound_foldl (fun q k hq => ?_) _ (by simp (maxDischargeDepth := 40) [h])
    unfold linkActs
    dsimp only
    (repeat' split) <;> simp (maxDischargeDepth := 40) [hq]

end Calendar

/-! ## The Time Scale -/

section TimeScale

@[simp] theorem sound_recomputeOffset (h : p.SessionSound) : (recomputeOffset p).SessionSound := sound_of_same h (by simp)
@[simp] theorem sound_dialsSecond (h : p.SessionSound) : (dialsSecond p).SessionSound := sound_of_same h (by simp)
@[simp] theorem sound_dialsShifted (h : p.SessionSound) : (dialsShifted p).SessionSound := sound_of_same h (by simp)
@[simp] theorem sound_tellTimeState {a b : TimeState} (h : p.SessionSound) : (tellTimeState a b p).SessionSound :=
  sound_of_same h (by simp)
@[simp] theorem sound_leaveHoldover (h : p.SessionSound) : (leaveHoldover p).SessionSound := sound_of_same h (by simp)
@[simp] theorem sound_serveWindow {r : Reception} {n : Int} (h : p.SessionSound) : (serveWindow r n p).SessionSound :=
  sound_of_same h (by simp)

@[simp] theorem sound_evaluateDate (h : p.SessionSound) : (evaluateDate p).SessionSound := by
  unfold evaluateDate
  split <;> simp (maxDischargeDepth := 40) [h]

@[simp] theorem sound_emitQuarter {b : Int} {late : Bool} (h : p.SessionSound) : (emitQuarter b late p).SessionSound := by
  simp (maxDischargeDepth := 40) [emitQuarter, h]

@[simp] theorem sound_crossedQuarters (h : p.SessionSound) : (crossedQuarters p).SessionSound := by
  unfold crossedQuarters
  dsimp only
  (repeat' split) <;> simp (maxDischargeDepth := 40) [h]

theorem sound_secondWork (h : p.SessionSound) : (secondWork p).SessionSound := by
  unfold secondWork quarterAtSecond
  dsimp only
  (repeat' split) <;> simp (maxDischargeDepth := 40) [h]

@[simp] theorem sound_secondPart (h : p.SessionSound) : (secondPart p).SessionSound := by
  unfold secondPart secondElapses rangeEnd
  dsimp only
  (repeat' split)
  · simp (maxDischargeDepth := 40) [h]
  · exact sound_of_eq (sound_secondWork (p := { p with time.sec := p.time.sec + 1, time.acc := 0 }) (by simp (maxDischargeDepth := 40) [h])) rfl rfl
  · exact h

@[simp] theorem sound_leaveUnset (h : p.SessionSound) : (leaveUnset p).SessionSound := by
  simp (maxDischargeDepth := 40) [leaveUnset, h]

@[simp] theorem sound_afterStep {a : Int} {old : TimeState} (h : p.SessionSound) : (afterStep a old p).SessionSound := by
  unfold afterStep quartersAfterStep calStepForward
  dsimp only
  (repeat' split) <;> simp (maxDischargeDepth := 40) [h]

@[simp] theorem sound_useMark {c : SourceClass} {r : Reception} {y m d s k : Nat} (h : p.SessionSound) :
    (useMark c r y m d s k p).SessionSound := by
  unfold useMark setFromMark slew beyond
  dsimp only
  (repeat' split) <;> simp (maxDischargeDepth := 40) [h]

@[simp] theorem sound_setTime {y m d s : Nat} (h : p.SessionSound) : (setTime y m d s p).1.SessionSound := by
  unfold setTime
  dsimp only
  (repeat' split) <;> simp (maxDischargeDepth := 40) [h]

@[simp] theorem sound_seasonsChanged (h : p.SessionSound) : (seasonsChanged p).SessionSound := by
  simp (maxDischargeDepth := 40) [seasonsChanged, h]

end TimeScale

end Sys2Proof.Machine.Ringing


/-! SUPPORT. The Bell Guard's operations, the faults, the Line Switch and the Management Unit keep the agreement of the
session record with the RINGERS claims (R63). -/

namespace Sys2Proof.Machine.Ringing

open Dials Bells

variable {p q : Part} {b : Nat} {a : HammerAction}

/-! ## The Bell Guard -/

section Guard

/-- A record of a bell that is put with the claim and the hammer it had. -/
theorem sound_putBell_same {x : Bell} (h : p.SessionSound) (claim : x.claims.ringers = (p.bell b).claims.ringers := by rfl)
    (hammer : x.hammer = (p.bell b).hammer := by rfl) : (p.putBell b x).SessionSound :=
  sound_putBell h claim fun _ => by rw [hammer]

@[simp] theorem sound_decideSetting (h : p.SessionSound) : (decideSetting b a p).SessionSound := by
  unfold decideSetting
  dsimp only
  split
  · exact sound_placeSetting (sound_changeHammer (sound_putBell_same h) _ _)
  · exact h

@[simp] theorem sound_reengage (h : p.SessionSound) : (reengage b p).SessionSound := by
  unfold reengage
  split
  · exact sound_decideSetting (sound_putBell_same h)
  · exact h

@[simp] theorem sound_startSetting (h : p.SessionSound) : (startSetting p b).SessionSound := sound_decideSetting h

@[simp] theorem sound_guardSafe (h : p.SessionSound) : (guardSafe p).SessionSound := by
  refine sound_foldl (fun q b hq => ?_) _ h
  split
  · exact hq
  · exact sound_decideSetting hq

@[simp] theorem sound_guardRunning (h : p.SessionSound) : (guardRunning p).SessionSound :=
  sound_foldl (fun _ _ => sound_reengage) _ h

@[simp] theorem sound_raiseMajor {k : FaultKind} {d : List Byte} (h : p.SessionSound) :
    (raiseMajor k d p).SessionSound := by
  unfold raiseMajor
  dsimp only
  split <;> simp (maxDischargeDepth := 40) [h]

@[simp] theorem sound_readSource {n : Nat} (h : p.SessionSound) : (readSource n p).1.SessionSound := by
  unfold readSource
  dsimp only
  (repeat' split) <;> simp (maxDischargeDepth := 40) [h]

@[simp] theorem sound_classOf {n : Nat} (h : p.SessionSound) : (classOf n p).1.SessionSound := by
  unfold classOf
  split <;> simp (maxDischargeDepth := 40) [h]

/-! ### Reports -/

@[simp] theorem sound_examineIntrusion {pos : ReportedPosition} (h : p.SessionSound) :
    (examineIntrusion b pos p).SessionSound := by
  unfold examineIntrusion
  dsimp only
  (repeat' split)
  · exact h
  · exact sound_raiseMajor (sound_decideSetting (sound_putBell_same h))
  · exact h
  · exact sound_decideSetting h

@[simp] theorem sound_bellReported {pos : ReportedPosition} {now : Nat} (h : p.SessionSound) :
    (bellReported b pos now p).SessionSound := by
  unfold bellReported
  cases pos with
  | down => dsimp only; split <;> exact sound_putBell_same h
  | moving => exact sound_examineIntrusion (sound_putBell_same h)
  | up => exact sound_examineIntrusion (sound_putBell_same h)

@[simp] theorem sound_takeBellState {src : Nat} {pos : ReportedPosition} {now : Nat} (h : p.SessionSound) :
    (takeBellState src b pos now p).SessionSound := by
  unfold takeBellState
  split
  · exact sound_bellReported h
  · exact sound_of_eq h

@[simp] theorem sound_bellSettles (h : p.SessionSound) : (bellSettles b p).SessionSound :=
  sound_reengage (sound_sessionSettled (sound_putBell_same h) b)

@[simp] theorem sound_sensorExpires (h : p.SessionSound) : (sensorExpires b p).SessionSound :=
  sound_raiseMinor (sound_putBell_same h)

@[simp] theorem sound_hammerJams (h : p.SessionSound) : (hammerJams b p).SessionSound :=
  sound_sessionJam (sound_raiseMajor (sound_changeHammer h _ _)) b

theorem sound_hammerReported {x : HammerAnswer} (h : p.SessionSound) : (hammerReported b x p).SessionSound := by
  have stopped : (p.putBell b { p.bell b with hammerTimer := none }).SessionSound := sound_putBell_same h
  unfold hammerReported
  cases x with
  | jammed => exact sound_hammerJams stopped
  | withdrawn => exact sound_reengage (sound_changeHammer stopped _ _)
  | engaged =>
    have changed := sound_changeHammer stopped b .engaged
    dsimp only
    split
    · split
      · exact sound_raiseMajor (sound_decideSetting changed)
      · exact sound_decideSetting changed
    · exact changed

@[simp] theorem sound_takeHammerReport {src channel : Nat} {x : HammerAnswer} (h : p.SessionSound) :
    (takeHammerReport src channel x p).SessionSound := by
  unfold takeHammerReport
  split
  · exact sound_hammerReported h
  · exact sound_of_eq h

@[simp] theorem sound_hammerExpires (h : p.SessionSound) : (hammerExpires b p).SessionSound :=
  sound_hammerJams (sound_putBell_same h)

/-! ### Console claims -/

@[simp] theorem sound_releaseConsole (h : p.SessionSound) : (releaseConsole p b).SessionSound :=
  sound_putBell_same h

@[simp] theorem sound_restartConsoleIdle (h : p.SessionSound) : (restartConsoleIdle b p).SessionSound :=
  sound_putBell_same h

@[simp] theorem sound_claimBells {src : Nat} {l : List Nat} (h : p.SessionSound) : (claimBells src l p).1.SessionSound := by
  unfold claimBells
  (repeat' split)
  · exact h
  · exact h
  · exact sound_foldl (fun _ _ hq => sound_putBell_same hq) _ h

@[simp] theorem sound_releaseBells {l : List Nat} (h : p.SessionSound) : (releaseBells l p).1.SessionSound := by
  unfold releaseBells
  split
  · exact h
  · refine sound_foldl (fun q b hq => ?_) _ h
    unfold releaseNamed
    split
    · exact sound_releaseConsole hq
    · exact hq

/-! ### Writes -/

/-- R42: a bell's record is written only while it holds no RINGERS claim. -/
theorem sound_bellWritten {c : BellConfig} (h : p.SessionSound) (free : (p.bell b).claims.ringers = false) :
    (bellWritten b c p).SessionSound := by
  have written : (p.putBell b ((p.bell b).rewritten c p.osc)).SessionSound :=
    sound_putBell h rfl fun k => by rw [free] at k; cases k
  exact sound_startSetting (sound_of_same written (by simp))

@[simp] theorem sound_writeBell {l : List Byte} (h : p.SessionSound) : (writeBell b l p).1.SessionSound := by
  unfold writeBell
  (repeat' split)
  · exact h
  · exact h
  · exact h
  · exact h
  · rename_i free
    exact sound_bellWritten h (Bool.not_eq_true _ ▸ free)

@[simp] theorem sound_writeGuardConfig {n : Nat} {l : List Byte} (h : p.SessionSound) :
    (writeGuardConfig n l p).1.SessionSound := by
  unfold writeGuardConfig
  (repeat' split)
  · exact h
  · exact h
  · dsimp only
    refine sound_foldl (fun q b hq => ?_) _ (sound_of_eq h)
    split
    · exact sound_sensorExpires hq
    · exact hq

end Guard

/-! ## The Line Switch -/

section Line

variable {t : Port} {f : Frame} {s : Strike}

@[simp] theorem sound_copyClass (h : p.SessionSound) : (copyClass f p).1.SessionSound := by
  unfold copyClass
  split <;> simp (maxDischargeDepth := 40) [h]

@[simp] theorem sound_deliverCopy (h : p.SessionSound) : (deliverCopy t f p).SessionSound := by
  unfold deliverCopy
  dsimp only
  split <;> simp (maxDischargeDepth := 40) [h]

@[simp] theorem sound_deliverFrame (h : p.SessionSound) : (deliverFrame f p).SessionSound := by
  unfold deliverFrame
  dsimp only
  (repeat' split) <;> simp (maxDischargeDepth := 40) [h]

@[simp] theorem sound_readRoute {n : Nat} (h : p.SessionSound) : (readRoute n p).1.SessionSound := by
  unfold readRoute
  (repeat' split) <;> simp (maxDischargeDepth := 40) [h]

@[simp] theorem sound_matchRoute {l : List Nat} (h : p.SessionSound) : (matchRoute t f l p).1.SessionSound := by
  induction l generalizing p with
  | nil => exact h
  | cons n l ih =>
    have read := sound_readRoute (n := n) h
    unfold matchRoute
    dsimp only
    (repeat' split)
    · exact read
    · exact ih read
    · exact ih read

@[simp] theorem sound_forwardFrame (h : p.SessionSound) : (forwardFrame t f p).SessionSound :=
  sound_of_same h (by unfold forwardFrame; split <;> simp)

theorem sound_queueConsoleStrike {n : Nat} (h : p.SessionSound) : (queueConsoleStrike b n f p).SessionSound := by
  have offered : ∀ i, (offerPass i p).SessionSound := fun i => sound_of_same h (by simp)
  unfold queueConsoleStrike
  split <;> simp (maxDischargeDepth := 40) [offered]

@[simp] theorem sound_guardFrame (h : p.SessionSound) : (guardFrame f p).SessionSound := by
  have unmatched : (unmatchedConsole p).SessionSound := sound_of_eq h
  unfold guardFrame
  split
  swap
  · exact unmatched
  unfold consoleStrike
  split
  · exact unmatched
  · split
    · exact sound_refuseStrike h
    · dsimp only
      split
      · exact sound_queueConsoleStrike (sound_admitStrike (sound_restartConsoleIdle h))
      · exact sound_admitStrike (sound_restartConsoleIdle h)

@[simp] theorem sound_routeFrame {x : RouteAction} (h : p.SessionSound) : (routeFrame t f x p).SessionSound := by
  unfold routeFrame dropFrame
  cases x <;> simp (maxDischargeDepth := 40) [h]

@[simp] theorem sound_receptionPart {l : List Byte} (h : p.SessionSound) : (receptionPart t l p).SessionSound := by
  unfold receptionPart receive classify
  dsimp only
  (repeat' split) <;> simp (maxDischargeDepth := 40) [h]

/-! ### The arbiter -/

@[simp] theorem sound_strikeTaken (h : p.SessionSound) : (strikeTaken s p).SessionSound := by
  have counted : (p.putBell s.bell { p.bell s.bell with
    lastTake := some p.osc, strikesSent := bump (p.bell s.bell).strikesSent }).SessionSound := sound_putBell_same h
  exact sound_of_eq counted

@[simp] theorem sound_strikeDiscarded (h : p.SessionSound) : (strikeDiscarded s p).SessionSound := by
  have counted : (p.putBell s.bell { p.bell s.bell with
    strikesDiscarded := bump (p.bell s.bell).strikesDiscarded }).SessionSound := sound_putBell_same h
  exact sound_releaseCharge (sound_of_eq counted)

@[simp] theorem sound_localTaken (h : p.SessionSound) : (localTaken p).SessionSound := sound_of_same h (by simp)

@[simp] theorem sound_passTaken {x : Bool} (h : p.SessionSound) : (passTaken x p).SessionSound := sound_of_same h (by simp)

/-- R49: a setting that fails its take check. -/
theorem sound_settingLost {x : Setting} (h : p.SessionSound) : (placeWanted (reengage x.bell
    (changeHammer x.bell (p.bell x.bell).stateBefore (discardTake p)))).SessionSound := by
  have discarded : (discardTake p).SessionSound := sound_of_eq h
  exact sound_placeWanted (sound_reengage (sound_changeHammer discarded _ _))

theorem sound_takeSetting {x : Setting} (h : p.SessionSound) : (takeSetting x p).1.SessionSound := by
  have answered : (p.putBell x.bell { p.bell x.bell with wanted := none }).SessionSound := sound_putBell_same h
  unfold takeSetting
  generalize p.putBell x.bell { p.bell x.bell with wanted := none } = q at answered ⊢
  dsimp only
  split
  · exact sound_of_eq answered
  · dsimp only
    exact sound_settingLost answered

theorem sound_takeLocal {i : LocalItem} (h : p.SessionSound) : (takeLocal i p).1.SessionSound := by
  unfold takeLocal
  (repeat' split) <;> simp (maxDischargeDepth := 40) [h]

theorem sound_takePass {i : PassItem} (h : p.SessionSound) : (takePass i p).1.SessionSound := by
  unfold takePass
  (repeat' split) <;> simp (maxDischargeDepth := 40) [h]

theorem sound_turn (h : p.SessionSound) : (turn p).1.SessionSound := by
  rcases choose_cases p.line with ⟨none, _⟩ | ⟨_, _, safety, _⟩ | ⟨_, _, locals, _⟩ | ⟨_, _, pass, _⟩
  · rw [turn_nothing none]
    exact h
  · rw [turn_safety safety]
    exact sound_takeSetting (sound_of_eq h)
  · rw [turn_local locals]
    exact sound_takeLocal (sound_of_same h (by simp (maxDischargeDepth := 40)))
  · rw [turn_pass pass]
    exact sound_takePass (sound_of_eq h)

@[simp] theorem sound_arbiterTakes (h : p.SessionSound) : (arbiterTakes p).SessionSound := by
  unfold arbiterTakes
  split
  · exact h
  · exact arbitrate_keeps (fun _ => sound_turn) _ h

/-! ### Completions -/

@[simp] theorem sound_fieldCompletes (h : p.SessionSound) : (fieldCompletes p).SessionSound := sound_of_eq h

@[simp] theorem sound_settingCompletes {x : Setting} (h : p.SessionSound) : (settingCompletes x p).SessionSound := by
  unfold settingCompletes
  dsimp only
  split
  · exact sound_placeWanted (sound_putBell_same h)
  · exact sound_placeWanted h

end Line

/-! ## The Management Unit -/

section Management

variable {n : Nat} {c : SourceClass}

/-- A request that is heard keeps the agreement as its work does. -/
theorem sound_serve {i : Instr} {src : Nat} {work : SourceClass → Part → Part}
    (hw : ∀ c q, q.SessionSound → (work c q).SessionSound) (h : p.SessionSound) : (serve i src work p).SessionSound := by
  have start : (if p.mgmt.inHand.any (fun h => h.request = i) ∧ p.mgmt.replyWaiting.isNone then p
      else deliverRequest i src p).SessionSound := by
    unfold deliverRequest
    dsimp only
    (repeat' split) <;> simp (maxDischargeDepth := 40) [h]
  unfold serve
  dsimp only
  revert start
  generalize (if p.mgmt.inHand.any (fun h => h.request = i) = true ∧ p.mgmt.replyWaiting.isNone = true then p
      else deliverRequest i src p) = q
  intro start
  (repeat' split)
  · exact h
  · exact sound_reply start
  · exact hw _ _ start
  · exact start
  · exact start

theorem sound_serveSimple {i : Instr} {src : Nat} {least : SourceClass} {op : Part → Part × Code}
    (ho : ∀ q : Part, q.SessionSound → (op q).1.SessionSound) (h : p.SessionSound) :
    (serveSimple i src least op p).SessionSound := by
  refine sound_serve (fun c q hq => ?_) h
  dsimp only
  split
  · exact sound_reply (ho q hq)
  · exact sound_reply hq

@[simp] theorem sound_checkRecord {t : Table} (h : p.SessionSound) : (checkRecord t n p).1.SessionSound := by
  cases t
  case sources => exact sound_readSource h
  case routes => exact sound_readRoute h
  all_goals exact sound_of_same h (by simp [checkRecord])

theorem sound_readWork {src table offset : Nat} (h : p.SessionSound) :
    (readWork src table n offset c p).SessionSound := by
  unfold readWork readOne
  dsimp only
  (repeat' split) <;> simp (maxDischargeDepth := 40) [h]

theorem sound_readRecords {k : Nat} {x : Cursor} {l : List Byte} (h : p.SessionSound) :
    (readRecords k x l p).1.SessionSound := by
  induction k generalizing p x l with
  | zero => exact h
  | succ k ih =>
    have checked := sound_checkRecord (t := x.table) (n := x.index.toNat) h
    unfold readRecords
    dsimp only
    (repeat' split)
    · exact h
    · exact ih checked
    · exact checked

theorem sound_readNextWork {src : Nat} (h : p.SessionSound) : (readNextWork src c p).SessionSound := by
  unfold readNextWork
  (repeat' split)
  · exact sound_reply h
  · exact sound_reply h
  · exact sound_reply (sound_of_eq (sound_readRecords h))

/-! ### Writes -/

@[simp] theorem sound_calMended {t : CalTable} (h : p.SessionSound) : (calMended t n p).SessionSound :=
  sound_of_same h (by simp)

@[simp] theorem sound_recomputeClasses (h : p.SessionSound) : (recomputeClasses p).SessionSound :=
  sound_of_same h (by simp)

@[simp] theorem sound_putEntry {x : ScheduleEntry} (h : p.SessionSound) : (p.putEntry n x).SessionSound := sound_of_eq h

@[simp] theorem sound_writeDayClass {l : List Byte} (h : p.SessionSound) : (writeDayClass n l p).1.SessionSound := by
  unfold writeDayClass
  (repeat' split) <;> simp (maxDischargeDepth := 40) [h]

@[simp] theorem sound_writeSun {l : List Byte} (h : p.SessionSound) : (writeSun n l p).1.SessionSound := by
  unfold writeSun
  (repeat' split) <;> simp (maxDischargeDepth := 40) [h]

@[simp] theorem sound_writeSchedule {l : List Byte} (h : p.SessionSound) : (writeSchedule n l p).1.SessionSound := by
  unfold writeSchedule
  (repeat' split) <;> simp (maxDischargeDepth := 40) [h]

@[simp] theorem sound_writeCalendarConfig {l : List Byte} (h : p.SessionSound) :
    (writeCalendarConfig n l p).1.SessionSound := by
  unfold writeCalendarConfig
  (repeat' split) <;> simp (maxDischargeDepth := 40) [h]

@[simp] theorem sound_writeTable {t : Table} {l : List Byte} (h : p.SessionSound) :
    (writeTable t n l p).1.SessionSound := by
  cases t
  case bells => exact sound_writeBell h
  case guardConfig => exact sound_writeGuardConfig h
  case dayClasses => exact sound_writeDayClass h
  case sun => exact sound_writeSun h
  case schedule => exact sound_writeSchedule h
  case calendarConfig => exact sound_writeCalendarConfig h
  all_goals exact sound_of_same h (by simp [writeTable])

theorem sound_writeWork {src table : Nat} {l : List Byte} (h : p.SessionSound) :
    (writeWork src table n l c p).SessionSound := by
  unfold writeWork
  dsimp only
  (repeat' split) <;> simp (maxDischargeDepth := 40) [h]

theorem sound_writeRecords {l : List (List Byte)} {x : Cursor} (h : p.SessionSound) :
    (writeRecords l x n p).1.SessionSound := by
  induction l generalizing p x n with
  | nil => exact h
  | cons bs l ih =>
    have written := sound_writeTable (t := x.table) (n := x.index.toNat) (l := bs) h
    unfold writeRecords
    dsimp only
    (repeat' split)
    · exact h
    · exact ih written
    · exact written

theorem sound_writeNextWork {src : Nat} {l : List Byte} (h : p.SessionSound) : (writeNextWork src l c p).SessionSound := by
  unfold writeNextWork writeNextRecords
  dsimp only
  (repeat' split)
  · exact sound_reply h
  · exact sound_reply h
  · exact sound_reply h
  · exact sound_reply h
  · exact sound_reply h
  · exact sound_reply h
  · exact sound_reply (sound_of_eq (sound_writeRecords h))

/-! ### Faults acknowledged, and starts -/

theorem sound_ackWork {src leave : Nat} (h : p.SessionSound) : (ackWork src leave c p).SessionSound := by
  unfold ackWork acknowledge
  dsimp only
  (repeat' split) <;> simp (maxDischargeDepth := 40) [h]

/-- What holds of every record of a bank and of the record read outside it holds of what is read. -/
theorem bankGet1_of_all {α : Type} {n : Nat} {P : α → Prop} {v : Vector α n} {d : α} (hv : ∀ x ∈ v, P x) (hd : P d)
    (i : Nat) : P (bankGet1 v i d) := by
  unfold bankGet1 bankGet
  split
  · exact hd
  · rw [List.getD_eq_getElem?_getD]
    cases hx : v.toList[i - 1]? with
    | none => exact hd
    | some x => exact hv x (Vector.mem_toList_iff.mp (List.mem_of_getElem? hx))

/-- R62: where every bell has just started no session is under way and no bell is claimed. -/
theorem sound_of_started (session : p.session = Session.started)
    (bells : ∀ x ∈ p.bellGuard.bells, ∃ c osc, x = Bell.started c osc) : p.SessionSound := by
  refine sound_of_idle (by rw [session]; rfl) (by rw [session]; rfl) fun b _ _ => ?_
  refine bankGet1_of_all (P := fun x : Bell => x.claims.ringers = false) (fun x hx => ?_) rfl b
  obtain ⟨c, osc, rfl⟩ := bells x hx
  rfl

theorem sound_restarted (p : Part) : p.restarted.SessionSound := by
  refine sound_of_started rfl fun x hx => ?_
  obtain ⟨y, _, rfl⟩ := Vector.mem_map.mp hx
  exact ⟨_, _, rfl⟩

@[simp] theorem sound_warmStart (p : Part) : (warmStart p).SessionSound := by
  have started : (guardStarts p.restarted).SessionSound := sound_foldl (fun _ _ => sound_startSetting) _ (sound_restarted p)
  unfold warmStart timeStarts
  split
  · exact started
  · simp (maxDischargeDepth := 40) [started]

@[simp] theorem sound_cold : Part.cold.SessionSound := by
  refine sound_of_started rfl fun x hx => ?_
  obtain ⟨i, hi, rfl⟩ := Vector.mem_iff_getElem.mp hx
  exact ⟨_, _, Vector.getElem_ofFn _⟩

end Management

end Sys2Proof.Machine.Ringing


/-! SUPPORT. Every command keeps the agreement of the session record with the RINGERS claims (R63), and with it every
step. -/

namespace Sys2Proof.Machine.Ringing

open Dials Bells

variable {p q r : Part} {c : SourceClass} {src : Nat} {bells : List Nat}

/-! ## The requests of the ringers -/

/-- R64: a request that passes its checks finds no session, and names one of the sixteen bells at least. -/
theorem ringRefusal_none (h : ringRefusal bells p = none) :
    p.session.state = .idle ∧ bells ≠ [] ∧ ∀ b ∈ bells, 1 ≤ b ∧ b ≤ 16 := by
  unfold ringRefusal at h
  split_ifs at h with safe runs none range swing jam
  refine ⟨not_not.mp runs, none, fun b hb => ?_⟩
  simp only [List.any_eq_true, Bool.not_eq_true', not_exists, not_and, Bool.not_eq_false] at range
  simpa [within] using range b hb

theorem canonical_ne_nil (some : bells ≠ []) (range : ∀ b ∈ bells, 1 ≤ b ∧ b ≤ 16) : canonical 1 16 bells ≠ [] := by
  obtain ⟨b, hb⟩ := List.exists_mem_of_ne_nil _ some
  exact List.ne_nil_of_mem (mem_canonical.mpr ⟨range b hb, hb⟩)

theorem sound_ringWork (h : p.SessionSound) : (ringWork src bells c p).SessionSound := by
  unfold ringWork
  dsimp only
  (repeat' split)
  · exact sound_reply h
  · exact sound_reply h
  · rename_i passes
    obtain ⟨idle, named, range⟩ := ringRefusal_none passes
    generalize hq : sessionNotice .idle .preparing _ _ _ _ = q
    have same : (beginSession bells src p).sameBut q unasked := by
      rw [← hq]
      simp
    refine sound_enterSessionClaims (fun b low high => ?_) (same .session (by decide)) (canonical_ne_nil named range)
    rw [bell_congr (same .bellGuard (by decide))]
    show (p.bell b).claims.ringers = false
    rw [← Bool.not_eq_true, h.claims b low high, h.idle.mp idle]
    simp

/-- The agreement of a session under way asks the bells and the session. -/
theorem agrees_of_eq (h : Agrees p) (guard : q.bellGuard = p.bellGuard) (session : q.session = p.session) : Agrees q := by
  have bells := bell_congr guard
  refine ⟨?_, ?_, ?_, ?_, ?_, ?_⟩ <;> rw [session]
  · exact h.runs
  · exact h.numbers
  · simpa only [bells] using h.claims
  · simpa only [bells] using h.preparing
  · exact h.opened
  · exact h.closing

theorem sound_ringReleaseWork (h : p.SessionSound) : (ringReleaseWork src c p).SessionSound := by
  have closes {q : Part} (going : p.session.state = .preparing ∨ p.session.state = .opened)
      (same : (closeSession p).sameBut q unasked) : (completeSession q).SessionSound := by
    obtain ⟨agrees, state⟩ := agrees_closeSession h going
    have session : q.session = (closeSession p).session := same .session (by decide)
    exact sound_completeSession (agrees_of_eq agrees (same .bellGuard (by decide)) session) (by rw [session]; exact state)
  unfold ringReleaseWork
  dsimp only
  (repeat' split)
  · exact sound_reply h
  · exact sound_reply h
  · exact sound_reply h
  · rename_i state
    exact closes (.inl state) (by simp)
  · rename_i state
    exact closes (.inr state) (by simp)

/-! ## Commands -/

theorem sound_powered {f : Part → Part} (h : p.SessionSound) (hf : (f p).SessionSound) : (powered f p).SessionSound := by
  unfold powered
  split
  · exact hf
  · exact h

/-- What a command does under a condition keeps the agreement. -/
theorem sound_ite {x : Prop} [Decidable x] (h : p.SessionSound) (hq : q.SessionSound) : (if x then q else p).SessionSound := by
  split
  · exact hq
  · exact h

@[simp] theorem sound_takeMark {y m d s k : Nat} (h : p.SessionSound) : (takeMark src y m d s k p).SessionSound := by
  unfold takeMark
  dsimp only
  split <;> simp (maxDischargeDepth := 40) [h]

@[simp] theorem sound_seasonAdd {n : Nat} {x : Int} (h : p.SessionSound) : (seasonAdd n x p).1.SessionSound := by
  unfold seasonAdd
  (repeat' split) <;> simp (maxDischargeDepth := 40) [h]

@[simp] theorem sound_seasonRemove {n : Nat} (h : p.SessionSound) : (seasonRemove n p).1.SessionSound := by
  unfold seasonRemove
  (repeat' split) <;> simp (maxDischargeDepth := 40) [h]

@[simp] theorem sound_seasonBase {x : Int} (h : p.SessionSound) : (seasonBase x p).1.SessionSound := by
  unfold seasonBase
  (repeat' split) <;> simp (maxDischargeDepth := 40) [h]

/-- Every command keeps the agreement. -/
theorem exec_sound {c : Instr} {w v : List Instr} (h : p.SessionSound) (he : exec c ⟨p, w⟩ = .next ⟨q, v⟩) :
    q.SessionSound := by
  have done : ∀ {f : Part → Part}, (f p).SessionSound → act f ⟨p, w⟩ = .next ⟨q, v⟩ → q.SessionSound :=
    fun {f} k e => by
      have : f p = q ∧ w = v := by simpa using e
      exact this.1 ▸ k
  have live : ∀ {f : Part → Part}, (f p).SessionSound → act (powered f) ⟨p, w⟩ = .next ⟨q, v⟩ → q.SessionSound :=
    fun k e => done (sound_powered h k) e
  have quiet : ∀ {f : Part → Part}, p.sameBut (f p) unasked → act (powered f) ⟨p, w⟩ = .next ⟨q, v⟩ → q.SessionSound :=
    fun k e => live (sound_of_same h k) e
  have simple : ∀ {i : Instr} {src : Nat} {least : SourceClass} {op : Part → Part × Code},
      (∀ q : Part, q.SessionSound → (op q).1.SessionSound) → act (serveSimple i src least op) ⟨p, w⟩ = .next ⟨q, v⟩ →
      q.SessionSound := fun k e => done (sound_serveSimple k h) e
  have heard : ∀ {i : Instr} {src : Nat} {work : SourceClass → Part → Part},
      (∀ c q, q.SessionSound → (work c q).SessionSound) → act (serve i src work) ⟨p, w⟩ = .next ⟨q, v⟩ →
      q.SessionSound := fun k e => done (sound_serve k h) e
  cases c <;> revert he
  case oscillatorTick => exact done (f := tickPart) (sound_of_eq h)
  case secondBoundary => exact live (sound_secondPart h)
  case silenceTimeout => exact quiet (by simp)
  case timeMark => exact live (sound_takeMark h)
  case setTime => exact simple fun _ => sound_setTime
  case seasonAdd => exact simple fun _ => sound_seasonAdd
  case seasonRemove => exact simple fun _ => sound_seasonRemove
  case seasonBase => exact simple fun _ => sound_seasonBase
  case readRecord => exact heard fun _ _ => sound_readWork
  case writeRecord => exact heard fun _ _ => sound_writeWork
  case openCursor => exact heard fun _ _ k => sound_of_same k (by simp)
  case readNext => exact heard fun _ _ => sound_readNextWork
  case writeNext => exact heard fun _ _ => sound_writeNextWork
  case dialFastInstant => exact quiet (by simp [fastPart])
  case dialStepCompletion => exact quiet (by unfold dialCompletionPart; split <;> simp [fieldCompletes])
  case dialHome => exact quiet (by unfold dialHomePart; split <;> simp)
  case setDial => exact simple fun _ k => sound_of_same k (by simp)
  case bellState => exact live (sound_takeBellState (sound_takeCopy h))
  case settleTimeReached => exact live (sound_ite h (sound_bellSettles h))
  case sensorTimeout => exact live (sound_ite h (sound_sensorExpires h))
  case hammerReport => exact live (sound_takeHammerReport (sound_takeCopy h))
  case hammerTimeout => exact live (sound_ite h (sound_hammerExpires h))
  case claimBells => exact simple fun _ => sound_claimBells
  case releaseBells => exact simple fun _ => sound_releaseBells
  case consoleIdleTimeout => exact live (sound_ite h (sound_releaseConsole h))
  case fieldArbiterTake => exact live (sound_arbiterTakes h)
  case hammerSetCompletion =>
    refine live ?_
    unfold settingCompletionPart
    split
    · exact sound_settingCompletes (sound_fieldCompletes h)
    · exact h
  case lampLevelCompletion => exact quiet (by unfold levelCompletionPart; split <;> simp [fieldCompletes])
  case ringRequest => exact heard fun _ _ => sound_ringWork
  case ringRelease => exact heard fun _ _ => sound_ringReleaseWork
  case voiceDueInstant => exact live (by unfold duePart; (repeat' split) <;> simp [h])
  case heldStrikeDeadline => exact quiet (by simp)
  case hourBlow => exact live (by unfold hourBlowPart; (repeat' split) <;> simp [h])
  case omitNext => exact simple fun _ k => sound_of_eq k
  case startTune => exact simple fun _ => sound_startTune
  case stopTune => exact simple fun _ k => sound_of_same k (by simp)
  case lampUpdate => exact quiet (by simp)
  case applyScene => exact simple fun _ k => sound_of_same k (by simp)
  case lampReport => exact quiet (by unfold lampReportPart; split <;> simp)
  case feedState => exact quiet (by simp (maxDischargeDepth := 40))
  case strikeChargeRelease => exact quiet (by simp)
  case restoreTimerExpiry => exact quiet (by simp)
  case scheduleFire => exact live (by split <;> simp [h])
  case cueSourceEvent => exact live (sound_takeCueEvent h)
  case frameReceived => exact live (sound_receptionPart h)
  case consoleTransmitTake => exact quiet (by unfold consoleTakes; (repeat' split) <;> simp)
  case resetPartReplyCompletion =>
    refine live ?_
    unfold resetCompletionPart
    split
    · exact sound_warmStart p
    · exact h
  case ackFault => exact heard fun _ _ => sound_ackWork
  case resetPart => exact heard fun _ _ k => sound_of_same k (by simp)
  case supplyFail => exact done (f := fun p => { p with retention.supply := false }) (sound_of_eq h)
  case coldPowerOn => exact done (f := fun _ => Part.cold) sound_cold
  case warmPowerOn =>
    refine done (f := powerOn) ?_
    unfold powerOn
    split
    · exact sound_warmStart p
    · exact sound_cold
  case fieldFrameCompletion => exact quiet (by unfold fieldCompletionPart; split <;> simp [fieldCompletes])
  case consoleFrameCompletion => exact quiet (by unfold consoleCompletionPart; split <;> simp [consoleCompletes])
  case receiverIdleGap => exact quiet (by unfold gapPart; split <;> simp)
  case backupCellLow =>
    refine done (f := fun p => if p.retention.supply then p else { p with retention.cellHeld := false }) ?_
    dsimp only
    split
    · exact h
    · exact sound_of_eq h

/-- Settles O16: no command parts the session record from the RINGERS claims and the hammers. -/
theorem stepKeepsSessionSound : Obligations.StepKeepsSessionSound := by
  unfold Obligations.StepKeepsSessionSound
  rintro ⟨p, pending⟩ ⟨q, v⟩ h step
  cases pending with
  | nil =>
    cases step
    exact h
  | cons c w =>
    have he : exec c ⟨p, w⟩ = .next ⟨q, v⟩ := step
    exact exec_sound h he

end Sys2Proof.Machine.Ringing


/-! SUPPORT. RING_REQUEST (R64 to R68): its refusals, and the session begun, its claims entered and its hammers withdrawn. -/

namespace Sys2Proof.Machine.Ringing

open Dials Bells

section Requests

variable {p q s v : Part} {c : SourceClass} {src o : Nat} {bells l : List Nat} {m : List UpItem} {code : Code} {cls : SourceClass} {i : Instr}
  {T : List Block} {old new : SessionState} {requester : Option Nat} {x : Session} {reason : SessionReason}

/-- TABLE 11-3: every class that is ranked may do what CONSOLE may. -/
theorem atLeast_console (hc : cls.rank ≠ 0) : cls.atLeast .console = true :=
  decide_eq_true (Nat.one_le_iff_ne_zero.mpr hc)

/-- R172, R75: what the session comes to is answered, and told of behind the answer. -/
theorem answered_told (h : p.hears src cls = true) (same : (p.taken i cls).sameBut s T)
    (out : Block.requests ∉ T ∧ Block.up ∉ T ∧ Block.time ∉ T ∧ Block.mgmt ∉ T)
    (hv : v = sessionNotice old new l requester reason (reply src o code [] s)) :
    v.session = s.session ∧ v.bellGuard = s.bellGuard ∧ v.line.safetyQ = s.line.safetyQ ∧ p.sameBut v (.up :: T)
      ∧ v.line.upQ = (p.answered src o code []).upAfter [p.noticeOf .sessionState p.towerTime
          ([byte old.code, byte new.code] ++ bellSetBytes l ++ beOpt 1 requester ++ reason.bytes)] := by
  obtain ⟨requests, up, time, mgmt⟩ := out
  have queue : s.line.upQ = p.line.upQ := (same .up up).1
  obtain ⟨replied, kept⟩ := reply_done (o := o) (n := src) (code := code) (data := []) h same requests
    (queue ▸ (hears_free h).2.2.2.2.2)
  have reads : Sends p (released s) [] := .of_same kept time mgmt requests up
  have address : (released s).mgmt.address = p.mgmt.address := (kept .requests requests).2.2.2.1
  rw [replied] at hv
  have answer : (released s).sameBut ((released s).answered src o code []) [.up] := by simp [Part.answered]
  have told : ((released s).answered src o code []).sameBut v [.up] := by rw [hv]; simp
  have whole := sameBut_trans answer told
  refine ⟨whole .session (by decide), whole .bellGuard (by decide), whole .safety (by decide),
    sameBut_trans (sameBut_mono kept fun _ => List.mem_cons_of_mem _) (sameBut_mono whole (by simp)), ?_⟩
  have back : ((released s).answered src o code []).line.upQ = (p.answered src o code []).line.upQ := by
    show s.line.upQ ++ [replyTo (released s).mgmt.address src o code []] = _
    rw [address, queue]
    rfl
  rw [hv, sessionNotice, (sendNotice_sends _ _ _).queue, Part.upAfter, Part.upAfter, back, ← reads.notices,
    ← reads.tower]
  rfl

/-- A reply that has come into UP before the notices is given. -/
theorem gave_of_prefix {x : UpItem} (h : v.line.upQ = (p.answered src o code []).upAfter m)
    (ha : x = replyTo p.mgmt.address src o code []) (hq : v.line.upQ <+: q.line.upQ) : q.gave x := by
  have told : x ∈ (p.answered src o code []).upAfter m := (upAfter_prefix (p.answered src o code []) m).subset (by
    rw [ha]
    exact List.mem_append_right _ List.mem_cons_self)
  exact .inl (hq.subset (h ▸ told))

/-- R167: a notice behind an answer finds its place where UP held at most twelve. -/
theorem upAfter_answered {n : UpItem} (room : p.line.upQ.length < 13) : (p.answered src o code []).upAfter [n]
    = p.line.upQ ++ [replyTo p.mgmt.address src o code [], n] := by
  have place : (p.line.upQ ++ [replyTo p.mgmt.address src o code []]).length < 14 := by
    rw [List.length_append, List.length_singleton]
    omega
  exact (if_pos place).trans (List.append_assoc _ _ _)

/-- A request that is heard from a class that manages is its work on the request in hand. -/
theorem exec_ringRequest (h : p.hears src cls = true) (hc : cls.rank ≠ 0) (w : List Instr) :
    exec (.ringRequest src bells) ⟨p, w⟩
      = .next ⟨ringWork src bells cls (p.taken (.ringRequest src bells) cls), w⟩ := by
  rw [← serve_heard (work := ringWork src bells) h hc]
  rfl

/-- R64: a request that is refused. -/
theorem ringRequest_refused (h : p.hears src cls = true) (hc : cls.rank ≠ 0) (hr : ringRefusal bells p = some code)
    (w : List Instr) : exec (.ringRequest src bells) ⟨p, w⟩ = .next ⟨p.answered src 22 code [], w⟩ := by
  have refused : ringRefusal bells (p.taken (.ringRequest src bells) cls) = some code := hr
  rw [exec_ringRequest h hc, ← reply_taken (i := .ringRequest src bells) (cls := cls) h]
  simp only [ringWork, atLeast_console hc, refused]
  rfl

/-! ### A session that begins -/

/-- R64, R65, R75: a request that passes is answered and told of, and its claims enter. -/
theorem ringRequest_begins (h : p.hears src cls = true) (hc : cls.rank ≠ 0) (hr : ringRefusal bells p = none)
    (w : List Instr) : ∃ v, exec (.ringRequest src bells) ⟨p, w⟩ = .next ⟨enterSessionClaims v, w⟩
      ∧ v.session = (beginSession bells src p).session ∧ p.sameBut v [.up, .session]
      ∧ v.line.upQ = (p.answered src 22 .ok []).upAfter [p.noticeOf .sessionState p.towerTime
          ([0, 1] ++ bellSetBytes (canonical 1 16 bells) ++ [byte src, 0, 0])] := by
  generalize ht : p.taken (.ringRequest src bells) cls = t
  have passes : ringRefusal bells t = none := ht ▸ hr
  generalize hs : beginSession bells src t = s
  have same : t.sameBut s [.session] := by rw [← hs]; simp
  have work : ringWork src bells cls t = enterSessionClaims (sessionNotice .idle .preparing
      (reply src 22 .ok [] s).session.set (reply src 22 .ok [] s).session.requester .request
      (reply src 22 .ok [] s)) := by
    simp only [ringWork, atLeast_console hc, passes, hs]
    rfl
  have replied : s.sameBut (reply src 22 .ok [] s) [.up, .requests] := by simp
  have session : s.session = (beginSession bells src p).session := by rw [← hs, ← ht]; rfl
  rw [replied .session (by decide), session, beginSession_set] at work
  subst ht
  obtain ⟨begun, _, _, kept, queue⟩ := answered_told h same (by decide) rfl
  refine ⟨_, by rw [exec_ringRequest h hc, work], begun.trans session, kept, queue.trans ?_⟩
  have detail : [byte SessionState.idle.code, byte SessionState.preparing.code] ++ bellSetBytes (canonical 1 16 bells)
      ++ beOpt 1 (some src) ++ SessionReason.request.bytes
      = [0, 1] ++ bellSetBytes (canonical 1 16 bells) ++ [byte src, 0, 0] := by
    rw [show beOpt 1 (some src) = [byte src] from be_one src, List.append_assoc]
    rfl
  rw [← detail]
  rfl

/-- R65: the bells whose hammers are withdrawn for a session that begins where no hammer of it is JAMMED. -/
theorem filter_comesOut (jam : ∀ b ∈ bells, (p.bell b).hammer ≠ .jammed) :
    (canonical 1 16 bells).filter (fun b => comesOut (p.bell b)) = (List.range' 1 16).filter (fun b =>
      decide (b ∈ bells ∧ (p.bell b).hammer ≠ .withdrawn ∧ (p.bell b).hammer ≠ .withdrawing)) := by
  have numbers : (List.range 16).map (· + 1) = List.range' 1 16 := by decide
  rw [canonical, numbers, List.filter_filter]
  refine List.filter_congr fun b _ => ?_
  by_cases hb : b ∈ bells <;> simp [comesOut, hb]
  exact fun _ _ => jam b hb

/-- R64, R66, R68: the session that a request has begun, its claims entered. -/
theorem enteredSession_begun (begun : v.session = (beginSession bells src p).session) (tower : v.towerTime = p.towerTime)
    (some : canonical 1 16 bells ≠ []) (hs : x = enteredSession v (canonical 1 16 bells)) :
    x.set = canonical 1 16 bells ∧ x.requester = src ∧ x.began = p.towerTime
      ∧ ((∀ b ∈ canonical 1 16 bells, (v.bell b).hammer = .withdrawn) →
          x.state = .opened ∧ x.opened = bump p.session.opened)
      ∧ ((∃ b ∈ canonical 1 16 bells, (v.bell b).hammer ≠ .withdrawn) →
          x.state = .preparing ∧ x.opened = p.session.opened) := by
  have held : (∀ y ∈ heldOf v (canonical 1 16 bells), y.stage = .held)
      ↔ ∀ b ∈ canonical 1 16 bells, (v.bell b).hammer = .withdrawn := by
    simp [heldOf_begun begun]
  have set : (heldOf v (canonical 1 16 bells)).map SessionBell.bell = canonical 1 16 bells := by
    simp [heldOf_begun begun, Function.comp_def]
  rw [enteredSession] at hs
  simp only [held] at hs
  by_cases all : ∀ b ∈ canonical 1 16 bells, (v.bell b).hammer = .withdrawn
  · rw [if_pos ⟨some, all⟩] at hs
    subst hs
    refine ⟨set, by rw [begun]; rfl, tower, fun _ => ⟨rfl, by rw [begun]; rfl⟩, ?_⟩
    rintro ⟨b, hb, stays⟩
    exact absurd (all b hb) stays
  · rw [if_neg fun k => all k.2] at hs
    subst hs
    exact ⟨set, by rw [begun]; rfl, by rw [begun]; rfl, fun k => absurd k all, fun _ => by rw [begun]; exact ⟨rfl, rfl⟩⟩

/-- R65: the bell of a claim that has entered. -/
theorem summoned_hammer (x : Bell) : (x.hammer = .withdrawn → (summoned x).hammer = .withdrawn)
    ∧ (x.hammer ≠ .withdrawn → x.hammer ≠ .jammed → x.config.hammerNode ≠ none → (summoned x).hammer = .withdrawing) := by
  refine ⟨(summoned_withdrawn x).mpr, fun stays jam fit => ?_⟩
  have fitted : x.fitted = true := Option.isSome_iff_ne_none.mpr fit
  by_cases moving : x.hammer = .withdrawing
  · simp [summoned, comesOut, moving]
  · simp [summoned, comesOut, stays, moving, jam, fitted, decided, HammerAction.underWay]


/-- R64: the checks of a request, from the third on. -/
theorem ringRefusal_idle (running : p.mgmt.partState = .running) (idle : p.session.state = .idle) (named : bells ≠ []) :
    ((∃ b ∈ bells, b = 0 ∨ 16 < b) → ringRefusal bells p = some .badIndex)
      ∧ ((∀ b ∈ bells, 1 ≤ b ∧ b ≤ 16) →
        ((∃ b ∈ bells, (p.bell b).config.cls = .fixed ∨ (p.bell b).config.sensorNode = none) →
          ringRefusal bells p = some .notSwing)
        ∧ ((∀ b ∈ bells, (p.bell b).config.cls = .swing ∧ (p.bell b).config.sensorNode ≠ none) →
          ((∃ b ∈ bells, (p.bell b).hammer = .jammed) → ringRefusal bells p = some .wrongState)
          ∧ ((∀ b ∈ bells, (p.bell b).hammer ≠ .jammed) → ringRefusal bells p = none))) := by
  have first : ringRefusal bells p
      = if bells.any (fun b => !within 1 b 16) then some .badIndex
        else if bells.any (fun b => (p.bell b).config.cls = .fixed || (p.bell b).config.sensorNode.isNone) then
          some .notSwing
        else if bells.any (fun b => (p.bell b).hammer = .jammed) then some .wrongState
        else none := by simp [ringRefusal, running, idle, named]
  rw [first]
  refine ⟨fun ⟨b, hb, out⟩ => if_pos (List.any_eq_true.mpr ⟨b, hb, ?_⟩), fun range => ?_⟩
  · simp [within]
    omega
  rw [if_neg (by simpa [within, Nat.one_le_iff_ne_zero] using range)]
  refine ⟨fun ⟨b, hb, still⟩ => if_pos (List.any_eq_true.mpr ⟨b, hb, by simpa using still⟩), fun swing => ?_⟩
  have swings : ¬ bells.any (fun b => (p.bell b).config.cls = .fixed || (p.bell b).config.sensorNode.isNone) = true := by
    simp only [List.any_eq_true, not_exists, not_and]
    intro b hb
    simp [swing b hb]
  rw [if_neg swings]
  exact ⟨fun ⟨b, hb, jam⟩ => if_pos (List.any_eq_true.mpr ⟨b, hb, by simpa using jam⟩),
    fun jam => if_neg (by simpa using jam)⟩

end Requests

/-- Settles O38: the checks in the order they are made, and the session begun with its claims entered one after the
other. -/
theorem ringRequest : Obligations.RingRequest := by
  unfold Obligations.RingRequest
  intro p w src cls bells h hc
  have refused {code : Code} (hr : ringRefusal bells p = some code) :
      exec (.ringRequest src bells) ⟨p, w⟩ = .next ⟨p.answered src 22 code [], w⟩ := ringRequest_refused h hc hr w
  refine ⟨fun safe => refused (by simp [ringRefusal, safe]),
    fun running busy => refused (by simp [ringRefusal, running, busy]), fun running idle =>
      ⟨fun none => refused (by simp [ringRefusal, running, idle, none]), fun out => ?_, fun named range => ?_⟩⟩
  · have named : bells ≠ [] := by
      obtain ⟨b, hb, _⟩ := out
      exact List.ne_nil_of_mem hb
    obtain ⟨badIndex, _⟩ := ringRefusal_idle running idle named
    exact refused (badIndex out)
  obtain ⟨_, inRange⟩ := ringRefusal_idle running idle named
  obtain ⟨notSwing, swinging⟩ := inRange range
  refine ⟨fun still => refused (notSwing still), fun swing => ?_⟩
  obtain ⟨wrongState, passes⟩ := swinging swing
  refine ⟨fun jammed => refused (wrongState jammed), fun jam => ?_⟩
  obtain ⟨v, run, begun, same, queue⟩ := ringRequest_begins h hc (passes jam) w
  generalize hq : enterSessionClaims v = q at run
  have enters := enterSessionClaims_enters begun hq.symm
  have bell : ∀ b, v.bell b = p.bell b := bell_congr (same .bellGuard (by decide))
  have member : ∀ b, b ∈ canonical 1 16 bells ↔ b ∈ bells := fun b =>
    mem_canonical.trans (and_iff_right_of_imp (range b))
  obtain ⟨set, requester, began, opens, waits⟩ := enteredSession_begun begun (towerTime_of_same same (by decide))
    (canonical_ne_nil named range) enters.session
  simp only [member, bell] at opens waits
  refine ⟨q, run, gave_of_prefix queue rfl enters.up, fun b => by rw [set, member], requester, began, fun b hb => ?_,
    fun b hb => ?_, ?_, opens, waits, fun room => ?_, ?_⟩
  · rw [enters.bells, if_pos ((member b).mpr hb), bell]
    obtain ⟨away, draws⟩ := summoned_hammer (p.bell b)
    exact ⟨summoned_claims _, away, fun stays fit => draws stays (jam b hb) fit⟩
  · rw [enters.bells, if_neg (mt (member b).mp hb), bell]
  · have decides := (Decides.of_same same (by decide) (by decide) (by decide)).trans enters.decides
    simp only [bell] at decides
    rw [filter_comesOut jam] at decides
    exact decides.queue
  · refine List.IsPrefix.trans ?_ enters.up
    rw [queue, set, upAfter_answered room]
  · exact sameBut_trans (sameBut_mono same (by simp)) (sameBut_mono enters.same (by simp))

end Sys2Proof.Machine.Ringing


/-! SUPPORT. RING_RELEASE (R71 to R74): the session closes, the settled bells leave it, and it completes where all have. -/

namespace Sys2Proof.Machine.Ringing

open Dials Bells

section Releases

variable {p q t v : Part} {b src : Nat} {cls : SourceClass}

/-- A request that is heard from a class that manages is its work on the request in hand. -/
theorem exec_ringRelease (h : p.hears src cls = true) (hc : cls.rank ≠ 0) (w : List Instr) :
    exec (.ringRelease src) ⟨p, w⟩ = .next ⟨ringReleaseWork src cls (p.taken (.ringRelease src) cls), w⟩ := by
  rw [← serve_heard (work := ringReleaseWork src) h hc]
  rfl

/-- R71: without a session open or being prepared there is none to release. -/
theorem ringRelease_refused (h : p.hears src cls = true) (hc : cls.rank ≠ 0)
    (hs : p.session.state = .idle ∨ p.session.state = .closing) (w : List Instr) :
    exec (.ringRelease src) ⟨p, w⟩ = .next ⟨p.answered src 23 .wrongState [], w⟩ := by
  have state : (p.taken (.ringRelease src) cls).session.state = p.session.state := rfl
  rw [exec_ringRelease h hc, ← reply_taken (i := .ringRelease src) (cls := cls) h]
  rcases hs with hs | hs <;> (rw [hs] at state; simp only [ringReleaseWork, atLeast_console hc, state]; rfl)

/-! ### The session as it closes -/

/-- R72: the session that closes, each settled bell LEFT and the others HELD. -/
def closingSession (p : Part) : Session :=
  { p.session with
    state := .closing
    began := p.towerTime
    bells := p.session.bells.map fun y => { y with stage := if (p.bell y.bell).settled then .left else .held } }

theorem mem_leavers : b ∈ leavers p ↔ b ∈ p.session.set ∧ (p.bell b).settled = true := List.mem_filter

theorem closeSession_session (p : Part) : (closeSession p).session = closingSession p := by
  rw [(closeSession_departs p).session, leftSession, closingSession]
  simp only [closedUp, withSession, List.map_map]
  congr 1
  refine List.map_congr_left fun y hy => ?_
  have member : y.bell ∈ leavers p ↔ (p.bell y.bell).settled = true :=
    mem_leavers.trans (and_iff_right (List.mem_map_of_mem hy))
  simp [member]

theorem closeSession_same (p : Part) : p.sameBut (closeSession p) [.bellGuard, .session, .safety] := by
  have closed : p.sameBut (closedUp p) [.session] := by simp [closedUp, withSession]
  exact sameBut_trans (sameBut_mono closed (by simp)) (closeSession_departs p).same

/-- R51, R72: the settings decided for the bells that leave. -/
theorem closeSession_decides (p : Part) : Decides p (closeSession p)
    (if p.mgmt.partState = .safe then [] else p.engagedOf (leavers p)) := by
  have closed : p.sameBut (closedUp p) [.session] := by simp [closedUp, withSession]
  have decides := (Decides.of_same closed (by decide) (by decide) (by decide)).trans (closeSession_departs p).decides
  rw [show (closedUp p).mgmt.partState = p.mgmt.partState from rfl,
    show (closedUp p).engagedOf (leavers p) = p.engagedOf (leavers p) from rfl] at decides
  cases state : p.mgmt.partState <;> simpa [state] using decides

/-- R74: a session whose bells have all LEFT it completes. -/
theorem completeSession_completes (closes : p.session.state = .closing) (left : ∀ y ∈ p.session.bells, y.stage = .left) :
    completeSession p = emitCue .sessionClosed (sessionNotice .closing .idle p.session.set p.session.requester .settled
      (withSession (completedSession p) p)) := if_pos ⟨closes, by simpa using left⟩

theorem completeSession_up (p : Part) : p.line.upQ <+: (completeSession p).line.upQ := by
  by_cases ends : p.session.state = .closing ∧ ∀ y ∈ p.session.bells, y.stage = .left
  · obtain ⟨closes, left⟩ := ends
    rw [completeSession_completes closes left]
    generalize hr : sessionNotice .closing .idle p.session.set p.session.requester .settled _ = r
    have cue : r.sameBut (emitCue .sessionClosed r) [.events] := by simp
    rw [(cue .up (by decide)).1, ← hr, sessionNotice, (sendNotice_sends _ _ _).queue]
    exact upAfter_prefix _ _
  · have stays : completeSession p = p := if_neg (by simpa using ends)
    rw [stays]

theorem completeSession_events (closes : p.session.state = .closing) (left : ∀ y ∈ p.session.bells, y.stage = .left)
    (runs : p.time.state ≠ .unset) : (completeSession p).cal.events = p.cal.events ++ [.sessionClosed] := by
  rw [completeSession_completes closes left, emitCue_events]
  generalize hr : sessionNotice .closing .idle p.session.set p.session.requester .settled _ = r
  have told : p.sameBut r [.session, .up] := by rw [← hr]; simp [withSession]
  rw [told .events (by decide), told .time (by decide), if_neg runs]

/-! ### The session released -/

/-- R71, R72, R75: a session that is open or being prepared closes; the request is answered, the change told of, and the
session completes where it can. -/
theorem ringRelease_closes (h : p.hears src cls = true) (hc : cls.rank ≠ 0) (ht : t = p.taken (.ringRelease src) cls)
    (hs : p.session.state = .preparing ∨ p.session.state = .opened) (w : List Instr) :
    ∃ v, exec (.ringRelease src) ⟨p, w⟩ = .next ⟨completeSession v, w⟩ ∧ v.session = (closeSession t).session
      ∧ v.bellGuard = (closeSession t).bellGuard ∧ v.line.safetyQ = (closeSession t).line.safetyQ
      ∧ p.sameBut v [.up, .bellGuard, .session, .safety]
      ∧ ∃ m, v.line.upQ = (p.answered src 23 .ok []).upAfter m := by
  have state : t.session.state = .preparing ∨ t.session.state = .opened := ht ▸ hs
  have work : ringReleaseWork src cls t = completeSession (sessionNotice t.session.state .closing
      (reply src 23 .ok [] (closeSession t)).session.set (reply src 23 .ok [] (closeSession t)).session.requester .release
      (reply src 23 .ok [] (closeSession t))) := by
    rcases state with state | state <;> (simp only [ringReleaseWork, atLeast_console hc, state]; rfl)
  have same := closeSession_same t
  subst ht
  obtain ⟨session, guard, safety, kept, queue⟩ := answered_told h same (by decide) rfl
  exact ⟨_, by rw [exec_ringRelease h hc, work], session, guard, safety, kept, _, queue⟩

/-- R72, R74: the bells of the session that closes have all LEFT it exactly if all are settled. -/
theorem closingSession_left : (∀ y ∈ (closingSession p).bells, y.stage = .left)
    ↔ ∀ b ∈ p.session.set, (p.bell b).settled = true := by
  simp [closingSession, Session.set]

end Releases

/-- Settles O39: the bells of the set leave as the session closes, and it completes where all have left. -/
theorem ringRelease : Obligations.RingRelease := by
  unfold Obligations.RingRelease
  intro p w src cls h hc
  refine ⟨fun hs => ringRelease_refused h hc hs w, fun hs => ?_⟩
  obtain ⟨t, ht⟩ : ∃ t, t = p.taken (.ringRelease src) cls := ⟨_, rfl⟩
  obtain ⟨v, run, record, guard, safety, same, m, queue⟩ := ringRelease_closes h hc ht hs w
  generalize hq : completeSession v = q at run
  have ends : v.sameBut q [.session, .events, .up] := by rw [← hq]; simp
  have departs := closeSession_departs t
  have bell : ∀ b, q.bell b = (closeSession t).bell b := bell_congr ((ends .bellGuard (by decide)).trans guard)
  have session : v.session = closingSession p := by
    rw [record, closeSession_session, ht]
    rfl
  have gone : ∀ b, b ∈ leavers t ↔ b ∈ p.session.set ∧ (p.bell b).settled = true := fun b => by
    rw [mem_leavers, ht]
    rfl
  refine ⟨q, run, gave_of_prefix queue rfl (hq ▸ completeSession_up v), fun b hb => ?_, fun b hb => ?_, ?_, fun all => ?_,
    ?_, ?_⟩
  · rw [bell, departs.claims]
    simp only [gone, hb, true_and]
    rw [ht]
    rfl
  · rw [bell, departs.others b fun k => hb ((gone b).mp k).1, ht]
    rfl
  · rintro ⟨b, hb, moves⟩
    rw [← hq, completeSession_session, session, if_neg fun k => ?_]
    · rfl
    · have settled := closingSession_left.mp k.2 b hb
      rw [moves] at settled
      cases settled
  · have left := closingSession_left.mpr all
    have tower : v.towerTime = p.towerTime := towerTime_of_same same (by decide)
    refine ⟨?_, fun runs => ?_⟩
    · rw [← hq, completeSession_session, session, if_pos ⟨rfl, left⟩, completedSession, session, tower]
      rfl
    · have time : v.time = p.time := same .time (by decide)
      have events : v.cal.events = p.cal.events := same .events (by decide)
      rw [← hq, completeSession_events (by rw [session]; rfl) (session ▸ left) (time ▸ runs), events]
  · rw [ends .safety (by decide), safety, (closeSession_decides t).queue, ht]
    show p.safetyAfter (if p.mgmt.partState = .safe then [] else _) = _
    split <;> rfl
  · exact sameBut_trans (sameBut_mono same (by simp)) (sameBut_mono ends (by simp))

end Sys2Proof.Machine.Ringing

/-! SUPPORT. Writes of the Tune Store (R79, R81, R83, R84), of a route entry (R161), and of the source table and the part
configuration (R173, R174). First the fields that bytes spell, sets among them; then each table's bytes and what they are
read as, and what the block that owns the table does with a record; the theorem that settles the statement last. -/

namespace Sys2Proof.Machine.Store

open Dials

/-! ## Sets and optional fields -/

section Fields

variable {first count : Nat} {l : List Nat}

/-- A set in its one form ascends strictly. -/
theorem sorted_of_canonical (h : canonical first count l = l) : (l.map (· - first)).SortedLT := by
  have ascending : ((List.range count).map (· + first)).Pairwise (· < ·) :=
    List.pairwise_map.mpr (List.pairwise_lt_range.imp fun lt => Nat.add_lt_add_right lt first)
  rw [List.sortedLT_iff_pairwise, List.pairwise_map, ← h]
  refine (ascending.filter _).imp_of_mem fun ha _ lt => ?_
  obtain ⟨i, _, rfl⟩ := List.mem_map.mp (List.mem_filter.mp ha).1
  omega

theorem mem_of_canonical (h : canonical first count l = l) {m : Nat} (hm : m ∈ l) :
    first ≤ m ∧ m < first + count := by
  rw [← h] at hm
  obtain ⟨i, hi, rfl⟩ := List.mem_map.mp (List.mem_filter.mp hm).1
  have := List.mem_range.mp hi
  omega

/-- Part 11: a set's bit stands for its member. -/
theorem testBit_setBits (h : canonical first count l = l) (i : Nat) :
    (setBits first l).testBit i = true ↔ i + first ∈ l := by
  have bits : setBits first l = ((l.map (· - first)).map (fun i => 2 ^ i)).sum := by
    rw [setBits, List.map_map]
    rfl
  rw [bits, ← Nat.mem_bitIndices, Nat.bitIndices_sum_map_two_pow (sorted_of_canonical h), List.mem_map]
  constructor
  · rintro ⟨m, hm, rfl⟩
    rwa [Nat.sub_add_cancel (mem_of_canonical h hm).1]
  · exact fun hm => ⟨_, hm, Nat.add_sub_cancel ..⟩

theorem setBits_lt (h : canonical first count l = l) : setBits first l < 2 ^ count := by
  refine Nat.lt_pow_two_of_testBit _ fun i hi => Bool.eq_false_iff.mpr fun bit => ?_
  have := mem_of_canonical h ((testBit_setBits h i).mp bit)
  omega

/-- Part 11: a set in its one form reads back from its bits. -/
theorem bitsSet_setBits (h : canonical first count l = l) : bitsSet first count (setBits first l) = l := by
  conv_rhs => rw [← h, canonical, List.filter_map]
  refine congrArg (List.map (· + first)) (List.filter_congr fun i _ => ?_)
  rw [Bool.eq_iff_iff, testBit_setBits h, Function.comp_apply, List.contains_iff_mem]

/-- Part 11: a set read from bits is in its one form. -/
theorem canonical_bitsSet (first count v : Nat) : canonical first count (bitsSet first count v) = bitsSet first count v := by
  rw [canonical, bitsSet, List.filter_map]
  refine congrArg (List.map (· + first)) (List.filter_congr fun i hi => ?_)
  rw [Bool.eq_iff_iff, Function.comp_apply, List.contains_iff_mem]
  simp only [List.mem_map, List.mem_filter, Nat.add_right_cancel_iff, exists_eq_right]
  exact and_iff_right hi

variable {x : Option Nat} {b : Byte}

/-- A field of one byte that may be absent reads back where no value travels as absence does. -/
theorem natOpt_byte (h : ∀ v, x = some v → v < 255) : natOpt [(x.map byte).getD 0xFF#8] = x := by
  cases x with
  | none => rfl
  | some v =>
    have hv := h v rfl
    have read : (byte v).toNat = v := toNat_byte (by omega)
    have ne : byte v ≠ 0xFF#8 := fun e => by
      rw [e] at read
      simp at read
      omega
    simp [natOpt, absentBytes, ne, natOf, read]

theorem natOpt_one (b : Byte) : natOpt [b] = if b = 0xFF#8 then none else some b.toNat := by
  simp [natOpt, absentBytes, natOf]

/-- A byte is the one of the optional field that it is read as. -/
theorem byte_natOpt (b : Byte) : ((natOpt [b]).map byte).getD 0xFF#8 = b := by
  rw [natOpt_one]
  split
  · next h => exact h.symm
  · exact byte_toNat b

theorem natOpt_lt {v : Nat} (h : natOpt [b] = some v) : v < 255 := by
  have := b.isLt
  rw [natOpt_one] at h
  split at h
  · cases h
  · next ne =>
    cases h
    have : b.toNat ≠ 255 := fun e => ne (BitVec.eq_of_toNat_eq e)
    omega

/-- Part 11: what a field of one byte is read as is below the byte of absence, and a missing byte is absent too. -/
theorem optAt_one_lt {record : List Byte} {i v : Nat} (h : optAt record i 1 = some v) : v < 255 := by
  unfold optAt at h
  match record.drop i, h with
  | _ :: _, h => exact natOpt_lt h

theorem optWithin_iff {lo hi : Nat} : optWithin lo x hi = true ↔ ∀ v, x = some v → lo ≤ v ∧ v ≤ hi := by
  cases x <;> simp [optWithin, within]

/-- A field of one byte at the front is the first byte. -/
theorem numAt_head {record : List Byte} (h : record.head? = some b) : numAt record 0 1 = b.toNat := by
  obtain ⟨rest, rfl⟩ := List.head?_eq_some_iff.mp h
  simp [numAt, natOf]

end Fields

/-! ## Writes heard -/

section Writes

variable {p q : Part} {src n table : Nat} {cls least : SourceClass} {record : List Byte} {t : Table} {code : Code}

theorem free_of_hears (h : p.hears src cls = true) : p.free = true := ((Bool.and_eq_true _ _).mp h).1

/-- The part with a WRITE_RECORD from a source of a class in hand. -/
abbrev handed (p : Part) (src table n : Nat) (record : List Byte) (cls : SourceClass) : Part :=
  p.taken (.writeRecord src table n record) cls

/-- A WRITE_RECORD that passes the checks of R172 before the block's own: the table has a write class that the source
meets, and the record has the table's size. -/
structure Passes (p : Part) (src table : Nat) (cls : SourceClass) (record : List Byte) (t : Table) : Prop where
  hears : p.hears src cls = true
  named : Table.ofCode table = some t
  may : ∃ least, t.writeClass = some least ∧ least.rank ≤ cls.rank ∧ cls.rank ≠ 0
  size : record.length = recordSize t p

/-- R172, R175: a WRITE_RECORD that passes is handed to the block that owns the table, and answered with its code. -/
theorem exec_write (h : Passes p src table cls record t) (w : List Instr) :
    exec (.writeRecord src table n record) ⟨p, w⟩
      = .next ⟨reply src 2 (writeTable t n record (handed p src table n record cls)).2 []
          (writeTable t n record (handed p src table n record cls)).1, w⟩ := by
  obtain ⟨hears, named, ⟨least, asked, may, ranked⟩, size⟩ := h
  have size : record.length = recordSize t (handed p src table n record cls) := by
    rw [size]
    cases t <;> rfl
  simp only [exec, execWriteRecord, act_eq, serve_heard hears ranked]
  unfold writeWork
  simp [named, asked, ← size, SourceClass.atLeast, may]

/-- R172: a reply from a part that is free but for the request in hand. -/
theorem reply_free {i : Instr} {o : Nat} {data : List Byte} (free : q.free = true) :
    reply src o code data (q.taken i cls) = q.answered src o code data := by
  simp only [Part.free, Bool.and_eq_true, decide_eq_true_eq, Option.isNone_iff_eq_none] at free
  obtain ⟨⟨⟨⟨⟨_, inHand⟩, waiting⟩, _⟩, next⟩, room⟩ := free
  have letGo : released (q.taken i cls) = q := by
    show { q with mgmt := { q.mgmt with inHand := none } } = q
    rw [← inHand]
  rw [reply_enters (s := q.taken i cls) waiting next room, letGo]

/-- A write whose block makes `q` of the part, with the Management Unit as free as before, leaves `q` and the reply. -/
theorem writes_of_block (h : Passes p src table cls record t) (free : q.free = true)
    (ho : writeTable t n record (handed p src table n record cls) = (handed q src table n record cls, code)) :
    p.writes src table n record q code := by
  intro w
  rw [exec_write h, ho, reply_free free]

/-- A write that its block refuses leaves the part as it is. -/
theorem writes_unchanged (h : Passes p src table cls record t)
    (ho : writeTable t n record (handed p src table n record cls) = (handed p src table n record cls, code)) :
    p.writes src table n record p code := writes_of_block h (free_of_hears h.hears) ho

end Writes

/-! ## The directory (R79) -/

section Directory

variable {p : Part} {n : Nat} {record : List Byte} {e : DirEntry}

/-- Log entry 44: the code of an entry's kind. -/
def kindCode : TuneKind → Nat
  | .tune => 0
  | .phrase => 1

theorem dirBytes_valid (e : TuneEntry) : dirBytes (.valid e) =
    [byte 1, byte (kindCode e.kind), byte (e.start / 256), byte e.start,
      byte (e.length / 256), byte e.length, byte e.tempo, byte (setBits 1 e.bells / 256),
      byte (setBits 1 e.bells)] := by
  obtain ⟨kind, start, length, tempo, bells⟩ := e
  cases kind <;> simp [dirBytes, bellSetBytes, be_one, be_two, kindCode]

theorem recordSize_directory (p : Part) : recordSize .directory p = 9 := by
  have size : ∀ e, (dirBytes e).length = 9 := fun e => by
    cases e with
    | empty => rfl
    | valid e => rw [dirBytes_valid]; rfl
  exact size _

/-- TABLE 5-2: a VALID entry in range reads back from its bytes. -/
theorem parseDir_bytes {e : TuneEntry} (h : e.Legal) : parseDir (dirBytes (.valid e)) = some (.valid e) := by
  obtain ⟨start, len1, len2, inside, tempo1, tempo2, bells, canon⟩ := h
  have bits := setBits_lt canon
  have kind : (if (byte (kindCode e.kind)).toNat = 0 then TuneKind.tune else .phrase)
      = e.kind := by cases e.kind <;> rfl
  have code : (byte (kindCode e.kind)).toNat ≤ 1 := by cases e.kind <;> decide
  rw [dirBytes_valid]
  unfold parseDir
  simp only [numAt, natOf, List.drop, List.take, List.foldl, Nat.zero_mul, Nat.zero_add, List.length, kind,
    toNat_two (show e.start < 65536 by omega), toNat_two (show e.length < 65536 by omega),
    toNat_two (show setBits 1 e.bells < 65536 by omega), toNat_byte (show e.tempo < 256 by omega),
    toNat_byte (show 1 < 256 by omega), bitsSet_setBits canon]
  rw [if_neg (by omega), if_neg (by omega),
    if_pos ⟨trivial, code, start, by simp [within, len1, len2], inside, by simp [within, tempo1, tempo2], bells⟩]

/-- R79: what is read as a VALID entry is in range. -/
theorem parseDir_legal {e : TuneEntry} (h : parseDir record = some (.valid e)) : e.Legal := by
  unfold parseDir at h
  split at h
  · cases h
  split at h
  · cases h
  simp only [Option.ite_none_right_eq_some, Option.some.injEq, DirEntry.valid.injEq, within, Bool.and_eq_true,
    decide_eq_true_eq] at h
  obtain ⟨⟨_, _, start, ⟨len1, len2⟩, inside, ⟨tempo1, tempo2⟩, bells⟩, rfl⟩ := h
  exact ⟨start, len1, len2, inside, tempo1, tempo2, bells, canonical_bitsSet ..⟩

/-- Log entry 44: an entry whose first byte is 0 is EMPTY, whatever the others are. -/
theorem parseDir_empty (h : record.length = 9) (h0 : record.head? = some 0#8) : parseDir record = some .empty := by
  unfold parseDir
  rw [if_neg (by simp [h]), if_pos (show numAt record 0 1 = 0 from numAt_head h0)]

theorem writeDirectory_badIndex (h : 96 ≤ n) : writeDirectory n record p = (p, .badIndex) := if_pos h

theorem writeDirectory_badValue (hn : n < 96) (h : parseDir record = none) :
    writeDirectory n record p = (p, .badValue) := by
  unfold writeDirectory
  rw [if_neg (by omega), h]

theorem writeDirectory_ok (hn : n < 96) (h : parseDir record = some e) :
    writeDirectory n record p
      = ({ p with store.directory := bankPut p.store.directory n (stored dirBytes e) }, .ok) := by
  unfold writeDirectory
  rw [if_neg (by omega), h]

end Directory

/-! ## Steps (R81, R84) -/

section Steps

variable {p : Part} {n : Nat} {record : List Byte} {s : TuneStep} {bells : List Nat}

theorem noteBells_four (h : bells.length ≤ 4) :
    noteBells bells = bells.map byte ++ List.replicate (4 - bells.length) 0#8 := by
  rw [noteBells, List.take_append, List.take_of_length_le (by simpa using h), List.length_map, List.take_replicate,
    Nat.min_eq_left (by omega)]

theorem length_noteBells (bells : List Nat) : (noteBells bells).length = 4 := by
  simp [noteBells]

/-- TABLE 11-2: every kind of step fills seven bytes. -/
theorem recordSize_steps (p : Part) : recordSize .steps p = 7 := by
  have size : ∀ s, (stepBytes s).length = 7 := fun s => by
    cases s with
    | note bells force duration => simp [stepBytes, be_one, length_noteBells]
    | rest duration => rfl
    | call tune repeats => rfl
    | endStep => rfl
  exact size _

/-- TABLE 11-2: the bells before the first unused place are read, where only unused places follow. -/
theorem readNoteBells_padded (h : ∀ b ∈ bells, b ≠ 0) (k : Nat) :
    readNoteBells (bells ++ List.replicate k 0) = some bells := by
  have used : (bells ++ List.replicate k 0).takeWhile (· ≠ 0) = bells := by
    rw [List.takeWhile_append_of_pos (by simpa using h), List.takeWhile_replicate]
    simp
  simp only [readNoteBells, used, List.drop_left]
  simp

/-- The bells that are read stand in the places at the front. -/
theorem length_readNoteBells {places : List Nat} (h : readNoteBells places = some bells) :
    bells.length ≤ places.length := by
  unfold readNoteBells at h
  simp only [Option.ite_none_right_eq_some, Option.some.injEq] at h
  rw [← h.2]
  exact (List.takeWhile_sublist _).length_le

/-- The places of a NOTE in range read back as its bells. -/
theorem readNoteBells_noteBells (h : bells.length ≤ 4) (range : ∀ b ∈ bells, 1 ≤ b ∧ b ≤ 16) :
    readNoteBells ((noteBells bells).map BitVec.toNat) = some bells := by
  have back : (bells.map byte).map BitVec.toNat = bells := by
    rw [List.map_map]
    refine (List.map_congr_left fun b hb => ?_).trans (List.map_id bells)
    exact toNat_byte (by have := (range b hb).2; omega)
  rw [noteBells_four h, List.map_append, back, List.map_replicate]
  exact readNoteBells_padded (fun b hb => by have := (range b hb).1; omega) _

/-- TABLE 11-2: a step in range reads back from its bytes. -/
theorem parseStep_bytes (h : s.Legal) : parseStep (stepBytes s) = some s := by
  cases s with
  | note bells force duration =>
    obtain ⟨filled, len, distinct, range, f1, f7, d1, d64⟩ := h
    have read := readNoteBells_noteBells len range
    obtain ⟨a, b, c, d, places⟩ : ∃ a b c d, noteBells bells = [a, b, c, d] :=
      match noteBells bells, length_noteBells bells with
      | [a, b, c, d], _ => ⟨a, b, c, d, rfl⟩
    rw [places] at read
    rw [stepBytes, places]
    simp only [be_one, List.cons_append, List.nil_append, parseStep, numAt, natOf, List.drop, List.take, List.foldl,
      Nat.zero_mul, Nat.zero_add, toNat_byte (show 1 < 256 by omega), toNat_byte (show force < 256 by omega),
      toNat_byte (show duration < 256 by omega)]
    rw [if_neg (by simp)]
    simp only [show List.range 4 = [0, 1, 2, 3] from rfl, List.map, List.drop] at read ⊢
    simp only [read, List.take, List.foldl, Nat.zero_mul, Nat.zero_add]
    refine if_pos ⟨filled, ?_, distinct, by simp [within, f1, f7], by simp [within, d1, d64]⟩
    simpa [within] using range
  | rest duration =>
    obtain ⟨d1, d64⟩ := h
    have read : (byte duration).toNat = duration := toNat_byte (by omega)
    simp [stepBytes, parseStep, be_one, numAt, natOf, toNat_byte, read, within, d1, d64]
  | call tune repeats =>
    obtain ⟨tune95, r1, r8⟩ := h
    have tune : (byte tune).toNat = tune := toNat_byte (by omega)
    have times : (byte repeats).toNat = repeats := toNat_byte (by omega)
    simp [stepBytes, parseStep, be_one, numAt, natOf, toNat_byte, tune, times, within, tune95, r1, r8]
  | endStep => rfl

/-- R81: what is read as a step is in range. -/
theorem parseStep_legal (h : parseStep record = some s) : s.Legal := by
  unfold parseStep at h
  split at h
  · cases h
  split at h
  · split at h
    · next bells read =>
      simp only [Option.ite_none_right_eq_some, Option.some.injEq, within, Bool.and_eq_true, decide_eq_true_eq,
        List.all_eq_true] at h
      obtain ⟨⟨filled, range, distinct, ⟨f1, f7⟩, d1, d64⟩, rfl⟩ := h
      exact ⟨filled, length_readNoteBells read, distinct, range, f1, f7, d1, d64⟩
    · cases h
  · simp only [Option.ite_none_right_eq_some, Option.some.injEq, within, Bool.and_eq_true, decide_eq_true_eq] at h
    obtain ⟨⟨d1, d64⟩, rfl⟩ := h
    exact ⟨d1, d64⟩
  · simp only [Option.ite_none_right_eq_some, Option.some.injEq, within, Bool.and_eq_true, decide_eq_true_eq] at h
    obtain ⟨⟨tune95, r1, r8⟩, rfl⟩ := h
    exact ⟨tune95, r1, r8⟩
  · cases h
    trivial
  · cases h

theorem guarded_iff : p.guarded n = true
    ↔ ∃ f ∈ p.clock.voice.stack ++ p.tune.voice.stack, f.start ≤ n ∧ n < f.start + f.length := by
  simp only [Part.guarded, PhraseFrame.covers, List.any_eq_true, Bool.and_eq_true, decide_eq_true_eq]

theorem writeStep_badIndex (h : 2048 ≤ n) : writeStep n record p = (p, .badIndex) := if_pos h

theorem writeStep_badValue (hn : n < 2048) (h : parseStep record = none) : writeStep n record p = (p, .badValue) := by
  unfold writeStep
  rw [if_neg (by omega), h]

/-- R84: a step that a voice may be playing stays as it is, and the refusal is counted. -/
theorem writeStep_inUse (hn : n < 2048) (h : parseStep record = some s) (hg : p.guarded n = true) :
    writeStep n record p = ({ p with store.inUseRefusals := bump p.store.inUseRefusals }, .inUse) := by
  unfold writeStep
  rw [if_neg (by omega), h]
  exact if_pos hg

theorem writeStep_ok (hn : n < 2048) (h : parseStep record = some s) (hg : p.guarded n = false) :
    writeStep n record p = ({ p with store.steps := bankPut p.store.steps n (stored stepContents s) }, .ok) := by
  unfold writeStep
  rw [if_neg (by omega), h]
  exact if_neg (Bool.eq_false_iff.mp hg)

end Steps

/-! ## Chime sets (R83) -/

section Chimes

variable {p : Part} {n : Nat} {record : List Byte} {c : ChimeSet}

theorem chimeBytes_eq (c : ChimeSet) : chimeBytes c =
    [byte c.first, byte c.second, byte c.third, byte c.fourth, byte c.hourBell, (c.altBell.map byte).getD 0xFF#8,
      byte c.blowForce, byte (c.blowInterval / 256), byte c.blowInterval, byte (c.pause / 256), byte c.pause] := by
  simp [chimeBytes, be_one, be_two, beOpt_one]

theorem recordSize_chimes (p : Part) : recordSize .chimes p = 11 := by
  simp [recordSize, writtenBytes, chimeBytes_eq]

/-- TABLE 5-4: the fields that the eleven bytes of a chime set spell. -/
theorem parseChime_eleven (a b d e f g h i j k l : Byte) :
    parseChime [a, b, d, e, f, g, h, i, j, k, l] = some c ↔
      c = { first := a.toNat, second := b.toNat, third := d.toNat, fourth := e.toNat, hourBell := f.toNat
            altBell := natOpt [g], blowForce := h.toNat, blowInterval := i.toNat * 256 + j.toNat
            pause := k.toNat * 256 + l.toNat } ∧ c.Legal := by
  unfold parseChime
  simp only [numAt, optAt, natOf, List.drop, List.take, List.foldl, Nat.zero_mul, Nat.zero_add, List.length,
    within, optWithin_iff, Bool.and_eq_true, decide_eq_true_eq, true_and, Option.ite_none_right_eq_some,
    Option.some.injEq]
  constructor
  · rintro ⟨⟨h1, h2, h3, h4, ⟨b1, b16⟩, alt, other, ⟨f1, f7⟩, ⟨i1, i2⟩, pause⟩, rfl⟩
    exact ⟨rfl, h1, h2, h3, h4, b1, b16, alt, other, f1, f7, i1, i2, pause⟩
  · rintro ⟨rfl, h1, h2, h3, h4, b1, b16, alt, other, f1, f7, i1, i2, pause⟩
    exact ⟨⟨h1, h2, h3, h4, ⟨b1, b16⟩, alt, other, ⟨f1, f7⟩, ⟨i1, i2⟩, pause⟩, rfl⟩

/-- TABLE 5-4: a chime set is read exactly from the bytes of one in range. -/
theorem parseChime_iff (record : List Byte) (c : ChimeSet) :
    parseChime record = some c ↔ record = chimeBytes c ∧ c.Legal := by
  constructor
  · intro h
    have size : record.length = 11 := by
      unfold parseChime at h
      simp only [Option.ite_none_right_eq_some] at h
      exact h.1.1
    match record, size with
    | [_, _, _, _, _, _, _, _, _, _, _], _ =>
      obtain ⟨rfl, legal⟩ := (parseChime_eleven ..).mp h
      refine ⟨?_, legal⟩
      rw [chimeBytes_eq]
      simp only [byte_toNat, byte_natOpt, byte_two]
  · rintro ⟨rfl, legal⟩
    rw [chimeBytes_eq, parseChime_eleven]
    refine ⟨?_, legal⟩
    obtain ⟨_, _, _, _, _, _, alt, _, _, _, _, _, _⟩ := legal
    rw [natOpt_byte fun v hv => by have := (alt v hv).2; omega, toNat_two (by omega), toNat_two (by omega),
      toNat_byte (by omega), toNat_byte (by omega), toNat_byte (by omega), toNat_byte (by omega),
      toNat_byte (by omega), toNat_byte (by omega)]

theorem writeChimeSet_badIndex (h : 4 ≤ n) : writeChimeSet n record p = (p, .badIndex) := if_pos h

theorem writeChimeSet_badValue (hn : n < 4) (h : parseChime record = none) :
    writeChimeSet n record p = (p, .badValue) := by
  unfold writeChimeSet
  rw [if_neg (by omega), h]

theorem writeChimeSet_ok (hn : n < 4) (h : parseChime record = some c) :
    writeChimeSet n record p
      = ({ p with store.chimes := bankPut p.store.chimes n (stored chimeBytes c) }, .ok) := by
  unfold writeChimeSet
  rw [if_neg (by omega), h]

end Chimes

/-! ## Route entries (R161) -/

section Routes

variable {p : Part} {n : Nat} {record : List Byte} {e : RouteEntry}

/-- Log entry 44: the code of an entry's port. -/
def portCode : Port → Nat
  | .console => 0
  | .field => 1

theorem routeBytes_some (m : RouteMatch) : routeBytes (some m) =
    [byte 1, byte (portCode m.port), (m.kind.map byte).getD 0xFF#8,
      (m.dest.map byte).getD 0xFF#8, (m.src.map byte).getD 0xFF#8, byte m.action.code] := by
  obtain ⟨port, kind, dest, src, action⟩ := m
  cases port <;> simp [routeBytes, be_one, beOpt_one, portCode]

theorem recordSize_routes (p : Part) : recordSize .routes p = 6 := by
  have size : ∀ e, (routeBytes e).length = 6 := fun e => by
    cases e with
    | none => rfl
    | some m => rw [routeBytes_some]; rfl
  exact size _

theorem ofCode_routeAction (a : RouteAction) : RouteAction.ofCode (byte a.code).toNat = some a := by
  cases a <;> rfl

/-- TABLE 10-3: a VALID entry in range reads back from its bytes. -/
theorem parseRoute_bytes {m : RouteMatch} (h : m.Legal) : parseRoute (routeBytes (some m)) = some (some m) := by
  obtain ⟨kind, dest, src, bellCheck⟩ := h
  have port : (if (byte (portCode m.port)).toNat = 0 then Port.console else .field)
      = m.port := by cases m.port <;> rfl
  have code : (byte (portCode m.port)).toNat ≤ 1 := by cases m.port <;> decide
  rw [routeBytes_some]
  unfold parseRoute
  simp only [numAt, optAt, natOf, List.drop, List.take, List.foldl, Nat.zero_mul, Nat.zero_add, List.length, port,
    ofCode_routeAction, natOpt_byte kind, natOpt_byte fun v hv => lt_of_le_of_lt (dest v hv) (by omega : 62 < 255),
    natOpt_byte fun v hv => lt_of_le_of_lt (src v hv).2 (by omega : 62 < 255), toNat_byte (show 1 < 256 by omega)]
  rw [if_neg (by omega), if_neg (by omega),
    if_pos ⟨trivial, code, optWithin_iff.mpr fun v hv => ⟨Nat.zero_le v, dest v hv⟩, optWithin_iff.mpr src, bellCheck⟩]

/-- R161: what is read as a VALID entry is in range. -/
theorem parseRoute_legal {m : RouteMatch} (h : parseRoute record = some (some m)) : m.Legal := by
  unfold parseRoute at h
  split at h
  · cases h
  split at h
  · cases h
  split at h
  · simp only [Option.ite_none_right_eq_some, Option.some.injEq, optWithin_iff] at h
    obtain ⟨⟨_, _, dest, src, bellCheck⟩, rfl⟩ := h
    exact ⟨fun k hk => optAt_one_lt hk, fun d hd => (dest d hd).2, src, bellCheck⟩
  · cases h

/-- Log entry 44: an entry whose first byte is 0 is EMPTY, whatever the others are. -/
theorem parseRoute_empty (h : record.length = 6) (h0 : record.head? = some 0#8) : parseRoute record = some none := by
  unfold parseRoute
  rw [if_neg (by simp [h]), if_pos (show numAt record 0 1 = 0 from numAt_head h0)]

theorem writeRoute_badIndex (h : 32 ≤ n) : writeRoute n record p = (p, .badIndex) := if_pos h

theorem writeRoute_badValue (hn : n < 32) (h : parseRoute record = none) : writeRoute n record p = (p, .badValue) := by
  unfold writeRoute
  rw [if_neg (by omega), h]

/-- R161: an entry that is written stands again, whether it had failed its check or not. -/
theorem writeRoute_ok (hn : n < 32) (h : parseRoute record = some e) :
    writeRoute n record p = ({ p with
      line.routes := bankPut p.line.routes n (stored routeBytes e)
      line.failedRoutes := p.line.failedRoutes.filter (fun k => k ≠ n) }, .ok) := by
  unfold writeRoute
  rw [if_neg (by omega), h]

end Routes

/-! ## The source table (R173) -/

section Sources

variable {p : Part} {n : Nat} {b : Byte} {c : SourceClass}

theorem recordSize_sources (p : Part) : recordSize .sources p = 1 := rfl

theorem parseSourceClass_one (b : Byte) : parseSourceClass [b] = SourceClass.ofCode b.toNat := by
  simp [parseSourceClass, numAt, natOf]

theorem parseSourceClass_none (h : 4 < b.toNat) : parseSourceClass [b] = none := by
  obtain ⟨k, hk⟩ : ∃ k, b.toNat = k + 5 := ⟨b.toNat - 5, by omega⟩
  rw [parseSourceClass_one, hk]
  rfl

/-- Log entry 44: the codes of the five classes. -/
theorem parseSourceClass_some (h : b = 0 ∧ c = .noClass ∨ b = 1 ∧ c = .console ∨ b = 2 ∧ c = .operator
    ∨ b = 3 ∧ c = .service ∨ b = 4 ∧ c = .time) : parseSourceClass [b] = some c := by
  rw [parseSourceClass_one]
  rcases h with ⟨rfl, rfl⟩ | ⟨rfl, rfl⟩ | ⟨rfl, rfl⟩ | ⟨rfl, rfl⟩ | ⟨rfl, rfl⟩ <;> rfl

/-- R86: a record with a value that passes its check is the one stored with it. -/
theorem stored_iff {α : Type} {contents : α → List Byte} {r : Checked α} {v : α} :
    checkHolds contents r = true ∧ r.val = v ↔ r = stored contents v := by
  constructor
  · rintro ⟨holds, rfl⟩
    rw [checkHolds, decide_eq_true_eq] at holds
    rw [stored, holds]
  · rintro rfl
    exact ⟨checkHolds_stored contents v, rfl⟩

/-- R173: some record is of class SERVICE, one that fails its check being none. -/
theorem someService_iff : someService p = true ↔ ∃ m, p.classIs m .service = true := by
  have range : ∀ m, m ∈ oneTo 62 ↔ 1 ≤ m ∧ m ≤ 62 := fun m => by
    simp only [oneTo, List.mem_map, List.mem_range]
    exact ⟨by omega, fun h => ⟨m - 1, by omega, by omega⟩⟩
  simp only [someService, List.any_eq_true, Part.classIs, Bool.and_eq_true, decide_eq_true_eq, range, and_assoc,
    stored_iff]

theorem writeSource_badIndex {record : List Byte} (h : n = 0 ∨ 62 < n) :
    writeSource n record p = (p, .badIndex) := by
  unfold writeSource
  rw [if_pos (by simp [within]; omega)]

theorem writeSource_badValue (hn : 1 ≤ n ∧ n ≤ 62) (h : 4 < b.toNat) : writeSource n [b] p = (p, .badValue) := by
  unfold writeSource
  rw [if_neg (by simp [within, hn]), parseSourceClass_none h]

/-- R173: the part with a source record written. -/
def sourced (n : Nat) (c : SourceClass) (p : Part) : Part :=
  { p with
    mgmt.sources := bankPut1 p.mgmt.sources n (stored sourceClassBytes c)
    mgmt.failedSources := p.mgmt.failedSources.filter (fun k => k ≠ n) }

theorem writeSource_class (hn : 1 ≤ n ∧ n ≤ 62) (h : parseSourceClass [b] = some c) :
    writeSource n [b] p = if someService (sourced n c p) then (sourced n c p, .ok) else (p, .inUse) := by
  unfold writeSource
  rw [if_neg (by simp [within, hn]), h]
  rfl

end Sources

/-! ## The part configuration (R174) -/

section PartConfig

variable {p : Part} {src n : Nat} {cls : SourceClass} {a m : Byte}

theorem recordSize_partConfig (p : Part) : recordSize .partConfig p = 2 := rfl

theorem parsePartConfig_two (a m : Byte) : parsePartConfig [a, m]
    = if (1 ≤ a.toNat ∧ a.toNat ≤ 62) ∧ m.toNat ≤ 62 then some (a.toNat, m.toNat) else none := by
  simp [parsePartConfig, numAt, natOf, within]

theorem writePartConfig_badIndex {record : List Byte} (h : n ≠ 0) : writePartConfig n record p = (p, .badIndex) :=
  if_pos h

theorem writePartConfig_badValue (h : a.toNat = 0 ∨ 62 < a.toNat ∨ 62 < m.toNat) :
    writePartConfig 0 [a, m] p = (p, .badValue) := by
  unfold writePartConfig
  rw [if_neg (by simp), parsePartConfig_two, if_neg (by omega)]

theorem writePartConfig_ok (ha : 1 ≤ a.toNat ∧ a.toNat ≤ 62) (hm : m.toNat ≤ 62) :
    writePartConfig 0 [a, m] p
      = ({ p with mgmt.nextAddress := some a.toNat, mgmt.noticeNode := m.toNat }, .ok) := by
  unfold writePartConfig
  rw [if_neg (by simp), parsePartConfig_two, if_pos ⟨ha, hm⟩]

/-- R172, R174: the reply to a new address carries the old one, and the new one stands from then on. -/
theorem reply_readdressed {i : Instr} {next node : Nat} (h : p.hears src cls = true) :
    reply src 2 .ok [] { p.taken i cls with mgmt.nextAddress := some next, mgmt.noticeNode := node }
      = { p.answered src 2 .ok [] with mgmt.address := next, mgmt.noticeNode := node } := by
  obtain ⟨_, inHand, waiting, _, noNext, room⟩ := hears_free h
  obtain ⟨osc, time, dd, bg, se, st, cl, tu, la, bu, ca, li, mg, re⟩ := p
  obtain ⟨m1, m2, m3, m4, m5, m6, m7, m8, m9, m10, m11, m12⟩ := mg
  simp only at inHand waiting noNext room
  subst inHand waiting noNext
  unfold reply offerReply
  exact if_pos room

end PartConfig

/-- Settles O56: each table's bytes read back as the records in range; a refusal leaves the part or counts itself, and a
record accepted is stored with its check value. -/
theorem storeAndLineWritten : Obligations.StoreAndLineWritten := by
  unfold Obligations.StoreAndLineWritten
  intro p src n cls record hh hr
  have free := free_of_hears hh
  have passes {table : Nat} {t : Table} {least : SourceClass} (named : Table.ofCode table = some t)
      (asked : t.writeClass = some least) (may : least.rank ≤ cls.rank) (size : record.length = recordSize t p) :
      Passes p src table cls record t := ⟨hh, named, ⟨least, asked, may, by omega⟩, size⟩
  refine ⟨fun e => ⟨parseDir_bytes, parseDir_legal⟩, parseDir_empty, fun h9 => ?_,
    fun s => ⟨parseStep_bytes, parseStep_legal⟩, fun h7 => ?_, parseChime_iff record, fun h11 => ?_,
    fun m => ⟨parseRoute_bytes, parseRoute_legal⟩, parseRoute_empty, fun service => ⟨fun h6 => ?_, fun b hb => ?_,
      fun a m ham => ?_⟩⟩
  · have ok := passes (t := .directory) (table := 11) rfl rfl hr (h9.trans (recordSize_directory p).symm)
    exact ⟨fun hn => writes_unchanged ok (writeDirectory_badIndex hn),
      fun hn hp => writes_unchanged ok (writeDirectory_badValue hn hp),
      fun e hn hp => writes_of_block ok free (writeDirectory_ok hn hp)⟩
  · have ok := passes (t := .steps) (table := 12) rfl rfl hr (h7.trans (recordSize_steps p).symm)
    refine ⟨fun hn => writes_unchanged ok (writeStep_badIndex hn),
      fun hn hp => writes_unchanged ok (writeStep_badValue hn hp), fun s hn hp => ⟨fun played => ?_, fun clear => ?_⟩⟩
    · exact writes_of_block ok free (writeStep_inUse hn hp (guarded_iff.mpr played))
    · refine writes_of_block ok free (writeStep_ok hn hp (Bool.eq_false_iff.mpr fun k => ?_))
      obtain ⟨f, hf, h1, h2⟩ := guarded_iff.mp k
      have := clear f hf
      omega
  · have ok := passes (t := .chimes) (table := 13) rfl rfl hr (h11.trans (recordSize_chimes p).symm)
    exact ⟨fun hn => writes_unchanged ok (writeChimeSet_badIndex hn),
      fun hn hp => writes_unchanged ok (writeChimeSet_badValue hn hp),
      fun c hn hp => writes_of_block ok free (writeChimeSet_ok hn hp)⟩
  all_goals subst service
  · have ok := passes (t := .routes) (table := 25) rfl rfl (Nat.le_refl _) (h6.trans (recordSize_routes p).symm)
    exact ⟨fun hn => writes_unchanged ok (writeRoute_badIndex hn),
      fun hn hp => writes_unchanged ok (writeRoute_badValue hn hp),
      fun e hn hp => writes_of_block ok free (writeRoute_ok hn hp)⟩
  · subst hb
    have ok := passes (t := .sources) (table := 2) rfl rfl (Nat.le_refl _) (recordSize_sources p).symm
    refine ⟨fun hn => writes_unchanged ok (writeSource_badIndex hn),
      fun h1 h62 h4 => writes_unchanged ok (writeSource_badValue ⟨h1, h62⟩ h4), fun c q h1 h62 hc hq => ?_⟩
    have looks := writeSource_class (p := handed p src 2 n [b] .service) ⟨h1, h62⟩ (parseSourceClass_some hc)
    have handedOn : sourced n c (handed p src 2 n [b] .service) = handed q src 2 n [b] .service := by rw [hq]; rfl
    have same : someService (handed q src 2 n [b] .service) = someService q := rfl
    rw [handedOn, same] at looks
    refine ⟨fun gone => ?_, fun stands => ?_⟩
    · refine writes_unchanged ok (looks.trans (if_neg fun k => ?_))
      obtain ⟨m, hm⟩ := someService_iff.mp k
      rw [gone m] at hm
      cases hm
    · exact writes_of_block ok (by rw [hq]; exact free) (looks.trans (if_pos (someService_iff.mpr stands)))
  · subst ham
    have ok := passes (t := .partConfig) (table := 1) rfl rfl (Nat.le_refl _) (recordSize_partConfig p).symm
    refine ⟨fun hn => writes_unchanged ok (writePartConfig_badIndex hn), fun hn h => ?_, fun hn h1 h62 hm w => ?_⟩
    · subst hn
      exact writes_unchanged ok (writePartConfig_badValue h)
    · subst hn
      rw [exec_write ok, show writeTable .partConfig 0 [a, m] _ = _ from writePartConfig_ok ⟨h1, h62⟩ hm,
        reply_readdressed hh]

end Sys2Proof.Machine.Store



/-! SUPPORT. The voices' claims, reads, records, steps, requests and quarters (R54, R95 to R98, R105 to R112), and the
obligations about OMIT_NEXT, about tunes that start and stop, and about a QUARTER. -/

namespace Sys2Proof.Machine.Voices

open Dials Bells

section Claims

variable {p q : Part} {v : VoiceId} {l : List Nat} {b : Nat}

/-- R54: a bell's record with the claim of a voice entered. -/
def claimedFor (v : VoiceId) (x : Bell) : Bell :=
  match v with
  | .clock => { x with claims := { x.claims with clock := true } }
  | .tune => { x with claims := { x.claims with tune := true } }

theorem claimedFor_claimedFor (v : VoiceId) (x : Bell) : claimedFor v (claimedFor v x) = claimedFor v x := by
  cases v <;> rfl

theorem setVoiceClaim_true (v : VoiceId) (p : Part) (b : Nat) :
    setVoiceClaim v true p b = p.putBell b (claimedFor v (p.bell b)) := by
  cases v <;> rfl

/-- R54: claims that enter touch the bells alone. -/
theorem enterClaims_guard (v : VoiceId) (l : List Nat) (p : Part) :
    ∃ g, enterClaims v l p = { p with bellGuard := g } := by
  induction l generalizing p with
  | nil => exact ⟨_, rfl⟩
  | cons b l ih =>
    obtain ⟨g, hg⟩ := ih (setVoiceClaim v true p b)
    exact ⟨g, hg.trans (by rw [setVoiceClaim_true]; rfl)⟩

theorem enterClaims_bell (hb : 1 ≤ b ∧ b ≤ 16) :
    (enterClaims v l p).bell b = if b ∈ l then claimedFor v (p.bell b) else p.bell b := by
  induction l generalizing p with
  | nil => simp [enterClaims]
  | cons c l ih =>
    have step : (enterClaims v (c :: l) p).bell b = (enterClaims v l (setVoiceClaim v true p c)).bell b := rfl
    rw [step, ih, setVoiceClaim_true]
    by_cases hc : b = c
    · subst hc
      simp [bell_putBell_self _ _ _ hb, claimedFor_claimedFor]
    · simp [bell_putBell_ne _ _ _ _ hc, hc]

end Claims

/-! ## Reads -/

section Reads

variable {p q : Part} {n : Nat}

/-- R80, R87: a directory entry that is read as it is, is read so from any part with the same directory. -/
theorem readDirectory_of_eq {e : DirEntry} (h : q.store.directory = p.store.directory)
    (hr : readDirectory n p = (p, some e)) : readDirectory n q = (q, some e) := by
  unfold readDirectory at hr ⊢
  rw [h]
  dsimp only at hr ⊢
  split <;> rename_i found
  · simp only [found, Prod.mk.injEq, true_and] at hr ⊢
    exact hr
  · simp only [found] at hr
    split <;> rename_i holds
    · simp only [holds, if_true, Prod.mk.injEq, true_and] at hr ⊢
      exact hr
    · simp [holds] at hr

theorem readTune_valid {e : TuneEntry} (h : q.store.directory = p.store.directory)
    (hr : readDirectory n p = (p, some (.valid e))) : readTune n q = (q, some e) := by
  simp only [readTune, readDirectory_of_eq h hr]

theorem readTune_empty (h : q.store.directory = p.store.directory)
    (hr : readDirectory n p = (p, some .empty)) : readTune n q = (q, none) := by
  simp only [readTune, readDirectory_of_eq h hr]

/-- R82: a step that is stored and passes its check is read as it is. -/
theorem readStep_stepIs {c : TuneStep} (h : p.stepIs n c) : readStep n p = (p, some c) := by
  have holds : checkHolds stepContents (bankGet p.store.steps n (stored stepContents TuneStep.endStep)) = true := by
    rw [h]
    exact checkHolds_stored _ _
  rw [readStep_holds holds, h]
  rfl

end Reads

/-! ## The records of the voices -/

/-- R96: the due instant, written out. -/
theorem dueTick_eq (s l n : Nat) : dueTick s l n = s + (n * l * 1024 + 999999) / 1000000 := rfl

section Records

variable {p q r : Part} {v : VoiceId} {x : Voice} {f : PhraseFrame} {rest : List PhraseFrame}

@[simp] theorem putVoice_putVoice (p : Part) (v : VoiceId) (x y : Voice) :
    (p.putVoice v x).putVoice v y = p.putVoice v y := by cases v <;> rfl

@[simp] theorem putVoice_voice (p : Part) (v : VoiceId) : p.putVoice v (p.voice v) = p := by cases v <;> rfl

/-- R96, R98: a voice's record when the step at its cursor has been taken, and lasts `d` pulses. -/
abbrev afterStep (x : Voice) (f : PhraseFrame) (rest : List PhraseFrame) (d : Nat) : Voice :=
  { x with stack := { f with cursor := f.cursor + 1 } :: rest, pulses := x.pulses + d }

/-- A voice sounds a tune or a chime. -/
def sounding (p : Part) : VoiceId → Prop
  | .clock => p.clock.state = .chiming
  | .tune => p.tune.state = .playing

theorem playing_iff : p.playing v f rest ↔ sounding p v ∧ (p.voice v).stack = f :: rest ∧ f.cursor < f.length := by
  cases v <;> rfl

theorem due_iff {t : Nat} :
    x.due = some t ↔ ∃ s l, x.start = some s ∧ x.pulse = some l ∧ dueTick s l x.pulses = t := by
  unfold Voice.due
  cases x.start <;> cases x.pulse <;> simp

/-- R96: when a voice is due. -/
theorem voiceDue_iff : p.voiceDue v = true ↔ ∃ s l, (p.voice v).start = some s ∧ (p.voice v).pulse = some l
    ∧ dueTick s l (p.voice v).pulses ≤ p.osc := by
  unfold Part.voiceDue
  simp only [Option.any_eq_true, due_iff, decide_eq_true_eq]
  exact ⟨fun ⟨t, ⟨s, l, hs, hl, ht⟩, due⟩ => ⟨s, l, hs, hl, ht ▸ due⟩,
    fun ⟨s, l, hs, hl, due⟩ => ⟨_, ⟨s, l, hs, hl, rfl⟩, due⟩⟩

theorem exec_voiceDueInstant (w : List Instr) (hs : p.retention.supply = true) :
    exec (.voiceDueInstant v) ⟨p, w⟩ = .next ⟨duePart v p, w⟩ := by
  simp [exec, execVoiceDueInstant, hs]

theorem duePart_waits (h : p.voiceDue v = false) : duePart v p = p := by
  simp [duePart, h]

theorem duePart_silent (h : (v = .clock ∧ p.clock.state ≠ .chiming) ∨ (v = .tune ∧ p.tune.state = .idle)) :
    duePart v p = p := by
  unfold duePart tuneDue
  rcases h with ⟨rfl, h⟩ | ⟨rfl, h⟩ <;> simp [h]

theorem duePart_sounding (h : p.voiceDue v = true) (hs : sounding p v) : duePart v p = playVoice v p := by
  unfold duePart tuneDue
  cases v <;> simp only [sounding] at hs <;> simp [h, hs]

end Records

/-! ## Steps -/

section Steps

variable {p q r : Part} {v : VoiceId} {f : PhraseFrame} {rest : List PhraseFrame} {k d : Nat}

theorem takeSteps_rest (hs : (p.voice v).stack = f :: rest) (hc : f.cursor < f.length)
    (step : p.stepIs (f.start + f.cursor) (.rest d)) :
    takeSteps (k + 1) v p = (p.putVoice v (afterStep (p.voice v) f rest d), .waits) := by
  simp only [takeSteps, hs, if_neg (Nat.not_le.mpr hc), readStep_stepIs step, setStack, addPulses,
    voice_putVoice_self, putVoice_putVoice]

theorem takeSteps_note {bells : List Nat} {force : Nat} (hs : (p.voice v).stack = f :: rest)
    (hc : f.cursor < f.length) (step : p.stepIs (f.start + f.cursor) (.note bells force d)) :
    takeSteps (k + 1) v p
      = (playNote v bells force (p.putVoice v (afterStep (p.voice v) f rest d)), .waits) := by
  simp only [takeSteps, hs, if_neg (Nat.not_le.mpr hc), readStep_stepIs step, setStack, addPulses,
    voice_putVoice_self, putVoice_putVoice]

/-- R100: at the end of its extent a frame starts again or is popped, and steps go on. -/
theorem takeSteps_over (hs : (p.voice v).stack = f :: rest) (atEnd : p.frameOver f) :
    takeSteps (k + 1) v p = takeSteps k v (setStack v (frameEnd f rest) p) := by
  rcases atEnd with hc | ⟨hc, step⟩
  · simp only [takeSteps, hs, if_pos hc]
  · simp only [takeSteps, hs, if_neg (Nat.not_le.mpr hc), readStep_stepIs step]

theorem takeSteps_ended (hs : (p.voice v).stack = []) : takeSteps (k + 1) v p = (p, .ended) := by
  simp only [takeSteps, hs]

/-- Two steps' worth of the bound of R98 (log entry 32). -/
theorem stepBound_eq : ∃ k, Config.stepBound = k + 2 := 
  ⟨1125899906842622, by unfold Config.stepBound; omega⟩

/-- R98: a voice whose steps end in a NOTE or a REST waits for its next due instant. -/
theorem playVoice_waits (h : ∀ k, takeSteps (k + 2) v p = (q, .waits)) : playVoice v p = q := by
  obtain ⟨k, hk⟩ := stepBound_eq
  simp only [playVoice, hk, h]

theorem playVoice_rest (hs : (p.voice v).stack = f :: rest) (hc : f.cursor < f.length)
    (step : p.stepIs (f.start + f.cursor) (.rest d)) :
    playVoice v p = p.putVoice v (afterStep (p.voice v) f rest d) :=
  playVoice_waits fun _ => takeSteps_rest hs hc step

end Steps

/-! ## Requests of the voices -/

section Requests

variable {p : Part} {src t k n d : Nat} {e : TuneEntry} {code : Code}

/-- R111: the checks of START_TUNE ahead of the read of the entry, in their order. -/
def startCheck (t k : Nat) (p : Part) : Code :=
  if p.mgmt.partState = .safe then .safeState else if p.tune.state ≠ .idle then .busy
    else if 0 < p.cal.quietTunes then .wrongState
    else if 95 < t ∨ k = 0 ∨ 8 < k then .badValue else .ok

/-- R111: a start refused is counted. -/
abbrev startRefused (p : Part) : Part := { p with tune.startsRefused := bump p.tune.startsRefused }

theorem startTune_checked (h : startCheck t k p ≠ .ok) :
    startTune t k p = (startRefused p, startCheck t k p) := by
  unfold startCheck at h ⊢
  unfold startTune
  have range : (95 < t ∨ k = 0 ∨ 8 < k) ↔ ¬ (t ≤ 95 ∧ within 1 k 8 = true) := by
    simp only [within, Bool.and_eq_true, decide_eq_true_eq]
    omega
  simp only [range] at h ⊢
  split_ifs at h ⊢ <;> first | rfl | exact absurd rfl h

theorem startTune_unfit (h : startCheck t k p = .ok)
    (hr : readTune t p = (p, none) ∨ ∃ e, readTune t p = (p, some e) ∧ e.kind ≠ .tune) :
    startTune t k p = (startRefused p, .badValue) := by
  unfold startCheck at h
  split_ifs at h with h1 h2 h3 h4
  have range : t ≤ 95 ∧ within 1 k 8 = true := by
    simp only [within, Bool.and_eq_true, decide_eq_true_eq]
    omega
  unfold startTune
  rcases hr with hr | ⟨e, hr, kind⟩
  · simp [h1, h2, h3, range, hr]
  · simp [h1, h2, h3, range, hr, kind]

/-- R95: the pulse length of a tempo, written out. -/
theorem pulseLength_eq (tempo : Nat) : pulseLength tempo = (15000000 + tempo) / (2 * tempo) := rfl

/-- R95, R97: a voice's record once it has begun a tune and taken a first step, a REST. -/
abbrev begun (x : Voice) (t : Nat) (e : TuneEntry) (repeats now d : Nat) : Voice :=
  { x with
    start := some now, tempo := some e.tempo, pulse := some ((15000000 + e.tempo) / (2 * e.tempo)), pulses := d
    declared := some e.bells
    stack := [{ tune := t, start := e.start, length := e.length, cursor := 1, repeats := repeats }] }

theorem playVoice_begun {v : VoiceId} {x : Voice} (hv : p.voice v = x.begin t e k n) (hl : 0 < e.length)
    (step : p.stepIs e.start (.rest d)) : playVoice v p = p.putVoice v (begun x t e k n d) := by
  rw [playVoice_rest (f := { tune := t, start := e.start, length := e.length, cursor := 0, repeats := k }) (rest := [])
    (by rw [hv]; rfl) hl step, hv]
  simp only [Voice.begin, pulseLength_eq, afterStep, Nat.zero_add]

/-- R111: a tune starts: its bells are claimed and its first step, here a REST, is taken. -/
theorem startTune_taken (h : startCheck t k p = .ok) (hr : readTune t p = (p, some e)) (kind : e.kind = .tune)
    (hl : 0 < e.length) (step : p.stepIs e.start (.rest d)) :
    startTune t k p = ({ enterClaims .tune e.bells p with
      tune := { p.tune with
        state := .playing, starts := bump p.tune.starts, inHand := some (t, k)
        voice := { begun p.tune.voice t e k p.osc d with claimed := e.bells } } }, .ok) := by
  unfold startCheck at h
  split_ifs at h with h1 h2 h3 h4
  have range : t ≤ 95 ∧ within 1 k 8 = true := by
    simp only [within, Bool.and_eq_true, decide_eq_true_eq]
    omega
  obtain ⟨g, guard⟩ := enterClaims_guard .tune e.bells p
  unfold startTune
  simp only [if_neg h1, if_neg h2, if_neg h3, range, not_true_eq_false, and_self, if_false, hr, kind, if_true, guard]
  exact congrArg (·, Code.ok)
    (playVoice_begun (v := .tune) (x := { p.tune.voice with claimed := e.bells }) (n := p.osc) rfl hl step)

end Requests

/-! ## Tunes that start and stop -/

section Tunes

variable {p : Part} {src t k d : Nat} {cls : SourceClass} {e : TuneEntry} {i : Instr} {op : Part → Part × Code}

/-- R172: a request that a CONSOLE source may make does its operation and is answered with the code of it. -/
theorem serveSimple_console (h : p.hears src cls = true) (hc : cls.rank ≠ 0) :
    serveSimple i src .console op p
      = reply src (operationOf i) (op (p.taken i cls)).2 [] (op (p.taken i cls)).1 :=
  serveSimple_heard h hc (Nat.one_le_iff_ne_zero.mpr hc)

theorem exec_startTune (w : List Instr) : exec (.startTune src t k) ⟨p, w⟩
    = .next ⟨serveSimple (.startTune src t k) src .console (startTune t k) p, w⟩ := rfl

theorem exec_stopTune (w : List Instr) : exec (.stopTune src) ⟨p, w⟩
    = .next ⟨serveSimple (.stopTune src) src .console stopTune p, w⟩ := rfl

theorem exec_omitNext (w : List Instr) : exec (.omitNext src) ⟨p, w⟩
    = .next ⟨serveSimple (.omitNext src) src .console (fun p => ({ p with clock.omitNext := true }, .ok)) p, w⟩ := rfl

/-- R111: a START_TUNE that is refused is counted and answered with the refusal. -/
theorem exec_startTune_refused {code : Code} (h : p.hears src cls = true) (hc : cls.rank ≠ 0)
    (ho : startTune t k (p.taken (.startTune src t k) cls) = (startRefused (p.taken (.startTune src t k) cls), code))
    (w : List Instr) :
    exec (.startTune src t k) ⟨p, w⟩ = .next ⟨(startRefused p).answered src 30 code [], w⟩ := by
  rw [exec_startTune, serveSimple_console h hc, ho]
  exact congrArg (fun q => Host.Outcome.next (State.mk q w)) (reply_taken (p := startRefused p) h)

/-- R111: a tune that starts touches the bells and the tune voice alone. -/
theorem tuneStarted_same (p : Part) (l : List Nat) (x : TuneVoice) :
    p.sameBut { enterClaims .tune l p with tune := x } [.bellGuard, .tune] := by
  obtain ⟨g, guard⟩ := enterClaims_guard .tune l p
  rw [guard]
  simp

/-- R111: a START_TUNE that is taken is answered, and leaves what the tune's start leaves. -/
theorem exec_startTune_taken (h : p.hears src cls = true) (hc : cls.rank ≠ 0) (check : startCheck t k p = .ok)
    (hr : readDirectory t p = (p, some (.valid e))) (kind : e.kind = .tune) (hl : 0 < e.length)
    (step : p.stepIs e.start (.rest d)) (w : List Instr) :
    ∃ q : Part, exec (.startTune src t k) ⟨p, w⟩ = .next ⟨q.answered src 30 .ok [], w⟩
      ∧ q.tune = { p.tune with
          state := .playing, starts := bump p.tune.starts, inHand := some (t, k)
          voice := { begun p.tune.voice t e k p.osc d with claimed := e.bells } }
      ∧ (∀ b, 1 ≤ b → b ≤ 16 → q.bell b = if b ∈ e.bells then claimedFor .tune (p.bell b) else p.bell b)
      ∧ p.sameBut q [.bellGuard, .tune] := by
  have takes := startTune_taken (p := p.taken (.startTune src t k) cls) check
    (readTune_valid (p := p) rfl hr) kind hl step
  have started := tuneStarted_same (p.taken (.startTune src t k) cls) e.bells
  generalize hs : ({ enterClaims .tune e.bells (p.taken (.startTune src t k) cls) with
    tune := { p.tune with
      state := .playing, starts := bump p.tune.starts, inHand := some (t, k)
      voice := { begun p.tune.voice t e k p.osc d with claimed := e.bells } } } : Part) = s
  have same : (p.taken (.startTune src t k) cls).sameBut s [.bellGuard, .tune] := hs ▸ started _
  have room : s.line.upQ.length < 16 := by
    obtain ⟨_, _, _, _, _, room⟩ := hears_free h
    rwa [(same .up (by decide)).1]
  obtain ⟨answered, kept⟩ := reply_done (n := src) (o := 30) (code := .ok) (data := []) h same (by decide) room
  refine ⟨released s, ?_, by rw [← hs]; rfl, fun b h1 h16 => ?_, kept⟩
  · rw [exec_startTune, serveSimple_console h hc, takes, ← answered, ← hs]
    rfl
  · rw [← hs]
    exact enterClaims_bell ⟨h1, h16⟩

/-- R112: STOP_TUNE asks for an end at the next due instant. -/
theorem exec_stopTune_idle (h : p.hears src cls = true) (hc : cls.rank ≠ 0) (idle : p.tune.state = .idle)
    (w : List Instr) : exec (.stopTune src) ⟨p, w⟩ = .next ⟨p.answered src 31 .wrongState [], w⟩ := by
  have stops : stopTune (p.taken (.stopTune src) cls) = (p.taken (.stopTune src) cls, .wrongState) := by
    simp [stopTune, idle]
  rw [exec_stopTune, serveSimple_console h hc, stops, reply_taken h]
  rfl

theorem exec_stopTune_sounding (h : p.hears src cls = true) (hc : cls.rank ≠ 0) (sounds : p.tune.state ≠ .idle)
    (w : List Instr) : exec (.stopTune src) ⟨p, w⟩
      = .next ⟨({ p with tune.state := .stopping }).answered src 31 .ok [], w⟩ := by
  have stops : stopTune (p.taken (.stopTune src) cls)
      = (({ p with tune.state := .stopping } : Part).taken (.stopTune src) cls, .ok) := by
    unfold stopTune
    cases state : p.tune.state with
    | idle => exact absurd state sounds
    | playing => simp [state]; rfl
    | stopping =>
      have stands : ({ p with tune.state := .stopping } : Part) = p := by rw [← state]
      simp [state, stands]
  rw [exec_stopTune, serveSimple_console h hc, stops]
  exact congrArg (fun q => Host.Outcome.next (State.mk q w))
    (reply_taken (p := { p with tune.state := .stopping }) h)

/-- R112, R113: a tune that is to stop ends at its due instant. -/
theorem tuneDue_stops (state : p.tune.state = .stopping) :
    tuneDue p = endTune .stopped { p with tune.stopped := bump p.tune.stopped } := by
  simp [tuneDue, state]

end Tunes

/-- Settles O45: the checks refuse in their order and an unfit entry is refused; a tune taken is that of `startTune_taken`,
and one that is to stop ends as `endTune_stops` says. -/
theorem tunesStartAndStop : Obligations.TunesStartAndStop := by
  unfold Obligations.TunesStartAndStop
  intro p w src t k cls
  refine ⟨fun h hc => ⟨fun code hcode refused => ?_, fun running idle quiet ht h1 h8 => ?_,
    fun idle => exec_stopTune_idle h hc idle w, fun sounds => exec_stopTune_sounding h hc sounds w⟩,
    fun supply stopping due => ?_⟩
  · have check : startCheck t k (p.taken (.startTune src t k) cls) = code := hcode.symm
    exact exec_startTune_refused h hc (by rw [startTune_checked (check ▸ refused), check]) w
  · have check : startCheck t k p = .ok := by
      have range : ¬ (95 < t ∨ k = 0 ∨ 8 < k) := by omega
      simp [startCheck, running, idle, quiet, range]
    refine ⟨fun unfit => exec_startTune_refused h hc (startTune_unfit check ?_) w,
      fun e d hr kind hl step => exec_startTune_taken h hc check hr kind hl step w⟩
    rcases unfit with none | ⟨e, hr, kind⟩
    · exact .inl (readTune_empty (p := p) rfl none)
    · exact .inr ⟨e, readTune_valid (p := p) rfl hr, kind⟩
  · have ends : duePart .tune p = endTune .stopped { p with tune.stopped := bump p.tune.stopped } := by
      simp only [duePart, due, Bool.not_true, Bool.false_eq_true, if_false, tuneDue_stops stopping]
    obtain ⟨tune, _, _, gone, events⟩ := endTune_stops .stopped { p with tune.stopped := bump p.tune.stopped }
    rw [← ends] at tune gone events
    refine ⟨_, exec_voiceDueInstant w supply, by rw [tune], by rw [tune], by rw [tune], by rw [tune]; rfl,
      by rw [tune]; rfl, by rw [tune]; rfl, gone, fun set => by rw [events, if_neg set], ?_⟩
    rw [ends]
    simp

/-- Settles O43: the flag is set by the request and by the action, and `takeQuarter` looks at it first. -/
theorem omitNextQuarter : Obligations.OmitNextQuarter := by
  unfold Obligations.OmitNextQuarter
  refine ⟨fun p w src cls h hcls => ?_, fun _ _ => rfl, rfl, fun _ => rfl, fun p q h late omitted => ?_⟩
  · have hc : cls.rank ≠ 0 := by rcases hcls with rfl | rfl | rfl <;> decide
    rw [exec_omitNext, serveSimple_console h hc]
    exact congrArg (fun q => Host.Outcome.next (State.mk q w)) (reply_taken (p := { p with clock.omitNext := true }) h)
  · unfold takeQuarter
    rw [if_pos omitted]


/-! ## Quarters -/

section Quarters

variable {p r : Part} {q h n d : Nat} {c : ChimeSet} {e : TuneEntry} {late : Bool}

/-- R86: a record of the Tune Store that fails its check is counted and raises TABLE_CHECK. -/
theorem storeFailure_counts {t : Table} (hr : r = storeFailure t n p) :
    r.store = { p.store with checkFailures := bump p.store.checkFailures }
      ∧ r.mgmt.tally = { p.mgmt.tally with tableCheck := bump p.mgmt.tally.tableCheck }
      ∧ p.sameBut r [.store, .up, .faults] := by
  refine ⟨?_, ?_, by rw [hr]; simp⟩
  all_goals
    rw [hr]
    unfold storeFailure raiseMinor noticeFault sendNotice offerNotice
    split <;> rfl

/-- R54: claims that enter leave the voices to what is written beside them. -/
theorem enterClaims_clock (v : VoiceId) (l : List Nat) (p : Part) (y : ClockVoice) :
    enterClaims v l { p with clock := y } = { enterClaims v l p with clock := y } := by
  induction l generalizing p with
  | nil => rfl
  | cons b l ih =>
    have step : setVoiceClaim v true { p with clock := y } b = { setVoiceClaim v true p b with clock := y } := by
      cases v <;> rfl
    exact (congrArg (enterClaims v l) step).trans (ih _)

/-- R106: the selected set is copied. -/
theorem copyChimeSet_stored (h : bankGet p.store.chimes p.cal.config.selector
      (stored chimeBytes (ChimeSet.cold p.cal.config.selector)) = stored chimeBytes c) :
    copyChimeSet p = { p with clock.cachedSet := some c } := by
  have holds := checkHolds_stored chimeBytes c
  rw [← h] at holds
  simp only [copyChimeSet, readChimeSet_holds holds, h]
  rfl

/-- R89, R106: a set that fails its check is counted, and the earlier copy stays. -/
theorem copyChimeSet_fails (h : checkHolds chimeBytes (bankGet p.store.chimes p.cal.config.selector
      (stored chimeBytes (ChimeSet.cold p.cal.config.selector))) = false) (hr : r = copyChimeSet p) :
    r.clock = { p.clock with setFailures := bump p.clock.setFailures }
      ∧ r.store = { p.store with checkFailures := bump p.store.checkFailures }
      ∧ r.mgmt.tally.tableCheck = bump p.mgmt.tally.tableCheck
      ∧ p.sameBut r [.store, .clock, .up, .faults] := by
  generalize hs : storeFailure .chimes p.cal.config.selector p = s
  obtain ⟨store, tally, same⟩ := storeFailure_counts hs.symm
  have copies : copyChimeSet p = { s with clock.setFailures := bump s.clock.setFailures } := by
    simp [copyChimeSet, readChimeSet, h, hs]
  have clock : s.clock = p.clock := same .clock (by decide)
  rw [hr, copies]
  refine ⟨by dsimp only; rw [clock], store, congrArg Tally.tableCheck tally, ?_⟩
  exact sameBut_trans (sameBut_mono same (by simp)) (by simp)

theorem quiet_of_same (h : p.sameIn r .cal) :
    r.cal.quietChimes = p.cal.quietChimes ∧ r.cal.quietStrike = p.cal.quietStrike := by
  simp only [Part.sameIn, Calendar.mk.injEq] at h
  simp only [h, and_self]

/-- R106: what a quarter looks at once it has the set `c`, copied now or earlier. -/
structure Copied (p r : Part) (c : ChimeSet) : Prop where
  set : r.clock.cachedSet = some c
  directory : r.store.directory = p.store.directory
  steps : r.store.steps = p.store.steps
  quiet : r.cal.quietChimes = p.cal.quietChimes ∧ r.cal.quietStrike = p.cal.quietStrike
  osc : r.osc = p.osc
  guard : r.bellGuard = p.bellGuard

theorem copied_stored (h : bankGet p.store.chimes p.cal.config.selector
      (stored chimeBytes (ChimeSet.cold p.cal.config.selector)) = stored chimeBytes c) :
    Copied p (copyChimeSet p) c := by
  rw [copyChimeSet_stored h]
  exact ⟨rfl, rfl, rfl, ⟨rfl, rfl⟩, rfl, rfl⟩

theorem copied_earlier (h : checkHolds chimeBytes (bankGet p.store.chimes p.cal.config.selector
      (stored chimeBytes (ChimeSet.cold p.cal.config.selector))) = false) (set : p.clock.cachedSet = some c) :
    Copied p (copyChimeSet p) c := by
  obtain ⟨clock, store, _, same⟩ := copyChimeSet_fails h rfl
  exact ⟨by rw [clock]; exact set, by rw [store], by rw [store], quiet_of_same (same .cal (by decide)),
    same .osc (by decide), same .bellGuard (by decide)⟩

/-- R105, R106: a QUARTER that is taken is decided from the copy of the set. -/
theorem takeQuarter_decides (goesOn : p.clock.omitNext = false) (idle : p.clock.state = .idle)
    (running : p.mgmt.partState = .running) (set : (copyChimeSet p).clock.cachedSet = some c) :
    takeQuarter q h late p = decideQuarter q h c (copyChimeSet p) := by
  simp [takeQuarter, goesOn, idle, running, set]

/-- R106: the hour bells that a quarter claims: those of the set where a strike follows. -/
def hoursOf (q : Nat) (c : ChimeSet) (p : Part) : List Nat :=
  if q = 4 ∧ p.cal.quietStrike = 0 then c.hourBell :: c.altBell.toList else []

/-- R106: no chime sounds: the quarter tune is not read, or its entry is EMPTY. -/
def chimeless (n : Nat) (p : Part) : Prop := 0 < p.cal.quietChimes ∨ readDirectory n p = (p, some .empty)

theorem Copied.chimeless (h : Copied p r c) (k : chimeless n p) : chimeless n r :=
  k.imp (fun quiet => h.quiet.1 ▸ quiet) (readDirectory_of_eq h.directory)

theorem Copied.hours (h : Copied p r c) (q : Nat) : hoursOf q c r = hoursOf q c p := by
  rw [hoursOf, h.quiet.2, hoursOf]

/-- R106: what a quarter without a chime reads. -/
theorem chimeless_reads (k : chimeless n p) :
    (if p.cal.quietChimes = 0 then readTune n p else (p, none)) = (p, none) := by
  split
  · exact readTune_empty rfl (k.resolve_left (by omega))
  · rfl

theorem Copied.decides_quiet (copied : Copied p r c) (k : Voices.chimeless (c.quarterTune q) p)
    (none : q ≠ 4 ∨ 0 < p.cal.quietStrike) :
    decideQuarter q h c r = { r with clock.quiet := bump r.clock.quiet } := by
  have strike : ¬ (q = 4 ∧ r.cal.quietStrike = 0) := by
    rw [copied.quiet.2]
    omega
  simp [decideQuarter, chimeless_reads (copied.chimeless k), strike]

/-- R106, R107: without a chime the strike pauses at once. -/
theorem Copied.decides_pauses (copied : Copied p r c) (k : Voices.chimeless (c.quarterTune q) p)
    (hq : q = 4) (strike : p.cal.quietStrike = 0) :
    decideQuarter q h c r = { enterClaims .clock (canonical 1 16 (hoursOf q c p)) r with
      clock := { r.clock with
        state := .pausing, sounded := bump r.clock.sounded, quarter := some (q, h), strikeFollows := true
        blows := some (if h % 12 = 0 then 12 else h % 12), nextBlow := some (p.osc + msTicks c.pause)
        voice := { r.clock.voice with claimed := canonical 1 16 (hoursOf q c p) } } } := by
  have hours : hoursOf q c p = c.hourBells := if_pos ⟨hq, strike⟩
  have follows : r.cal.quietStrike = 0 := copied.quiet.2.trans strike
  subst hq
  obtain ⟨g, guard⟩ := enterClaims_guard .clock (canonical 1 16 c.hourBells) r
  rw [hours, ← copied.osc]
  simp only [decideQuarter, chimeless_reads (copied.chimeless k), follows, and_self, decide_true, not_true_eq_false,
    and_false, if_false, sound, if_true, List.nil_append, enterClaims_clock, guard, enterPausing, copied.set]
  rfl

/-- R106: the chime begins, its bells and those of a strike to follow claimed, with its first step, here a REST. -/
theorem Copied.decides_chimes (copied : Copied p r c) (sounds : p.cal.quietChimes = 0)
    (hr : readDirectory (c.quarterTune q) p = (p, some (.valid e))) (hl : 0 < e.length)
    (step : p.stepIs e.start (.rest d)) :
    decideQuarter q h c r = { enterClaims .clock (canonical 1 16 (e.bells ++ hoursOf q c p)) r with
      clock := { r.clock with
        state := .chiming, sounded := bump r.clock.sounded, quarter := some (q, h)
        strikeFollows := decide (q = 4 ∧ p.cal.quietStrike = 0)
        voice := { begun r.clock.voice (c.quarterTune q) e 1 p.osc d with
          claimed := canonical 1 16 (e.bells ++ hoursOf q c p) } } } := by
  have sounds : r.cal.quietChimes = 0 := copied.quiet.1.trans sounds
  have hours : (if decide (q = 4 ∧ r.cal.quietStrike = 0) = true then c.hourBells else []) = hoursOf q c p := by
    rw [← copied.hours]
    simp only [hoursOf, decide_eq_true_eq]
    rfl
  have step : r.stepIs e.start (.rest d) := by
    unfold Part.stepIs
    rw [copied.steps]
    exact step
  obtain ⟨g, guard⟩ := enterClaims_guard .clock (canonical 1 16 (e.bells ++ hoursOf q c p)) r
  simp only [decideQuarter, sounds, if_true, readTune_valid copied.directory hr, Option.isNone_some,
    Bool.false_eq_true, false_and, if_false, sound, hours, enterClaims_clock, guard]
  rw [← copied.osc, ← copied.quiet.2]
  exact playVoice_begun (v := .clock)
    (x := { r.clock.voice with claimed := canonical 1 16 (e.bells ++ hoursOf q c p) }) (n := r.osc) rfl hl step

/-- R54, R106: the bells of a quarter that sounds. -/
theorem Copied.bell (copied : Copied p r c) {l : List Nat} {y : ClockVoice} (b : Nat) (h1 : 1 ≤ b) (h16 : b ≤ 16) :
    ({ enterClaims .clock (canonical 1 16 l) r with clock := y } : Part).bell b
      = if b ∈ l then claimedFor .clock (p.bell b) else p.bell b := by
  rw [← bell_congr copied.guard]
  refine (enterClaims_bell ⟨h1, h16⟩).trans ?_
  simp only [mem_canonical, h1, h16, and_self, true_and]

theorem quarter_same {l : List Nat} {y : ClockVoice} {T : List Block} (same : p.sameBut r T) (h1 : .bellGuard ∈ T)
    (h2 : .clock ∈ T) : p.sameBut { enterClaims .clock l r with clock := y } T := by
  obtain ⟨g, guard⟩ := enterClaims_guard .clock l r
  rw [guard]
  simp [same, h1, h2]

theorem enterClaims_mgmt (v : VoiceId) (l : List Nat) (p : Part) : (enterClaims v l p).mgmt = p.mgmt := by
  obtain ⟨g, guard⟩ := enterClaims_guard v l p
  rw [guard]

end Quarters

/-- Settles O44: a QUARTER that is taken is decided from the copy of the set, an earlier one or a fresh one, and each case
is a branch of `decideQuarter`. -/
theorem quartersSound : Obligations.QuartersSound := by
  unfold Obligations.QuartersSound
  intro p q h late goesOn
  refine ⟨fun busy => ?_, fun idle safe => ?_, fun idle running none fails => ?_,
    fun c n hour t idle running set fails hn hhour ht => ?_, fun c n hour idle running stored hn hhour => ?_⟩
  · simp [takeQuarter, goesOn, busy]
  · simp [takeQuarter, goesOn, idle, safe]
  · obtain ⟨clock, _, tally, same⟩ := copyChimeSet_fails fails rfl
    have noSet : (copyChimeSet p).clock.cachedSet = Option.none := by rw [clock]; exact none
    have quiet : takeQuarter q h late p
        = { copyChimeSet p with clock.quiet := bump (copyChimeSet p).clock.quiet } := by
      simp [takeQuarter, goesOn, idle, running, noSet]
    rw [quiet]
    exact ⟨by dsimp only; rw [clock], tally, sameBut_trans same (by simp)⟩
  · obtain ⟨clock, _, tally, same⟩ := copyChimeSet_fails fails rfl
    have copied := copied_earlier fails set
    replace ht := ht.trans (takeQuarter_decides goesOn idle running copied.set)
    generalize copyChimeSet p = r at clock tally same copied ht
    obtain rfl : hoursOf q c p = hour := hhour.symm
    obtain rfl : c.quarterTune q = n := hn.symm
    have wide : p.sameBut r [.bellGuard, .store, .clock, .up, .faults] := sameBut_mono same (by simp)
    have mgmt (l : List Nat) : (enterClaims .clock l r).mgmt.tally.tableCheck = bump p.mgmt.tally.tableCheck := by
      rw [enterClaims_mgmt, tally]
    refine ⟨fun k => ?_, fun e d sounds hr hl step => ?_⟩
    · have pauses (four : q = 4) (strike : p.cal.quietStrike = 0) :=
        ht.trans (copied.decides_pauses k four strike)
      have quiet (none : q ≠ 4 ∨ 0 < p.cal.quietStrike) := ht.trans (copied.decides_quiet k none)
      refine ⟨?_, fun none => ?_, fun four strike => ?_⟩
      · by_cases none : q ≠ 4 ∨ 0 < p.cal.quietStrike
        · rw [quiet none]
          exact tally
        · rw [pauses (by omega) (by omega)]
          exact mgmt _
      · rw [quiet none]
        exact ⟨by dsimp only; rw [clock], sameBut_trans same (by simp)⟩
      · rw [pauses four strike]
        refine ⟨by dsimp only; rw [clock, four], copied.bell, quarter_same wide (by decide) (by decide)⟩
    · rw [ht, copied.decides_chimes sounds hr hl step]
      refine ⟨mgmt _, rfl, copied.set, by dsimp only; rw [clock], by dsimp only; rw [clock], rfl, rfl, rfl,
        fun b h1 h16 => ?_, quarter_same wide (by decide) (by decide)⟩
      rw [copied.bell b h1 h16]
      simp only [List.mem_append]
      rfl
  · have copied := copied_stored stored
    have ht := takeQuarter_decides (q := q) (h := h) (late := late) goesOn idle running copied.set
    rw [ht]
    have clock := congrArg Part.clock (copyChimeSet_stored stored)
    have same : p.sameBut (copyChimeSet p) [.clock] := by rw [copyChimeSet_stored stored]; simp
    have fresh := copyChimeSet_stored stored
    generalize copyChimeSet p = r at clock same copied fresh ⊢
    obtain rfl : hoursOf q c p = hour := hhour.symm
    obtain rfl : c.quarterTune q = n := hn.symm
    have wide : p.sameBut r [.bellGuard, .clock] := sameBut_mono same (by simp)
    refine ⟨fun k => ⟨fun none => ?_, fun four strike => ?_⟩, fun e d sounds hr hl step => ?_⟩
    · rw [copied.decides_quiet k none, fresh]
    · rw [copied.decides_pauses k four strike]
      exact ⟨rfl, rfl, rfl, by rw [four], copied.set, by dsimp only; rw [clock], copied.bell,
        quarter_same wide (by decide) (by decide)⟩
    · rw [copied.decides_chimes sounds hr hl step]
      refine ⟨by dsimp only; rw [clock], fun b h1 h16 => ?_, quarter_same wide (by decide) (by decide)⟩
      rw [copied.bell b h1 h16]
      simp only [List.mem_append]
      rfl

end Sys2Proof.Machine.Voices


/-! SUPPORT. The phrase stack (R97 to R101): calls, steps that fail their check, and tunes that are over or abandoned. -/

namespace Sys2Proof.Machine.Voices

open Dials Bells

/-! ## Calls, and steps that fail their check -/

section Calls

variable {p q r : Part} {v : VoiceId} {f : PhraseFrame} {rest : List PhraseFrame} {k d t n : Nat} {e : TuneEntry}

/-- R99: a CALL of a VALID entry pushes a frame while there is room. -/
theorem takeSteps_call (hs : (p.voice v).stack = f :: rest) (hc : f.cursor < f.length)
    (step : p.stepIs (f.start + f.cursor) (.call t n)) (hr : readDirectory t p = (p, some (.valid e)))
    (room : rest.length < 3) :
    takeSteps (k + 1) v p
      = takeSteps k v (setStack v (pushFrame t e n ({ f with cursor := f.cursor + 1 } :: rest)) p) := by
  have read := readTune_valid (q := setStack v ({ f with cursor := f.cursor + 1 } :: rest) p) (p := p)
    (by simp [setStack]) hr
  have fits : rest.length + 1 < Config.stackFrames := Nat.add_lt_add_right room 1
  have stack : ((setStack v ({ f with cursor := f.cursor + 1 } :: rest) p).voice v).stack
      = { f with cursor := f.cursor + 1 } :: rest := by
    rw [setStack, voice_putVoice_self]
  simp only [takeSteps, hs, if_neg (Nat.not_le.mpr hc), readStep_stepIs step, read, stack, List.length_cons,
    if_pos fits]
  simp only [setStack, voice_putVoice_self, putVoice_putVoice]

/-- R99: a CALL of an EMPTY entry is counted and skipped. -/
theorem takeSteps_skipped (hs : (p.voice v).stack = f :: rest) (hc : f.cursor < f.length)
    (step : p.stepIs (f.start + f.cursor) (.call t n)) (hr : readDirectory t p = (p, some .empty)) :
    takeSteps (k + 1) v p
      = takeSteps k v (skipCall v (setStack v ({ f with cursor := f.cursor + 1 } :: rest) p)) := by
  have read := readTune_empty (q := setStack v ({ f with cursor := f.cursor + 1 } :: rest) p) (p := p)
    (by simp [setStack]) hr
  simp only [takeSteps, hs, if_neg (Nat.not_le.mpr hc), readStep_stepIs step, read]

/-- R99, R101: a CALL that finds four frames abandons the tune with TUNE_DEPTH. -/
theorem takeSteps_deep (hs : (p.voice v).stack = f :: rest) (hc : f.cursor < f.length)
    (step : p.stepIs (f.start + f.cursor) (.call t n)) (hr : readDirectory t p = (p, some (.valid e)))
    (full : 3 ≤ rest.length) :
    takeSteps (k + 1) v p
      = (raiseMinor .tuneDepth [byte (voiceNumber v), byte t]
          (abandonTune v (setStack v ({ f with cursor := f.cursor + 1 } :: rest) p)), .abandoned) := by
  have read := readTune_valid (q := setStack v ({ f with cursor := f.cursor + 1 } :: rest) p) (p := p)
    (by simp [setStack]) hr
  have full : ¬ rest.length + 1 < Config.stackFrames := Nat.not_lt.mpr (Nat.add_le_add_right full 1)
  have stack : ((setStack v ({ f with cursor := f.cursor + 1 } :: rest) p).voice v).stack
      = { f with cursor := f.cursor + 1 } :: rest := by
    rw [setStack, voice_putVoice_self]
  simp only [takeSteps, hs, if_neg (Nat.not_le.mpr hc), readStep_stepIs step, read, stack, List.length_cons,
    if_neg full]

/-- R88, R101: a step that fails its check abandons the tune. -/
theorem takeSteps_damaged (hs : (p.voice v).stack = f :: rest) (hc : f.cursor < f.length)
    (fails : checkHolds stepContents
      (bankGet p.store.steps (f.start + f.cursor) (stored stepContents .endStep)) = false) :
    takeSteps (k + 1) v p = (abandonTune v (storeFailure .steps (f.start + f.cursor) p), .abandoned) := by
  have read : readStep (f.start + f.cursor) p = (storeFailure .steps (f.start + f.cursor) p, none) := by
    simp [readStep, fails]
  simp only [takeSteps, hs, if_neg (Nat.not_le.mpr hc), read]

end Calls

/-! ## Tunes that are over -/

section Endings

variable {p q r : Part} {v : VoiceId} {reason : EndReason} {T : List Block}

/-- R107, R113: what the end of a voice's tune, for a reason, makes of the part. -/
def finished (reason : EndReason) : VoiceId → Part → Part
  | .clock => chimeEnded
  | .tune => endTune reason

theorem playVoice_ended (h : ∀ k, takeSteps (k + 2) v p = (r, .ended)) : playVoice v p = finished .ended v r := by
  obtain ⟨k, hk⟩ := stepBound_eq
  simp only [playVoice, hk, h]
  cases v <;> rfl

theorem playVoice_abandoned (h : ∀ k, takeSteps (k + 2) v p = (r, .abandoned)) :
    playVoice v p = finished .abandoned v r := by
  obtain ⟨k, hk⟩ := stepBound_eq
  simp only [playVoice, hk, h]
  cases v <;> rfl

@[simp] theorem same_finished (h : p.sameBut q T) (h1 : Block.dialDriver ∈ T) (h2 : Block.bellGuard ∈ T)
    (h3 : Block.clock ∈ T) (h4 : Block.tune ∈ T) (h5 : Block.lamps ∈ T) (h6 : Block.budget ∈ T)
    (h7 : Block.events ∈ T) (h8 : Block.locals ∈ T) : p.sameBut (finished reason v q) T := by
  cases v <;> simp [finished, *]

/-- What the end of a voice's tune looks at stands as it did. -/
structure Plays (p r : Part) (v : VoiceId) : Prop where
  osc : r.osc = p.osc
  time : r.time = p.time
  guard : r.bellGuard = p.bellGuard
  events : r.cal.events = p.cal.events
  claimed : (r.voice v).claimed = (p.voice v).claimed
  inHand : r.tune.inHand = p.tune.inHand
  clock : r.clock = { p.clock with voice := r.clock.voice }

theorem Plays.trans (h : Plays p q v) (k : Plays q r v) : Plays p r v :=
  ⟨k.osc.trans h.osc, k.time.trans h.time, k.guard.trans h.guard, k.events.trans h.events,
    k.claimed.trans h.claimed, k.inHand.trans h.inHand, by rw [k.clock, h.clock]⟩

theorem Plays.of_same (h : p.sameBut r T) (h1 : Block.osc ∉ T) (h2 : Block.time ∉ T) (h3 : Block.bellGuard ∉ T)
    (h4 : Block.events ∉ T) (h5 : Block.clock ∉ T) (h6 : Block.tune ∉ T) : Plays p r v := by
  have clock : r.clock = p.clock := h .clock h5
  have tune : r.tune = p.tune := h .tune h6
  refine ⟨h .osc h1, h .time h2, h .bellGuard h3, h .events h4, ?_, congrArg TuneVoice.inHand tune, by rw [clock]⟩
  cases v
  · exact congrArg (fun c => c.voice.claimed) clock
  · exact congrArg (fun t => t.voice.claimed) tune

theorem Plays.of_putVoice {x : Voice} (h : x.claimed = (p.voice v).claimed) : Plays p (p.putVoice v x) v := by
  refine ⟨by simp, by simp, by simp, by simp, by simp [h], ?_, ?_⟩ <;> cases v <;> rfl

theorem plays_setStack (v : VoiceId) (l : List PhraseFrame) (p : Part) : Plays p (setStack v l p) v :=
  .of_putVoice rfl

theorem plays_dropHeld (v : VoiceId) (p : Part) : Plays p (dropHeld v p) v := by
  obtain ⟨clock, tune⟩ := dropHeld_voices v p
  have same : p.sameBut (dropHeld v p) [.dialDriver, .clock, .tune, .lamps, .budget, .locals] := by simp
  refine ⟨same .osc (by decide), same .time (by decide), same .bellGuard (by decide), same .events (by decide), ?_, ?_, ?_⟩
  · cases v
    · exact congrArg (fun c => c.voice.claimed) clock
    · exact congrArg (fun t => t.voice.claimed) tune
  · rw [tune]
    cases v <;> rfl
  · rw [clock]
    cases v <;> rfl

theorem plays_abandonTune (v : VoiceId) (p : Part) : Plays p (abandonTune v p) v :=
  ((plays_setStack v [] p).trans (plays_dropHeld v _)).trans (.of_putVoice rfl)

/-- R104: a voice's record once its held strikes have been dropped, read back. -/
theorem dropHeld_voice (v : VoiceId) (p : Part) : (dropHeld v p).voice v = dropped (p.voice v) := by
  obtain ⟨clock, tune⟩ := dropHeld_voices v p
  cases v
  · exact (congrArg ClockVoice.voice clock)
  · exact (congrArg TuneVoice.voice tune)

/-- R101: an abandonment is counted. -/
theorem abandonTune_abandoned (v : VoiceId) (p : Part) :
    ((abandonTune v p).voice v).counts.abandoned = bump (p.voice v).counts.abandoned := by
  simp [abandonTune, dropHeld_voice, setStack, dropped]

theorem abandonTune_tally (v : VoiceId) (p : Part) : (abandonTune v p).mgmt.tally = p.mgmt.tally :=
  ((by simp : p.sameBut (abandonTune v p) [.dialDriver, .clock, .tune, .lamps, .budget, .locals])
    .faults (by decide)).2.1

theorem abandonTune_store (v : VoiceId) (p : Part) : (abandonTune v p).store = p.store :=
  (by simp : p.sameBut (abandonTune v p) [.dialDriver, .clock, .tune, .lamps, .budget, .locals]) .store (by decide)

/-- R107: the end of the chime, where an hour strike follows. -/
theorem chimeEnded_pauses (follows : r.clock.strikeFollows = true) :
    (chimeEnded r).clock = { r.clock with
      state := .pausing, blows := some (blowsOf ((r.clock.quarter.map Prod.snd).getD 0))
      nextBlow := some (r.osc + msTicks ((r.clock.cachedSet.map ChimeSet.pause).getD 0))
      voice := dropped { r.clock.voice with stack := [] } } := by
  have osc : (dropHeld .clock (setStack .clock [] r)).osc = r.osc :=
    (plays_dropHeld .clock _).osc.trans (plays_setStack .clock [] r).osc
  obtain ⟨clock, _⟩ := dropHeld_voices .clock (setStack .clock [] r)
  unfold chimeEnded enterPausing
  dsimp only
  rw [osc, clock]
  simp only [Part.putVoice, setStack, follows, if_true]
  rfl

/-- R107, R109: the end of the chime, where none follows. -/
theorem chimeEnded_ends (none : r.clock.strikeFollows = false) :
    chimeEnded r = endQuarter (dropHeld .clock (setStack .clock [] r)) := by
  obtain ⟨clock, _⟩ := dropHeld_voices .clock (setStack .clock [] r)
  have follows : (dropHeld .clock (setStack .clock [] r)).clock.strikeFollows = false := by
    rw [clock]
    exact none
  unfold chimeEnded
  simp [follows]

/-- R107, R113: the tune of a voice is over, and its abandonments stay counted. -/
theorem finished_over (h : Plays p r v) : p.tuneOver (finished reason v r) v reason
    ∧ ((finished reason v r).voice v).counts.abandoned = (r.voice v).counts.abandoned := by
  cases v with
  | tune =>
    obtain ⟨tune, _, _, gone, events⟩ := endTune_stops reason r
    have voice : (endTune reason r).voice .tune = r.tune.voice.stopped := congrArg TuneVoice.voice tune
    refine ⟨⟨by rw [finished, voice]; rfl, by rw [finished, voice]; rfl, by rw [finished, tune],
      by rw [finished, tune],
      by rw [finished, tune]; rfl, fun b hb => gone b (h.claimed ▸ hb), fun set t k hand => ?_⟩,
      by rw [finished, voice]; rfl⟩
    rw [finished, events, h.events, h.inHand, hand, if_neg (h.time ▸ set)]
    rfl
  | clock =>
    by_cases follows : p.clock.strikeFollows = true
    · have clock := chimeEnded_pauses (r := r) (by rw [h.clock]; exact follows)
      have voice : (chimeEnded r).voice .clock = dropped { r.clock.voice with stack := [] } :=
        congrArg ClockVoice.voice clock
      refine ⟨⟨by rw [finished, voice]; rfl, by rw [finished, voice]; rfl, fun _ => ⟨by rw [finished, clock], ?_,
        fun k h' hq => ?_, fun c hc => ?_⟩, fun k => absurd (follows.symm.trans k) (by decide)⟩,
        by rw [finished, voice]; rfl⟩
      · rw [finished, clock]
        exact h.claimed
      · rw [finished, clock, h.clock]
        dsimp only
        rw [hq]
        rfl
      · rw [finished, clock, h.clock, h.osc]
        dsimp only
        rw [hc]
        rfl
    · have none : p.clock.strikeFollows = false := by simpa using follows
      have ends := chimeEnded_ends (r := r) (by rw [h.clock]; exact none)
      have all := (h.trans (plays_setStack .clock [] r)).trans (plays_dropHeld .clock _)
      have counts := dropHeld_voice .clock (setStack .clock [] r)
      generalize dropHeld .clock (setStack .clock [] r) = s at ends all counts
      obtain ⟨clock, _, _, gone⟩ := endQuarter_stops s
      rw [← ends] at clock gone
      have voice : (chimeEnded r).voice .clock = s.clock.voice.stopped := congrArg ClockVoice.voice clock
      refine ⟨⟨by rw [finished, voice]; rfl, by rw [finished, voice]; rfl, fun k => absurd k follows, fun _ =>
        ⟨by rw [finished, clock], by rw [finished, clock], by rw [finished, clock], by rw [finished, clock], ?_,
        by rw [finished, clock]; rfl, fun b hb => gone b (all.claimed ▸ hb)⟩⟩, ?_⟩
      · rw [finished, clock, all.clock]
      · rw [finished, voice]
        exact congrArg (fun x => x.counts.abandoned) counts

/-- R101: a tune that has been abandoned, with what the part was raised to after that, is over; its abandonment stays
counted, and the Tune Store and the tally stand as they were raised to. -/
theorem abandoned_over {s : Part} {U : List Block} (before : Plays p q v)
    (counts : (q.voice v).counts = (p.voice v).counts) (moves : p.sameBut q T) (raised : (abandonTune v q).sameBut s U)
    (hU : ∀ b ∈ [Block.osc, .time, .bellGuard, .events, .clock, .tune], b ∉ U) :
    p.tuneOver (finished .abandoned v s) v .abandoned
      ∧ ((finished .abandoned v s).voice v).counts.abandoned = bump (p.voice v).counts.abandoned
      ∧ (finished .abandoned v s).mgmt.tally = s.mgmt.tally ∧ (finished .abandoned v s).store = s.store
      ∧ p.sameBut (finished .abandoned v s)
          (T ++ U ++ [.dialDriver, .bellGuard, .clock, .tune, .lamps, .budget, .events, .locals]) := by
  have voice : s.voice v = (abandonTune v q).voice v := by
    cases v
    · exact congrArg ClockVoice.voice (raised .clock (hU _ (by decide)))
    · exact congrArg TuneVoice.voice (raised .tune (hU _ (by decide)))
  have after : Plays (abandonTune v q) s v := .of_same raised (hU _ (by decide)) (hU _ (by decide)) (hU _ (by decide))
    (hU _ (by decide)) (hU _ (by decide)) (hU _ (by decide))
  obtain ⟨isOver, counted⟩ := finished_over (reason := .abandoned)
    ((before.trans (plays_abandonTune v q)).trans after)
  have ends : s.sameBut (finished .abandoned v s)
    [.dialDriver, .bellGuard, .clock, .tune, .lamps, .budget, .events, .locals] := by simp
  have drops : q.sameBut (abandonTune v q) [.dialDriver, .clock, .tune, .lamps, .budget, .locals] := by simp
  refine ⟨isOver, by rw [counted, voice, abandonTune_abandoned, counts], (ends .faults (by decide)).2.1,
    ends .store (by decide), ?_⟩
  have wide : ∀ b ∈ [Block.dialDriver, .clock, .tune, .lamps, .budget, .locals],
      b ∈ [Block.dialDriver, .bellGuard, .clock, .tune, .lamps, .budget, .events, .locals] := by decide
  refine sameBut_trans (sameBut_trans (sameBut_trans (sameBut_mono moves ?_) (sameBut_mono drops ?_))
    (sameBut_mono raised ?_)) (sameBut_mono ends ?_) <;> simp +contextual [wide]

end Endings

/-- R178: a MINOR fault raises its count, and the notice may enter UP. -/
theorem raiseMinor_counts (kind : FaultKind) (detail : List Byte) (p : Part) :
    (raiseMinor kind detail p).mgmt.tally = p.mgmt.tally.raise kind
      ∧ p.sameBut (raiseMinor kind detail p) [.up, .faults] := by
  refine ⟨?_, by simp⟩
  unfold raiseMinor noticeFault sendNotice offerNotice
  split <;> rfl

/-- R98: steps go on to a REST, where the voice waits. -/
theorem playVoice_goesOn {p r : Part} {v : VoiceId} {g : PhraseFrame} {more : List PhraseFrame} {d : Nat}
    (h : ∀ k, takeSteps (k + 2) v p = takeSteps (k + 1) v r) (hs : (r.voice v).stack = g :: more)
    (hc : g.cursor < g.length) (store : r.store = p.store) (step : p.stepIs (g.start + g.cursor) (.rest d)) :
    playVoice v p = r.putVoice v (afterStep (r.voice v) g more d) := by
  refine playVoice_waits fun k => (h k).trans (takeSteps_rest hs hc ?_)
  unfold Part.stepIs
  rw [store]
  exact step

/-- Settles O41: each case is one equation of `takeSteps`, with the REST that ends its steps or the end of the tune. -/
theorem tuneStructure : Obligations.TuneStructure := by
  unfold Obligations.TuneStructure
  intro p w v x s l f rest supply hx hs hl due stack chiming playing
  have sounds : sounding p v := by
    cases v
    · exact chiming rfl
    · exact playing rfl
  have isDue : p.voiceDue v = true := voiceDue_iff.mpr ⟨s, l, hx ▸ hs, hx ▸ hl, hx ▸ due⟩
  rw [exec_voiceDueInstant w supply, duePart_sounding isDue sounds]
  subst hx
  refine ⟨fun t n inside step => ⟨fun e d hr room hl first => ?_, fun d hr more next => ?_, fun e hr full => ?_⟩,
    fun inside fails => ?_, fun atEnd => ⟨fun d again hl first => ?_, fun g more d last hrest inside next => ?_,
      fun last hrest => ?_⟩⟩
  · rw [playVoice_goesOn (g := { tune := t, start := e.start, length := e.length, cursor := 0, repeats := n })
      (fun k => takeSteps_call stack inside step hr room) (by rw [setStack, voice_putVoice_self]; rfl) hl
      (by simp [setStack]) first]
    simp only [setStack, voice_putVoice_self, putVoice_putVoice]
  · rw [playVoice_goesOn (fun k => takeSteps_skipped stack inside step hr)
      (by simp only [skipCall, setStack, voice_putVoice_self]; rfl) more (by simp [skipCall, setStack]) next]
    simp only [skipCall, setStack, voice_putVoice_self, putVoice_putVoice]
  · rw [playVoice_abandoned fun k => takeSteps_deep stack inside step hr full]
    generalize hq : setStack v ({ f with cursor := f.cursor + 1 } :: rest) p = q
    have moves : p.sameBut q [.clock, .tune] := by rw [← hq]; simp
    obtain ⟨tally, same⟩ := raiseMinor_counts .tuneDepth [byte (voiceNumber v), byte t] (abandonTune v q)
    obtain ⟨isOver, counted, faults, _, frame⟩ := abandoned_over (hq ▸ plays_setStack v _ p)
      (by rw [← hq, setStack, voice_putVoice_self]) moves (U := [.up, .faults]) same (by decide)
    refine ⟨_, rfl, isOver, counted, ?_, sameBut_mono frame (by decide)⟩
    rw [faults, tally, abandonTune_tally, (moves .faults (by decide)).2.1]
    rfl
  · rw [playVoice_abandoned fun k => takeSteps_damaged stack inside fails]
    obtain ⟨store, tally, same⟩ := storeFailure_counts (t := .steps) (n := f.start + f.cursor) (p := p) rfl
    generalize storeFailure .steps (f.start + f.cursor) p = q at store tally same
    have voice : q.voice v = p.voice v := by
      cases v
      · exact congrArg ClockVoice.voice (same .clock (by decide))
      · exact congrArg TuneVoice.voice (same .tune (by decide))
    obtain ⟨isOver, counted, faults, stored, frame⟩ := abandoned_over (v := v)
      (.of_same same (by decide) (by decide) (by decide) (by decide) (by decide) (by decide)) (by rw [voice]) same
      (U := []) (same_refl _ _) (by decide)
    refine ⟨_, rfl, isOver, counted, ?_, ?_, sameBut_mono frame (by decide)⟩
    · rw [stored, abandonTune_store, store]
    · rw [faults, abandonTune_tally, tally]
  · rw [playVoice_goesOn (g := { f with cursor := 0, repeats := f.repeats - 1 }) (fun k => takeSteps_over stack atEnd)
      (by rw [setStack, voice_putVoice_self, frameEnd, if_pos again]) hl (by simp [setStack]) first]
    simp only [setStack, voice_putVoice_self, putVoice_putVoice]
  · subst hrest
    rw [playVoice_goesOn (fun k => takeSteps_over stack atEnd)
      (by rw [setStack, voice_putVoice_self, frameEnd, if_neg (Nat.not_lt.mpr last)]) inside (by simp [setStack]) next]
    simp only [setStack, voice_putVoice_self, putVoice_putVoice]
  · have ends (k : Nat) : takeSteps (k + 2) v p = (setStack v [] p, .ended) := by
      rw [takeSteps_over stack atEnd, frameEnd, if_neg (Nat.not_lt.mpr last), hrest,
        takeSteps_ended (by rw [setStack, voice_putVoice_self])]
    rw [playVoice_ended ends]
    exact ⟨_, rfl, (finished_over (plays_setStack v [] p)).1, by simp⟩

end Sys2Proof.Machine.Voices


/-! SUPPORT. What a voice's strike comes to (R102, R103): refused or skipped and counted, or its charge granted and its
STRIKE in LOCAL or among the held strikes. -/

namespace Sys2Proof.Machine.Voices

open Dials Bells

/-! ## The Guard's answer -/

section Admission

variable {p q : Part} {b : Nat} {o : Origin}

/-- R57: the guard check looks at the bell, the session, the part's state and the instant. -/
theorem admission_congr (bell : q.bell b = p.bell b) (session : q.session = p.session)
    (state : q.mgmt.partState = p.mgmt.partState) (osc : q.osc = p.osc) : q.admission b o = p.admission b o := by
  unfold Part.admission Part.owner Part.ringersActive
  rw [bell, session, state, osc]

@[simp] theorem admission_putVoice (v : VoiceId) (x : Voice) : (p.putVoice v x).admission b o = p.admission b o :=
  admission_congr (by simp) (by simp) (by simp) (by simp)

/-- The Guard itself never answers BUDGET_SKIP: that is the Feed Budget's answer (R137). -/
theorem admission_ne_budgetSkip : p.admission b o ≠ .budgetSkip := by
  unfold Part.admission
  dsimp only
  split_ifs <;> nofun

/-- R57: the owner's strike is never answered NOT_OWNER. -/
theorem admission_ne_notOwner (owner : p.owner b = some o.claim) : p.admission b o ≠ .notOwner := by
  unfold Part.admission
  dsimp only
  rw [if_neg (not_not.mpr owner)]
  split_ifs <;> nofun

end Admission

/-! ## Charges granted -/

section Charges

variable {p q : Part} {b a : Nat} {o : Origin}

/-- R137: the charge of a strike enters without lamps being lowered. -/
theorem askStrike_granted (h : p.budget.decide a = .grant) : ∃ timer,
    askStrike b o a p = ({ p with budget := { p.budget with
      charges := p.budget.charges ++ [{ id := p.budget.nextId, holder := .strike b o, amount := a, grantedAt := p.osc
                                        releaseAt := none }]
      nextId := p.budget.nextId + 1, strikeGrants := bump p.budget.strikeGrants, restore := timer } },
      some p.budget.nextId) := by
  simp only [askStrike, tryGrant, h]
  exact ⟨_, rfl⟩

theorem askStrike_refused (h : p.budget.decide a = .refuse) :
    askStrike b o a p = ({ p with budget.strikeRefusals := bump p.budget.strikeRefusals }, none) := by
  simp only [askStrike, tryGrant, h]

/-- R137: a request that the headroom covers is granted. -/
theorem decide_grant (room : p.budget.charges.length < 80) (fits : p.budget.committed + a ≤ p.budget.limit) :
    p.budget.decide a = .grant := by
  unfold FeedBudget.decide
  rw [if_neg (show ¬ Config.chargeRoom ≤ _ from Nat.not_le.mpr room),
    if_neg (by omega : ¬ p.budget.limit < p.budget.committed), if_pos fits, ite_self]

/-- R135, R141: with no dial waiting the release of a strike's charge takes that charge and nothing else. -/
theorem releaseCharge_alone (id : Nat) (h : p.budget.waiting = []) : ∃ timer,
    releaseCharge id p = { p with budget := { p.budget with
      charges := p.budget.charges.filter (fun c => !c.ofStrike id), restore := timer } } := by
  unfold releaseCharge
  split <;> rename_i found
  · have none (r : Part) (hr : r.budget.waiting = []) : afterRelease r = examine r := by
      simp [afterRelease, reoffer, hr]
    exact ⟨_, none { p with budget.charges := p.budget.charges.filter (fun c => !c.ofStrike id) } h⟩
  · have all : p.budget.charges.filter (fun c => !c.ofStrike id) = p.budget.charges := by
      refine List.filter_eq_self.mpr fun c hc => ?_
      simp only [List.any_eq_true, not_exists, not_and] at found
      simpa using found c hc
    exact ⟨p.budget.restore, by rw [all]⟩

/-- The same of several held strikes. -/
theorem releaseStrikes_alone (l : List HeldStrike) (h : p.budget.waiting = []) :
    ∃ g : FeedBudget, releaseStrikes l p = { p with budget := g } := by
  induction l generalizing p with
  | nil => exact ⟨_, rfl⟩
  | cons s l ih =>
    obtain ⟨timer, first⟩ := releaseCharge_alone s.strike.charge h
    obtain ⟨g, rest⟩ := ih (p := releaseCharge s.strike.charge p) (by rw [first]; exact h)
    exact ⟨g, rest.trans (by rw [first])⟩

end Charges

/-! ## A strike placed -/

section Placing

variable {p : Part} {v : VoiceId} {s : Strike} {t : Nat}

theorem placeStrike_enters (held : (p.voice v).held = []) (room : p.line.localQ.length < 24) :
    placeStrike v s t p = { p with line.localQ := p.line.localQ ++ [.strike s] } := by
  unfold placeStrike
  exact if_pos ⟨held, room⟩

/-- R103: a voice's record with a strike among the held ones. -/
abbrev holds (x : Voice) (s : Strike) (t : Nat) : Voice :=
  { x with held := x.held ++ [{ strike := s, deadline := t }], counts := { x.counts with held := bump x.counts.held } }

theorem placeStrike_joins (blocked : (p.voice v).held ≠ [] ∨ 24 ≤ p.line.localQ.length)
    (room : (p.voice v).held.length < 4) :
    placeStrike v s t p = p.putVoice v (holds (p.voice v) s t) := by
  unfold placeStrike
  have no : ¬ ((p.voice v).held = [] ∧ p.line.localQ.length < Config.localPlaces) := fun ⟨empty, free⟩ =>
    blocked.elim (fun k => k empty) (Nat.not_le.mpr free)
  simp only [if_neg no]
  split
  · rw [if_neg (show ¬ Config.heldPlaces ≤ _ from Nat.not_le.mpr room)]
  · rfl

/-- R103: a fifth held strike displaces the oldest. -/
theorem placeStrike_displaces {o : HeldStrike} {more : List HeldStrike} (held : (p.voice v).held = o :: more)
    (full : more.length = 3) :
    placeStrike v s t p = releaseCharge o.strike.charge (p.putVoice v (holds
      { p.voice v with
        held := more, counts := { (p.voice v).counts with displaced := bump (p.voice v).counts.displaced } } s t)) := by
  unfold placeStrike
  have no : ¬ ((p.voice v).held = [] ∧ p.line.localQ.length < Config.localPlaces) := by simp [held]
  have five : Config.heldPlaces ≤ (o :: more).length := by simp [full, Config.heldPlaces]
  simp only [if_neg no]
  simp only [held, if_pos five]

end Placing

/-! ## A strike asked for -/

section Strikes

variable {p : Part} {v : VoiceId} {b force t : Nat}

/-- R57: the strike of a voice on bell b that holds the charge `id`. -/
abbrev strikeFor (p : Part) (v : VoiceId) (force b id : Nat) : Strike :=
  { bell := b, charge := id, frame :=
    { dest := (p.bell b).config.hammerNode.getD 0, src := p.mgmt.address, kind := 21
      payload := [byte (p.bell b).config.hammerChannel, byte force, byte (originOf v).code] } }

/-- R135: the charge of that strike. -/
abbrev chargeFor (p : Part) (v : VoiceId) (b id : Nat) : Charge :=
  { id := id, holder := .strike b (originOf v), amount := (p.bell b).config.charge, grantedAt := p.osc
    releaseAt := none }

/-- R57: a bell's record with one more strike refused at admission. -/
abbrev refusedOnce (x : Bell) : Bell := { x with strikesRefused := bump x.strikesRefused }

/-- R102: a voice's record with an answer counted. -/
abbrev answeredBy (x : Voice) (a : Answer) : Voice := { x with counts := x.counts.answered a }

theorem voiceStrike_refused {a : Answer} (h : p.admission b (originOf v) = a) (ha : a ≠ .admitted) :
    voiceStrike v force t p b = (p.putBell b (refusedOnce (p.bell b))).putVoice v (answeredBy (p.voice v) a) := by
  subst h
  unfold voiceStrike
  simp only [admitStrike_refused ha, refuseStrike, voice_putBell]

theorem voiceStrike_skipped (h : p.admission b (originOf v) = .admitted)
    (refuse : p.budget.decide (p.bell b).config.charge = .refuse) :
    voiceStrike v force t p b
      = ({ p with budget.strikeRefusals := bump p.budget.strikeRefusals }.putBell b (refusedOnce (p.bell b))).putVoice v
          (answeredBy (p.voice v) .budgetSkip) := by
  unfold voiceStrike
  simp only [admitStrike_skipped h (askStrike_refused refuse), refuseStrike, voice_putBell]
  cases v <;> rfl

/-- R102, R137: the strike of a charge that is granted at once is placed. -/
theorem voiceStrike_granted (h : p.admission b (originOf v) = .admitted)
    (grant : p.budget.decide (p.bell b).config.charge = .grant) : ∃ timer,
    voiceStrike v force t p b = placeStrike v (strikeFor p v force b p.budget.nextId) t
      (({ p with budget := { p.budget with
          charges := p.budget.charges ++ [chargeFor p v b p.budget.nextId], nextId := p.budget.nextId + 1
          strikeGrants := bump p.budget.strikeGrants, restore := timer } } : Part).putVoice v
        (answeredBy (p.voice v) .admitted)) := by
  obtain ⟨timer, asks⟩ := askStrike_granted (b := b) (o := originOf v) grant
  refine ⟨timer, ?_⟩
  unfold voiceStrike
  simp only [admitStrike_granted h (congrArg Prod.snd asks), asks]
  cases v <;> rfl

theorem voiceStrike_reclaimed (h : p.admission b (originOf v) = .admitted) {k : Nat}
    (reclaims : p.budget.decide (p.bell b).config.charge = .reclaim k) {r : Part}
    (hr : r = (askStrike b (originOf v) (p.bell b).config.charge p).1) :
    voiceStrike v force t p b = placeStrike v (strikeFor p v force b (reclaim k p).budget.nextId) t
      (r.putVoice v (answeredBy (r.voice v) .admitted)) := by
  have asks : (askStrike b (originOf v) (p.bell b).config.charge p).2 = some (reclaim k p).budget.nextId := by
    simp only [askStrike, tryGrant, reclaims]
    rfl
  unfold voiceStrike
  simp only [admitStrike_granted h asks, ← hr]
  rfl

/-! ## Notes -/

theorem noteBell_declared (h : b ∈ (p.voice v).declared.getD []) :
    noteBell v force t p b = voiceStrike v force t p b := by
  unfold noteBell
  exact if_pos (List.contains_iff_mem.mpr h)

theorem noteBell_undeclared (h : b ∉ (p.voice v).declared.getD []) :
    noteBell v force t p b = p.putVoice v { p.voice v with
      counts := { (p.voice v).counts with undeclared := bump (p.voice v).counts.undeclared } } := by
  unfold noteBell
  exact if_neg (by simpa using h)

end Strikes

end Sys2Proof.Machine.Voices


/-! SUPPORT. Lamps lowered for a strike (R137, R138): what the reclaim procedure releases, which levels it lowers, and the
places of LOCAL it takes. -/

namespace Sys2Proof.Machine.Voices

open Dials Bells

/-! ## Charges of lamp groups -/

section Loads

variable {p q : Part} {g k a : Nat} {l : List Charge} {x : Nat}

/-- The sum of the amounts of charges. -/
def load (l : List Charge) : Nat := (l.map Charge.amount).sum

theorem load_append (l m : List Charge) : load (l ++ m) = load l + load m := by
  simp [load]

theorem load_filter_add (f : Charge → Bool) (l : List Charge) :
    load (l.filter f) + load (l.filter fun c => !f c) = load l := by
  induction l with
  | nil => rfl
  | cons c l ih => cases h : f c <;> simp_all [load] <;> omega

/-- R135: a lamp group has at most one entry in a charge list. -/
def oneEach (l : List Charge) : Prop := ∀ g, (l.filter (Charge.ofGroup g)).length ≤ 1

/-- R135: the charge of a group with at most one entry is the load of its entries. -/
theorem groupCharge_eq_load (once : oneEach p.budget.charges) :
    p.budget.groupCharge g = load (p.budget.charges.filter (Charge.ofGroup g)) := by
  unfold FeedBudget.groupCharge
  rw [← List.head?_filter]
  have short := once g
  match p.budget.charges.filter (Charge.ofGroup g), short with
  | [], _ => rfl
  | [c], _ => simp [load]

theorem groupCharge_congr (h : q.budget.charges.filter (Charge.ofGroup g) = p.budget.charges.filter (Charge.ofGroup g)) :
    q.budget.groupCharge g = p.budget.groupCharge g := by
  unfold FeedBudget.groupCharge
  rw [← List.head?_filter, ← List.head?_filter, h]

/-- A list whose holders, but for those of strikes, stand once has at most one entry for a group. -/
theorem oneEach_of_nodup {f : Charge → Option Holder} {l : List Charge}
    (hf : ∀ c g, c.holder = .group g → f c = some (.group g))
    (once : (l.filterMap f).Nodup) : oneEach l := by
  intro g
  have counted : (l.filter (Charge.ofGroup g)).length ≤ (l.filterMap f).count (.group g) := by
    clear once
    induction l with
    | nil => simp
    | cons c l ih =>
      by_cases own : c.holder = .group g
      · simp [Charge.ofGroup, own, hf c g own] at ih ⊢
        omega
      · have apart : c.ofGroup g = false := by simp [Charge.ofGroup, own]
        rw [List.filter_cons_of_neg (by simp [apart])]
        refine ih.trans (List.Sublist.count_le _ ?_)
        exact (List.sublist_cons_self c l).filterMap f
  exact counted.trans (List.nodup_iff_count_le_one.mp once _)

theorem oneEach_of_sound (sound : p.BudgetSound) : oneEach p.budget.charges :=
  oneEach_of_nodup (fun c g h => by simp [h]) sound.once

/-- R135: a group's entry altered leaves the others as they stand. -/
theorem setGroupCharge_others (g a : Nat) (p : Part) :
    (setGroupCharge g a p).budget.charges.filter (fun c => !c.ofGroup g)
      = p.budget.charges.filter (fun c => !c.ofGroup g) := by
  unfold setGroupCharge
  split_ifs
  · simp [List.filter_filter]
  · dsimp only
    rw [List.filter_map]
    have same : (fun c : Charge => !c.ofGroup g) ∘ (fun c : Charge => if c.ofGroup g then { c with amount := a } else c)
        = fun c => !c.ofGroup g := by
      funext c
      dsimp only [Function.comp]
      split <;> rfl
    rw [same]
    refine (List.map_congr_left fun c hc => ?_).trans (List.map_id _)
    rw [if_neg (by simpa using (List.mem_filter.mp hc).2), id]
  · simp [addCharge, Charge.ofGroup]

/-- R135: the entry of the group altered has the amount given. -/
theorem setGroupCharge_own (once : oneEach p.budget.charges) (a : Nat) :
    ((setGroupCharge g a p).budget.charges.filter (Charge.ofGroup g)).length ≤ 1
      ∧ load ((setGroupCharge g a p).budget.charges.filter (Charge.ofGroup g)) = a := by
  have short := once g
  unfold setGroupCharge
  split_ifs with h0 found
  · have none : (p.budget.charges.filter fun c => !c.ofGroup g).filter (Charge.ofGroup g) = [] := by
      simp [List.filter_filter]
    dsimp only
    rw [none, h0]
    exact ⟨by decide, rfl⟩
  · dsimp only
    rw [List.filter_map]
    have same : Charge.ofGroup g ∘ (fun c : Charge => if c.ofGroup g then { c with amount := a } else c)
        = Charge.ofGroup g := by
      funext c
      dsimp only [Function.comp]
      split <;> rfl
    rw [same]
    obtain ⟨c, hc, own⟩ := List.any_eq_true.mp found
    have one : p.budget.charges.filter (Charge.ofGroup g) = [c] := by
      have mem : c ∈ p.budget.charges.filter (Charge.ofGroup g) := List.mem_filter.mpr ⟨hc, own⟩
      match h : p.budget.charges.filter (Charge.ofGroup g), short, mem with
      | [d], _, mem => rw [List.mem_singleton.mp mem]
    simp [one, load, own]
  · have none : p.budget.charges.filter (Charge.ofGroup g) = [] := by simpa using found
    simp [addCharge, none, Charge.ofGroup, load]

/-- What a group's entry altered makes of a list of charges. -/
structure Resets (g a : Nat) (l m : List Charge) : Prop where
  others : m.filter (fun c => !c.ofGroup g) = l.filter (fun c => !c.ofGroup g)
  once : (m.filter (Charge.ofGroup g)).length ≤ 1
  own : load (m.filter (Charge.ofGroup g)) = a

theorem Resets.apart {m : List Charge} (h : Resets g a l m) (hk : k ≠ g) :
    m.filter (Charge.ofGroup k) = l.filter (Charge.ofGroup k) := by
  have narrow (n : List Charge) :
      n.filter (Charge.ofGroup k) = (n.filter (fun c => !c.ofGroup g)).filter (Charge.ofGroup k) := by
    rw [List.filter_filter]
    refine List.filter_congr fun c _ => ?_
    by_cases own : c.holder = .group k <;> simp [Charge.ofGroup, own, hk]
  rw [narrow m, h.others, ← narrow l]

theorem Resets.oneEach {m : List Charge} (h : Resets g a l m) (once : Voices.oneEach l) : Voices.oneEach m := by
  intro k
  by_cases hk : k = g
  · exact hk ▸ h.once
  · exact h.apart hk ▸ once k

theorem Resets.load {m : List Charge} (h : Resets g a l m) :
    Voices.load m + Voices.load (l.filter (Charge.ofGroup g)) = Voices.load l + a := by
  have before := load_filter_add (Charge.ofGroup g) l
  have after := load_filter_add (Charge.ofGroup g) m
  rw [h.others, h.own] at after
  omega

theorem Resets.mem {m : List Charge} (h : Resets g a l m) {c : Charge} (hc : c ∈ l) (free : c.isLamp = false) :
    c ∈ m := by
  have apart : c.ofGroup g = false := by
    cases hh : c.holder <;> simp [Charge.isLamp, Charge.ofGroup, hh] at free ⊢
  have mem : c ∈ m.filter (fun c => !c.ofGroup g) := by
    rw [h.others]
    exact List.mem_filter.mpr ⟨hc, by simp [apart]⟩
  exact (List.mem_filter.mp mem).1

end Loads

/-! ## Levels -/

section Levels

variable {rated level c : Nat}

/-- R117, R138: the charge of the level chosen is within what it is chosen for. -/
theorem chargeOf_levelWithin (rated c : Nat) : chargeOf rated (levelWithin rated c) ≤ c := by
  have within : levelWithin rated c * rated ≤ 1000 * c :=
    (Nat.mul_le_mul_right rated (by unfold levelWithin; omega)).trans (Nat.div_mul_le_self (1000 * c) rated)
  unfold chargeOf
  rw [Nat.mul_comm]
  omega

/-- R138: a level chosen for less than a group's charge lies below the group's. -/
theorem levelWithin_lt (h : c < chargeOf rated level) : levelWithin rated c < level := by
  have within : levelWithin rated c * rated ≤ 1000 * c :=
    (Nat.mul_le_mul_right rated (by unfold levelWithin; omega)).trans (Nat.div_mul_le_self (1000 * c) rated)
  have below : rated * levelWithin rated c < rated * level := by
    unfold chargeOf at h
    rw [Nat.mul_comm rated (levelWithin rated c)]
    omega
  exact Nat.lt_of_mul_lt_mul_left below

end Levels

/-! ## Groups lowered -/

section Lowering

variable {p : Part} {g k level x : Nat} {l : List Nat}

/-- R127: an offer leaves a group's commanded level and configuration. -/
theorem offerLevel_group (g : Nat) (p : Part) (k : Nat) :
    ((offerLevel g p).group k).commanded = (p.group k).commanded
      ∧ ((offerLevel g p).group k).config = (p.group k).config := by
  have put (q : Part) (y : LampGroup) (hq : q.lamps = p.lamps) (hc : y.commanded = (p.group g).commanded)
      (hf : y.config = (p.group g).config) :
      ((q.putGroup g y).group k).commanded = (p.group k).commanded
        ∧ ((q.putGroup g y).group k).config = (p.group k).config := by
    by_cases hk : k = g
    · subst hk
      by_cases range : 1 ≤ k ∧ k ≤ 12
      · rw [group_putGroup_self _ _ _ range]
        exact ⟨hc, hf⟩
      · have out (r : Part) : r.group k = LampGroup.started (LampConfig.cold k) := bankGet1_outside _ _ _ range
        rw [out, out]
        exact ⟨rfl, rfl⟩
    · rw [group_putGroup_ne _ _ _ _ hk, group_congr hq]
      exact ⟨rfl, rfl⟩
  unfold offerLevel
  dsimp only
  split
  · exact ⟨rfl, rfl⟩
  · split_ifs
    all_goals exact put _ _ rfl rfl rfl

/-- R127, R165: an offer takes at most one place of LOCAL. -/
theorem offerLevel_places (g : Nat) (p : Part) :
    (offerLevel g p).line.localQ.length ≤ p.line.localQ.length + 1 := by
  unfold offerLevel
  dsimp only
  split
  · omega
  · split_ifs <;> simp

theorem setGroupCharge_putGroup (a : Nat) (y : LampGroup) :
    setGroupCharge g a (p.putGroup g y) = (setGroupCharge g a p).putGroup g y := by
  unfold setGroupCharge
  by_cases none : a = 0
  · simp only [none, if_true]
    rfl
  · by_cases found : p.budget.charges.any (Charge.ofGroup g) = true
    · simp only [none, if_false, putGroup_budget, found, if_true]
      rfl
    · simp only [none, if_false, putGroup_budget, found]
      rfl

theorem lowerGroup_resets (once : oneEach p.budget.charges) (g level : Nat) :
    Resets g (chargeOf (p.group g).config.rated level) p.budget.charges
      (lowerGroup g level p).budget.charges := by
  have budget : ∀ r : Part, (offerLevel g r).budget = r.budget := fun r =>
    (by simp : r.sameBut (offerLevel g r) [.lamps, .locals]) .budget (by decide)
  unfold lowerGroup
  dsimp only
  rw [budget, setGroupCharge_putGroup]
  obtain ⟨one, own⟩ := setGroupCharge_own once (g := g) (chargeOf (p.group g).config.rated level)
  exact ⟨setGroupCharge_others _ _ p, one, own⟩

/-- R125: the record of a group after group g has been lowered, as far as its configuration and level go. -/
theorem lowerGroup_group (g level : Nat) (p : Part) (k : Nat) :
    ((lowerGroup g level p).group k).config = (p.group k).config
      ∧ (k ≠ g → ((lowerGroup g level p).group k).commanded = (p.group k).commanded)
      ∧ (1 ≤ g ∧ g ≤ 12 → ((lowerGroup g level p).group g).commanded = level) := by
  generalize hy : { p.group g with
    commanded := level, clamp := some level, reclaims := bump (p.group g).reclaims } = y
  have lamps : (setGroupCharge g (chargeOf (p.group g).config.rated level) p).lamps = p.lamps :=
    (by simp : p.sameBut (setGroupCharge g (chargeOf (p.group g).config.rated level) p) [.budget]) .lamps (by decide)
  have lowered : ∀ j, ((lowerGroup g level p).group j).commanded = ((p.putGroup g y).group j).commanded
      ∧ ((lowerGroup g level p).group j).config = ((p.putGroup g y).group j).config := fun j => by
    unfold lowerGroup
    dsimp only
    rw [(offerLevel_group _ _ j).1, (offerLevel_group _ _ j).2, setGroupCharge_putGroup, hy]
    generalize setGroupCharge g (chargeOf (p.group g).config.rated level) p = q at lamps
    have same : (q.putGroup g y).lamps = (p.putGroup g y).lamps := by
      unfold Part.putGroup
      rw [lamps]
    exact ⟨congrArg LampGroup.commanded (group_congr (p := p.putGroup g y) same j),
      congrArg LampGroup.config (group_congr (p := p.putGroup g y) same j)⟩
  refine ⟨?_, fun hk => ?_, fun range => ?_⟩
  · rw [(lowered k).2]
    by_cases hk : k = g
    · subst hk
      by_cases range : 1 ≤ k ∧ k ≤ 12
      · rw [group_putGroup_self _ _ _ range, ← hy]
      · have out (r : Part) : r.group k = LampGroup.started (LampConfig.cold k) := bankGet1_outside _ _ _ range
        rw [out, out]
    · rw [group_putGroup_ne _ _ _ _ hk]
  · rw [(lowered k).1, group_putGroup_ne _ _ _ _ hk]
  · rw [(lowered g).1, group_putGroup_self _ _ _ range, ← hy]

theorem lowerGroup_places (g level : Nat) (p : Part) :
    (lowerGroup g level p).line.localQ.length ≤ p.line.localQ.length + 1 := by
  have line (a : Nat) (y : LampGroup) : (setGroupCharge g a (p.putGroup g y)).line.localQ = p.line.localQ :=
    (by simp : p.sameBut (setGroupCharge g a (p.putGroup g y)) [.lamps, .budget]) .locals (by decide)
  unfold lowerGroup
  refine (offerLevel_places _ _).trans ?_
  dsimp only
  rw [line]

/-- What is left of the Budget by a group lowered: the limits, the waiting dials and the grants of strikes. -/
theorem lowerGroup_budget (g level : Nat) (p : Part) :
    (lowerGroup g level p).budget.strikeGrants = p.budget.strikeGrants := by
  have budget : ∀ r : Part, (offerLevel g r).budget = r.budget := fun r =>
    (by simp : r.sameBut (offerLevel g r) [.lamps, .locals]) .budget (by decide)
  unfold lowerGroup
  dsimp only
  rw [budget, setGroupCharge_putGroup]
  dsimp only [putGroup_budget]
  unfold setGroupCharge addCharge
  split_ifs <;> rfl

/-- R138: the groups of a list, each named once, hold the charges of their levels. -/
structure Lit (p : Part) (l : List Nat) : Prop where
  nodup : l.Nodup
  range : ∀ g ∈ l, 1 ≤ g ∧ g ≤ 12
  held : ∀ g ∈ l, p.budget.groupCharge g = chargeOf (p.group g).config.rated (p.group g).commanded
  once : oneEach p.budget.charges

theorem Lit.lower (h : Lit p (g :: l)) (level : Nat) :
    Lit (lowerGroup g level p) l
      ∧ ∀ k ∈ l, (lowerGroup g level p).budget.groupCharge k = p.budget.groupCharge k := by
  obtain ⟨notIn, nodup⟩ := List.nodup_cons.mp h.nodup
  have resets := lowerGroup_resets h.once g level
  have apart : ∀ k ∈ l, k ≠ g := fun k hk e => notIn (e ▸ hk)
  have charge : ∀ k ∈ l, (lowerGroup g level p).budget.groupCharge k = p.budget.groupCharge k := fun k hk =>
    groupCharge_congr (resets.apart (apart k hk))
  refine ⟨⟨nodup, fun k hk => h.range k (List.mem_cons_of_mem _ hk), fun k hk => ?_, resets.oneEach h.once⟩, charge⟩
  obtain ⟨config, level, _⟩ := lowerGroup_group g level p k
  rw [charge k hk, config, level (apart k hk), h.held k (List.mem_cons_of_mem _ hk)]

/-- R138: the walk releases at least what it is asked for, where the groups hold that much. -/
theorem reclaimWalk_releases (h : Lit p l) (enough : x ≤ (l.map p.budget.groupCharge).sum) :
    load (reclaimWalk l x p).budget.charges + x ≤ load p.budget.charges := by
  induction l generalizing p x with
  | nil =>
    obtain rfl : x = 0 := by simpa using enough
    exact Nat.le_refl _
  | cons g l ih =>
    have released := (lowerGroup_resets h.once g 0).load
    rw [← groupCharge_eq_load h.once] at released
    unfold reclaimWalk
    dsimp only
    split_ifs with none part
    · omega
    · have released := (lowerGroup_resets h.once g
        (levelWithin (p.group g).config.rated (p.budget.groupCharge g - x))).load
      rw [← groupCharge_eq_load h.once] at released
      have within := chargeOf_levelWithin (p.group g).config.rated (p.budget.groupCharge g - x)
      omega
    · obtain ⟨lit, same⟩ := h.lower 0
      have rest : x - p.budget.groupCharge g ≤ (l.map (lowerGroup g 0 p).budget.groupCharge).sum := by
        rw [List.map_congr_left same]
        simp only [List.map_cons, List.sum_cons] at enough
        omega
      have more := ih lit rest
      have zero : chargeOf (p.group g).config.rated 0 = 0 := by simp [chargeOf]
      omega

/-- R138: the walk raises no group. -/
theorem reclaimWalk_levels (h : Lit p l) (k : Nat) :
    ((reclaimWalk l x p).group k).commanded ≤ (p.group k).commanded := by
  induction l generalizing p x with
  | nil => exact Nat.le_refl _
  | cons g l ih =>
    have range := h.range g List.mem_cons_self
    have lowers (level : Nat) (hl : level ≤ (p.group g).commanded) :
        ((lowerGroup g level p).group k).commanded ≤ (p.group k).commanded := by
      obtain ⟨_, others, own⟩ := lowerGroup_group g level p k
      by_cases hk : k = g
      · subst hk
        rw [own range]
        exact hl
      · rw [others hk]
    unfold reclaimWalk
    dsimp only
    split_ifs with none part
    · exact Nat.le_refl _
    · have less : p.budget.groupCharge g - x < chargeOf (p.group g).config.rated (p.group g).commanded := by
        rw [← h.held g List.mem_cons_self]
        omega
      exact lowers _ (levelWithin_lt less).le
    · exact (ih (h.lower 0).1).trans (lowers 0 (Nat.zero_le _))

/-- R138: a charge that no lamp holds stays. -/
theorem reclaimWalk_mem (once : oneEach p.budget.charges) {c : Charge} (hc : c ∈ p.budget.charges)
    (free : c.isLamp = false) : c ∈ (reclaimWalk l x p).budget.charges := by
  induction l generalizing p x with
  | nil => exact hc
  | cons g l ih =>
    have lowers (level : Nat) := lowerGroup_resets once g level
    unfold reclaimWalk
    dsimp only
    split_ifs
    · exact hc
    · exact (lowers _).mem hc free
    · exact ih ((lowers 0).oneEach once) ((lowers 0).mem hc free)

theorem reclaimWalk_places (l : List Nat) (x : Nat) (p : Part) :
    (reclaimWalk l x p).line.localQ.length ≤ p.line.localQ.length + l.length := by
  induction l generalizing p x with
  | nil => exact Nat.le_refl _
  | cons g l ih =>
    unfold reclaimWalk
    dsimp only
    rw [List.length_cons]
    split_ifs
    · omega
    · have := lowerGroup_places g (levelWithin (p.group g).config.rated (p.budget.groupCharge g - x)) p
      omega
    · have := lowerGroup_places g 0 p
      have := ih (x - p.budget.groupCharge g) (lowerGroup g 0 p)
      omega

theorem reclaimWalk_strikeGrants (l : List Nat) (x : Nat) (p : Part) :
    (reclaimWalk l x p).budget.strikeGrants = p.budget.strikeGrants := by
  induction l generalizing p x with
  | nil => rfl
  | cons g l ih =>
    unfold reclaimWalk
    dsimp only
    split_ifs
    · rfl
    · exact lowerGroup_budget _ _ _
    · exact (ih _ _).trans (lowerGroup_budget _ _ _)

end Lowering

/-! ## The groups in reclaim order -/

section Order

variable {p : Part} {g : Nat}

theorem mem_groupNumbers : g ∈ groupNumbers ↔ 1 ≤ g ∧ g ≤ 12 := by
  simp only [groupNumbers, oneTo, List.mem_map, List.mem_range]
  exact ⟨fun ⟨k, hk, e⟩ => by omega, fun h => ⟨g - 1, by omega, by omega⟩⟩

theorem mem_reclaimOrder : g ∈ reclaimOrder p ↔ g ∈ groupNumbers ∧ (p.group g).config.priority ≤ 3
    ∧ 0 < p.budget.groupCharge g := by
  simp only [reclaimOrder, List.mem_flatMap, List.mem_filter, List.mem_reverse, Bool.and_eq_true, decide_eq_true_eq]
  constructor
  · rintro ⟨pr, hp, hg, own, held⟩
    refine ⟨hg, ?_, held⟩
    simp only [List.mem_cons, List.not_mem_nil, or_false] at hp
    omega
  · rintro ⟨hg, low, held⟩
    refine ⟨_, ?_, hg, rfl, held⟩
    simp only [List.mem_cons, List.not_mem_nil, or_false]
    omega

/-- R138: each group stands in the order once. -/
theorem reclaimOrder_nodup (p : Part) : (reclaimOrder p).Nodup := by
  refine List.nodup_flatMap.mpr ⟨fun pr _ => List.Nodup.filter _ (by decide), ?_⟩
  refine (by decide : [3, 2, 1, 0].Pairwise (· ≠ ·)).imp fun {a b} hne => ?_
  intro g ha hb
  simp only [List.mem_filter, Bool.and_eq_true, decide_eq_true_eq] at ha hb
  exact hne (ha.2.1.symm.trans hb.2.1)

theorem reclaimOrder_length (p : Part) : (reclaimOrder p).length ≤ 12 :=
  ((reclaimOrder_nodup p).subperm fun _ h => (mem_reclaimOrder.mp h).1).length_le

/-- The lamps' load is within that of the groups of a list, where every lamp charge is one of theirs. -/
theorem load_lamps_le {cs : List Charge} {l : List Nat}
    (known : ∀ c ∈ cs, c.isLamp = true → ∃ g ∈ l, c.holder = .group g) :
    load (cs.filter Charge.isLamp) ≤ (l.map fun g => load (cs.filter (Charge.ofGroup g))).sum := by
  induction cs with
  | nil => simp [load]
  | cons c cs ih =>
    have rest := ih fun d hd => known d (List.mem_cons_of_mem _ hd)
    have split (f : Charge → Bool) :
        load ((c :: cs).filter f) = (if f c then c.amount else 0) + load (cs.filter f) := by
      rw [List.filter_cons]
      split <;> simp [load]
    simp only [split, List.sum_map_add]
    have own : (if c.isLamp = true then c.amount else 0)
        ≤ (l.map fun g => if Charge.ofGroup g c = true then c.amount else 0).sum := by
      split_ifs with lamp
      · obtain ⟨g, hg, holder⟩ := known c List.mem_cons_self lamp
        refine List.single_le_sum (fun _ _ => Nat.zero_le _) _ (List.mem_map.mpr ⟨g, hg, ?_⟩)
        simp [Charge.ofGroup, holder]
      · exact Nat.zero_le _
    omega

/-- R117, R135, R138: in a sound part the groups in reclaim order hold all that the lamps are charged. -/
theorem reclaimOrder_lit (sound : p.BudgetSound) : Lit p (reclaimOrder p)
    ∧ p.budget.lampCharges ≤ ((reclaimOrder p).map p.budget.groupCharge).sum := by
  have once := oneEach_of_sound sound
  refine ⟨⟨reclaimOrder_nodup p, fun g hg => ?_, fun g hg => ?_, once⟩, ?_⟩
  · exact mem_groupNumbers.mp (mem_reclaimOrder.mp hg).1
  · obtain ⟨h1, h12⟩ := mem_groupNumbers.mp (mem_reclaimOrder.mp hg).1
    rw [sound.groups g h1 h12, chargeOf]
  · rw [List.map_congr_left fun g _ => groupCharge_eq_load once]
    refine load_lamps_le fun c hc lamp => ?_
    cases holder : c.holder with
    | strike b o => simp [Charge.isLamp, holder] at lamp
    | dial d => simp [Charge.isLamp, holder] at lamp
    | group g =>
      obtain ⟨h1, h12⟩ := sound.known c hc g holder
      refine ⟨g, mem_reclaimOrder.mpr ⟨mem_groupNumbers.mpr ⟨h1, h12⟩, sound.priorities g h1 h12, ?_⟩, rfl⟩
      rw [groupCharge_eq_load once]
      refine (sound.lit c hc g holder).trans_le (List.single_le_sum (fun _ _ => Nat.zero_le _) _ ?_)
      exact List.mem_map.mpr ⟨c, List.mem_filter.mpr ⟨hc, by simp [Charge.ofGroup, holder]⟩, rfl⟩

/-- R138: in a sound part the reclaim procedure releases what the lamps can give. -/
theorem reclaim_releases (sound : p.BudgetSound) {x : Nat} (enough : x ≤ p.budget.lampCharges) :
    (reclaim x p).budget.committed + x ≤ p.budget.committed :=
  reclaimWalk_releases (reclaimOrder_lit sound).1 (enough.trans (reclaimOrder_lit sound).2)

theorem reclaim_levels (sound : p.BudgetSound) (x k : Nat) :
    ((reclaim x p).group k).commanded ≤ (p.group k).commanded :=
  reclaimWalk_levels (reclaimOrder_lit sound).1 k

theorem reclaim_mem (sound : p.BudgetSound) (x : Nat) {c : Charge} (hc : c ∈ p.budget.charges)
    (free : c.isLamp = false) : c ∈ (reclaim x p).budget.charges :=
  reclaimWalk_mem (oneEach_of_sound sound) hc free

theorem reclaim_places (x : Nat) (p : Part) : (reclaim x p).line.localQ.length ≤ p.line.localQ.length + 12 :=
  (reclaimWalk_places _ _ _).trans (Nat.add_le_add_left (reclaimOrder_length p) _)

end Order

/-! ## A strike that lamps make room for -/

section Struck

variable {p q r s : Part} {v : VoiceId} {b k t force : Nat} {o : Origin}

/-- R137, R138, R141: with no dial waiting, what is granted after lamps are lowered enters behind what they leave. -/
theorem askStrike_reclaimed {a : Nat} (h : p.budget.decide a = .reclaim k) (alone : p.budget.waiting = []) :
    ∃ timer, (askStrike b o a p).1 = { reclaim k p with budget := { (reclaim k p).budget with
      charges := (reclaim k p).budget.charges
        ++ [{ id := (reclaim k p).budget.nextId, holder := .strike b o, amount := a, grantedAt := p.osc
              releaseAt := none }]
      nextId := (reclaim k p).budget.nextId + 1, strikeGrants := bump p.budget.strikeGrants, restore := timer } } := by
  have waiting : (reclaim k p).budget.waiting = [] := (reclaim_dials k p).2.1.trans alone
  have osc : (reclaim k p).osc = p.osc :=
    (by simp : p.sameBut (reclaim k p) [.lamps, .budget, .locals]) .osc (by decide)
  have grants : (reclaim k p).budget.strikeGrants = p.budget.strikeGrants := reclaimWalk_strikeGrants _ _ _
  have none (r : Part) (hr : r.budget.waiting = []) : afterGrant true r = examine r := by
    simp [afterGrant, afterRelease, reoffer, hr]
  simp only [askStrike, tryGrant, h]
  generalize reclaim k p = u at waiting osc grants
  rw [← grants, ← osc]
  exact ⟨_, none { addCharge (.strike b o) a u with budget.strikeGrants := bump u.budget.strikeGrants } waiting⟩

/-- R137: what a request that lamps make room for finds. -/
theorem decide_reclaim {a : Nat} (h : p.budget.decide a = .reclaim k) :
    p.budget.committed ≤ p.budget.limit ∧ k = p.budget.committed + a - p.budget.limit
      ∧ p.budget.limit < p.budget.committed + a ∧ k ≤ p.budget.lampCharges := by
  unfold FeedBudget.decide at h
  split_ifs at h with _ _ above fits enough
  obtain rfl := GrantDecision.reclaim.inj h
  exact ⟨Nat.not_lt.mp above, rfl, Nat.not_le.mp fits, enough⟩

/-- R102, R137: the record of a voice whose strike is granted after lamps have been lowered. -/
theorem voiceStrike_reclaimed_voice (h : p.admission b (originOf v) = .admitted)
    (reclaims : p.budget.decide (p.bell b).config.charge = .reclaim k) (held : (p.voice v).held = []) :
    (voiceStrike v force t p b).voice v = answeredBy (p.voice v) .admitted
      ∨ ∃ s, (voiceStrike v force t p b).voice v = holds (answeredBy (p.voice v) .admitted) s t := by
  have asks : p.sameBut (askStrike b (originOf v) (p.bell b).config.charge p).1
    [.dialDriver, .lamps, .budget, .locals] := by simp
  rw [voiceStrike_reclaimed h reclaims rfl]
  generalize (askStrike b (originOf v) (p.bell b).config.charge p).1 = r at asks
  have voice : r.voice v = p.voice v := by
    cases v
    · exact congrArg ClockVoice.voice (asks .clock (by decide))
    · exact congrArg TuneVoice.voice (asks .tune (by decide))
  rw [voice]
  have own : ((r.putVoice v (answeredBy (p.voice v) .admitted)).voice v).held = [] := by
    rw [voice_putVoice_self]
    exact held
  by_cases room : (r.putVoice v (answeredBy (p.voice v) .admitted)).line.localQ.length < 24
  · left
    rw [placeStrike_enters own room]
    cases v <;> rfl
  · right
    rw [placeStrike_joins (.inr (Nat.not_lt.mp room)) (by rw [own]; decide), voice_putVoice_self, voice_putVoice_self]
    exact ⟨_, rfl⟩

/-- R102, R137, R138: with no dial waiting the strike enters LOCAL behind the lamps that made room for it. -/
theorem voiceStrike_reclaimed_alone (h : p.admission b (originOf v) = .admitted)
    (reclaims : p.budget.decide (p.bell b).config.charge = .reclaim k) (alone : p.budget.waiting = [])
    (held : (p.voice v).held = []) (room : p.line.localQ.length < 12) :
    ∃ (timer : Option RestoreTimer) (u : Part), u = reclaim k p
      ∧ voiceStrike v force t p b = ({ u with
        budget := { u.budget with
          charges := u.budget.charges ++ [chargeFor p v b u.budget.nextId], nextId := u.budget.nextId + 1
          strikeGrants := bump p.budget.strikeGrants, restore := timer }
        line := { u.line with
          localQ := u.line.localQ ++ [.strike (strikeFor p v force b u.budget.nextId)] } } : Part).putVoice v
            (answeredBy (p.voice v) .admitted) := by
  obtain ⟨timer, asks⟩ := askStrike_reclaimed (b := b) (o := originOf v) reclaims alone
  have places := reclaim_places k p
  have same : p.sameBut (reclaim k p) [.lamps, .budget, .locals] := by simp
  rw [voiceStrike_reclaimed h reclaims asks.symm]
  generalize reclaim k p = u at places same
  have voice : u.voice v = p.voice v := by
    cases v
    · exact congrArg ClockVoice.voice (same .clock (by decide))
    · exact congrArg TuneVoice.voice (same .tune (by decide))
  refine ⟨timer, u, rfl, ?_⟩
  rw [placeStrike_enters (by rw [voice_putVoice_self]; exact (congrArg Voice.held voice).trans held)
    (by rw [putVoice_line]; exact (by omega : u.line.localQ.length < 24)), ← voice]
  cases v <;> rfl

theorem sound_of_same (same : p.sameBut q [.clock, .tune]) (h : p.BudgetSound) : q.BudgetSound := by
  have budget : q.budget = p.budget := same .budget (by decide)
  have time : q.time = p.time := same .time (by decide)
  have group := group_congr (p := p) (q := q) (same .lamps (by decide))
  have dial := dial_congr (p := p) (q := q) (same .dialDriver (by decide))
  obtain ⟨room, once, groups, dark, known, lit, priorities, waiting, dials, stopped⟩ := h
  constructor <;> simp only [budget, time, group, dial] <;> assumption

/-- What is claimed of a strike that lamps make room for asks nothing of the voices. -/
theorem struck_of_same (before : p.sameBut r [.clock, .tune]) (after : s.sameBut q [.clock, .tune])
    (h : r.struckAfterReclaim s b v force) : p.struckAfterReclaim q b v force := by
  intro sound alone
  have budget : r.budget = p.budget := before .budget (by decide)
  obtain ⟨committed, grants, stay, levels, struck, frame⟩ := h (sound_of_same before sound) (budget ▸ alone)
  have budget' : q.budget = s.budget := after .budget (by decide)
  have locals : q.line.localQ = s.line.localQ := after .locals (by decide)
  have osc : r.osc = p.osc := before .osc (by decide)
  have address : r.mgmt.address = p.mgmt.address := (before .requests (by decide)).2.2.2.1
  have bell := bell_congr (p := p) (q := r) (before .bellGuard (by decide))
  have group := group_congr (p := p) (q := r) (before .lamps (by decide))
  have group' := group_congr (p := s) (q := q) (after .lamps (by decide))
  simp only [budget, group, osc, address, bell] at committed grants stay levels struck
  simp only [budget', group', locals]
  exact ⟨committed, grants, stay, levels, struck,
    sameBut_trans (sameBut_trans (sameBut_mono before (by simp)) frame) (sameBut_mono after (by simp))⟩

/-- R102, R137, R138: a strike granted after lamps have been lowered is as the statements say. -/
theorem voiceStrike_struck (h : p.admission b (originOf v) = .admitted)
    (reclaims : p.budget.decide (p.bell b).config.charge = .reclaim k) (held : (p.voice v).held = [])
    (room : p.line.localQ.length < 12) : p.struckAfterReclaim (voiceStrike v force t p b) b v force := by
  intro sound alone
  obtain ⟨timer, u, hu, strikes⟩ := voiceStrike_reclaimed_alone (force := force) (t := t) h reclaims alone held room
  obtain ⟨below, hk, above, enough⟩ := decide_reclaim reclaims
  have released := reclaim_releases sound enough
  have levels := reclaim_levels sound k
  have stays : ∀ c ∈ p.budget.charges, c.isLamp = false → c ∈ (reclaim k p).budget.charges := fun c =>
    reclaim_mem sound k
  have same : p.sameBut (reclaim k p) [.lamps, .budget, .locals] := by simp
  rw [← hu] at released levels stays same
  rw [strikes]
  refine ⟨?_, by rw [putVoice_budget], fun c hc free => ?_, fun g _ _ => ?_, ⟨strikeFor p v force b u.budget.nextId, rfl,
    ?_, rfl, ?_⟩, ?_⟩
  · rw [putVoice_budget]
    have sum : load (u.budget.charges ++ [chargeFor p v b u.budget.nextId])
        = u.budget.committed + (p.bell b).config.charge := by
      rw [load_append]
      rfl
    show load (u.budget.charges ++ [chargeFor p v b u.budget.nextId]) ≤ p.budget.limit
    omega
  · rw [putVoice_budget]
    exact List.mem_append_left _ (stays c hc free)
  · rw [group_putVoice]
    exact levels g
  · rw [putVoice_line]
    exact List.getLast?_concat
  · rw [putVoice_budget]
    exact List.mem_append_right _ List.mem_cons_self
  · exact same_putVoice (sameBut_trans (sameBut_mono same (by simp)) (by simp)) (by decide) (by decide)

end Struck

end Sys2Proof.Machine.Voices


/-! SUPPORT. Held strikes that come late (R104), and the blows of the hour (R108, R109). -/

namespace Sys2Proof.Machine.Voices

open Dials Bells

/-! ## Strikes granted and placed -/

section Placed

variable {p : Part} {v : VoiceId} {b force t : Nat}

/-- R135, R137: the Budget once the charge of a strike has been granted at once. -/
abbrev granted (p : Part) (v : VoiceId) (b : Nat) (timer : Option RestoreTimer) : FeedBudget :=
  { p.budget with
    charges := p.budget.charges ++ [chargeFor p v b p.budget.nextId], nextId := p.budget.nextId + 1
    strikeGrants := bump p.budget.strikeGrants, restore := timer }

/-- R103: the strike enters LOCAL while there is room and none is held. -/
theorem voiceStrike_enters (h : p.admission b (originOf v) = .admitted)
    (grant : p.budget.decide (p.bell b).config.charge = .grant) (held : (p.voice v).held = [])
    (room : p.line.localQ.length < 24) : ∃ timer,
    voiceStrike v force t p b = ({ p with
      budget := granted p v b timer
      line := { p.line with localQ := p.line.localQ ++ [.strike (strikeFor p v force b p.budget.nextId)] } }
      : Part).putVoice v (answeredBy (p.voice v) .admitted) := by
  obtain ⟨timer, strikes⟩ := voiceStrike_granted (force := force) (t := t) h grant
  refine ⟨timer, ?_⟩
  rw [strikes, placeStrike_enters (by rw [voice_putVoice_self]; exact held) (by rw [putVoice_line]; exact room)]
  cases v <;> rfl

/-- R103: else it joins the held strikes. -/
theorem voiceStrike_joins (h : p.admission b (originOf v) = .admitted)
    (grant : p.budget.decide (p.bell b).config.charge = .grant)
    (blocked : (p.voice v).held ≠ [] ∨ 24 ≤ p.line.localQ.length) (room : (p.voice v).held.length < 4) : ∃ timer,
    voiceStrike v force t p b = ({ p with budget := granted p v b timer } : Part).putVoice v
      (holds (answeredBy (p.voice v) .admitted) (strikeFor p v force b p.budget.nextId) t) := by
  obtain ⟨timer, strikes⟩ := voiceStrike_granted (force := force) (t := t) h grant
  refine ⟨timer, ?_⟩
  rw [strikes, placeStrike_joins (by rw [voice_putVoice_self, putVoice_line]; exact blocked)
    (by rw [voice_putVoice_self]; exact room), voice_putVoice_self, putVoice_putVoice]

/-- R103: a fifth displaces the oldest, here with no dial waiting for the charge that it releases. -/
theorem voiceStrike_displaces {o : HeldStrike} {more : List HeldStrike} (h : p.admission b (originOf v) = .admitted)
    (grant : p.budget.decide (p.bell b).config.charge = .grant) (held : (p.voice v).held = o :: more)
    (full : more.length = 3) (alone : p.budget.waiting = []) : ∃ timer,
    voiceStrike v force t p b = ({ p with budget := { granted p v b timer with
        charges := (p.budget.charges ++ [chargeFor p v b p.budget.nextId]).filter
          (fun c => !c.ofStrike o.strike.charge) } } : Part).putVoice v
      (holds { p.voice v with
        held := more
        counts := { (p.voice v).counts with
          admitted := bump (p.voice v).counts.admitted, displaced := bump (p.voice v).counts.displaced } }
        (strikeFor p v force b p.budget.nextId) t) := by
  obtain ⟨first, strikes⟩ := voiceStrike_granted (force := force) (t := t) h grant
  rw [strikes, placeStrike_displaces (by rw [voice_putVoice_self]; exact held) full, voice_putVoice_self,
    putVoice_putVoice]
  obtain ⟨timer, releases⟩ := releaseCharge_alone o.strike.charge (p := ({ p with budget := granted p v b first }
    : Part).putVoice v (holds { p.voice v with
        held := more
        counts := { (p.voice v).counts with
          admitted := bump (p.voice v).counts.admitted, displaced := bump (p.voice v).counts.displaced } }
        (strikeFor p v force b p.budget.nextId) t)) (by rw [putVoice_budget]; exact alone)
  refine ⟨timer, releases.trans ?_⟩
  cases v <;> rfl

theorem answered_refused {c : VoiceCounts} {a : Answer} (h1 : a ≠ .admitted) (h2 : a ≠ .notOwner)
    (h3 : a ≠ .notPermitted) (h4 : a ≠ .budgetSkip) : c.answered a = { c with refused := bump c.refused } := by
  cases a <;> first | rfl | contradiction

end Placed

/-! ## Held strikes -/

section Held

variable {p : Part} {v : VoiceId}

theorem exec_heldStrikeDeadline (w : List Instr) (hs : p.retention.supply = true) :
    exec (.heldStrikeDeadline v) ⟨p, w⟩ = .next ⟨dropLate v p, w⟩ := by
  simp [exec, execHeldStrikeDeadline, hs]

theorem bumpBy_zero (n : Nat) : bumpBy 0 n = n := by
  unfold bumpBy
  split_ifs with h
  · rfl
  · exact Nat.max_eq_left (Nat.not_lt.mp h)

theorem bumpBy_eq {k n : Nat} (h : n + k ≤ 65535) : bumpBy k n = n + k := by
  unfold bumpBy
  split_ifs with below
  · rfl
  · have top : Config.countLimit ≤ n + k := Nat.not_lt.mp below
    unfold Config.countLimit at top ⊢
    omega

/-- R104: the held strikes of a voice whose deadline has been reached, and the others. -/
def lateOf (p : Part) (x : Voice) : List HeldStrike := x.held.filter (fun h => h.deadline ≤ p.osc)

def stillHeld (p : Part) (x : Voice) : List HeldStrike := x.held.filter (fun h => p.osc < h.deadline)

theorem dropLate_eq (v : VoiceId) (p : Part) :
    dropLate v p = releaseStrikes (lateOf p (p.voice v)) (p.putVoice v { p.voice v with
      held := stillHeld p (p.voice v)
      counts := { (p.voice v).counts with
        late := bumpBy (lateOf p (p.voice v)).length (p.voice v).counts.late } }) := by
  have others : (p.voice v).held.filter (fun h => ¬ h.deadline ≤ p.osc) = stillHeld p (p.voice v) :=
    List.filter_congr fun h _ => by simp
  rw [← others]
  rfl

theorem late_and_held (p : Part) (x : Voice) : (lateOf p x).length + (stillHeld p x).length = x.held.length := by
  have split := List.length_eq_length_filter_add (l := x.held) (fun h => decide (h.deadline ≤ p.osc))
  have others : stillHeld p x = x.held.filter (fun h => !decide (h.deadline ≤ p.osc)) := by
    unfold stillHeld
    exact List.filter_congr fun h _ => by rw [Bool.eq_iff_iff]; simp
  rw [others]
  exact split.symm

/-- R104: before any deadline nothing is dropped. -/
theorem dropLate_none (early : ∀ h ∈ (p.voice v).held, p.osc < h.deadline) : dropLate v p = p := by
  have none : lateOf p (p.voice v) = [] := List.filter_eq_nil_iff.mpr fun h hh => by simpa using early h hh
  have all : stillHeld p (p.voice v) = (p.voice v).held :=
    List.filter_eq_self.mpr fun h hh => by simpa using early h hh
  rw [dropLate_eq, none, all, List.length_nil, bumpBy_zero]
  exact putVoice_voice p v

/-- R104, R135: with no dial waiting, the late strikes go with their charges, and nothing else does. -/
theorem dropLate_alone (v : VoiceId) (p : Part) (alone : p.budget.waiting = []) :
    ((dropLate v p).voice v).held = (p.voice v).held.filter (fun h => p.osc < h.deadline)
      ∧ (∀ c, c ∈ (dropLate v p).budget.charges ↔ c ∈ p.budget.charges
          ∧ ∀ h ∈ (p.voice v).held, h.deadline ≤ p.osc → c.ofStrike h.strike.charge = false)
      ∧ ((p.voice v).counts.late + (p.voice v).held.length ≤ 65535 →
          ((dropLate v p).voice v).counts.late + ((dropLate v p).voice v).held.length
            = (p.voice v).counts.late + (p.voice v).held.length)
      ∧ p.sameBut (dropLate v p) [.clock, .tune, .budget] := by
  rw [dropLate_eq]
  generalize hl : lateOf p (p.voice v) = l
  generalize hy : ({ p.voice v with
    held := stillHeld p (p.voice v)
    counts := { (p.voice v).counts with late := bumpBy l.length (p.voice v).counts.late } } : Voice) = y
  have putAlone : (p.putVoice v y).budget.waiting = [] := by rw [putVoice_budget]; exact alone
  obtain ⟨g, released⟩ := releaseStrikes_alone l putAlone
  obtain ⟨_, charges⟩ := (releaseStrikes_releases l (p.putVoice v y)).charges putAlone
  have voice : (releaseStrikes l (p.putVoice v y)).voice v = y := by
    rw [released]
    cases v <;> rfl
  rw [voice, charges, putVoice_budget, ← hy]
  refine ⟨rfl, fun c => ?_, fun below => ?_, ?_⟩
  · simp only [← hl, List.mem_filter, unheld, lateOf, List.all_eq_true, decide_eq_true_eq, and_imp,
      Bool.not_eq_true']
  · have split := late_and_held p (p.voice v)
    rw [hl] at split
    rw [bumpBy_eq (by omega), Nat.add_assoc, split]
  · rw [hy, released]
    simp

end Held

/-! ## Blows -/

section Blows

variable {p q : Part} {b n t : Nat} {c : ChimeSet}

theorem exec_hourBlow (w : List Instr) (hs : p.retention.supply = true) :
    exec .hourBlow ⟨p, w⟩ = .next ⟨hourBlowPart p, w⟩ := by
  simp [exec, execHourBlow, hs]

theorem hourBlowPart_idle (h : p.clock.state = .idle ∨ p.clock.state = .chiming
    ∨ ∃ t, p.clock.nextBlow = some t ∧ p.osc < t) : hourBlowPart p = p := by
  unfold hourBlowPart
  rcases h with h | h | ⟨t, ht, early⟩
  · simp [h]
  · simp [h]
  · rw [ht]
    split_ifs
    · cases p.clock.cachedSet
      · rfl
      · exact if_neg (Nat.not_le.mpr early)
    · rfl

theorem hourBlowPart_due (strikes : p.clock.state = .pausing ∨ p.clock.state = .striking)
    (next : p.clock.nextBlow = some t) (set : p.clock.cachedSet = some c) (due : t ≤ p.osc) :
    hourBlowPart p = blow t c p := by
  unfold hourBlowPart
  rw [if_pos strikes]
  simp only [next, set, if_pos due]

/-- R108: the clock voice makes a blow. -/
abbrev striking (p : Part) : Part := { p with clock.state := .striking }

/-- R108: the clock voice after a blow, `n` to come. -/
abbrev afterBlow (c : ChimeSet) (t n : Nat) (p : Part) : Part :=
  { p with clock.blows := some n, clock.nextBlow := some (t + msTicks c.blowInterval) }

theorem blow_ends (h : p.clock.blows = none ∨ p.clock.blows = some 0) : blow t c p = endQuarter p := by
  unfold blow
  rcases h with h | h <;> simp [h]

theorem placeStrike_clock (v : VoiceId) (s : Strike) (t : Nat) (p : Part) :
    (placeStrike v s t p).clock = { p.clock with voice := (placeStrike v s t p).clock.voice } := by
  have put (x : Voice) : (p.putVoice v x).clock = { p.clock with voice := (p.putVoice v x).clock.voice } := by
    cases v <;> rfl
  have released (id : Nat) (r : Part) : (releaseCharge id r).clock = r.clock :=
    (by simp : r.sameBut (releaseCharge id r) [.dialDriver, .lamps, .budget, .locals]) .clock (by decide)
  unfold placeStrike
  dsimp only
  split_ifs
  · rfl
  · split
    · rw [released]
      exact put _
    · exact put _
  · split <;> exact put _

theorem voiceStrike_clock (v : VoiceId) (force t : Nat) (p : Part) (b : Nat) :
    (voiceStrike v force t p b).clock = { p.clock with voice := (voiceStrike v force t p b).clock.voice } := by
  have asked : (admitStrike b (originOf v) p).1.clock = p.clock :=
    (by simp : p.sameBut (admitStrike b (originOf v) p).1 [.dialDriver, .bellGuard, .lamps, .budget, .locals])
      .clock (by decide)
  have counted (x : Voice) : ((admitStrike b (originOf v) p).1.putVoice v x).clock
      = { p.clock with voice := ((admitStrike b (originOf v) p).1.putVoice v x).clock.voice } := by
    rw [← asked]
    cases v <;> rfl
  unfold voiceStrike
  dsimp only
  split
  · rw [placeStrike_clock, counted]
  · exact counted _

/-- R108: a blow on the bell found. -/
theorem blow_strikes (more : p.clock.blows = some (n + 1)) (found : blowBell c p = some b) :
    blow t c p
      = afterBlow c t n (voiceStrike .clock c.blowForce (t + msTicks c.blowInterval) (striking p) b) := by
  have left : (voiceStrike .clock c.blowForce (t + msTicks c.blowInterval) (striking p) b).clock.blows
      = some (n + 1) := by
    rw [voiceStrike_clock]
    exact more
  have same : blowBell c (striking p) = some b := found
  unfold blow
  rw [if_neg (by simp [more])]
  simp only [same, left]
  rfl

theorem blow_withheld (more : p.clock.blows = some (n + 1)) (none : blowBell c p = none) :
    blow t c p = afterBlow c t n { striking p with clock.withheld := bump p.clock.withheld } := by
  have same : blowBell c (striking p) = Option.none := none
  unfold blow
  rw [if_neg (by simp [more])]
  simp only [same]
  rw [more]
  rfl

theorem blowBell_some (h : b = c.hourBell ∨ (p.owner c.hourBell ≠ some .clock ∧ c.altBell = some b))
    (owns : p.owner b = some .clock) : blowBell c p = some b := by
  unfold blowBell ChimeSet.hourBells
  rcases h with rfl | ⟨other, alt⟩
  · simp [owns]
  · simp [other, alt, owns]

theorem blowBell_none (h1 : p.owner c.hourBell ≠ some .clock)
    (h2 : ∀ b, c.altBell = some b → p.owner b ≠ some .clock) :
    blowBell c p = none := by
  unfold blowBell ChimeSet.hourBells
  simpa [h1] using h2

end Blows

/-- Settles O42: late strikes are those of `dropLate_eq`, and each blow is `blow` by what `voiceStrike` comes to. -/
theorem heldStrikesAndBlows : Obligations.HeldStrikesAndBlows := by
  unfold Obligations.HeldStrikesAndBlows
  refine fun p w supply => ⟨fun v x hx => ?_, fun idle => ?_, fun t c strikes next set due => ?_⟩
  · subst hx
    rw [exec_heldStrikeDeadline w supply]
    refine ⟨fun early => by rw [dropLate_none early], fun alone => ?_⟩
    exact ⟨_, rfl, dropLate_alone v p alone⟩
  · rw [exec_hourBlow w supply, hourBlowPart_idle idle]
  · rw [exec_hourBlow w supply, hourBlowPart_due strikes next set due]
    refine ⟨fun last => ?_, fun n more other noAlt => ?_, fun b n more which owns => ?_⟩
    · obtain ⟨clock, _, _, gone⟩ := endQuarter_stops p
      rw [blow_ends last]
      refine ⟨_, rfl, ?_, ?_, ?_, ?_, ?_, ?_, ?_, gone, by simp⟩ <;> rw [clock]
      · exact set
      · rfl
      · rfl
    · rw [blow_withheld more (blowBell_none other noAlt)]
    · rw [blow_strikes more (blowBell_some which owns)]
      have foreign : p.admission b .clock ≠ .notOwner := admission_ne_notOwner owns
      refine ⟨fun refused allowed => ?_, fun barred => ?_, fun admitted refuse => ?_,
        fun k admitted reclaims held room => ⟨_, rfl, ?_⟩, fun admitted grant held room => ?_,
        fun k g admitted grant hk hg => ⟨fun blocked room => ?_, fun o late held full alone => ?_⟩⟩
      · rw [voiceStrike_refused (p := striking p) (v := .clock) rfl refused, answeredBy]
        exact congrArg (fun y : VoiceCounts => Host.Outcome.next (State.mk (afterBlow c t n
            ({ p.putBell b (refusedOnce (p.bell b)) with
              clock := { p.clock with state := .striking, voice := { p.clock.voice with counts := y } } })) w))
          (answered_refused refused foreign allowed admission_ne_budgetSkip)
      · rw [voiceStrike_refused (p := striking p) (v := .clock) barred (by decide)]
        rfl
      · rw [voiceStrike_skipped (p := striking p) (v := .clock) admitted refuse]
        rfl
      · have struck := voiceStrike_struck (p := striking p) (v := .clock) (force := c.blowForce)
          (t := t + msTicks c.blowInterval) admitted reclaims held room
        have voice := voiceStrike_reclaimed_voice (p := striking p) (v := .clock) (force := c.blowForce)
          (t := t + msTicks c.blowInterval) admitted reclaims held
        have clock := voiceStrike_clock .clock c.blowForce (t + msTicks c.blowInterval) (striking p) b
        generalize voiceStrike .clock c.blowForce (t + msTicks c.blowInterval) (striking p) b = r at struck voice clock
        refine ⟨struck_of_same (by simp) (by simp) struck, (congrArg ClockVoice.state clock).trans rfl, rfl, rfl, ?_⟩
        show (r.voice .clock).counts.admitted = bump p.clock.voice.counts.admitted
        rcases voice with e | ⟨s, e⟩ <;> rw [e] <;> rfl
      · obtain ⟨timer, enters⟩ := voiceStrike_enters (p := striking p) (v := .clock) (force := c.blowForce)
          (t := t + msTicks c.blowInterval) admitted grant held room
        rw [enters]
        exact ⟨_, _, rfl, rfl, rfl, rfl, rfl, rfl, rfl, by simp [Part.putVoice]⟩
      · obtain ⟨timer, joins⟩ := voiceStrike_joins (p := striking p) (v := .clock) (force := c.blowForce)
          (t := t + msTicks c.blowInterval) admitted grant blocked room
        rw [joins, hk, hg]
        exact ⟨_, rfl, rfl, rfl, by simp [Part.putVoice]⟩
      · obtain ⟨timer, displaces⟩ := voiceStrike_displaces (p := striking p) (v := .clock) (force := c.blowForce)
          (t := t + msTicks c.blowInterval) admitted grant held full alone
        rw [displaces, hk, hg]
        exact ⟨_, rfl, rfl, rfl, by simp [Part.putVoice]⟩

end Sys2Proof.Machine.Voices


/-! SUPPORT. The NOTEs of a voice (R98, R102): its bells one after the other, and the steps a voice takes at its due
instant. -/

namespace Sys2Proof.Machine.Voices

open Dials Bells

/-! ## The bells of a note -/

section Notes

variable {p q r : Part} {v : VoiceId} {b force t : Nat} {l l' m m' ids ids' : List Nat}

/-- R102: from `p` to `q` the bells of a list have been treated in turn, and of them those sounded have been struck, each
with its charge, here without lamps being lowered or strikes held. -/
structure Sounds (v : VoiceId) (force : Nat) (p q : Part) (bells sounded ids : List Nat) : Prop where
  each : ids.length = sounded.length
  locals : q.line.localQ
    = p.line.localQ ++ (sounded.zip ids).map fun a => LocalItem.strike (strikeFor p v force a.1 a.2)
  charges : q.budget.charges = p.budget.charges ++ (sounded.zip ids).map fun a => chargeFor p v a.1 a.2
  limit : q.budget.limit = p.budget.limit
  configs : ∀ c, (q.bell c).config = (p.bell c).config
  bell : ∀ c, 1 ≤ c → c ≤ 16 → q.bell c
    = if c ∈ bells ∧ c ∈ (p.voice v).declared.getD [] ∧ c ∉ sounded then refusedOnce (p.bell c) else p.bell c
  voice : q.voice v = { p.voice v with counts := (q.voice v).counts }
  admitted : (p.voice v).counts.admitted + sounded.length ≤ 65535 →
    (q.voice v).counts.admitted = (p.voice v).counts.admitted + sounded.length
  undeclared : (p.voice v).counts.undeclared + bells.length ≤ 65535 → (q.voice v).counts.undeclared
    = (p.voice v).counts.undeclared + (bells.filter (fun b => decide (b ∉ (p.voice v).declared.getD []))).length
  same : p.sameBut q [.bellGuard, .clock, .tune, .budget, .locals]

theorem bump_of_lt {n : Nat} (h : n + 1 ≤ 65535) : bump n = n + 1 := if_pos h

theorem Sounds.nil (p : Part) : Sounds v force p p [] [] [] :=
  ⟨rfl, by simp, by simp, rfl, fun _ => rfl, fun c _ _ => by simp, rfl, fun _ => rfl, fun _ => rfl, by simp⟩

theorem Sounds.trans (h : Sounds v force p q l m ids) (k : Sounds v force q r l' m' ids')
    (apart : ∀ b ∈ l', b ∉ l) (hm : ∀ b ∈ m, b ∈ l) (hm' : ∀ b ∈ m', b ∈ l') :
    Sounds v force p r (l ++ l') (m ++ m') (ids ++ ids') := by
  have address : q.mgmt.address = p.mgmt.address := (h.same .requests (by decide)).2.2.2.1
  have osc : q.osc = p.osc := h.same .osc (by decide)
  have declared : (q.voice v).declared = (p.voice v).declared := by rw [h.voice]
  have zip : (m ++ m').zip (ids ++ ids') = m.zip ids ++ m'.zip ids' := List.zip_append h.each.symm
  refine ⟨by simp [h.each, k.each], ?_, ?_, k.limit.trans h.limit, fun c => (k.configs c).trans (h.configs c),
    fun c h1 h16 => ?_, by rw [k.voice, h.voice], fun below => ?_, fun below => ?_, sameBut_trans h.same k.same⟩
  · rw [k.locals, h.locals, zip, List.map_append, List.append_assoc]
    simp only [strikeFor, h.configs, address]
  · rw [k.charges, h.charges, zip, List.map_append, List.append_assoc]
    simp only [chargeFor, h.configs, osc]
  · rw [k.bell c h1 h16, h.bell c h1 h16, declared]
    by_cases later : c ∈ l'
    · have before := apart c later
      have silent : c ∉ m := fun hc => before (hm c hc)
      simp [later, before, silent]
    · have silent : c ∉ m' := fun hc => later (hm' c hc)
      simp [later, silent]
  · rw [List.length_append] at below ⊢
    have first := h.admitted (by omega)
    rw [k.admitted (by omega), first, Nat.add_assoc]
  · rw [List.length_append] at below
    have first := h.undeclared (by omega)
    have short := List.length_filter_le (fun b => decide (b ∉ (p.voice v).declared.getD [])) l
    rw [k.undeclared (by omega), first, declared, List.filter_append, List.length_append, Nat.add_assoc]

/-- R102: a bell that the entry does not declare is counted and skipped. -/
theorem sounds_undeclared (h : b ∉ (p.voice v).declared.getD []) :
    Sounds v force p (noteBell v force t p b) [b] [] [] := by
  rw [noteBell_undeclared h]
  refine ⟨rfl, by simp, by simp, by simp, fun c => by simp, fun c _ _ => ?_, by simp, fun _ => by simp, fun below => ?_,
    by simp⟩
  · rw [bell_putVoice, if_neg]
    rintro ⟨hc, declared, _⟩
    exact h (List.mem_singleton.mp hc ▸ declared)
  · have alone : [b].filter (fun b => decide (b ∉ (p.voice v).declared.getD [])) = [b] := by simp [h]
    rw [alone, voice_putVoice_self]
    exact bump_of_lt below

/-- R57, R102: a bell that the Guard refuses is counted, in its record and in the voice's. -/
theorem sounds_refused (declared : b ∈ (p.voice v).declared.getD [])
    (refused : p.admission b (originOf v) ≠ .admitted) : Sounds v force p (noteBell v force t p b) [b] [] [] := by
  rw [noteBell_declared declared, voiceStrike_refused rfl refused]
  have foreign := admission_ne_budgetSkip (p := p) (b := b) (o := originOf v)
  generalize p.admission b (originOf v) = a at refused foreign
  have none : [b].filter (fun b => decide (b ∉ (p.voice v).declared.getD [])) = [] := by simp [declared]
  refine ⟨rfl, by simp, by simp, by simp, fun c => ?_, fun c h1 h16 => ?_, by simp, fun _ => ?_, fun _ => ?_, by simp⟩
  · rw [bell_putVoice]
    rcases bell_putBell_cases p b c (refusedOnce (p.bell b)) with ⟨e, rfl⟩ | ⟨e, _⟩ <;> rw [e]
  · rw [bell_putVoice]
    by_cases hc : c = b
    · subst hc
      rw [bell_putBell_self _ _ _ ⟨h1, h16⟩, if_pos (by simp [declared])]
    · rw [bell_putBell_ne _ _ _ _ hc, if_neg (by simp [hc])]
  · rw [voice_putVoice_self]
    cases a <;> first | rfl | exact absurd rfl refused
  · rw [none, voice_putVoice_self]
    cases a <;> rfl

/-- R102, R103: a bell that is admitted and granted its charge is struck. -/
theorem sounds_admitted (declared : b ∈ (p.voice v).declared.getD [])
    (admitted : p.admission b (originOf v) = .admitted)
    (grant : p.budget.decide (p.bell b).config.charge = .grant) (held : (p.voice v).held = [])
    (room : p.line.localQ.length < 24) :
    Sounds v force p (noteBell v force t p b) [b] [b] [p.budget.nextId] := by
  obtain ⟨timer, enters⟩ := voiceStrike_enters (force := force) (t := t) admitted grant held room
  rw [noteBell_declared declared, enters]
  have none : [b].filter (fun b => decide (b ∉ (p.voice v).declared.getD [])) = [] := by simp [declared]
  refine ⟨rfl, by rw [putVoice_line]; rfl, by rw [putVoice_budget]; rfl, by rw [putVoice_budget]; rfl,
    fun c => by rw [bell_putVoice]; rfl, fun c _ _ => ?_, by simp, fun below => ?_, fun _ => ?_, by simp⟩
  · rw [bell_putVoice, if_neg fun h => h.2.2 h.1]
    rfl
  · rw [voice_putVoice_self]
    exact bump_of_lt below
  · rw [none, voice_putVoice_self]
    rfl

/-- R102: which bells of a note sound, where the Budget has room for all of them. -/
def soundsOf (p : Part) (v : VoiceId) (b : Nat) : Bool :=
  decide (b ∈ (p.voice v).declared.getD []) && decide (p.admission b (originOf v) = .admitted)

theorem load_charges (m ids : List Nat) (h : ids.length = m.length) :
    load ((m.zip ids).map fun a => chargeFor p v a.1 a.2) = (m.map fun b => (p.bell b).config.charge).sum := by
  have first : (m.zip ids).map Prod.fst = m := List.map_fst_zip (Nat.le_of_eq h.symm)
  rw [load, List.map_map]
  conv_rhs => rw [← first, List.map_map]
  rfl

/-- R102: one bell of a note, with room for it if it sounds. -/
theorem noteBell_sounds (hm : m = [b].filter (soundsOf p v))
    (fits : p.budget.committed + (m.map fun b => (p.bell b).config.charge).sum ≤ p.budget.limit)
    (listed : p.budget.charges.length + m.length ≤ 80) (held : (p.voice v).held = [])
    (room : p.line.localQ.length + m.length ≤ 24) : ∃ ids, Sounds v force p (noteBell v force t p b) [b] m ids := by
  by_cases declared : b ∈ (p.voice v).declared.getD []
  · by_cases admitted : p.admission b (originOf v) = .admitted
    · have sounds : m = [b] := by simp [hm, soundsOf, declared, admitted]
      subst sounds
      simp only [List.map_cons, List.map_nil, List.sum_cons, List.sum_nil, List.length_cons,
        List.length_nil] at fits listed room
      exact ⟨_, sounds_admitted declared admitted (decide_grant (by omega) (by omega)) held (by omega)⟩
    · have silent : m = [] := by simp [hm, soundsOf, admitted]
      exact ⟨[], by rw [silent]; exact sounds_refused declared admitted⟩
  · have silent : m = [] := by simp [hm, soundsOf, declared]
    exact ⟨[], by rw [silent]; exact sounds_undeclared declared⟩

/-- R102: the bells of a note, each named once, with room for all that sound. -/
theorem noteBells_sound (nodup : l.Nodup) (range : ∀ b ∈ l, 1 ≤ b ∧ b ≤ 16) (hm : m = l.filter (soundsOf p v))
    (fits : p.budget.committed + (m.map fun b => (p.bell b).config.charge).sum ≤ p.budget.limit)
    (listed : p.budget.charges.length + m.length ≤ 80) (held : (p.voice v).held = [])
    (room : p.line.localQ.length + m.length ≤ 24) :
    ∃ ids, Sounds v force p (l.foldl (noteBell v force t) p) l m ids := by
  induction l generalizing p m with
  | nil =>
    subst hm
    exact ⟨[], Sounds.nil p⟩
  | cons b l ih =>
    obtain ⟨notIn, nodup⟩ := List.nodup_cons.mp nodup
    obtain ⟨m1, hm1⟩ : ∃ m1, m1 = [b].filter (soundsOf p v) := ⟨_, rfl⟩
    obtain ⟨m2, hm2⟩ : ∃ m2, m2 = l.filter (soundsOf p v) := ⟨_, rfl⟩
    have parts : m = m1 ++ m2 := by rw [hm, hm1, hm2, ← List.filter_append]; rfl
    subst parts
    rw [List.map_append, List.sum_append] at fits
    rw [List.length_append] at listed room
    obtain ⟨ids1, one⟩ := noteBell_sounds (force := force) (t := t) hm1 (by omega) (by omega) held (by omega)
    have q_bell : ∀ c ∈ l, (noteBell v force t p b).bell c = p.bell c := fun c hc => by
      have other : ¬ c ∈ [b] := fun e => notIn (List.mem_singleton.mp e ▸ hc)
      rw [one.bell c (range c (by simp [hc])).1 (range c (by simp [hc])).2, if_neg fun h => other h.1]
    have same := one.same
    have later : m2 = l.filter (soundsOf (noteBell v force t p b) v) := by
      rw [hm2]
      refine List.filter_congr fun c hc => ?_
      rw [soundsOf, soundsOf, one.voice, admission_congr (q_bell c hc) (same .session (by decide))
        (same .faults (by decide)).2.2 (same .osc (by decide))]
    have amounts : m2.map (fun c => ((noteBell v force t p b).bell c).config.charge)
        = m2.map fun c => (p.bell c).config.charge := by simp only [one.configs]
    have committed : (noteBell v force t p b).budget.committed
        = p.budget.committed + (m1.map fun c => (p.bell c).config.charge).sum := by
      change load _ = load _ + _
      rw [one.charges, load_append, load_charges _ _ one.each]
    obtain ⟨ids2, two⟩ := ih nodup (fun c hc => range c (by simp [hc])) later
      (by rw [amounts, committed, one.limit]; omega) (by simp [one.charges, one.each]; omega)
      (by rw [one.voice]; exact held) (by simp [one.locals, one.each]; omega)
    refine ⟨ids1 ++ ids2, one.trans two (fun c hc e => notIn (List.mem_singleton.mp e ▸ hc)) (fun c hc => ?_)
      fun c hc => ?_⟩
    · rw [hm1] at hc
      exact List.mem_of_mem_filter hc
    · rw [hm2] at hc
      exact List.mem_of_mem_filter hc

end Notes

end Sys2Proof.Machine.Voices


/-! SUPPORT. A voice at its due instant (R96, R98): the note that it takes, and the obligation about its steps. -/

namespace Sys2Proof.Machine.Voices

open Dials Bells

section NoteTaken

variable {p : Part} {v : VoiceId} {f : PhraseFrame} {rest : List PhraseFrame} {s l d force b : Nat} {bells : List Nat}

/-- R98, R102: the NOTE at a voice's cursor, its bells treated in their order with the next due instant as deadline. -/
theorem playVoice_note (hs : (p.voice v).start = some s) (hl : (p.voice v).pulse = some l)
    (stack : (p.voice v).stack = f :: rest) (inside : f.cursor < f.length)
    (step : p.stepIs (f.start + f.cursor) (.note bells force d)) :
    playVoice v p = bells.foldl (noteBell v force (dueTick s l ((p.voice v).pulses + d)))
      (p.putVoice v (afterStep (p.voice v) f rest d)) := by
  rw [playVoice_waits fun k => takeSteps_note stack inside step, playNote, voice_putVoice_self]
  have next : (afterStep (p.voice v) f rest d).due = some (dueTick s l ((p.voice v).pulses + d)) :=
    due_iff.mpr ⟨s, l, hs, hl, rfl⟩
  rw [next, Option.getD_some]

/-- R102: a NOTE of one declared bell. -/
theorem playVoice_strike (hs : (p.voice v).start = some s) (hl : (p.voice v).pulse = some l)
    (stack : (p.voice v).stack = f :: rest) (inside : f.cursor < f.length)
    (step : p.stepIs (f.start + f.cursor) (.note [b] force d)) (declared : b ∈ (p.voice v).declared.getD []) :
    playVoice v p = voiceStrike v force (dueTick s l ((p.voice v).pulses + d))
      (p.putVoice v (afterStep (p.voice v) f rest d)) b := by
  rw [playVoice_note hs hl stack inside step, List.foldl_cons, List.foldl_nil,
    noteBell_declared (by rw [voice_putVoice_self]; exact declared)]

/-- A voice takes no step before its due instant, or while it sounds nothing. -/
theorem duePart_idle {x : Voice} (hx : x = p.voice v)
    (h : x.start = none ∨ x.pulse = none
      ∨ (∃ s l, x.start = some s ∧ x.pulse = some l ∧ p.osc < dueTick s l x.pulses)
      ∨ (v = .clock ∧ p.clock.state ≠ .chiming) ∨ (v = .tune ∧ p.tune.state = .idle)) : duePart v p = p := by
  subst hx
  have waits (no : ∀ s l, (p.voice v).start = some s → (p.voice v).pulse = some l →
      p.osc < dueTick s l (p.voice v).pulses) : duePart v p = p := by
    refine duePart_waits (Bool.eq_false_iff.mpr fun due => ?_)
    obtain ⟨s, l, hs, hl, past⟩ := voiceDue_iff.mp due
    exact absurd past (Nat.not_le.mpr (no s l hs hl))
  rcases h with unset | unset | ⟨s, l, hs, hl, early⟩ | silent
  · exact waits fun s l hs _ => by simp [unset] at hs
  · exact waits fun s l _ hl => by simp [unset] at hl
  · refine waits fun s' l' hs' hl' => ?_
    obtain rfl : s = s' := Option.some.inj (hs.symm.trans hs')
    obtain rfl : l = l' := Option.some.inj (hl.symm.trans hl')
    exact early
  · exact duePart_silent silent

theorem putBell_putVoice (p : Part) (v : VoiceId) (x : Voice) (b : Nat) (y : Bell) :
    (p.putVoice v x).putBell b y = (p.putBell b y).putVoice v x := by cases v <;> rfl

/-- R57, R102: a voice whose record is `x` after its step has its strike refused by the Guard. -/
theorem strike_refused {x : Voice} {t : Nat} (refused : p.admission b (originOf v) ≠ .admitted) :
    voiceStrike v force t (p.putVoice v x) b
      = (p.putBell b (refusedOnce (p.bell b))).putVoice v (answeredBy x (p.admission b (originOf v))) := by
  rw [voiceStrike_refused (admission_putVoice v x) refused, voice_putVoice_self, bell_putVoice, putBell_putVoice,
    putVoice_putVoice]

/-- R137: and here by the Feed Budget. -/
theorem strike_skipped {x : Voice} {t : Nat} (admitted : p.admission b (originOf v) = .admitted)
    (refuse : p.budget.decide (p.bell b).config.charge = .refuse) :
    voiceStrike v force t (p.putVoice v x) b
      = ({ p with budget.strikeRefusals := bump p.budget.strikeRefusals }.putBell b (refusedOnce (p.bell b))).putVoice v
        { x with counts := { x.counts with budgetSkip := bump x.counts.budgetSkip } } := by
  rw [voiceStrike_skipped (by rw [admission_putVoice]; exact admitted)
    (by rw [putVoice_budget, bell_putVoice]; exact refuse), voice_putVoice_self, bell_putVoice]
  cases v <;> rfl

/-- R103: the strike of a voice whose record is `x` after its step is held. -/
theorem strike_joins {x : Voice} {t : Nat} (admitted : p.admission b (originOf v) = .admitted)
    (grant : p.budget.decide (p.bell b).config.charge = .grant) (blocked : x.held ≠ [] ∨ 24 ≤ p.line.localQ.length)
    (room : x.held.length < 4) : ∃ timer,
    voiceStrike v force t (p.putVoice v x) b = ({ p with budget := granted p v b timer } : Part).putVoice v
      (holds (answeredBy x .admitted) (strikeFor p v force b p.budget.nextId) t) := by
  obtain ⟨timer, joins⟩ := voiceStrike_joins (force := force) (t := t) (p := p.putVoice v x)
    (by rw [admission_putVoice]; exact admitted) (by rw [putVoice_budget, bell_putVoice]; exact grant)
    (by rw [voice_putVoice_self, putVoice_line]; exact blocked) (by rw [voice_putVoice_self]; exact room)
  refine ⟨timer, ?_⟩
  rw [joins, voice_putVoice_self]
  cases v <;> rfl

/-- R103: and here displaces the oldest held. -/
theorem strike_displaces {x : Voice} {t : Nat} {o : HeldStrike} {more : List HeldStrike}
    (admitted : p.admission b (originOf v) = .admitted)
    (grant : p.budget.decide (p.bell b).config.charge = .grant) (held : x.held = o :: more) (full : more.length = 3)
    (alone : p.budget.waiting = []) : ∃ timer,
    voiceStrike v force t (p.putVoice v x) b = ({ p with budget := { granted p v b timer with
        charges := (p.budget.charges ++ [chargeFor p v b p.budget.nextId]).filter
          (fun c => !c.ofStrike o.strike.charge) } } : Part).putVoice v
      (holds { x with
        held := more
        counts := { x.counts with admitted := bump x.counts.admitted, displaced := bump x.counts.displaced } }
        (strikeFor p v force b p.budget.nextId) t) := by
  obtain ⟨timer, displaces⟩ := voiceStrike_displaces (force := force) (t := t) (p := p.putVoice v x)
    (by rw [admission_putVoice]; exact admitted) (by rw [putVoice_budget, bell_putVoice]; exact grant)
    (by rw [voice_putVoice_self]; exact held) full (by rw [putVoice_budget]; exact alone)
  refine ⟨timer, ?_⟩
  rw [displaces, voice_putVoice_self]
  cases v <;> rfl

/-- R102, R137, R138: lamps make room for the strike of a voice whose record is `x` after its step. -/
theorem strike_reclaimed {x : Voice} {t k : Nat} {q : Part} (hq : q = voiceStrike v force t (p.putVoice v x) b)
    (admitted : p.admission b (originOf v) = .admitted)
    (reclaims : p.budget.decide (p.bell b).config.charge = .reclaim k) (held : x.held = [])
    (room : p.line.localQ.length < 12) :
    p.struckAfterReclaim q b v force
      ∧ (p.budget.waiting = [] → q.voice v = answeredBy x .admitted)
      ∧ (q.voice v = answeredBy x .admitted ∨ ∃ k, q.voice v = holds (answeredBy x .admitted) k t) := by
  have admitted : (p.putVoice v x).admission b (originOf v) = .admitted := by rw [admission_putVoice]; exact admitted
  have reclaims : (p.putVoice v x).budget.decide ((p.putVoice v x).bell b).config.charge = .reclaim k := by
    rw [putVoice_budget, bell_putVoice]
    exact reclaims
  have held : ((p.putVoice v x).voice v).held = [] := by rw [voice_putVoice_self]; exact held
  have room : (p.putVoice v x).line.localQ.length < 12 := by rw [putVoice_line]; exact room
  have before : p.sameBut (p.putVoice v x) [.clock, .tune] := by simp
  subst hq
  refine ⟨struck_of_same before (same_refl _ _) (voiceStrike_struck admitted reclaims held room), fun alone => ?_, ?_⟩
  · obtain ⟨_, u, _, strikes⟩ := voiceStrike_reclaimed_alone (force := force) (t := t) admitted reclaims
      (by rw [putVoice_budget]; exact alone) held room
    rw [strikes, voice_putVoice_self, voice_putVoice_self]
  · have after := voiceStrike_reclaimed_voice (force := force) (t := t) admitted reclaims held
    rwa [voice_putVoice_self] at after

/-- R102: the bells of a note of a voice whose record is `x` after its step. -/
theorem notes_sound {x : Voice} {t : Nat} {sounded : List Nat} (nodup : bells.Nodup)
    (range : ∀ b ∈ bells, 1 ≤ b ∧ b ≤ 16)
    (hm : sounded = bells.filter fun b =>
      decide (b ∈ x.declared.getD []) && decide (p.admission b (originOf v) = .admitted))
    (fits : p.budget.committed + (sounded.map fun b => (p.bell b).config.charge).sum ≤ p.budget.limit)
    (listed : p.budget.charges.length + sounded.length ≤ 80) (held : x.held = [])
    (room : p.line.localQ.length + sounded.length ≤ 24) :
    ∃ ids, Sounds v force (p.putVoice v x) (bells.foldl (noteBell v force t) (p.putVoice v x)) bells sounded ids := by
  refine noteBells_sound nodup range (hm.trans (List.filter_congr fun b _ => ?_)) (by simpa using fits)
    (by simpa using listed) (by simpa using held) (by simpa using room)
  rw [soundsOf, voice_putVoice_self, admission_putVoice]

end NoteTaken

/-- Settles O40: the commands before the due instant change nothing, and at it each sort of NOTE is its bells' strikes in
turn, from the part whose voice has already moved its cursor and its pulses. -/
theorem voiceTakesStep : Obligations.VoiceTakesStep := by
  unfold Obligations.VoiceTakesStep
  intro p w v x supply hx
  refine ⟨fun idle => by rw [exec_voiceDueInstant w supply, duePart_idle hx idle], fun s l f rest hs hl due plays => ?_⟩
  obtain ⟨sounds, stack, inside⟩ := playing_iff.mp plays
  have isDue : p.voiceDue v = true := voiceDue_iff.mpr ⟨s, l, hx ▸ hs, hx ▸ hl, hx ▸ due⟩
  rw [exec_voiceDueInstant w supply, duePart_sounding isDue sounds]
  subst hx
  refine ⟨fun d step => by rw [playVoice_rest stack inside step], fun b force d step declared refused => ?_,
    fun b force d step declared admitted => ⟨fun refuse => ?_, fun k reclaims none room => ?_⟩,
    fun bells sounded force d step nodup range hm fits listed none room => ?_,
    fun b force d k step declared admitted grant hk => ⟨fun blocked room => ?_, fun o more full three alone => ?_⟩⟩
  · rw [playVoice_strike hs hl stack inside step declared, strike_refused refused]
    have foreign := admission_ne_budgetSkip (p := p) (b := b) (o := originOf v)
    generalize p.admission b (originOf v) = a at refused foreign
    cases a <;> first | rfl | contradiction
  · rw [playVoice_strike hs hl stack inside step declared, strike_skipped admitted refuse]
  · obtain ⟨struck, alone, either⟩ := strike_reclaimed (playVoice_strike hs hl stack inside step declared) admitted
      reclaims none room
    refine ⟨_, rfl, struck, fun h => by rw [alone h]; rfl, ?_⟩
    rcases either with h | ⟨k, h⟩ <;> rw [h] <;> exact ⟨rfl, rfl, rfl⟩
  · obtain ⟨ids, h⟩ := notes_sound (x := afterStep (p.voice v) f rest d) (force := force)
      (t := dueTick s l ((p.voice v).pulses + d)) nodup range hm fits listed none room
    rw [playVoice_note hs hl stack inside step]
    generalize List.foldl _ _ _ = q at h
    obtain ⟨each, locals, charges, -, -, bell, voice, counted, undeclared, frame⟩ := h
    simp only [strikeFor, chargeFor, bell_putVoice, putVoice_line, putVoice_budget, putVoice_mgmt, putVoice_osc,
      voice_putVoice_self] at locals charges bell voice counted undeclared
    have before : p.sameBut (p.putVoice v (afterStep (p.voice v) f rest d))
        [.bellGuard, .clock, .tune, .budget, .locals] := by simp
    refine ⟨q, ids, rfl, each, locals, charges, bell, ?_, ?_, ?_, counted, undeclared, sameBut_trans before frame⟩
      <;> rw [voice]
    exact none
  · obtain ⟨timer, joins⟩ := strike_joins (force := force) (t := dueTick s l ((p.voice v).pulses + d))
      (x := afterStep (p.voice v) f rest d) admitted grant blocked room
    rw [playVoice_strike hs hl stack inside step declared, joins]
    refine ⟨_, rfl, ?_, ?_, ?_, ?_, by simp⟩
    · rw [voice_putVoice_self, hk, dueTick_eq]
    · rw [voice_putVoice_self]
      rfl
    · rw [voice_putVoice_self]
      rfl
    · rw [putVoice_budget]
      simp [FeedBudget.committed]
  · obtain ⟨timer, displaces⟩ := strike_displaces (force := force) (t := dueTick s l ((p.voice v).pulses + d))
      (x := afterStep (p.voice v) f rest d) admitted grant full three alone
    rw [playVoice_strike hs hl stack inside step declared, displaces]
    refine ⟨_, rfl, ?_, ?_, ?_, ?_, by simp⟩
    · rw [voice_putVoice_self, hk, dueTick_eq]
    · rw [voice_putVoice_self]
    · rw [voice_putVoice_self]
    · rw [putVoice_budget]

end Sys2Proof.Machine.Voices


/-! SUPPORT. What the operations of the Lamp Controller do to one group (Part 7): what they leave of the other groups and of
the Budget, the offer of a level (R127), the charge of a level (R117), and the level that a group takes (R120, R139). The
operations on one group come first, each with its equation or its effect; what a group takes of a level follows from them. -/

namespace Sys2Proof.Machine.Lamps

open Dials Bells Voices

/-! ## A group record put, read and offered -/

section Records

variable {p q r : Part} {g a : Nat} {x y : LampGroup}

@[simp] theorem putGroup_putGroup (p : Part) (g : Nat) (x y : LampGroup) :
    (p.putGroup g x).putGroup g y = p.putGroup g y := by
  simp [Part.putGroup, bankPut1_bankPut1]

@[simp] theorem putGroup_group (p : Part) (g : Nat) : p.putGroup g (p.group g) = p := by
  simp [Part.putGroup, Part.group, bankPut1_bankGet1]

/-- The part with another restore timer (R142). -/
def retimed (t : Option RestoreTimer) (p : Part) : Part := { p with budget.restore := t }

@[simp] theorem retimed_group (t : Option RestoreTimer) (p : Part) (g : Nat) : (retimed t p).group g = p.group g := rfl
@[simp] theorem retimed_charges (t : Option RestoreTimer) (p : Part) :
    (retimed t p).budget.charges = p.budget.charges := rfl

theorem putGroup_retimed (t : Option RestoreTimer) (p : Part) (g : Nat) (x : LampGroup) :
    (retimed t p).putGroup g x = retimed t (p.putGroup g x) := rfl

theorem examine_eq (p : Part) : examine p = retimed (examinedTimer p) p := rfl

/-- R141: with no dial waiting nothing is re-offered. -/
theorem reoffer_alone (k : Nat) (alone : p.budget.waiting = []) : reoffer k p = p := by
  cases k <;> simp [reoffer, alone]

/-- R135, R141: with no dial waiting a release is followed by the examination alone. -/
theorem afterRelease_alone (alone : p.budget.waiting = []) : afterRelease p = examine p := by
  rw [afterRelease, reoffer_alone _ alone]

/-- R127: an offer alters in the group's record what is queued and what is deferred. -/
theorem offerLevel_record (range : 1 ≤ g ∧ g ≤ 12) (p : Part) : ∃ a b c,
    (offerLevel g p).group g = { p.group g with queued := a, deferred := b, deferredOffers := c } := by
  unfold offerLevel
  dsimp only
  split
  · exact ⟨_, _, _, rfl⟩
  · split_ifs
    all_goals
      rw [group_putGroup_self _ _ _ range]
      exact ⟨_, _, _, rfl⟩

theorem offerLevel_others (ha : a ≠ g) (p : Part) : (offerLevel g p).group a = p.group a := by
  unfold offerLevel
  dsimp only
  split
  · rfl
  · split_ifs
    all_goals exact group_putGroup_ne _ _ _ _ ha

theorem offerLevel_nextUpdate (g : Nat) (p : Part) : (offerLevel g p).lamps.nextUpdate = p.lamps.nextUpdate := by
  unfold offerLevel
  dsimp only
  split
  · rfl
  · split_ifs
    all_goals rfl

@[simp] theorem offerLevel_budget (g : Nat) (p : Part) : (offerLevel g p).budget = p.budget :=
  (by simp : p.sameBut (offerLevel g p) [.lamps, .locals]) .budget (by decide)

@[simp] theorem setGroupCharge_lamps (g a : Nat) (p : Part) : (setGroupCharge g a p).lamps = p.lamps :=
  (by simp : p.sameBut (setGroupCharge g a p) [.budget]) .lamps (by decide)

/-- R135: a group holds the charge it has been given. -/
theorem setGroupCharge_groupCharge (g a : Nat) (p : Part) : (setGroupCharge g a p).budget.groupCharge g = a := by
  unfold setGroupCharge FeedBudget.groupCharge
  split_ifs with h0 found
  · have none : (p.budget.charges.filter fun c => !c.ofGroup g).find? (Charge.ofGroup g) = Option.none := by
      simp [List.find?_eq_none]
    simp only [none, h0]
  · obtain ⟨c, hc, own⟩ := List.any_eq_true.mp found
    have same : (fun c : Charge => c.ofGroup g) ∘ (fun c : Charge => if c.ofGroup g then { c with amount := a } else c)
        = Charge.ofGroup g := by
      funext c
      dsimp only [Function.comp]
      split <;> rfl
    have first : (p.budget.charges.find? (Charge.ofGroup g)).isSome = true := by
      rw [List.find?_isSome]
      exact ⟨c, hc, own⟩
    obtain ⟨d, hd⟩ := Option.isSome_iff_exists.mp first
    have own : d.ofGroup g = true := List.find?_some hd
    simp only [List.find?_map, same, hd, Option.map_some, own, if_true]
  · have none : p.budget.charges.find? (Charge.ofGroup g) = Option.none := by
      simpa [List.find?_eq_none] using found
    simp [addCharge, List.find?_append, none, Charge.ofGroup]

end Records

/-! ## What an operation on one group leaves -/

section Moves

variable {p q r : Part} {g a : Nat} {x y : LampGroup}

/-- What an operation on lamp group g leaves while no dial waits for the Budget: the other groups, the beat, the limits,
the waiting list and the charges of others. -/
structure Moves (g : Nat) (p q : Part) : Prop where
  others : ∀ a, a ≠ g → q.group a = p.group a
  beat : q.lamps.nextUpdate = p.lamps.nextUpdate
  limits : q.budget.limits = p.budget.limits ∧ q.budget.stage = p.budget.stage
  waiting : q.budget.waiting = p.budget.waiting
  charges : q.budget.charges.filter (fun c => !c.ofGroup g) = p.budget.charges.filter (fun c => !c.ofGroup g)
  once : oneEach p.budget.charges → (q.budget.charges.filter (Charge.ofGroup g)).length ≤ 1
  same : p.sameBut q [.lamps, .budget, .locals]

theorem Moves.of_budget (others : ∀ a, a ≠ g → q.group a = p.group a)
    (beat : q.lamps.nextUpdate = p.lamps.nextUpdate) (budget : q.budget = p.budget)
    (same : p.sameBut q [.lamps, .budget, .locals]) : Moves g p q := by
  refine ⟨others, beat, ?_, ?_, ?_, ?_, same⟩ <;> rw [budget]
  · exact ⟨rfl, rfl⟩
  · exact fun once => once g

theorem Moves.refl (g : Nat) (p : Part) : Moves g p p := .of_budget (fun _ _ => rfl) rfl rfl (by simp)

theorem Moves.oneEach (h : Moves g p q) (once : Voices.oneEach p.budget.charges) :
    Voices.oneEach q.budget.charges :=
  Resets.oneEach (g := g) (a := load (q.budget.charges.filter (Charge.ofGroup g))) ⟨h.charges, h.once once, rfl⟩ once

theorem Moves.trans (h : Moves g p q) (k : Moves g q r) : Moves g p r where
  others a ha := (k.others a ha).trans (h.others a ha)
  beat := k.beat.trans h.beat
  limits := ⟨k.limits.1.trans h.limits.1, k.limits.2.trans h.limits.2⟩
  waiting := k.waiting.trans h.waiting
  charges := k.charges.trans h.charges
  once once := k.once (h.oneEach once)
  same := sameBut_trans h.same k.same

theorem moves_putGroup (g : Nat) (x : LampGroup) (p : Part) : Moves g p (p.putGroup g x) :=
  .of_budget (fun _ ha => group_putGroup_ne _ _ _ _ ha) rfl rfl (by simp)

theorem moves_offerLevel (g : Nat) (p : Part) : Moves g p (offerLevel g p) :=
  .of_budget (fun _ ha => offerLevel_others ha p) (offerLevel_nextUpdate g p) (offerLevel_budget g p) (by simp)

theorem moves_retimed (g : Nat) (t : Option RestoreTimer) (p : Part) : Moves g p (retimed t p) where
  others _ _ := rfl
  beat := rfl
  limits := ⟨rfl, rfl⟩
  waiting := rfl
  charges := rfl
  once once := once g
  same := by simp [retimed]

theorem moves_examine (g : Nat) (p : Part) : Moves g p (examine p) := moves_retimed g _ p

theorem moves_setGroupCharge (g a : Nat) (p : Part) : Moves g p (setGroupCharge g a p) where
  others _ _ := group_congr (setGroupCharge_lamps g a p) _
  beat := congrArg LampController.nextUpdate (setGroupCharge_lamps g a p)
  limits := by
    unfold setGroupCharge addCharge
    split_ifs <;> exact ⟨rfl, rfl⟩
  waiting := (setGroupCharge_dials g a p).2.1
  charges := setGroupCharge_others g a p
  once once := (setGroupCharge_own once a).1
  same := by simp

theorem Moves.limit (h : Moves g p q) : q.budget.limit = p.budget.limit := by
  rw [FeedBudget.limit, FeedBudget.limit, h.limits.1, h.limits.2]

/-- R135: another group's entries in the charge list stay. -/
theorem Moves.charges_of (h : Moves g p q) (ha : a ≠ g) :
    q.budget.charges.filter (Charge.ofGroup a) = p.budget.charges.filter (Charge.ofGroup a) := by
  have narrow (l : List Charge) :
      l.filter (Charge.ofGroup a) = (l.filter fun c => !c.ofGroup g).filter (Charge.ofGroup a) := by
    rw [List.filter_filter]
    refine List.filter_congr fun c _ => ?_
    by_cases own : c.holder = .group a <;> simp [Charge.ofGroup, own, ha]
  rw [narrow, h.charges, ← narrow]

/-- R135: another group's charge stays. -/
theorem Moves.groupCharge (h : Moves g p q) (ha : a ≠ g) : q.budget.groupCharge a = p.budget.groupCharge a :=
  groupCharge_congr (h.charges_of ha)

/-- R135: the committed load alters by what the group's charge does. -/
theorem Moves.committed (h : Moves g p q) (once : Voices.oneEach p.budget.charges) :
    q.budget.committed + p.budget.groupCharge g = p.budget.committed + q.budget.groupCharge g := by
  have resets : Resets g (q.budget.groupCharge g) p.budget.charges q.budget.charges :=
    ⟨h.charges, h.once once, (groupCharge_eq_load (h.oneEach once)).symm⟩
  rw [groupCharge_eq_load once]
  exact resets.load

/-- R135: a group takes at most one place more of the charge list. -/
theorem Moves.places (h : Moves g p q) (once : Voices.oneEach p.budget.charges) :
    q.budget.charges.length ≤ p.budget.charges.length + 1 := by
  have split := (List.length_eq_length_filter_add (l := q.budget.charges) (Charge.ofGroup g))
  have others := congrArg List.length h.charges
  have within := List.length_filter_le (fun c => !c.ofGroup g) p.budget.charges
  have own := h.once once
  omega

end Moves

/-! ## The offer of a level (R127) -/

section Offers

variable {p q r u : Part} {g a m k : Nat} {x y : LampGroup}

/-- R165: a frame waits on a channel where its pair of node and channel field is the channel's. -/
theorem onChannel_eq (m c : Nat) (i : LocalItem) :
    i.onChannel m c = decide (i.channel = some (m, some (byte c))) := by
  cases i <;> simp [LocalItem.onChannel, LocalItem.channel]

/-- The LAMP_LEVEL of a group's present level, to a dimmer node (R127). -/
def levelItem (g m src : Nat) (x : LampGroup) : LocalItem :=
  .lampLevel (some g) x.commanded (lampFrame m x.config.channel x.commanded src)

/-- R165: a LAMP_LEVEL waits in LOCAL on a channel of a dimmer node. -/
def waitsOn (l : List LocalItem) (m c : Nat) : Prop := ∃ i ∈ l, i.channel = some (m, some (byte c))

theorem any_onChannel (l : List LocalItem) (m c : Nat) :
    l.any (LocalItem.onChannel m c) = true ↔ waitsOn l m c := by
  simp [waitsOn, onChannel_eq]

/-- R127: no offer where the level is the one that the dimmer will hold. -/
theorem offerLevel_agrees (hx : x = p.group g) (node : x.config.node = some m)
    (agrees : x.expected = some x.commanded) : offerLevel g p = p.putGroup g { x with deferred := false } := by
  subst hx
  simp [offerLevel, node, LampGroup.differs, agrees]

/-- R127, R165: the level replaces the one that waits on the channel. -/
theorem offerLevel_replaces (hx : x = p.group g) (node : x.config.node = some m)
    (differs : x.expected ≠ some x.commanded) (waits : waitsOn p.line.localQ m x.config.channel) :
    offerLevel g p = ({ p with line.localQ := p.line.localQ.map (fun (i : LocalItem) =>
        if i.channel = some (m, some (byte x.config.channel)) then levelItem g m p.mgmt.address x else i) } : Part).putGroup g
      { x with queued := some x.commanded, deferred := false } := by
  subst hx
  have waits := (any_onChannel ..).mpr waits
  simp only [offerLevel, node, LampGroup.differs, waits, onChannel_eq, levelItem]
  simp [differs]

/-- R127: the level enters LOCAL at the back while it has a place. -/
theorem offerLevel_enters (hx : x = p.group g) (node : x.config.node = some m)
    (differs : x.expected ≠ some x.commanded) (clear : ¬ waitsOn p.line.localQ m x.config.channel)
    (room : p.line.localQ.length < 24) :
    offerLevel g p = ({ p with line.localQ := p.line.localQ ++ [levelItem g m p.mgmt.address x] } : Part).putGroup g
      { x with queued := some x.commanded, deferred := false } := by
  subst hx
  rw [← any_onChannel, Bool.not_eq_true] at clear
  simp [offerLevel, node, LampGroup.differs, differs, clear, levelItem, Config.localPlaces, room]

/-- R127: with LOCAL full the offer is deferred. -/
theorem offerLevel_defers (hx : x = p.group g) (node : x.config.node = some m)
    (differs : x.expected ≠ some x.commanded) (clear : ¬ waitsOn p.line.localQ m x.config.channel)
    (full : 24 ≤ p.line.localQ.length) :
    offerLevel g p = p.putGroup g { x with deferred := true, deferredOffers := bump x.deferredOffers } := by
  subst hx
  rw [← any_onChannel, Bool.not_eq_true] at clear
  simp [offerLevel, node, LampGroup.differs, differs, clear, Config.localPlaces, Nat.not_lt.mpr full]

/-- What an offer goes by in a group's record, but for its commanded level: its dimmer, the levels formed for it, and the
count of its deferred offers. -/
structure SameDimmer (x y : LampGroup) : Prop where
  config : y.config = x.config
  queued : y.queued = x.queued
  inFlight : y.inFlight = x.inFlight
  sent : y.sent = x.sent
  deferrals : y.deferredOffers = x.deferredOffers

theorem SameDimmer.refl (x : LampGroup) : SameDimmer x x := ⟨rfl, rfl, rfl, rfl, rfl⟩

theorem bumpBy_one (n : Nat) : bumpBy 1 n = bump n := by
  unfold bumpBy bump Config.countLimit
  split_ifs <;> omega

theorem bumpBy_succ (k n : Nat) : bumpBy (k + 1) n = bump (bumpBy k n) := by
  unfold bumpBy bump Config.countLimit
  split_ifs <;> omega

/-- R127: a group's level is offered from a part in which the group's dimmer and LOCAL are as in `p`. -/
theorem offerLevel_offers (range : 1 ≤ g ∧ g ≤ 12) (dimmer : SameDimmer (p.group g) (r.group g))
    (locals : r.line.localQ = p.line.localQ) (address : r.mgmt.address = p.mgmt.address) :
    p.levelOffered (offerLevel g r) g 1 := by
  intro m x y item channel hx hy node hc hi
  subst hx hc
  obtain ⟨config, queued, inFlight, sent, deferrals⟩ := dimmer
  generalize hz : r.group g = z at *
  have node : z.config.node = some m := config ▸ node
  have expected : ((p.group g).queued.or (p.group g).inFlight).or (p.group g).sent = z.expected := by
    rw [← queued, ← inFlight, ← sent, LampGroup.expected]
  have level : y.commanded = z.commanded := by
    obtain ⟨a, b, c, record⟩ := offerLevel_record range r
    rw [hy, record, hz]
  have item : item = levelItem g m r.mgmt.address z := by rw [hi, level, ← config, ← address]; rfl
  rw [expected, level, bumpBy_one, ← queued, ← inFlight, ← sent, ← deferrals, ← locals, ← config, item]
  by_cases agrees : z.expected = some z.commanded
  · rw [offerLevel_agrees hz.symm node agrees] at hy ⊢
    rw [group_putGroup_self _ _ _ range] at hy
    subst hy
    exact ⟨rfl, rfl, fun _ => ⟨rfl, rfl, rfl, rfl⟩, fun differs => absurd agrees differs⟩
  by_cases waits : waitsOn r.line.localQ m z.config.channel
  · rw [offerLevel_replaces hz.symm node agrees waits] at hy ⊢
    rw [group_putGroup_self _ _ _ range] at hy
    subst hy
    obtain ⟨i, hi, own⟩ := waits
    exact ⟨rfl, rfl, fun h => absurd h agrees, fun _ => ⟨fun _ => ⟨rfl, rfl, rfl, rfl⟩,
      fun clear => absurd own (clear i hi), fun clear => absurd own (clear i hi)⟩⟩
  by_cases room : r.line.localQ.length < 24
  · rw [offerLevel_enters hz.symm node agrees waits room] at hy ⊢
    rw [group_putGroup_self _ _ _ range] at hy
    subst hy
    exact ⟨rfl, rfl, fun h => absurd h agrees, fun _ => ⟨fun h => absurd h waits,
      fun _ _ => ⟨rfl, rfl, rfl, rfl⟩, fun _ full => absurd room (Nat.not_lt.mpr full)⟩⟩
  · rw [offerLevel_defers hz.symm node agrees waits (Nat.not_lt.mp room)] at hy ⊢
    rw [group_putGroup_self _ _ _ range] at hy
    subst hy
    exact ⟨rfl, rfl, fun h => absurd h agrees, fun _ => ⟨fun h => absurd h waits,
      fun _ h => absurd h room, fun _ _ => ⟨rfl, rfl, rfl, rfl⟩⟩⟩

/-- R127, log entry 67: a level offered is compared once more; one that was deferred is counted again. -/
theorem offerLevel_again (range : 1 ≤ g ∧ g ≤ 12) (first : p.levelOffered r g k)
    (config : (r.group g).config = (p.group g).config)
    (group : u.group g = r.group g) (locals : u.line.localQ = r.line.localQ) :
    p.levelOffered (offerLevel g u) g (k + 1) := by
  intro m x y item channel hx hy node hc hi
  subst hx hc
  generalize hz : r.group g = z at *
  have level : y.commanded = z.commanded := by
    obtain ⟨a, b, c, record⟩ := offerLevel_record range u
    rw [hy, record, group]
  rw [level] at hi
  obtain ⟨inFlight, sent, agreed, differed⟩ := first m _ z item _ rfl hz.symm node rfl hi
  have node : z.config.node = some m := config ▸ node
  rw [level]
  have stays (agrees : z.expected = some z.commanded) (undeferred : z.deferred = false) :
      (offerLevel g u).line.localQ = r.line.localQ ∧ y = z := by
    rw [offerLevel_agrees group.symm node agrees] at hy ⊢
    rw [group_putGroup_self _ _ _ range, ← undeferred] at hy
    exact ⟨locals, hy⟩
  by_cases agrees : ((p.group g).queued.or (p.group g).inFlight).or (p.group g).sent = some z.commanded
  · obtain ⟨queue, queued, undeferred, counted⟩ := agreed agrees
    obtain ⟨same, rfl⟩ := stays (by rw [LampGroup.expected, queued, inFlight, sent, agrees]) undeferred
    exact ⟨inFlight, sent, fun _ => ⟨same.trans queue, queued, undeferred, counted⟩, fun h => absurd agrees h⟩
  obtain ⟨replaces, enters, defers⟩ := differed agrees
  have formed (queued : z.queued = some z.commanded) : z.expected = some z.commanded := by
    rw [LampGroup.expected, queued]
    rfl
  by_cases waits : waitsOn p.line.localQ m (p.group g).config.channel
  · obtain ⟨queue, queued, undeferred, counted⟩ := replaces waits
    obtain ⟨same, rfl⟩ := stays (formed queued) undeferred
    obtain ⟨i, hi, own⟩ := waits
    exact ⟨inFlight, sent, fun h => absurd h agrees, fun _ => ⟨fun _ => ⟨same.trans queue, queued, undeferred, counted⟩,
      fun clear => absurd own (clear i hi), fun clear => absurd own (clear i hi)⟩⟩
  have clear : ∀ i ∈ p.line.localQ, i.channel ≠ some (m, some (byte (p.group g).config.channel)) := fun i hi own =>
    waits ⟨i, hi, own⟩
  by_cases room : p.line.localQ.length < 24
  · obtain ⟨queue, queued, undeferred, counted⟩ := enters clear room
    obtain ⟨same, rfl⟩ := stays (formed queued) undeferred
    exact ⟨inFlight, sent, fun h => absurd h agrees, fun _ => ⟨fun h => absurd h waits,
      fun _ _ => ⟨same.trans queue, queued, undeferred, counted⟩, fun _ full => absurd room (Nat.not_lt.mpr full)⟩⟩
  · obtain ⟨queue, queued, deferred, counted⟩ := defers clear (Nat.not_lt.mp room)
    have line : u.line.localQ = p.line.localQ := locals.trans queue
    have again := offerLevel_defers group.symm node (by rwa [LampGroup.expected, queued, inFlight, sent])
      (by rwa [line, config]) (by rw [line]; exact Nat.not_lt.mp room)
    rw [again] at hy ⊢
    rw [group_putGroup_self _ _ _ range] at hy
    subst hy
    exact ⟨inFlight, sent, fun h => absurd h agrees, fun _ => ⟨fun h => absurd h waits, fun _ h => absurd h room,
      fun _ _ => ⟨line, queued, rfl, (congrArg bump counted).trans (bumpBy_succ _ _).symm⟩⟩⟩

/-- What is claimed of an offer asks nothing but the group and LOCAL. -/
theorem levelOffered_of_same (h : p.levelOffered r g k) (group : u.group g = r.group g)
    (locals : u.line.localQ = r.line.localQ) : p.levelOffered u g k := by
  unfold Part.levelOffered
  rw [group, locals]
  exact h

/-- An offer from a part in which the group's dimmer and LOCAL are as in another is one from the other. -/
theorem levelOffered_before (h : r.levelOffered q g k) (dimmer : SameDimmer (p.group g) (r.group g))
    (locals : r.line.localQ = p.line.localQ) (address : r.mgmt.address = p.mgmt.address) : p.levelOffered q g k := by
  intro m x y item channel hx hy node hc hi
  subst hx
  obtain ⟨config, queued, inFlight, sent, deferrals⟩ := dimmer
  rw [← config] at node hc hi
  rw [← address] at hi
  rw [← queued, ← inFlight, ← sent, ← deferrals, ← locals]
  exact h m _ y item channel rfl hy node hc hi

end Offers

/-! ## A level taken, with its charge and its offer (R117, R120, R127) -/

section Levels

variable {p q r : Part} {g level : Nat} {x y : LampGroup}

/-- R117, R120, R127: group g takes the record `y`, the charge of its level, and offers the level. -/
def levelSet (g : Nat) (y : LampGroup) (p : Part) : Part :=
  offerLevel g (setGroupCharge g (chargeOf y.config.rated y.commanded) (p.putGroup g y))

/-- From `p` to `q` group g has taken the record `y` and the charge of its level, and the level has been offered. -/
structure Levelled (g : Nat) (y : LampGroup) (p q : Part) : Prop where
  moves : Moves g p q
  record : ∃ a b c, q.group g = { y with queued := a, deferred := b, deferredOffers := c }
  charge : q.budget.groupCharge g = chargeOf y.config.rated y.commanded
  offered : SameDimmer (p.group g) y → p.levelOffered q g 1

theorem levelSet_levelled (range : 1 ≤ g ∧ g ≤ 12) (y : LampGroup) (p : Part) : Levelled g y p (levelSet g y p) := by
  have record : (setGroupCharge g (chargeOf y.config.rated y.commanded) (p.putGroup g y)).group g = y :=
    (group_congr (setGroupCharge_lamps _ _ _) g).trans (group_putGroup_self _ _ _ range)
  have same : p.sameBut (setGroupCharge g (chargeOf y.config.rated y.commanded) (p.putGroup g y)) [.lamps, .budget] := by
    simp
  refine ⟨((moves_putGroup g y p).trans (moves_setGroupCharge ..)).trans (moves_offerLevel ..), ?_, ?_, fun dimmer => ?_⟩
  · obtain ⟨a, b, c, offered⟩ := offerLevel_record range
      (setGroupCharge g (chargeOf y.config.rated y.commanded) (p.putGroup g y))
    rw [record] at offered
    exact ⟨a, b, c, offered⟩
  · rw [levelSet, offerLevel_budget, setGroupCharge_groupCharge]
  · exact offerLevel_offers range (by rwa [record]) (same .locals (by decide)) (same .requests (by decide)).2.2.2.1

theorem Levelled.retimed (h : Levelled g y p q) (t : Option RestoreTimer) : Levelled g y p (retimed t q) :=
  ⟨h.moves.trans (moves_retimed g t q), h.record, h.charge, fun dimmer => levelOffered_of_same (h.offered dimmer) rfl rfl⟩

/-- R120: a fall of a group's level. -/
theorem lampFall_levelled (range : 1 ≤ g ∧ g ≤ 12) (alone : p.budget.waiting = []) (level : Nat) :
    Levelled g { p.group g with commanded := level } p (lampFall g level p) := by
  have set := levelSet_levelled range { p.group g with commanded := level } p
  show Levelled g _ p (if _ then afterRelease (levelSet g { p.group g with commanded := level } p)
    else levelSet g { p.group g with commanded := level } p)
  split_ifs
  · rw [afterRelease_alone (set.moves.waiting.trans alone)]
    exact set.retimed _
  · exact set

/-- R120, R139: a group that asks for a level takes it, or rises to what is granted and is clamped there, or is clamped
where it stands. -/
theorem lampAsk_cases (range : 1 ≤ g ∧ g ≤ 12) (hx : x = p.group g) (level : Nat) :
    (lampGrant g level p = level ∧ Levelled g { x with commanded := level } p (lampAsk g level p))
    ∨ (lampGrant g level p ≠ level ∧ x.commanded < lampGrant g level p
        ∧ Levelled g { x with
            commanded := lampGrant g level p, clamp := some (lampGrant g level p), clamps := bump x.clamps } p
          (lampAsk g level p))
    ∨ (lampGrant g level p ≠ level ∧ lampGrant g level p ≤ x.commanded
        ∧ lampAsk g level p = examine (p.putGroup g { x with clamp := some x.commanded, clamps := bump x.clamps })) := by
  subst hx
  unfold lampAsk
  dsimp only
  by_cases all : lampGrant g level p = level
  · rw [if_pos all]
    exact .inl ⟨all, (levelSet_levelled range _ p).retimed _⟩
  · rw [if_neg all]
    by_cases some : (p.group g).commanded < lampGrant g level p
    · rw [if_pos some]
      exact .inr (.inl ⟨all, some, (levelSet_levelled range _ p).retimed _⟩)
    · rw [if_neg some]
      exact .inr (.inr ⟨all, Nat.not_lt.mp some, rfl⟩)

/-! ### The level that the Budget grants (R139) -/

/-- R139: no place in the charge list. -/
theorem lampGrant_full (full : 80 ≤ p.budget.charges.length) (none : ∀ c ∈ p.budget.charges, c.holder ≠ .group g) :
    lampGrant g level p = 0 := by
  have none : ¬ p.budget.charges.any (Charge.ofGroup g) = true := by simpa [Charge.ofGroup] using none
  exact if_pos ⟨full, none⟩

/-- R139: the level fits. -/
theorem lampGrant_fits (room : p.budget.charges.length < 80) (within : p.budget.committed ≤ p.budget.limit)
    (fits : p.budget.committed + chargeOf (p.group g).config.rated level ≤ p.budget.limit + p.budget.groupCharge g) :
    lampGrant g level p = level := by
  unfold lampGrant
  dsimp only
  rw [if_neg (fun h => absurd h.1 (Nat.not_le.mpr room)), if_pos]
  refine ⟨within, ?_⟩
  unfold FeedBudget.headroom
  omega

/-- R138, R139: the level chosen for a charge is the largest multiple of 10 whose charge is within it. -/
theorem le_levelWithin {rated l c : Nat} (rated1 : 1 ≤ rated) (ten : l % 10 = 0) (below : l ≤ 1000)
    (fits : chargeOf rated l ≤ c) : l ≤ levelWithin rated c := by
  have within : l * rated ≤ 1000 * c := by
    unfold chargeOf at fits
    rw [Nat.mul_comm]
    omega
  have : l ≤ 1000 * c / rated := (Nat.le_div_iff_mul_le rated1).mpr within
  unfold levelWithin
  omega

/-- R139: a level that does not fit is granted as far as it fits. -/
theorem lampGrant_short (room : p.budget.charges.length < 80) (short : p.budget.limit < p.budget.committed
      ∨ p.budget.limit + p.budget.groupCharge g < p.budget.committed + chargeOf (p.group g).config.rated level)
    (lit : 0 < level) (top : level ≤ 1000) (rated1 : 1 ≤ (p.group g).config.rated) :
    lampGrant g level p % 10 = 0 ∧ lampGrant g level p < level
      ∧ (lampGrant g level p = 0 ∨ p.budget.committed + chargeOf (p.group g).config.rated (lampGrant g level p)
          ≤ p.budget.limit + p.budget.groupCharge g)
      ∧ ∀ l, l % 10 = 0 → l < level → p.budget.committed + chargeOf (p.group g).config.rated l
          ≤ p.budget.limit + p.budget.groupCharge g → l ≤ lampGrant g level p := by
  have places : ¬ (Config.chargeRoom ≤ p.budget.charges.length ∧ ¬ p.budget.charges.any (Charge.ofGroup g) = true) :=
    fun h => absurd h.1 (Nat.not_le.mpr room)
  have refused : ¬ (p.budget.committed ≤ p.budget.limit
      ∧ (chargeOf (p.group g).config.rated level : Int) ≤ p.budget.headroom + p.budget.groupCharge g) := by
    unfold FeedBudget.headroom
    omega
  have grant : lampGrant g level p = if p.budget.headroom + p.budget.groupCharge g < 0 then 0
      else min (levelWithin (p.group g).config.rated (p.budget.headroom + p.budget.groupCharge g).toNat)
        ((level - 1) / 10 * 10) := by
    unfold lampGrant
    dsimp only
    rw [if_neg places, if_neg refused]
  rw [grant]
  unfold FeedBudget.headroom
  split_ifs with below
  · refine ⟨rfl, lit, .inl rfl, fun l _ _ fits => ?_⟩
    omega
  · have mono : ∀ a b : Nat, a ≤ b → chargeOf (p.group g).config.rated a ≤ chargeOf (p.group g).config.rated b := by
      intro a b h
      have := Nat.mul_le_mul_left (p.group g).config.rated h
      unfold chargeOf
      omega
    generalize hc : ((p.budget.limit : Int) - p.budget.committed + p.budget.groupCharge g).toNat = c
    have within := chargeOf_levelWithin (p.group g).config.rated c
    have least := mono _ _ (Nat.min_le_left (levelWithin (p.group g).config.rated c) ((level - 1) / 10 * 10))
    refine ⟨?_, by omega, .inr (by omega), fun l ten less fits => ?_⟩
    · unfold levelWithin
      omega
    · have := le_levelWithin (c := c) rated1 ten (by omega) (by omega)
      omega

/-! ### What a group takes of a level (R120, R139) -/

/-- A level taken that the claims ask of the Budget's charges and of the group's level and clamp. -/
theorem takesLevel_after {u : Part} (h : p.takesLevel q g level) (commanded : (u.group g).commanded = (q.group g).commanded)
    (clamp : (u.group g).clamp = (q.group g).clamp) (clamps : (u.group g).clamps = (q.group g).clamps)
    (charges : u.budget.charges = q.budget.charges) : p.takesLevel u g level := by
  have charge : u.budget.groupCharge g = q.budget.groupCharge g := by
    rw [FeedBudget.groupCharge, FeedBudget.groupCharge, charges]
  unfold Part.takesLevel
  rw [commanded, clamp, clamps, charges, charge]
  exact h

/-- A level taken from a part in which the group's level and the Budget are as in another. -/
theorem takesLevel_before (h : r.takesLevel q g level) (commanded : (r.group g).commanded = (p.group g).commanded)
    (config : (r.group g).config = (p.group g).config) (clamps : (r.group g).clamps = (p.group g).clamps)
    (charges : r.budget.charges = p.budget.charges) (limit : r.budget.limit = p.budget.limit) :
    p.takesLevel q g level := by
  have charge : p.budget.groupCharge g = r.budget.groupCharge g := by
    rw [FeedBudget.groupCharge, FeedBudget.groupCharge, charges]
  have committed : p.budget.committed = r.budget.committed := by
    rw [FeedBudget.committed, FeedBudget.committed, charges]
  intro x hx
  subst hx
  rw [← commanded, ← config, ← clamps, ← charges, ← limit, charge, committed]
  exact h _ rfl

/-- R120: a group whose level falls takes it, and so does one whose level is the one it has. -/
theorem lampFall_takes (range : 1 ≤ g ∧ g ≤ 12) (alone : p.budget.waiting = []) (free : (p.group g).clamp = none)
    (falls : level < (p.group g).commanded) : p.takesLevel (lampFall g level p) g level := by
  obtain ⟨_, ⟨a, b, c, record⟩, charge, _⟩ := lampFall_levelled range alone level
  intro x hx
  subst hx
  refine ⟨fun _ => ?_, fun rises => absurd falls (Nat.lt_asymm rises), fun rises => absurd falls (Nat.lt_asymm rises)⟩
  rw [record]
  exact ⟨rfl, free, rfl, fun _ => charge, fun same => absurd falls (same ▸ Nat.lt_irrefl _)⟩

theorem stays_takes (free : (p.group g).clamp = none) (own : level = (p.group g).commanded) :
    p.takesLevel p g level := by
  intro x hx
  subst hx own
  exact ⟨fun _ => ⟨rfl, free, rfl, fun other => absurd rfl other, fun _ => rfl⟩,
    fun rises => absurd rises (Nat.lt_irrefl _), fun rises => absurd rises (Nat.lt_irrefl _)⟩

/-- R120, R139: a group that asks for a level takes what the Budget has room for. -/
theorem lampAsk_takes (range : 1 ≤ g ∧ g ≤ 12) (free : (p.group g).clamp = none)
    (rises : (p.group g).commanded < level) (top : level ≤ (p.group g).config.ceiling) :
    p.takesLevel (lampAsk g level p) g level := by
  have cases := lampAsk_cases range (p := p) rfl level
  intro x hx
  subst hx
  refine ⟨fun enough => ?_, fun _ short room rated1 ceiling => ?_, fun _ full none => ?_⟩
  · obtain ⟨within, room, fits⟩ := enough.resolve_left (Nat.not_le.mpr rises)
    obtain ⟨_, levelled⟩ | ⟨other, _⟩ | ⟨other, _⟩ := cases
    · obtain ⟨a, b, c, record⟩ := levelled.record
      rw [record]
      exact ⟨rfl, free, rfl, fun _ => levelled.charge, fun same => absurd rises (same ▸ Nat.lt_irrefl _)⟩
    · exact absurd (lampGrant_fits room within fits) other
    · exact absurd (lampGrant_fits room within fits) other
  · obtain ⟨ten, less, fits, most⟩ := lampGrant_short room short (by omega) (by omega) rated1
    refine ⟨lampGrant g level p, ten, less, fits, most, ?_⟩
    obtain ⟨all, _⟩ | ⟨_, some, levelled⟩ | ⟨_, none, stays⟩ := cases
    · exact absurd all (Nat.ne_of_lt less)
    · obtain ⟨a, b, c, record⟩ := levelled.record
      rw [record, Nat.max_eq_right some.le]
      exact ⟨rfl, rfl, rfl, fun _ => levelled.charge, fun h => absurd some (Nat.not_lt.mpr h)⟩
    · rw [stays, examine_eq, retimed_group, group_putGroup_self _ _ _ range, Nat.max_eq_left none]
      exact ⟨rfl, rfl, rfl, fun h => absurd h (Nat.not_lt.mpr none), fun _ => rfl⟩
  · have grant := lampGrant_full (level := level) full none
    obtain ⟨all, _⟩ | ⟨_, some, _⟩ | ⟨_, _, stays⟩ := cases
    · omega
    · omega
    · rw [stays, examine_eq, retimed_group, group_putGroup_self _ _ _ range]
      exact ⟨rfl, rfl, rfl, rfl⟩

/-! ### The fade level compared with the commanded one (R123) -/

/-- What comparing a group's levels leaves: at most its level and its clamp have altered, and the level has been offered
if it has. -/
structure Compared (g : Nat) (p q : Part) : Prop where
  moves : Moves g p q
  record : ∃ l k n a b c, q.group g = { p.group g with
    commanded := l, clamp := k, clamps := n, queued := a, deferred := b, deferredOffers := c }
  offers : (q.group g).commanded ≠ (p.group g).commanded → p.levelOffered q g 1
  still : (q.group g).commanded = (p.group g).commanded →
    SameDimmer (p.group g) (q.group g) ∧ q.line.localQ = p.line.localQ

theorem Compared.refl (g : Nat) (p : Part) : Compared g p p :=
  ⟨.refl g p, ⟨_, _, _, _, _, _, rfl⟩, fun other => absurd rfl other, fun _ => ⟨.refl _, rfl⟩⟩

theorem Levelled.compared {l n : Nat} {k : Option Nat}
    (h : Levelled g { p.group g with commanded := l, clamp := k, clamps := n } p q) (other : l ≠ (p.group g).commanded) :
    Compared g p q := by
  obtain ⟨moves, ⟨a, b, c, record⟩, _, offered⟩ := h
  refine ⟨moves, ⟨_, _, _, _, _, _, record⟩, fun _ => offered ⟨rfl, rfl, rfl, rfl, rfl⟩, fun same => ?_⟩
  rw [record] at same
  exact absurd same other

theorem lampFall_compared (range : 1 ≤ g ∧ g ≤ 12) (alone : p.budget.waiting = [])
    (falls : level < (p.group g).commanded) : Compared g p (lampFall g level p) :=
  (lampFall_levelled range alone level).compared falls.ne

theorem lampAsk_compared (range : 1 ≤ g ∧ g ≤ 12) (rises : (p.group g).commanded < level) :
    Compared g p (lampAsk g level p) := by
  obtain ⟨_, levelled⟩ | ⟨_, some, levelled⟩ | ⟨_, _, stays⟩ := lampAsk_cases range (p := p) rfl level
  · exact levelled.compared rises.ne'
  · exact levelled.compared some.ne'
  · have record : (lampAsk g level p).group g
        = { p.group g with clamp := some (p.group g).commanded, clamps := bump (p.group g).clamps } := by
      rw [stays, examine_eq, retimed_group, group_putGroup_self _ _ _ range]
    refine ⟨?_, ⟨_, _, _, _, _, _, record⟩, ?_, ?_⟩
    · rw [stays]
      exact (moves_putGroup ..).trans (moves_examine ..)
    · rw [record]
      exact fun other => absurd rfl other
    · rw [record]
      exact fun _ => ⟨⟨rfl, rfl, rfl, rfl, rfl⟩, by rw [stays]; rfl⟩

theorem compareLevel_compared (range : 1 ≤ g ∧ g ≤ 12) (alone : p.budget.waiting = []) :
    Compared g p (compareLevel g p) := by
  unfold compareLevel
  dsimp only
  split_ifs with falls rises
  · exact lampFall_compared range alone falls
  · exact lampAsk_compared range rises.1
  · exact .refl g p

/-- R123: a group without a clamp takes its fade level. -/
theorem compareLevel_takes (range : 1 ≤ g ∧ g ≤ 12) (alone : p.budget.waiting = []) (free : (p.group g).clamp = none) :
    p.takesLevel (compareLevel g p) g (p.group g).fadeLevel := by
  unfold compareLevel
  dsimp only
  split_ifs with falls rises
  · exact lampFall_takes range alone free falls
  · exact lampAsk_takes range free rises.1 (Nat.min_le_right _ _)
  · refine stays_takes free ?_
    rw [free] at rises
    have : ¬ (p.group g).commanded < (p.group g).fadeLevel := fun h => rises ⟨h, rfl⟩
    omega

/-- R123, R126: a clamped group falls with its fade level, and asks nothing. -/
theorem compareLevel_clamped (range : 1 ≤ g ∧ g ≤ 12) (alone : p.budget.waiting = []) {c : Nat}
    (clamped : (p.group g).clamp = some c) :
    ((compareLevel g p).group g).clamp = (p.group g).clamp
      ∧ ((compareLevel g p).group g).commanded = min (p.group g).commanded (p.group g).fadeLevel
      ∧ ((p.group g).fadeLevel < (p.group g).commanded →
          (compareLevel g p).budget.groupCharge g = chargeOf (p.group g).config.rated (p.group g).fadeLevel)
      ∧ ((p.group g).commanded ≤ (p.group g).fadeLevel → (compareLevel g p).budget.charges = p.budget.charges) := by
  unfold compareLevel
  dsimp only
  split_ifs with falls rises
  · obtain ⟨_, ⟨a, b, d, record⟩, charge, _⟩ := lampFall_levelled range alone (p.group g).fadeLevel
    rw [record, Nat.min_eq_right falls.le]
    exact ⟨rfl, rfl, fun _ => charge, fun h => absurd falls (Nat.not_lt.mpr h)⟩
  · rw [clamped] at rises
    cases rises.2
  · exact ⟨rfl, (Nat.min_eq_left (Nat.not_lt.mp falls)).symm, fun h => absurd h falls, fun _ => rfl⟩

end Levels

/-! ## One group at a lamp update (R123, R126, R127) -/

section Updates

variable {p q r : Part} {g n level : Nat} {x : LampGroup}

/-- R126: a group's record after its clamp has gone, if its own fade removes it. -/
def unclamped (x : LampGroup) : LampGroup :=
  { x with clamp := if x.clamp.any (fun c => x.limitedTarget ≤ c) then none else x.clamp }

theorem unclamped_free (h : ∀ c, x.clamp = some c → x.limitedTarget ≤ c) : (unclamped x).clamp = none := by
  cases hc : x.clamp with
  | none => simp [unclamped, hc]
  | some c => simp [unclamped, hc, h c hc]

theorem unclamped_keeps (h : ∀ c, x.clamp = some c → c < x.limitedTarget) : unclamped x = x := by
  have none : x.clamp.any (fun c => decide (x.limitedTarget ≤ c)) = false := by
    cases hc : x.clamp with
    | none => rfl
    | some c => simp [h c hc]
  simp [unclamped, none]

/-- R126: the first way in which a clamp goes. -/
theorem dropClamp_eq (g : Nat) (p : Part) : ∃ t, dropClamp g p = retimed t (p.putGroup g (unclamped (p.group g))) := by
  have stays (h : unclamped (p.group g) = p.group g) :
      p = retimed p.budget.restore (p.putGroup g (unclamped (p.group g))) := by
    rw [h, putGroup_group]
    rfl
  unfold dropClamp
  dsimp only
  split
  · next c hc =>
    split_ifs with drops
    · have gone : unclamped (p.group g) = { p.group g with clamp := none } := by simp [unclamped, hc, drops]
      exact ⟨_, by rw [gone, examine_eq]⟩
    · refine ⟨_, stays (unclamped_keeps fun d hd => ?_)⟩
      rw [hc] at hd
      cases hd
      exact Nat.not_le.mp drops
  · next hc => exact ⟨_, stays (unclamped_keeps fun d hd => by rw [hc] at hd; cases hd)⟩

theorem dropClamp_idle (free : (p.group g).clamp = none) : dropClamp g p = p := by
  simp [dropClamp, free]

/-- R123: the fade level of the record that a fade has taken to its next elapsed count. -/
theorem fadeLevel_of_fadesTo (h : x.fadesTo n level) : ({ x with elapsed := n } : LampGroup).fadeLevel = level := by
  rcases h with ⟨going, rfl, rfl⟩ | ⟨complete, rfl, rfl, _⟩
  · unfold LampGroup.fadeLevel LampGroup.fadeLine LampGroup.complete
    dsimp only
    split_ifs with last
    · rw [decide_eq_true_eq] at last
      rw [← last, Int.mul_tdiv_cancel _ (by omega)]
      congr 1
      omega
    · rfl
  · simp [LampGroup.fadeLevel, LampGroup.fadeLine, LampGroup.complete, complete]

/-- R126, R127: the end of a group's turn at a lamp update. -/
def turnEnds (g : Nat) (p : Part) : Part :=
  if ((offerLevel g p).group g).state = .clamped then examine (offerLevel g p) else offerLevel g p

theorem turnEnds_eq (g : Nat) (p : Part) : ∃ t, turnEnds g p = retimed t (offerLevel g p) := by
  unfold turnEnds
  split_ifs
  · exact ⟨_, rfl⟩
  · exact ⟨(offerLevel g p).budget.restore, rfl⟩

/-- R116: a group that is not configured, and without a clamp, is left alone. -/
theorem updateGroup_idle (node : (p.group g).config.node = none) (free : (p.group g).clamp = none) :
    updateGroup p g = p := by
  simp [updateGroup, dropClamp_idle free, LampGroup.configured, node]

/-- R123: a configured group whose fade does not advance has its level compared with the one sent. -/
theorem updateGroup_stands (node : (p.group g).config.node ≠ none) (free : (p.group g).clamp = none)
    (stands : (p.group g).failure ≠ none ∨ p.mgmt.partState = .safe) : updateGroup p g = turnEnds g p := by
  have configured : (p.group g).configured = true := Option.isSome_iff_ne_none.mpr node
  have not : ¬ ((p.group g).failure.isNone = true ∧ p.mgmt.partState = .running) := by
    rw [Option.isNone_iff_eq_none]
    rintro ⟨sound, running⟩
    rcases stands with fault | safe
    · exact fault sound
    · rw [running] at safe
      cases safe
  simp only [updateGroup, dropClamp_idle free, configured, if_neg not, Bool.not_true, Bool.false_eq_true, if_false]
  rfl

/-- R123: the fade step of a sound group while RUNNING. -/
def fadeStep (g : Nat) (p : Part) : Part :=
  if (p.group g).complete then
    if (p.group g).clamp.isNone ∧ (p.group g).commanded < (p.group g).fadeLevel then lampAsk g (p.group g).fadeLevel p
    else p
  else compareLevel g (p.putGroup g (advanceFade (p.group g)))

/-- R123: a complete fade is compared as one in progress is, there being nothing to fall to. -/
theorem fadeStep_eq (fades : (p.group g).fadesTo n level) :
    fadeStep g p = compareLevel g (p.putGroup g { p.group g with elapsed := n }) := by
  have taken := fadeLevel_of_fadesTo fades
  unfold fadeStep
  rcases fades with ⟨going, rfl, _⟩ | ⟨complete, rfl, _, above⟩
  · rw [if_neg (by simp [LampGroup.complete, going.ne])]
    rfl
  · rw [putGroup_group, if_pos (by simp [LampGroup.complete, complete])]
    unfold compareLevel
    dsimp only at taken ⊢
    rw [taken, if_neg (Nat.not_lt.mpr above)]
    simp only [and_comm]

/-- R123: a sound group advances its fade, and its levels are compared. -/
theorem updateGroup_fades (range : 1 ≤ g ∧ g ≤ 12) (node : (p.group g).config.node ≠ none)
    (sound : (p.group g).failure = none) (running : p.mgmt.partState = .running) (fades : (p.group g).fadesTo n level) :
    ∃ t, updateGroup p g = turnEnds g (compareLevel g
      (retimed t (p.putGroup g { unclamped (p.group g) with elapsed := n }))) := by
  obtain ⟨t, drop⟩ := dropClamp_eq g p
  have record : (dropClamp g p).group g = unclamped (p.group g) := by
    rw [drop, retimed_group, group_putGroup_self _ _ _ range]
  have turn : updateGroup p g = turnEnds g (fadeStep g (dropClamp g p)) := by
    have configured : ((dropClamp g p).group g).configured = true := by
      rw [record]
      exact Option.isSome_iff_ne_none.mpr node
    have advances : ((dropClamp g p).group g).failure.isNone = true ∧ (dropClamp g p).mgmt.partState = .running := by
      rw [record, drop]
      exact ⟨Option.isNone_iff_eq_none.mpr sound, running⟩
    simp only [updateGroup, configured, if_pos advances, Bool.not_true, Bool.false_eq_true, if_false]
    rfl
  refine ⟨t, ?_⟩
  rw [turn, fadeStep_eq (level := level) (by rw [record]; exact fades), record, drop, putGroup_retimed,
    putGroup_putGroup]

/-- R126, R127: the turn ends with an offer of the level, which is compared a second time where it has altered. -/
theorem turnEnds_compared (range : 1 ≤ g ∧ g ≤ 12) (h : Compared g p q) :
    Moves g p (turnEnds g q)
      ∧ (∃ a b c, (turnEnds g q).group g = { q.group g with queued := a, deferred := b, deferredOffers := c })
      ∧ (turnEnds g q).budget.charges = q.budget.charges
      ∧ p.levelOffered (turnEnds g q) g (if ((turnEnds g q).group g).commanded = (p.group g).commanded then 1 else 2) := by
  obtain ⟨t, ends⟩ := turnEnds_eq g q
  obtain ⟨a, b, c, record⟩ := offerLevel_record range q
  have level : ((turnEnds g q).group g).commanded = (q.group g).commanded := by rw [ends, retimed_group, record]
  rw [level, ends]
  refine ⟨(h.moves.trans (moves_offerLevel g q)).trans (moves_retimed ..), ⟨a, b, c, record⟩, ?_, ?_⟩
  · rw [retimed_charges, offerLevel_budget]
  · refine levelOffered_of_same ?_ (retimed_group ..) rfl
    split_ifs with same
    · obtain ⟨dimmer, locals⟩ := h.still same
      exact offerLevel_offers range dimmer locals (h.moves.same .requests (by decide)).2.2.2.1
    · obtain ⟨_, _, _, _, _, _, altered⟩ := h.record
      exact offerLevel_again range (h.offers same) (by rw [altered]) rfl rfl

/-- What a lamp update of a sound group leaves while the part is RUNNING, its fade at elapsed count `n` and level `level`
(R120, R123, R126, R127). -/
structure Faded (g n level : Nat) (p q : Part) : Prop where
  moves : Moves g p q
  elapsed : (q.group g).elapsed = n
  offered : p.levelOffered q g (if (q.group g).commanded = (p.group g).commanded then 1 else 2)
  free : (∀ c, (p.group g).clamp = some c → (p.group g).limitedTarget ≤ c) → p.takesLevel q g level
  clamped : ∀ c, (p.group g).clamp = some c → c < (p.group g).limitedTarget →
    (q.group g).clamp = (p.group g).clamp ∧ (q.group g).commanded = min (p.group g).commanded level
      ∧ (level < (p.group g).commanded → q.budget.groupCharge g = chargeOf (p.group g).config.rated level)
      ∧ ((p.group g).commanded ≤ level → q.budget.charges = p.budget.charges)

theorem updateGroup_faded (range : 1 ≤ g ∧ g ≤ 12) (alone : p.budget.waiting = [])
    (node : (p.group g).config.node ≠ none) (sound : (p.group g).failure = none)
    (running : p.mgmt.partState = .running) (fades : (p.group g).fadesTo n level) :
    Faded g n level p (updateGroup p g) := by
  obtain ⟨t, turn⟩ := updateGroup_fades range node sound running fades
  generalize hb : retimed t (p.putGroup g { unclamped (p.group g) with elapsed := n }) = b at turn
  have before : Moves g p b := hb ▸ (moves_putGroup ..).trans (moves_retimed ..)
  have record : b.group g = { unclamped (p.group g) with elapsed := n } := by
    rw [← hb, retimed_group, group_putGroup_self _ _ _ range]
  have charges : b.budget.charges = p.budget.charges := by rw [← hb]; rfl
  have locals : b.line.localQ = p.line.localQ := by rw [← hb]; rfl
  have address : b.mgmt.address = p.mgmt.address := by rw [← hb]; rfl
  have dimmer : SameDimmer (p.group g) (b.group g) := by
    rw [record]
    exact ⟨rfl, rfl, rfl, rfl, rfl⟩
  have taken : (b.group g).fadeLevel = level := by
    rw [record]
    exact fadeLevel_of_fadesTo (x := unclamped (p.group g)) fades
  have alone : b.budget.waiting = [] := before.waiting.trans alone
  have compared := compareLevel_compared range alone
  obtain ⟨moves, ⟨a, c, d, ended⟩, kept, offered⟩ := turnEnds_compared range compared
  obtain ⟨_, _, _, _, _, _, altered⟩ := compared.record
  rw [← turn] at moves ended kept offered
  have own : (b.group g).commanded = (p.group g).commanded := by rw [record]; rfl
  refine ⟨before.trans moves, by rw [ended, altered, record], ?_, fun free => ?_, fun k clamped above => ?_⟩
  · rw [own] at offered
    exact levelOffered_before offered dimmer locals address
  · have takes := compareLevel_takes range alone (by rw [record]; exact unclamped_free free)
    rw [taken] at takes
    refine takesLevel_after (takesLevel_before takes own dimmer.config (by rw [record]; rfl) charges before.limit) ?_ ?_ ?_
      kept
    all_goals rw [ended]
  · have same : b.group g = { p.group g with elapsed := n } := by
      rw [record, unclamped_keeps fun c hc => ?_]
      rw [clamped] at hc
      cases hc
      exact above
    have falls := compareLevel_clamped range alone (c := k) (by rw [same]; exact clamped)
    rw [taken, same] at falls
    have charge : (updateGroup p g).budget.groupCharge g = (compareLevel g b).budget.groupCharge g := by
      rw [FeedBudget.groupCharge, FeedBudget.groupCharge, kept]
    rw [charge, kept, ended, ← charges]
    exact falls

/-- A fold over a list in which one entry alone alters the part. -/
theorem foldl_single {α : Type} {f : Part → α → Part} {l : List α} {a : α} (nodup : l.Nodup) (ha : a ∈ l)
    (before : ∀ b ∈ l, b ≠ a → f p b = p) (after : ∀ b ∈ l, b ≠ a → f (f p a) b = f p a) : l.foldl f p = f p a := by
  have idle (m : List α) (q : Part) (h : ∀ b ∈ m, f q b = q) : m.foldl f q = q := by
    induction m with
    | nil => rfl
    | cons b m ih =>
      rw [List.foldl_cons, h b List.mem_cons_self]
      exact ih fun c hc => h c (List.mem_cons_of_mem _ hc)
  obtain ⟨l, m, rfl⟩ := List.append_of_mem ha
  have apart : a ∉ l ∧ a ∉ m := by
    have := List.nodup_append.mp nodup
    exact ⟨fun h => this.2.2 a h a List.mem_cons_self rfl, (List.nodup_cons.mp this.2.1).1⟩
  rw [List.foldl_append, List.foldl_cons, idle l p fun b hb => before b (List.mem_append_left _ hb) ?_,
    idle m (f p a) fun b hb => after b (List.mem_append_right _ (List.mem_cons_of_mem _ hb)) ?_]
  · rintro rfl
    exact apart.2 hb
  · rintro rfl
    exact apart.1 hb

theorem groupNumbers_nodup : groupNumbers.Nodup := by decide

/-- R116: the beat of the lamp update passes. -/
def beaten (p : Part) : Part := { p with lamps.nextUpdate := p.lamps.nextUpdate + 1024 }

theorem exec_lampUpdate (w : List Instr) (supply : p.retention.supply = true) : exec .lampUpdate ⟨p, w⟩
    = .next ⟨if p.lamps.nextUpdate ≤ p.osc then groupNumbers.foldl updateGroup (beaten p) else p, w⟩ := by
  show act _ _ = _
  rw [act_eq, powered_on _ _ supply]
  rfl

/-- R116: with one group configured, and no clamp elsewhere, the update is that group's. -/
theorem lampUpdate_single (range : 1 ≤ g ∧ g ≤ 12) (moves : Moves g p (updateGroup p g))
    (bare : ∀ a, 1 ≤ a → a ≤ 12 → a ≠ g → (p.group a).config.node = none ∧ (p.group a).clamp = none) :
    groupNumbers.foldl updateGroup p = updateGroup p g := by
  refine foldl_single groupNumbers_nodup (mem_groupNumbers.mpr range) (fun a ha other => ?_) (fun a ha other => ?_)
  all_goals
    obtain ⟨a1, a12⟩ := mem_groupNumbers.mp ha
    obtain ⟨node, free⟩ := bare a a1 a12 other
  · exact updateGroup_idle node free
  · exact updateGroup_idle (by rwa [moves.others a other]) (by rwa [moves.others a other])

end Updates

/-! ## Several groups at a lamp update -/

section Several

variable {p q s : Part} {g n level need : Nat} {num lev needs : Nat → Nat} {l : List Nat}

/-- R126: the turn of a group without a clamp ends with the offer alone. -/
theorem turnEnds_free (range : 1 ≤ g ∧ g ≤ 12) (free : (p.group g).clamp = none) : turnEnds g p = offerLevel g p := by
  obtain ⟨a, b, c, record⟩ := offerLevel_record range p
  have state : ((offerLevel g p).group g).state ≠ .clamped := by
    rw [record]
    simp only [LampGroup.state, free]
    split_ifs <;> simp_all
  exact if_neg state

/-- A group before its turn at a lamp update: it is not clamped, it is charged for its level, and a sound fade that it has
comes to a level whose charge is within what it holds and `need`. -/
structure Ready (g n level need : Nat) (p : Part) : Prop where
  range : 1 ≤ g ∧ g ≤ 12
  free : (p.group g).clamp = none
  held : p.budget.groupCharge g = chargeOf (p.group g).config.rated (p.group g).commanded
  fades : (p.group g).config.node ≠ none → (p.group g).failure = none → (p.group g).fadesTo n level
    ∧ chargeOf (p.group g).config.rated level ≤ p.budget.groupCharge g + need

/-- Another group's turn leaves a group ready. -/
theorem Ready.of_moves {a : Nat} (h : Ready a n level need p) (moves : Moves g p q) (other : a ≠ g) :
    Ready a n level need q := by
  obtain ⟨range, free, held, fades⟩ := h
  rw [← moves.others a other] at free held fades
  rw [← moves.groupCharge other] at held fades
  exact ⟨range, free, held, fades⟩

/-- What the turn of a group without a clamp leaves of it where the Budget has room for its rise. -/
structure Turned (g n level : Nat) (p q : Part) : Prop where
  bare : (p.group g).config.node = none → q.group g = p.group g
  fault : (p.group g).failure ≠ none →
    (q.group g).commanded = (p.group g).commanded ∧ (q.group g).elapsed = (p.group g).elapsed
  fades : (p.group g).config.node ≠ none → (p.group g).failure = none →
    (q.group g).elapsed = n ∧ (q.group g).commanded = level ∧ (q.group g).clamp = none
      ∧ q.budget.groupCharge g = chargeOf (p.group g).config.rated level

theorem Turned.of_eq (h : Turned g n level s q) (group : s.group g = p.group g) : Turned g n level p q := by
  obtain ⟨bare, fault, fades⟩ := h
  rw [group] at bare fault fades
  exact ⟨bare, fault, fades⟩

theorem Turned.keeps (h : Turned g n level p s) (group : q.group g = s.group g)
    (charge : q.budget.groupCharge g = s.budget.groupCharge g) : Turned g n level p q := by
  obtain ⟨bare, fault, fades⟩ := h
  rw [← group] at bare fault
  rw [← group, ← charge] at fades
  exact ⟨bare, fault, fades⟩

/-- What the part must have for the turns to come: sound charges, no dial waiting, and room for the rises. -/
structure Roomy (need places : Nat) (p : Part) : Prop where
  once : oneEach p.budget.charges
  alone : p.budget.waiting = []
  running : p.mgmt.partState = .running
  fits : p.budget.committed + need ≤ p.budget.limit
  places : p.budget.charges.length + places ≤ 80

/-- R120, R123: the turn of one group where the Budget has room for it. -/
theorem updateGroup_turned (ready : Ready g n level need p) (room : Roomy need 1 p) :
    Moves g p (updateGroup p g) ∧ Turned g n level p (updateGroup p g)
      ∧ (updateGroup p g).budget.committed ≤ p.budget.committed + need := by
  obtain ⟨range, free, held, fades⟩ := ready
  obtain ⟨once, alone, running, fits, places⟩ := room
  by_cases node : (p.group g).config.node = none
  · rw [updateGroup_idle node free]
    exact ⟨.refl g p, ⟨fun _ => rfl, fun _ => ⟨rfl, rfl⟩, fun other => absurd node other⟩, Nat.le_add_right ..⟩
  by_cases sound : (p.group g).failure = none
  · obtain ⟨fades, within⟩ := fades node sound
    obtain ⟨moves, elapsed, _, takes, _⟩ := updateGroup_faded range alone node sound running fades
    have committed := moves.committed once
    obtain ⟨taken, _⟩ := takes (fun c hc => by rw [free] at hc; cases hc) _ rfl
    obtain ⟨commanded, unclamped, _, moved, stayed⟩ := taken (.inr ⟨by omega, by omega, by unfold chargeOf at within; omega⟩)
    have charge : (updateGroup p g).budget.groupCharge g = chargeOf (p.group g).config.rated level := by
      by_cases same : level = (p.group g).commanded
      · rw [FeedBudget.groupCharge, stayed same, ← FeedBudget.groupCharge, held, same]
      · exact moved same
    exact ⟨moves, ⟨fun h => absurd h node, fun h => absurd sound h, fun _ _ => ⟨elapsed, commanded, unclamped, charge⟩⟩,
      by omega⟩
  · rw [updateGroup_stands node free (.inl sound), turnEnds_free range free]
    obtain ⟨a, b, c, record⟩ := offerLevel_record range p
    refine ⟨moves_offerLevel g p, ⟨fun h => absurd h node, fun _ => ?_, fun _ h => absurd h sound⟩, ?_⟩
    · rw [record]
      exact ⟨rfl, rfl⟩
    · rw [offerLevel_budget]
      omega

/-- R120, R123: the turns of several groups where the Budget has room for them all. -/
theorem updateGroups_turned (nodup : l.Nodup) (ready : ∀ g ∈ l, Ready g (num g) (lev g) (needs g) p)
    (room : Roomy (l.map needs).sum l.length p) (hq : q = l.foldl updateGroup p) :
    (∀ g ∈ l, Turned g (num g) (lev g) p q)
      ∧ (∀ g, g ∉ l → q.group g = p.group g ∧ q.budget.groupCharge g = p.budget.groupCharge g)
      ∧ q.lamps.nextUpdate = p.lamps.nextUpdate ∧ p.sameBut q [.lamps, .budget, .locals] := by
  induction l generalizing p with
  | nil =>
    subst hq
    exact ⟨fun g hg => absurd hg List.not_mem_nil, fun _ _ => ⟨rfl, rfl⟩, rfl, same_refl _ _⟩
  | cons g l ih =>
    obtain ⟨out, nodup⟩ := List.nodup_cons.mp nodup
    obtain ⟨once, alone, running, fits, places⟩ := room
    rw [List.map_cons, List.sum_cons] at fits
    rw [List.length_cons] at places
    obtain ⟨moves, turned, committed⟩ := updateGroup_turned (ready g List.mem_cons_self)
      ⟨once, alone, running, by omega, by omega⟩
    have more := moves.places once
    have rest : ∀ a ∈ l, Ready a (num a) (lev a) (needs a) (updateGroup p g) := fun a ha =>
      (ready a (List.mem_cons_of_mem _ ha)).of_moves moves fun e => out (e ▸ ha)
    obtain ⟨turns, stays, beat, same⟩ := ih nodup rest
      ⟨moves.oneEach once, moves.waiting.trans alone, (moves.same .faults (by decide)).2.2.trans running,
        by rw [moves.limit]; omega, by omega⟩ hq
    refine ⟨fun a ha => ?_, fun a ha => ?_, beat.trans moves.beat, sameBut_trans moves.same same⟩
    · rcases List.mem_cons.mp ha with rfl | ha
      · exact turned.keeps (stays a out).1 (stays a out).2
      · exact (turns a ha).of_eq (moves.others a fun e => out (e ▸ ha))
    · obtain ⟨other, ha⟩ := not_or.mp (mt List.mem_cons.mpr ha)
      exact ⟨(stays a ha).1.trans (moves.others a other), (stays a ha).2.trans (moves.groupCharge other)⟩

end Several

/-- Settles O46: before the beat nothing is done; one group alone has the turn of `updateGroup_faded`, or while SAFE its
level offered; and where the Budget has room for all, each group in its turn takes its own fade level. -/
theorem lampUpdateAdvancesFade : Obligations.LampUpdateAdvancesFade := by
  unfold Obligations.LampUpdateAdvancesFade
  intro p w supply
  have begins : p.sameBut (beaten p) [.lamps] := by simp [beaten]
  refine ⟨fun early => ?_, fun g x due h1 h12 hx node sound bare alone => ?_,
    fun lev num need due running budget alone free fades fit places => ?_⟩
  · rw [exec_lampUpdate w supply, if_neg (Nat.not_le.mpr early)]
  · have range : 1 ≤ g ∧ g ≤ 12 := ⟨h1, h12⟩
    subst hx
    rw [exec_lampUpdate w supply, if_pos due]
    refine ⟨fun safe free => ⟨_, rfl, ?_⟩, fun n level running fades => ⟨_, rfl, ?_⟩⟩
    · have turn : updateGroup (beaten p) g = offerLevel g (beaten p) := by
        rw [updateGroup_stands (p := beaten p) node free (.inr safe), turnEnds_free (p := beaten p) range free]
      obtain ⟨a, b, c, record⟩ := offerLevel_record range (beaten p)
      have moves : Moves g (beaten p) (updateGroup (beaten p) g) := turn ▸ moves_offerLevel g _
      rw [lampUpdate_single range moves bare, turn, record]
      exact ⟨rfl, rfl, offerLevel_nextUpdate g _, offerLevel_offers range (.refl _) rfl rfl,
        same_offerLevel (sameBut_mono begins (by simp)) (by simp) (by simp)⟩
    · obtain ⟨moves, elapsed, offered, takes, clamped⟩ :=
        updateGroup_faded (p := beaten p) range alone node sound running fades
      rw [lampUpdate_single range moves bare]
      exact ⟨elapsed, moves.beat, sameBut_trans (sameBut_mono begins (by simp)) moves.same, offered, takes, clamped⟩
  · rw [exec_lampUpdate w supply, if_pos due]
    have ready : ∀ g ∈ groupNumbers, Ready g (num g) (lev g) (need g) (beaten p) := fun g hg => by
      obtain ⟨h1, h12⟩ := mem_groupNumbers.mp hg
      exact ⟨⟨h1, h12⟩, free g h1 h12, budget.groups g h1 h12, fades g h1 h12⟩
    have room : Roomy (groupNumbers.map need).sum groupNumbers.length (beaten p) :=
      ⟨oneEach_of_sound (p := p) budget, alone, running, fit, places⟩
    obtain ⟨turned, _, beat, same⟩ := updateGroups_turned groupNumbers_nodup ready room rfl
    refine ⟨_, rfl, beat, sameBut_trans (sameBut_mono begins (by simp)) same, fun g h1 h12 => ?_⟩
    obtain ⟨bare, fault, fades⟩ := turned g (mem_groupNumbers.mpr ⟨h1, h12⟩)
    exact ⟨bare, fault, fades⟩

end Sys2Proof.Machine.Lamps


/-! SUPPORT. Scenes applied (R122): the fades that a scene restarts, one group after the other, the jump of a group whose
fade time is 0, and the statement about APPLY_SCENE. -/

namespace Sys2Proof.Machine.Lamps

open Dials Bells Voices

/-! ## The request -/

section Requests

variable {p q s : Part} {src n : Nat} {cls : SourceClass} {code : Code} {x : Scene} {T : List Block}

theorem exec_applyScene (h : p.hears src cls = true) (hc : cls.rank ≠ 0) (w : List Instr) :
    exec (.applyScene src n) ⟨p, w⟩ = .next ⟨reply src 33 (applyScene n (p.taken (.applyScene src n) cls)).2 []
      (applyScene n (p.taken (.applyScene src n) cls)).1, w⟩ := by
  have served := serveSimple_console (i := .applyScene src n) (op := applyScene n) h hc
  exact congrArg (fun q => Host.Outcome.next (State.mk q w)) served

theorem applyScene_refused (h : p.hears src cls = true) (hc : cls.rank ≠ 0)
    (ho : applyScene n (p.taken (.applyScene src n) cls) = (p.taken (.applyScene src n) cls, code)) (w : List Instr) :
    exec (.applyScene src n) ⟨p, w⟩ = .next ⟨p.answered src 33 code [], w⟩ := by
  rw [exec_applyScene h hc, ho, reply_taken h]

/-- R121: a scene whose check value agrees is read. -/
theorem readScene_stored (h : bankGet p.lamps.scenes n (stored sceneBytes (Scene.cold n)) = stored sceneBytes x) :
    readScene n p = (p, some x) := by
  simp only [readScene, h, checkHolds_stored, if_true]
  rfl

/-- R121: a scene whose check value does not agree is counted, and raises TABLE_CHECK. -/
theorem readScene_damaged
    (h : checkHolds sceneBytes (bankGet p.lamps.scenes n (stored sceneBytes (Scene.cold n))) = false)
    (hq : q = (readScene n p).1) : (readScene n p).2 = none
      ∧ q.lamps = { p.lamps with sceneFailures := bump p.lamps.sceneFailures }
      ∧ q.mgmt.tally = { p.mgmt.tally with tableCheck := bump p.mgmt.tally.tableCheck }
      ∧ p.sameBut q [.lamps, .up, .faults] := by
  generalize hr : ({ p with lamps.sceneFailures := bump p.lamps.sceneFailures } : Part) = r
  have read : readScene n p = (raiseMinor .tableCheck (tableDetail .scenes n) r, none) := by
    simp [readScene, h, hr]
  obtain ⟨tally, same⟩ := raiseMinor_counts .tableCheck (tableDetail .scenes n) r
  rw [read] at hq ⊢
  rw [hq]
  refine ⟨rfl, (same .lamps (by decide)).trans (by rw [← hr]), tally.trans (by rw [← hr]; rfl), ?_⟩
  exact sameBut_trans (by rw [← hr]; simp) (sameBut_mono same (by simp))

theorem applyScene_read (running : p.mgmt.partState = .running) (hn : n < 16)
    (h : bankGet p.lamps.scenes n (stored sceneBytes (Scene.cold n)) = stored sceneBytes x) :
    applyScene n p = (groupNumbers.foldl (sceneGroup x) p, .ok) := by
  simp [applyScene, running, Nat.not_le.mpr hn, readScene_stored h]

/-- R122: a scene applied is answered, and but for the answer leaves what its groups leave. -/
theorem exec_applyScene_ok (h : p.hears src cls = true) (hc : cls.rank ≠ 0)
    (ho : applyScene n (p.taken (.applyScene src n) cls) = (s, .ok))
    (same : (p.taken (.applyScene src n) cls).sameBut s T) (hT : Block.requests ∉ T) (hU : Block.up ∉ T)
    (w : List Instr) : exec (.applyScene src n) ⟨p, w⟩ = .next ⟨(released s).answered src 33 .ok [], w⟩
      ∧ p.sameBut (released s) T := by
  have room : s.line.upQ.length < 16 := by
    obtain ⟨_, _, _, _, _, room⟩ := hears_free h
    rwa [(same .up hU).1]
  obtain ⟨answered, kept⟩ := reply_done (n := src) (o := 33) (code := .ok) (data := []) h same hT room
  exact ⟨by rw [exec_applyScene h hc, ho, answered], kept⟩

end Requests

/-! ## One group of a scene -/

section Groups

variable {p q : Part} {s : Scene} {g t : Nat} {x : LampGroup} {l : List Nat}

theorem sceneGroup_left (h : bankGet1 s.targets g none = none) : sceneGroup s p g = p := by
  simp [sceneGroup, h]

/-- R122, R126: the fade of a group restarts, and a clamp that it removes goes. -/
theorem sceneGroup_restarts (range : 1 ≤ g ∧ g ≤ 12) (h : bankGet1 s.targets g none = some t) : ∃ k,
    sceneGroup s p g
      = followRestart g (retimed k (p.putGroup g (unclamped (restartFade t s.fadeTime (p.group g))))) := by
  obtain ⟨k, drop⟩ := dropClamp_eq g (p.putGroup g (restartFade t s.fadeTime (p.group g)))
  rw [group_putGroup_self _ _ _ range, putGroup_putGroup] at drop
  exact ⟨k, by simp only [sceneGroup, h, drop]⟩

/-- R122: a group whose restarted fade has nothing to do: it is configured, sound and not clamped, and has its target. -/
abbrev arrived (x : LampGroup) : Prop :=
  x.config.node ≠ none ∧ x.failure = none ∧ x.clamp = none ∧ x.limitedTarget = x.commanded

/-- R122: a group that is not configured, in FAULT or clamped does not follow its fade. -/
theorem followRestart_idle (hx : x = p.group g) (out : x.config.node = none ∨ x.failure ≠ none ∨ x.clamp ≠ none) :
    ∃ k, followRestart g p = retimed k p := by
  unfold followRestart
  dsimp only
  rw [← hx]
  by_cases idle : (!x.configured) = true ∨ x.failure.isSome = true
  · rw [if_pos idle]
    exact ⟨p.budget.restore, rfl⟩
  · have clamped : x.clamp.isSome = true := by
      rcases out with bare | fault | clamped
      · exact absurd (.inl (by simp [LampGroup.configured, bare])) idle
      · exact absurd (.inr (Option.isSome_iff_ne_none.mpr fault)) idle
      · exact Option.isSome_iff_ne_none.mpr clamped
    rw [if_neg idle, if_pos clamped]
    exact ⟨_, rfl⟩

/-- R122: a restarted fade that takes time is complete at once where the group has its target, and else waits. -/
theorem followRestart_fades (hx : x = p.group g) (begun : x.elapsed = 0) (long : 0 < x.fadeLength) : ∃ k,
    followRestart g p = retimed k (p.putGroup g { x with elapsed := if arrived x then x.fadeLength else 0 }) := by
  have instant : ¬ x.fadeLength = 0 := by omega
  by_cases done : arrived x
  · obtain ⟨node, sound, free, own⟩ := done
    have configured : x.configured = true := Option.isSome_iff_ne_none.mpr node
    refine ⟨p.budget.restore, ?_⟩
    rw [if_pos ⟨node, sound, free, own⟩]
    simp only [followRestart, ← hx, configured, sound, free, instant, own]
    rfl
  · rw [if_neg done, ← begun, hx, putGroup_group]
    by_cases out : x.config.node = none ∨ x.failure ≠ none ∨ x.clamp ≠ none
    · exact followRestart_idle hx out
    · obtain ⟨node, sound, free⟩ : x.config.node ≠ none ∧ x.failure = none ∧ x.clamp = none := by
        simpa only [not_or, ne_eq, not_not] using out
      have configured : x.configured = true := Option.isSome_iff_ne_none.mpr node
      have going : x.limitedTarget ≠ x.commanded := fun own => done ⟨node, sound, free, own⟩
      refine ⟨p.budget.restore, ?_⟩
      simp only [followRestart, ← hx, configured, sound, free, instant, going]
      rfl

/-- R122: the record of a group whose fade restarts with a fade time. -/
def fadeRestarted (t time : Nat) (x : LampGroup) : LampGroup :=
  { unclamped (restartFade t time x) with
    elapsed := if arrived (unclamped (restartFade t time x)) then time else 0 }

/-- R122: with a fade time the group's record alone alters, and the restore timer. -/
theorem sceneGroup_fades (range : 1 ≤ g ∧ g ≤ 12) (h : bankGet1 s.targets g none = some t) (long : 0 < s.fadeTime) :
    ∃ k, sceneGroup s p g = retimed k (p.putGroup g (fadeRestarted t s.fadeTime (p.group g))) := by
  obtain ⟨j, restarts⟩ := sceneGroup_restarts range (p := p) h
  have record := group_putGroup_self p g (unclamped (restartFade t s.fadeTime (p.group g))) range
  obtain ⟨k, follows⟩ := followRestart_fades (p := retimed j (p.putGroup g _)) record.symm rfl long
  rw [putGroup_retimed, putGroup_putGroup] at follows
  exact ⟨k, restarts.trans follows⟩

/-- R122: the groups of a scene with a fade time, each from the record that it has. -/
theorem sceneGroups_fade (nodup : l.Nodup) (range : ∀ g ∈ l, 1 ≤ g ∧ g ≤ 12) (long : 0 < s.fadeTime)
    (hq : q = l.foldl (sceneGroup s) p) :
    (∀ g, g ∉ l ∨ bankGet1 s.targets g none = none → q.group g = p.group g)
      ∧ (∀ g ∈ l, ∀ t, bankGet1 s.targets g none = some t → q.group g = fadeRestarted t s.fadeTime (p.group g))
      ∧ p.sameBut q [.lamps, .budget] := by
  induction l generalizing p with
  | nil =>
    subst hq
    exact ⟨fun _ _ => rfl, fun g hg => absurd hg List.not_mem_nil, same_refl _ _⟩
  | cons g l ih =>
    obtain ⟨out, nodup⟩ := List.nodup_cons.mp nodup
    have own := range g List.mem_cons_self
    obtain ⟨left, faded, same⟩ := ih nodup (fun a ha => range a (List.mem_cons_of_mem _ ha)) hq
    cases ht : bankGet1 s.targets g none with
    | none =>
      rw [sceneGroup_left ht] at left faded same
      refine ⟨fun a ha => left a (ha.imp_left fun h k => h (List.mem_cons_of_mem _ k)), fun a ha t h => ?_, same⟩
      rcases List.mem_cons.mp ha with rfl | ha
      · rw [ht] at h
        cases h
      · exact faded a ha t h
    | some t =>
      obtain ⟨k, step⟩ := sceneGroup_fades own (p := p) ht long
      have record : (sceneGroup s p g).group g = fadeRestarted t s.fadeTime (p.group g) := by
        rw [step, retimed_group, group_putGroup_self _ _ _ own]
      have others (a : Nat) (h : a ≠ g) : (sceneGroup s p g).group a = p.group a := by
        rw [step, retimed_group, group_putGroup_ne _ _ _ _ h]
      have touched : p.sameBut (sceneGroup s p g) [.lamps, .budget] := by
        rw [step]
        simp [retimed]
      refine ⟨fun a ha => ?_, fun a ha u h => ?_, sameBut_trans touched same⟩
      · have other : a ≠ g := by
          rintro rfl
          rcases ha with ha | ha
          · exact ha List.mem_cons_self
          · rw [ht] at ha
            cases ha
        rw [left a (ha.imp_left fun h k => h (List.mem_cons_of_mem _ k)), others a other]
      · rcases List.mem_cons.mp ha with rfl | ha
        · rw [left a (.inl out), record]
          rw [ht] at h
          cases h
          rfl
        · rw [faded a ha u h, others a fun e => out (e ▸ ha)]

/-- R122, log entry 60: a fade of time 0 compares the group's level with its target, as a complete fade does. -/
theorem followRestart_jumps (hx : x = p.group g) (node : x.config.node ≠ none) (sound : x.failure = none)
    (free : x.clamp = none) (begun : x.elapsed = 0) (instant : x.fadeLength = 0) :
    followRestart g p = compareLevel g p ∧ x.fadeLevel = x.limitedTarget := by
  have taken : x.fadeLevel = x.limitedTarget := by
    simp [LampGroup.fadeLevel, LampGroup.fadeLine, LampGroup.complete, LampGroup.limitedTarget, begun, instant]
  refine ⟨?_, taken⟩
  have configured : ¬ ((!x.configured) = true ∨ x.failure.isSome = true) := by
    simp [LampGroup.configured, Option.isSome_iff_ne_none.mpr node, sound]
  unfold followRestart compareLevel
  dsimp only
  rw [← hx, if_neg configured, if_neg (by simp [free]), if_pos instant, taken, free]
  rcases Nat.lt_trichotomy x.commanded x.limitedTarget with rises | same | falls
  · rw [if_pos rises, if_neg (Nat.lt_asymm rises), if_pos ⟨rises, rfl⟩]
  · simp [same]
  · rw [if_neg (Nat.lt_asymm falls), if_pos falls, if_pos falls]

/-- What a scene with fade time 0 leaves of a group that it takes to `t` (R120, R122, R126). -/
structure Jumped (g t : Nat) (p q : Part) : Prop where
  moves : Moves g p q
  restarted : (q.group g).target = t ∧ (q.group g).fadeStart = (p.group g).commanded ∧ (q.group g).fadeLength = 0
    ∧ (q.group g).elapsed = 0
  idle : (p.group g).config.node = none ∨ (p.group g).failure ≠ none
      ∨ (∃ c, (p.group g).clamp = some c ∧ c < min t (p.group g).config.ceiling) →
    (q.group g).commanded = (p.group g).commanded ∧ q.budget.charges = p.budget.charges
      ∧ q.line.localQ = p.line.localQ
      ∧ (q.group g).clamp = (unclamped (restartFade t 0 (p.group g))).clamp
  takes : (p.group g).config.node ≠ none → (p.group g).failure = none →
    (∀ c, (p.group g).clamp = some c → min t (p.group g).config.ceiling ≤ c) →
      p.takesLevel q g (min t (p.group g).config.ceiling)
        ∧ ((q.group g).commanded ≠ (p.group g).commanded → p.levelOffered q g 1)
        ∧ ((q.group g).commanded = (p.group g).commanded → q.line.localQ = p.line.localQ)

theorem sceneGroup_jumps (range : 1 ≤ g ∧ g ≤ 12) (alone : p.budget.waiting = []) (instant : s.fadeTime = 0)
    (h : bankGet1 s.targets g none = some t) : Jumped g t p (sceneGroup s p g) := by
  obtain ⟨k, restarts⟩ := sceneGroup_restarts range (p := p) h
  rw [restarts, instant]
  generalize hb : retimed k (p.putGroup g (unclamped (restartFade t 0 (p.group g)))) = b
  have record : b.group g = unclamped (restartFade t 0 (p.group g)) := by
    rw [← hb, retimed_group, group_putGroup_self _ _ _ range]
  have before : Moves g p b := hb ▸ (moves_putGroup ..).trans (moves_retimed ..)
  have charges : b.budget.charges = p.budget.charges := by rw [← hb]; rfl
  have locals : b.line.localQ = p.line.localQ := by rw [← hb]; rfl
  have address : b.mgmt.address = p.mgmt.address := by rw [← hb]; rfl
  have dimmer : SameDimmer (p.group g) (b.group g) := by
    rw [record]
    exact ⟨rfl, rfl, rfl, rfl, rfl⟩
  by_cases out : (p.group g).config.node = none ∨ (p.group g).failure ≠ none
      ∨ ∃ c, (p.group g).clamp = some c ∧ c < min t (p.group g).config.ceiling
  · have clamped (c : Nat) (hc : (p.group g).clamp = some c) (above : c < min t (p.group g).config.ceiling) :
        (unclamped (restartFade t 0 (p.group g))).clamp = some c := by
      rw [unclamped_keeps fun d hd => ?_]
      · exact hc
      · rw [show (restartFade t 0 (p.group g)).clamp = some c from hc] at hd
        cases hd
        exact above
    obtain ⟨j, stays⟩ := followRestart_idle (p := b) record.symm <| out.imp_right <| Or.imp_right fun ⟨c, hc, above⟩ => by
      rw [clamped c hc above]
      exact Option.some_ne_none c
    rw [stays]
    refine ⟨before.trans (moves_retimed ..), ?_, fun _ => ?_, fun node sound free => ?_⟩
    · rw [retimed_group, record]
      exact ⟨rfl, rfl, rfl, rfl⟩
    · rw [retimed_group, record]
      exact ⟨rfl, charges, locals, rfl⟩
    · rcases out with bare | fault | ⟨c, hc, above⟩
      · exact absurd bare node
      · exact absurd sound fault
      · exact absurd above (Nat.not_lt.mpr (free c hc))
  · obtain ⟨node, out⟩ := not_or.mp out
    obtain ⟨sound, clamped⟩ := not_or.mp out
    rw [ne_eq, not_not] at sound
    have drops : ∀ c, (p.group g).clamp = some c → min t (p.group g).config.ceiling ≤ c := fun c hc =>
      Nat.not_lt.mp fun above => clamped ⟨c, hc, above⟩
    have free : (unclamped (restartFade t 0 (p.group g))).clamp = none := unclamped_free drops
    obtain ⟨jumps, taken⟩ := followRestart_jumps (p := b) record.symm node sound free rfl rfl
    have alone : b.budget.waiting = [] := before.waiting.trans alone
    have compared := compareLevel_compared range alone
    have takes := compareLevel_takes range alone (by rw [record]; exact free)
    rw [record, taken] at takes
    rw [jumps]
    obtain ⟨moves, ⟨_, _, _, _, _, _, altered⟩, offers, still⟩ := compared
    have own : (b.group g).commanded = (p.group g).commanded := by rw [record]; rfl
    rw [own] at offers still
    refine ⟨before.trans moves, ?_, fun h => ?_, fun _ _ _ => ⟨?_, fun other => ?_, fun same => ?_⟩⟩
    · rw [altered, record]
      exact ⟨rfl, rfl, rfl, rfl⟩
    · rcases h with bare | fault | h
      · exact absurd bare node
      · exact absurd sound fault
      · exact absurd h clamped
    · exact takesLevel_before takes own dimmer.config (by rw [record]; rfl) charges before.limit
    · exact levelOffered_before (offers other) dimmer locals address
    · exact (still same).2.trans locals

end Groups

/-- Settles O47: the checks refuse in their order; a scene that is read restarts the fade of each group in turn, and with
fade time 0 the one group that it names jumps. -/
theorem applySceneRestartsFades : Obligations.ApplySceneRestartsFades := by
  unfold Obligations.ApplySceneRestartsFades
  intro p w src n cls hears manages
  refine ⟨fun safe => ?_, fun running big => ?_, fun running hn damaged => ?_, fun s running hn stands long => ?_,
    fun s g t level x running hn stands instant h1 h12 hx target others hl alone => ?_⟩
  · exact applyScene_refused hears manages (by simp [applyScene, safe]) w
  · exact applyScene_refused hears manages (by simp [applyScene, running, big]) w
  · obtain ⟨none, lamps, tally, same⟩ := readScene_damaged (p := p.taken (.applyScene src n) cls) damaged rfl
    have fails : applyScene n (p.taken (.applyScene src n) cls)
        = ((readScene n (p.taken (.applyScene src n) cls)).1, .checkFail) := by
      simp [applyScene, running, Nat.not_le.mpr hn, none]
    generalize (readScene n (p.taken (.applyScene src n) cls)).1 = q at *
    have replied : q.sameBut (reply src 33 .checkFail [] q) [.up, .requests] := by simp
    have address : q.mgmt.address = p.mgmt.address := (same .requests (by decide)).2.2.2.1
    refine ⟨reply src 33 .checkFail [] q, by rw [exec_applyScene hears manages, fails], address ▸ gave_reply,
      (replied .lamps (by decide)).trans lamps, (replied .faults (by decide)).2.1.trans tally, ?_⟩
    have taken : p.sameBut (p.taken (.applyScene src n) cls) [.lamps, .up, .faults, .requests] := by simp
    exact sameBut_trans taken (sameBut_trans (sameBut_mono same (by simp)) (sameBut_mono replied (by simp)))
  · obtain ⟨left, faded, same⟩ := sceneGroups_fade groupNumbers_nodup (fun g hg => mem_groupNumbers.mp hg) long
      (p := p.taken (.applyScene src n) cls) rfl
    obtain ⟨answered, kept⟩ := exec_applyScene_ok hears manages
      (applyScene_read (p := p.taken (.applyScene src n) cls) running hn stands) same (by decide) (by decide) w
    refine ⟨_, answered, fun g x h1 h12 hx => ⟨fun none => ?_, fun t top held target ht hh => ?_⟩, kept⟩
    · rw [hx]
      exact left g (.inr none)
    · subst hx ht hh
      exact faded g (mem_groupNumbers.mpr ⟨h1, h12⟩) t target
  · have range : 1 ≤ g ∧ g ≤ 12 := ⟨h1, h12⟩
    obtain ⟨moves, restarted, idle, takes⟩ :=
      sceneGroup_jumps (p := p.taken (.applyScene src n) cls) range alone instant target
    have fold : groupNumbers.foldl (sceneGroup s) (p.taken (.applyScene src n) cls)
        = sceneGroup s (p.taken (.applyScene src n) cls) g :=
      foldl_single groupNumbers_nodup (mem_groupNumbers.mpr range) (fun a _ other => sceneGroup_left (others a other))
        fun a _ other => sceneGroup_left (others a other)
    have reads := applyScene_read (p := p.taken (.applyScene src n) cls) running hn stands
    rw [fold] at reads
    obtain ⟨answered, kept⟩ := exec_applyScene_ok hears manages reads moves.same (by decide) (by decide) w
    subst hx hl
    obtain ⟨aim, start, length, elapsed⟩ := restarted
    exact ⟨_, answered, aim, start, length, elapsed, moves.others, kept, idle, takes⟩

end Sys2Proof.Machine.Lamps


/-! SUPPORT. Lamp reports (R129, R130): the group of a report, what the re-offer of the waiting dials leaves of a group
without a charge (R138, R141), and the statement about LAMP_REPORT. -/

namespace Sys2Proof.Machine.Lamps

open Dials Bells Voices

/-! ## What the Budget's work leaves of a group without a charge -/

section Unlit

variable {p q r : Part} {g k : Nat} {l : List Nat} {acc : Part × Bool}

/-- From `p` to `q` the record of group g stands, and its entries in the charge list. -/
def Spared (g : Nat) (p q : Part) : Prop :=
  q.group g = p.group g
    ∧ q.budget.charges.filter (Charge.ofGroup g) = p.budget.charges.filter (Charge.ofGroup g)

theorem Spared.refl (g : Nat) (p : Part) : Spared g p p := ⟨rfl, rfl⟩

theorem Spared.trans (h : Spared g p q) (k : Spared g q r) : Spared g p r := ⟨k.1.trans h.1, k.2.trans h.2⟩

theorem Spared.charge (h : Spared g p q) : q.budget.groupCharge g = p.budget.groupCharge g := groupCharge_congr h.2

theorem Spared.of_eq (lamps : q.lamps = p.lamps) (charges : q.budget.charges = p.budget.charges) : Spared g p q :=
  ⟨group_congr lamps g, by rw [charges]⟩

theorem moves_reclaims (g n : Nat) (p : Part) : Moves g p { p with budget.reclaims := n } where
  others _ _ := rfl
  beat := rfl
  limits := ⟨rfl, rfl⟩
  waiting := rfl
  charges := rfl
  once once := once g
  same := by simp

theorem moves_lowerGroup (g level : Nat) (p : Part) : Moves g p (lowerGroup g level p) :=
  (((moves_putGroup ..).trans (moves_setGroupCharge ..)).trans (moves_reclaims ..)).trans (moves_offerLevel ..)

theorem Moves.spared (h : Moves k p q) (other : g ≠ k) : Spared g p q := ⟨h.others g other, h.charges_of other⟩

/-- R138: a group that holds no charge is not lowered. -/
theorem reclaim_spares (unlit : p.budget.groupCharge g = 0) (x : Nat) : Spared g p (reclaim x p) := by
  have walk (l : List Nat) (x : Nat) (p : Part) (out : g ∉ l) : Spared g p (reclaimWalk l x p) := by
    induction l generalizing x p with
    | nil => exact .refl g p
    | cons k l ih =>
      obtain ⟨other, out⟩ := not_or.mp (mt List.mem_cons.mpr out)
      unfold reclaimWalk
      dsimp only
      split_ifs
      · exact .refl g p
      · exact (moves_lowerGroup ..).spared other
      · exact ((moves_lowerGroup ..).spared other).trans (ih _ _ out)
  refine walk _ _ _ fun hg => ?_
  obtain ⟨_, _, lit⟩ := mem_reclaimOrder.mp hg
  omega

theorem addCharge_spares (d a : Nat) (p : Part) : Spared g p (addCharge (.dial d) a p) :=
  ⟨rfl, by simp [addCharge, Charge.ofGroup]⟩

theorem dialGranted_spares (d : Nat) (p : Part) : Spared g p (dialGranted d p) :=
  .of_eq ((by simp : p.sameBut (dialGranted d p) [.dialDriver, .locals]) .lamps (by decide))
    (congrArg FeedBudget.charges (dialGranted_budget d p))

/-- R137, R141: a dial's request leaves a group without a charge alone. -/
theorem reofferOne_spares (unlit : acc.1.budget.groupCharge g = 0) (d : Nat) : Spared g acc.1 (reofferOne acc d).1 := by
  obtain ⟨p, b⟩ := acc
  unfold reofferOne
  dsimp only
  split
  · next q lowered granted =>
    have given : Spared g p q := by
      unfold tryGrant at granted
      split at granted
      · cases granted
      · cases granted
        exact addCharge_spares ..
      · cases granted
        exact (reclaim_spares unlit _).trans (addCharge_spares ..)
    exact given.trans (dialGranted_spares (g := g) d
      (stopWaiting d { q with budget.dialGrants := bump q.budget.dialGrants }))
  · exact .refl g p

/-- R141: the re-offer of the waiting dials leaves a group without a charge alone. -/
theorem reoffer_spares (k : Nat) (unlit : p.budget.groupCharge g = 0) : Spared g p (reoffer k p) := by
  have round (l : List Nat) (acc : Part × Bool) (unlit : acc.1.budget.groupCharge g = 0) :
      Spared g acc.1 (l.foldl reofferOne acc).1 := by
    induction l generalizing acc with
    | nil => exact .refl g _
    | cons d l ih =>
      have first := reofferOne_spares unlit d
      exact first.trans (ih _ (first.charge.trans unlit))
  induction k generalizing p with
  | zero => exact .refl g p
  | succ k ih =>
    have first := round p.budget.waiting (p, false) unlit
    unfold reoffer
    dsimp only
    split
    · exact first.trans (ih (first.charge.trans unlit))
    · exact first

end Unlit

/-! ## The group of a report -/

section Reports

variable {p q r : Part} {src channel g : Nat} {st : LampStatus} {x : LampGroup}

theorem exec_lampReport (w : List Instr) (supply : p.retention.supply = true) : exec (.lampReport src channel st) ⟨p, w⟩
    = .next ⟨lampReportPart src channel st (takeCopy (.lampReport src channel st) p), w⟩ := by
  show act _ _ = _
  rw [act_eq, powered_on _ _ supply]

/-- R129: a report that no configured group matches. -/
theorem groupAt_none
    (h : ∀ g, 1 ≤ g → g ≤ 12 → ¬ ((p.group g).config.node = some src ∧ (p.group g).config.channel = channel)) :
    groupAt src channel p = none := by
  refine List.find?_eq_none.mpr fun g hg => ?_
  obtain ⟨h1, h12⟩ := mem_groupNumbers.mp hg
  simpa using h g h1 h12

/-- The search of a rising list finds the least number that matches. -/
theorem find?_of_rising {l : List Nat} {f : Nat → Bool} (rising : l.Pairwise (· < ·)) (mem : g ∈ l) (own : f g = true)
    (first : ∀ a ∈ l, a < g → f a = false) : l.find? f = some g := by
  induction l with
  | nil => cases mem
  | cons a l ih =>
    obtain ⟨below, rising⟩ := List.pairwise_cons.mp rising
    rcases List.mem_cons.mp mem with rfl | later
    · exact List.find?_cons_of_pos own
    · rw [List.find?_cons_of_neg (by simp [first a List.mem_cons_self (below g later)])]
      exact ih rising later fun b hb => first b (List.mem_cons_of_mem a hb)

/-- R129: the first group that matches. -/
theorem groupAt_some (range : 1 ≤ g ∧ g ≤ 12) (node : (p.group g).config.node = some src)
    (own : (p.group g).config.channel = channel)
    (first : ∀ a, 1 ≤ a → a < g → ¬ ((p.group a).config.node = some src ∧ (p.group a).config.channel = channel)) :
    groupAt src channel p = some g :=
  find?_of_rising (by decide) (mem_groupNumbers.mpr range) (by simp [node, own]) fun a ha low => by
    simpa using first a (mem_groupNumbers.mp ha).1 low

/-- R129: what a failure leaves of the group that it puts in FAULT, and of the fault record. -/
structure Failed (g : Nat) (st : LampStatus) (p q : Part) : Prop where
  record : ∃ a b c, q.group g = { p.group g with
    failure := some st, failures := bump (p.group g).failures, commanded := 0, clamp := none
    queued := a, deferred := b, deferredOffers := c }
  dark : q.budget.groupCharge g = 0
  offered : p.budget.waiting = [] → p.levelOffered q g 1
  mgmt : q.mgmt = { p.mgmt with tally := { p.mgmt.tally with lampFail := bump p.mgmt.tally.lampFail } }
  same : p.sameBut q [.dialDriver, .lamps, .budget, .locals, .up, .faults]

theorem raiseMinor_mgmt (kind : FaultKind) (detail : List Byte) (p : Part) :
    (raiseMinor kind detail p).mgmt = { p.mgmt with tally := p.mgmt.tally.raise kind } := by
  unfold raiseMinor noticeFault sendNotice offerNotice
  split <;> rfl

theorem mgmt_of_same {T : List Block} (h : p.sameBut q T) (faults : .faults ∉ T) (requests : .requests ∉ T)
    (mgmt : .mgmt ∉ T) : q.mgmt = p.mgmt := by
  obtain ⟨e1, e2, e3⟩ := h .faults faults
  obtain ⟨e4, e5, e6, e7, e8⟩ := h .requests requests
  obtain ⟨e9, e10, e11, e12⟩ := h .mgmt mgmt
  generalize p.mgmt = m at *
  generalize q.mgmt = n at *
  cases m
  cases n
  simp_all

theorem failGroup_failed (range : 1 ≤ g ∧ g ≤ 12) (st : LampStatus) (p : Part) : Failed g st p (failGroup g st p) := by
  generalize hy : ({ p.group g with
    failure := some st, failures := bump (p.group g).failures, commanded := 0, clamp := none } : LampGroup) = y
  have level : chargeOf y.config.rated y.commanded = 0 := by simp [← hy, chargeOf]
  obtain ⟨moves, ⟨a, b, c, record⟩, charge, offered⟩ := levelSet_levelled range y p
  rw [level] at charge
  generalize hs : (if 0 < p.budget.groupCharge g then afterRelease (levelSet g y p) else examine (levelSet g y p)) = s
  have fails : failGroup g st p = raiseMinor .lampFail [byte g, byte (lampStatusCode st)] s := by
    rw [← hs, levelSet, level, ← hy]
    rfl
  have spared : Spared g (levelSet g y p) s := by
    rw [← hs]
    split_ifs
    · exact (reoffer_spares 5 charge).trans (.of_eq rfl rfl)
    · exact .of_eq rfl rfl
  have after : p.sameBut s [.dialDriver, .lamps, .budget, .locals] := by
    have before : p.sameBut (levelSet g y p) [.dialDriver, .lamps, .budget, .locals] :=
      sameBut_mono moves.same (by simp)
    rw [← hs]
    split_ifs
    · exact same_afterRelease before (by simp) (by simp) (by simp) (by simp)
    · exact same_examine before (by simp)
  obtain ⟨_, told⟩ := raiseMinor_counts .lampFail [byte g, byte (lampStatusCode st)] s
  rw [fails]
  generalize hq : raiseMinor .lampFail [byte g, byte (lampStatusCode st)] s = q at told
  have group : q.group g = (levelSet g y p).group g := (group_congr (told .lamps (by decide)) g).trans spared.1
  refine ⟨⟨a, b, c, ?_⟩, ?_, fun alone => ?_, ?_,
    sameBut_trans (sameBut_mono after (by simp)) (sameBut_mono told (by simp))⟩
  · rw [group, record, ← hy]
  · rw [FeedBudget.groupCharge, (show q.budget = s.budget from told .budget (by decide)), ← FeedBudget.groupCharge,
      spared.charge, charge]
  · refine levelOffered_of_same (offered (by rw [← hy]; exact ⟨rfl, rfl, rfl, rfl, rfl⟩)) group ?_
    have quiet : s.line.localQ = (levelSet g y p).line.localQ := by
      rw [← hs]
      split_ifs
      · rw [afterRelease_alone (moves.waiting.trans alone)]
        rfl
      · rfl
    exact (told .locals (by decide)).trans quiet
  · rw [← hq, raiseMinor_mgmt, mgmt_of_same after (by decide) (by decide) (by decide)]
    rfl

end Reports

/-- Settles O48: a report that matches none is counted; one of the first group that matches is that of `groupReported`, and
a failure of a sound group that of `failGroup_failed`. -/
theorem lampReport : Obligations.LampReport := by
  unfold Obligations.LampReport
  intro p r w src channel st supply hr
  rw [exec_lampReport w supply, ← hr]
  refine ⟨fun none => ?_, fun g x h1 h12 hx node own first => ?_⟩
  · rw [lampReportPart, groupAt_none (p := r) (by rw [hr]; exact none), hr]
    rfl
  · have range : 1 ≤ g ∧ g ≤ 12 := ⟨h1, h12⟩
    have hx : x = r.group g := by rw [hx, hr]; rfl
    have found : groupAt src channel r = some g :=
      groupAt_some range (hx ▸ node) (hx ▸ own) (by rw [hr]; exact first)
    have answer : lampReportPart src channel st r = groupReported g st r := by rw [lampReportPart, found]
    rw [answer]
    subst hx
    refine ⟨?_, ?_, ?_, ?_⟩
    · rintro rfl sound
      simp [groupReported, sound]
    · rintro rfl broken
      simp [groupReported, Option.isSome_iff_ne_none.mpr broken]
    · intro failed broken
      cases st with
      | ok => exact absurd rfl failed
      | lampFail => simp [groupReported, Option.isSome_iff_ne_none.mpr broken]
      | driverFail => simp [groupReported, Option.isSome_iff_ne_none.mpr broken]
    · intro failed sound
      have fails : groupReported g st r = failGroup g st r := by
        cases st with
        | ok => exact absurd rfl failed
        | lampFail => simp [groupReported, sound]
        | driverFail => simp [groupReported, sound]
      rw [fails]
      obtain ⟨⟨a, b, c, record⟩, dark, offered, mgmt, same⟩ := failGroup_failed range st r
      have waiting : r.budget.waiting = p.budget.waiting := by rw [hr]; rfl
      refine ⟨_, rfl, by rw [record], by rw [record], by rw [record], by rw [record], by rw [record]; rfl, by rw [record],
        by rw [record], by rw [record], dark, fun alone => ?_, ?_, ?_, ?_, same⟩
      · refine levelOffered_before (offered (waiting.trans alone)) ?_ ?_ ?_
        · rw [hr]; exact ⟨rfl, rfl, rfl, rfl, rfl⟩
        · rw [hr]; rfl
        · rw [hr]; rfl
      all_goals rw [mgmt, hr]; rfl

end Sys2Proof.Machine.Lamps


/-! SUPPORT. Writes of the lamp tables and of the limit table (R118, R121, R133): the bytes of a lamp group, of a scene and
of a limit table and what is read from them, what each write does, and the statement about them. -/

namespace Sys2Proof.Machine.Lamps

open Dials Bells Voices Store

/-! ## The bytes of a lamp group and of a limit table -/

section Bytes

variable {record : List Byte}

theorem lampConfigBytes_eq (c : LampConfig) : lampConfigBytes c =
    [(c.node.map byte).getD 0xFF#8, byte c.channel, byte (c.rated / 256), byte c.rated, byte (c.ceiling / 256),
      byte c.ceiling, byte c.priority] := by
  simp [lampConfigBytes, be_one, be_two, beOpt_one]

/-- TABLE 7-1: the fields that the seven bytes of a group spell. -/
theorem parseLampConfig_seven (a b d e f g h : Byte) (c : LampConfig) :
    parseLampConfig [a, b, d, e, f, g, h] = some c ↔
      c = { node := natOpt [a], channel := b.toNat, rated := d.toNat * 256 + e.toNat, ceiling := f.toNat * 256 + g.toNat
            priority := h.toNat } ∧ c.Legal := by
  unfold parseLampConfig
  simp only [numAt, optAt, natOf, List.drop, List.take, List.foldl, Nat.zero_mul, Nat.zero_add, List.length,
    within, optWithin_iff, Bool.and_eq_true, decide_eq_true_eq, true_and, Option.ite_none_right_eq_some,
    Option.some.injEq]
  constructor
  · rintro ⟨⟨node, ⟨c1, c16⟩, ⟨r1, r1000⟩, ceiling, priority⟩, rfl⟩
    exact ⟨rfl, node, c1, c16, r1, r1000, ceiling, priority⟩
  · rintro ⟨rfl, node, c1, c16, r1, r1000, ceiling, priority⟩
    exact ⟨⟨node, ⟨c1, c16⟩, ⟨r1, r1000⟩, ceiling, priority⟩, rfl⟩

/-- TABLE 7-1: a group's configuration is read exactly from the bytes of one in range. -/
theorem parseLampConfig_iff (record : List Byte) (c : LampConfig) :
    parseLampConfig record = some c ↔ record = lampConfigBytes c ∧ c.Legal := by
  constructor
  · intro h
    have size : record.length = 7 := by
      unfold parseLampConfig at h
      simp only [Option.ite_none_right_eq_some] at h
      exact h.1.1
    match record, size with
    | [_, _, _, _, _, _, _], _ =>
      obtain ⟨rfl, legal⟩ := (parseLampConfig_seven ..).mp h
      refine ⟨?_, legal⟩
      rw [lampConfigBytes_eq]
      simp only [byte_toNat, byte_natOpt, byte_two]
  · rintro ⟨rfl, legal⟩
    rw [lampConfigBytes_eq, parseLampConfig_seven]
    refine ⟨?_, legal⟩
    obtain ⟨node, _, _, _, _, _, _⟩ := legal
    rw [natOpt_byte fun v hv => by have := (node v hv).2; omega, toNat_two (by omega), toNat_two (by omega),
      toNat_byte (by omega), toNat_byte (by omega)]

theorem limitBytes_eq (t : LimitTable) : limitBytes t =
    [byte (t.normal / 256), byte t.normal, byte (t.reduced / 256), byte t.reduced, byte (t.low / 256), byte t.low,
      byte (t.restoreDelay / 256), byte t.restoreDelay, (t.monitor.map byte).getD 0xFF#8] := by
  simp [limitBytes, be_two, beOpt_one]

/-- TABLE 8-1: the fields that the nine bytes of a limit table spell. -/
theorem parseLimits_nine (a b d e f g h i j : Byte) (t : LimitTable) :
    parseLimits [a, b, d, e, f, g, h, i, j] = some t ↔
      t = { normal := a.toNat * 256 + b.toNat, reduced := d.toNat * 256 + e.toNat, low := f.toNat * 256 + g.toNat
            restoreDelay := h.toNat * 256 + i.toNat, monitor := natOpt [j] } ∧ t.Legal := by
  unfold parseLimits
  simp only [numAt, optAt, natOf, List.drop, List.take, List.foldl, Nat.zero_mul, Nat.zero_add, List.length,
    within, optWithin_iff, Bool.and_eq_true, decide_eq_true_eq, true_and, Option.ite_none_right_eq_some,
    Option.some.injEq]
  constructor
  · rintro ⟨⟨normal, reduced, low, ⟨d5, d300⟩, monitor⟩, rfl⟩
    exact ⟨rfl, normal, reduced, low, d5, d300, monitor⟩
  · rintro ⟨rfl, normal, reduced, low, d5, d300, monitor⟩
    exact ⟨⟨normal, reduced, low, ⟨d5, d300⟩, monitor⟩, rfl⟩

/-- TABLE 8-1: a limit table is read exactly from the bytes of one in range. -/
theorem parseLimits_iff (record : List Byte) (t : LimitTable) :
    parseLimits record = some t ↔ record = limitBytes t ∧ t.Legal := by
  constructor
  · intro h
    have size : record.length = 9 := by
      unfold parseLimits at h
      simp only [Option.ite_none_right_eq_some] at h
      exact h.1.1
    match record, size with
    | [_, _, _, _, _, _, _, _, _], _ =>
      obtain ⟨rfl, legal⟩ := (parseLimits_nine ..).mp h
      refine ⟨?_, legal⟩
      rw [limitBytes_eq]
      simp only [byte_natOpt, byte_two]
  · rintro ⟨rfl, legal⟩
    rw [limitBytes_eq, parseLimits_nine]
    refine ⟨?_, legal⟩
    obtain ⟨_, _, _, _, _, monitor⟩ := legal
    rw [natOpt_byte fun v hv => by have := (monitor v hv).2; omega, toNat_two (by omega), toNat_two (by omega),
      toNat_two (by omega), toNat_two (by omega)]

end Bytes

/-! ## Scenes (R121) -/

section Scenes

variable {p : Part} {n : Nat} {record : List Byte} {s : Scene}

theorem length_beOpt_two (x : Option Nat) : (beOpt 2 x).length = 2 := by cases x <;> rfl

theorem natOf_be_two {v : Nat} (h : v < 65536) : natOf (be 2 v) = v := by
  simpa [be_two, natOf] using toNat_two h

/-- TABLE 7-3: a target reads back from its two bytes, LEAVE from the bytes of absence. -/
theorem natOpt_beOpt_two {x : Option Nat} (small : ∀ v, x = some v → v ≤ 1000) : natOpt (beOpt 2 x) = x := by
  cases x with
  | none => rfl
  | some v =>
    have v1000 := small v rfl
    have spelt : natOf (be 2 v) = v := natOf_be_two (by omega)
    have present : be 2 v ≠ absentBytes (be 2 v).length := fun absent => by
      have ones : natOf (absentBytes (be 2 v).length) = 65535 := rfl
      rw [← absent] at ones
      omega
    rw [beOpt, natOpt, if_neg present, spelt]

theorem length_targets (l : List (Option Nat)) : (l.map (beOpt 2)).flatten.length = 2 * l.length := by
  induction l with
  | nil => rfl
  | cons x l ih => simp [length_beOpt_two, ih]; omega

/-- TABLE 7-3: the targets lie one behind the other, two bytes each. -/
theorem optAt_targets {l : List (Option Nat)} (small : ∀ x ∈ l, ∀ v, x = some v → v ≤ 1000) (rest : List Byte) {i : Nat}
    (hi : i < l.length) : optAt ((l.map (beOpt 2)).flatten ++ rest) (2 * i) 2 = l[i] := by
  induction l generalizing i with
  | nil => cases hi
  | cons x l ih =>
    have front : ((x :: l).map (beOpt 2)).flatten ++ rest = beOpt 2 x ++ ((l.map (beOpt 2)).flatten ++ rest) := by simp
    rw [front, optAt]
    cases i with
    | zero =>
      rw [Nat.mul_zero, List.drop_zero, List.take_left' (length_beOpt_two x)]
      exact natOpt_beOpt_two (small x List.mem_cons_self)
    | succ i =>
      rw [Nat.mul_succ, Nat.add_comm, ← List.drop_drop, List.drop_left' (length_beOpt_two x)]
      exact ih (fun y hy => small y (List.mem_cons_of_mem x hy)) (Nat.lt_of_succ_lt_succ hi)

theorem length_sceneTargets (s : Scene) : (s.targets.toList.map (beOpt 2)).flatten.length = 24 := by
  rw [length_targets, Vector.length_toList]

theorem length_sceneBytes (s : Scene) : (sceneBytes s).length = 26 := by
  rw [sceneBytes, List.length_append, length_sceneTargets]
  rfl

theorem recordSize_scenes (p : Part) : recordSize .scenes p = 26 := length_sceneBytes _

/-- TABLE 7-3: a scene in range reads back from its bytes. -/
theorem parseScene_bytes (legal : s.Legal) : parseScene (sceneBytes s) = some s := by
  obtain ⟨small, fade600⟩ := legal
  have targets : (Vector.ofFn fun i : Fin 12 => optAt (sceneBytes s) (2 * i.val) 2) = s.targets := by
    ext i hi
    rw [Vector.getElem_ofFn, sceneBytes, optAt_targets small _ (by simpa using hi), Vector.getElem_toList]
  have fade : numAt (sceneBytes s) 24 2 = s.fadeTime := by
    rw [numAt, sceneBytes, List.drop_left' (length_sceneTargets s),
      List.take_of_length_le (show (be 2 s.fadeTime).length ≤ 2 from Nat.le_refl 2),
      natOf_be_two (by omega)]
  unfold parseScene
  simp only [targets, fade, length_sceneBytes]
  exact if_pos ⟨trivial, List.all_eq_true.mpr fun x hx => optWithin_iff.mpr fun v hv => ⟨Nat.zero_le v, small x hx v hv⟩,
    fade600⟩

/-- R121: what is read as a scene is in range. -/
theorem parseScene_legal (h : parseScene record = some s) : s.Legal := by
  unfold parseScene at h
  simp only [Option.ite_none_right_eq_some, Option.some.injEq, List.all_eq_true] at h
  obtain ⟨⟨_, small, fade600⟩, rfl⟩ := h
  exact ⟨fun x hx v hv => (optWithin_iff.mp (small x hx) v hv).2, fade600⟩

theorem writeScene_badIndex (h : 16 ≤ n) : writeScene n record p = (p, .badIndex) := if_pos h

theorem writeScene_badValue (hn : n < 16) (h : parseScene record = none) : writeScene n record p = (p, .badValue) := by
  unfold writeScene
  rw [if_neg (by omega), h]

theorem writeScene_ok (hn : n < 16) (h : parseScene record = some s) :
    writeScene n record p = ({ p with lamps.scenes := bankPut p.lamps.scenes n (stored sceneBytes s) }, .ok) := by
  unfold writeScene
  rw [if_neg (by omega), h]

end Scenes

/-! ## Lamp groups (R118) -/

section Groups

variable {p q r : Part} {g m : Nat} {record : List Byte} {c : LampConfig}

theorem recordSize_groups (p : Part) : recordSize .groups p = 7 := by
  simp [recordSize, writtenBytes, lampConfigBytes_eq]

/-- R118: another group has the dimmer channel that a configuration names. -/
def Taken (g : Nat) (c : LampConfig) (p : Part) : Prop :=
  ∃ a m, 1 ≤ a ∧ a ≤ 12 ∧ a ≠ g ∧ c.node = some m ∧ (p.group a).config.node = some m
    ∧ (p.group a).config.channel = c.channel

theorem taken_iff : Taken g c p ↔ c.node.isSome ∧ groupNumbers.any (fun h =>
    h ≠ g && (p.group h).config.node = c.node && (p.group h).config.channel = c.channel) := by
  simp only [Taken, Option.isSome_iff_exists, List.any_eq_true, mem_groupNumbers, Bool.and_eq_true, decide_eq_true_eq]
  constructor
  · rintro ⟨a, m, h1, h12, other, named, node, own⟩
    exact ⟨⟨m, named⟩, a, ⟨h1, h12⟩, ⟨other, node.trans named.symm⟩, own⟩
  · rintro ⟨⟨m, named⟩, a, ⟨h1, h12⟩, ⟨other, node⟩, own⟩
    exact ⟨a, m, h1, h12, other, named, node.trans named, own⟩

theorem writeGroup_badIndex (h : g = 0 ∨ 12 < g) : writeGroup g record p = (p, .badIndex) :=
  if_pos (by simp [within]; omega)

theorem writeGroup_badValue (range : 1 ≤ g ∧ g ≤ 12) (h : parseLampConfig record = none) :
    writeGroup g record p = (p, .badValue) := by
  unfold writeGroup
  rw [if_neg (by simpa [within] using range), h]

theorem writeGroup_duplicate (range : 1 ≤ g ∧ g ≤ 12) (h : parseLampConfig record = some c) (taken : Taken g c p) :
    writeGroup g record p = (p, .duplicate) := by
  unfold writeGroup
  rw [if_neg (by simpa [within] using range), h]
  exact if_pos (taken_iff.mp taken)

theorem writeGroup_ok (range : 1 ≤ g ∧ g ≤ 12) (h : parseLampConfig record = some c) (clear : ¬ Taken g c p) :
    writeGroup g record p = (groupWritten g c p, .ok) := by
  unfold writeGroup
  rw [if_neg (by simpa [within] using range), h]
  exact if_neg (mt taken_iff.mpr clear)

/-- R118, step 1: from `p` to `q` the group's old channel has been taken dark and its charge released. -/
structure Darkened (g : Nat) (p q : Part) : Prop where
  moves : Moves g p q
  record : ∃ a b k, q.group g = { p.group g with commanded := 0, queued := a, deferred := b, deferredOffers := k }
  charges : q.budget.charges = p.budget.charges.filter (fun c => !c.ofGroup g)
  offered : 0 < (p.group g).commanded → p.levelOffered q g 1

theorem Darkened.retimed (h : Darkened g p q) (t : Option RestoreTimer) : Darkened g p (retimed t q) :=
  ⟨h.moves.trans (moves_retimed g t q), h.record, h.charges, fun shines => levelOffered_of_same (h.offered shines) rfl rfl⟩

/-- R117: a dark group has no entry in the charge list. -/
theorem uncharged (sound : p.BudgetSound) (range : 1 ≤ g ∧ g ≤ 12) (dark : (p.group g).commanded = 0) :
    p.budget.charges.filter (fun c => !c.ofGroup g) = p.budget.charges := by
  have unlit : p.budget.groupCharge g = 0 := by
    rw [sound.groups g range.1 range.2, dark]
    omega
  have none : p.budget.charges.find? (Charge.ofGroup g) = none := by
    cases found : p.budget.charges.find? (Charge.ofGroup g) with
    | none => rfl
    | some c =>
      have own : c.ofGroup g = true := List.find?_some found
      have lit := sound.lit c (List.mem_of_find?_eq_some found) g (of_decide_eq_true own)
      rw [FeedBudget.groupCharge, found] at unlit
      exact absurd unlit lit.ne'
  exact List.filter_eq_self.mpr fun c hc => by simpa using List.find?_eq_none.mp none c hc

/-- R118, step 1, for a group that shines: its level 0 is offered and its charge goes. -/
theorem offered_darkened (range : 1 ≤ g ∧ g ≤ 12) (p : Part) :
    Darkened g p (setGroupCharge g 0 (offerLevel g (p.putGroup g { p.group g with commanded := 0 }))) := by
  have put : (p.putGroup g { p.group g with commanded := 0 }).group g = { p.group g with commanded := 0 } :=
    group_putGroup_self _ _ _ range
  generalize hr : p.putGroup g { p.group g with commanded := 0 } = r at put ⊢
  have moves : Moves g p r := hr ▸ moves_putGroup ..
  have same : p.sameBut r [.lamps] := by rw [← hr]; simp
  have after : r.sameBut (setGroupCharge g 0 (offerLevel g r)) [.lamps, .budget, .locals] := by simp
  have lamps := setGroupCharge_lamps g 0 (offerLevel g r)
  have offered : p.levelOffered (offerLevel g r) g 1 :=
    offerLevel_offers range (by rw [put]; exact ⟨rfl, rfl, rfl, rfl, rfl⟩) (same .locals (by decide))
      (same .requests (by decide)).2.2.2.1
  refine ⟨(moves.trans (moves_offerLevel ..)).trans (moves_setGroupCharge ..), ?_, ?_, fun _ => ?_⟩
  · obtain ⟨a, b, k, record⟩ := offerLevel_record range r
    rw [put] at record
    exact ⟨a, b, k, (group_congr lamps g).trans record⟩
  · rw [setGroupCharge, if_pos rfl, offerLevel_budget, ← hr]
    rfl
  · exact levelOffered_of_same offered (group_congr lamps g) rfl

theorem darkenOld_darkened (sound : p.BudgetSound) (range : 1 ≤ g ∧ g ≤ 12) (alone : p.budget.waiting = []) :
    Darkened g p (darkenOld g p) := by
  have dims := offered_darkened range p
  unfold darkenOld
  dsimp only
  split_ifs with lit held
  · rw [afterRelease_alone (dims.moves.waiting.trans alone)]
    exact dims.retimed _
  · exact dims
  · have dark : (p.group g).commanded = 0 := by
      by_contra shines
      refine lit ⟨?_, Nat.pos_of_ne_zero shines⟩
      rw [LampGroup.configured, Option.isSome_iff_ne_none]
      exact fun none => shines (sound.dark g range.1 range.2 none).1
    refine ⟨.refl g p, ⟨(p.group g).queued, (p.group g).deferred, (p.group g).deferredOffers, ?_⟩,
      (uncharged sound range dark).symm, fun shines => absurd dark shines.ne'⟩
    rw [← dark]

/-- R118: what an accepted write makes of the group and of the rest of the part. -/
structure Written (g : Nat) (c : LampConfig) (p q : Part) : Prop where
  others : ∀ a, a ≠ g → q.group a = p.group a
  record : ∃ k, q.group g = ({ p.group g with deferredOffers := k } : LampGroup).rewritten c
  charges : q.budget.charges = p.budget.charges.filter (fun k => !k.ofGroup g)
  dark : ∀ m, (p.group g).config.node = some m → 0 < (p.group g).commanded →
    (p.group g).sent = some (p.group g).commanded → (p.group g).queued = none → (p.group g).inFlight = none →
    p.line.localQ.length < 24 →
    LocalItem.lampLevel none 0 { dest := m, src := p.mgmt.address, kind := 24
                                 payload := [byte (p.group g).config.channel, 0#8, 0#8] } ∈ q.line.localQ
  same : p.sameBut q [.lamps, .budget, .locals, .flights]

/-- R118: the LAMP_LEVEL of 0 to the old channel waits in LOCAL, and is no group's. -/
theorem offered_detached (offered : p.levelOffered q g 1) (dark : (q.group g).commanded = 0)
    (node : (p.group g).config.node = some m) (shines : 0 < (p.group g).commanded)
    (sent : (p.group g).sent = some (p.group g).commanded) (queued : (p.group g).queued = none)
    (inFlight : (p.group g).inFlight = none) (room : p.line.localQ.length < 24) :
    LocalItem.lampLevel none 0 { dest := m, src := p.mgmt.address, kind := 24
                                 payload := [byte (p.group g).config.channel, 0#8, 0#8] }
      ∈ q.line.localQ.map (LocalItem.detach g) := by
  obtain ⟨_, _, _, differs⟩ := offered m _ _ _ _ rfl rfl node rfl rfl
  rw [dark, queued, inFlight, sent] at differs
  obtain ⟨replaces, enters, _⟩ := differs (by simpa using shines.ne')
  refine List.mem_map.mpr ⟨.lampLevel (some g) 0 { dest := m, src := p.mgmt.address, kind := 24
                                                   payload := byte (p.group g).config.channel :: be 2 0 }, ?_, ?_⟩
  · by_cases waits : waitsOn p.line.localQ m (p.group g).config.channel
    · obtain ⟨i, hi, own⟩ := waits
      rw [(replaces ⟨i, hi, own⟩).1]
      exact List.mem_map.mpr ⟨i, hi, if_pos own⟩
    · have clear : ∀ i ∈ p.line.localQ, i.channel ≠ some (m, some (byte (p.group g).config.channel)) :=
        fun i hi own => waits ⟨i, hi, own⟩
      rw [(enters clear room).1]
      exact List.mem_append_right _ List.mem_cons_self
  · exact if_pos rfl

/-- R118, steps 2 to 4: the live part is fresh, and so is the fade of a configured group. -/
theorem rewritten_eq (x : LampGroup) (c : LampConfig) : ∃ start elapsed,
    x.rewritten c = { x with
      config := c, commanded := 0, clamp := none, failure := none, queued := none, inFlight := none, sent := none
      deferred := false, fadeStart := start, elapsed := elapsed }
    ∧ (c.node ≠ none → start = 0 ∧ elapsed = 0) := by
  unfold LampGroup.rewritten
  dsimp only
  split_ifs with driven
  · exact ⟨0, 0, rfl, fun _ => ⟨rfl, rfl⟩⟩
  · exact ⟨x.fadeStart, x.elapsed, rfl, fun node => absurd (Option.isSome_iff_ne_none.mpr node) driven⟩

theorem groupWritten_written (sound : p.BudgetSound) (range : 1 ≤ g ∧ g ≤ 12) (alone : p.budget.waiting = [])
    (c : LampConfig) : Written g c p (groupWritten g c p) := by
  obtain ⟨moves, ⟨a, b, k, record⟩, charges, offered⟩ := darkenOld_darkened sound range alone
  unfold groupWritten
  dsimp only
  rw [examine_eq]
  generalize darkenOld g p = r at *
  refine ⟨fun a other => ?_, ⟨k, ?_⟩, charges, fun m node shines sent queued inFlight room => ?_, ?_⟩
  · exact (group_putGroup_ne _ _ _ _ other).trans (moves.others a other)
  · rw [retimed_group]
    exact (group_putGroup_self _ _ _ range).trans (by rw [record]; rfl)
  · have waits := offered_detached (offered shines) (by rw [record]) node shines sent queued inFlight room
    exact waits
  · refine sameBut_trans (sameBut_mono moves.same (by simp)) ?_
    simp [retimed]

end Groups

/-! ## The limit table (R133) -/

section Limits

variable {p q : Part} {n d x : Nat} {g : Nat} {record : List Byte} {t : LimitTable}

theorem recordSize_limits (p : Part) : recordSize .limits p = 9 := by
  simp [recordSize, writtenBytes, limitBytes_eq]

/-- The part with another limit table. -/
def limited (t : LimitTable) (p : Part) : Part := { p with budget.limits := t }

theorem limited_sound (sound : p.BudgetSound) (t : LimitTable) : (limited t p).BudgetSound :=
  ⟨sound.room, sound.once, sound.groups, sound.dark, sound.known, sound.lit, sound.priorities, sound.waiting, sound.dials,
    sound.stopped⟩

theorem taken_sound (sound : p.BudgetSound) (i : Instr) (cls : SourceClass) : (p.taken i cls).BudgetSound :=
  ⟨sound.room, sound.once, sound.groups, sound.dark, sound.known, sound.lit, sound.priorities, sound.waiting, sound.dials,
    sound.stopped⟩

theorem same_limited (p : Part) (t : LimitTable) : p.sameBut (limited t p) [.budget] := by simp [limited]

theorem same_retimed {T : List Block} (h : p.sameBut q T) (budget : .budget ∈ T) (timer : Option RestoreTimer) :
    p.sameBut (retimed timer q) T :=
  sameBut_trans h (sameBut_mono (show q.sameBut (retimed timer q) [.budget] by simp [retimed]) (by simpa using budget))

theorem writeLimits_badIndex (h : n ≠ 0) : writeLimits n record p = (p, .badIndex) := if_pos h

theorem writeLimits_badValue (h : parseLimits record = none) : writeLimits 0 record p = (p, .badValue) := by
  unfold writeLimits
  rw [if_neg (by simp), h]

/-- R133: a limit that the lamps cannot bring the load within is refused. -/
theorem writeLimits_inUse (h : parseLimits record = some t) (above : (limited t p).budget.limit < p.budget.committed)
    (steady : (limited t p).budget.limit < p.budget.committed - p.budget.lampCharges) :
    writeLimits 0 record p = (p, .inUse) := by
  unfold writeLimits
  rw [if_neg (by simp), h]
  exact if_pos ⟨above, steady⟩

theorem writeLimits_ok (h : parseLimits record = some t)
    (fits : p.budget.committed - p.budget.lampCharges ≤ (limited t p).budget.limit) :
    writeLimits 0 record p = (limitsWritten t p, .ok) := by
  unfold writeLimits
  rw [if_neg (by simp), h]
  exact if_neg fun refused => absurd fits (Nat.not_le.mpr refused.2)

theorem reclaim_zero (p : Part) : reclaim 0 p = p := by
  unfold reclaim
  cases reclaimOrder p <;> simp [reclaimWalk]

theorem reclaim_limits (x : Nat) (p : Part) : (reclaim x p).budget.limits = p.budget.limits := by
  have walk (l : List Nat) (x : Nat) (p : Part) : (reclaimWalk l x p).budget.limits = p.budget.limits := by
    induction l generalizing x p with
    | nil => rfl
    | cons g l ih =>
      unfold reclaimWalk
      dsimp only
      split_ifs
      · rfl
      · exact (moves_lowerGroup ..).limits.1
      · exact (ih _ _).trans (moves_lowerGroup ..).limits.1
  exact walk _ _ _

/-- R138: a load within the limit is left as it is. -/
theorem reclaimExcess_idle (fits : p.budget.committed ≤ p.budget.limit) : reclaimExcess p = p := by
  simp [reclaimExcess, Nat.sub_eq_zero_of_le fits, reclaim_zero]

/-- R138, R141: with no dial waiting the reclaim is followed by the examination alone. -/
theorem reclaimExcess_alone (alone : p.budget.waiting = []) :
    ∃ timer, reclaimExcess p = retimed timer (reclaim (p.budget.committed - p.budget.limit) p) := by
  unfold reclaimExcess
  dsimp only
  split_ifs
  · rw [afterRelease_alone ((reclaim_dials _ p).2.1.trans alone)]
    exact ⟨_, rfl⟩
  · exact ⟨_, rfl⟩

/-- R133: with the restore delay kept and no dial waiting, a write of the limits reclaims the excess. -/
theorem limitsWritten_alone (alone : p.budget.waiting = []) (kept : t.restoreDelay = p.budget.limits.restoreDelay) :
    ∃ timer, limitsWritten t p
      = retimed timer (reclaim (p.budget.committed - (limited t p).budget.limit) (limited t p)) := by
  obtain ⟨timer, excess⟩ := reclaimExcess_alone (p := limited t p) alone
  have waiting : (reclaimExcess (limited t p)).budget.waiting = [] := by
    rw [excess]
    exact (reclaim_dials _ _).2.1.trans alone
  have written : limitsWritten t p = examine (reclaimExcess (limited t p)) := by
    simp only [limitsWritten, kept]
    rw [if_neg (by simp)]
    split_ifs
    · exact congrArg examine (reoffer_alone 5 waiting)
    · rfl
  rw [written, excess]
  exact ⟨_, rfl⟩

/-- R137, R141: the part with the one waiting dial's charge entered. -/
def charged (d : Nat) (p : Part) : Part :=
  { addCharge (.dial d) (p.dial d).config.driveCharge p with
    budget.waiting := [], budget.dialGrants := bump p.budget.dialGrants }

/-- R133: with the restore delay kept, no dial waiting and the load within the new limits, their write changes the limits
and the timer. -/
theorem limitsWritten_within (alone : p.budget.waiting = []) (kept : t.restoreDelay = p.budget.limits.restoreDelay)
    (fits : p.budget.committed ≤ (limited t p).budget.limit) :
    ∃ timer, limitsWritten t p = retimed timer (limited t p) := by
  obtain ⟨timer, written⟩ := limitsWritten_alone alone kept
  rw [Nat.sub_eq_zero_of_le fits, reclaim_zero] at written
  exact ⟨timer, written⟩

/-- R133, R138: with the restore delay kept and no dial waiting, an excess that the lamps can give up is reclaimed. -/
theorem limitsWritten_reclaims (sound : p.BudgetSound) (alone : p.budget.waiting = [])
    (kept : t.restoreDelay = p.budget.limits.restoreDelay)
    (gives : p.budget.committed - p.budget.lampCharges ≤ (limited t p).budget.limit) :
    (limitsWritten t p).budget.limits = t ∧ (limitsWritten t p).budget.committed ≤ (limited t p).budget.limit
      ∧ (∀ k ∈ p.budget.charges, k.isLamp = false → k ∈ (limitsWritten t p).budget.charges)
      ∧ (∀ g, ((limitsWritten t p).group g).commanded ≤ (p.group g).commanded)
      ∧ p.sameBut (limitsWritten t p) [.lamps, .budget, .locals] := by
  have sound := limited_sound sound t
  obtain ⟨timer, written⟩ := limitsWritten_alone alone kept
  rw [written]
  generalize hx : p.budget.committed - (limited t p).budget.limit = x
  have releases : (reclaim x (limited t p)).budget.committed + x ≤ p.budget.committed :=
    reclaim_releases sound (show x ≤ p.budget.lampCharges by omega)
  have load : (reclaim x (limited t p)).budget.committed ≤ (limited t p).budget.limit := by omega
  refine ⟨reclaim_limits x _, load, fun k hk free => reclaim_mem sound x hk free, reclaim_levels sound x, ?_⟩
  exact same_retimed (same_reclaim (sameBut_mono (same_limited p t) (by decide)) (by decide) (by decide) (by decide))
    (by decide) timer

/-- R141: the one dial that waits is granted. -/
theorem reoffer_granted (alone : p.budget.waiting = [d]) (grants : p.budget.decide (p.dial d).config.driveCharge = .grant)
    (k : Nat) : reoffer (k + 1) p = dialGranted d (charged d p) := by
  simp [reoffer, alone, reofferOne, tryGrant, grants, charged, stopWaiting, addCharge]

/-- R133, R141: with the restore delay kept, a raised limit that leaves the load within it lets a waiting dial run. -/
theorem limitsWritten_grants (alone : p.budget.waiting = [d]) (kept : t.restoreDelay = p.budget.limits.restoreDelay)
    (raised : p.budget.limit < (limited t p).budget.limit) (room : p.budget.charges.length < 80)
    (fits : p.budget.committed + (p.dial d).config.driveCharge ≤ (limited t p).budget.limit) :
    limitsWritten t p = examine (dialGranted d (charged d (limited t p))) := by
  have idle : reclaimExcess { p with budget.limits := t } = limited t p :=
    reclaimExcess_idle (p := limited t p) (le_trans (Nat.le_add_right _ _) fits)
  have grants : (limited t p).budget.decide ((limited t p).dial d).config.driveCharge = .grant := decide_grant room fits
  simp only [limitsWritten, kept, idle]
  rw [if_neg (by simp), if_pos raised, reoffer_granted (p := limited t p) alone grants]

/-- R32, R36: the dial runs, or goes on searching, with its charge. -/
theorem dialGranted_charged (range : 1 ≤ d ∧ d ≤ 4) (p : Part) :
    (dialGranted d (charged d p)).budget.waiting = [] ∧ (dialGranted d (charged d p)).budget.dialHolds d = true
      ∧ ((dialGranted d (charged d p)).dial d).state = (p.dial d).state.onGrant
      ∧ p.sameBut (dialGranted d (charged d p)) [.dialDriver, .budget, .locals] := by
  obtain ⟨⟨busy, idle⟩, budget, _⟩ := dialGranted_own (q := charged d p) range
  refine ⟨by rw [budget]; rfl, ?_, ?_, ?_⟩
  · rw [budget]
    simp [FeedBudget.dialHolds, charged, addCharge]
  · cases outstanding : (p.dial d).outstanding with
    | true => exact congrArg Dial.state (busy outstanding)
    | false =>
      obtain ⟨_, record, _⟩ | ⟨_, record⟩ := idle outstanding
      · exact congrArg Dial.state record
      · exact congrArg Dial.state record
  · exact same_dialGranted (by simp [charged, addCharge]) (by decide) (by decide)

/-- R142: the part in which a group has been restored that asks for no more. -/
def freed (g : Nat) (p : Part) : Part :=
  ({ p with budget.restorations := bump p.budget.restorations } : Part).putGroup g { p.group g with clamp := none }

theorem same_freed (g : Nat) (p : Part) : p.sameBut (freed g p) [.lamps, .budget] := by simp [freed]

/-- R142: the timer's group keeps its level and loses its clamp where its fade asks for no more. -/
theorem restoreGroup_frees (clamped : (p.group g).clamp ≠ none) (reached : (p.group g).fadeLevel ≤ (p.group g).commanded) :
    restoreGroup g p = p.putGroup g { p.group g with clamp := none } := by
  unfold restoreGroup
  dsimp only
  rw [if_neg (by simpa using clamped), if_neg fun rises => absurd rises.1 (Nat.not_lt.mpr reached)]

/-- R133: a timer that the new delay has run out expires. -/
theorem limitsWritten_expires {r : RestoreTimer} (alone : p.budget.waiting = [])
    (other : t.restoreDelay ≠ p.budget.limits.restoreDelay) (fits : p.budget.committed ≤ (limited t p).budget.limit)
    (timer : p.budget.restore = some r) (due : r.start + t.restoreDelay * 1024 ≤ p.osc)
    (clamped : (p.group r.group).clamp ≠ none) (reached : (p.group r.group).fadeLevel ≤ (p.group r.group).commanded) :
    ∃ after, limitsWritten t p = retimed after (freed r.group (limited t p)) := by
  have idle : reclaimExcess { p with budget.limits := t } = limited t p := reclaimExcess_idle (p := limited t p) fits
  have still : (if p.budget.limit < (limited t p).budget.limit then reoffer 5 (limited t p) else limited t p)
      = limited t p := by
    rw [reoffer_alone 5 (p := limited t p) alone, ite_self]
  have runOut : (limited t p).restoreDue = true := by
    simpa [Part.restoreDue, limited, timer, secTicks] using due
  simp only [limitsWritten, idle, still]
  rw [if_pos ⟨other, runOut⟩]
  have expires : restoreExpires (limited t p) = examine (restoreGroup r.group { limited t p with
      budget.restore := none, budget.restorations := bump p.budget.restorations }) := by
    simp [restoreExpires, limited, timer]
  rw [expires, restoreGroup_frees (p := { limited t p with
      budget.restore := none, budget.restorations := bump p.budget.restorations }) clamped reached]
  exact ⟨_, rfl⟩

end Limits

/-! ## Writes from a SERVICE source -/

section Heard

variable {p s : Part} {src n table : Nat} {least : SourceClass} {record : List Byte} {t : Table} {c : LampConfig}
  {l : LimitTable} {T : List Block}

/-- R172, R175: a write that its block has done leaves what the block made of the part, which touched no request and
nothing in UP. -/
theorem writes_made (heard : p.hears src .service = true) (named : Table.ofCode table = some t)
    (asked : t.writeClass = some least) (size : record.length = recordSize t p)
    (done : writeTable t n record (writing p src table n record) = (s, .ok))
    (same : (writing p src table n record).sameBut s T) (requests : .requests ∉ T) (up : .up ∉ T) :
    p.writes src table n record (released s) .ok ∧ p.sameBut (released s) T := by
  obtain ⟨_, _, _, _, _, room⟩ := hears_free heard
  refine writes_done heard named asked size done same requests ?_
  rw [(same .up up).1]
  exact room

/-- R118: an accepted write of a group. -/
theorem group_writes (heard : p.hears src .service = true) (size : record.length = 7) (range : 1 ≤ n ∧ n ≤ 12)
    (parsed : parseLampConfig record = some c) (clear : ¬ Taken n c p) (sound : p.BudgetSound)
    (alone : p.budget.waiting = []) : ∃ q, p.writes src 15 n record q .ok ∧ Written n c p q := by
  have written := groupWritten_written (p := writing p src 15 n record) (taken_sound sound _ _) range alone c
  obtain ⟨writes, same⟩ := writes_made heard (table := 15) rfl rfl (size.trans (recordSize_groups p).symm)
    (writeGroup_ok range parsed clear) written.same (by decide) (by decide)
  exact ⟨_, writes, written.others, written.record, written.charges, written.dark, same⟩

/-- R133: an accepted write of the limit table. -/
theorem limits_write (heard : p.hears src .service = true) (size : record.length = 9)
    (parsed : parseLimits record = some l) (fits : p.budget.committed - p.budget.lampCharges ≤ (limited l p).budget.limit)
    (same : (writing p src 17 0 record).sameBut (limitsWritten l (writing p src 17 0 record)) T)
    (requests : .requests ∉ T) (up : .up ∉ T) :
    p.writes src 17 0 record (released (limitsWritten l (writing p src 17 0 record))) .ok
      ∧ p.sameBut (released (limitsWritten l (writing p src 17 0 record))) T :=
  writes_made heard (table := 17) rfl rfl (size.trans (recordSize_limits p).symm) (writeLimits_ok parsed fits) same
    requests up

end Heard

/-- Settles O57: each table's bytes read back as the records in range; a refusal leaves the part as it is; a scene is
stored, a group rewritten (`group_writes`), and a limit table accepted as its case says (`limitsWritten_alone`,
`limitsWritten_grants`, `limitsWritten_expires`). -/
theorem lampTablesWritten : Obligations.LampTablesWritten := by
  unfold Obligations.LampTablesWritten
  intro p src n cls record heard ranked
  have free := free_of_hears heard
  have passes {table : Nat} {t : Table} {least : SourceClass} (named : Table.ofCode table = some t)
      (asked : t.writeClass = some least) (may : least.rank ≤ cls.rank) (size : record.length = recordSize t p) :
      Passes p src table cls record t := ⟨heard, named, ⟨least, asked, may, by omega⟩, size⟩
  refine ⟨fun s => ⟨parseScene_bytes, parseScene_legal⟩, fun h26 => ?_, parseLampConfig_iff record,
    parseLimits_iff record, fun service => ⟨fun h7 => ?_, fun h9 => ?_⟩⟩
  · have ok := passes (t := .scenes) (table := 16) rfl rfl ranked (h26.trans (recordSize_scenes p).symm)
    exact ⟨fun hn => writes_unchanged ok (writeScene_badIndex hn),
      fun hn none => writes_unchanged ok (writeScene_badValue hn none),
      fun s hn parsed => writes_of_block ok free (writeScene_ok hn parsed)⟩
  all_goals subst service
  · have ok := passes (t := .groups) (table := 15) rfl rfl (Nat.le_refl _) (h7.trans (recordSize_groups p).symm)
    refine ⟨fun hn => writes_unchanged ok (writeGroup_badIndex hn), fun h1 h12 =>
      ⟨fun none => writes_unchanged ok (writeGroup_badValue ⟨h1, h12⟩ none), fun c x same parsed hx hsame =>
        ⟨fun taken => writes_unchanged ok (writeGroup_duplicate ⟨h1, h12⟩ parsed (hsame.mp taken)),
          fun clear sound alone => ?_⟩⟩⟩
    obtain ⟨q, writes, others, ⟨k, record⟩, charges, dark, same⟩ :=
      group_writes heard h7 ⟨h1, h12⟩ parsed (mt hsame.mpr clear) sound alone
    subst hx
    obtain ⟨start, elapsed, fresh, fade⟩ := rewritten_eq { p.group n with deferredOffers := k } c
    rw [fresh] at record
    exact ⟨q, writes, others, by rw [record], by rw [record], by rw [record], by rw [record], by rw [record],
      by rw [record], by rw [record], by rw [record], by rw [record], fun driven => by rw [record]; exact fade driven,
      by rw [record], by rw [record], charges,
      fun m node shines sent queued inFlight room => ⟨_, dark m node shines sent queued inFlight room, rfl, rfl, rfl⟩, same⟩
  · have ok := passes (t := .limits) (table := 17) rfl rfl (Nat.le_refl _) (h9.trans (recordSize_limits p).symm)
    refine ⟨fun hn => writes_unchanged ok (writeLimits_badIndex hn), ?_, fun t new hn parsed hnew => ?_⟩
    · rintro rfl none
      exact writes_unchanged ok (writeLimits_badValue none)
    · subst hn
      have hnew : new = (limited t p).budget.limit := hnew
      subst hnew
      refine ⟨fun above steady => writes_unchanged ok (writeLimits_inUse parsed above steady),
        fun fits alone kept => ?_, fun above fits sound alone kept => ?_,
        fun d x raised fits alone h1 h4 hx room kept => ?_,
        fun r x fits alone other timer h1 h12 due hx clamped reached => ?_⟩
      · obtain ⟨timer, written⟩ := limitsWritten_within (p := writing p src 17 0 record) alone kept fits
        obtain ⟨writes, same⟩ := limits_write heard h9 parsed ((Nat.sub_le _ _).trans fits)
          (written ▸ same_retimed (same_limited _ t) (by decide) timer) (by decide) (by decide)
        rw [written] at writes same
        exact ⟨_, writes, rfl, rfl, same⟩
      · obtain ⟨limits, load, others, levels, made⟩ := limitsWritten_reclaims (p := writing p src 17 0 record)
          (taken_sound sound _ _) alone kept fits
        obtain ⟨writes, same⟩ := limits_write heard h9 parsed fits made (by decide) (by decide)
        exact ⟨_, writes, limits, load, others, fun g _ _ => levels g, same⟩
      · subst hx
        have written := limitsWritten_grants (p := writing p src 17 0 record) alone kept raised room fits
        obtain ⟨waiting, holds, state, steps⟩ :=
          dialGranted_charged ⟨h1, h4⟩ (limited t (writing p src 17 0 record))
        obtain ⟨writes, same⟩ := limits_write heard h9 parsed (by omega)
          (written ▸ same_examine (sameBut_trans (sameBut_mono (same_limited _ t) (by decide)) steps) (by decide))
          (by decide) (by decide)
        rw [written] at writes same
        exact ⟨_, writes, waiting, holds, state, same⟩
      · subst hx
        obtain ⟨after, written⟩ :=
          limitsWritten_expires (p := writing p src 17 0 record) alone other fits timer due clamped reached
        obtain ⟨writes, same⟩ := limits_write (T := [.lamps, .budget]) heard h9 parsed ((Nat.sub_le _ _).trans fits)
          (written ▸ same_retimed (sameBut_trans (sameBut_mono (same_limited _ t) (by decide)) (same_freed _ _)) (by decide)
            after) (by decide) (by decide)
        rw [written] at writes same
        exact ⟨_, writes, rfl, group_putGroup_self _ _ _ ⟨h1, h12⟩, rfl, same⟩

end Sys2Proof.Machine.Lamps
